-- ==== Sys2Proof/Word.lean ====
section
/-!
DEFINITION. The widths of the machine's words (R7, R8, R15): lane words, uniform registers, bytes, one instruction word.
-/
namespace Sys2Proof

/-- One byte (R7). -/
abbrev Byte := BitVec 8
/-- One lane word of a vector register (R103, R104). -/
abbrev Word := BitVec 32
/-- One uniform register (R3). -/
abbrev Word64 := BitVec 64

end Sys2Proof
end

