-- ==== Sys2Proof/Config.lean ====
section
/-!
DEFINITION. What an implementation fixes: the capacities of R1 to R3, and the free values, which have no body so that
nothing can be proved about the number they stand for (notes/assumptions/5.md).
-/
namespace Sys2Proof.Config

/-- Cores of the package and cores per quadrant (R1 to R3). -/
def cores : Nat := 192
def coresPerQuad : Nat := 48
/-- Partitions per core, groups per core (R3). -/
def partitions : Nat := 8
def groupsPerCore : Nat := 64
/-- Chunks of a core's register store (R103). -/
def chunksPerCore : Nat := 512
/-- First DRAM address that does not exist (R59). -/
def dramTop : Nat := 0xBFD0000000
/-- Stacks of the package (R1). -/
def nStacks : Nat := 12
/-- Entries of a core's side log (R73). -/
def sideLogEntries : Nat := 256
/-- Counter limit (R242). -/
def counterMax : Nat := 63
/-- Queue lengths of the Ladle, the Griddle and the Jasper array (R91, R185, R222). -/
def ladleQueue : Nat := 16
def griddleQueue : Nat := 8
def jasperQueue : Nat := 8
/-- Dependence-table entries per quadrant, ready-queue entries per core (R290, R294). -/
def depEntries : Nat := 4096
def readyEntries : Nat := 64
/-- The Beryl cluster (R3, R351): its cores of one hart each, a core's instruction and data memories, and the shared SRAM, in bytes. The two memories of
a core are caches that no rule makes visible (notes/assumptions/41.md). -/
def harts : Nat := 128
def hartInstrBytes : Nat := 65536
def hartDataBytes : Nat := 65536
def berylSram : Nat := 2 ^ 24
/-- Bytes of the recovery reserve that one external record takes (R232, R315). -/
def bankRecordBytes : Nat := 532480
def jasperRecordBytes : Nat := 262656

/-- FREE VALUE: a byte read from host or peer memory, which lies outside the device (R69). -/
opaque outsideByte : Nat → Byte
/-- FREE VALUES of the element formats that Silivo defines (R147), fixed for the machine: whether an element of a code takes two bytes; what the
bits of an element stand for, as an integer, a power of two and a kind (finite, infinite, negative infinite, else a NaN); and the lane word and the
flags that a drain gives a cell, by code, integer, status and window. -/
opaque emuWide : Nat → Bool
opaque emuElement : Nat → Nat → Int × Int × Nat
opaque emuWord : Nat → Int → Nat → Int → Word
opaque emuFlags : Nat → Int → Nat → Int → Nat
/-- FREE VALUE: the two identity-key signatures over a report (R377). -/
opaque signature : Nat → Nat
/-- FREE VALUE: the bytes a Ladle-side or engine rule leaves without a stated value. -/
opaque openByte : Nat → Byte
/-- FREE VALUE: a 32-bit datum the manual leaves without a stated value. -/
opaque openWord : Nat → Word
/-- FREE VALUE: the detail recorded for a fault whose rule names none (R332). -/
opaque openDetail : Nat → Word64
/-- FREE VALUE: the Griddle sum of a cell once a non-finite product has entered it (R141 gives it no meaning). -/
opaque openCell : Nat → Int

/-- FREE VALUE: how far a die's tick is ahead of the earliest one; no two differ by more than 2 (R5). -/
opaque tickSkew : Nat → Fin 3
/-- FREE VALUE: how long a write to host or peer memory takes to be acknowledged over its link (R237). -/
opaque linkTicks : Nat → Nat

end Sys2Proof.Config
end

