-- ==== Sys2Proof/Syntax.lean ====
section
/-!
DEFINITION. The instructions and events of the Nymlia N8: one constructor of `Instr` per row of spec/opcode_table.json.
The 147 instruction rows carry the decoded fields of their word (R17 to R28); the 84 event rows carry the object they act
on and, where the event comes from outside the device, what the outside supplies.
-/
namespace Sys2Proof

/-- Element types by type code (R24). -/
inductive Ty
  | i8 | i16 | i32 | i64 | z8 | z16 | z32 | z64 | f16 | bf16 | f32 | b32 | ds8 | e8
deriving DecidableEq, Repr

/-- Rounding modes (R25). -/
inductive RM
  | near | zero | up | down
deriving DecidableEq, Repr

/-- The read-only specials of an operand field (R13). -/
inductive Special
  | lane | fibre | group | block | core | quad | tick | tickhi | ngrp | nfib | seed | cbase
deriving DecidableEq, Repr

/-- A register operand field (R13): a vector register, a uniform register or a special. -/
inductive Opnd
  | v (n : Nat)
  | s (n : Nat)
  | sp (x : Special)
deriving DecidableEq, Repr

/-- U, GN and GP of every instruction word (R9 to R11). -/
structure Guard where
  u : Bool
  gn : Bool
  gp : Nat
deriving DecidableEq, Repr

/-- Two-source form of format V3 (R17). -/
structure Bin where
  g : Guard
  d : Opnd
  a : Opnd
  b : Opnd
  id : Bool
  ia : Bool
  ib : Bool
  ty : Ty
deriving DecidableEq, Repr

/-- One-source form of format V3: B = 0, IB = 0. -/
structure Un where
  g : Guard
  d : Opnd
  a : Opnd
  id : Bool
  ia : Bool
  ty : Ty
deriving DecidableEq, Repr

/-- Format VI with a register source (R18). -/
structure Imm where
  g : Guard
  d : Opnd
  a : Opnd
  imm : Nat
  id : Bool
  ia : Bool
  ty : Ty
deriving DecidableEq, Repr

/-- Format VI without a source (`movi`, R157). -/
structure Imm0 where
  g : Guard
  d : Opnd
  imm : Nat
  id : Bool
  ty : Ty
deriving DecidableEq, Repr

/-- Format V4 with three register sources (R19). -/
structure Tri where
  g : Guard
  d : Opnd
  a : Opnd
  b : Opnd
  c : Opnd
  ty : Ty
  rm : RM
deriving DecidableEq, Repr

/-- `sel`: format V4 with a predicate in C (R165). -/
structure SelF where
  g : Guard
  d : Opnd
  a : Opnd
  b : Opnd
  p : Nat
  ty : Ty
deriving DecidableEq, Repr

/-- Compares into a predicate (R165, R169); `cc` is the condition code. -/
structure CmpF where
  g : Guard
  p : Nat
  a : Opnd
  b : Opnd
  ia : Bool
  ib : Bool
  ty : Ty
  cc : Nat
deriving DecidableEq, Repr

/-- Compare with an immediate (R165). -/
structure CmpI where
  g : Guard
  p : Nat
  a : Opnd
  imm : Nat
  ia : Bool
  ty : Ty
  cc : Nat
deriving DecidableEq, Repr

/-- `fclass`: one source, predicate destination, 8-bit class mask (R176). -/
structure ClassF where
  g : Guard
  p : Nat
  a : Opnd
  ia : Bool
  ty : Ty
  mask : Nat
deriving DecidableEq, Repr

/-- `plog` (R165, R167). -/
structure PlogF where
  g : Guard
  p : Nat
  pa : Nat
  pb : Nat
  tt : Nat
deriving DecidableEq, Repr

/-- `cvt` (R178). -/
structure CvtF where
  g : Guard
  d : Opnd
  a : Opnd
  id : Bool
  ia : Bool
  dty : Ty
  sty : Ty
  sat : Bool
  hi : Bool
  rm : RM
deriving DecidableEq, Repr

/-- Destination only, format V3 (`fstat.rd`, `frq`). -/
structure Dst where
  g : Guard
  d : Opnd
  id : Bool
deriving DecidableEq, Repr

/-- Format M with a data or destination field (R20). -/
structure Mem where
  g : Guard
  d : Opnd
  base : Opnd
  ofs : Nat
  sc : Nat
  ty : Ty
  scope : Nat
  pol : Nat
  qf : Nat
deriving DecidableEq, Repr

/-- Format M without D (`stz`, `prefetch`, `cwb`, `iinv`): TY is b32. -/
structure MemA where
  g : Guard
  base : Opnd
  ofs : Nat
  sc : Nat
  scope : Nat
  pol : Nat
  qf : Nat
deriving DecidableEq, Repr

/-- A transfer target of format C (R26): a displacement byte, or a far target in a uniform register. -/
inductive Target
  | disp (d : Nat)
  | far (s : Nat)
deriving DecidableEq, Repr

/-- Format E with one uniform register A (R28). -/
structure Eng where
  g : Guard
  a : Nat
deriving DecidableEq, Repr

/-- Format E with a uniform D and A. -/
structure EngD where
  g : Guard
  d : Nat
  a : Nat
deriving DecidableEq, Repr

/-- Format E with uniform A and B. -/
structure EngB where
  g : Guard
  a : Nat
  b : Nat
deriving DecidableEq, Repr

/-- A host register window (R371): the management window, or the window of a context. -/
inductive Win
  | mgmt
  | ctx (c : Nat)
deriving DecidableEq, Repr

/-- Where an error that no instruction raised is found: the core that read the failing bits, and the SRC of its record (R343, R395). -/
structure ErrSite where
  core : Nat
  code : Nat
deriving DecidableEq, Repr

/-- One instruction or event of the device. -/
inductive Instr
  -- integer and address forms, R154 to R168
  | add (f : Bin) | addi (f : Imm) | sub (f : Bin) | adds (f : Bin) (dif : Bool) | mul (f : Bin) | mulhi (f : Bin)
  | mulw (f : Bin) | mad (f : Tri) | div (f : Bin) | rem (f : Bin) | min (f : Bin) | max (f : Bin) | abs (f : Un)
  | and (f : Bin) | or (f : Bin) | xor (f : Bin) | not (f : Un) | andi (f : Imm) | ori (f : Imm) | xori (f : Imm)
  | shl (f : Bin) | shr (f : Bin) | shli (f : Imm) | shri (f : Imm) | rot (f : Bin) (right : Bool)
  | bfx (f : Tri) | bfi (f : Tri) | popc (f : Un) | clz (f : Un) | brev (f : Un)
  | cmp (f : CmpF) | cmpi (f : CmpI) | plog (f : PlogF) | sel (f : SelF) | movi (f : Imm0)
  | lea (f : Bin) (k : Nat) | ext (f : Un) (e : Nat) | bsel (f : Bin)
  -- floating point, R169 to R177
  | fadd (f : Bin) (rm : RM) | fsub (f : Bin) (rm : RM) | fmul (f : Bin) (rm : RM) | fma (f : Tri)
  | fmin (f : Bin) | fmax (f : Bin) | fabs (f : Un) | fneg (f : Un) | fdiv (f : Bin) (rm : RM) | fsqrt (f : Un) (rm : RM)
  | frcp (f : Un) | frsq (f : Un) | fexp2 (f : Un) | flog2 (f : Un) | fcmp (f : CmpF) | fclass (f : ClassF)
  | frnd (f : Un) (rm : RM) | fdot2 (f : Tri) | fstatRd (f : Dst) | fstatClr (f : Un)
  -- conversions and rand, R178 to R184
  | cvt (f : CvtF) | cvt2 (f : Bin) (rm : RM) | qds8 (f : Bin) (k : Nat) | dqds8 (f : Bin) (k : Nat) (rm : RM)
  | escale (f : Un) (k : Nat) | rand (f : Bin)
  -- register store and cross-lane, R106 to R128
  | allot (g : Guard) (m : Nat) | shrink (g : Guard) (m : Nat) | ldw (f : Mem) | stw (f : Mem)
  | ldi (g : Guard) (d : Opnd) (a : Nat) (b : Opnd) (ty : Ty) | sti (g : Guard) (d : Opnd) (a : Nat) (b : Opnd) (ty : Ty)
  | mov (f : Un) | perm (g : Guard) (d a : Nat) (b : Opnd) | bcast (g : Guard) (d : Opnd) (a : Nat) (b : Opnd) (ty : Ty)
  | shfl (g : Guard) (d a : Nat) (b : Opnd) (mode : Nat) | vote (g : Guard) (d : Nat) (a : Nat) (mode : Nat)
  | redux (g : Guard) (d a : Nat) (op : Nat) (ty : Ty) (rm : RM)
  -- main memory and Tureen, R76 to R90; code maintenance, R276 to R279
  | ld (f : Mem) | st (f : Mem) | stz (f : MemA) | prefetch (f : MemA) | cwb (f : MemA) | ldt (f : Mem) | stt (f : Mem)
  | iinv (f : MemA) | ifence (g : Guard)
  -- atomics and ordering, R241 to R258
  | atom (f : Mem) | red (f : Mem) | fence (g : Guard) (scope : Nat) | wait (g : Guard) (ld st cp tl : Nat)
  | rtake (f : Mem) | rhead (f : Mem) | tlset (f : Mem) | tladd (f : Mem) | tlwait (f : Mem)
  -- control flow, R267 to R275
  | br (g : Guard) (t : Target) | call (g : Guard) (t : Target) | callInd (g : Guard) (a : Opnd) | ret (g : Guard)
  | jmpi (g : Guard) (a : Opnd) | exit (g : Guard) | fspawn (g : Guard) (d : Nat) (t : Target) | fend (g : Guard)
  | fsort (g : Guard) (d a : Nat) (b : Nat) | bar (g : Guard) | barCl (g : Guard) | yield (g : Guard) | nop (g : Guard)
  -- Ladle, R98
  | lfetch (f : Eng) | lcast (f : Eng) | lput (f : Eng) | lcopy (f : Eng) | lpermit (f : Eng)
  -- Griddle, R204
  | gmma (f : Eng) | gdrain (f : Eng) | gload (f : Eng) | gzero (f : Eng) | gsave (f : EngB) | gresume (f : EngB) | gstat (f : EngD)
  -- Jasper, R221
  | cload (f : EngB) | cstore (f : EngB) | cseed (f : Eng) | ctab (f : Eng)
  | cinfer (g : Guard) (d a : Nat) (mask : Nat) | cvote (g : Guard) (d a : Nat) (mask : Nat)
  | ctrain (g : Guard) (a b : Nat) (mask set : Nat) (sall : Bool) | cfb (g : Guard) (a b : Nat) (set k : Nat) (two : Bool)
  -- recovery, R310
  | ensure (g : Guard) (t : Target) (d : Nat) | accept (g : Guard) (a : Nat) | elseby (g : Guard) (t : Target)
  | elseerr (g : Guard) | jtest (g : Guard) | cjoin (f : Eng) | frq (g : Guard) (d : Nat)
  -- tasks, R303
  | tkpost (f : Eng) | launch (g : Guard) (d : Option Nat) (a : Nat) | dsync (g : Guard) | await (f : Eng)
  -- mailboxes and system, R347, R365
  | msend (f : EngD) | mrecv (f : Eng) | mpoll (f : EngD) | pverInc (g : Guard) (d : Nat) | pverRd (g : Guard) (d : Nat)
  | trap (g : Guard) (imm : Nat) | srd (g : Guard) (d : Nat) (sel : Nat) | swr (g : Guard) (a : Nat) (sel : Nat)
  | ctxq (g : Guard) (d : Nat) (a b : Nat)
  -- host commands, R281, R283, R374, R376
  | hostLaunch (ctx : Nat) | translationInvalidate (ctx : Nat) | unpin (ctx : Nat) | resume (ctx : Nat) | cancel (ctx : Nat)
  | episodeStart (ctx : Nat) | episodeKill (ctx : Nat) | collective (ctx : Nat)
  -- host register writes, R372
  | registerWrite (fn : Nat) (win : Win) (off : Nat) (val : Nat) | erbStatusClear (unit val : Nat)
  | dramcActstatClear (stack val : Nat) | evqLostClear (fn ctx q val : Nat) | onyxAlarmClear (val : Nat)
  | tureenSlcfgWrite (slice val : Nat) | coreDccfgWrite (core val : Nat) | berylEnvcfgWrite (val : Nat)
  | cqTailWrite (fn ctx q val : Nat)
  -- Onyx, host and peer accesses
  | attestation (nonce : Nat) | imageLoad (kind : Nat) (ecdsaOk lmsOk : Bool) (hash : Nat) (codes : List Nat)
  | hostRead (fn ctx ptr n : Nat) | hostWrite (fn ctx ptr : Nat) (bytes : List Byte) | peerWrite (port pa : Nat) (bytes : List Byte)
  -- fault service and side log
  | pageMapped (ctx va : Nat) | pageInvalid (ctx va : Nat) | sideLogEntryFree (core : Nat)
  -- blocks, launches, tasks
  | blockPlace (uid first : Nat) | placementDone (uid : Nat) | preempt (uid : Nat) | awaitSave (uid : Nat) | blockRetire (uid : Nat)
  | blockFreeze (uid : Nat) | cpCancel (uid : Nat) | faultReportAfterIssue (uid : Nat) | launchEnd (lid : Nat)
  | taskStart (uid : Nat) | taskComplete (uid : Nat) | renameWriteback (uid : Nat) | queueBalance (quad idx : Nat)
  | allotGrant (core : Nat) | shrinkRelease (uid grp : Nat)
  -- timed events
  | barrierTimeout (uid : Nat) | cycleLimitExpiry (uid : Nat) | cycbudExpiry (uid : Nat)
  | demotionEnd (k : Nat) | reconvergenceTimeout (k : Nat) | bundleMerge (k j : Nat) | starvationPromotion (k : Nat)
  -- engines
  | ladleDelivery (cmd core : Nat) | ladleComplete (cmd : Nat) | griddleOpStart (cmd : Nat) | griddleOpComplete (cmd : Nat)
  | jasperOpApply (core : Nat) | silentError (uid : Nat) (src : ErrSite) (addr synd : Nat) | frameFail (uid : Nat)
  -- conversations
  | convVoteApply (uid : Nat) | convNotice (uid : Nat) | vtoExpiry (pa : Nat)
  -- mailboxes and episodes
  | msendApply (op : Nat) | mrecvDelivery (op lane : Nat) | bmbTake (mbx : Nat)
  | bmbGive (mbx : Nat) (val : Nat) (hdr : Nat) (payload : List (Nat × Byte)) | episodeRecordWrite (mbx : Nat) (rec : Nat)
  | episodeViolation (mbx src addr synd : Nat) | watchdogExpiry (mbx cycles : Nat) | episodeCycbudIdle (mbx cycles : Nat) | episodeStop (mbx : Nat)
  -- memory controllers, links, Onyx alarms, bring-up, power
  | rowAlert (stack bank : Nat) | backoffEnd (stack bank clocks : Nat) | flitReplay (port sq crc : Nat) | linkRetrain (port : Nat) (ok : Bool)
  | verificationFailure | glitch | tamperBreach | functionReady (bit : Nat) (cores : Nat) | stackTrainingFail (stack : Nat)
  | deviceReset | thermalThrottle (die temp : Nat)
  -- completion of accesses
  | accessPerformed (op lane : Nat) | loadReturned (op lane : Nat) | writeCompletionTimePassed (op : Nat)
  | policyVersionApply (op : Nat) | peerRead (port pa n : Nat)
  | collectiveComplete (id : Nat) (reachable : Bool) (contribs : List (List Byte)) | contextCreation (ctx : Nat)
deriving DecidableEq, Repr

end Sys2Proof
end

