-- ==== Sys2Proof/Machine/State.lean ====
section
/-!
DEFINITION. The state of the Nymlia N8 as plain data, the reasons a step can stop, and the state after reset.
INVENTORY.md lists every field with the rule that names it. Large stores are sparse lists of (key, value) pairs in one
canonical form: keys strictly rising and no entry equal to the store's default (Machine/Sparse.lean).
-/
namespace Sys2Proof.Machine

/-- A sparse store keyed by a number; a key without an entry holds the store's default. -/
abbrev FMap (β : Type) := List (Nat × β)

/-- Why a step stops with a fault. There is no such reason: every fault of the device is an entry the manual describes
(frame failure R318, freezing R334, parking R72), so a meaning takes it as a next state. -/
inductive Fault
deriving DecidableEq, Repr

/-- Why a step is refused. -/
inductive Refusal
  /-- Raised by an arm of `exec` whose instruction has no meaning yet. Safe: the run stops there. -/
  | notModelled (mnemonic : String)
deriving DecidableEq, Repr

/-- Fault classes (R331). -/
inductive FClass
  | il | hd | al | ac | pf | ma | cl | se | pz | cf | bt | fm | mb | tr
deriving DecidableEq, Repr

/-- A recorded fault or frame failure: FCLASS or CAUSE code, PC, detail and faulting fibre (R331, R332, R349). -/
structure FaultRec where
  code : Nat
  pc : Nat
  det : Nat
  grp : Nat
  lane : Nat
deriving DecidableEq, Repr

/-- Where an access is performed (R69, R112): not known yet; DRAM physical memory with its memory type; host or peer memory;
a byte of a Tureen region entry; a byte of a group's store window; a byte of a core's Lid. -/
inductive Tgt
  | none
  | mem (pa mt : Nat)
  | out (a mt : Nat)
  | region (k off : Nat)
  | win (bk g off : Nat)
  | lid (core off : Nat)
deriving DecidableEq, Repr

/-- What a live fibre is doing (R72, R107, R108, R126, R241, R254, R258, R273, R307, R368): ready, or at a `fence` or `ifence`
that first tried to issue at operation number `sq`, both of which the Whisk issues; or waiting. A fibre at `shrink` took the chunks from `m` to below `top`
from the allotment. -/
inductive FStat
  | ready
  | bar
  | barCl
  | coll (i : Instr) (holds : Bool)
  | fence (sq : Nat)
  | page (ptr : Nat)
  | sideFull
  | lane
  | allot (m sq : Nat)
  | shrink (m top : Nat)
  | timeline (t : Tgt) (thr sq : Nat) (aw : Bool)
deriving DecidableEq, Repr

/-- A reconvergence record of a bundle (R263): the point and the record it joins. -/
structure Recon where
  rpc : Nat
  key : Nat
deriving DecidableEq, Repr

/-- A live fibre (R259). `livev` and `lives` are the live counts of its block's header, raised by what its instructions have written since (R32). `pc` names the next instruction word when `left` is 1 to 64 (words left in the block); otherwise a
header about to be entered: `left` 0 by falling through, 65 at launch, 66 by alternate dispatch, 67 as `br` (R34). `rcv` is
the reconvergence header of its block. Of the call stack the newest `chip` entries are held in the core; `spoil` is the mask of the 128-byte lines of
its spill slot that cannot be corrected (R266). `recon` are the reconvergence records of a fibre that is in no bundle while it is parked or waits (R263). -/
structure Fibre where
  pc : Nat
  left : Nat
  preds : BitVec 16
  stack : List Nat
  stat : FStat
  ahead : List (Nat × Nat)
  posts : Nat
  last : Nat
  rcv : Option Nat
  livev : Nat
  lives : Nat
  chip : Nat
  spoil : Nat
  recon : List Recon
deriving DecidableEq, Repr

/-- The four counters of a group (R242); `none` for operations that count under none. -/
inductive Cnt
  | ld | st | cp | tl | none
deriving DecidableEq, Repr

/-- The operations that outlive their issue (R118, R242). -/
inductive OpKind
  | ld | ldt | ldw | st | stt | stw | stz | cwb | iinv | atom | red | rtake | rhead | tlset | tladd
  | msend | mrecv | mpoll | pverInc | pverRd | ctxq | eng | put
deriving DecidableEq, Repr

/-- Where one lane of an operation stands: to be performed or returned; parked on a page (R72); in the side log with its
sequence number (R73); waiting for a free side-log entry; waiting at a granule in arrival order (R77); holding a ring ticket (R254); to be performed in the order a pop fixed (R317);
done. -/
inductive LStat
  | pending
  | page
  | side (sq : Nat)
  | sideFull
  | granule (sq : Nat)
  | ticket
  | commit
  | done
deriving DecidableEq, Repr

/-- One lane of an outstanding operation. `tgt` is what the checks at issue found; `src` and `src2` are its source data (for a
store `src2` is the mask of the bytes it writes); `dl` is the mask of destination lanes. -/
structure Lane where
  fk : Nat
  ptr : Nat
  tgt : Tgt
  st : LStat
  src : Nat
  src2 : Nat
  dl : Nat
  val : Nat
  wct : Nat
  wct4 : Nat
deriving DecidableEq, Repr

/-- An outstanding operation (R242): what one instruction has under way for one group. `ins` is common to the operations of one instruction, which
a bundle may issue for several groups (R249). -/
structure Op where
  id : Nat
  ins : Nat
  bk : Nat
  g : Nat
  core : Nat
  cls : Cnt
  kind : OpKind
  pc : Nat
  d : Opnd
  uni : Bool
  ty : Ty
  n : Nat
  pol : Nat
  qf : Nat
  scope : Nat
  aux : Nat
  frame : Nat
  fin : Bool
  lanes : List Lane
deriving DecidableEq, Repr

/-- Engine commands (R98, R204, R221). -/
inductive CmdKind
  | lfetch | lcast | lput | lcopy | lpermit
  | gmma | gdrain | gload | gzero | gsave | gresume | gstat
  | cload | cstore | cseed | ctab | cinfer | cvote | ctrain | cfb
deriving DecidableEq, Repr

inductive CmdStat
  | queued | running | done
deriving DecidableEq, Repr

/-- A queued engine command: what its instruction fixed at issue and how far it has come: `prog` counts the granules done by receiving
core, `parts` lists the cores whose part is done, `skip` the places a later command of the same Ladle has written (R96). `dst` lists the byte ranges (start,
length) of the issuing group's own window that it will write, `du` the uniform register (R118); `page` is the pointer whose page it waits for; `fill` is the restored block for which it replays a recorded fill (R340). -/
structure Cmd where
  id : Nat
  op : Nat
  bk : Nat
  g : Nat
  core : Nat
  fk : Nat
  pc : Nat
  kind : CmdKind
  addr : Nat
  b : Nat
  sub : Nat
  desc : BitVec 1024
  va : List Word
  vb : List Word
  stat : CmdStat
  parts : List Nat
  prog : FMap Nat
  skip : List (Tgt × Nat)
  wct : Nat
  frame : Nat
  dst : List (Nat × Nat)
  du : Option Nat
  page : Option Nat
  fill : Option Nat
deriving DecidableEq, Repr

/-- A staged write (R71, R88, R300): its owner, the frame depth it belongs to (0: the task's own staging), and the access by
global pointer with its byte mask. `red` holds the operation code and type of a reduction contribution; `inh` marks a write
that the task sees but did not make (R298); `orig` is the id path of the task that made it; `sq` is the number of the next operation when it was
staged, which orders it against its fibre's other accesses (R75); `old` says that its owner's last fold took it in (R299). -/
structure Stg where
  bk : Nat
  g : Nat
  depth : Nat
  pc : Nat
  fk : Nat
  ptr : Nat
  n : Nat
  data : Nat
  mask : Nat
  red : Option (Nat × Ty)
  scope : Nat
  pol : Nat
  inh : Bool
  orig : List Nat
  sq : Nat
  old : Bool
deriving DecidableEq, Repr

/-- Tag of a line the home slices hold (R60, R62). -/
structure LineTag where
  dirty : Bool
  zero : Bool
  poison : Bool
deriving DecidableEq, Repr

/-- Lease records of a line at its home (R236). -/
structure Lease where
  holders : List (Nat × Nat)
  ovf : Nat
deriving DecidableEq, Repr

/-- A core data cache's copy of a line (R235). -/
structure Copy where
  core : Nat
  line : Nat
  exp : Nat
  bytes : List Byte
  poison : Bool
deriving DecidableEq, Repr

/-- A Tureen region entry in force (R84, R85). `lid` names the launch that created it (0: driver-owned). -/
structure Region where
  tbase : Nat
  size : Nat
  gbase : Nat
  sfirst : Nat
  scount : Nat
  fill : Bool
  wb : Bool
  fei : Bool
  rd : Bool
  w : Bool
  lid : Nat
deriving DecidableEq, Repr

/-- A present region line (R86, R87); `zero` says that it is known zero and holds no data (R60, R78). -/
structure TLine where
  dirty : Bool
  zero : Bool
  pinned : Bool
  poison : Bool
deriving DecidableEq, Repr

/-- A write sent out of the device: to host memory (port none) or over a Dredy port (R69). -/
structure ExtWrite where
  port : Option Nat
  addr : Nat
  bytes : List Byte
deriving DecidableEq, Repr

/-- Memory in all its places. `dpoison` are the lines of DRAM that carry the poison marker, `dbad` those with a codeword that cannot be corrected
(its syndrome plus 1; R62). `preq` are the requests made to the fault service, `inval` the pages it has declared invalid and not mapped since,
`verdict` the one it declares invalid at this step, by context and 64 KiB range (R72). -/
structure MemSt where
  dram : List Host.Cell
  dpoison : FMap Bool
  dbad : FMap Nat
  zdir : FMap Bool
  home : List Host.Cell
  htag : FMap (Option LineTag)
  leases : FMap Lease
  copies : List Copy
  icache : List Host.Cell
  iclines : FMap Bool
  regions : FMap (Option Region)
  tlines : FMap (Option TLine)
  tmem : List Host.Cell
  tfe : FMap Bool
  preq : List (Nat × Nat)
  inval : List (Nat × Nat)
  verdict : Option (Nat × Nat)
  ext : List ExtWrite
  stages : List Stg
deriving DecidableEq, Repr

/-- The register store, the uniform registers and the fibres. Vector registers are keyed by block, group and register
and then by lane; poison marks and full/empty bits are masks per register. -/
structure RegSt where
  vregs : FMap (FMap Word)
  vpoison : FMap Nat
  fe : FMap Nat
  uregs : FMap Word64
  upoison : FMap Bool
  fibres : FMap (Option Fibre)
deriving DecidableEq, Repr

/-- A Griddle accumulator bank (R140, R185, R202, R210). Cells and checksum cells are (integer, status), keyed by 128·m + n.
`satop`, `wset0`, `first` and `ws` serve the comparison and the recomputation (R198, R199): a cell of the running operation has saturated, WSET was
0 at the start of an accumulating one, the cells at its start, and the window at its start and after each chunk (none known: empty). -/
structure Bank where
  cells : FMap (Int × Nat)
  w : Int
  wmode : Bool
  wset : Bool
  sat : Bool
  bad : Bool
  susp : Bool
  ent : Bool
  kdone : Nat
  blk : BitVec 1024
  latch : FMap Int
  crow : FMap (Int × Nat)
  ccol : FMap (Int × Nat)
  satop : Bool
  wset0 : Bool
  first : FMap Int
  ws : List Int
  lastchk : Nat
deriving DecidableEq, Repr

/-- A Jasper clause array (R212). -/
structure Jas where
  cells : FMap Nat
  cmap : FMap Nat
  nudge : FMap Nat
  t : Nat
  nf : Nat
  step : Nat
deriving DecidableEq, Repr

/-- The engines' state by core. Lid bytes are keyed by core, slot and offset; a slot's holder is its block's uid + 1;
a permit is (granting block, granting group). `saves` are the banks with a suspended operation as their `gsave`s left them: a `gresume` of the same
contents continues it bit for bit (R202), which takes more than the area has room for (notes/assumptions/63.md). -/
structure EngSt where
  banks : FMap (Option Bank)
  lid : List Host.Cell
  lidHold : FMap Nat
  jas : FMap (Option Jas)
  jasHold : FMap Nat
  permits : FMap (Option (Nat × Nat))
  saves : List Bank
deriving DecidableEq, Repr

/-- Items of the recovery cache (R314, R315); `m` is a cluster member. -/
inductive Item
  | vreg (r : Nat)
  | ureg (r : Nat)
  | preds
  | gsw
  | allot
  | fpos (l : Nat)
  | bank (m b : Nat)
  | jasper (m : Nat)
deriving DecidableEq, Repr

/-- A recovery record (R315): the generation that owns it, the item, and its prior value; `off` is the byte offset in the reserve of an external
record's data, `spill` that of the record itself once it has spilled there. -/
structure Rec where
  gen : Nat
  tagged : Bool
  item : Item
  vals : List Nat
  poison : Nat
  held : List (Nat × Nat)
  bank : Option Bank
  jas : Option Jas
  off : Nat
  spill : Option Nat
deriving DecidableEq, Repr

/-- A group (R104, R138, R314, R315). `chunks` is the chunk map; `held` are chunks kept above the allotment, each with
its window chunk number (R107 to R109). -/
structure Group where
  core : Nat
  part : Nat
  chunks : List Nat
  held : List (Nat × Nat)
  gsw : BitVec 32
  gen : Nat
  recs : List Rec
deriving DecidableEq, Repr

/-- A recovery frame (R308, R312, R313, R349). `epc` and `eleft` are the PC and the words left at its `ensure`; `acc`,
`cont` and `alts` are the address of its `accept`, its continuation and the words of its `elseby` list, read at `ensure`. `dead` is the tick at which its limit expires, none while it is paused or
has no limit; `left` is what remains then. `sil` is
the silent error for which a conversational frame waits for its release (R329). `heads` keeps each fibre's live counts and
reconvergence header as at its `ensure`. `rlog` is the conversation range log of the attempt (R328). -/
structure Frame where
  test : Nat
  lim : Nat
  k : Nat
  nalt : Nat
  gens : List Nat
  repl : Bool
  cause : Nat
  sil : Option FaultRec
  conv : Option (Nat × Nat)
  depths : FMap Nat
  heads : List (Nat × Nat × Nat × Option Nat)
  dead : Option Nat
  left : Nat
  fpc : Nat
  fdet : Nat
  floc : Nat
  epc : Nat
  eleft : Nat
  acc : Nat
  cont : Nat
  alts : List Nat
  rlog : List (Tgt × List Byte)
deriving DecidableEq, Repr

/-- Block states (R289). -/
inductive BState
  | pending | placing | resident | saved | frozen | retired
deriving DecidableEq, Repr

/-- How a resident block runs (R320, R334, R338): running; a failed frame being restored; a silent error being replayed; waiting
for a conversation; stopping to freeze; stopping to be saved. -/
inductive BMode
  | run | failing | replaying | voting | freezing | saving
deriving DecidableEq, Repr

/-- A tile task's place in the dependence order (R290 to R295, R298): `waits` are the earlier entries it waits for, `olds` those its
renamed tiles `ren` (first pointer, bytes, physical address of the buffer) wait for; `bufset` says which bytes of a buffer are written, by pointer;
`ready` says that it stands in its core's ready queue, at place `rq`. -/
structure TaskRec where
  desc : BitVec 1024
  child : Nat
  poster : Nat
  quad : Nat
  core : Nat
  arr : Nat
  waits : List Nat
  olds : List Nat
  ready : Bool
  done : Bool
  ren : List (Nat × Nat × Nat)
  bufset : FMap Bool
  rq : Nat
deriving DecidableEq, Repr

/-- What a save takes off the cores of a block's cluster, by member number (R338 to R340): permits are (member, ring and stage, group);
commands name their member in place of their core. `back` says that a restore has put all but the commands and permits on the new cores. -/
structure Saved where
  back : Bool
  banks : List (Nat × Nat × Bank)
  jas : List (Nat × Jas)
  lid : List (Nat × Nat × List Host.Cell)
  permits : List (Nat × Nat × Nat)
  cmds : List Cmd
  fills : List (Nat × Cmd)
deriving DecidableEq, Repr

/-- A child of a block: a posted task, or a child launch (R293, R305). -/
structure Kid where
  idx : Nat
  isLaunch : Bool
  ref : Nat
  folded : Bool
deriving DecidableEq, Repr

/-- A block or tile task (R289 to R293). `tag` names the release to abandon that ends it, and its rank among the blocks that this release ends (R390). -/
structure Block where
  uid : Nat
  lid : Nat
  idx : Nat
  path : List Nat
  task : Option TaskRec
  cores : List Nat
  ngrp : Nat
  st : BState
  mode : BMode
  groups : List Group
  frames : List Frame
  clFirst : FMap (Option Nat)
  bto : Nat
  cyc : Nat
  clDone : Bool
  since : Nat
  fault : Option FaultRec
  held : Bool
  effects : Bool
  replayed : Bool
  stopAt : Nat
  failDepth : Nat
  reports : List (FaultRec × Nat)
  saved : Option Saved
  kids : List Kid
  tickets : List (Tgt × Nat)
  synced : Bool
  tag : Option (Nat × Nat)
deriving DecidableEq, Repr

/-- The region control block of a launch (R284). -/
structure Rcb where
  addr : Nat
  parent : Nat
  seed : Nat
  cbase : Nat
  cycbud : Nat
  save : Nat
  rres : Nat
  rrsize : Nat
  tbud : Nat
  tgbase : Nat
  rsbud : Nat
  cores : Nat
  fdom : Nat
  ovr : Nat
  prio : Nat
  det : Bool
  depth : Nat
  bto : Nat
  red : List (Nat × Nat × Nat)
deriving DecidableEq, Repr

/-- A launch and its region (R282 to R286, R302). `lid` is the context's number times 2^64 plus the launch id. `owner` is the block whose
`launch` made it, none for the host's; `anc` lists the launches above it; `next` is the rank of the next block to be placed; `halt` says that
no further block is placed; `dquads` are the quadrants that R296 counts; `ftag` is the tag of the block whose fault is recorded (R390); the four reduction
ranges are kept as the template has them (R284). -/
structure Launch where
  lid : Nat
  ctx : Nat
  grid : Nat
  clus : Nat
  grpm1 : Nat
  image : Nat
  entry : Nat
  consts : List Nat
  allotc : Nat
  resc : Nat
  done : Nat
  outs : List (Nat × Nat)
  rcb : Rcb
  owner : Option Nat
  anc : List Nat
  next : Nat
  halt : Bool
  dquads : List Nat
  merged : Bool
  tstart : Nat
  fault : Option FaultRec
  fblock : Nat
  ftag : Option (Nat × Nat)
  status : Nat
  pver : Nat
  rings : List Tgt
  snap : MemSt × Bool
  jasper : Bool
deriving DecidableEq, Repr

/-- A bundle (R261, R263, R265). `back` lists the backward branches it has executed since one of its fibres last changed something; `yielded` says
that a `yield` demoted it. -/
structure Bundle where
  fibs : List Nat
  last : Nat
  demoted : Option Nat
  yielded : Bool
  back : List Nat
  changed : Bool
  recon : List Recon
  hold : Option Nat
  promoted : Bool
deriving DecidableEq, Repr

/-- A configuration record (R378): the enabled cores, the SKU limits and the key hashes, its counter, the hash that a report names (R377), and whether
each of its two signatures verifies, which the outside decides (notes/assumptions/56.md). -/
structure CfgRec where
  cores : Nat
  sku : Nat
  keys : Nat
  counter : Nat
  hash : Nat
  ecdsa : Bool
  lms : Bool
deriving DecidableEq, Repr

/-- An access of an episode's hart by its U-mode address (R354): a load, a fetch or a store of bytes; or its wait for its mailbox by `wfi` (R351). -/
inductive HartAcc
  | wfi
  | load (n : Nat)
  | fetch (n : Nat)
  | store (bytes : List Byte)
deriving DecidableEq, Repr

/-- What happens at a step beside its event. What storage does of itself (R57, R60, R62, R83, R395): a home slice evicts a line, whose data it may find
uncorrectable; a codeword of DRAM is read and corrected for an access of a context, or has gone bad; a cached line, a region line, a directory
byte, or a line of a fibre's call-stack spill has gone bad; a unit logs a corrected record; a command or a mailbox operation takes a granule
of its record, those of a mask, as they stand now. What the hub's fabric loses: a member's vote (R330). What the outside does: a hart's access
(R354), a function's read or write of a register through a base address register (R371), and a configuration record put into the flash partition (R378). -/
inductive Mishap
  | evict (ln : Nat) (bad : Bool)
  | ecc (ctx : Option Nat) (pa synd : Nat) (fixed : Bool)
  | slice (ctx : Option Nat) (pa synd : Nat)
  | tline (ctx : Option Nat) (k off synd : Nat)
  | zeroDir (ctx : Option Nat) (pa synd : Nat)
  | spill (fk line : Nat)
  | corrected (ctx : Option Nat) (unit src addr synd : Nat)
  | reread (id lane grans : Nat)
  | voteLost (uid : Nat)
  | hart (m addr : Nat) (acc : HartAcc)
  | barRead (fn bar off : Nat)
  | barWrite (fn bar off val : Nat)
  | flash (r : CfgRec)
deriving DecidableEq, Repr

/-- One agenda entry: the ticks that pass before it, the hardware's choices at that step (old table values R70, a dropped
cached copy R235, words fetched ahead R277, bundles whose word or operands are not at hand yet R261), what storage does of itself, and what happens: an event, or the issue of bundle `k`. -/
inductive Act
  | ev (i : Instr)
  | issue (k : Nat)
deriving DecidableEq, Repr

structure Entry where
  dt : Nat
  old : Bool
  drop : Bool
  ahead : Nat
  late : List Nat
  mis : List Mishap
  act : Act
deriving DecidableEq, Repr

/-- The choices in force at the present step. -/
structure Choice where
  old : Bool
  drop : Bool
  ahead : Nat
  late : List Nat
deriving DecidableEq, Repr

/-- Mailbox states (R357, R369). -/
inductive MState
  | free | idle | act | run | obs | ended
deriving DecidableEq, Repr

/-- A step mailbox and its episode (R353, R355, R357, R363, R364); `hart` is the hart that its running step has, `asleep` says that it waits for an event of
the mailbox (R351), and `hdr` the observation
header as that hart sees and writes it, `obs` the observation given. -/
structure Mbx where
  st : MState
  step : Nat
  epi : BitVec 256
  bound : Option Nat
  ver : Option Nat
  kill : Bool
  running : Bool
  hart : Option Nat
  asleep : Bool
  act : BitVec 512
  obs : BitVec 512
  hdr : BitVec 512
  dead : Option Nat
  cycles : Nat
deriving DecidableEq, Repr

/-- A conversation's registrations at its home (R327, R329). -/
structure Conv where
  members : List Nat
  ready : List Nat
  dead : Option Nat
  opener : Option (Nat × FaultRec)
deriving DecidableEq, Repr

/-- A vote or report on its way to a conversation object (R329, R330). -/
inductive Vote
  | acc | fail | replay | ready
deriving DecidableEq, Repr

/-- A conversation's release of a member (R329): to pop, to its next alternate, to its current routine again, to abandon. -/
inductive Release
  | pop | next | replay | abandon
deriving DecidableEq, Repr

/-- A host request to start an episode that the supervisor has not answered (R374): the queue entry and its address. -/
structure Ask where
  ctx : Nat
  d : Nat
  addr : Nat
deriving DecidableEq, Repr

/-- The hub: mailboxes, requests for episodes, conversations, votes and notices under way; `held` are the
releases of members that are saved, or still being restored (R325); `word` is what the last read of an episode's hart
returned (R354, R359). -/
structure HubSt where
  asks : List Ask
  mbx : FMap (Option Mbx)
  convs : FMap (Option Conv)
  votes : List (Nat × Nat × Vote)
  notices : List Nat
  held : List (Nat × Release)
  word : Nat
deriving DecidableEq, Repr

/-- The registers of a context window (R372) and what the device keeps for the context: `cmd` is the queue entry that has been read and not yet completed, with
its address (R281). -/
structure Ctx where
  made : Bool
  ptroot : Nat
  bndbase : Nat
  trgbase : Nat
  scpbase : Nat
  rncfg : Nat
  diag : Nat
  lring : Nat
  lrcnt : Nat
  cqcfg : FMap Nat
  cqptr : FMap Nat
  evqcfg : FMap Nat
  evqptr : FMap Nat
  nextLid : Nat
  tsnap : List Host.Cell
  cmd : Option (Nat × Nat)
deriving DecidableEq, Repr

/-- An error record bank (R343). -/
structure Erb where
  valid : Bool
  rank : Nat
  src : Nat
  ovf : Nat
  cv : Bool
  ctx : Nat
  addr : Nat
  synd : Nat
  tick : Nat
deriving DecidableEq, Repr

/-- What a host or peer read returned (R63, R371, R396). -/
inductive Reply
  | none
  | data (bytes : List Byte) (poison : Bool)
  | abort
  | unsupported
deriving DecidableEq, Repr

/-- A running collective command (R376): its queue entry and address, this module's contribution, and the write completion time of its
result once that is written. -/
structure Coll where
  id : Nat
  ctx : Nat
  d : Nat
  addr : Nat
  own : List Nat
  wct : Option Nat
deriving DecidableEq, Repr

/-- An attestation report (R377): the two signatures are absent from an erased device's. -/
structure Report where
  nonce : Nat
  images : List (Nat × Nat)
  config : Option Nat
  erased : Bool
  sigs : Option (Nat × Nat)
deriving DecidableEq, Repr

/-- Host-visible registers and the units behind them; `erbNew` is by unit the bank as it stood had the host cleared it at a tick, with that tick
(R344), `rowref` by bank and stack the MTHR and the NBR that acted at its last alert (R64, R65),
`links` and `linkSq` by port the failures in a row and the flit that failed, `gone` the mask of the ports whose link has failed, `lag` by compute die the
tick of its last clock step and the sixteenths of a core clock that its clock had lost by then, and `flash`, `cfgCtr`, `cfgSku` and `cfgKeys` the configuration partition
and what the record in force holds (R343 to R346, R352, R65, R82, R105, R372, R375 to R381). -/
structure HostSt where
  ctxs : FMap Ctx
  erb : FMap (Option Erb)
  erbNew : FMap (Option (Nat × Erb))
  irq : Bool
  reply : Reply
  hubReady : Nat
  coreRdy : FMap Nat
  trainFail : FMap Bool
  alarm : Nat
  verFails : Nat
  erased : Bool
  stopped : Bool
  envcfg : Nat
  ctxmap : FMap Nat
  route : FMap Nat
  actcfg : FMap Nat
  actstat : FMap Nat
  backoff : FMap Bool
  rowref : FMap (Option (Nat × Nat))
  slcfg : FMap Nat
  dccfg : FMap Nat
  links : FMap Nat
  linkSq : FMap Nat
  gone : Nat
  throttle : FMap Nat
  lag : FMap (Option (Nat × Nat))
  silivo : List Nat
  images : FMap Nat
  attest : Option Report
  cfgCores : Nat
  cfgHash : Nat
  cfgSku : Nat
  cfgKeys : Nat
  cfgCtr : Nat
  flash : List CfgRec
  colls : List Coll
deriving DecidableEq, Repr

/-- The device. `turn` is the core of the last bundle issued at this tick (R332). -/
structure State where
  tick : Nat
  turn : Nat
  seq : Nat
  free : Nat
  agenda : List Entry
  ch : Choice
  cur : List Nat
  ipc : Nat
  bundles : List Bundle
  mem : MemSt
  rs : RegSt
  ops : List Op
  cmds : List Cmd
  eng : EngSt
  blocks : List Block
  launches : List Launch
  hub : HubSt
  host : HostSt
deriving DecidableEq, Repr

def MemSt.reset : MemSt :=
  { dram := [], dpoison := [], dbad := [], zdir := [], home := [], htag := [], leases := [], copies := [], icache := [], iclines := [],
    regions := [], tlines := [], tmem := [], tfe := [], preq := [], inval := [], verdict := none, ext := [], stages := [] }

def RegSt.reset : RegSt := { vregs := [], vpoison := [], fe := [], uregs := [], upoison := [], fibres := [] }

def EngSt.reset : EngSt := { banks := [], lid := [], lidHold := [], jas := [], jasHold := [], permits := [], saves := [] }

def HubSt.reset : HubSt := { asks := [], mbx := [], convs := [], votes := [], notices := [], held := [], word := 0 }

/-- A bank as reset leaves it (notes/assumptions/2.md): all cells zero and finite, every bit clear. -/
def Bank.reset : Bank :=
  { cells := [], w := 0, wmode := false, wset := false, sat := false, bad := false, susp := false, ent := false, kdone := 0,
    blk := 0, latch := [], crow := [], ccol := [], satop := false, wset0 := false, first := [], ws := [], lastchk := 0 }

/-- The array at the grant (R213). -/
def Jas.reset : Jas := { cells := [], cmap := [], nudge := [], t := 1, nf := 1, step := 0 }

/-- A context window's registers at reset (R280, R336, R373; notes/assumptions/2.md for those without a stated value). -/
def Ctx.reset : Ctx :=
  { made := false, ptroot := 0, bndbase := 0, trgbase := 0, scpbase := 0, rncfg := 0, diag := 0, lring := 0x400, lrcnt := 0,
    cqcfg := [], cqptr := [], evqcfg := [], evqptr := [], nextLid := 1, tsnap := [], cmd := none }

/-- Reset value of CTX_CQCFG (R280) and of CTX_EVQCFG (R336): LOG2N 4, everything else 0. -/
def cqcfgReset : Nat := 0x40
def evqcfgReset : Nat := 0x400
/-- Reset value of DRAMC_ACTCFG (R65): MTHR 0x400, NBR 2. -/
def actcfgReset : Nat := 0x40020

def Mbx.reset : Mbx :=
  { st := .free, step := 0, epi := 0, bound := none, ver := none, kill := false, running := false, hart := none, asleep := false, act := 0, obs := 0, hdr := 0,
    dead := none, cycles := 0 }

def HostSt.reset : HostSt :=
  { ctxs := [], erb := [], erbNew := [], irq := false, reply := .none, hubReady := 0, coreRdy := [], trainFail := [], alarm := 0,
    verFails := 0, erased := false, stopped := false, envcfg := 0, ctxmap := [], route := [], actcfg := [], actstat := [],
    backoff := [], rowref := [], slcfg := [], dccfg := [], links := [], linkSq := [], gone := 0, throttle := [], lag := [], silivo := [], images := [], attest := none, cfgCores := 2 ^ 192 - 1, cfgHash := 0, cfgSku := 0, cfgKeys := 0, cfgCtr := 0,
    flash := [], colls := [] }

/-- The device right after reset. -/
def State.reset : State :=
  { tick := 0, turn := 0, seq := 0, free := 0, agenda := [], ch := { old := false, drop := false, ahead := 0, late := [] }, cur := [], ipc := 0,
    bundles := [], mem := MemSt.reset, rs := RegSt.reset, ops := [], cmds := [], eng := EngSt.reset, blocks := [],
    launches := [], hub := HubSt.reset, host := HostSt.reset }

end Sys2Proof.Machine
end

