-- ==== Sys2Proof/Machine/Sparse.lean ====
section
/-!
DEFINITION. Sparse stores in canonical form: reading, writing, and byte access (little-endian, R7). Writing a store's
default removes the entry, so that equal stores are equal lists.
-/
namespace Sys2Proof.Machine

/-- The value of key `a`; `d` is what an unlisted key reads as. -/
def sget {β : Type} (d : β) : FMap β → Nat → β
  | [], _ => d
  | (k, v) :: m, a => if a = k then v else sget d m a

/-- The store without key `a`. -/
def serase {β : Type} : FMap β → Nat → FMap β
  | [], _ => []
  | (k, v) :: m, a => if a = k then serase m a else (k, v) :: serase m a

/-- The store with key `a` bound to `v`, in rising key order. -/
def sput {β : Type} : FMap β → Nat → β → FMap β
  | [], a, v => [(a, v)]
  | (k, w) :: m, a, v =>
    if a < k then (a, v) :: (k, w) :: m
    else if a = k then (a, v) :: m
    else (k, w) :: sput m a v

/-- Write `v` at key `a`; the default is not listed. -/
def sset {β : Type} [DecidableEq β] (d : β) (m : FMap β) (a : Nat) (v : β) : FMap β :=
  if v = d then serase m a else sput m a v

/-- The canonical form: keys strictly rising, no entry equal to the default. -/
def swf {β : Type} [DecidableEq β] (d : β) : FMap β → Bool
  | [] => true
  | [(_, v)] => decide (v ≠ d)
  | (k, v) :: (k', v') :: m => decide (v ≠ d) && decide (k < k') && swf d ((k', v') :: m)

/-- Keep the entries whose key satisfies `p`. -/
def skeep {β : Type} (p : Nat → Bool) : FMap β → FMap β
  | [] => []
  | (k, v) :: m => if p k then (k, v) :: skeep p m else skeep p m

/-- Drop the entries with keys in [lo, lo + n). -/
def sdrop {β : Type} (m : FMap β) (lo n : Nat) : FMap β := skeep (fun k => !(decide (lo ≤ k) && decide (k < lo + n))) m

/-- The entries with keys in [lo, lo + n), rebased to 0. -/
def scut {β : Type} (m : FMap β) (lo n : Nat) : FMap β :=
  (skeep (fun k => decide (lo ≤ k) && decide (k < lo + n)) m).map fun p => (p.1 - lo, p.2)

/-- Put the entries of `src` (rebased by `lo`) into `m`. -/
def spaste {β : Type} (m : FMap β) (lo : Nat) (src : FMap β) : FMap β :=
  src.foldl (fun acc p => sput acc (lo + p.1) p.2) m

/-- Memory as cells: an unlisted byte reads as 0 (notes/assumptions/1.md). -/
abbrev Memory := List Host.Cell

/-- The canonical form of a memory. -/
abbrev Memory.wf (m : Memory) : Prop := swf (0 : BitVec 8) m = true

def mget (m : Memory) (a : Nat) : Byte := sget 0 m a
def mset (m : Memory) (a : Nat) (b : Byte) : Memory := sset 0 m a b

/-- `n` bytes from `a` as a little-endian number. -/
def mread (m : Memory) (a : Nat) : Nat → Nat
  | 0 => 0
  | n + 1 => (mget m a).toNat + 256 * mread m (a + 1) n

/-- Write the low `n` bytes of `v` at `a`, little-endian. -/
def mwrite (m : Memory) (a : Nat) : Nat → Nat → Memory
  | 0, _ => m
  | n + 1, v => mwrite (mset m a (BitVec.ofNat 8 v)) (a + 1) n (v / 256)

/-- The bytes of a little-endian number. -/
def bytesOf : Nat → Nat → List Byte
  | 0, _ => []
  | n + 1, v => BitVec.ofNat 8 v :: bytesOf n (v / 256)

/-- A little-endian byte list as a number. -/
def ofBytes : List Byte → Nat
  | [] => 0
  | b :: bs => b.toNat + 256 * ofBytes bs

/-- Write a byte list at `a`. -/
def mwrites (m : Memory) (a : Nat) : List Byte → Memory
  | [] => m
  | b :: bs => mwrites (mset m a b) (a + 1) bs

/-- Numbers a, a+1, …, a+n−1. -/
def span (a : Nat) : Nat → List Nat
  | 0 => []
  | n + 1 => a :: span (a + 1) n

/-- Bits [lo+n−1 : lo] of a number. -/
def bits (x lo n : Nat) : Nat := x / 2 ^ lo % 2 ^ n

/-- Bit i of a number. -/
def bit (x i : Nat) : Bool := x / 2 ^ i % 2 = 1

/-- `x` with bits [lo+n−1 : lo] replaced by `v`. -/
def setBits (x lo n v : Nat) : Nat := x % 2 ^ lo + (v % 2 ^ n) * 2 ^ lo + x / 2 ^ (lo + n) * 2 ^ (lo + n)

/-- Two's-complement reading of an n-bit number. -/
def sgn (n x : Nat) : Int := if x % 2 ^ n < 2 ^ (n - 1) then (x % 2 ^ n : Nat) else (x % 2 ^ n : Nat) - (2 ^ n : Nat)

/-- The n-bit two's-complement pattern of an integer. -/
def unsgn (n : Nat) (x : Int) : Nat := (x % (2 ^ n : Nat)).toNat

/-- A mask of `n` ones. -/
def fullMask (n : Nat) : Nat := 2 ^ n - 1

def b2n (b : Bool) : Nat := if b then 1 else 0

/-- Insert in rising order of `key`, after equal keys. -/
def insertBy {α : Type} (key : α → Nat) (x : α) : List α → List α
  | [] => [x]
  | y :: ys => if key x < key y then x :: y :: ys else y :: insertBy key x ys

/-- Sort in rising order of `key`, stable. -/
def sortBy {α : Type} (key : α → Nat) : List α → List α
  | [] => []
  | x :: xs => (fun rest => match rest with
      | [] => [x]
      | y :: ys => if key x ≤ key y then x :: y :: ys else insertFront key x (y :: ys)) (sortBy key xs)
where
  /-- Insert before the first element whose key is not smaller. -/
  insertFront (key : α → Nat) (x : α) : List α → List α
    | [] => [x]
    | y :: ys => if key x ≤ key y then x :: y :: ys else y :: insertFront key x ys

/-- The first element with a minimal key. -/
def argMin {α : Type} (key : α → Nat) : List α → Option α
  | [] => none
  | x :: xs => match argMin key xs with
    | none => some x
    | some y => if key x ≤ key y then some x else some y

/-- Replace the first element satisfying `p`. -/
def updFirst {α : Type} (p : α → Bool) (f : α → α) : List α → List α
  | [] => []
  | x :: xs => if p x then f x :: xs else x :: updFirst p f xs

end Sys2Proof.Machine
end

