-- ==== Sys2Proof/Machine/Dram.lean ====
section
/-!
DEFINITION. DRAM with the zero directory and poison (R59 to R63), the home slices above it (R60, R81, R82), and what the device itself writes to
physical memory.
-/
namespace Sys2Proof.Machine

def byteNats (bs : List Byte) : List Nat := bs.map BitVec.toNat
/-- The `n` bytes of a number, little-endian. -/
def natBytes (n v : Nat) : List Nat := byteNats (bytesOf n v)
def ofNats (bs : List Nat) : Nat := ofBytes (bs.map fun b => BitVec.ofNat 8 b)

/-! ### DRAM (R61, R62) -/

def MemSt.dramB (m : MemSt) (pa : Nat) : Nat := if sget false m.zdir (pa / 128) then 0 else (mget m.dram pa).toNat
/-- Reading a line of DRAM delivers it poisoned: it carries the marker, or cannot be corrected (R62); a set directory bit answers instead (R61). -/
def MemSt.dramPois (m : MemSt) (ln : Nat) : Bool :=
  !(sget false m.zdir ln) && (sget false m.dpoison ln || sget 0 m.dbad ln != 0)

/-- Set a line's directory bit: its data reads as zeros and it is not poisoned (R61, R63). -/
def MemSt.dramZero (m : MemSt) (ln : Nat) : MemSt :=
  { m with zdir := sset false m.zdir ln true, dram := sdrop m.dram (ln * 128) 128, dpoison := sset false m.dpoison ln false
           dbad := sset 0 m.dbad ln 0 }

def mputs (m : List Host.Cell) (a : Nat) : List Nat → List Host.Cell
  | [] => m
  | b :: bs => mputs (mset m a (BitVec.ofNat 8 b)) (a + 1) bs

/-- A write to DRAM clears the directory bits of its lines; a whole line clears the line's poison (R61, R63). -/
def MemSt.dramPut (m : MemSt) (pa : Nat) (bs : List Nat) : MemSt :=
  let n := bs.length
  let lines := span (pa / 128) ((pa + n + 127) / 128 - pa / 128)
  let whole := fun ln => decide (pa ≤ ln * 128) && decide (ln * 128 + 128 ≤ pa + n)
  let m := lines.foldl (fun (m : MemSt) ln =>
    let m := if whole ln then { m with dpoison := sset false m.dpoison ln false, dbad := sset 0 m.dbad ln 0 } else m
    let m := if sget false m.zdir ln then { m with dram := sdrop m.dram (ln * 128) 128 } else m
    { m with zdir := sset false m.zdir ln false }) m
  { m with dram := mputs m.dram pa bs }

/-! ### Home slices (R60, R81, R82) -/

/-- Stack and stack-local address of a physical address (R59). -/
def stackOf (pa : Nat) : Nat := pa / 4096 % 12
def soffOf (pa : Nat) : Nat := pa / 4096 / 12 * 4096 + pa % 4096
/-- Home slice of a line (R81). -/
def homeOf (pa : Nat) : Nat := 48 * (stackOf pa / 3) + (soffOf pa / 128 + 16 * (stackOf pa % 3)) % 48

def MemSt.tag (m : MemSt) (ln : Nat) : Option LineTag := sget none m.htag ln
def MemSt.homeB (m : MemSt) (pa : Nat) : Nat :=
  match m.tag (pa / 128) with
  | some t => if t.zero then 0 else (mget m.home pa).toNat
  | none => m.dramB pa
def MemSt.homePois (m : MemSt) (ln : Nat) : Bool :=
  match m.tag ln with
  | some t => t.poison
  | none => m.dramPois ln

def MemSt.homeBytes (m : MemSt) (pa : Nat) (n : Nat) : List Nat := (span pa n).map m.homeB
def MemSt.homeNum (m : MemSt) (pa n : Nat) : Nat := ofNats (m.homeBytes pa n)
def MemSt.dramBytes (m : MemSt) (pa : Nat) (n : Nat) : List Nat := (span pa n).map m.dramB

/-- The line is held by its home slice; a line of zeros is held zero-tagged (R60). -/
def MemSt.fill (m : MemSt) (ln : Nat) : MemSt :=
  match m.tag ln with
  | some _ => m
  | none =>
    let bs := m.dramBytes (ln * 128) 128
    let z := bs.all (· == 0)
    { m with
      htag := sset none m.htag ln (some { dirty := false, zero := z && !m.dramPois ln, poison := m.dramPois ln })
      home := mputs (sdrop m.home (ln * 128) 128) (ln * 128) bs }

/-- A store of bytes of one line at its home: the line becomes an ordinary dirty line; a whole line clears poison. -/
def MemSt.homePut (m : MemSt) (pa : Nat) (bs : List Nat) : MemSt :=
  let ln := pa / 128
  let m := m.fill ln
  let p := m.homePois ln && !(bs.length == 128)
  let z : Bool := match m.tag ln with
    | some t => t.zero
    | none => false
  { m with
    htag := sset none m.htag ln (some { dirty := true, zero := false, poison := p })
    home := mputs (if z then sdrop m.home (ln * 128) 128 else m.home) pa bs }

/-- `stz` at the home slice (R60, R78). -/
def MemSt.homeZero (m : MemSt) (ln : Nat) : MemSt :=
  { m with
    htag := sset none m.htag ln (some { dirty := true, zero := true, poison := false })
    home := sdrop m.home (ln * 128) 128 }

/-- A store at the home slice; with `nt` (`.cnt`, or a slice with no cache ways) a line that is not held is written at the
DRAM controller without allocation (R22, R82). -/
def MemSt.homeStore (m : MemSt) (nt : Bool) (pa : Nat) (bs : List Nat) : MemSt :=
  if nt && (m.tag (pa / 128)).isNone then m.dramPut pa bs else m.homePut pa bs

/-- `cwb` of a line (R60, R62, R80): the line stays valid and clean, a zero-tagged one sets its directory bit, and a poisoned one is written with the
poison marker. -/
def MemSt.writeBack (m : MemSt) (ln : Nat) : MemSt :=
  match m.tag ln with
  | none => m
  | some t =>
    let m' := { m with htag := sset none m.htag ln (some { t with dirty := false }) }
    if t.zero then m'.dramZero ln
    else if !t.dirty then m
    else
      let m'' := m'.dramPut (ln * 128) ((span (ln * 128) 128).map fun a => (mget m.home a).toNat)
      { m'' with dpoison := sset false m''.dpoison ln t.poison }

/-- A line leaves its home slice: a dirty one is written to DRAM, a zero-tagged one sets its directory bit. -/
def MemSt.evict (m : MemSt) (ln : Nat) (bad : Bool) : MemSt :=
  match m.tag ln with
  | none => m
  | some t =>
    let m := if t.zero then m.dramZero ln
      else if t.dirty then
        let w := m.writeBack ln
        { w with dpoison := sset false w.dpoison ln (t.poison || bad) }
      else m
    { m with htag := sset none m.htag ln none, home := sdrop m.home (ln * 128) 128 }

/-- What every agent reads at the home slices, as plain cells. -/
def MemSt.view (m : MemSt) : List Host.Cell :=
  let d := skeep (fun a => !(sget false m.zdir (a / 128)) && (m.tag (a / 128)).isNone) m.dram
  m.home.foldl (fun acc p => sset 0 acc p.1 p.2) d

/-- A slice with no cache ways performs at the DRAM controller (R82). -/
def State.noCache (s : State) (pa : Nat) : Bool := decide (24 ≤ sget 0 s.host.slcfg (homeOf pa))

/-- Bytes that the device itself writes to physical memory, line by line at the home slices; `nt` names the addresses whose slice has no cache
ways (R82). -/
def MemSt.physPut (m : MemSt) (nt : Nat → Bool) (pa : Nat) (bs : List Nat) : MemSt :=
  let n := bs.length
  (span (pa / 128) ((pa + n + 127) / 128 - pa / 128)).foldl (fun (m : MemSt) ln =>
    let lo := max pa (ln * 128)
    let hi := min (pa + n) (ln * 128 + 128)
    m.homeStore (nt lo) lo ((bs.drop (lo - pa)).take (hi - lo))) m

end Sys2Proof.Machine
end

