-- ==== Sys2Proof/WellFormed.lean ====
section
/-!
DEFINITION. The static checks of the second kind of R35: what a decoded instruction must satisfy to be legal (R9 to R28
and each form's own field table). An instruction that fails one raises an illegal-instruction fault when it is decoded.
Events have no word; they are not well-formed as instruction words.
-/
namespace Sys2Proof

/-- The type sets of R153. -/
def Ty.isInt : Ty → Bool
  | .i32 | .i64 | .z32 | .z64 => true
  | _ => false

def Ty.isBits (t : Ty) : Bool := t.isInt || t == .b32
def Ty.isW64 (t : Ty) : Bool := t == .z64 || t == .b32
def Ty.isFph (t : Ty) : Bool := t == .f16 || t == .bf16 || t == .f32
def Ty.isF32 (t : Ty) : Bool := t == .f32
def Ty.isB32 (t : Ty) : Bool := t == .b32

/-- TY 0x0 to 0xB (R121). -/
def Ty.isArr (t : Ty) : Bool := !(t == .ds8 || t == .e8)

/-- Types of `mov`, `sel` and `bcast` (R123, R124, R165). -/
def Ty.isCopy (t : Ty) : Bool := t == .b32 || t == .i64 || t == .z64

/-- Types of `redux` for the operations that take floats (R128). -/
def Ty.isRed (t : Ty) : Bool := t.isInt || t == .f32

/-- Two registers wide (R15). -/
def Ty.wide : Ty → Bool
  | .i64 | .z64 => true
  | _ => false

/-- Size in bytes (R24). -/
def Ty.size : Ty → Nat
  | .i8 | .z8 | .ds8 | .e8 => 1
  | .i16 | .z16 | .f16 | .bf16 => 2
  | .i32 | .z32 | .f32 | .b32 => 4
  | .i64 | .z64 => 8

/-- Signed types (R24). -/
def Ty.signed : Ty → Bool
  | .i8 | .i16 | .i32 | .i64 => true
  | _ => false

/-- Guard field (R10); `uok`: the opcode map marks the form Y (R11). -/
def Guard.wf (g : Guard) (uok : Bool) : Bool := decide (g.gp < 16) && !(g.gn && g.gp == 15) && (uok || !g.u)

/-- The unguarded guard that R272 and R310 require. -/
def Guard.always (g : Guard) : Bool := g.gp == 15 && !g.gn

def Opnd.isV : Opnd → Bool
  | .v _ => true
  | _ => false

def Opnd.isS : Opnd → Bool
  | .s _ => true
  | _ => false

/-- A vector register number for an operand of one (`wide = false`) or two registers (R15). -/
def vok (wide : Bool) (n : Nat) : Bool := decide (n < 1536) && (!wide || n % 2 == 0)

/-- A uniform register number. -/
def sok (n : Nat) : Bool := decide (n < 96)

/-- A source operand (R13, R15, R16): an indirect flag only on a vector register. -/
def Opnd.src (o : Opnd) (wide ind : Bool) : Bool :=
  match o with
  | .v n => vok (wide && !ind) n
  | .s n => sok n && !ind
  | .sp _ => !ind

/-- A destination operand (R12): a uniform register only when `uni`. -/
def Opnd.dst (o : Opnd) (uni wide ind : Bool) : Bool :=
  match o with
  | .v n => vok (wide && !ind) n
  | .s n => sok n && uni && !ind
  | .sp _ => false

/-- A format-C target (R26): DISP8 0x80 is reserved. -/
def Target.wf : Target → Bool
  | .disp d => decide (d < 256) && !(d == 128)
  | .far s => sok s

/-- No indirect flag under U = 1 (R11). -/
def noInd (g : Guard) (a b c : Bool) : Bool := !(g.u && (a || b || c))

def Bin.wf (f : Bin) (tys wd wa wb : Bool) : Bool :=
  f.g.wf true && tys && noInd f.g f.id f.ia f.ib && f.d.dst f.g.u wd f.id && f.a.src wa f.ia && f.b.src wb f.ib

/-- Two-source forms whose operands all take the width of TY. -/
def Bin.plain (f : Bin) (tys : Bool) : Bool := f.wf tys f.ty.wide f.ty.wide f.ty.wide

def Un.wf (f : Un) (tys wd wa : Bool) : Bool :=
  f.g.wf true && tys && noInd f.g f.id f.ia false && f.d.dst f.g.u wd f.id && f.a.src wa f.ia

def Un.plain (f : Un) (tys : Bool) : Bool := f.wf tys f.ty.wide f.ty.wide

def Imm.wf (f : Imm) (tys : Bool) : Bool :=
  f.g.wf true && tys && noInd f.g f.id f.ia false && f.d.dst f.g.u f.ty.wide f.id && f.a.src f.ty.wide f.ia
    && decide (f.imm < 256)

def Tri.wf (f : Tri) (tys wd wa wb wc : Bool) : Bool :=
  f.g.wf true && tys && f.d.dst f.g.u wd false && f.a.src wa false && f.b.src wb false && f.c.src wc false

/-- Conditions of `cmp` and `cmpi` (R165). -/
def ccOk (cc : Nat) (t : Ty) : Bool := decide (cc < 6) && (t != .b32 || decide (cc < 2))

/-- A format-M base with its index register (R20, R21): `pair` in the 64-bit address classes. -/
def baseOk (base : Opnd) (sc : Nat) (pair : Bool) : Bool :=
  decide (sc < 5) && match base with
    | .v n => vok pair n && decide (n + (if pair then 1 else 0) + (if sc == 0 then 0 else 1) < 1536)
    | .s n => decide (n + (if sc == 0 then 0 else 1) < 96)
    | .sp _ => false

/-- QF codes of loads and of stores (R23, R76). -/
def qfLd (q : Nat) : Bool := q == 0 || q == 4 || q == 6 || q == 1 || q == 5 || q == 7
def qfSt (q : Nat) : Bool := q == 0 || q == 8 || q == 1 || q == 9

/-- Fields common to format-M forms with D. -/
def Mem.wf (f : Mem) (uok pair tys : Bool) (pol qf : Bool) : Bool :=
  f.g.wf uok && tys && baseOk f.base f.sc pair && decide (f.ofs < 256) && decide (f.scope < 32) && pol && qf

def Mem.ldwf (f : Mem) (pair pol : Bool) : Bool :=
  f.wf true pair true pol (qfLd f.qf) && f.d.dst f.g.u f.ty.wide false

def Mem.stwf (f : Mem) (pair pol : Bool) : Bool :=
  f.wf false pair true pol (qfSt f.qf) && f.d.src f.ty.wide false

def MemA.wf (f : MemA) (pol qf : Bool) : Bool :=
  f.g.wf false && baseOk f.base f.sc true && decide (f.ofs < 256) && decide (f.scope < 32) && pol && qf

/-- Types of each operation of `atom` and `red` (R248). -/
def atomTy (op : Nat) (t : Ty) : Bool :=
  if op < 3 then t.isInt else if op < 8 then t.isBits else op == 8 && t == .f32

def Opnd.isSrcV (o : Opnd) (wide : Bool) : Bool := o.isV && o.src wide false

/-- Destination of `atom` (R247): an even vector register, a multiple of 4 for a 64-bit `.cas`. -/
def atomDst (d : Opnd) (op : Nat) (t : Ty) : Bool :=
  match d with
  | .v n => decide (n < 1536) && n % (if op == 7 && t.wide then 4 else 2) == 0
  | _ => false

def Eng.wf (f : Eng) : Bool := f.g.wf false && sok f.a
def EngD.wf (f : EngD) : Bool := f.g.wf false && sok f.a && sok f.d
def EngB.wf (f : EngB) : Bool := f.g.wf false && sok f.a && sok f.b

/-- Types of `cvt` (R179). -/
def cvtTy (t : Ty) : Bool := t.isInt || t.isFph

/-- A `cvt` that can round (R179). -/
def cvtRounds (d s : Ty) : Bool := (d.isFph != s.isFph) || (s.isFph && !(d == .f32))

def CvtF.wf (f : CvtF) : Bool :=
  f.g.wf true && cvtTy f.dty && cvtTy f.sty && (f.dty != f.sty) && noInd f.g f.id f.ia false
    && f.d.dst f.g.u f.dty.wide f.id && f.a.src f.sty.wide f.ia
    && (!f.hi || f.sty == .f16 || f.sty == .bf16) && (!f.sat || (f.dty.isInt && f.sty.isInt))
    && (f.rm == .near || cvtRounds f.dty f.sty)

/-- SUB of `ext` by type (R162). -/
def extOk (t : Ty) (e : Nat) : Bool :=
  match t with
  | .i8 | .z8 => decide (e < 4)
  | .i16 | .z16 => decide (e < 2)
  | .i32 | .z32 => e == 0
  | _ => false

/-- A register or pair that holds a code address (R267). -/
def codeReg (a : Opnd) : Bool :=
  match a with
  | .v n => vok true n
  | .s n => sok n
  | .sp _ => false

/-- Every static check of an instruction word. -/
def Instr.wf : Instr → Bool
  | .add f | .sub f | .mul f | .mulhi f | .div f | .rem f | .min f | .max f => f.plain f.ty.isInt
  | .adds f _ => f.plain f.ty.isInt
  | .addi f => f.wf f.ty.isInt
  | .mulw f => f.wf (f.ty == .i32 || f.ty == .z32) true false false
  | .mad f => f.wf (f.ty.isInt && f.rm == .near) f.ty.wide f.ty.wide f.ty.wide f.ty.wide
  | .abs f => f.plain (f.ty == .i32 || f.ty == .i64)
  | .and f | .or f | .xor f => f.plain f.ty.isBits
  | .not f => f.plain f.ty.isBits
  | .andi f | .ori f | .xori f => f.wf f.ty.isBits
  | .shl f | .shr f => f.wf f.ty.isBits f.ty.wide f.ty.wide false
  | .shli f | .shri f => f.wf (f.ty.isBits && decide (f.imm < 8 * f.ty.size))
  | .rot f _ => f.wf f.ty.isW64 f.ty.wide f.ty.wide false
  | .bfx f => f.wf (f.ty.isInt && f.rm == .near) f.ty.wide f.ty.wide false false
  | .bfi f => f.wf (f.ty.isW64 && f.rm == .near) f.ty.wide f.ty.wide f.ty.wide false
  | .popc f | .clz f => f.wf f.ty.isW64 false f.ty.wide
  | .brev f => f.plain f.ty.isW64
  | .cmp f => f.g.wf true && f.ty.isBits && ccOk f.cc f.ty && noInd f.g f.ia f.ib false && decide (f.p < 16)
      && f.a.src f.ty.wide f.ia && f.b.src f.ty.wide f.ib
  | .cmpi f => f.g.wf true && f.ty.isBits && ccOk f.cc f.ty && noInd f.g f.ia false false && decide (f.p < 16)
      && f.a.src f.ty.wide f.ia && decide (f.imm < 256)
  | .plog f => f.g.wf true && decide (f.p < 16) && decide (f.pa < 16) && decide (f.pb < 16) && decide (f.tt < 16)
  | .sel f => f.g.wf true && f.ty.isCopy && f.d.dst f.g.u f.ty.wide false && f.a.src f.ty.wide false
      && f.b.src f.ty.wide false && decide (f.p < 16)
  | .movi f => f.g.wf true && f.ty.isBits && noInd f.g f.id false false && f.d.dst f.g.u f.ty.wide f.id
      && decide (f.imm < 256)
  | .lea f k => f.wf (f.ty == .z64 && decide (k < 4)) true true false
  | .ext f e => f.wf (extOk f.ty e) (f.ty == .i32 || f.ty == .z32) false
  | .bsel f => f.wf (f.ty == .b32) false false false
  | .fadd f _ | .fsub f _ | .fmul f _ | .fdiv f _ => f.plain f.ty.isF32
  | .fma f => f.wf f.ty.isF32 false false false false
  | .fmin f | .fmax f => f.plain f.ty.isFph
  | .fabs f | .fneg f => f.plain f.ty.isFph
  | .fsqrt f _ | .frnd f _ => f.plain f.ty.isF32
  | .frcp f | .frsq f | .fexp2 f | .flog2 f => f.plain f.ty.isF32
  | .fcmp f => f.g.wf true && f.ty.isFph && decide (f.cc < 8) && noInd f.g f.ia f.ib false && decide (f.p < 16)
      && f.a.src false f.ia && f.b.src false f.ib
  | .fclass f => f.g.wf true && f.ty.isFph && decide (f.mask < 256) && noInd f.g f.ia false false && decide (f.p < 16)
      && f.a.src false f.ia
  | .fdot2 f => f.wf (f.ty == .f16 || f.ty == .bf16) false false false false
  | .fstatRd f => f.g.wf true && noInd f.g f.id false false && f.d.dst f.g.u false f.id
  | .fstatClr f => f.plain f.ty.isB32
  | .cvt f => f.wf
  | .cvt2 f _ => f.plain (f.ty == .f16 || f.ty == .bf16)
  | .qds8 f k => f.plain (f.ty == .ds8 && decide (k < 4))
  | .dqds8 f k _ => f.plain (f.ty == .ds8 && decide (k < 4))
  | .escale f k => f.plain (f.ty == .e8 && decide (k < 4))
  | .rand f => f.wf (f.ty == .z32 || f.ty == .z64 || f.ty == .f32) f.ty.wide true false
  | .allot g m | .shrink g m => g.wf false && decide (1 ≤ m) && decide (m ≤ 48)
  | .ldw f => f.ldwf false (f.pol == 0)
  | .stw f => f.stwf false (f.pol == 0)
  | .ldi g d a b ty => g.wf false && ty.isArr && d.isSrcV ty.wide && decide (a < 1536) && b.src false false
  | .sti g d a b ty => g.wf false && ty.isArr && d.src ty.wide false && decide (a < 1536) && b.src false false
  | .mov f => f.g.wf true && f.ty.isCopy && noInd f.g f.id f.ia false && f.d.dst true f.ty.wide f.id
      && f.a.src f.ty.wide f.ia
  | .perm g d a b => g.wf false && vok false d && vok false a && b.src false false
  | .bcast g d a b ty => g.wf true && ty.isCopy && d.dst g.u ty.wide false && vok ty.wide a && !b.isV && b.src false false
  | .shfl g d a b mode => g.wf false && vok false d && vok false a && b.src false false && decide (mode < 3)
  | .vote g d a mode => g.wf false && decide (mode < 3) && decide (a < 16) && (if mode == 2 then sok d else decide (d < 16))
  | .redux g d a op ty rm => g.wf false && decide (op < 6) && (if op < 3 then ty.isRed else ty.isInt) && sok d
      && vok ty.wide a && (rm == .near || (op == 0 && ty == .f32))
  | .ld f => f.ldwf true (decide (f.pol < 5))
  | .st f => f.stwf true (decide (f.pol < 5))
  | .stz f => f.wf (decide (f.pol < 5)) (qfSt f.qf)
  | .prefetch f => f.wf (decide (f.pol < 5)) (f.qf == 0)
  | .cwb f | .iinv f => f.wf (f.pol == 0) (f.qf == 0)
  | .ldt f => f.ldwf false (decide (f.pol < 5))
  | .stt f => f.stwf false (decide (f.pol < 5))
  | .ifence g => g.wf false
  | .atom f => f.wf false true (atomTy f.pol f.ty) (decide (f.pol < 9)) (decide (f.qf < 2)) && atomDst f.d f.pol f.ty
  | .red f => f.wf false true (atomTy f.pol f.ty) (decide (f.pol < 6) || f.pol == 8) (decide (f.qf < 2))
      && f.d.src f.ty.wide false
  | .fence g scope => g.wf false && decide (scope < 32)
  | .wait g l1 l2 l3 l4 => g.wf false && decide (l1 < 16) && decide (l2 < 16) && decide (l3 < 16) && decide (l4 < 16)
  | .rtake f => f.wf false true (f.ty == .z32) (f.pol == 0) (f.qf == 0) && f.d.isSrcV false
  | .rhead f => f.wf false true (f.ty == .z32) (f.pol == 0) (f.qf == 0 || f.qf == 2) && f.d.isSrcV false
  | .tlset f => f.wf false true (f.ty == .z64) (f.pol == 0) (f.qf == 0 || f.qf == 2) && f.d.src true false
  | .tladd f | .tlwait f => f.wf false true (f.ty == .z64) (f.pol == 0) (f.qf == 0) && f.d.src true false
  | .br g t | .call g t => g.wf false && t.wf
  | .callInd g a | .jmpi g a => g.wf false && codeReg a
  | .ret g | .exit g | .fend g => g.wf false
  | .fspawn g d t => g.wf false && vok false d && t.wf
  | .fsort g d a b => g.wf false && g.always && vok false d && vok false a && sok b
  | .bar g | .barCl g | .yield g | .nop g => g.wf false
  | .lfetch f | .lcast f | .lput f | .lcopy f | .lpermit f => f.wf
  | .gmma f | .gdrain f | .gload f | .gzero f => f.wf
  | .gsave f | .gresume f => f.wf
  | .gstat f => f.wf
  | .cload f | .cstore f => f.wf
  | .cseed f | .ctab f => f.wf
  | .cinfer g d a mask | .cvote g d a mask =>
      g.wf false && vok false d && vok false a && decide (1 ≤ mask) && decide (mask < 16)
  | .ctrain g a b mask set _ => g.wf false && vok false a && vok false b && decide (1 ≤ mask) && decide (mask < 16)
      && decide (set < 4)
  | .cfb g a b set k _ => g.wf false && vok false a && vok false b && decide (set < 4) && decide (k < 4)
  | .ensure g t d => g.wf false && g.always && t.wf && sok d
  | .accept g a => g.wf false && g.always && decide (a < 16)
  | .elseby g t => g.wf false && g.always && t.wf
  | .elseerr g | .jtest g => g.wf false && g.always
  | .cjoin f => f.wf && f.g.always
  | .frq g d => g.wf false && vok false d
  | .tkpost f | .await f => f.wf
  | .launch g d a => g.wf false && sok a && (match d with | none => true | some n => sok n)
  | .dsync g => g.wf false
  | .msend f | .mpoll f => f.wf
  | .mrecv f => f.wf
  | .pverInc g d | .pverRd g d => g.wf false && sok d
  | .trap g imm => g.wf false && decide (imm < 256)
  | .srd g d r => g.wf false && sok d && decide (r < 7)
  | .swr g a r => g.wf false && sok a && r == 6
  | .ctxq g d a b => g.wf false && vok false d && sok a && sok b
  | .hostLaunch _ | .translationInvalidate _ | .unpin _ | .resume _ | .cancel _ | .episodeStart _ | .episodeKill _
  | .collective _ | .registerWrite _ _ _ _ | .erbStatusClear _ _ | .dramcActstatClear _ _ | .evqLostClear _ _ _ _
  | .onyxAlarmClear _ | .tureenSlcfgWrite _ _ | .coreDccfgWrite _ _ | .berylEnvcfgWrite _ | .cqTailWrite _ _ _ _
  | .attestation _ | .imageLoad _ _ _ _ _ | .hostRead _ _ _ _ | .hostWrite _ _ _ _ | .peerWrite _ _ _
  | .pageMapped _ _ | .pageInvalid _ _ | .sideLogEntryFree _ | .blockPlace _ _ | .placementDone _ | .preempt _
  | .awaitSave _ | .blockRetire _ | .blockFreeze _ | .cpCancel _ | .faultReportAfterIssue _ | .launchEnd _
  | .taskStart _ | .taskComplete _ | .renameWriteback _ | .queueBalance _ _ | .allotGrant _ | .shrinkRelease _ _
  | .barrierTimeout _ | .cycleLimitExpiry _ | .cycbudExpiry _ | .demotionEnd _ | .reconvergenceTimeout _
  | .bundleMerge _ _ | .starvationPromotion _ | .ladleDelivery _ _ | .ladleComplete _ | .griddleOpStart _
  | .griddleOpComplete _ | .jasperOpApply _ | .silentError _ _ _ _ | .frameFail _ | .convVoteApply _ | .convNotice _
  | .vtoExpiry _ | .msendApply _ | .mrecvDelivery _ _ | .bmbTake _ | .bmbGive _ _ _ _ | .episodeRecordWrite _ _
  | .episodeViolation _ _ _ _ | .watchdogExpiry _ _ | .episodeCycbudIdle _ _ | .episodeStop _ | .rowAlert _ _
  | .backoffEnd _ _ _ | .flitReplay _ _ _ | .linkRetrain _ _ | .verificationFailure | .glitch | .tamperBreach
  | .functionReady _ _ | .stackTrainingFail _ | .deviceReset | .thermalThrottle _ _ | .accessPerformed _ _
  | .loadReturned _ _ | .writeCompletionTimePassed _ | .policyVersionApply _ | .peerRead _ _ _
  | .collectiveComplete _ _ _ | .contextCreation _ => false

end Sys2Proof
end

