-- ==== Sys2Proof/Machine/Ops.lean ====
section
/-!
DEFINITION. The named operations over the state: keys, blocks, groups, fibres, registers with the recovery cache (R314,
R315), counters and scoreboard (R118, R242), chunks (R104, R105), and taking a fault (R318, R331 to R334).
-/
namespace Sys2Proof.Machine

/-! ### Keys -/

/-- Key of a fibre: block, group, home lane. -/
def fkOf (bk g l : Nat) : Nat := (bk * 128 + g) * 64 + l
def fkBk (fk : Nat) : Nat := fk / 8192
def fkG (fk : Nat) : Nat := fk / 64 % 128
def fkL (fk : Nat) : Nat := fk % 64
/-- The special `fibre` of a key (R259). -/
def fkFibre (fk : Nat) : Nat := fk % 8192
/-- Key of a vector register of a group. -/
def rkOf (bk g r : Nat) : Nat := (bk * 128 + g) * 1536 + r
/-- Key of a uniform register of a group. -/
def ukOf (bk g n : Nat) : Nat := (bk * 128 + g) * 96 + n

/-! ### Fault codes (R331) -/

def FClass.code : FClass → Nat
  | .il => 1
  | .hd => 2
  | .al => 3
  | .ac => 4
  | .pf => 5
  | .ma => 6
  | .cl => 7
  | .se => 8
  | .pz => 9
  | .cf => 10
  | .bt => 11
  | .fm => 12
  | .mb => 13
  | .tr => 14

/-! ### Blocks, groups, fibres, launches -/

def State.block? (s : State) (bk : Nat) : Option Block := s.blocks.find? fun b => b.uid == bk
def State.updBlock (s : State) (bk : Nat) (f : Block → Block) : State :=
  { s with blocks := updFirst (fun b => b.uid == bk) f s.blocks }
def State.launch? (s : State) (lid : Nat) : Option Launch := s.launches.find? fun l => l.lid == lid
def State.updLaunch (s : State) (lid : Nat) (f : Launch → Launch) : State :=
  { s with launches := updFirst (fun l => l.lid == lid) f s.launches }

def Group.none : Group := { core := 0, part := 0, chunks := [], held := [], gsw := 0, gen := 0, recs := [] }
def Rcb.none : Rcb :=
  { addr := 0, parent := 0, seed := 0, cbase := 0, cycbud := 0, save := 0, rres := 0, rrsize := 0, tbud := 0, tgbase := 0,
    rsbud := 0, cores := 0, fdom := 0, ovr := 0, prio := 0, det := false, depth := 0, bto := 0, red := [] }

def Block.group (b : Block) (g : Nat) : Group := b.groups.getD g Group.none
def State.group (s : State) (bk g : Nat) : Group :=
  match s.block? bk with
  | some b => b.group g
  | none => Group.none
def State.updGroup (s : State) (bk g : Nat) (f : Group → Group) : State :=
  s.updBlock bk fun b => { b with groups := b.groups.modify g f }

def State.fib (s : State) (fk : Nat) : Option Fibre := sget none s.rs.fibres fk
def State.putFib (s : State) (fk : Nat) (f : Fibre) : State :=
  { s with rs := { s.rs with fibres := sset none s.rs.fibres fk (some f) } }
def State.dropFib (s : State) (fk : Nat) : State :=
  { s with rs := { s.rs with fibres := sset none s.rs.fibres fk none } }
def State.updFib (s : State) (fk : Nat) (f : Fibre → Fibre) : State :=
  match s.fib fk with
  | some x => s.putFib fk (f x)
  | none => s
def State.setStat (s : State) (fk : Nat) (st : FStat) : State := s.updFib fk fun f => { f with stat := st }

/-- The live fibres of a block, in ascending group and lane. -/
def State.blockFibs (s : State) (bk : Nat) : List Nat :=
  (s.rs.fibres.filter fun p => fkBk p.1 == bk && p.2.isSome).map (·.1)
def State.groupFibs (s : State) (bk g : Nat) : List Nat := (s.blockFibs bk).filter fun fk => fkG fk == g
/-- The live fibres of a block on a core (R272, R273). -/
def State.coreFibs (s : State) (bk core : Nat) : List Nat :=
  (s.blockFibs bk).filter fun fk => (s.group bk (fkG fk)).core == core

/-- The launch of a block, and its context. -/
def State.launchOf (s : State) (bk : Nat) : Option Launch :=
  match s.block? bk with
  | some b => s.launch? b.lid
  | none => none
def State.rcbOf (s : State) (bk : Nat) : Rcb :=
  match s.launchOf bk with
  | some l => l.rcb
  | none => Rcb.none
def State.ctxOf (s : State) (bk : Nat) : Nat :=
  match s.launchOf bk with
  | some l => l.ctx
  | none => 0
def State.ctx (s : State) (c : Nat) : Ctx := sget Ctx.reset s.host.ctxs c
def State.updCtx (s : State) (c : Nat) (f : Ctx → Ctx) : State :=
  { s with host := { s.host with ctxs := sset Ctx.reset s.host.ctxs c (f (s.ctx c)) } }

/-! ### Ticks and core clocks (R5, R381) -/

def quadOf (core : Nat) : Nat := core / Config.coresPerQuad

/-- The device tick on a die (R1, R5): compute dies 0 to 3, base dies 4 to 7, the hub 8, on which the model counts. -/
def State.tickDie (s : State) (d : Nat) : Nat := s.tick + (Config.tickSkew d).val - (Config.tickSkew 8).val

/-- The device tick as a compute die reads it. -/
def State.tickOn (s : State) (q : Nat) : Nat := s.tickDie q

/-- The 100 MHz steps by which a compute die's clock of 1.6 GHz is down, at most fifteen. -/
def clockSteps (v : Nat) : Nat := min (v / 2) 15

/-- The sixteenths of a core clock that a compute die's clock has lost. -/
def State.lagOn (s : State) (q : Nat) : Nat :=
  let l := (sget none s.host.lag q).getD (0, 0)
  l.2 + (s.tick - l.1) * clockSteps (sget 0 s.host.throttle q)

/-- The core clocks of a compute die: as many as ticks while its clock is not stepped down (R3, R381). -/
def State.clockOn (s : State) (q : Nat) : Nat := (16 * s.tick - s.lagOn q) / 16

/-- The core clocks of a core, by its die. -/
def State.clockAt (s : State) (core : Nat) : Nat := s.clockOn (quadOf core)

/-- The cores of a cluster lie in one quadrant (R287); the clock of a block is that of its first core's die. -/
def State.clockOf (s : State) (bk : Nat) : Nat :=
  s.clockAt (match s.block? bk with | some b => b.cores.headD 0 | none => 0)

/-- A block whose fibres may issue. -/
def Block.running (b : Block) : Bool := b.st == .resident && b.mode == .run
def State.running (s : State) (bk : Nat) : Bool :=
  match s.block? bk with
  | some b => b.running
  | none => false

/-- The fibre's next word follows. -/
def Fibre.adv (f : Fibre) : Fibre := { f with pc := f.pc + 8, left := f.left - 1, stat := .ready }
def State.advance (s : State) (fk : Nat) : State := s.updFib fk Fibre.adv

/-- A free value is drawn (notes/assumptions/5.md). -/
def State.draw (s : State) : Nat × State := (s.free, { s with free := s.free + 1 })

/-! ### Raw register access (R13, R15, R63, R113) -/

def State.vraw (s : State) (bk g r l : Nat) : Nat := (sget 0 (sget [] s.rs.vregs (rkOf bk g r)) l).toNat
def State.vpois (s : State) (bk g r l : Nat) : Bool := bit (sget 0 s.rs.vpoison (rkOf bk g r)) l
def State.vfull (s : State) (bk g r j : Nat) : Bool := bit (sget 0 s.rs.fe (rkOf bk g r)) j
def State.uraw (s : State) (bk g n : Nat) : Nat := (sget 0 s.rs.uregs (ukOf bk g n)).toNat
def State.upois (s : State) (bk g n : Nat) : Bool := sget false s.rs.upoison (ukOf bk g n)

def setBit (x i : Nat) (b : Bool) : Nat := setBits x i 1 (b2n b)

def RegSt.putLane (rs : RegSt) (rk l v : Nat) : RegSt :=
  { rs with vregs := sset [] rs.vregs rk (sset 0 (sget [] rs.vregs rk) l (BitVec.ofNat 32 v)) }
def RegSt.putPoison (rs : RegSt) (rk l : Nat) (b : Bool) : RegSt :=
  { rs with vpoison := sset 0 rs.vpoison rk (setBit (sget 0 rs.vpoison rk) l b) }
def RegSt.putFull (rs : RegSt) (rk j : Nat) (b : Bool) : RegSt :=
  { rs with fe := sset 0 rs.fe rk (setBit (sget 0 rs.fe rk) j b) }
def RegSt.putU (rs : RegSt) (uk v : Nat) (p : Bool) : RegSt :=
  { rs with uregs := sset 0 rs.uregs uk (BitVec.ofNat 64 v), upoison := sset false rs.upoison uk p }
/-- A register that enters an allotment: bytes 0, empty, no mark (R107). -/
def RegSt.clearReg (rs : RegSt) (rk : Nat) : RegSt :=
  { rs with vregs := serase rs.vregs rk, vpoison := serase rs.vpoison rk, fe := serase rs.fe rk }

/-- Predicate `p` of a fibre; p15 reads true (R14). -/
def Fibre.pred (f : Fibre) (p : Nat) : Bool := p == 15 || f.preds.getLsbD p
def Fibre.setPred (f : Fibre) (p : Nat) (v : Bool) : Fibre :=
  if p = 15 then f else { f with preds := BitVec.ofNat 16 (setBit f.preds.toNat p v) }

/-! ### The recovery cache (R314, R315) -/

/-- Granules a record takes: one tag granule and its payload. -/
def Rec.granules (r : Rec) : Nat :=
  match r.item with
  | .vreg _ => 17
  | .ureg _ => 2
  | .preds => 9
  | .gsw => 1
  | .allot => 1
  | .fpos _ => 1
  | .bank _ _ => 1
  | .jasper _ => 1

/-- Bytes of the reserve that a record's external data takes (R315). -/
def Rec.external (r : Rec) : Nat :=
  match r.item with
  | .bank _ _ => Config.bankRecordBytes
  | .jasper _ => Config.jasperRecordBytes
  | _ => 0

/-- Granules of a group's records that its area holds, and the records that have spilled from it. -/
def Group.inArea (g : Group) : Nat := ((g.recs.filter fun r => r.spill.isNone).map Rec.granules).sum

/-- The blocks whose regions share a recovery reserve, a child's region with its parent's (R285). -/
def State.sharing (s : State) (rres : Nat) : List Block := s.blocks.filter fun b => (s.rcbOf b.uid).rres == rres

/-- Where the external and the spilled records of a reserve lie: offset and bytes. -/
def State.extents (s : State) (rres : Nat) : List (Nat × Nat) :=
  (s.sharing rres).flatMap fun b => b.groups.flatMap fun g => g.recs.flatMap fun r =>
    (if r.external = 0 then [] else [(r.off, r.external)]) ++ match r.spill with
      | some o => [(o, 16 * r.granules)]
      | none => []

/-- Bytes that the granules logged for conversations take in a reserve. -/
def State.logged (s : State) (rres : Nat) : Nat := ((s.sharing rres).map fun b => (b.frames.map fun f => f.rlog.length * 32).sum).sum

/-- The place of a new extent of `n` bytes. DESIGN CHOICE: the lowest offset that leaves the others alone (notes/assumptions/63.md). -/
def extPlace (l : List (Nat × Nat)) (n : Nat) : Nat :=
  let free := fun (o : Nat) => l.all fun x => decide (o + n ≤ x.1) || decide (x.1 + x.2 ≤ o)
  ((sortBy id (0 :: l.map fun x => x.1 + x.2)).find? free).getD 0

/-- The place of `n` bytes in the reserve of a block's region, none when they do not fit. -/
def State.reserve (s : State) (bk n : Nat) : Option Nat :=
  let r := s.rcbOf bk
  let off := extPlace (s.extents r.rres) n
  if off + n + s.logged r.rres ≤ r.rrsize then some off else none

/-- A reserve holds `n` more bytes of logged granules. -/
def State.logRoom (s : State) (bk n : Nat) : Bool :=
  let r := s.rcbOf bk
  decide ((s.extents r.rres).foldl (fun m x => max m (x.1 + x.2)) 0 + s.logged r.rres + n ≤ r.rrsize)

/-- KIND, ITEM and AUX of a record's tag granule (R315). -/
def Rec.tagFields (r : Rec) : Nat × Nat × Nat :=
  match r.item with
  | .vreg n => (1, n, r.poison)
  | .ureg n => (2, n, r.vals.headD 0)
  | .preds => (3, 0, 0)
  | .gsw => (4, 0, r.vals.headD 0)
  | .allot => (5, 0, r.vals.length)
  | .fpos l => (6, l, (r.vals.getD 1 0) % 8192)
  | .bank _ b => (7, b, r.off)
  | .jasper _ => (7, 2, r.off)

/-- The payload of a record, by granule. -/
def Rec.payload (r : Rec) : List Nat :=
  match r.item with
  | .vreg _ => (span 0 16).map fun j => (span 0 4).foldl (fun acc i => acc + r.vals.getD (4 * j + i) 0 * 2 ^ (32 * i)) 0
  | .ureg _ => [r.poison]
  | .preds => (span 0 8).map fun j => (span 0 8).foldl (fun acc i => acc + r.vals.getD (8 * j + i) 0 * 2 ^ (16 * i)) 0
  | _ => []

/-- A record in the layout of R315: its tag granule and its payload. -/
def Rec.image (r : Rec) : List Nat :=
  let t := r.tagFields
  let tag := fun (x : Nat × Nat × Nat) (len : Nat) => x.1 + len * 2 ^ 8 + x.2.1 * 2 ^ 16 + r.gen * 2 ^ 48 + x.2.2 % 2 ^ 64 * 2 ^ 64
  ((tag t r.payload.length) :: r.payload).flatMap (natBytes 16)

/-- The frame key of an operation issued now: depth and generation of the innermost frame, 0 outside every frame (R74). -/
def Block.frameKey (b : Block) (g : Nat) : Nat :=
  match b.frames with
  | [] => 0
  | f :: fs => (fs.length + 1) * 65536 + f.gens.getD g 0

/-- The depth of the frame a key names, when it is still open. -/
def Block.openAt (b : Block) (g key : Nat) : Option Nat :=
  if key = 0 then none
  else
    let d := key / 65536
    match (b.frames.drop (b.frames.length - d)).head? with
    | some f => if d ≤ b.frames.length ∧ f.gens.getD g 0 = key % 65536 then some d else none
    | none => none

/-- The core of a cluster member (R111), and the member a core is. -/
def State.memberCore (s : State) (bk m : Nat) : Nat :=
  match s.block? bk with
  | some b => b.cores.getD m 0
  | none => 0
def State.memberOf (s : State) (bk core : Nat) : Nat :=
  match s.block? bk with
  | some b => b.cores.idxOf core
  | none => 0

/-- The prior value of an item. -/
def State.capture (s : State) (bk g gen : Nat) (item : Item) : Rec :=
  let mk := fun (vals : List Nat) (p : Nat) (held : List (Nat × Nat)) (bank : Option Bank) (jas : Option Jas) =>
    ({ gen := gen, tagged := true, item := item, vals := vals, poison := p, held := held, bank := bank, jas := jas, off := 0, spill := none } : Rec)
  match item with
  | .vreg r => mk ((span 0 64).map fun l => s.vraw bk g r l) (sget 0 s.rs.vpoison (rkOf bk g r)) [] none none
  | .ureg n => mk [s.uraw bk g n] (b2n (s.upois bk g n)) [] none none
  | .preds => mk ((span 0 64).map fun l => match s.fib (fkOf bk g l) with | some f => f.preds.toNat | none => 0) 0 [] none none
  | .gsw => mk [(s.group bk g).gsw.toNat] 0 [] none none
  | .allot => mk (s.group bk g).chunks 0 (s.group bk g).held none none
  | .fpos l => mk [fkOf bk g l, fkOf bk g l] 0 [] none none
  | .bank m b => mk [] 0 [] (sget none s.eng.banks (s.memberCore bk m * 2 + b)) none
  | .jasper m => mk [] 0 [] none (sget none s.eng.jas (s.memberCore bk m))

/-- Items that the groups of a block share: an engine's state, saved once per frame whichever group writes first. -/
def Item.shared : Item → Bool
  | .bank _ _ => true
  | .jasper _ => true
  | _ => false

/-- The oldest record of a list that its area still holds, spilled to `off`: the list is newest first. -/
def spillLast (off : Nat) : List Rec → List Rec
  | [] => []
  | r :: rs => if rs.any fun x => x.spill.isNone then r :: spillLast off rs else { r with spill := some off } :: rs

/-- While a group's records do not fit its area of `area` granules, the oldest one spills to the reserve; none when the reserve has no room (R315). -/
def State.spillOld (s : State) (bk g area : Nat) : Nat → Option State
  | 0 => some s
  | fuel + 1 =>
    let gr := s.group bk g
    if gr.inArea ≤ area then some s
    else match (gr.recs.filter fun r => r.spill.isNone).getLast? with
      | none => some s
      | some r => match s.reserve bk (16 * r.granules) with
        | none => none
        | some off =>
          let s := s.updGroup bk g fun gr => { gr with recs := spillLast off gr.recs }
          let s := { s with mem := s.mem.physPut s.noCache ((s.rcbOf bk).rres + off) r.image }
          s.spillOld bk g area fuel

/-- Put a record into a group's area; none when neither the area nor the reserve has room (R315). -/
def State.addRec (s : State) (bk g : Nat) (r : Rec) : Option State :=
  match if r.external = 0 then some 0 else s.reserve bk r.external with
  | none => none
  | some off =>
    let n := (s.group bk g).recs.length
    let s := s.updGroup bk g fun gr => { gr with recs := { r with off := off } :: gr.recs }
    let area := match s.launchOf bk with
      | some l => l.resc * 512
      | none => 0
    s.spillOld bk g area n

/-- Save an item's prior value at its first write in the innermost frame; none when it finds no room (R314, R315). -/
def State.record (s : State) (bk g : Nat) (item : Item) : Option State :=
  match s.block? bk with
  | none => some s
  | some b =>
    match b.frames with
    | [] => some s
    | f :: _ =>
      let gen := f.gens.getD g 0
      let has := fun (x : Group × Nat) => x.1.recs.any fun r => r.tagged && r.gen == x.2 && r.item == item
      if (if item.shared then (b.groups.zip f.gens).any has else has (b.group g, gen)) then some s
      else s.addRec bk g (s.capture bk g gen item)

/-! ### Taking a fault (R318, R331 to R334) -/

/-- Every live fibre waits at `ensure` (the frame is Entering, R320). -/
def State.entering (s : State) (bk : Nat) : Bool :=
  let fs := s.blockFibs bk
  !fs.isEmpty && fs.all fun fk => match s.fib fk with
    | some f => match f.stat with
      | .coll (.ensure _ _ _) _ => true
      | _ => false
    | none => false

/-- The failing frame and those nested in it send a failure vote to the conversations they are in (R329). -/
def failVotes (uid : Nat) (v : Vote) (fs : List Frame) : List (Nat × Nat × Vote) :=
  fs.filterMap fun f => f.conv.map fun c => (uid, c.2, v)

/-- A frame's last failure (R349). -/
def Frame.fails (r : FaultRec) (f : Frame) : Frame :=
  { f with cause := r.code, fpc := r.pc, fdet := r.det, floc := r.grp * 64 + r.lane, sil := none }

/-- The frame at depth `d` (counted from the outermost, 1 first) fails with a cause: the block stops at its next bundle
boundary (R318 step 1), the limit stops, other reports are discarded (R320), and FRAME_FAIL carries out the rest. -/
def State.failFrame (s : State) (bk d : Nat) (r : FaultRec) : State :=
  match s.block? bk with
  | none => s
  | some b =>
    let n := b.frames.length - d
    let s := { s with hub := { s.hub with votes := s.hub.votes ++ failVotes bk .fail (b.frames.take (n + 1)) } }
    s.updBlock bk fun b => { b with
      mode := .failing, failDepth := d, stopAt := s.clockOf bk, reports := [],
      frames := b.frames.modify n fun f =>
        Frame.fails r { f with dead := none } }

/-- A launch takes a block's fault as its own: its first, or, of the blocks that one release ended, that of the first in rank (R302, R390). -/
def Launch.takes (l : Launch) (b : Block) : Bool :=
  l.fault.isNone || match l.ftag, b.tag with
    | some x, some y => x.1 == y.1 && decide (y.2 < x.2)
    | _, _ => false
def Launch.recordFault (r : FaultRec) (b : Block) (l : Launch) : Launch :=
  if l.takes b then { l with fault := some r, fblock := b.idx, ftag := b.tag } else l

/-- The block stops to freeze; the launch keeps its first recorded fault (R302, R334). -/
def State.startFreeze (s : State) (bk : Nat) (r : FaultRec) : State :=
  match s.block? bk with
  | none => s
  | some b =>
    let s := s.updBlock bk fun b => { b with mode := .freezing, fault := some r, stopAt := s.clockOf bk, reports := [] }
    s.updLaunch b.lid (Launch.recordFault r b)

/-- The detail of a fault whose rule names none. -/
def openDet : Nat := 2 ^ 64

/-- A recorded detail is 64 bits; where the rule names none, FADDR holds a free value (R332; notes/assumptions/5.md). -/
def State.named (s : State) (r : FaultRec) : FaultRec × State :=
  if r.det = openDet then ({ r with det := (Config.openDetail s.free).toNat }, { s with free := s.free + 1 }) else (r, s)

/-- Raise a fault of a running block: inside a frame the innermost frame fails, outside the block freezes (R318, R334). -/
def State.raiseFault (s : State) (bk : Nat) (r : FaultRec) : State :=
  match s.block? bk with
  | none => s
  | some b =>
    let n := s.named r
    if b.frames.isEmpty then n.2.startFreeze bk n.1 else n.2.failFrame bk b.frames.length n.1

/-- A fault that a block takes no note of (R320, R334): it is entering, failing, replaying or freezing, or it has left. -/
def State.deaf (s : State) (bk : Nat) : Bool :=
  match s.block? bk with
  | none => true
  | some b => b.st == .frozen || b.st == .retired || b.mode == .failing || b.mode == .replaying || b.mode == .freezing || s.entering bk

/-- A fault that waits for the block's next bundle boundary, with the key of the frame it belongs to (0: none). -/
def State.pend (s : State) (bk : Nat) (r : FaultRec) (key : Nat) : State :=
  let n := s.named r
  n.2.updBlock bk fun b => { b with reports := b.reports ++ [(n.1, key)] }

/-- Take a fault of a block (R318, R320, R334): inside a frame the innermost frame fails; outside, the block freezes. A fault
of a block that is entering, failing, replaying or freezing is discarded and logs nothing; one of a block that stops to be saved waits. -/
def State.takeFault (s : State) (bk : Nat) (r : FaultRec) : State :=
  match s.block? bk with
  | none => s
  | some b =>
    if s.deaf bk then s
    else if b.st != .resident || b.mode == .saving then s.pend bk r (b.frameKey r.grp)
    else s.raiseFault bk r

/-- A fault whose rule names no detail. -/
def State.openFault (s : State) (bk fk : Nat) (c : FClass) (pc : Nat) : State :=
  s.takeFault bk { code := c.code, pc := pc, det := openDet, grp := fkG fk, lane := fkL fk }

/-- A fault reported after issue (R333): it takes effect by FAULT_REPORT_AFTER_ISSUE at the block's next bundle boundary. -/
def State.reportFault (s : State) (bk : Nat) (r : FaultRec) (key : Nat) : State := if s.deaf bk then s else s.pend bk r key

/-- Who makes a write: the PC of the instruction and the fibre it is made for (R315). -/
structure Who where
  pc : Nat
  fk : Nat
deriving DecidableEq, Repr

/-- The write that found no room for its record: the frame fails with AC and detail RRES (R315). -/
def State.noRoom (s : State) (bk : Nat) (w : Who) : State :=
  s.takeFault bk { code := FClass.ac.code, pc := w.pc, det := (s.rcbOf bk).rres, grp := fkG w.fk, lane := fkL w.fk }

/-! ### Register writes -/

/-- Lane words that are not preserved take free values (R32; notes/assumptions/5.md). -/
def State.scramble (s : State) (l : List (Nat × Nat)) : State :=
  l.foldl (fun s x => { s with rs := s.rs.putLane x.1 x.2 (Config.openWord s.free).toNat, free := s.free + 1 }) s

/-- A register that a fibre's instructions write is live in its block from then on (R32). -/
def Fibre.liveV (r : Nat) (f : Fibre) : Fibre := { f with livev := max f.livev (r + 1) }
def Fibre.liveU (n : Nat) (f : Fibre) : Fibre := { f with lives := max f.lives (n + 1) }

/-- Write a lane word with a given poison mark (a load's destination, R77); its full/empty bit is unchanged (R113). -/
def State.setVP (s : State) (w : Who) (bk g r l v : Nat) (p : Bool) : State :=
  match s.record bk g (.vreg r) with
  | none => s.noRoom bk w
  | some s =>
    let s : State := { s with rs := (s.rs.putLane (rkOf bk g r) l v).putPoison (rkOf bk g r) l p }
    s.updFib w.fk (Fibre.liveV r)

/-- Write all four bytes of a lane word: the mark is cleared (R63). -/
def State.setV (s : State) (w : Who) (bk g r l v : Nat) : State := s.setVP w bk g r l v false

/-- Write a uniform register with a given mark. -/
def State.setUP (s : State) (w : Who) (bk g n v : Nat) (p : Bool) : State :=
  match s.record bk g (.ureg n) with
  | none => s.noRoom bk w
  | some s =>
    let s : State := { s with rs := s.rs.putU (ukOf bk g n) v p }
    s.updFib w.fk (Fibre.liveU n)

/-- Write a uniform register. -/
def State.setU (s : State) (w : Who) (bk g n v : Nat) : State := s.setUP w bk g n v false

/-- Write predicate `p` of a fibre (R14: a write to p15 is discarded). -/
def State.setP (s : State) (w : Who) (fk p : Nat) (v : Bool) : State :=
  if p = 15 then s
  else match s.record (fkBk fk) (fkG fk) .preds with
    | none => s.noRoom (fkBk fk) w
    | some s => s.updFib fk fun f => f.setPred p v

/-- OR flags into a group's GSW (R139). -/
def State.orGsw (s : State) (w : Who) (bk g fl : Nat) : State :=
  if fl = 0 then s
  else match s.record bk g .gsw with
    | none => s.noRoom bk w
    | some s => s.updGroup bk g fun gr => { gr with gsw := gr.gsw ||| BitVec.ofNat 32 fl }

/-- One byte of a group's window; four bytes of a word written together clear its mark (R63, R115). -/
def State.wget (s : State) (bk g off : Nat) : Nat := s.vraw bk g (off / 256) (off % 256 / 4) / 256 ^ (off % 4) % 256

/-- Bytes put into a window, without recording. -/
def RegSt.putBytes (rs : RegSt) (bk g off : Nat) : List Nat → RegSt
  | [] => rs
  | b :: bs =>
    let rk := rkOf bk g (off / 256)
    let l := off % 256 / 4
    let old := (sget 0 (sget [] rs.vregs rk) l).toNat
    (rs.putLane rk l (setBits old (8 * (off % 4)) 8 b)).putBytes bk g (off + 1) bs

/-- Clear the mark of each word that lies whole in [off, off + n). -/
def RegSt.clearMarks (rs : RegSt) (bk g off n : Nat) : RegSt :=
  (span ((off + 3) / 4) ((off + n) / 4 - (off + 3) / 4)).foldl (fun rs wd =>
    rs.putPoison (rkOf bk g (wd / 64)) (wd % 64) false) rs

/-- Save each register of a list; none when one finds no room. -/
def State.recordRegs (s : State) (bk g : Nat) : List Nat → Option State
  | [] => some s
  | r :: rs => match s.record bk g (.vreg r) with
    | none => none
    | some s => s.recordRegs bk g rs

/-- Registers that [off, off + n) touches. -/
def regsOf (off n : Nat) : List Nat := span (off / 256) ((off + n + 255) / 256 - off / 256)

/-- Write bytes into a group's window. -/
def State.wput (s : State) (w : Who) (bk g off : Nat) (bs : List Nat) : State :=
  match s.recordRegs bk g (regsOf off bs.length) with
  | none => s.noRoom bk w
  | some s =>
    let s : State := { s with rs := (s.rs.putBytes bk g off bs).clearMarks bk g off bs.length }
    if fkBk w.fk = bk ∧ fkG w.fk = g then s.updFib w.fk (Fibre.liveV ((off + bs.length - 1) / 256)) else s

/-- `n` bytes of a group's window as a little-endian number. -/
def State.wnum (s : State) (bk g off : Nat) : Nat → Nat
  | 0 => 0
  | n + 1 => s.wget bk g off + 256 * s.wnum bk g (off + 1) n

/-- Any byte of the range lies in a poisoned word. -/
def State.wpois (s : State) (bk g off n : Nat) : Bool :=
  (span (off / 4) ((off + n + 3) / 4 - off / 4)).any fun wd => s.vpois bk g (wd / 64) (wd % 64)

/-- The offset of the first poisoned word of a range (R394). -/
def State.wpoisAt (s : State) (bk g off n : Nat) : Option Nat :=
  ((span (off / 4) ((off + n + 3) / 4 - off / 4)).find? fun wd => s.vpois bk g (wd / 64) (wd % 64)).map (· * 4)

/-- Full bits of the granules of a range (R113). -/
def State.setFulls (s : State) (bk g off n : Nat) (b : Bool) : State :=
  (span (off / 16) ((off + n + 15) / 16 - off / 16)).foldl (fun s j =>
    { s with rs := s.rs.putFull (rkOf bk g (j / 16)) (j % 16) b }) s

def State.granFull (s : State) (bk g off : Nat) : Bool := s.vfull bk g (off / 256) (off % 256 / 16)

/-! ### Allotment and chunks (R16, R103 to R109) -/

/-- The group's allotment in registers. A stalled or held `shrink` has already lowered it, so InShrunkRange of R16 is the
range above it. -/
def Group.allot (g : Group) : Nat := 32 * g.chunks.length
def State.allot (s : State) (bk g : Nat) : Nat := (s.group bk g).allot

/-- DCSIZE of a core in chunks (R105). -/
def State.dcChunks (s : State) (core : Nat) : Nat :=
  match sget 0 s.host.dccfg core with
  | 0 => 0
  | 1 => 64
  | _ => 128

/-- Groups on a core: blocks that hold a place there. -/
def Block.onCores (b : Block) : Bool := b.st == .resident || b.st == .placing || b.st == .frozen
def State.coreGroups (s : State) (core : Nat) : List (Block × Group) :=
  (s.blocks.filter Block.onCores).flatMap fun b => (b.groups.filter fun g => g.core == core).map fun g => (b, g)

def State.usedChunks (s : State) (core : Nat) : List Nat :=
  (s.coreGroups core).flatMap fun p => p.2.chunks ++ p.2.held.map (·.1)

/-- Chunks of recovery-cache areas on a core (R105). -/
def State.reserveChunks (s : State) (core : Nat) : Nat :=
  ((s.coreGroups core).map fun p => match s.launch? p.1.lid with | some l => l.resc | none => 0).sum

def State.freeCount (s : State) (core : Nat) : Nat :=
  Config.chunksPerCore - s.dcChunks core - s.reserveChunks core - (s.usedChunks core).length

/-- The chunks to take, lowest first (R104 leaves the choice free); the data cache takes the top of each slice. -/
def State.pickChunks (s : State) (core n : Nat) : List Nat :=
  let used := s.usedChunks core
  let top := s.dcChunks core / 8
  ((span 0 Config.chunksPerCore).filter fun c => !used.contains c && decide (c % 64 < 64 - top)).take n

/-! ### Counters and the scoreboard (R118, R242) -/

/-- A counter: the number of the group's operations of a class from the oldest incomplete one on. -/
def cntIn (ops : List Op) (bk g : Nat) (c : Cnt) : Nat :=
  ((ops.filter fun o => o.bk == bk && o.g == g && o.cls == c).dropWhile Op.fin).length
def State.cnt (s : State) (bk g : Nat) (c : Cnt) : Nat := cntIn s.ops bk g c

def LStat.isDone : LStat → Bool
  | .done => true
  | _ => false

/-- Registers an operation's destination spans. -/
def Op.width (o : Op) : Nat :=
  match o.kind with
  | .rtake | .rhead | .ctxq => 1
  | _ => if o.ty.wide then 2 else 1

/-- Whether an operation still has to write lane `l` of register `r` of group `g`: the group in which a lane's fibre now stands (R272). -/
def Op.owes (o : Op) (g r l : Nat) : Bool :=
  match o.d with
  | .v n => decide (n ≤ r) && decide (r < n + o.width) && o.lanes.any fun x => fkG x.fk == g && bit x.dl l && !x.st.isDone
  | _ => false

def Op.owesU (o : Op) (n : Nat) : Bool :=
  match o.d with
  | .s m => m == n && o.lanes.any fun x => !x.st.isDone
  | _ => false

/-- Kinds of operation whose D is a destination. -/
def OpKind.writes : OpKind → Bool
  | .ld | .ldt | .ldw | .atom | .rtake | .rhead | .msend | .mpoll | .pverInc | .pverRd | .ctxq => true
  | _ => false

/-- A scoreboarded lane of a vector register. -/
def State.busyV (s : State) (bk g r l : Nat) : Bool :=
  (s.ops.any fun o => o.bk == bk && o.kind.writes && o.owes g r l) ||
  (s.cmds.any fun c => c.bk == bk && c.g == g && c.stat != .done &&
    c.dst.any fun d => decide (d.1 < 256 * r + 4 * l + 4) && decide (256 * r + 4 * l < d.1 + d.2))

/-- A scoreboarded uniform register. -/
def State.busyU (s : State) (bk g n : Nat) : Bool :=
  (s.ops.any fun o => o.bk == bk && o.g == g && o.kind.writes && o.owesU n) ||
  (s.cmds.any fun c => c.bk == bk && c.g == g && c.stat != .done && c.du == some n)

/-- The fibre has a window store, or a window load, of a lane word of its group under way: the accesses of one fibre to a byte take
effect in program order whatever their path (R116). -/
def State.pendW (s : State) (fk r l : Nat) : Bool :=
  s.ops.any fun o => (o.kind == .stw || o.kind == .ldw) && o.lanes.any fun x =>
    x.fk == fk && !x.st.isDone && match x.tgt with
      | .win bk g off => bk == fkBk fk && g == fkG fk && decide (off < 256 * r + 4 * l + 4) && decide (256 * r + 4 * l < off + o.n)
      | _ => false

/-- An operation of the group still has to write one of the bytes [off, off + n) of the group's own window (R118). -/
def State.owedIn (s : State) (bk g off n : Nat) : Bool :=
  (s.ops.any fun o => o.bk == bk && o.kind.writes && match o.d with
    | .v m => (span m o.width).any fun r => (span 0 64).any fun l =>
        decide (off < 256 * r + 4 * l + 4) && decide (256 * r + 4 * l < off + n) && o.owes g r l
    | _ => false) ||
  (s.cmds.any fun c => c.bk == bk && c.g == g && c.stat != .done && c.dst.any fun d => decide (d.1 < off + n) && decide (off < d.1 + d.2))

/-- The fibre has a window access to one of the bytes [off, off + n) of its group's window under way (R116). -/
def State.pendIn (s : State) (fk off n : Nat) : Bool :=
  s.ops.any fun o => (o.kind == .stw || o.kind == .ldw) && o.lanes.any fun x =>
    x.fk == fk && !x.st.isDone && match x.tgt with
      | .win bk g a => bk == fkBk fk && g == fkG fk && decide (a < off + n) && decide (off < a + o.n)
      | _ => false

/-- Any lane of a register is owed. -/
def State.busyReg (s : State) (bk g r : Nat) : Bool := (span 0 64).any fun l => s.busyV bk g r l

/-- The lanes of an operation. -/
def State.op? (s : State) (id : Nat) : Option Op := s.ops.find? fun o => o.id == id
def State.updOp (s : State) (id : Nat) (f : Op → Op) : State := { s with ops := updFirst (fun o => o.id == id) f s.ops }
def Op.updLane (o : Op) (k : Nat) (f : Lane → Lane) : Op := { o with lanes := o.lanes.modify k f }

/-- An operation whose lanes are all done is complete under its counter. -/
def Op.settleFin (o : Op) : Op := if o.lanes.all fun x => x.st.isDone then { o with fin := true } else o

/-- Latest write completion time over an operation's lanes (R237). -/
def Op.maxWct (o : Op) : Nat := o.lanes.foldl (fun m x => max m x.wct) 0
def Op.maxWct4 (o : Op) : Nat := o.lanes.foldl (fun m x => max m x.wct4) 0

/-- Kinds of operation that fences and `.rel` wait for beyond completion. -/
def OpKind.stores : OpKind → Bool
  | .st | .stt | .stz | .red | .tlset | .tladd | .atom | .put => true
  | _ => false

/-- Drop the operations that are complete, retired in issue order (R242), and whose write completion times their core's tick has passed. -/
def sweepOps (tick : Nat → Nat) (ops : List Op) : List Op :=
  ops.filter fun o =>
    !(o.fin && (!o.kind.stores || decide (o.maxWct < tick o.core) && decide (o.maxWct4 < tick o.core)) &&
      (ops.takeWhile fun p => p.id != o.id).all fun p => !(p.bk == o.bk && p.g == o.g && p.cls == o.cls) || p.fin)
def State.sweep (s : State) : State := { s with ops := sweepOps (fun core => s.tickOn (quadOf core)) s.ops }

/-- A new operation number. -/
def State.newSeq (s : State) : Nat × State := (s.seq, { s with seq := s.seq + 1 })

/-- The command table. -/
def State.cmd? (s : State) (id : Nat) : Option Cmd := s.cmds.find? fun c => c.id == id
def State.updCmd (s : State) (id : Nat) (f : Cmd → Cmd) : State := { s with cmds := updFirst (fun c => c.id == id) f s.cmds }

/-- A command completes: when the last command of its operation is done the operation is complete under its counter. -/
def State.finishCmd (s : State) (id : Nat) : State :=
  match s.cmd? id with
  | none => s
  | some c =>
    let rest := s.cmds.filter fun x => x.id != id
    let s := { s with cmds := rest }
    if c.fill.isSome || rest.any fun x => x.op == c.op && x.fill.isNone then s
    else (s.updOp c.op fun o => { o with fin := true, lanes := o.lanes.map fun x => { x with st := .done } }).sweep

/-! ### Clusters and the special operands (R13, R111) -/

/-- Groups per cluster member. -/
def Block.perCore (b : Block) : Nat := (b.ngrp + b.cores.length - 1) / max b.cores.length 1

/-- The value of a special for a fibre (R13). -/
def State.special (s : State) (fk : Nat) (x : Special) : Nat :=
  let bk := fkBk fk
  match x with
  | .lane => fkL fk
  | .fibre => fkFibre fk
  | .group => fkG fk
  | .block => match s.block? bk with | some b => b.idx | none => 0
  | .core => (s.group bk (fkG fk)).core
  | .quad => quadOf (s.group bk (fkG fk)).core
  | .tick => s.tickOn (quadOf (s.group bk (fkG fk)).core) % 2 ^ 64
  | .tickhi => s.tickOn (quadOf (s.group bk (fkG fk)).core) / 2 ^ 32 % 2 ^ 32
  | .ngrp => match s.block? bk with | some b => b.ngrp | none => 0
  | .nfib => (s.blockFibs bk).length
  | .seed => (s.rcbOf bk).seed
  | .cbase => (s.rcbOf bk).cbase

end Sys2Proof.Machine
end

