-- ==== Sys2Proof/Machine/Memory.lean ====
section
/-!
DEFINITION. Memory in all its places above DRAM and the home slices (Machine/Dram.lean): leases and
copies (R235 to R237), Tureen regions (R84 to R88), bounds and page tables (R66 to R71), the scope table (R244), the
store-window check (R112), instruction fetch (R277), event queues (R336), and error record banks (R343, R344).
-/
namespace Sys2Proof.Machine

/-! ### Leases and copies (R235 to R237) -/

/-- Grant a lease of a line to a core (R236). -/
def Lease.grant (l : Lease) (tick core exp : Nat) : Lease :=
  if l.holders.any fun h => h.1 == core then
    { l with holders := l.holders.map fun h => if h.1 = core then (h.1, max h.2 exp) else h }
  else if l.holders.length < 4 then { l with holders := (core, exp) :: l.holders }
  else if l.holders.any fun h => h.2 + 4 < tick then
    { l with holders := updFirst (fun h => decide (h.2 + 4 < tick)) (fun _ => (core, exp)) l.holders }
  else { l with ovf := max l.ovf exp }

def Lease.none : Lease := { holders := [], ovf := 0 }

/-- The latest expiry that counts for a scope (R237): holders in the scope other than the issuing core, and OVF unless the
scope is entry 0; 0 when there is none. -/
def Lease.horizon (l : Lease) (core : Nat) (inScope : Nat → Bool) (ovf : Bool) : Nat :=
  (l.holders.filter fun h => h.1 != core && inScope h.1).foldl (fun m h => max m h.2) (if ovf then l.ovf else 0)

/-- WCT of a store performed at `t` (R237). -/
def wctOf (t h : Nat) : Nat := if h = 0 then t else max t (h + 4)

/-- The tick of the base die that holds a line's home slice (R5, R81). -/
def State.tickHome (s : State) (pa : Nat) : Nat := s.tickDie (4 + homeOf pa / 48)

/-- The copy of a line that a core may still answer from, by its own tick (R235). -/
def State.copyOf (s : State) (core ln : Nat) : Option Copy :=
  s.mem.copies.find? fun c => c.core == core && c.line == ln && decide (s.tickOn (quadOf core) < c.exp - 4)

/-! ### Tables read by the device (R66 to R70, R84, R244) -/

/-- `n` bytes of a table of a context at a physical address: the present bytes, or those of the context's last invalidate where
the choice of R70 falls on the old ones. -/
def State.tableNum (s : State) (c pa n : Nat) : Nat :=
  if s.ch.old then mread (s.ctx c).tsnap pa n else s.mem.homeNum pa n

/-- The physical address of a bounds entry (R66). -/
def State.entryAt (s : State) (c rid : Nat) : Nat := (s.ctx c).bndbase + 16 * rid

/-- A bounds entry in force (R66). -/
structure Bounds where
  base : Nat
  limit : Nat
  rd : Bool
  w : Bool
  x : Bool
  ds : Bool
deriving DecidableEq, Repr

/-- Bounds entry `rid`; none when it is not valid. -/
def State.bounds (s : State) (c rid : Nat) : Option Bounds :=
  if rid = 0 then some { base := 0, limit := 2 ^ 56 - 1, rd := true, w := true, x := true, ds := true }
  else
    let e := s.tableNum c (s.entryAt c rid) 16
    if bit e 124 && bits e 125 3 == 0 && bits e 56 8 == 0 then
      some { base := bits e 0 56, limit := bits e 64 56, rd := bit e 120, w := bit e 121, x := bit e 122, ds := bit e 123 }
    else none

/-- The stack of a physical address is ready, or has failed its training (R380). -/
def State.stackUp (s : State) (pa : Nat) : Bool := bit s.host.hubReady (16 + stackOf pa)
def State.stackFailed (s : State) (pa : Nat) : Bool := sget false s.host.trainFail (stackOf pa)
/-- The slices of a base die are ready, and memory of a type is usable at an address: its stack is ready and, but for memory that no slice holds, the slices of
its base die (R379, R380). -/
def State.slicesUp (s : State) (q : Nat) : Bool := bit s.host.hubReady (28 + q)
def State.memUp (s : State) (pa mt : Nat) : Bool := s.stackUp pa && (mt == 2 || s.slicesUp (stackOf pa / 3))

/-- The Dredy port that leads to a peer address, none when its route is not valid (R372, R375). -/
def State.routeOf (s : State) (a : Nat) : Option Nat :=
  let e := sget 0 s.host.route (bits a 40 8)
  if bit e 8 then some (bits e 0 4) else none

/-- The outcome of a page-table walk (R67, R68). -/
inductive Walk
  | wait
  | absent
  | malformed
  | leaf (pa mt size : Nat) (rd w x : Bool)
deriving DecidableEq, Repr

/-- One level of the walk: `sh` is the lowest va bit of its index (46, 36, 26, 16). A table on a stack that has failed its training cannot be read (R380). -/
def walkFrom (up dead : Nat → Bool) (rd8 : Nat → Nat) (va : Nat) : List Nat → Nat → Walk
  | [], _ => .malformed
  | sh :: rest, table =>
    let a := table + va / 2 ^ sh % 1024 * 8
    if a ≥ Config.dramTop ∨ dead a then .malformed
    else if !(up a) then .wait
    else
      let e := rd8 a
      let frame := e % 2 ^ 48 / 2 ^ 13 * 2 ^ 13
      if !bit e 0 then .absent
      else if bits e 48 16 ≠ 0 ∨ bits e 8 5 ≠ 0 then .malformed
      else if bit e 1 then
        if sh = 46 ∨ frame % 2 ^ sh ≠ 0 then .malformed
        else .leaf (frame + va % 2 ^ sh) (bits e 5 3) (2 ^ sh) (bit e 2) (bit e 3) (bit e 4)
      else if bits e 2 6 ≠ 0 ∨ rest = [] then .malformed
      else walkFrom up dead rd8 va rest frame

/-- Walk(va) of a context. -/
def State.walk (s : State) (c va : Nat) : Walk :=
  walkFrom (fun a => s.memUp a 0) s.stackFailed (fun a => s.tableNum c a 8) va [46, 36, 26, 16] ((s.ctx c).ptroot % 2 ^ 48 / 2 ^ 13 * 2 ^ 13)

/-- A scope entry (R244). -/
structure Scope where
  ok : Bool
  host : Bool
  peer : Bool
  lease : Nat
  mask : Nat
deriving DecidableEq, Repr

/-- LEASE as it acts (R244). -/
def leaseTicks (x : Nat) : Nat := if x = 0 then 512 else if x < 64 then 64 else if x > 4096 then 4096 else x

def maskOf (cores : List Nat) : Nat := cores.foldl (fun m c => m ||| 2 ^ c) 0

/-- Scope entry `n` for an issuing core and cluster. -/
def State.scope (s : State) (c n core : Nat) (cluster : List Nat) : Scope :=
  let e := s.tableNum c ((s.ctx c).scpbase + 32 * n) 32
  let l := leaseTicks (bits e 192 13)
  match n with
  | 0 => { ok := true, host := false, peer := false, lease := l, mask := 2 ^ core }
  | 1 => { ok := true, host := false, peer := false, lease := l, mask := maskOf cluster }
  | 2 => { ok := true, host := false, peer := false, lease := l, mask := (2 ^ 48 - 1) * 2 ^ (48 * quadOf core) }
  | 3 => { ok := true, host := false, peer := false, lease := l, mask := 2 ^ 192 - 1 }
  | 4 => { ok := true, host := true, peer := true, lease := l, mask := 2 ^ 192 - 1 }
  | _ => { ok := bit e 207 && bits e 208 48 == 0, host := bit e 205, peer := bit e 206, lease := l, mask := bits e 0 192 }

/-- The scope entry an instruction of a block names. -/
def State.scopeFor (s : State) (bk core n : Nat) : Scope :=
  s.scope (s.ctxOf bk) n core (match s.block? bk with | some b => b.cores | none => [core])

/-! ### Tureen regions (R84 to R88) -/

def regKey (c i : Nat) : Nat := c * 64 + i
def tlKey (k off : Nat) : Nat := k * 2 ^ 25 + off / 128
def tbKey (k off : Nat) : Nat := k * 2 ^ 32 + off
def tgKey (k off : Nat) : Nat := k * 2 ^ 28 + off / 16

/-- The regions of a context in force, lowest index first. -/
def State.regionsOf (s : State) (c : Nat) : List (Nat × Region) :=
  s.mem.regions.filterMap fun p => if p.1 / 64 = c then p.2.map fun r => (p.1, r) else none

/-- The entry that holds a Tureen address. -/
def State.regionT (s : State) (c t : Nat) : Option (Nat × Region) :=
  (s.regionsOf c).find? fun p => decide (p.2.tbase ≤ t) && decide (t < p.2.tbase + p.2.size)
/-- The entry whose global range holds a va (R69). -/
def State.regionG (s : State) (c va : Nat) : Option (Nat × Region) :=
  (s.regionsOf c).find? fun p => decide (p.2.gbase % 2 ^ 56 ≤ va) && decide (va < p.2.gbase % 2 ^ 56 + p.2.size)

def MemSt.tline (m : MemSt) (k off : Nat) : Option TLine := sget none m.tlines (tlKey k off)
def MemSt.tbyte (m : MemSt) (k off : Nat) : Nat := (mget m.tmem (tbKey k off)).toNat
def MemSt.tfull (m : MemSt) (k off : Nat) : Bool := sget false m.tfe (tgKey k off)
def MemSt.setTfull (m : MemSt) (k off : Nat) (b : Bool) : MemSt := { m with tfe := sset false m.tfe (tgKey k off) b }

/-- An absent line becomes present with the given bytes, its granules FEI (R86). -/
def MemSt.present (m : MemSt) (k off : Nat) (r : Region) (bs : List Nat) (p : Bool) : MemSt :=
  let base := off / 128 * 128
  let m := { m with
    tlines := sset none m.tlines (tlKey k off) (some { dirty := false, zero := false, pinned := false, poison := p })
    tmem := mputs (sdrop m.tmem (tbKey k base) 128) (tbKey k base) bs }
  (span 0 8).foldl (fun (m : MemSt) j => m.setTfull k (base + 16 * j) r.fei) m

/-- A store of bytes of one region line: dirty; a whole line clears its poison. -/
def MemSt.regionPut (m : MemSt) (k off : Nat) (bs : List Nat) : MemSt :=
  let t := (m.tline k off).getD { dirty := false, zero := false, pinned := false, poison := false }
  { m with
    tlines := sset none m.tlines (tlKey k off) (some { t with dirty := true, zero := false, poison := t.poison && !(bs.length == 128) })
    tmem := mputs m.tmem (tbKey k off) bs }

/-- `stz` of a region line: zero-tagged, without data and without poison (R60, R78). -/
def MemSt.regionZero (m : MemSt) (k off : Nat) : MemSt :=
  let t := (m.tline k off).getD { dirty := false, zero := false, pinned := false, poison := false }
  { m with
    tlines := sset none m.tlines (tlKey k off) (some { t with dirty := true, zero := true, poison := false })
    tmem := sdrop m.tmem (tbKey k (off / 128 * 128)) 128 }

/-! ### Error record banks (R343, R344) -/

def Erb.reset : Erb :=
  { valid := false, rank := 0, src := 0, ovf := 0, cv := false, ctx := 0, addr := 0, synd := 0, tick := 0 }

/-- The die of a reporting unit (R1, R343): a core's compute die, the base die of a slice or a DRAM controller, else the hub. -/
def unitDie (unit : Nat) : Nat :=
  if unit < 192 then unit / 48
  else if unit < 384 then 4 + (unit - 192) / 48
  else if unit < 396 then 4 + (unit - 384) / 3
  else 8

/-- A record arrives at a bank (R344): it replaces the held one unless that is of higher rank; either way the loss is counted. -/
def Erb.arrive (e r : Erb) : Erb :=
  let up := min (e.ovf + 1) 0xFFFF
  if !e.valid then { r with ovf := e.ovf } else if e.rank ≤ r.rank then { r with ovf := up } else { e with ovf := up }

/-- A bank as it stands had the host cleared it at this tick: the records of the tick alone. -/
def State.erbFresh (s : State) (unit : Nat) : Erb :=
  match sget none s.host.erbNew unit with
  | some (t, e) => if t = s.tick then e else Erb.reset
  | none => Erb.reset

/-- A unit logs a record (R343, R344): rank 1 corrected, 2 deferred, 3 uncorrected; its tick is that of the unit's die (R5). -/
def State.logError (s : State) (unit rank src : Nat) (ctx : Option Nat) (addr synd : Nat) : State :=
  let r : Erb := { valid := true, rank := rank, src := src, ovf := 0, cv := ctx.isSome, ctx := ctx.getD 0, addr := addr, synd := synd,
                   tick := s.tickDie (unitDie unit) }
  let e := (sget none s.host.erb unit).getD Erb.reset
  { s with host := { s.host with
      erb := sset none s.host.erb unit (some (e.arrive r)), erbNew := sset none s.host.erbNew unit (some (s.tick, (s.erbFresh unit).arrive r))
      irq := s.host.irq || decide (rank ≥ 2) } }

/-- An access of a context reads DRAM below the slices and finds a codeword that cannot be corrected: an uncorrected record in the controller's
bank. A line that carries the marker, or whose directory bit is set, gives none (R61, R62). -/
def State.sense (s : State) (c : Option Nat) (t : Tgt) : State :=
  match t with
  | .mem pa mt =>
    let ln := pa / 128
    let v := sget 0 s.mem.dbad ln
    if v = 0 ∨ sget false s.mem.zdir ln = true ∨ sget false s.mem.dpoison ln = true ∨ (mt ≠ 2 ∧ (s.mem.tag ln).isSome = true) then s
    else s.logError (384 + stackOf pa) 3 6 c (soffOf (ln * 128) + (v - 1) % 4 * 32) ((v - 1) / 4)
  | _ => s

/-! ### The check of R71 -/

/-- Kinds of access and the permission each needs (R71, R80). -/
inductive Kind
  | load | store | atom | fetch | any
deriving DecidableEq, Repr

def Kind.allowed (k : Kind) (rd w x : Bool) : Bool :=
  match k with
  | .load => rd
  | .store => w
  | .atom => rd && w
  | .fetch => x
  | .any => rd || w

inductive Chk
  | fault (c : FClass) (det : Nat)
  | staged
  | absent (t : Tgt)
  | wait
  | ok (t : Tgt)
deriving DecidableEq, Repr

/-- The partition of environments (R352): base and bytes, none while it is disabled. -/
def State.envPart (s : State) : Option (Nat × Nat) :=
  let n := bits s.host.envcfg 0 7
  if 3 ≤ n ∧ n ≤ 64 then some (bits s.host.envcfg 30 34 * 2 ^ 30, n * 2 ^ 30) else none

/-- A physical address lies in the partition, which no context reaches. -/
def State.inEnv (s : State) (pa : Nat) : Bool :=
  match s.envPart with
  | some (b, n) => decide (b ≤ pa) && decide (pa < b + n)
  | none => false

/-- The steps of R71 after the bounds: the walk and the leaf. An invalid route is AC here; a link that is down is found when the access is
performed (R375). DEDUCED: the host bus address is formed as R68 forms every address, the frame's bits in place plus the offset
(notes/assumptions/61.md). -/
def State.leafCheck (s : State) (c p : Nat) (kind : Kind) : Chk :=
  match s.walk c (p % 2 ^ 56) with
  | .wait => .wait
  | .absent => if s.mem.verdict = some (c, p % 2 ^ 56 / 65536 * 65536) then .fault .ac p else .absent .none
  | .malformed => .fault .ac p
  | .leaf pa mt _ rd w x =>
    if mt > 4 ∨ !(kind.allowed rd w x) then .fault .ac p
    else if mt ≤ 2 then (if pa ≥ Config.dramTop ∨ s.stackFailed pa ∨ s.inEnv pa then .fault .ac p else .ok (.mem pa mt))
    else if mt = 4 ∧ (s.routeOf pa).isNone then .fault .ac p
    else .ok (.out pa mt)

/-- Alignment and bounds: the first two steps of R71. -/
def State.boundsCheck (s : State) (c p n align : Nat) (kind : Kind) : Option FClass :=
  let va := p % 2 ^ 56
  if va % align ≠ 0 then some .ma
  else match s.bounds c (p / 2 ^ 56) with
    | none => some .ac
    | some e =>
      if va < e.base ∨ va + n - 1 > e.limit ∨ !(kind.allowed e.rd e.w e.x) then some .ac else none

/-- What the stack of a pointer's bounds entry answers before the entry can be read: it waits while the stack is not ready, and is AC when it has failed its
training (R380). Entry 0 is in no table (R66). -/
def State.entryHold (s : State) (c p : Nat) : Option Chk :=
  let rid := p / 2 ^ 56
  let a := s.entryAt c rid
  if rid = 0 then none else if s.stackFailed a then some (.fault .ac p) else if s.memUp a 0 then none else some .wait

/-- The link to peer memory at an address is down (R375). -/
def State.peerDown (s : State) (a : Nat) : Bool :=
  match s.routeOf a with
  | some l => !(bit s.host.hubReady l)
  | none => true

/-- Where an absent FILL line of a region is filled from (R86). -/
def State.fillFrom (s : State) (k off : Nat) : Option Chk :=
  match sget none s.mem.regions k with
  | none => none
  | some r =>
    if (s.mem.tline k off).isSome || !r.fill then none else some (s.leafCheck (k / 64) (r.gbase + off / 128 * 128) .load)

/-- The link that an access of a target needs is down: that of a peer target, or that over which its region line is to be filled (R375). -/
def State.linkDown (s : State) : Tgt → Bool
  | .out a 4 => s.peerDown a
  | .region k off => match s.fillFrom k off with
    | some (.ok (.out a 4)) => s.peerDown a
    | _ => false
  | _ => false

/-- MakePresent of a region line as far as it can fail (R86): a FILL line is checked for a load at GBASE + o. -/
def State.fillCheck (s : State) (c k off : Nat) (r : Region) (det : Nat) : Chk :=
  if (s.mem.tline k off).isSome ∨ !r.fill then .ok (.region k off)
  else
    let q := r.gbase + off / 128 * 128
    match s.boundsCheck c q 128 128 .load with
    | some cls => .fault cls det
    | none => match s.leafCheck c q .load with
      | .fault cls _ => .fault cls det
      | .absent _ => .absent (.region k off)
      | .ok (.mem pa mt) => if s.memUp pa mt then .ok (.region k off) else .wait
      | .wait => .wait
      | _ => .ok (.region k off)

/-- Permission of a region entry (R69, R90). -/
def Region.allowed (r : Region) (kind : Kind) : Bool := kind.allowed r.rd r.w false

/-- The check of R71 with the region rule of R69. `staging` says whether stores through a DS entry are staged for the
accessing fibre; `tables only` reads never stage. -/
def State.check (s : State) (c p n align : Nat) (kind : Kind) (staging : Bool) : Chk :=
  match s.entryHold c p with
  | some x => x
  | none => match s.boundsCheck c p n align kind with
  | some cls => .fault cls p
  | none =>
    let va := p % 2 ^ 56
    let ds := match s.bounds c (p / 2 ^ 56) with
      | some e => e.ds
      | none => false
    match s.regionG c va with
    | some (k, r) =>
      let off := va - r.gbase % 2 ^ 56
      let rds := match s.bounds c (r.gbase / 2 ^ 56) with
        | some e => e.ds
        | none => false
      if kind = .fetch ∨ !(r.allowed kind) then .fault .ac p
      else if staging && (ds || rds) && (kind == .store || kind == .atom) then
        (if kind = .atom then .fault .ac p else .staged)
      else s.fillCheck c k off r p
    | none =>
      if staging && ds && (kind == .store || kind == .atom) then
        (if kind = .atom then .fault .ac p else .staged)
      else s.leafCheck c p kind

/-- The check of an access to a whole line that needs no byte of it (`cwb` R80, `iinv` R278): no alignment, one byte, and no line
of a region is brought in, and peer memory is left alone whatever its route. -/
def State.checkLine (s : State) (c p : Nat) (kind : Kind) : Chk :=
  match s.entryHold c p with
  | some x => x
  | none => match s.boundsCheck c p 1 1 kind with
  | some cls => .fault cls p
  | none => match s.regionG c (p % 2 ^ 56) with
    | some (k, r) =>
      if kind = .fetch ∨ !(r.allowed kind) then .fault .ac p else .ok (.region k (p % 2 ^ 56 - r.gbase % 2 ^ 56))
    | none => match s.walk c (p % 2 ^ 56) with
      | .leaf pa 4 _ rd w x => if kind.allowed rd w x then .ok (.out pa 4) else .fault .ac p
      | _ => s.leafCheck c p kind

/-- The checks of `ld.t` and `st.t` up to the body (R88, R90): MakePresent comes before staging, which takes a store whether or not the line's
page is present (R71). -/
def State.checkT (s : State) (c t n : Nat) (kind : Kind) (staging feq : Bool) : Chk :=
  if t % n ≠ 0 then .fault .ma t
  else match s.regionT c t with
    | none => .fault .ac t
    | some (k, r) =>
      let off := t - r.tbase
      let ds := match s.bounds c (r.gbase / 2 ^ 56) with
        | some e => e.ds
        | none => false
      if t + n - 1 ≥ r.tbase + r.size ∨ !(r.allowed kind) then .fault .ac t
      else if feq && staging && ds then .fault .ac t
      else if staging && ds && kind == .store then match s.fillCheck c k off r t with
        | .fault f d => .fault f d
        | .wait => .wait
        | _ => .staged
      else s.fillCheck c k off r t

/-- MakePresent: the line's fill from global memory or from zeros (R86). -/
def State.makePresent (s : State) (c k off : Nat) : State :=
  match sget none s.mem.regions k with
  | none => s
  | some r =>
    if (s.mem.tline k off).isSome then s
    else if !r.fill then { s with mem := s.mem.present k off r (List.replicate 128 0) false }
    else
      let q := r.gbase + off / 128 * 128
      match s.leafCheck c q .load with
      | .ok (.mem pa mt) =>
        let s := s.sense (some c) (.mem pa mt)
        if mt = 2 then { s with mem := s.mem.present k off r (s.mem.dramBytes pa 128) (s.mem.dramPois (pa / 128)) }
        else { s with mem := s.mem.present k off r (s.mem.homeBytes pa 128) (s.mem.homePois (pa / 128)) }
      | .ok (.out _ _) =>
        let bs := (span s.free 128).map fun i => (Config.outsideByte i).toNat
        { s with mem := s.mem.present k off r bs false, free := s.free + 128 }
      | _ => s

/-- Bring the target's region line in, when it is one and no link that its fill needs is down (R375). -/
def State.touch (s : State) (c : Nat) : Tgt → State
  | .region k off => if s.linkDown (.region k off) then s else s.makePresent c k off
  | _ => s

/-! ### Reading and writing a target -/

/-- A byte of a core's Lid: sixteen slots of 128 KiB (R185). -/
def lidKey (core off : Nat) : Nat := core * 2 ^ 21 + off

/-- A read at a home slice fills its line, when the slice has cache ways (R60, R82). -/
def State.fillHome (s : State) (pa : Nat) : State := if s.noCache pa then s else { s with mem := s.mem.fill (pa / 128) }

/-- The bytes of a target and whether any lies in a poisoned line; the state holds the filled line. Bytes outside the device are free values
(R69). -/
def State.readTgt (s : State) (t : Tgt) (n : Nat) : List Nat × Bool × State :=
  match t with
  | .mem pa mt =>
    if mt = 2 then (s.mem.dramBytes pa n, s.mem.dramPois (pa / 128), s)
    else (s.mem.homeBytes pa n, s.mem.homePois (pa / 128), s.fillHome pa)
  | .out _ _ => ((span s.free n).map fun i => (Config.outsideByte i).toNat, false, { s with free := s.free + n })
  | .region k off =>
    ((span off n).map (s.mem.tbyte k), (match s.mem.tline k off with | some t => t.poison | none => false), s)
  | .win bk g off => ((span off n).map (s.wget bk g), s.wpois bk g off n, s)
  | .lid core off => ((span off n).map fun a => (mget s.eng.lid (lidKey core a)).toNat, false, s)
  | .none => ([], false, s)

/-- The issuing core's own copy takes the bytes of a performed store (R237); a whole line clears its poison (R63). -/
def updateCopy (core pa : Nat) (bs : List Nat) (cs : List Copy) : List Copy :=
  cs.map fun c => if c.core = core ∧ c.line = pa / 128 then
    { c with
      poison := c.poison && decide (bs.length < 128)
      bytes := c.bytes.mapIdx fun i b =>
        let a := c.line * 128 + i
        if pa ≤ a ∧ a < pa + bs.length then BitVec.ofNat 8 (bs.getD (a - pa) 0) else b }
    else c

/-- Write bytes of one line to a target for an issuing core. -/
def State.writeTgt (s : State) (core : Nat) (nt : Bool) (t : Tgt) (bs : List Nat) : State :=
  match t with
  | .mem pa mt =>
    if mt = 2 then { s with mem := s.mem.dramPut pa bs }
    else
      let m := s.mem.homeStore (nt || s.noCache pa) pa bs
      { s with mem := { m with copies := updateCopy core pa bs m.copies } }
  | .out a mt =>
    { s with mem := { s.mem with ext := s.mem.ext ++
        [{ port := if mt = 4 then s.routeOf a else none, addr := a, bytes := bs.map (BitVec.ofNat 8) }] } }
  | .region k off => { s with mem := s.mem.regionPut k off bs }
  | .lid core off => { s with eng := { s.eng with lid := mputs s.eng.lid (lidKey core off) bs } }
  | .win _ _ _ => s
  | .none => s

/-- Make a target's line zero (R78). -/
def State.zeroTgt (s : State) (core : Nat) (nt : Bool) (t : Tgt) : State :=
  match t with
  | .mem pa mt =>
    let ln := pa / 128
    let m := if mt = 2 ∨ ((nt || s.noCache pa) ∧ (s.mem.tag ln).isNone) then s.mem.dramZero ln else s.mem.homeZero ln
    { s with mem := { m with copies := if mt = 2 then m.copies else updateCopy core (ln * 128) (List.replicate 128 0) m.copies } }
  | .out _ _ => s.writeTgt core nt t (List.replicate 128 0)
  | .region k off => { s with mem := s.mem.regionZero k off }
  | _ => s

/-- The tick of the die that performs an access: the home slice's or the controller's base die, the region slice's base die, else the hub. -/
def State.tickAt (s : State) : Tgt → Nat
  | .mem pa _ => s.tickHome pa
  | .region k off => match sget none s.mem.regions k with
    | some r => s.tickDie (4 + (r.sfirst + off / 128 % max r.scount 1) / 48)
    | none => s.tick
  | _ => s.tick

/-- WCT and WCT4 of a store performed now at a target (R237). For host and peer memory it is the tick, not before this one, at which the link
answers: a free value. -/
def State.wcts (s : State) (core : Nat) (sc : Scope) (entry0 : Bool) (t : Tgt) : Nat × Nat :=
  let now := s.tickAt t
  match t with
  | .mem pa mt =>
    if mt = 0 then
      let l := sget Lease.none s.mem.leases (pa / 128)
      (wctOf now (l.horizon core (fun c => bit sc.mask c) (!entry0)),
       wctOf now (l.horizon core (fun _ => true) true))
    else (now, now)
  | .out _ _ => (now + Config.linkTicks s.free, now + Config.linkTicks s.free)
  | _ => (now, now)

/-- The free value of a link's answer is drawn. -/
def State.wctDrawn (s : State) : Tgt → State
  | .out _ _ => { s with free := s.free + 1 }
  | _ => s

/-- Drop instruction-cache lines of a core set (R278). -/
def State.dropIcache (s : State) (mask ln : Nat) : State :=
  { s with mem := { s.mem with
      iclines := skeep (fun k => !(decide (k % 2 ^ 33 = ln) && bit mask (k / 2 ^ 33))) s.mem.iclines } }

/-! ### Store-window addresses (R110 to R112) -/

def winGrp (w : Nat) : Nat := w / 2 ^ 19 % 128
def winOff (w : Nat) : Nat := w % 2 ^ 19
def winAddr (g off : Nat) : Nat := g * 2 ^ 19 + off

/-- The check of R112 against the groups of a block: size `n`, alignment `a`. -/
def State.winCheck (s : State) (bk w n a : Nat) : Option (FClass × Nat) :=
  match s.block? bk with
  | none => some (.ac, w)
  | some b =>
    if w / 2 ^ 26 ≠ 0 ∨ winGrp w ≥ b.ngrp ∨ winOff w + n - 1 ≥ 256 * (b.group (winGrp w)).allot then some (.ac, w)
    else if w % a ≠ 0 then some (.ma, w)
    else none

/-! ### Event queues (R336, R337) -/

def eventEntry (kind cls lane grp block lid arg0 arg1 : Nat) : Nat :=
  kind % 256 + cls % 16 * 2 ^ 8 + lane % 64 * 2 ^ 19 + grp % 128 * 2 ^ 25 + block % 2 ^ 32 * 2 ^ 32 + lid % 2 ^ 64 * 2 ^ 64
    + arg0 % 2 ^ 64 * 2 ^ 128 + arg1 % 2 ^ 64 * 2 ^ 192

/-- Post an entry to an event queue; false when it is dropped and counted in LOST. -/
def State.postEvent (s : State) (c q entry : Nat) : Bool × State :=
  let x := s.ctx c
  let cfg := sget evqcfgReset x.evqcfg q
  let ptr := sget 0 x.evqptr q
  let n := 2 ^ max (bits cfg 8 4) 4
  let tail := bits ptr 0 32
  let head := bits ptr 32 32
  if !bit cfg 0 ∨ (tail + 1) % n = head % n then
    let lost := setBits cfg 2 6 (min (bits cfg 2 6 + 1) 63)
    (false, s.updCtx c fun x => { x with evqcfg := sset evqcfgReset x.evqcfg q lost })
  else
    let pa := cfg / 2 ^ 12 * 2 ^ 12 + 32 * (tail % n)
    let s := { s with mem := s.mem.physPut s.noCache pa (natBytes 32 entry) }
    (true, s.updCtx c fun x => { x with evqptr := sset 0 x.evqptr q (setBits ptr 0 32 ((tail + 1) % n)) })

/-! ### Staging (R71, R300, R328) -/

/-- The block's stores through a DS entry are staged: a deterministic region, or an open frame. -/
def State.staging (s : State) (bk : Nat) : Bool :=
  (s.rcbOf bk).det || match s.block? bk with
    | some b => !b.frames.isEmpty
    | none => false

/-- The conversation of a block's frames: its object's physical address, and whether a pointer's granule lies in a range. -/
def State.convOf (s : State) (bk : Nat) : Option (Nat × Nat) :=
  match s.block? bk with
  | some b => b.frames.findSome? Frame.conv
  | none => none

/-- Ranges of a conversation object (R326). -/
def State.convRanges (s : State) (pa : Nat) : List (Nat × Nat) :=
  (span 0 4).map fun j => (s.mem.homeNum (pa + 64 + 16 * j) 8, s.mem.homeNum (pa + 64 + 16 * j + 8) 4)

def State.inRange (s : State) (bk p : Nat) : Bool :=
  match s.convOf bk with
  | none => false
  | some (_, pa) => (s.convRanges pa).any fun r =>
      p / 2 ^ 56 == r.1 / 2 ^ 56 && decide (r.1 % 2 ^ 56 ≤ p % 2 ^ 56) && decide (p % 2 ^ 56 < r.1 % 2 ^ 56 + r.2)

/-- Whether a store of a block at `p` is to be staged when its bounds entry says DS. -/
def State.stagesAt (s : State) (bk p : Nat) : Bool := s.staging bk && !(s.inRange bk p)

/-- Open frames of a block: the depth a store staged now belongs to. -/
def State.depth (s : State) (bk : Nat) : Nat :=
  match s.block? bk with
  | some b => b.frames.length
  | none => 0

/-! ### Instruction fetch (R277) -/

/-- What fetching a word gives. -/
inductive Fetch
  | word (w : Nat)
  | fault (c : FClass) (det : Nat)
  | absent
  | wait
deriving DecidableEq, Repr

def icKey (core ln : Nat) : Nat := core * 2 ^ 33 + ln
def icByte (core a : Nat) : Nat := core * 2 ^ 40 + a

/-- The word at a code address as a core fetches it, from its instruction cache or from DRAM. -/
def State.fetchWord (s : State) (bk core p : Nat) : Fetch :=
  match s.check (s.ctxOf bk) p 8 8 .fetch false with
  | .fault _ det => .fault .ac det
  | .absent _ => .absent
  | .wait => .wait
  | .ok (.mem pa _) => if !(s.memUp pa 2) then .wait else
    .word (if sget false s.mem.iclines (icKey core (pa / 128)) then mread s.mem.icache (icByte core pa) 8
      else ofNats (s.mem.dramBytes pa 8))
  | _ => .fault .ac p

/-- The line of a fetched word is held by the core's instruction cache. -/
def State.fillIcache (s : State) (bk core p : Nat) : State :=
  match s.check (s.ctxOf bk) p 8 8 .fetch false with
  | .ok (.mem pa _) =>
    let ln := pa / 128
    if sget false s.mem.iclines (icKey core ln) then s
    else
    let s := s.sense (some (s.ctxOf bk)) (.mem pa 2)
    { s with mem := { s.mem with
      iclines := sset false s.mem.iclines (icKey core ln) true
      icache := mputs (sdrop s.mem.icache (icByte core (ln * 128)) 128) (icByte core (ln * 128))
        (s.mem.dramBytes (ln * 128) 128) } }
  | _ => s

end Sys2Proof.Machine
end

