-- ==== Sys2Proof/Machine/Num.lean ====
section
/-!
DEFINITION. Number formats and exact arithmetic (R129 to R136, R148, R170 to R184): floating values as exact dyadic numbers,
one rounding, DS8 and E8 codes, the counter-based generator H, and SHA3-256. Flags are sets of GSW bits (R138).
-/
namespace Sys2Proof.Machine

/-- GSW flag bits (R138). -/
def fNV : Nat := 1
def fDZ : Nat := 2
def fOF : Nat := 4
def fUF : Nat := 8
def fNX : Nat := 16
def fDSR : Nat := 32
def fSAT : Nat := 64
def fEIV : Nat := 128

/-- A floating format (R129): fraction bits, bias, and the exponent field of infinities and NaNs. -/
structure Fmt where
  f : Nat
  bias : Nat
  emax : Nat
deriving DecidableEq, Repr

def fmtOf : Ty → Fmt
  | .f16 => { f := 10, bias := 15, emax := 31 }
  | .bf16 => { f := 7, bias := 127, emax := 255 }
  | _ => { f := 23, bias := 127, emax := 255 }

def fmt32 : Fmt := { f := 23, bias := 127, emax := 255 }

/-- A floating value: a NaN (signalling or not), an infinity, or ±m·2^e. -/
inductive FVal
  | nan (sig : Bool)
  | inf (neg : Bool)
  | fin (neg : Bool) (m : Nat) (e : Int)
deriving DecidableEq, Repr

namespace FVal
def isNan : FVal → Bool
  | nan _ => true
  | _ => false
def isSig : FVal → Bool
  | nan s => s
  | _ => false
def neg : FVal → Bool
  | nan _ => false
  | inf n => n
  | fin n _ _ => n
def isZero : FVal → Bool
  | fin _ m _ => m == 0
  | _ => false
def isInf : FVal → Bool
  | inf _ => true
  | _ => false
end FVal

/-- The value of a bit pattern (R129). -/
def unpack (k : Fmt) (x : Nat) : FVal :=
  let s := bit x (k.f + (k.emax + 1).log2)
  let e := x / 2 ^ k.f % (k.emax + 1)
  let m := x % 2 ^ k.f
  if e = k.emax then (if m = 0 then .inf s else .nan (decide (m < 2 ^ (k.f - 1))))
  else if e = 0 then .fin s m (1 - k.bias - k.f)
  else .fin s (m + 2 ^ k.f) (e - k.bias - k.f)

def signBit (k : Fmt) (n : Bool) : Nat := if n then 2 ^ (k.f + (k.emax + 1).log2) else 0
def infBits (k : Fmt) (n : Bool) : Nat := signBit k n + k.emax * 2 ^ k.f
def nanBits (k : Fmt) : Nat := k.emax * 2 ^ k.f + 2 ^ (k.f - 1)
def maxBits (k : Fmt) (n : Bool) : Nat := signBit k n + k.emax * 2 ^ k.f - 1

/-- Whether the magnitude m/2^s (plus a bit when `st`) rounds away from zero beyond its floor, in mode `rm` (R25). -/
def roundsUp (rm : RM) (neg : Bool) (m s : Nat) (st : Bool) : Bool :=
  let r := m % 2 ^ s
  let inexact := decide (r ≠ 0) || st
  match rm with
  | .zero => false
  | .up => inexact && !neg
  | .down => inexact && neg
  | .near =>
    let h := 2 ^ (s - 1)
    decide (s ≠ 0) && (decide (r > h) || (r == h && (st || m / 2 ^ s % 2 == 1)))

/-- ±(m + δ)·2^e, 0 ≤ δ < 1 and δ ≠ 0 exactly when `st`, rounded once to format `k` (R130, R131). `m` is not 0. -/
def roundPack (k : Fmt) (rm : RM) (neg : Bool) (m : Nat) (e : Int) (st : Bool) : Nat × Nat :=
  let emin : Int := 1 - k.bias
  let ex : Int := (m.log2 : Int) + e
  let q : Int := max ex emin - k.f
  let sh : Nat := (q - e).toNat
  let up : Nat := (e - q).toNat
  let m1 := m * 2 ^ up
  let mant := m1 / 2 ^ sh + b2n (roundsUp rm neg m1 sh st)
  let inexact := decide (m1 % 2 ^ sh ≠ 0) || st
  -- encoded exponent and fraction: a carry out of the fraction raises the exponent field by itself
  let enc : Int := if mant < 2 ^ k.f then mant else mant + (q + k.f + k.bias - 1) * (2 ^ k.f : Nat)
  if enc ≥ (k.emax * 2 ^ k.f : Nat) then
    let toInf := match rm with
      | .near => true
      | .zero => false
      | .up => !neg
      | .down => neg
    (if toInf then infBits k neg else maxBits k neg, fOF + fNX)
  else
    -- tiny after rounding to the destination precision with unbounded exponent (R131)
    let q' : Int := ex - k.f
    let sh' : Nat := (q' - e).toNat
    let m1' := m * 2 ^ (e - q').toNat
    let mant' := m1' / 2 ^ sh' + b2n (roundsUp rm neg m1' sh' st)
    let tiny := decide (ex < emin) && !(decide (ex = emin - 1) && decide (mant' ≥ 2 ^ (k.f + 1)))
    (signBit k neg + enc.toNat, (if inexact then fNX else 0) + (if inexact && tiny then fUF else 0))

def packZero (k : Fmt) (n : Bool) : Nat := signBit k n

/-- An exact value n·2^e rounded; a zero has the sign `zneg`. -/
def roundInt (k : Fmt) (rm : RM) (n : Int) (e : Int) (zneg : Bool) : Nat × Nat :=
  if n = 0 then (packZero k zneg, 0) else roundPack k rm (decide (n < 0)) n.natAbs e false

/-- NV when one of the sources is a signalling NaN (R170). -/
def sigFlag (xs : List FVal) : Nat := if xs.any FVal.isSig then fNV else 0

/-- The signed integer mantissa at exponent `e`. -/
def FVal.scaled (x : FVal) (e : Int) : Int :=
  match x with
  | .fin n m ex => (if n then -1 else 1) * ((m : Int) * (2 ^ (ex - e).toNat : Nat))
  | _ => 0

def FVal.exp : FVal → Int
  | .fin _ _ e => e
  | _ => 0

/-- The product of two values that are not NaN; none for 0 × ∞. -/
def FVal.mul : FVal → FVal → Option FVal
  | .fin n m e, .fin n' m' e' => some (.fin (n != n') (m * m') (e + e'))
  | .inf n, .fin n' m _ => if m = 0 then none else some (.inf (n != n'))
  | .fin n m _, .inf n' => if m = 0 then none else some (.inf (n != n'))
  | .inf n, .inf n' => some (.inf (n != n'))
  | _, _ => none

def minExp : List FVal → Int
  | [] => 0
  | [x] => x.exp
  | x :: xs => min x.exp (minExp xs)

/-- The exact sum of values, none of them a NaN, rounded once; opposite infinities are invalid. The sign of an exact zero sum
follows R130. -/
def sumRound (k : Fmt) (rm : RM) (xs : List FVal) : Nat × Nat :=
  let hasP := xs.any fun x => x == .inf false
  let hasN := xs.any fun x => x == .inf true
  if hasP && hasN then (nanBits k, fNV)
  else if hasP then (infBits k false, 0)
  else if hasN then (infBits k true, 0)
  else
    let e := minExp xs
    let n := (xs.map (·.scaled e)).foldl (· + ·) 0
    let allNegZero := xs.all fun x => x.neg && x.isZero
    roundInt k rm n e (allNegZero || rm == .down)

/-- a + b (R170). -/
def fAdd (k : Fmt) (rm : RM) (a b : Nat) : Nat × Nat :=
  let x := unpack k a
  let y := unpack k b
  if x.isNan || y.isNan then (nanBits k, sigFlag [x, y]) else sumRound k rm [x, y]

/-- The pattern with its sign inverted, for a − b. -/
def flipSign (k : Fmt) (a : Nat) : Nat :=
  let s := signBit k true
  if bit a (k.f + (k.emax + 1).log2) then a - s else a + s

def fSubt (k : Fmt) (rm : RM) (a b : Nat) : Nat × Nat :=
  let y := unpack k b
  if y.isNan then (nanBits k, sigFlag [unpack k a, y]) else fAdd k rm a (flipSign k b)

/-- A value that is not NaN, rounded to a format. -/
def roundVal (k : Fmt) (rm : RM) : FVal → Nat × Nat
  | .nan _ => (nanBits k, 0)
  | .inf n => (infBits k n, 0)
  | .fin n m e => if m = 0 then (packZero k n, 0) else roundPack k rm n m e false

/-- a × b (R170). -/
def fMul (k : Fmt) (rm : RM) (a b : Nat) : Nat × Nat :=
  let x := unpack k a
  let y := unpack k b
  if x.isNan || y.isNan then (nanBits k, sigFlag [x, y])
  else match x.mul y with
    | none => (nanBits k, fNV)
    | some p => roundVal k rm p

/-- a × b + c with one rounding (R170): 0 × ∞ is invalid whatever c is. -/
def fFma (k : Fmt) (rm : RM) (a b c : Nat) : Nat × Nat :=
  let x := unpack k a
  let y := unpack k b
  let z := unpack k c
  let bad := (x.isZero && y.isInf) || (x.isInf && y.isZero)
  if x.isNan || y.isNan || z.isNan || bad then
    (nanBits k, if bad || [x, y, z].any FVal.isSig then fNV else 0)
  else match x.mul y with
    | none => (nanBits k, fNV)
    | some p => sumRound k rm [p, z]

/-- a ÷ b (R170). The quotient carries 64 bits beyond the format and the remainder as a sticky bit. -/
def fDivide (k : Fmt) (rm : RM) (a b : Nat) : Nat × Nat :=
  let x := unpack k a
  let y := unpack k b
  if x.isNan || y.isNan then (nanBits k, sigFlag [x, y])
  else match x, y with
    | .inf _, .inf _ => (nanBits k, fNV)
    | .inf n, .fin n' _ _ => (infBits k (n != n'), 0)
    | .fin n _ _, .inf n' => (packZero k (n != n'), 0)
    | .fin n m e, .fin n' m' e' =>
      if m' = 0 then (if m = 0 then (nanBits k, fNV) else (infBits k (n != n'), fDZ))
      else if m = 0 then (packZero k (n != n'), 0)
      else
        let num := m * 2 ^ 96
        roundPack k rm (n != n') (num / m') (e - e' - 96) (decide (num % m' ≠ 0))
    | _, _ => (nanBits k, 0)

/-- floor(√n), by bits from 2^k down. -/
def isqrt (n : Nat) : Nat → Nat → Nat
  | 0, r => r
  | k + 1, r =>
    let r' := r + 2 ^ k
    isqrt n k (if r' * r' ≤ n then r' else r)

def sqrtFloor (n : Nat) : Nat := isqrt n (n.log2 / 2 + 1) 0

/-- √a (R170). -/
def fSquareRoot (k : Fmt) (rm : RM) (a : Nat) : Nat × Nat :=
  match unpack k a with
  | .nan s => (nanBits k, if s then fNV else 0)
  | .inf n => if n then (nanBits k, fNV) else (infBits k false, 0)
  | .fin n m e =>
    if m = 0 then (packZero k n, 0)
    else if n then (nanBits k, fNV)
    else
      let odd := decide (e % 2 ≠ 0)
      let m1 := (if odd then m * 2 else m) * 2 ^ 96
      let e1 := (if odd then e - 1 else e) - 96
      let r := sqrtFloor m1
      roundPack k rm false r (e1 / 2) (decide (r * r ≠ m1))

/-- An exact value rounded to an integer in mode `rm`: the integer, and whether it differs. -/
def toIntegral (rm : RM) (neg : Bool) (m : Nat) (e : Int) : Int × Bool :=
  let sh := (-e).toNat
  let m1 := m * 2 ^ e.toNat
  let v := m1 / 2 ^ sh + b2n (roundsUp rm neg m1 sh false)
  (if neg then -(v : Int) else v, decide (m1 % 2 ^ sh ≠ 0))

/-- `frnd` (R170). -/
def fRound (k : Fmt) (rm : RM) (a : Nat) : Nat × Nat :=
  match unpack k a with
  | .nan s => (nanBits k, if s then fNV else 0)
  | .inf _ => (a, 0)
  | .fin n m e =>
    let (v, inexact) := toIntegral rm n m e
    if !inexact then (a, 0)
    else ((if v = 0 then packZero k n else (roundPack k .near n v.natAbs 0 false).1), fNX)

/-- `fdot2` (R171): two products and an FP32 addend, one rounding. -/
def fDot2 (k : Fmt) (rm : RM) (a b c : Nat) : Nat × Nat :=
  let a0 := unpack k (a % 65536)
  let a1 := unpack k (a / 65536 % 65536)
  let b0 := unpack k (b % 65536)
  let b1 := unpack k (b / 65536 % 65536)
  let z := unpack fmt32 c
  let p := a0.mul b0
  let q := a1.mul b1
  let badP := fun (x y : FVal) => (x.isZero && y.isInf) || (x.isInf && y.isZero)
  let infs := [p, q, some z]
  let bad := badP a0 b0 || badP a1 b1 || (infs.contains (some (.inf false)) && infs.contains (some (.inf true)))
  let all := [a0, a1, b0, b1, z]
  match p, q with
  | some x, some y =>
    if z.isNan || bad then (nanBits fmt32, if bad || all.any FVal.isSig then fNV else 0) else sumRound fmt32 rm [x, y, z]
  | _, _ => (nanBits fmt32, if bad || all.any FVal.isSig then fNV else 0)

/-- Exact comparison of two values that are not NaN: less, equal, greater as −1, 0, 1. -/
def FVal.cmp (x y : FVal) : Int :=
  match x, y with
  | .inf n, .inf n' => if n == n' then 0 else if n then -1 else 1
  | .inf n, _ => if n then -1 else 1
  | _, .inf n => if n then 1 else -1
  | _, _ =>
    let e := min x.exp y.exp
    let d := x.scaled e - y.scaled e
    if d < 0 then -1 else if d = 0 then 0 else 1

/-- `fmin` (`mx` false) and `fmax` (R172): −0 is less than +0; the result is a bit copy. -/
def fMinMax (k : Fmt) (mx : Bool) (a b : Nat) : Nat × Nat :=
  let x := unpack k a
  let y := unpack k b
  let fl := sigFlag [x, y]
  if x.isNan && y.isNan then (nanBits k, fl)
  else if x.isNan then (b, fl)
  else if y.isNan then (a, fl)
  else
    let c := x.cmp y
    let aLess := decide (c < 0) || (decide (c = 0) && x.neg && !y.neg)
    let aMore := decide (c > 0) || (decide (c = 0) && !x.neg && y.neg)
    (if mx then (if aMore then a else b) else (if aLess then a else b), 0)

/-- `fcmp` (R175): the predicate and its flags. -/
def fCompare (k : Fmt) (cc a b : Nat) : Bool × Nat :=
  let x := unpack k a
  let y := unpack k b
  let un := x.isNan || y.isNan
  let c := x.cmp y
  let quiet := sigFlag [x, y]
  let loud := if un then fNV else 0
  match cc with
  | 0 => (!un && decide (c = 0), quiet)
  | 1 => (un || decide (c ≠ 0), quiet)
  | 2 => (!un && decide (c < 0), loud)
  | 3 => (!un && decide (c ≤ 0), loud)
  | 4 => (!un && decide (c > 0), loud)
  | 5 => (!un && decide (c ≥ 0), loud)
  | 6 => (un, quiet)
  | _ => (!un, quiet)

/-- The class number of R176. -/
def fClassOf (k : Fmt) (a : Nat) : Nat :=
  match unpack k a with
  | .nan _ => 0
  | .inf n => if n then 1 else 7
  | .fin n m _ => if m = 0 then 4 else if m < 2 ^ k.f then (if n then 3 else 5) else (if n then 2 else 6)

/-- `frcp` (R174). -/
def fRecip (a : Nat) : Nat × Nat :=
  match unpack fmt32 a with
  | .nan s => (nanBits fmt32, if s then fNV else 0)
  | .inf n => (packZero fmt32 n, 0)
  | .fin n m e =>
    if m = 0 then (infBits fmt32 n, fDZ)
    else
      let num := 2 ^ 128
      let r := roundPack fmt32 .zero n (num / m) (-e - 128) (decide (num % m ≠ 0))
      if r.2 = fOF + fNX then (infBits fmt32 n, fOF + fNX) else r

/-- `frsq` (R174). -/
def fRecipSqrt (a : Nat) : Nat × Nat :=
  match unpack fmt32 a with
  | .nan s => (nanBits fmt32, if s then fNV else 0)
  | .inf n => if n then (nanBits fmt32, fNV) else (packZero fmt32 false, 0)
  | .fin n m e =>
    if m = 0 then (infBits fmt32 n, fDZ)
    else if n then (nanBits fmt32, fNV)
    else
      let odd := decide (e % 2 ≠ 0)
      let m1 := if odd then m * 2 else m
      let e1 := if odd then e - 1 else e
      let r := sqrtFloor (2 ^ 256 / m1)
      roundPack fmt32 .zero false r (-(e1 / 2) - 128) (decide (r * r * m1 ≠ 2 ^ 256))

/-- ln 2 at scale 2^192. -/
def ln2Scaled : Nat := 4350955369971217654477563090224794165364344896676135745069

/-- Sum of the exponential series of y/2^192 from term `k`, `t` being the term before it. -/
def expSeries (y : Nat) : Nat → Nat → Nat → Nat
  | 0, _, _ => 0
  | n + 1, k, t =>
    let t' := t * y / 2 ^ 192 / k
    t' + expSeries y n (k + 1) t'

/-- 2^f for 0 ≤ f < 1, both at scale 2^192. -/
def exp2Frac (f : Nat) : Nat := 2 ^ 192 + expSeries (f * ln2Scaled / 2 ^ 192) 64 1 (2 ^ 192)

/-- `fexp2` (R174). 2^x of a source that is not an integer is irrational; its 192-bit approximation decides the truncation
(notes/assumptions/6.md). -/
def fExp2 (a : Nat) : Nat × Nat :=
  match unpack fmt32 a with
  | .nan s => (nanBits fmt32, if s then fNV else 0)
  | .inf n => if n then (packZero fmt32 false, 0) else (infBits fmt32 false, 0)
  | .fin n m e =>
    if m = 0 then (127 * 2 ^ 23, 0)
    else if (m.log2 : Int) + e < -40 then ((if n then 0x3F7FFFFF else 127 * 2 ^ 23), fNX)
    else if (m.log2 : Int) + e ≥ 9 then
      (if n then roundPack fmt32 .zero false 1 (-1000) true else (infBits fmt32 false, fOF + fNX))
    else
      -- |a| < 512: a = i + f/2^192, 0 ≤ f < 1
      let x : Int := (if n then -1 else 1) * ((m : Int) * (2 ^ (e + 192).toNat : Nat))
      let i : Int := x / (2 ^ 192 : Nat)
      let f : Nat := (x % (2 ^ 192 : Nat)).toNat
      if i ≥ 128 then (infBits fmt32 false, fOF + fNX)
      else if f = 0 then roundPack fmt32 .zero false 1 i false
      else roundPack fmt32 .zero false (exp2Frac f) (i - 192) true

/-- Bits of log2 x for x in [1, 2) at scale 2^256, most significant first, accumulated in `acc`. -/
def log2Bits : Nat → Nat → Nat → Nat
  | 0, _, acc => acc
  | n + 1, x, acc =>
    let y := x * x / 2 ^ 256
    if y ≥ 2 ^ 257 then log2Bits n (y / 2) (acc * 2 + 1) else log2Bits n y (acc * 2)

/-- `flog2` (R174). The logarithm of anything but a power of two is irrational; 96 bits of it decide the truncation. -/
def fLog2 (a : Nat) : Nat × Nat :=
  match unpack fmt32 a with
  | .nan s => (nanBits fmt32, if s then fNV else 0)
  | .inf n => if n then (nanBits fmt32, fNV) else (infBits fmt32 false, 0)
  | .fin n m e =>
    if m = 0 then (infBits fmt32 true, fDZ)
    else if n then (nanBits fmt32, fNV)
    else
      let ex : Int := (m.log2 : Int) + e
      if m = 2 ^ m.log2 then roundInt fmt32 .zero ex 0 false
      else
        let f := log2Bits 96 (m * 2 ^ (256 - m.log2)) 0
        let v : Int := ex * (2 ^ 96 : Nat) + f
        if v < 0 then roundPack fmt32 .zero true (v.natAbs - 1) (-96) true
        else roundPack fmt32 .zero false v.natAbs (-96) true

/-- A floating conversion (R132). -/
def cvtFF (src dst : Fmt) (rm : RM) (a : Nat) : Nat × Nat :=
  match unpack src a with
  | .nan s => (nanBits dst, if s then fNV else 0)
  | v => roundVal dst rm v

/-- Range of an integer type. -/
def tyMin (t : Ty) : Int := if t.signed then -(2 ^ (8 * t.size - 1) : Nat) else 0
def tyMax (t : Ty) : Int := if t.signed then (2 ^ (8 * t.size - 1) : Nat) - 1 else (2 ^ (8 * t.size) : Nat) - 1

def clampTo (t : Ty) (v : Int) : Int := if v < tyMin t then tyMin t else if v > tyMax t then tyMax t else v

/-- Float to integer (R133, R179). -/
def cvtFI (src : Fmt) (dst : Ty) (rm : RM) (a : Nat) : Nat × Nat :=
  match unpack src a with
  | .nan _ => (0, fNV)
  | .inf n => (unsgn (8 * dst.size) (if n then tyMin dst else tyMax dst), fNV)
  | .fin n m e =>
    let (v, inexact) := toIntegral rm n m e
    if v < tyMin dst ∨ v > tyMax dst then (unsgn (8 * dst.size) (clampTo dst v), fNV)
    else (unsgn (8 * dst.size) v, if inexact then fNX else 0)

/-- The integer a w-bit pattern stands for in an integer type. -/
def valOf (t : Ty) (x : Nat) : Int := if t.signed then sgn (8 * t.size) x else (x % 2 ^ (8 * t.size) : Nat)

/-- Integer to float (R133). -/
def cvtIF (src : Ty) (dst : Fmt) (rm : RM) (a : Nat) : Nat × Nat := roundInt dst rm (valOf src a) 0 false

/-- Integer to integer (R179); with `sat` clamped to the destination's range. For the same width, a value above
2^(w−1) − 1 of a z source becomes 2^(w−1) − 1 and a negative value of an i source becomes 0, which is that clamp. DESIGN CHOICE: `.sat`
from 32 to 64 bits clamps as well (a negative i32 gives 0 for z64, with SAT), by R133, since R179's row names no clamp
(notes/assumptions/62.md). -/
def cvtII (src dst : Ty) (sat : Bool) (a : Nat) : Nat × Nat :=
  let v := valOf src a
  if sat then (unsgn (8 * dst.size) (clampTo dst v), if clampTo dst v = v then 0 else fSAT)
  else (unsgn (8 * dst.size) v, 0)

/-- `cvt` (R179); `hi` reads bits [31:16] of a 16-bit source. -/
def cvtAny (dty sty : Ty) (sat hi : Bool) (rm : RM) (a : Nat) : Nat × Nat :=
  let x := if hi then a / 65536 % 65536 else if sty.size = 2 then a % 65536 else a
  match sty.isFph, dty.isFph with
  | true, true => cvtFF (fmtOf sty) (fmtOf dty) rm x
  | true, false => cvtFI (fmtOf sty) dty rm x
  | false, true => cvtIF sty (fmtOf dty) rm x
  | false, false => cvtII sty dty sat x

/-! ### DS8 and E8 (R134 to R136) -/

/-- A term of a DS8 code in units of 2^−6; a reserved term is 0. -/
def ds8Term (t : Nat) : Int := if t % 8 = 7 then 0 else (if t / 8 % 2 = 1 then -1 else 1) * (2 ^ (6 - t % 8) : Nat)

/-- The unscaled value in units of 2^−6 and whether a reserved term was met. -/
def ds8Val (c : Nat) : Int × Bool := (ds8Term (c / 16 % 16) + ds8Term (c % 16), c / 16 % 16 == 15 || c % 16 == 15)

/-- The non-reserved codes, lowest first. -/
def ds8Codes : List Nat := (span 0 256).filter fun c => !(ds8Val c).2

/-- The canonical code of a value in units of 2^−6. -/
def ds8Canon (v : Int) : Nat := if v = 0 then 0x77 else (ds8Codes.find? fun c => (ds8Val c).1 == v).getD 0x77

/-- Quantise n·2^e, already scaled, to the nearest code (R136): a tie goes to the smaller magnitude. -/
def ds8Nearest (n : Int) (e : Int) : Nat × Bool :=
  let s := min e (-6)
  let y := n * (2 ^ (e - s).toNat : Nat)
  let dist := fun c => ((ds8Val c).1 * (2 ^ (-6 - s).toNat : Nat) - y).natAbs
  let best := ds8Codes.foldl (fun (b : Nat) c =>
    if dist c < dist b ∨ (dist c = dist b ∧ (ds8Val c).1.natAbs < (ds8Val b).1.natAbs) then c else b) 0x77
  (ds8Canon (ds8Val best).1, decide (dist best ≠ 0))

/-- `qds8`: FP32 to a DS8 code under scale `e` (R136, R181). A scale of 0xFF writes 0x77 and sets EIV; NV follows the source (R136). -/
def quantDs8 (a e : Nat) : Nat × Nat :=
  match unpack fmt32 a with
    | .nan _ => (0x77, fNV + if e = 0xFF then fEIV else 0)
    | .inf n => if e = 0xFF then (0x77, fNV + fEIV) else (ds8Canon (if n then -128 else 128), fNV)
    | .fin n m ex =>
      if e = 0xFF then (0x77, fEIV) else
      let ey : Int := ex + 127 - e
      let v : Int := if n then -(m : Int) else m
      -- |y| > 2: the value ±2 differs from y
      if (m : Int) * (2 ^ ey.toNat : Nat) > 2 * (2 ^ (-ey).toNat : Nat) then (ds8Canon (if n then -128 else 128), fSAT + fNX)
      else
        let (c, inexact) := ds8Nearest v ey
        (c, if inexact then fNX else 0)

/-- `dqds8` (R182): a reserved term sets DSR under any scale (R134). DESIGN CHOICE: the zero it writes is +0 in every rounding mode, since
R182 states no sign (notes/assumptions/62.md). -/
def decodeDs8 (c e : Nat) (rm : RM) : Nat × Nat :=
  let (v, res) := ds8Val c
  let dsr := if res then fDSR else 0
  if e = 0xFF then (nanBits fmt32, fEIV + dsr)
  else
    let (x, fl) := roundInt fmt32 rm v ((e : Int) - 127 - 6) false
    (x, fl + dsr)

/-- `escale` (R183). -/
def scaleOf (a : Nat) : Nat × Nat :=
  match unpack fmt32 a with
  | .nan _ => (0xFF, fNV)
  | .inf _ => (0xFF, fNV)
  | .fin _ m e =>
    if m = 0 then (0, 0)
    else
      let s : Int := (m.log2 : Int) + e + 127
      if s < 0 then (0, fSAT) else (s.toNat, 0)

/-! ### H (R148) -/

def m64 (x : Nat) : Nat := x % 2 ^ 64
def rotl64 (x k : Nat) : Nat := m64 (x * 2 ^ k) + x / 2 ^ (64 - k)

def hRound (k x : Nat) : Nat :=
  let x := x ^^^ k
  let x := x ^^^ (x / 2 ^ 31)
  let x := m64 (x * 0xA6F13C59D82E47B3)
  let x := x ^^^ (x / 2 ^ 27)
  let x := m64 (x * 0x8B4E97D15C3AF26D)
  x ^^^ (x / 2 ^ 33)

/-- H(seed, cbase, i, sid). -/
def hashH (seed cbase i sid : Nat) : Nat :=
  let x := m64 (cbase + i)
  let k := m64 seed ^^^ m64 (sid % 65536 * 0xE7C32A9561F80D4B)
  let x := hRound k x
  let k := m64 (rotl64 k 17 + 0xE7C32A9561F80D4B)
  hRound k x

/-! ### SHA3-256 (FIPS 202, notes/assumptions/7.md), for DIGEST (R302) and attestation (R377) -/

/-- The linear feedback register after `t` steps: bit 8, when it is shifted out, returns to bits 0, 4, 5 and 6. -/
def shaLfsr : Nat → Nat
  | 0 => 1
  | t + 1 =>
    let r := shaLfsr t
    if r < 128 then 2 * r else (2 * r) ^^^ 0x171

/-- The constant of round `r`: the register's output at step j + 7r stands at bit 2^j − 1. -/
def shaIota (r : Nat) : Nat := ((span 0 7).map fun j => shaLfsr (j + 7 * r) % 2 * 2 ^ (2 ^ j - 1)).sum

/-- The state is one number of 1600 bits: bit z of column (x, y) is bit 64(5y + x) + z. -/
def shaCol (st x y : Nat) : Nat := bits st (64 * (5 * (y % 5) + x % 5)) 64

/-- A state from its columns. -/
def shaBuild (f : Nat → Nat → Nat) : Nat :=
  (span 0 5).foldl (fun n y => (span 0 5).foldl (fun n x => n + f x y % 2 ^ 64 * 2 ^ (64 * (5 * y + x))) n) 0

/-- The parity of sheet `x`: its five columns added without carry. -/
def shaSheet (st x : Nat) : Nat := (span 0 5).foldl (fun p y => p ^^^ shaCol st x y) 0

/-- The walk over the columns from (1, 0): where column `t` of the walk stands and how far it turns, as (x, y, turn). -/
def shaWalk : Nat → Nat × Nat × Nat
  | 0 => (1, 0, 1)
  | t + 1 =>
    let w := shaWalk t
    (w.2.1, (2 * w.1 + 3 * w.2.1) % 5, w.2.2 + t + 2)

/-- How far column (x, y) turns: column (0, 0) is not on the walk and stays. -/
def shaTurn (x y : Nat) : Nat :=
  match ((span 0 24).map shaWalk).find? fun w => w.1 == x && w.2.1 == y with
  | some w => w.2.2 % 64
  | none => 0

/-- One round: each column takes the parities beside it, turns and moves; each row is combined; the constant is added. -/
def shaRound (st r : Nat) : Nat :=
  let par := fun (x y : Nat) => shaCol st x y ^^^ shaSheet st (x + 4) ^^^ rotl64 (shaSheet st (x + 1)) 1
  let moved := shaBuild fun x y =>
    let x' := (x + 3 * y) % 5
    rotl64 (par x' x) (shaTurn x' x)
  let row := shaBuild fun x y => shaCol moved x y ^^^ ((2 ^ 64 - 1 - shaCol moved (x + 1) y) &&& shaCol moved (x + 2) y)
  row ^^^ shaIota r

/-- The permutation: 24 rounds. -/
def shaPerm (st : Nat) : Nat := (span 0 24).foldl shaRound st

/-- Take in `n` blocks of 136 bytes. -/
def shaAbsorb : Nat → List Byte → Nat → Nat
  | 0, _, st => st
  | n + 1, bs, st => shaAbsorb n (bs.drop 136) (shaPerm (st ^^^ ofBytes (bs.take 136)))

/-- SHA3-256 of a byte string, as 32 bytes: the message, then 0x06, zeros, and 0x80 at the end of the last block. -/
def sha3 (msg : List Byte) : List Byte :=
  let blocks := msg.length / 136 + 1
  let gap := blocks * 136 - msg.length
  let tail := bytesOf gap (0x06 + 0x80 * 256 ^ (gap - 1))
  bytesOf 32 (shaAbsorb blocks (msg ++ tail) 0)

end Sys2Proof.Machine
end

