-- ==== Sys2Proof/Machine/Operands.lean ====
section
/-!
DEFINITION. How an instruction runs over the fibres of its bundle: guards (R10), units under U = 1 (R11), operand resolution
with the allotment and index checks (R15, R16), the scoreboard (R118), poison (R63), and the order of faults (R35, R332).
-/
namespace Sys2Proof.Machine

/-- One execution of an instruction: the fibre that supplies its sources and the fibres it acts for. With U = 0 each
guard-holding fibre is a unit of its own; with U = 1 the guard-holding fibres of a group are one (R11). -/
structure WUnit where
  rep : Nat
  mem : List Nat
deriving DecidableEq, Repr

def WUnit.bk (u : WUnit) : Nat := fkBk u.rep
def WUnit.g (u : WUnit) : Nat := fkG u.rep
def WUnit.l (u : WUnit) : Nat := fkL u.rep

/-- What a unit is found to do, before anything is written. -/
inductive Plan (α : Type)
  | stall
  | fault (c : FClass) (det : Nat)
  | go (a : α)

def Plan.isStall {α : Type} : Plan α → Bool
  | .stall => true
  | _ => false

def Plan.isGo {α : Type} : Plan α → Bool
  | .go _ => true
  | _ => false

/-- The guard of R10. -/
def guardHolds (s : State) (g : Guard) (fk : Nat) : Bool :=
  match s.fib fk with
  | some f => f.pred g.gp != g.gn
  | none => false

/-- The fibres of the bundle in ascending home lane. -/
def State.curSorted (s : State) : List Nat := sortBy fkL s.cur

def groupKey (fk : Nat) : Nat := fk / 64

/-- One unit per group, its members in ascending home lane. -/
def unitsByGroup : List Nat → List WUnit
  | [] => []
  | fk :: fks => match (unitsByGroup fks).find? fun u => groupKey u.rep == groupKey fk with
    | some u => { rep := fk, mem := fk :: u.mem } ::
        (unitsByGroup fks).filter fun v => groupKey v.rep != groupKey fk
    | none => { rep := fk, mem := [fk] } :: unitsByGroup fks

def units (g : Guard) (hold : List Nat) : List WUnit :=
  if g.u then unitsByGroup hold else hold.map fun fk => { rep := fk, mem := [fk] }

/-- Run an instruction: plan every unit on the state before it, let a group whose units stall wait whole, advance the fibres
whose guard is false, apply the units that go on in ascending home lane, and take each faulting fibre's fault, lowest block,
group and lane first (R332). `prep` adjusts the planned units that do not stall, seen together (R77). -/
def runPrep {α : Type} (s : State) (g : Guard) (plan : State → WUnit → Plan α)
    (prep : List (WUnit × Plan α) → List (WUnit × Plan α)) (apply : State → WUnit → α → State) : State :=
  let cur := s.curSorted
  let hold := cur.filter (guardHolds s g)
  let planned := (units g hold).map fun u => (u, plan s u)
  let stalled := fun (fk : Nat) => planned.any fun p => p.2.isStall && groupKey p.1.rep == groupKey fk
  let going := prep (planned.filter fun p => !(stalled p.1.rep))
  let s1 := (cur.filter fun fk => !(guardHolds s g fk) && !(stalled fk)).foldl State.advance s
  let s2 := going.foldl (fun st p => match p.2 with
      | .go a => apply st p.1 a
      | _ => st) s1
  let faults := going.flatMap fun p => match p.2 with
      | .fault c det => p.1.mem.map fun fk => (fk, c.code, det)
      | _ => []
  (sortBy (·.1) faults).foldl (fun st x =>
    st.takeFault (fkBk x.1) { code := x.2.1, pc := s.ipc, det := x.2.2, grp := fkG x.1, lane := fkL x.1 }) s2

/-- `runPrep` where no unit's effect depends on another's. -/
def runUnits {α : Type} (s : State) (g : Guard) (plan : State → WUnit → Plan α) (apply : State → WUnit → α → State) :
    State := runPrep s g plan id apply

/-- Every member advances. -/
def advanceUnit (s : State) (u : WUnit) : State := u.mem.foldl State.advance s

/-! ### Operands -/

/-- An operand after the checks of R16. -/
inductive Res
  | stall
  | bad (c : FClass) (det : Nat)
  | v (n : Nat)
  | s (n : Nat)
  | sp (x : Special)
deriving DecidableEq, Repr

/-- The allotment check of a register number; an odd pair through an indirect operand is illegal (R15). DESIGN CHOICE: that fault is the fibre's
own, comes behind the operand's allotment check, in operand order, and has the register number as its detail, since R15, R16 and R35 name
neither (notes/assumptions/61.md). -/
def checkReg (allot n : Nat) (wide ind : Bool) : Res :=
  let w := if wide then 2 else 1
  if n > 1535 ∨ n + w - 1 ≥ allot then .bad .al (n + (if n ≤ 1535 ∧ n < allot then w - 1 else 0))
  else if ind && wide && n % 2 == 1 then .bad .il n
  else .v n

/-- Whether a fibre's access to a lane word of its group waits (R116, R118). -/
def State.waitV (s : State) (fk r l : Nat) : Bool := s.busyV (fkBk fk) (fkG fk) r l || s.pendW fk r l

/-- Resolve an operand field for a fibre (R16). -/
def resolve (s : State) (fk : Nat) (o : Opnd) (ind wide : Bool) : Res :=
  let bk := fkBk fk
  let g := fkG fk
  match o with
  | .v x =>
    if ind then
      if x ≥ s.allot bk g then .bad .al x
      else if s.waitV fk x (fkL fk) then .stall
      else if s.vpois bk g x (fkL fk) then .bad .pz x
      else checkReg (s.allot bk g) (s.vraw bk g x (fkL fk)) wide true
    else checkReg (s.allot bk g) x wide false
  | .s n => .s n
  | .sp x => .sp x

/-- Whether a resolved operand waits for an operation. -/
def busyRes (s : State) (fk : Nat) (wide : Bool) : Res → Bool
  | .v n => s.waitV fk n (fkL fk) || (wide && s.waitV fk (n + 1) (fkL fk))
  | .s n => s.busyU (fkBk fk) (fkG fk) n
  | _ => false

/-- The value of a resolved source (R15, R149). -/
def readRes (s : State) (fk : Nat) (wide : Bool) : Res → Nat
  | .v n => s.vraw (fkBk fk) (fkG fk) n (fkL fk) + if wide then s.vraw (fkBk fk) (fkG fk) (n + 1) (fkL fk) * 2 ^ 32 else 0
  | .s n => if wide then s.uraw (fkBk fk) (fkG fk) n else s.uraw (fkBk fk) (fkG fk) n % 2 ^ 32
  | .sp x => if wide then s.special fk x % 2 ^ 64 else s.special fk x % 2 ^ 32
  | _ => 0

/-- The register number of a poisoned source, 1536 + n for uniform n, as the detail of PZ (R63). DESIGN CHOICE: R152 names no detail; it is that of
the first poisoned source in the order of the operands, the lower register of a pair first (notes/assumptions/65.md). -/
def poisonRes (s : State) (fk : Nat) (wide : Bool) : Res → Option Nat
  | .v n =>
    if s.vpois (fkBk fk) (fkG fk) n (fkL fk) then some n
    else if wide && s.vpois (fkBk fk) (fkG fk) (n + 1) (fkL fk) then some (n + 1) else none
  | .s n => if s.upois (fkBk fk) (fkG fk) n then some (1536 + n) else none
  | _ => none

/-- A source of an instruction: operand, indirect flag, two registers wide. -/
structure Src where
  o : Opnd
  ind : Bool
  wide : Bool
deriving DecidableEq, Repr

/-- A destination: a register operand whose uniform result is extended by its type (R15), or a predicate. -/
inductive Dest
  | reg (o : Opnd) (ind wide : Bool) (ty : Ty)
  | pred (p : Nat)
deriving DecidableEq, Repr

def Dest.resolve (d : Dest) (s : State) (fk : Nat) : Res :=
  match d with
  | .reg o ind wide _ => Machine.resolve s fk o ind wide
  | .pred _ => .sp .lane

def Dest.wide : Dest → Bool
  | .reg _ _ w _ => w
  | .pred _ => false

/-- The first stall or fault of a list of resolved operands, in operand order (R35). -/
def firstBad : List Res → Option Res
  | [] => none
  | .stall :: _ => some .stall
  | .bad c d :: _ => some (.bad c d)
  | _ :: rs => firstBad rs

/-- Plan the operands of a unit: allotment faults in operand order D, A, B, C, then the scoreboard, then poison of the sources
that are read (`need`). -/
def planOperands (s : State) (u : WUnit) (d : Option Dest) (srcs : List Src) (need : List Bool) :
    Plan (Res × List Res) :=
  let rd := match d with
    | some d => d.resolve s u.rep
    | none => .sp .lane
  let rs := srcs.map fun x => resolve s u.rep x.o x.ind x.wide
  match firstBad (rd :: rs) with
  | some (.bad c det) => .fault c det
  | some _ => .stall
  | none =>
    let dw := match d with
      | some d => d.wide
      | none => false
    if (u.mem.any fun fk => busyRes s fk dw rd) || ((srcs.zip rs).any fun p => busyRes s u.rep p.1.wide p.2) then .stall
    else match ((srcs.zip rs).zip need).findSome? fun p => if p.2 then poisonRes s u.rep p.1.1.wide p.1.2 else none with
      | some n => .fault .pz n
      | none => .go (rd, rs)

/-- The source values of a unit. -/
def readSrcs (s : State) (u : WUnit) (srcs : List Src) (rs : List Res) : List Nat :=
  (srcs.zip rs).map fun p => readRes s u.rep p.1.wide p.2

/-- A result in a uniform register: sign-extended for the signed types narrower than 64 bits (R15). -/
def extendU (ty : Ty) (r : Nat) : Nat := if ty.signed && !ty.wide then unsgn 64 (sgn 32 r) else r

/-- Write a result to a resolved destination for every member of a unit. -/
def writeRes (s : State) (u : WUnit) (pc : Nat) (ty : Ty) (wide : Bool) (r : Nat) : Res → State
  | .v n => u.mem.foldl (fun s fk =>
      let w : Who := { pc := pc, fk := fk }
      let s := s.setV w (fkBk fk) (fkG fk) n (fkL fk) (r % 2 ^ 32)
      if wide then s.setV w (fkBk fk) (fkG fk) (n + 1) (fkL fk) (r / 2 ^ 32) else s) s
  | .s n => s.setU { pc := pc, fk := u.rep } u.bk u.g n (if wide then r else extendU ty r)
  | _ => s

def writeDest (s : State) (u : WUnit) (pc : Nat) (d : Dest) (rd : Res) (r : Nat) : State :=
  match d with
  | .reg _ _ wide ty => writeRes s u pc ty wide r rd
  | .pred p => u.mem.foldl (fun s fk => s.setP { pc := pc, fk := fk } fk p (r != 0)) s

/-- A computing instruction (R152); a poisoned source comes before a class fault of its values, of `rand`'s stream id among them
(DESIGN CHOICE, notes/assumptions/65.md). `need` says which sources are read, `f` gives the result and the flags, or the class fault,
from the representative fibre and the source values. -/
def runAlu (s : State) (g : Guard) (d : Dest) (srcs : List Src) (need : State → Nat → List Bool)
    (f : State → Nat → List Nat → Except (FClass × Nat) (Nat × Nat)) : State :=
  runUnits s g
    (fun s u => match planOperands s u (some d) srcs (need s u.rep) with
      | .stall => .stall
      | .fault c det => .fault c det
      | .go (rd, rs) => match f s u.rep (readSrcs s u srcs rs) with
        | .error e => .fault e.1 e.2
        | .ok r => .go (rd, r))
    (fun st u a =>
      let st := writeDest st u s.ipc d a.1 a.2.1
      let st := st.orGsw { pc := s.ipc, fk := u.rep } u.bk u.g a.2.2
      advanceUnit st u)

/-- All sources are read. -/
def needAll (n : Nat) : State → Nat → List Bool := fun _ _ => List.replicate n true

/-- Two sources of TY's width, result of TY's width. -/
def runBin (s : State) (f : Bin) (wd wa wb : Bool) (op : Nat → Nat → Nat × Nat) : State :=
  runAlu s f.g (.reg f.d f.id wd f.ty) [⟨f.a, f.ia, wa⟩, ⟨f.b, f.ib, wb⟩] (needAll 2)
    fun _ _ xs => .ok (op (xs.getD 0 0) (xs.getD 1 0))

def runUn (s : State) (f : Un) (wd wa : Bool) (op : Nat → Nat × Nat) : State :=
  runAlu s f.g (.reg f.d f.id wd f.ty) [⟨f.a, f.ia, wa⟩] (needAll 1) fun _ _ xs => .ok (op (xs.getD 0 0))

def runTri (s : State) (f : Tri) (wd wa wb wc : Bool) (op : Nat → Nat → Nat → Nat × Nat) : State :=
  runAlu s f.g (.reg f.d false wd f.ty) [⟨f.a, false, wa⟩, ⟨f.b, false, wb⟩, ⟨f.c, false, wc⟩] (needAll 3)
    fun _ _ xs => .ok (op (xs.getD 0 0) (xs.getD 1 0) (xs.getD 2 0))

/-- The immediate of format VI at the operation width (R151): sign-extended for i types. -/
def immVal (ty : Ty) (imm : Nat) : Nat := if ty.signed then unsgn (8 * ty.size) (sgn 8 imm) else imm

def runImm (s : State) (f : Imm) (op : Nat → Nat → Nat × Nat) (b : Nat) : State :=
  runAlu s f.g (.reg f.d f.id f.ty.wide f.ty) [⟨f.a, f.ia, f.ty.wide⟩] (needAll 1)
    fun _ _ xs => .ok (op (xs.getD 0 0) b)

end Sys2Proof.Machine
end

