-- ==== Sys2Proof/Machine/Access.lean ====
section
/-!
DEFINITION. Accesses that outlive their issue: addresses (R21), issue into an operation (R242), the order within a fibre (R75,
R116, R239, R240), full/empty granules and their waiters (R77, R113, R246), the return of a load, staging (R71, R234) and the
performing of stores (R237, R328).
-/
namespace Sys2Proof.Machine

/-! ### Addresses (R21) -/

/-- The register that follows the base. -/
def idxOpnd (wide : Bool) : Opnd → Opnd
  | .v n => .v (n + if wide then 2 else 1)
  | .s n => .s (n + 1)
  | .sp x => .sp x

/-- The operands a format-M address reads. -/
def addrSrcs (wide : Bool) (base : Opnd) (sc : Nat) : List Src :=
  ⟨base, false, wide⟩ :: if sc = 0 then [] else [⟨idxOpnd wide base, false, false⟩]

/-- The address from the operand values. DESIGN CHOICE: the sum is formed modulo 2^64, the rid's bits included, or modulo 2^32 in the 32-bit
classes, since R21 names no width for it (notes/assumptions/61.md). -/
def addrOf (wide : Bool) (ofs sc n : Nat) (xs : List Nat) : Nat :=
  let idx : Int := if sc = 0 then 0 else sgn 32 (xs.getD 1 0) * (2 ^ (sc - 1) : Nat)
  unsgn (if wide then 64 else 32) ((xs.getD 0 0 : Nat) + idx + sgn 8 ofs * (n : Nat))

/-! ### Targets -/

/-- A target's space and address; none before it is known. -/
def Tgt.key : Tgt → Option (Nat × Nat)
  | .none => Option.none
  | .mem pa _ => some (0, pa)
  | .out a mt => some (mt, a)
  | .region k off => some (5 + 2 * k, off)
  | .win bk g off => some (6 + 2 * (bk * 128 + g), off)
  | .lid core off => some (2, core * 2 ^ 21 + off)

/-- The target `d` bytes further on. -/
def Tgt.add (t : Tgt) (d : Nat) : Tgt :=
  match t with
  | .none => .none
  | .mem pa mt => .mem (pa + d) mt
  | .out a mt => .out (a + d) mt
  | .region k off => .region k (off + d)
  | .win bk g off => .win bk g (off + d)
  | .lid core off => .lid core (off + d)

/-- The target rounded down to a multiple of `m`. -/
def Tgt.down (t : Tgt) (m : Nat) : Tgt :=
  match t with
  | .none => .none
  | .mem pa mt => .mem (pa / m * m) mt
  | .out a mt => .out (a / m * m) mt
  | .region k off => .region k (off / m * m)
  | .win bk g off => .win bk g (off / m * m)
  | .lid core off => .lid core (off / m * m)

def Tgt.granular : Tgt → Bool
  | .region _ _ => true
  | .win _ _ _ => true
  | _ => false

def Tgt.isWin : Tgt → Bool
  | .win _ _ _ => true
  | _ => false

/-- The global pointer of an access: itself, or GBASE plus the offset for an access by Tureen address (R71, R88). -/
def State.globalPtr (s : State) (tu : Bool) (t : Tgt) (p : Nat) : Nat :=
  if tu then match t with
    | .region k off => match sget none s.mem.regions k with
      | some r => r.gbase + off
      | none => p
    | _ => p
  else p

/-- The places a lane is known by: its target and, for a global access, its va. -/
def Lane.keys (x : Lane) : List (Nat × Nat) :=
  x.tgt.key.toList ++ if x.tgt.isWin then [] else [(1, x.ptr % 2 ^ 56)]

/-- The byte `i` of an access at `ks` as a byte number of an access of `n` bytes at `ks'`. -/
def byteIn (ks ks' : List (Nat × Nat)) (i n : Nat) : Option Nat :=
  ks.findSome? fun a => (ks'.find? fun b => b.1 == a.1 && decide (b.2 ≤ a.2 + i) && decide (a.2 + i < b.2 + n)).map
    fun b => a.2 + i - b.2

/-- Two accesses touch a common byte. -/
def overlapK (ks ks' : List (Nat × Nat)) (n n' : Nat) : Bool :=
  ks.any fun a => ks'.any fun b => b.1 == a.1 && decide (b.2 < a.2 + n) && decide (a.2 < b.2 + n')

/-! ### Issue -/

def OpKind.isLoad : OpKind → Bool
  | .ld | .ldt | .ldw => true
  | _ => false
/-- Plain stores, whose bytes their own fibre reads back before they are performed (R237). -/
def OpKind.isStore : OpKind → Bool
  | .st | .stt | .stw | .stz => true
  | _ => false
def OpKind.tureen : OpKind → Bool
  | .ldt | .stt => true
  | _ => false

def Op.fe (o : Op) : Bool := o.kind.isLoad && bit o.qf 2
def Op.fec (o : Op) : Bool := o.fe && bit o.qf 1
def Op.fset (o : Op) : Bool := o.kind.isStore && bit o.qf 3
/-- `.acq` on loads, `.ar` on atomics (R240, R249). -/
def Op.acq (o : Op) : Bool := (o.kind.isLoad || o.kind == .atom) && bit o.qf 0
/-- `.rel` on stores and `red`, `.ar` on atomics; `tlset` and `tladd` carry it always (R240, R257). -/
def Op.rel (o : Op) : Bool :=
  ((o.kind.isStore || o.kind == .red || o.kind == .atom) && bit o.qf 0) || o.kind == .tlset || o.kind == .tladd

/-- The lane acts for the fibre. -/
def Lane.actsFor (x : Lane) (fk : Nat) : Bool := groupKey x.fk == groupKey fk && bit x.dl (fkL fk)

/-- An acquiring load of the fibre has not returned: nothing that follows it is performed before (R240). -/
def State.acqWait (s : State) (fk : Nat) : Bool :=
  s.ops.any fun o => o.acq && o.lanes.any fun x => !x.st.isDone && x.actsFor fk

/-- A memory operation as its word gives it. -/
structure MemI where
  kind : OpKind
  cls : Cnt
  d : Opnd
  ty : Ty
  n : Nat
  pol : Nat
  qf : Nat
  scope : Nat
  aux : Nat
  uni : Bool
deriving DecidableEq, Repr

def State.mkOp (s : State) (i : MemI) (bk g id : Nat) : Op :=
  { id := id, ins := id, bk := bk, g := g, core := (s.group bk g).core, cls := i.cls, kind := i.kind, pc := s.ipc, d := i.d, uni := i.uni,
    ty := i.ty, n := i.n, pol := i.pol, qf := i.qf, scope := i.scope, aux := i.aux,
    frame := (match s.block? bk with | some b => b.frameKey g | none => 0),
    fin := false, lanes := [] }

/-- The operation of this instruction for a group: opened by its first lane; `start` is the number of the next operation when
the instruction began. -/
def State.opFor (s : State) (i : MemI) (start bk g : Nat) : Nat × State :=
  match s.ops.find? fun o => decide (start ≤ o.id) && o.bk == bk && o.g == g with
  | some o => (o.id, s)
  | none => (s.seq, { s with seq := s.seq + 1, ops := s.ops ++ [{ s.mkOp i bk g s.seq with ins := start }] })

def State.addLane (s : State) (id : Nat) (x : Lane) : State := s.updOp id fun o => { o with lanes := o.lanes ++ [x] }

/-- A counter of the group is at its limit (R242). -/
def State.cntFull (s : State) (u : WUnit) (c : Cnt) : Bool := c != .none && decide (s.cnt u.bk u.g c ≥ Config.counterMax)

/-- A scope entry that an instruction may not name (R244). -/
def State.badScope (s : State) (u : WUnit) (n : Nat) : Bool :=
  decide (5 ≤ n) && !(s.scopeFor u.bk (s.group u.bk u.g).core n).ok

def maskOfUnit (u : WUnit) : Nat := u.mem.foldl (fun m fk => m ||| 2 ^ fkL fk) 0

/-- What the checks of one unit of a memory instruction gave. -/
structure MemGo where
  rd : Res
  src : Nat
  src2 : Nat
  ptr : Nat
  chk : Chk

def MemGo.keys (a : MemGo) : List (Nat × Nat) :=
  match a.chk with
  | .ok t => t.key.toList ++ if t.isWin then [] else [(1, a.ptr % 2 ^ 56)]
  | .absent t => t.key.toList ++ [(1, a.ptr % 2 ^ 56)]
  | _ => [(1, a.ptr % 2 ^ 56)]

/-- The value of byte `i` of a lane's store that the instruction writes: that of the highest home lane which names the byte, with whether
another lane than this one supplies it (R77). -/
def winByte (n : Nat) (l : List (WUnit × Plan MemGo)) (u : WUnit) (a : MemGo) (i : Nat) : Nat × Bool :=
  let r := l.foldl (fun (r : Nat × Nat) q => match q.2 with
      | .go b => if r.1 < q.1.l then match byteIn a.keys b.keys i n with
          | some j => (q.1.l, bits b.src (8 * j) 8)
          | none => r
        else r
      | _ => r) (u.l, bits a.src (8 * i) 8)
  (r.2, r.1 != u.l)

/-- Where several lanes of one instruction store to a byte, the highest home lane's value is the one written: the others drop the
byte from their masks and take that value for their own, which their fibres' loads read (R75, R77). -/
def maskUnits (n : Nat) (l : List (WUnit × Plan MemGo)) : List (WUnit × Plan MemGo) :=
  l.map fun p => match p.2 with
    | .go a => (p.1, .go ((span 0 n).foldl (fun (m : MemGo) i =>
        let w := winByte n l p.1 a i
        if w.2 && bit m.src2 i then { m with src := setBits m.src (8 * i) 8 w.1, src2 := m.src2 - 2 ^ i } else m) a))
    | x => (p.1, x)

/-- Lanes that name one line zero it once (R78): the highest home lane does. -/
def maskLines (l : List (WUnit × Plan MemGo)) : List (WUnit × Plan MemGo) :=
  l.map fun p => match p.2 with
    | .go a => (p.1, .go (if l.any fun q => decide (p.1.l < q.1.l) && (match q.2 with
        | .go b => overlapK a.keys b.keys 128 128
        | _ => false) then { a with src2 := 0 } else a))
    | x => (p.1, x)

/-- The checks of R71 or R90 with their qualifiers: `.fe`, `.fec` and `.fset` need granules (R76). -/
def feqCheck (feq : Bool) (ptr : Nat) (c : Chk) : Chk :=
  match c with
  | .ok t => if feq && !t.granular then .fault .ac ptr else .ok t
  | .staged => if feq then .fault .ac ptr else .staged
  | .absent t => .absent t
  | .wait => .wait
  | .fault f d => .fault f d

/-- A planned unit from its check: a fault is raised at the instruction. -/
def Chk.plan (c : Chk) (a : MemGo) : Plan MemGo :=
  match c with
  | .fault f d => .fault f d
  | .wait => .stall
  | c => .go { a with chk := c }

/-- Free side-log entries of a core (R73). -/
def LStat.isSide : LStat → Bool
  | .side _ => true
  | _ => false
def State.sideUsed (s : State) (core : Nat) : Nat :=
  (s.ops.filter fun o => o.core == core).foldl (fun m o => m + (o.lanes.filter fun x => x.st.isSide).length) 0

/-- A request to the fault service. -/
def State.request (s : State) (c p : Nat) : State :=
  let va := p % 2 ^ 56 / 65536 * 65536
  let l := if s.mem.preq.contains (c, va) then s.mem.preq else s.mem.preq ++ [(c, va)]
  { s with mem := { s.mem with preq := l } }

/-- The fault service has declared a pointer's page invalid: an access of the device's own that waits for it fails. -/
def State.barred (s : State) (c p : Nat) : Bool := s.mem.inval.contains (c, p % 2 ^ 56 / 65536 * 65536)

/-- Earlier operations of the list. -/
def State.before (s : State) (id : Nat) : List Op := s.ops.takeWhile fun o => o.id != id

/-! ### Reading -/

/-- The staged entries a block's loads see (R75, R298), oldest first. -/
def State.seen (s : State) (bk : Nat) : List Stg := s.mem.stages.filter fun x => x.bk == bk && x.red.isNone

/-- Overlay one store on the bytes of a load; each byte goes with its poison, which only a store of the whole poisoned unit clears (R63). -/
def overlay (ks ks' : List (Nat × Nat)) (n' data mask : Nat) (whole : Bool) (bs : List (Nat × Bool)) : List (Nat × Bool) :=
  bs.mapIdx fun i b => match byteIn ks ks' i n' with
    | some j => if bit mask j then (bits data (8 * j) 8, b.2 && !whole) else b
    | none => b

/-- A store that writes all of a poisoned unit: a line of memory, or the words of a window. -/
def wholeUnit (win : Bool) (n mask : Nat) : Bool := if win then decide (4 ≤ n) else n == 128 && mask == fullMask 128

/-- The renamed tiles of a task (R295), and which bytes of an access lie in one. -/
def State.renames (s : State) (bk : Nat) : List (Nat × Nat × Nat) :=
  match s.block? bk with
  | some b => match b.task with
    | some t => t.ren
    | none => []
  | none => []
def State.renMask (s : State) (bk p n : Nat) : Nat :=
  let rs := s.renames bk
  if rs.isEmpty then 0
  else (span 0 n).foldl (fun m i => if (rs.any fun r => decide (r.1 ≤ p + i) && decide (p + i < r.1 + r.2.1)) then m + 2 ^ i else m) 0

/-- Where the rename buffer holds the byte of a pointer (R295). -/
def TaskRec.bufAddr (t : TaskRec) (p : Nat) : Nat :=
  match t.ren.find? fun r => decide (r.1 ≤ p) && decide (p < r.1 + r.2.1) with
  | some r => r.2.2 + (p - r.1)
  | none => 0

def TaskRec.put (p n mask : Nat) (t : TaskRec) : TaskRec :=
  (span 0 n).foldl (fun (t : TaskRec) i => if bit mask i then { t with bufset := sset false t.bufset (p + i) true } else t) t

/-- Masked bytes of a write go to the task's rename buffer, in the pool. -/
def State.bufPut (s : State) (bk p n data mask : Nat) : State :=
  match s.block? bk with
  | some b => match b.task with
    | some t =>
      let mem := (span 0 n).foldl (fun (m : MemSt) i => if bit mask i then m.physPut s.noCache (t.bufAddr (p + i)) [bits data (8 * i) 8] else m) s.mem
      ({ s with mem := mem } : State).updBlock bk fun b => { b with task := b.task.map (TaskRec.put p n mask) }
    | none => s
  | none => s

/-- The fibre staged the write after its operation `id` was issued. -/
def Stg.after (g : Stg) (fk id : Nat) : Bool := g.fk == fk && !g.inh && decide (id < g.sq)

/-- What a task's own earlier writes lay over the bytes of a read that fibre `fk` makes by operation `id`: the rename buffer (R295), each byte with
the poison of the buffer's line (R63), and its staging (R75, R298). -/
def State.overTask (s : State) (bk fk id p : Nat) (ks : List (Nat × Nat)) (bs : List (Nat × Bool)) : List (Nat × Bool) :=
  let bs := match s.block? bk with
    | some b => match b.task with
      | some t => if t.ren.isEmpty then bs
        else bs.mapIdx fun i v => if sget false t.bufset (p + i) then (s.mem.homeNum (t.bufAddr (p + i)) 1, s.mem.homePois (t.bufAddr (p + i) / 128)) else v
      | none => bs
    | none => bs
  ((s.seen bk).filter fun g => !(g.after fk id)).foldl
    (fun bs g => overlay ks [(1, g.ptr % 2 ^ 56)] g.n g.data g.mask (wholeUnit false g.n g.mask) bs) bs

/-- The bounds entry of a pointer says DS. -/
def State.dsOf (s : State) (c p : Nat) : Bool :=
  match s.bounds c (p / 2 ^ 56) with
  | some e => e.ds
  | none => false

/-- The snapshot that a task of a deterministic region reads (R298). -/
def State.snapOf (s : State) (bk : Nat) : Option MemSt :=
  match s.launchOf bk with
  | some l => if l.rcb.det && l.snap.2 then some l.snap.1 else none
  | none => none

/-- The bytes that a block sees at a pointer, which staged writes lay over memory or over its snapshot (R75, R298); none where they cannot be read. -/
def State.viewAt (s : State) (fk p n : Nat) : Option (List Nat) :=
  let bk := fkBk fk
  match s.check (s.ctxOf bk) p n 1 .any false with
  | .ok t =>
    let m := (s.snapOf bk).getD s.mem
    let r := ({ s with mem := m } : State).readTgt t n
    some ((s.overTask bk fk s.seq p (t.key.toList ++ [(1, p % 2 ^ 56)]) (r.1.map fun b => (b, false))).map (·.1))
  | _ => none

/-- The line as its home holds it now, in a core's copy. -/
def MemSt.refresh (m : MemSt) (x : Copy) : Copy :=
  { x with bytes := (m.homeBytes (x.line * 128) 128).map (BitVec.ofNat 8), poison := m.homePois x.line }

/-- A read at home refreshes the core's copy of the line, if it holds one (R235). -/
def State.refreshCopy (s : State) (core : Nat) : Tgt → State
  | .mem pa mt => if mt = 2 then s else
      { s with mem := { s.mem with copies := s.mem.copies.map fun x =>
          if x.core = core ∧ x.line = pa / 128 then s.mem.refresh x else x } }
  | _ => s

/-- Read for a load, before the fibre's own stores are laid over: from the task's snapshot, from the core's copy of the line
(R235), or at the home, which grants a lease; a read at home fills the line there, but for `.cnt` (R22, R60), and refreshes the core's copy. -/
def State.readLoad (s : State) (o : Op) (t : Tgt) : List Nat × Bool × State :=
  let c := s.ctxOf o.bk
  match s.snapOf o.bk with
  | some m =>
    let s' := (({ s with mem := m } : State).touch c t).sense (some c) t
    let r := s'.readTgt t o.n
    (r.1, r.2.1, { s with free := r.2.2.free, host := r.2.2.host })
  | none =>
    match t with
    | .mem pa mt =>
      let ln := pa / 128
      let cached := mt == 0 && decide (s.dcChunks o.core ≠ 0)
      let home := o.pol == 3 || o.fe || !cached
      match (if home || s.ch.drop then none else s.copyOf o.core ln) with
      | some x => ((span (pa % 128) o.n).map fun i => (x.bytes.getD i 0).toNat, x.poison, s)
      | none =>
        let s := s.sense (some c) t
        let r := s.readTgt t o.n
        let s := (if o.pol = 4 then s else r.2.2).refreshCopy o.core t
        if home then (r.1, r.2.1, s)
        else
          let exp := s.tickHome pa + (s.scopeFor o.bk o.core o.scope).lease
          let x : Copy := { core := o.core, line := ln, exp := exp, bytes := [], poison := false }
          let l := (sget Lease.none s.mem.leases ln).grant (s.tickHome pa) o.core exp
          let cs := (s.mem.copies.filter fun y => !(y.core == o.core && y.line == ln)) ++ [s.mem.refresh x]
          (r.1, r.2.1, { s with mem := { s.mem with leases := sset Lease.none s.mem.leases ln l, copies := cs } })
    | t =>
      let r := s.readTgt t o.n
      (r.1, r.2.1, r.2.2)

/-- The bytes of a read with their poison: each word of a window has its own mark, a line of memory has one (R63). -/
def State.withMarks (s : State) (t : Tgt) (bs : List Nat) (pz : Bool) : List (Nat × Bool) :=
  match t with
  | .win bk g off => bs.mapIdx fun i b => (b, s.vpois bk g ((off + i) / 256) ((off + i) % 256 / 4))
  | _ => bs.map fun b => (b, pz)

/-- The fibre's own stores that are still to be performed, from the oldest, each with the bytes that a later staged store of the fibre hides
left out of its mask (R75). -/
def State.ownStores (s : State) (o : Op) (fk : Nat) : List (Lane × Nat × Nat) :=
  (s.before o.id).flatMap fun q => if !q.kind.isStore then [] else
    q.lanes.filterMap fun y =>
      if y.fk = fk ∧ !y.st.isDone then
        let y := { y with ptr := s.globalPtr q.kind.tureen y.tgt y.ptr }
        let hid := fun (i : Nat) => (s.seen o.bk).any fun g => g.after fk q.id && !(g.after fk o.id) &&
          (match byteIn y.keys [(1, g.ptr % 2 ^ 56)] i g.n with
          | some j => bit g.mask j
          | none => false)
        some (y, q.n, (span 0 q.n).foldl (fun m i => if hid i then m - 2 ^ i else m) (fullMask q.n))
      else none

/-- The value a load lane returns: its own block's staged stores and its own fibre's earlier stores are laid over (R75). -/
def State.loadValue (s : State) (o : Op) (x : Lane) : Nat × Bool × State :=
  let p := s.globalPtr o.kind.tureen x.tgt x.ptr
  let r := s.readLoad o x.tgt
  let ks := { x with ptr := p }.keys
  let win := x.tgt.isWin
  let bs := s.withMarks x.tgt r.1 r.2.1
  let bs := if win then bs else s.overTask o.bk x.fk o.id p ks bs
  let bs := (s.ownStores o x.fk).foldl (fun bs y => overlay ks y.1.keys y.2.1 y.1.src y.2.2 (wholeUnit win y.2.1 y.2.2) bs) bs
  (ofNats (bs.map (·.1)), bs.any (·.2), r.2.2)

/-- A loaded value as a register holds it (R77): sign-extended for i types, zero-extended otherwise. -/
def loadExt (ty : Ty) (v : Nat) : Nat :=
  if ty.wide then v
  else if ty.signed then unsgn 32 (sgn (8 * ty.size) v)
  else v

/-- Mark the bundle of a fibre as having changed something (R265). -/
def State.noteChange (s : State) (fk : Nat) : State :=
  { s with bundles := s.bundles.map fun b => if b.fibs.contains fk then { b with changed := true } else b }

/-- Write a loaded or returned value to the destination of an operation for a lane. -/
def State.putBackD (s : State) (o : Op) (x : Lane) (wide : Bool) (v : Nat) (pz : Bool) : State :=
  let w : Who := { pc := o.pc, fk := x.fk }
  match o.d with
  | .v n =>
    (span 0 64).foldl (fun s l =>
      if bit x.dl l then
        let s := s.setVP w o.bk (fkG x.fk) n l (v % 2 ^ 32) pz
        if wide then s.setVP w o.bk (fkG x.fk) (n + 1) l (v / 2 ^ 32) pz else s
      else s) s
  | .s n => s.setUP w o.bk o.g n (if wide then v else extendU o.ty v) pz
  | .sp _ => s

/-- A result that arrives after its issue: a register that takes another value is a change of its bundle (R265). -/
def State.writeBackD (s : State) (o : Op) (x : Lane) (wide : Bool) (v : Nat) (pz : Bool) : State :=
  let t := s.putBackD o x wide v pz
  if t.rs.vregs = s.rs.vregs ∧ t.rs.uregs = s.rs.uregs then t else t.noteChange x.fk

/-! ### Completion of lanes -/

/-- Lane `k` of an operation is done; the fibres parked on it go on behind the instruction. -/
def State.doneLane (s : State) (id k : Nat) (f : Lane → Lane) : State :=
  match s.op? id with
  | none => s
  | some o => match o.lanes[k]? with
    | none => s
    | some x =>
      let s := s.updOp id fun o => (o.updLane k fun x => { f x with st := .done }).settleFin
      (span 0 64).foldl (fun s l =>
        let fk := fkOf (fkBk x.fk) (fkG x.fk) l
        if bit x.dl l then match s.fib fk with
          | some b => if b.stat = .lane ∧ b.pc = o.pc then s.advance fk else s
          | none => s
        else s) s

/-- An access under way is lost: AC is reported after issue (R97). -/
def State.loseLane (s : State) (o : Op) (k : Nat) (x : Lane) : State :=
  (s.reportFault o.bk { code := FClass.ac.code, pc := o.pc, det := x.ptr, grp := fkG x.fk, lane := fkL x.fk } o.frame).doneLane o.id k fun x => x

/-- Note that a block has produced an effect a replay cannot undo (R322): a store, a post, or a full/empty bit, which the recovery cache does not
hold (R113). -/
def State.effect (s : State) (bk : Nat) : State := s.updBlock bk fun b => if b.effects then b else { b with effects := true }

/-- A load lane returns (R77): one step with the granule's bit for `.fec`. -/
def State.deliverLoad (s : State) (id k : Nat) : State :=
  match s.op? id with
  | none => s
  | some o => match o.lanes[k]? with
    | none => s
    | some x => if s.linkDown x.tgt then s.loseLane o k x else
      let s := s.touch (s.ctxOf o.bk) x.tgt
      let r := s.loadValue o x
      let s := r.2.2
      let s := if o.fec then match x.tgt with
          | .region j off => ({ s with mem := s.mem.setTfull j off false } : State).effect o.bk
          | .win bk g off => (s.setFulls bk g off 1 false).effect o.bk
          | _ => s
        else s
      (s.writeBackD o x o.ty.wide (loadExt o.ty r.1) r.2.1).doneLane id k fun x => x

/-! ### Full/empty granules (R77, R113, R246) -/

def State.fullAt (s : State) (t : Tgt) : Bool :=
  match t with
  | .region k off => s.mem.tfull k off
  | .win bk g off => s.granFull bk g off
  | _ => true

def State.setFullAt (s : State) (t : Tgt) (b : Bool) : State :=
  match t with
  | .region k off => { s with mem := s.mem.setTfull k off b }
  | .win bk g off => s.setFulls bk g off 1 b
  | _ => s

/-- The waiters of a granule in arrival order: operation, lane, and whether the load clears. -/
def State.waiters (s : State) (t : Tgt) : List (Nat × Nat × Bool) :=
  let l := s.ops.flatMap fun o => (o.lanes.mapIdx fun k x => match x.st with
      | .granule sq => if x.tgt.down 16 = t.down 16 then [(sq, o.id, k, o.fec)] else []
      | _ => []).flatten
  (sortBy (·.1) l).map (·.2)

/-- One fill serves the waiters: every `.fe` before the earliest `.fec`, and that one. -/
def serveList (t : Tgt) : List (Nat × Nat × Bool) → State → State
  | [], s => s
  | (id, k, fec) :: ws, s => if s.fullAt t then
      (if fec then s.deliverLoad id k else serveList t ws (s.deliverLoad id k))
    else s

def State.serve (s : State) (t : Tgt) : State := serveList t (s.waiters t) s

/-- Set the granules of [t, t + n) full and serve their waiters. -/
def State.fillAt (s : State) (t : Tgt) (n : Nat) : State :=
  if t.granular then (span 0 ((n + 15) / 16)).foldl (fun s j =>
    ((s.setFullAt ((t.down 16).add (16 * j)) true).serve ((t.down 16).add (16 * j)))) s
  else s

/-! ### Order within a fibre (R75, R239, R240) -/

/-- The tick of an operation's core. -/
def State.tickOf (s : State) (o : Op) : Nat := s.tickOn (quadOf o.core)

/-- Everything `.rel` waits for: the fibre's earlier ST-counted accesses and atomics are performed and its core's tick has passed their write
completion times. -/
def State.relReady (s : State) (id fk : Nat) : Bool :=
  (s.before id).all fun o => !(o.cls == .st || o.kind == .atom) ||
    o.lanes.all fun x => x.fk != fk || (x.st.isDone && decide (x.wct = 0 ∨ x.wct < s.tickOf o))

/-- Bytes that a lane accesses: the payload of a mailbox record (R366), else the operation's size. -/
def Op.bytes (o : Op) (x : Lane) : Nat :=
  match o.kind with
  | .msend | .mrecv => bits x.src 65 15
  | _ => o.n

/-- Two lanes act for a common fibre: a lane of a `.u` access acts for every fibre that it was issued for. -/
def Lane.meets (x y : Lane) : Bool := groupKey x.fk == groupKey y.fk && (x.fk == y.fk || (x.dl &&& y.dl) != 0)

/-- Lanes of a store's own instruction that write bytes this lane gave up to them are performed first (R77). -/
def State.winnersDone (s : State) (o : Op) (x : Lane) : Bool :=
  !o.kind.isStore || x.src2 == fullMask o.n || s.ops.all fun q => q.ins != o.ins ||
    q.lanes.all fun y => decide (fkL y.fk ≤ fkL x.fk) || y.st.isDone || !(overlapK x.keys y.keys o.n q.n)

/-- Earlier accesses of the lane's fibres to a common byte hold it back; a load reads the earlier stores of the fibre that supplies its address
instead. -/
def State.orderReady (s : State) (o : Op) (x : Lane) : Bool :=
  s.winnersDone o x && (s.before o.id).all fun p => p.lanes.all fun y => (o.kind.isLoad && p.kind.isStore && y.fk == x.fk) ||
    !(x.meets y) || y.st.isDone || !(overlapK x.keys y.keys (o.bytes x) (p.bytes y))

/-- The units that hold a target are ready: its stack and home slice, or the slice of its region line (R379, R380). -/
def State.tgtUp (s : State) : Tgt → Bool
  | .mem pa mt => s.memUp pa mt
  | .region k off => match sget none s.mem.regions k with
    | some r => s.slicesUp ((r.sfirst + off / 128 % max r.scount 1) / 48)
    | none => true
  | _ => true

/-- A lane may be performed now. `iinv` waits for every earlier ST operation of its group (R278). -/
def State.canPerform (s : State) (o : Op) (x : Lane) : Bool :=
  x.st == .pending && s.tgtUp x.tgt && s.orderReady o x && (!o.rel || s.relReady o.id x.fk) &&
    (o.kind != .iinv || (s.before o.id).all fun p => !(p.bk == o.bk && p.g == o.g && p.cls == .st) || p.lanes.all fun y => y.st.isDone)

/-! ### Staging and performing -/

/-- Add a staged write of a block. -/
def State.stage (s : State) (x : Stg) : State := { s with mem := { s.mem with stages := s.mem.stages ++ [x] } }

/-- Runs of consecutive masked bytes: offset and bytes. -/
def runsOf (mask : Nat) : Nat → List Nat → List (Nat × List Nat)
  | _, [] => []
  | i, b :: bs =>
    if bit mask i then match runsOf mask (i + 1) bs with
      | (j, l) :: rs => if j = i + 1 then (i, b :: l) :: rs else (i, [b]) :: (j, l) :: rs
      | [] => [(i, [b])]
    else runsOf mask (i + 1) bs

/-- Write the masked bytes of `data` (`n` bytes) at a target. A whole zero line is `stz`. -/
def State.writeMasked (s : State) (w : Who) (core : Nat) (nt : Bool) (t : Tgt) (n data mask : Nat) : State :=
  if n = 128 ∧ data = 0 ∧ mask = 2 ^ 128 - 1 then s.zeroTgt core nt t
  else (runsOf mask 0 (natBytes n data)).foldl (fun s r => match t with
    | .win bk g off => s.wput w bk g (off + r.1) r.2
    | t => s.writeTgt core nt (t.add r.1) r.2) s

/-- A block's write of the masked bytes of `data` at a global target: bytes of a renamed tile go to the buffer (R295). -/
def State.gwrite (s : State) (w : Who) (bk core : Nat) (nt : Bool) (t : Tgt) (p n data mask : Nat) : State :=
  let m := if t.isWin then 0 else s.renMask bk p n &&& mask
  if m = 0 then s.writeMasked w core nt t n data mask
  else (s.bufPut bk p n data m).writeMasked w core nt t n data (mask - m)

/-- Does a store through a pointer at a byte count as inside the ranges of the block's conversation (R328)? -/
def State.logConv (s : State) (bk p n mask : Nat) (t : Tgt) : Option State :=
  match s.block? bk with
  | none => some s
  | some b =>
    if b.frames.all fun f => f.conv.isNone then some s
    else
      let s' := (span 0 ((n + 15) / 16)).foldl (fun (s : State) j =>
        let tj := (t.down 16).add (16 * j)
        if s.inRange bk (p / 16 * 16 + 16 * j) && decide (mask / 2 ^ (16 * j) % 2 ^ 16 ≠ 0 ∨ n < 16) then
          let old := (s.readTgt tj 16).1.map (BitVec.ofNat 8)
          s.updBlock bk fun b => { b with frames := b.frames.map fun f =>
            if f.conv.isSome && !(f.rlog.any fun r => r.1 == tj) then { f with rlog := f.rlog ++ [(tj, old)] } else f }
        else s) s
      let rres := (s.rcbOf bk).rres
      if s'.logged rres ≤ s.logged rres ∨ s'.logRoom bk 0 then some s' else none

/-- The bytes of a staged write that a later performed store of its fibre to the same va leaves standing (R75). -/
def Stg.trim (fk id p n mask : Nat) (g : Stg) : Stg :=
  if g.fk ≠ fk ∨ g.inh ∨ g.red.isSome ∨ id < g.sq then g
  else { g with mask := (span 0 g.n).foldl (fun m i => match byteIn [(1, g.ptr % 2 ^ 56)] [(1, p % 2 ^ 56)] i n with
      | some j => if bit m i && bit mask j then m - 2 ^ i else m
      | none => m) g.mask }

/-- Put an entry before the first that `later` says follows it. -/
def putBefore (x : Stg) (later : Stg → Bool) (l : List Stg) : List Stg :=
  l.takeWhile (fun g => !(later g)) ++ x :: l.dropWhile fun g => !(later g)

/-- A store that a task performs at once: its own earlier staged bytes give way, and in a deterministic region the task sees it over its
snapshot, under what its fibre has staged since the store was issued (R75, R298). -/
def State.ownView (s : State) (o : Op) (x : Lane) (p n data mask : Nat) : State :=
  let l := (s.mem.stages.map fun g => if g.bk = o.bk then g.trim x.fk o.id p n mask else g).filter fun g => g.mask != 0 || g.red.isSome
  let l := if (s.snapOf o.bk).isSome then
      putBefore { bk := o.bk, g := o.g, depth := 0, pc := o.pc, fk := x.fk, ptr := p, n := n, data := data, mask := mask, red := none, scope := o.scope,
                  pol := o.pol, inh := true, orig := [], sq := s.seq, old := false } (fun g => g.bk == o.bk && g.after x.fk o.id) l
    else l
  { s with mem := { s.mem with stages := l } }

/-- The fibres registered at timelines whose thresholds the values at home now meet go on, as the home does after every change (R258, R307); the
read refreshes their core's copy (R235). -/
def State.wake (s : State) : State :=
  s.rs.fibres.foldl (fun s p => match p.2 with
    | some f => match f.stat with
      | .timeline t thr _ _ =>
        if thr ≤ ofNats (s.readTgt t 8).1 then
          match s.block? (fkBk p.1) with
          | some b => if b.st = .saved then s.setStat p.1 .ready
              else (s.refreshCopy (s.group (fkBk p.1) (fkG p.1)).core t).advance p.1
          | none => s
        else s
      | _ => s
    | none => s) s

/-- Perform a plain store lane (R77, R78, R115, R237): the masked bytes, the granules of `.fset`, and the write completion
times. A lane that gave up all its bytes only completes; one whose link is down is lost (R375). -/
def State.performStore (s : State) (o : Op) (k : Nat) (x : Lane) : State :=
  let w : Who := { pc := o.pc, fk := x.fk }
  let p := s.globalPtr o.kind.tureen x.tgt x.ptr
  if x.src2 = 0 then s.doneLane o.id k fun x => x
  else if s.linkDown x.tgt then s.loseLane o k x
  else
    let c := s.ctxOf o.bk
    let s := s.touch c x.tgt
    match (if x.tgt.isWin then some s else s.logConv o.bk p o.n x.src2 x.tgt) with
    | none => (s.noRoom o.bk w).doneLane o.id k fun x => x
    | some s =>
      let s := if o.n = 128 then s else s.sense (some c) x.tgt
      let old := (s.readTgt x.tgt o.n).1
      let t := s.gwrite w o.bk o.core (o.pol == 4) x.tgt p o.n x.src x.src2
      let t := if x.tgt.isWin then t else (t.effect o.bk).ownView o x p o.n x.src x.src2
      let t := if (t.readTgt x.tgt o.n).1 = old then t else t.noteChange x.fk
      let wc := t.wcts o.core (t.scopeFor o.bk o.core o.scope) (o.scope == 0) x.tgt
      let wc := if x.tgt.isWin then (0, 0) else wc
      let t := ((t.wctDrawn x.tgt).doneLane o.id k fun x => { x with wct := wc.1, wct4 := wc.2 }).wake
      if o.fset then (t.effect o.bk).fillAt x.tgt o.n else t

end Sys2Proof.Machine
end

