-- ==== Sys2Proof/Machine/Mem.lean ====
section
/-!
DEFINITION. Issue of the loads and stores of every space: `ld`, `st`, `stz`, `prefetch`, `cwb` (R76 to R80), `ld.t`, `st.t`
(R89, R90), `ldw`, `stw` (R114 to R116), `iinv` and `ifence` (R278, R279).
-/
namespace Sys2Proof.Machine

/-- Plan one unit of a memory instruction: operands, a free counter, an acquiring load before it, the scope entry, the address and
its check. `val` gives the source data from the values of `srcs`. -/
def planMem (s : State) (u : WUnit) (i : MemI) (base : Opnd) (ofs sc n : Nat) (wide scp : Bool) (d : Option Dest)
    (srcs : List Src) (val : List Nat → Nat × Nat) (check : Nat → Chk) : Plan MemGo :=
  let all := srcs ++ addrSrcs wide base sc
  match planOperands s u d all (all.map fun _ => true) with
  | .stall => .stall
  | .fault c det => .fault c det
  | .go (rd, rs) =>
    if s.cntFull u i.cls || u.mem.any s.acqWait then .stall
    else if scp && s.badScope u i.scope then .fault .ac i.scope
    else
      let xs := readSrcs s u all rs
      let p := addrOf wide ofs sc n (xs.drop srcs.length)
      let v := val (xs.take srcs.length)
      (check p).plan { rd := rd, src := v.1, src2 := v.2, ptr := p, chk := .staged }

/-- A lane at its issue. -/
def mkLane (u : WUnit) (a : MemGo) (t : Tgt) (st : LStat) : Lane :=
  { fk := u.rep, ptr := a.ptr, tgt := t, st := st, src := a.src, src2 := a.src2, dl := maskOfUnit u, val := 0, wct := 0, wct4 := 0 }

/-- Every member of a unit parks. -/
def parkUnit (s : State) (u : WUnit) (st : FStat) : State := u.mem.foldl (fun s fk => s.setStat fk st) s

/-- Issue a load lane: it parks on a page that is not present (R72) and at an empty granule (R77). -/
def applyLoad (i : MemI) (start : Nat) (s : State) (u : WUnit) (a : MemGo) : State :=
  let r := s.opFor i start u.bk u.g
  let s := r.2
  match a.chk with
  | .absent t =>
    let s := s.addLane r.1 (mkLane u a t .page)
    (parkUnit s u (.page a.ptr)).request (s.ctxOf u.bk) (s.globalPtr i.kind.tureen t a.ptr)
  | .ok t =>
    let s := (s.touch (s.ctxOf u.bk) t).addLane r.1 (mkLane u a t .pending)
    if i.kind.isLoad && bit i.qf 2 then parkUnit s u .lane else advanceUnit s u
  | _ => advanceUnit s u

/-- The id path of a block (R293). -/
def State.pathOf (s : State) (bk : Nat) : List Nat :=
  match s.block? bk with
  | some b => b.path
  | none => []

/-- Stage one access of a fibre (R71, R234); a lane that gave up all its bytes stages nothing. Bytes that the task then sees otherwise, or a reduction's
contribution, are a change of its bundle (R265). -/
def State.stageAt (s : State) (pc fk : Nat) (p n data mask scope pol : Nat) (red : Option (Nat × Ty)) : State :=
  let bk := fkBk fk
  let old := s.viewAt fk p n
  let new := natBytes n data
  let same := red.isNone && (match old with
    | some l => (span 0 n).all fun i => !(bit mask i) || l.getD i 0 == new.getD i 0
    | none => false)
  let x : Stg := { bk := bk, g := fkG fk, depth := s.depth bk, pc := pc, fk := fk, ptr := p, n := n, data := data, mask := mask,
                   red := red, scope := scope, pol := pol, inh := false, orig := s.pathOf bk, sq := s.seq,
                   old := false }
  if mask = 0 then s else if same then s.stage x else (s.stage x).noteChange fk

/-- Issue a store lane in one of the three states of R234: to be performed, staged, or side-logged; without a free side-log entry
the fibre parks (R73). A staged lane is done when it is in the stage buffer. -/
def applyStore (i : MemI) (start : Nat) (red : Option (Nat × Ty)) (s : State) (u : WUnit) (a : MemGo) : State :=
  let r := s.opFor i start u.bk u.g
  let s := r.2
  match a.chk with
  | .absent t =>
    let c := s.ctxOf u.bk
    if s.sideUsed (s.group u.bk u.g).core < Config.sideLogEntries then
      let s' := { s with seq := s.seq + 1 }
      advanceUnit ((s'.addLane r.1 (mkLane u a t (.side s.seq))).request c (s.globalPtr i.kind.tureen t a.ptr)) u
    else parkUnit (s.addLane r.1 (mkLane u a t .sideFull)) u .sideFull
  | .staged =>
    let r1 := match i.kind with
      | .stt => match s.regionT (s.ctxOf u.bk) a.ptr with
        | some (k, e) => (e.gbase + (a.ptr - e.tbase), s.touch (s.ctxOf u.bk) (.region k (a.ptr - e.tbase)))
        | none => (a.ptr, s)
      | _ => (a.ptr, s)
    let p := r1.1
    let s := r1.2.stageAt s.ipc u.rep p i.n a.src a.src2 i.scope i.pol red
    advanceUnit ((s.addLane r.1 (mkLane u a .none .done)).updOp r.1 Op.settleFin) u
  | .ok t => advanceUnit ((s.touch (s.ctxOf u.bk) t).addLane r.1 (mkLane u a t .pending)) u
  | _ => advanceUnit s u

/-- All operations whose lanes were all done at issue are complete. -/
def State.settleAll (s : State) : State := { s with ops := s.ops.map Op.settleFin }.sweep

/-- A RED range of the region that holds a pointer (R284, R300): its OP code. -/
def State.redRange (s : State) (bk p : Nat) : Option Nat :=
  ((s.rcbOf bk).red.find? fun r => p / 2 ^ 56 == r.1 / 2 ^ 56 && decide (r.1 % 2 ^ 56 ≤ p % 2 ^ 56) &&
    decide (p % 2 ^ 56 < r.1 % 2 ^ 56 + r.2.1)).map fun r => r.2.2

/-- A staged write into a RED range raises AC unless it is a `red` of the range's form (R300). -/
def State.redCheck (s : State) (bk p n : Nat) (form : Option Nat) (c : Chk) (det : Nat) : Chk :=
  match c with
  | .staged =>
    if (span 0 n).any fun i => match s.redRange bk (p + i) with
      | some op => form != some op
      | none => false
    then .fault .ac det else .staged
  | c => c

/-! ### Loads and stores -/

def memI (kind : OpKind) (cls : Cnt) (f : Mem) : MemI :=
  { kind := kind, cls := cls, d := f.d, ty := f.ty, n := f.ty.size, pol := f.pol, qf := f.qf, scope := f.scope, aux := 0, uni := f.g.u }

/-- A load of the space that `check` stands for. -/
def runLoad (s : State) (kind : OpKind) (f : Mem) (wide scp : Bool) (check : WUnit → Nat → Chk) : State :=
  let i := memI kind .ld f
  runUnits s f.g
    (fun s u => planMem s u i f.base f.ofs f.sc i.n wide scp (some (.reg f.d false f.ty.wide f.ty)) []
      (fun _ => (0, 0)) (check u))
    (applyLoad i s.seq)

/-- A store of the space that `check` stands for. -/
def runStore (s : State) (kind : OpKind) (f : Mem) (wide scp : Bool) (check : WUnit → Nat → Chk) : State :=
  let i := memI kind .st f
  (runPrep s f.g
    (fun s u => planMem s u i f.base f.ofs f.sc i.n wide scp none [⟨f.d, false, f.ty.wide⟩]
      (fun xs => (xs.getD 0 0 % 2 ^ (8 * i.n), fullMask i.n)) (check u))
    (maskUnits i.n)
    (applyStore i s.seq none)).settleAll

/-- The check of `ld`'s qualifiers: `.fe` and `.fec` need granules (R76), and a staged region gives none (R88). -/
def State.feqLoad (s : State) (bk : Nat) (feq : Bool) (p : Nat) (c : Chk) : Chk :=
  let staged := fun (t : Tgt) => match t with
    | .region k _ => match sget none s.mem.regions k with
      | some r => s.staging bk && s.dsOf (s.ctxOf bk) r.gbase
      | none => false
    | _ => false
  match feqCheck feq p c with
  | .ok t => if feq && staged t then .fault .ac p else .ok t
  | .absent t => if feq && staged t then .fault .ac p else .absent t
  | c => c

/-- ld (R77). -/
def execLd (f : Mem) (s : State) : Host.Outcome State Fault Refusal :=
  .next (runLoad s .ld f true true fun u p =>
    s.feqLoad u.bk (bit f.qf 2) p (s.check (s.ctxOf u.bk) p f.ty.size f.ty.size .load false))

/-- st (R77). -/
def execSt (f : Mem) (s : State) : Host.Outcome State Fault Refusal :=
  .next (runStore s .st f true true fun u p =>
    s.redCheck u.bk p f.ty.size none (feqCheck (bit f.qf 3) p
      (s.check (s.ctxOf u.bk) p f.ty.size f.ty.size .store (s.stagesAt u.bk p))) p)

/-- ld.t (R90). -/
def execLdt (f : Mem) (s : State) : Host.Outcome State Fault Refusal :=
  .next (runLoad s .ldt f false true fun u p =>
    s.checkT (s.ctxOf u.bk) p f.ty.size .load (s.staging u.bk) (bit f.qf 2))

/-- The global pointer that a Tureen address mirrors. -/
def State.mirror (s : State) (c t : Nat) : Nat :=
  match s.regionT c t with
  | some (_, e) => e.gbase + (t - e.tbase)
  | none => t

/-- st.t (R90). -/
def execStt (f : Mem) (s : State) : Host.Outcome State Fault Refusal :=
  .next (runStore s .stt f false true fun u p =>
    let c := s.ctxOf u.bk
    let q := s.mirror c p
    s.redCheck u.bk q f.ty.size none (s.checkT c p f.ty.size .store (s.stagesAt u.bk q) (bit f.qf 3)) p)

/-- The check of a window access (R112, R115). Bytes of its own group that an outstanding operation of the group still has to write are
scoreboarded, and hold it back (R116, R118). -/
def State.winChk (s : State) (u : WUnit) (n w : Nat) : Chk :=
  match s.winCheck u.bk w n n with
  | some (c, det) => .fault c det
  | none => if winGrp w = u.g ∧ s.owedIn u.bk u.g (winOff w) n then .wait else .ok (.win u.bk (winGrp w) (winOff w))

/-- ldw (R115). -/
def execLdw (f : Mem) (s : State) : Host.Outcome State Fault Refusal :=
  .next (runLoad s .ldw f false false fun u w => s.winChk u f.ty.size w)

/-- stw (R115). -/
def execStw (f : Mem) (s : State) : Host.Outcome State Fault Refusal :=
  .next (runStore s .stw f false false fun u w => s.winChk u f.ty.size w)

/-! ### stz, prefetch, cwb, iinv -/

def memIA (kind : OpKind) (n : Nat) (f : MemA) : MemI :=
  { kind := kind, cls := .st, d := .v 0, ty := .b32, n := n, pol := f.pol, qf := f.qf, scope := f.scope, aux := 0, uni := false }

/-- The bytes of [p, p + n) in granules inside the ranges of the block's conversation (R328). -/
def State.convMask (s : State) (bk p n : Nat) : Nat :=
  (span 0 ((n + 15) / 16)).foldl (fun m j => if s.inRange bk (p + 16 * j) then m ||| (2 ^ 16 - 1) * 2 ^ (16 * j) else m) 0

/-- Whether stores through a pointer are staged by its bounds entry or by the entry of its region's GBASE (R71, R88). -/
def State.dsAt (s : State) (c p : Nat) : Bool :=
  s.dsOf c p || match s.regionG c (p % 2 ^ 56) with
    | some (_, r) => s.dsOf c r.gbase
    | none => false

/-- The check of a `stz` whose line lies partly in the ranges of its block's conversation, with `m` the mask of the bytes inside: the rest is staged, which
`.fset` and a RED range forbid as they do for a line that is staged whole (R88, R300). -/
def State.partCheck (s : State) (bk p m : Nat) (fset : Bool) (c : Chk) : Chk :=
  let rest := fset && m != fullMask 128
  let bad := rest || (span 0 128).any fun i => !(bit m i) && (s.redRange bk (p + i)).isSome
  match c with
  | .ok t => if bad then .fault .ac p else .ok t
  | .absent t => if bad then .fault .ac p else .absent t
  | c => c

/-- stz (R78): lanes that name one line zero it once. In a conversation the granules outside its ranges are staged, those inside are performed
(R328). -/
def execStz (f : MemA) (s : State) : Host.Outcome State Fault Refusal :=
  let i := memIA .stz 128 f
  let part := fun (s : State) (bk p : Nat) => s.staging bk && s.dsAt (s.ctxOf bk) p && decide (s.convMask bk p 128 ≠ 0)
  .next (runPrep s f.g
    (fun s u => planMem s u i f.base f.ofs f.sc 4 true true none [] (fun _ => (0, fullMask 128)) fun p =>
      let c := feqCheck (bit f.qf 3) p (s.check (s.ctxOf u.bk) p 128 128 .store (s.staging u.bk && !(part s u.bk p)))
      if part s u.bk p then s.partCheck u.bk p (s.convMask u.bk p 128) (bit f.qf 3) c else s.redCheck u.bk p 128 none c p)
    maskLines
    (fun st u a =>
      if part s u.bk a.ptr ∧ a.src2 ≠ 0 then
        let m := s.convMask u.bk a.ptr 128
        let st := if m = fullMask 128 then st
          else st.stageAt s.ipc u.rep a.ptr 128 0 (fullMask 128 - m) f.scope f.pol none
        applyStore i s.seq none st u { a with src2 := m }
      else applyStore i s.seq none st u a)).settleAll

/-- prefetch (R79): no architectural effect and no fault. -/
def execPrefetch (f : MemA) (s : State) : Host.Outcome State Fault Refusal :=
  .next (runUnits s f.g (fun _ _ => .go ()) fun s u _ => advanceUnit s u)

/-- Issue a line-maintenance lane: performed at its target, or a no-op that is complete at once. -/
def applyLine (i : MemI) (start : Nat) (acts : Tgt → Bool) (s : State) (u : WUnit) (a : MemGo) : State :=
  let r := s.opFor i start u.bk u.g
  match a.chk with
  | .ok t =>
    if acts t then advanceUnit (r.2.addLane r.1 (mkLane u { a with ptr := a.ptr / 128 * 128 } (t.down 128) .pending)) u
    else advanceUnit (r.2.addLane r.1 (mkLane u a t .done)) u
  | _ => advanceUnit (r.2.addLane r.1 (mkLane u a .none .done)) u

/-- cwb (R80): a no-op on a page that is not present and for the memory types 0b010 to 0b100. -/
def execCwb (f : MemA) (s : State) : Host.Outcome State Fault Refusal :=
  let i := memIA .cwb 128 f
  .next (runUnits s f.g
    (fun s u => planMem s u i f.base f.ofs f.sc 4 true true none [] (fun _ => (0, 0)) fun p =>
      s.checkLine (s.ctxOf u.bk) p .any)
    (applyLine i s.seq fun t => match t with
      | .mem _ mt => mt != 2
      | .region _ _ => true
      | _ => false)).settleAll

/-- iinv (R278): a no-op on a page that is not present and for host and peer memory. -/
def execIinv (f : MemA) (s : State) : Host.Outcome State Fault Refusal :=
  let i := memIA .iinv 128 f
  .next (runUnits s f.g
    (fun s u => planMem s u i f.base f.ofs f.sc 4 true true none [] (fun _ => (0, 0)) fun p =>
      s.checkLine (s.ctxOf u.bk) p .fetch)
    (applyLine i s.seq fun t => match t with
      | .mem _ _ => true
      | _ => false)).settleAll

/-! ### Waiting instructions -/

/-- The number of the next operation when the fibre first came to the fence it stands at. -/
def fenceSeq (s : State) (fk : Nat) : Nat :=
  match s.fib fk with
  | some f => match f.stat with
    | .fence sq => sq
    | _ => s.seq
  | none => s.seq

/-- Run an instruction that holds each guard-holding fibre until a condition on the operations before it holds. -/
def runFence (s : State) (g : Guard) (cond : State → WUnit → Nat → Bool) (after : State → Nat → State) : State :=
  runUnits s g (fun s u => .go (fenceSeq s u.rep, cond s u (fenceSeq s u.rep))) fun st u a =>
    if a.2 then after (st.advance u.rep) u.rep else st.setStat u.rep (.fence a.1)

/-- ifence (R279). -/
def execIfence (g : Guard) (s : State) : Host.Outcome State Fault Refusal :=
  .next (runFence s g
    (fun s u sq => s.ops.all fun o => !(o.bk == u.bk && o.g == u.g && o.kind == .iinv && decide (o.id < sq)) ||
      o.lanes.all fun x => x.st.isDone)
    (fun st fk => st.updFib fk fun f => { f with ahead := [] }))

end Sys2Proof.Machine
end

