-- ==== Sys2Proof/Machine/Atomic.lean ====
section
/-!
DEFINITION. Atomics and reductions (R247 to R250), `fence` and `wait` (R241, R243), reorder rings (R251 to R256) and timelines
(R257, R258): their issue, and what their lanes do at the home slice.
-/
namespace Sys2Proof.Machine

/-! ### The operations of R248 -/

/-- The new value and the flags of one atomic operation. -/
def atomNew (op : Nat) (ty : Ty) (old src src2 : Nat) : Nat × Nat :=
  let m := 2 ^ (8 * ty.size)
  let le := fun (a b : Nat) => decide (valOf ty a ≤ valOf ty b)
  match op with
  | 0 => ((old + src) % m, 0)
  | 1 => (if le src old then src % m else old, 0)
  | 2 => (if le old src then src % m else old, 0)
  | 3 => (old &&& src % m, 0)
  | 4 => (old ||| src % m, 0)
  | 5 => (old ^^^ src % m, 0)
  | 6 => (src % m, 0)
  | 7 => (if old = src % m then src2 % m else old, 0)
  | _ => fAdd fmt32 .near old (src % m)

/-- A target outside the device takes no atomic (R249). -/
def noOut (p : Nat) (c : Chk) : Chk :=
  match c with
  | .ok (.out _ _) => .fault .ac p
  | c => c

def atomI (kind : OpKind) (cls : Cnt) (f : Mem) (n : Nat) : MemI :=
  { kind := kind, cls := cls, d := f.d, ty := f.ty, n := n, pol := f.pol, qf := f.qf, scope := f.scope, aux := f.pol, uni := false }

/-- The register `k` after another in the same file. -/
def opndPlus (o : Opnd) (k : Nat) : Opnd :=
  match o with
  | .v n => .v (n + k)
  | .s n => .s (n + k)
  | .sp x => .sp x

/-- atom (R248, R249): staged accesses raise AC (R250). -/
def execAtom (f : Mem) (s : State) : Host.Outcome State Fault Refusal :=
  let i := atomI .atom .ld f f.ty.size
  let cas := f.pol == 7
  let srcs : List Src := ⟨f.d, false, f.ty.wide || cas⟩ :: if cas && f.ty.wide then [⟨opndPlus f.d 2, false, true⟩] else []
  .next (runUnits s f.g
    (fun s u => planMem s u i f.base f.ofs f.sc i.n true true (some (.reg f.d false f.ty.wide f.ty)) srcs
      (fun xs => if cas && !f.ty.wide then (xs.getD 0 0 % 2 ^ 32, xs.getD 0 0 / 2 ^ 32) else (xs.getD 0 0, xs.getD 1 0))
      (fun p => noOut p (s.check (s.ctxOf u.bk) p i.n i.n .atom (s.staging u.bk))))
    (applyLoad i s.seq))

/-- The OP code of R300 that a `red` form matches; 0 for none. -/
def redForm (op : Nat) (ty : Ty) : Nat :=
  match op, ty with
  | 0, .z32 => 1
  | 0, .z64 => 2
  | 8, .f32 => 3
  | 1, .i32 => 4
  | 2, .i32 => 5
  | _, _ => 0

/-- red (R248 to R250). -/
def execRed (f : Mem) (s : State) : Host.Outcome State Fault Refusal :=
  let i := atomI .red .st f f.ty.size
  .next (runUnits s f.g
    (fun s u => planMem s u i f.base f.ofs f.sc i.n true true none [⟨f.d, false, f.ty.wide⟩]
      (fun xs => (xs.getD 0 0, fullMask i.n))
      (fun p => s.redCheck u.bk p i.n (some (redForm f.pol f.ty))
        (noOut p (s.check (s.ctxOf u.bk) p i.n i.n .store (s.stagesAt u.bk p))) p))
    (applyStore i s.seq (some (f.pol, f.ty)))).settleAll

/-- Pending lanes of an instruction that name a target's line, over all its groups in ascending home lane: they arrive together (R249). -/
def State.lineLanes (s : State) (ins : Nat) (t : Tgt) : List (Op × Nat × Lane) :=
  sortBy (fun p => fkL p.2.2.fk) ((s.ops.filter fun o => o.ins == ins).flatMap fun o =>
    (o.lanes.mapIdx fun k x => (o, k, x)).filter fun p => p.2.2.st == .pending && p.2.2.tgt.down 128 == t.down 128)

/-- The fibre of an operation's first lane. -/
def Op.firstFk (o : Op) : Nat := (o.lanes.map Lane.fk).headD 0

/-- When an operation is complete its accumulated flags go to the GSW (R249). -/
def State.flagsDone (s : State) (id : Nat) : State :=
  match s.op? id with
  | some o =>
    if o.fin then s.orGsw { pc := o.pc, fk := o.firstFk } o.bk o.g (o.lanes.foldl (fun m x => m ||| x.val) 0) else s
  | none => s

/-- Apply one lane of `atom` or `red` at its place; its write completion time is the tick (R237). -/
def State.atomLane (s : State) (o : Op) (k : Nat) (x : Lane) : State :=
  if s.linkDown x.tgt then s.loseLane o k x else
  let s := s.touch (s.ctxOf o.bk) x.tgt
  match s.logConv o.bk x.ptr o.n (fullMask o.n) x.tgt with
  | none => (s.noRoom o.bk { pc := o.pc, fk := x.fk }).doneLane o.id k fun x => x
  | some s =>
    let s := s.sense (some (s.ctxOf o.bk)) x.tgt
    let r := s.readTgt x.tgt o.n
    let old := ofNats ((s.overTask o.bk x.fk o.id x.ptr [] (r.1.map fun b => (b, false))).map (·.1))
    let new := atomNew o.aux o.ty old x.src x.src2
    let s := (s.gwrite { pc := o.pc, fk := x.fk } o.bk o.core false x.tgt x.ptr o.n new.1 (fullMask o.n)).effect o.bk
    let s := (s.refreshCopy o.core x.tgt).ownView o x x.ptr o.n new.1 (fullMask o.n)
    let s := if new.1 = old then s else s.noteChange x.fk
    let t := if o.kind = .atom then s.writeBackD o x o.ty.wide old r.2.1 else s
    (t.doneLane o.id k fun y => { y with val := new.2, wct := t.tickAt x.tgt, wct4 := t.tickAt x.tgt }).wake

/-- The lanes of one instruction that name one line are applied contiguously (R249). -/
def State.performAtomic (s : State) (o : Op) (x : Lane) : State :=
  let ls := s.lineLanes o.ins x.tgt
  if ls.all fun p => s.canPerform p.1 p.2.2 then
    ls.foldl (fun s p => s.flagsDone p.1.id) (ls.foldl (fun s p => s.atomLane p.1 p.2.1 p.2.2) s)
  else s

/-! ### fence and wait -/

/-- What a fence waits for (R241): every ST-counted access of the group issued before it is performed and its write completion time
has passed; every earlier load and atomic has returned. -/
def State.fenceReady (s : State) (bk g sq : Nat) : Bool :=
  s.ops.all fun o => !(o.bk == bk && o.g == g && decide (o.id < sq)) ||
    o.lanes.all fun x =>
      (!(o.cls == .st || o.kind == .atom) || (x.st.isDone && decide (x.wct = 0 ∨ x.wct < s.tickOf o))) &&
      (!(o.kind.isLoad || o.kind == .atom) || x.st.isDone)

/-- fence (R241). -/
def execFence (g : Guard) (scope : Nat) (s : State) : Host.Outcome State Fault Refusal :=
  .next (runUnits s g
    (fun s u => if s.badScope u scope then .fault .ac scope
      else .go (fenceSeq s u.rep, s.fenceReady u.bk u.g (fenceSeq s u.rep)))
    (fun st u a => if a.2 then st.advance u.rep else st.setStat u.rep (.fence a.1)))

/-- wait (R243). -/
def execWait (g : Guard) (ldT stT cpT tlT : Nat) (s : State) : Host.Outcome State Fault Refusal :=
  let ok := fun (s : State) (u : WUnit) (c : Cnt) (t : Nat) => t == 15 || decide (s.cnt u.bk u.g c ≤ t)
  .next (runUnits s g
    (fun s u => if ok s u .ld ldT && ok s u .st stT && ok s u .cp cpT && ok s u .tl tlT then .go () else .stall)
    (fun st u _ => advanceUnit st u))

/-! ### Reorder rings -/

/-- A ring's control record (R251). -/
structure Ring where
  next : Nat
  head : Nat
  log2n : Nat
  log2g : Nat
  ordered : Bool
  bound : Bool
  sbase : Nat
  ownxt : Nat
  void : Nat
  resv : Bool
deriving DecidableEq, Repr

def ringOf (w : Nat) : Ring :=
  { next := bits w 0 32, head := bits w 32 32, log2n := bits w 64 4, log2g := bits w 68 3, ordered := bit w 71, bound := bit w 72,
    sbase := bits w 128 32, ownxt := bits w 160 32, void := bits w 256 256,
    resv := bits w 73 55 ≠ 0 || bits w 192 64 ≠ 0 || bits w 68 3 == 7 }

/-- The record as a number again: the fields the device updates over the old word. -/
def Ring.word (r : Ring) (w : Nat) : Nat :=
  let w := setBits w 0 32 r.next
  let w := setBits w 32 32 r.head
  let w := setBits w 72 1 (b2n r.bound)
  let w := setBits w 160 32 r.ownxt
  setBits w 256 256 r.void

def Ring.n (r : Ring) : Nat := 2 ^ r.log2n
def Ring.slotBytes (r : Ring) : Nat := 16 * 2 ^ r.log2g
def Ring.isVoid (r : Ring) (t : Nat) : Bool := bit r.void (t % r.n)
def Ring.setVoid (r : Ring) (t : Nat) (b : Bool) : Ring := { r with void := setBit r.void (t % r.n) b }

def State.ringAt (s : State) (t : Tgt) : Nat := ofNats (s.readTgt t 64).1
def State.putRing (s : State) (core : Nat) (t : Tgt) (w : Nat) (r : Ring) : State :=
  s.writeTgt core false t (natBytes 64 (r.word w))

/-- The region target of a slot. -/
def State.slotTgt (s : State) (c : Nat) (r : Ring) (t : Nat) : Tgt :=
  let a := r.sbase + t % r.n * r.slotBytes
  match s.regionT c a with
  | some (k, e) => .region k (a - e.tbase)
  | none => .none

/-- The lines of a slot are present. -/
def State.slotHere (s : State) (c : Nat) (r : Ring) (t : Nat) : State :=
  (span 0 ((r.slotBytes + 127) / 128)).foldl (fun s j => s.touch c ((s.slotTgt c r t).add (128 * j))) s

/-- Clear or set every granule of a slot; a fill serves the waiters. -/
def State.slotFull (s : State) (c : Nat) (r : Ring) (t : Nat) (b : Bool) : State :=
  let tg := s.slotTgt c r t
  let s := s.slotHere c r t
  if b then s.fillAt tg r.slotBytes
  else (span 0 (r.slotBytes / 16)).foldl (fun s j => s.setFullAt (tg.add (16 * j)) false) s

/-- The checks of a ring access (R252, R253): as `atom`, then the record as its line holds it once present. DESIGN CHOICE: an SBASE that is no multiple of
16 is no fault; a slot's granules are those from the one that its address lies in (notes/assumptions/64.md). -/
def State.ringCheck (s : State) (bk p : Nat) (take : Bool) : Chk :=
  let c := s.ctxOf bk
  match noOut p (s.check c p 64 64 .atom false) with
  | .ok t =>
    if s.linkDown t then .fault .ac p else
    let r := ringOf ((s.touch c t).ringAt t)
    let mine := match s.launchOf bk with
      | some l => l.rings
      | none => []
    if r.resv || decide (8 < r.log2n) || (s.regionT c r.sbase).isNone then .fault .ac p
    else if take && ((r.bound && !(mine.contains t)) || (!r.bound && decide (8 ≤ mine.length))) then .fault .ac p
    else .ok t
  | x => x

def ringI (kind : OpKind) (f : Mem) : MemI :=
  { kind := kind, cls := .ld, d := f.d, ty := .z32, n := 64, pol := 0, qf := f.qf, scope := f.scope, aux := 0, uni := false }

/-- A ring lane finds its record present; the first `rtake` of a launch binds the ring to it (R252). -/
def State.bindRing (s : State) (bk core : Nat) (take : Bool) (t : Tgt) : State :=
  let s := (s.touch (s.ctxOf bk) t).sense (some (s.ctxOf bk)) t
  let w := s.ringAt t
  let r := ringOf w
  if take && !r.bound then match s.block? bk with
    | some b => (s.putRing core t w { r with bound := true }).updLaunch b.lid fun l => { l with rings := l.rings ++ [t] }
    | none => s
  else s

/-- Issue a ring lane: at `rtake` the fibre parks until it has its ticket's turn (R254); `rhead` is under way like a load (R118). -/
def applyRing (i : MemI) (start : Nat) (s : State) (u : WUnit) (a : MemGo) : State :=
  match a.chk with
  | .ok t =>
    let s := s.bindRing u.bk (s.group u.bk u.g).core (i.kind == .rtake) t
    let p := s.opFor i start u.bk u.g
    let s := p.2.addLane p.1 (mkLane u a t .pending)
    if i.kind = .rtake then parkUnit s u .lane else advanceUnit s u
  | _ => applyLoad i start s u a

/-- The ring that a unit's lane would bind to its launch. -/
def State.binds (s : State) (p : WUnit × Plan MemGo) : Option (Nat × Tgt) :=
  match p.2 with
  | .go { chk := .ok t, .. } =>
    if (ringOf ((s.touch (s.ctxOf p.1.bk) t).ringAt t)).bound then none else (s.launchOf p.1.bk).map fun l => (l.lid, t)
  | _ => none

/-- Rings bound to a launch. -/
def State.ringCount (s : State) (lid : Nat) : Nat :=
  match s.launch? lid with
  | some l => l.rings.length
  | none => 0

/-- Lanes of one `rtake` may name several unbound rings: a lane that would bind its launch's ninth takes the AC (R252). `new` are the rings that the lanes
before it bind. -/
def State.ringUnits (s : State) : List (Nat × Tgt) → List (WUnit × Plan MemGo) → List (WUnit × Plan MemGo)
  | _, [] => []
  | new, p :: ps =>
    match p.2, s.binds p with
    | .go a, some b =>
      if new.contains b then p :: s.ringUnits new ps
      else if s.ringCount b.1 + (new.filter fun c => c.1 == b.1).length < 8 then p :: s.ringUnits (b :: new) ps
      else (p.1, .fault .ac a.ptr) :: s.ringUnits new ps
    | _, _ => p :: s.ringUnits new ps

def runRing (s : State) (kind : OpKind) (f : Mem) : State :=
  let i := ringI kind f
  runPrep s f.g
    (fun s u => planMem s u i f.base f.ofs f.sc 64 true true (some (.reg f.d false false .z32)) [] (fun _ => (0, 0))
      fun p => s.ringCheck u.bk p (kind == .rtake))
    (if kind = .rtake then s.ringUnits [] else id)
    (applyRing i s.seq)

/-- rtake (R254). -/
def execRtake (f : Mem) (s : State) : Host.Outcome State Fault Refusal := .next (runRing s .rtake f)
/-- rhead (R255). -/
def execRhead (f : Mem) (s : State) : Host.Outcome State Fault Refusal := .next (runRing s .rhead f)

/-- Lanes that hold tickets below HEAD + N receive them (R254, R255). -/
def State.releaseTickets (s : State) (t : Tgt) : State :=
  let r := ringOf (s.ringAt t)
  let ls := s.ops.flatMap fun o => (o.lanes.mapIdx fun k x => (o, k, x)).filter fun p =>
    p.2.2.st == .ticket && p.2.2.tgt == t && decide (p.2.2.val < r.head + r.n)
  ls.foldl (fun s p =>
    (s.writeBackD p.1 p.2.2 false p.2.2.val false).doneLane p.1.id p.2.1 fun x => { x with val := 0 }) s

/-- The block's ticket on an ordered ring. -/
def State.ownTicket (s : State) (bk : Nat) (t : Tgt) : Option Nat :=
  match s.block? bk with
  | some b => (b.tickets.find? fun x => x.1 == t).map (·.2)
  | none => none

/-- Void ticket `tk` of a ring (R256): the slot's granules become full, releasing a parked consumer. -/
def State.voidTicket (s : State) (c core : Nat) (t : Tgt) (tk : Nat) : State :=
  let w := s.ringAt t
  let r := (ringOf w).setVoid tk true
  (s.putRing core t w r).slotFull c r tk true

/-- A block that takes no more tickets: it has retired or frozen, or is `me`, which is about to. -/
def Block.left (me : Option Nat) (b : Block) : Bool := b.st == .retired || b.st == .frozen || b.held || some b.uid == me

/-- In ordered mode the device takes and voids the tickets that retired or frozen blocks of the launch still owe (R256). -/
def voidOwed (me : Option Nat) (c core lid : Nat) (t : Tgt) : Nat → State → State
  | 0, s => s
  | n + 1, s =>
    let w := s.ringAt t
    let r := ringOf w
    match s.blocks.find? fun b => b.lid == lid && b.task.isNone && b.idx == r.ownxt && b.left me with
    | some b =>
      if r.ordered && !(b.tickets.any fun x => x.1 == t) then
        let s := s.putRing core t w { r with next := (r.next + 1) % 2 ^ 32, ownxt := (r.ownxt + 1) % 2 ^ 32 }
        let s := s.updBlock b.uid fun b => { b with tickets := b.tickets ++ [(t, r.next)] }
        voidOwed me c core lid t n (s.voidTicket c core t r.next)
      else s
    | none => s

/-- One `rtake` lane takes its ticket at the record (R254). -/
def State.takeLane (s : State) (o : Op) (k : Nat) (x : Lane) : State :=
  let w := s.ringAt x.tgt
  let r := ringOf w
  let give := fun (s : State) (tk : Nat) =>
    s.updOp o.id fun o => o.updLane k fun y => { y with st := .ticket, val := tk }
  if r.ordered then
    match s.ownTicket o.bk x.tgt with
    | some tk => give s tk
    | none =>
      match s.block? o.bk with
      | none => s
      | some b =>
        if r.ownxt = b.idx then
          let s := s.putRing o.core x.tgt w { r with next := (r.next + 1) % 2 ^ 32, ownxt := (r.ownxt + 1) % 2 ^ 32 }
          let s := s.updBlock o.bk fun b => { b with tickets := b.tickets ++ [(x.tgt, r.next)] }
          voidOwed none (s.ctxOf o.bk) o.core b.lid x.tgt s.blocks.length (give s r.next)
        else s
  else
    let s := s.putRing o.core x.tgt w { r with next := (r.next + 1) % 2 ^ 32 }
    give (s.updBlock o.bk fun b => { b with tickets := b.tickets ++ [(x.tgt, r.next)] }) r.next

/-- Pass the voids that follow HEAD (R255): the new record and the voids passed. -/
def passVoids (c : Nat) (s : State) (r : Ring) : Nat → Nat → State × Ring × Nat
  | 0, v => (s, r, v)
  | n + 1, v =>
    if r.head < r.next ∧ r.isVoid r.head then
      passVoids c (s.slotFull c r r.head false) { r.setVoid r.head false with head := (r.head + 1) % 2 ^ 32 } n (v + 1)
    else (s, r, v)

/-- One `rhead` lane (R255). -/
def State.headLane (s : State) (o : Op) (k : Nat) (x : Lane) : State :=
  let c := s.ctxOf o.bk
  let w := s.ringAt x.tgt
  let r := ringOf w
  let skip := bit o.qf 1
  let first := !skip && r.isVoid r.head
  let p := if skip then (s, r)
    else (s.slotFull c r r.head false, { r.setVoid r.head false with head := (r.head + 1) % 2 ^ 32 })
  let q := passVoids c p.1 p.2 256 (b2n first)
  let s := q.1.putRing o.core x.tgt w q.2.1
  (s.writeBackD o x false (b2n first * 2 ^ 31 + q.2.2) false).doneLane o.id k fun x => x

/-- One ring lane at the home: a record that it changes is a change of its bundle (R265). -/
def State.ringLane (s : State) (o : Op) (k : Nat) (x : Lane) : State :=
  if s.linkDown x.tgt then s.loseLane o k x else
  let s := ((s.touch (s.ctxOf o.bk) x.tgt).sense (some (s.ctxOf o.bk)) x.tgt).effect o.bk
  let t := if o.kind = .rtake then s.takeLane o k x else s.headLane o k x
  if t.ringAt x.tgt = s.ringAt x.tgt then t else t.noteChange x.fk

/-- Ring lanes of one instruction on one line, one operation at a time in ascending home lane, once all of them may be performed (R251, R254, R255). -/
def State.performRing (s : State) (o : Op) (x : Lane) : State :=
  let ls := s.lineLanes o.ins x.tgt
  if ls.all fun p => s.canPerform p.1 p.2.2 then
    ls.foldl (fun s p => s.releaseTickets p.2.2.tgt) (ls.foldl (fun s p => s.ringLane p.1 p.2.1 p.2.2) s)
  else s

/-- Void a retiring or frozen block's tickets on every ring of its launch (R256). -/
def State.voidBlock (s : State) (bk : Nat) : State :=
  match s.block? bk with
  | none => s
  | some b =>
    match s.launch? b.lid with
    | none => s
    | some l =>
      let core := b.cores.headD 0
      let s := b.tickets.foldl (fun s x =>
        let r := ringOf (s.ringAt x.1)
        let tg := s.slotTgt l.ctx r x.2
        let s := s.slotHere l.ctx r x.2
        let filled := (span 0 (r.slotBytes / 16)).any fun j => s.fullAt (tg.add (16 * j))
        if r.head ≤ x.2 ∧ !filled then s.voidTicket l.ctx core x.1 x.2 else s) s
      l.rings.foldl (fun s t => (voidOwed (some bk) l.ctx core l.lid t s.blocks.length s).releaseTickets t) s

/-! ### Timelines -/

/-- The new value of a timeline, none when it is refused (R258): set, forced set, add. -/
def tlNew (kind : OpKind) (force : Bool) (v src : Nat) : Option Nat :=
  match kind with
  | .tlset => if force || decide (v ≤ src) then some src else none
  | _ => if v + src < 2 ^ 64 then some (v + src) else none

/-- One `tlset` or `tladd` lane at the home (R258). -/
def State.tlLane (s : State) (o : Op) (k : Nat) (x : Lane) : State :=
  if s.linkDown x.tgt then s.loseLane o k x else
  let s := ((s.touch (s.ctxOf o.bk) x.tgt).sense (some (s.ctxOf o.bk)) x.tgt).effect o.bk
  let v := ofNats (s.readTgt x.tgt 8).1
  let wc := s.wcts o.core (s.scopeFor o.bk o.core o.scope) (o.scope == 0) x.tgt
  let fin := fun (s : State) => s.doneLane o.id k fun y => { y with wct := wc.1, wct4 := wc.2 }
  match tlNew o.kind (bit o.qf 1) v x.src with
  | some n =>
    let s := (s.writeTgt o.core false x.tgt (natBytes 8 n)).ownView o x x.ptr 8 n (fullMask 8)
    (fin (if n = v then s else s.noteChange x.fk)).wake
  | none => fin (s.reportFault o.bk { code := FClass.ac.code, pc := o.pc, det := x.ptr, grp := fkG x.fk, lane := fkL x.fk } o.frame)

/-- Timeline lanes of one instruction on one line (R249, R258). -/
def State.performTl (s : State) (o : Op) (x : Lane) : State :=
  let ls := s.lineLanes o.ins x.tgt
  if ls.all fun p => s.canPerform p.1 p.2.2 then ls.foldl (fun s p => s.tlLane p.1 p.2.1 p.2.2) s else s

/-- The check of a timeline address (R257). -/
def State.tlCheck (s : State) (c p : Nat) : Chk := noOut p (s.check c p 8 8 .atom false)

/-- Advance a timeline by 1 for the device, as `tladd` in scope 4 does (R292, R302); false while its page is not present. A
refused or failing advance has no fibre to report to. -/
def State.tlAdvance (s : State) (c p : Nat) : Bool × State :=
  if p = 0 then (true, s)
  else match s.tlCheck c p with
    | .ok t =>
      if !(s.tgtUp t) then (false, s) else if s.linkDown t then (true, s) else
      let s := (s.touch c t).sense (some c) t
      let v := ofNats (s.readTgt t 8).1
      (true, if v + 1 < 2 ^ 64 then (s.writeTgt Config.cores false t (natBytes 8 (v + 1))).wake else s)
    | .absent _ => if s.barred c p then (true, s) else (false, s.request c p)
    | .wait => (false, s)
    | _ => (true, s)

def tlI (kind : OpKind) (f : Mem) : MemI :=
  { kind := kind, cls := .st, d := f.d, ty := .z64, n := 8, pol := 0, qf := f.qf, scope := f.scope, aux := 0, uni := false }

/-- Issue of `tlset` and `tladd`: on a page that is not present the fibre parks, as for `atom`. -/
def runTl (s : State) (kind : OpKind) (f : Mem) : State :=
  let i := tlI kind f
  runUnits s f.g
    (fun s u => planMem s u i f.base f.ofs f.sc 8 true true none [⟨f.d, false, true⟩] (fun xs => (xs.getD 0 0, fullMask 8))
      fun p => s.tlCheck (s.ctxOf u.bk) p)
    (applyLoad i s.seq)

/-- tlset (R258). -/
def execTlset (f : Mem) (s : State) : Host.Outcome State Fault Refusal := .next (runTl s .tlset f)
/-- tladd (R258). -/
def execTladd (f : Mem) (s : State) : Host.Outcome State Fault Refusal := .next (runTl s .tladd f)

/-- An access of the fibre to a target's bytes is under way. -/
def State.ownPending (s : State) (fk : Nat) (t : Tgt) (ptr n : Nat) : Bool :=
  s.ops.any fun o => o.lanes.any fun x => x.fk == fk && !x.st.isDone &&
    overlapK x.keys (t.key.toList ++ [(1, ptr % 2 ^ 56)]) o.n n

/-- A fibre waits at a timeline (R258, R307): it goes on at once when the value meets the threshold, else it is registered; the read at home
refreshes its core's copy (R235). -/
def State.tlPark (s : State) (fk : Nat) (t : Tgt) (thr : Nat) (aw : Bool) : State :=
  let s := ((s.touch (s.ctxOf (fkBk fk)) t).sense (some (s.ctxOf (fkBk fk))) t).refreshCopy (s.group (fkBk fk) (fkG fk)).core t
  if thr ≤ ofNats (s.readTgt t 8).1 then s.advance fk
  else { s.setStat fk (.timeline t thr s.seq aw) with seq := s.seq + 1 }

/-- tlwait (R258). -/
def execTlwait (f : Mem) (s : State) : Host.Outcome State Fault Refusal :=
  let i := { tlI .tlset f with cls := .none }
  .next (runUnits s f.g
    (fun s u => match planMem s u i f.base f.ofs f.sc 8 true true none [⟨f.d, false, true⟩] (fun xs => (xs.getD 0 0, 0))
        fun p => s.tlCheck (s.ctxOf u.bk) p with
      | .go a => match a.chk with
        | .ok t => if s.linkDown t then .fault .ac a.ptr else if s.ownPending u.rep t a.ptr 8 then .stall else .go a
        | _ => .go a
      | x => x)
    (fun st u a => match a.chk with
      | .ok t => st.tlPark u.rep t a.src false
      | _ => (parkUnit st u (.page a.ptr)).request (st.ctxOf u.bk) a.ptr))

end Sys2Proof.Machine
end

