-- ==== Sys2Proof/Machine/Flags.lean ====
section
/-!
DEFINITION. The results and flags of the integer, logic, shift, bit-field and compare forms (R155 to R168), and the clearing
of GSW flags (R139, R177). The flags of the floating-point forms stand beside their results in Machine/Num.lean.
-/
namespace Sys2Proof.Machine

/-- Width of a type in bits. -/
def Ty.bits (t : Ty) : Nat := 8 * t.size

/-- An exact integer wrapped to the width of TY (R155). -/
def wrapTo (t : Ty) (v : Int) : Nat := unsgn (Ty.bits t) v

def intAdd (t : Ty) (a b : Nat) : Nat × Nat := (wrapTo t (valOf t a + valOf t b), 0)
def intSub (t : Ty) (a b : Nat) : Nat × Nat := (wrapTo t (valOf t a - valOf t b), 0)

/-- `adds` (R155): exact sum or difference clamped to the type's range; SAT when clamped. -/
def intAddSat (t : Ty) (dif : Bool) (a b : Nat) : Nat × Nat :=
  let v := if dif then valOf t a - valOf t b else valOf t a + valOf t b
  (wrapTo t (clampTo t v), if clampTo t v = v then 0 else fSAT)

def intMul (t : Ty) (a b : Nat) : Nat × Nat := (wrapTo t (valOf t a * valOf t b), 0)

/-- Bits [2w−1:w] of the exact product. -/
def intMulHi (t : Ty) (a b : Nat) : Nat × Nat :=
  (unsgn (2 * Ty.bits t) (valOf t a * valOf t b) / 2 ^ Ty.bits t, 0)

/-- The exact 64-bit product of two 32-bit sources. -/
def intMulWide (t : Ty) (a b : Nat) : Nat × Nat := (unsgn 64 (valOf t a * valOf t b), 0)

def intMad (t : Ty) (a b c : Nat) : Nat × Nat := (wrapTo t (valOf t a * valOf t b + valOf t c), 0)

/-- `div` (R155, R156). -/
def intDiv (t : Ty) (a b : Nat) : Nat × Nat :=
  if valOf t b = 0 then (2 ^ Ty.bits t - 1, 0) else (wrapTo t (Int.tdiv (valOf t a) (valOf t b)), 0)

/-- `rem` (R155, R156). -/
def intRem (t : Ty) (a b : Nat) : Nat × Nat :=
  if valOf t b = 0 then (wrapTo t (valOf t a), 0) else (wrapTo t (Int.tmod (valOf t a) (valOf t b)), 0)

def intMin (t : Ty) (a b : Nat) : Nat × Nat := (wrapTo t (min (valOf t a) (valOf t b)), 0)
def intMax (t : Ty) (a b : Nat) : Nat × Nat := (wrapTo t (max (valOf t a) (valOf t b)), 0)
def intAbs (t : Ty) (a : Nat) : Nat × Nat := (wrapTo t (valOf t a).natAbs, 0)

def bitAnd (a b : Nat) : Nat × Nat := (a &&& b, 0)
def bitOr (a b : Nat) : Nat × Nat := (a ||| b, 0)
def bitXor (a b : Nat) : Nat × Nat := (a ^^^ b, 0)
def bitNot (t : Ty) (a : Nat) : Nat × Nat := (2 ^ Ty.bits t - 1 - a, 0)

/-- `shl`, with c := B[7:0] (R158). -/
def shiftL (t : Ty) (a b : Nat) : Nat × Nat :=
  let c := b % 256
  (if c < Ty.bits t then a * 2 ^ c % 2 ^ Ty.bits t else 0, 0)

/-- `shr` (R158): arithmetic for i types, logical otherwise. -/
def shiftR (t : Ty) (a b : Nat) : Nat × Nat :=
  let c := b % 256
  let w := Ty.bits t
  if t.signed then (unsgn w (sgn w a / (2 ^ (min c w) : Nat)), 0) else (if c < w then a / 2 ^ c else 0, 0)

/-- `rot` by c mod w bits (R158). -/
def rotate (t : Ty) (right : Bool) (a b : Nat) : Nat × Nat :=
  let w := Ty.bits t
  let c := b % 256 % w
  let k := if right then (w - c) % w else c
  (a * 2 ^ k % 2 ^ w + a / 2 ^ (w - k), 0)

/-- `bfx` (R159). -/
def bitExtract (t : Ty) (a b c : Nat) : Nat × Nat :=
  let w := Ty.bits t
  let pos := b % 256
  let len := min (c % 256) w
  if len = 0 then (0, 0)
  else
    let x : Int := valOf t a
    let fld := ((x / (2 ^ pos : Nat)) % (2 ^ len : Nat)).toNat
    (if t.signed then unsgn w (sgn len fld) else fld, 0)

/-- `bfi` (R160): B with bits [pos+len−1:pos] replaced from A; bits at or above w are not written. -/
def bitInsert (t : Ty) (a b c : Nat) : Nat × Nat :=
  let w := Ty.bits t
  let pos := c % 256
  let len := c / 256 % 256
  if len = 0 ∨ pos ≥ w then (b, 0) else (setBits b pos (min len (w - pos)) a, 0)

/-- The number of 1 bits in the low `n` bits. -/
def countOnes : Nat → Nat → Nat
  | 0, _ => 0
  | n + 1, a => a % 2 + countOnes n (a / 2)

/-- Leading zeros of a w-bit value (R158): w when it is 0. -/
def leadZeros (w a : Nat) : Nat := if a = 0 then w else w - 1 - a.log2

/-- Bit j to bit n−1−j. -/
def bitReverse : Nat → Nat → Nat
  | 0, _ => 0
  | n + 1, a => a % 2 * 2 ^ n + bitReverse n (a / 2)

/-- One byte of `bsel` (R161). -/
def selByte (a s : Nat) : Nat :=
  let x := a / 256 ^ (s % 4) % 256
  if bit s 7 then 0 else if bit s 6 then (if x ≥ 128 then 255 else 0) else x

def byteSelect (a b : Nat) : Nat × Nat :=
  (selByte a (b % 256) + selByte a (b / 2 ^ 8 % 256) * 2 ^ 8 + selByte a (b / 2 ^ 16 % 256) * 2 ^ 16
    + selByte a (b / 2 ^ 24 % 256) * 2 ^ 24, 0)

/-- `ext` (R162): element `e` of A extended to 32 bits, or a word to 64 bits. -/
def extElem (t : Ty) (e a : Nat) : Nat × Nat :=
  let w := Ty.bits t
  let x := a / 2 ^ (w * e) % 2 ^ w
  let outw := if w = 32 then 64 else 32
  (if t.signed then unsgn outw (sgn w x) else x, 0)

/-- `lea` (R164). -/
def leaPtr (k a b : Nat) : Nat × Nat :=
  (a / 2 ^ 56 % 256 * 2 ^ 56 + unsgn 56 ((a % 2 ^ 56 : Nat) + sgn 32 b * (2 ^ k : Nat)), 0)

/-- The conditions of `cmp` and `cmpi` (R165, R166). -/
def condHolds (t : Ty) (cc a b : Nat) : Bool :=
  let x := valOf t a
  let y := valOf t b
  match cc with
  | 0 => decide (x = y)
  | 1 => decide (x ≠ y)
  | 2 => decide (x < y)
  | 3 => decide (x ≤ y)
  | 4 => decide (x > y)
  | _ => decide (x ≥ y)

/-- A GSW after the flags in `mask` are cleared (R139, R177). -/
def clearFlags (gsw : BitVec 32) (mask : Nat) : BitVec 32 := gsw &&& ~~~(BitVec.ofNat 32 (mask % 256))

end Sys2Proof.Machine
end

