-- ==== Sys2Proof/Decode.lean ====
section
/-!
DEFINITION. Instruction words (R8 to R28, R36 and each form's field table): field positions, the encoder, and the decoder.
The decoder reads a word's fields, builds the instruction its opcode names, and accepts it when it is well-formed and
encodes back to the very word: so every fixed, reserved or unused bit must hold its stated value (R14, R35).
-/
namespace Sys2Proof

/-- The word with the common fields of R9; `b` is bits [27:17] and `lo` bits [16:0]. -/
def word (opc : Nat) (g : Guard) (d a b lo : Nat) : Nat :=
  lo + b * 2 ^ 17 + a * 2 ^ 28 + d * 2 ^ 39 + g.gp * 2 ^ 50 + g.gn.toNat * 2 ^ 54 + g.u.toNat * 2 ^ 55 + opc * 2 ^ 56

def fOpc (w : Nat) : Nat := w / 2 ^ 56
def fU (w : Nat) : Bool := w / 2 ^ 55 % 2 == 1
def fGn (w : Nat) : Bool := w / 2 ^ 54 % 2 == 1
def fGp (w : Nat) : Nat := w / 2 ^ 50 % 16
def fD (w : Nat) : Nat := w / 2 ^ 39 % 2048
def fA (w : Nat) : Nat := w / 2 ^ 28 % 2048
def fB (w : Nat) : Nat := w / 2 ^ 17 % 2048
def fLo (w : Nat) : Nat := w % 2 ^ 17
def fGuard (w : Nat) : Guard := { u := fU w, gn := fGn w, gp := fGp w }

/-- Format V3 and VI, bits [16:0] (R17, R18). -/
def loV (ty : Nat) (id ia ib : Bool) (sub : Nat) : Nat :=
  sub + ib.toNat * 1024 + ia.toNat * 2048 + id.toNat * 4096 + ty * 8192

/-- Format V4, bits [16:0] (R19). -/
def loC (c ty rm : Nat) : Nat := rm + ty * 4 + c * 64

/-- Format M, bits [16:0] (R20). -/
def loM (ty scope pol qf : Nat) : Nat := qf + pol * 16 + scope * 256 + ty * 8192

/-- Bits [27:17] of formats VI, M and C: an 8-bit field over a 3-bit field. -/
def hi8 (x lo3 : Nat) : Nat := x * 8 + lo3

def Special.code : Special → Nat
  | .lane => 1632
  | .fibre => 1633
  | .group => 1634
  | .block => 1635
  | .core => 1636
  | .quad => 1637
  | .tick => 1638
  | .tickhi => 1639
  | .ngrp => 1640
  | .nfib => 1641
  | .seed => 1642
  | .cbase => 1643

/-- Operand field values (R13). -/
def Opnd.code : Opnd → Nat
  | .v n => n
  | .s n => 1536 + n
  | .sp x => x.code

/-- The operand of a field; reserved values name no legal operand. -/
def opnd (n : Nat) : Opnd :=
  if n < 1536 then .v n
  else if n < 1632 then .s (n - 1536)
  else match n - 1632 with
    | 0 => .sp .lane
    | 1 => .sp .fibre
    | 2 => .sp .group
    | 3 => .sp .block
    | 4 => .sp .core
    | 5 => .sp .quad
    | 6 => .sp .tick
    | 7 => .sp .tickhi
    | 8 => .sp .ngrp
    | 9 => .sp .nfib
    | 10 => .sp .seed
    | 11 => .sp .cbase
    | _ => .v n

/-- Type codes (R24). -/
def Ty.code : Ty → Nat
  | .i8 => 0
  | .i16 => 1
  | .i32 => 2
  | .i64 => 3
  | .z8 => 4
  | .z16 => 5
  | .z32 => 6
  | .z64 => 7
  | .f16 => 8
  | .bf16 => 9
  | .f32 => 10
  | .b32 => 11
  | .ds8 => 12
  | .e8 => 13

/-- The type of a code; the reserved codes 14 and 15 encode back to another word, which refuses them. -/
def tyOf (n : Nat) : Ty :=
  match n with
  | 0 => .i8
  | 1 => .i16
  | 2 => .i32
  | 3 => .i64
  | 4 => .z8
  | 5 => .z16
  | 6 => .z32
  | 7 => .z64
  | 8 => .f16
  | 9 => .bf16
  | 10 => .f32
  | 11 => .b32
  | 12 => .ds8
  | _ => .e8

/-- Rounding codes (R25). -/
def RM.code : RM → Nat
  | .near => 0
  | .zero => 1
  | .up => 2
  | .down => 3

def rmOf (n : Nat) : RM :=
  match n with
  | 0 => .near
  | 1 => .zero
  | 2 => .up
  | _ => .down

/-! ### Encoder -/

def encBin (opc : Nat) (f : Bin) (sub : Nat) : Nat :=
  word opc f.g f.d.code f.a.code f.b.code (loV f.ty.code f.id f.ia f.ib sub)

def encUn (opc : Nat) (f : Un) (sub : Nat) : Nat :=
  word opc f.g f.d.code f.a.code 0 (loV f.ty.code f.id f.ia false sub)

def encImm (opc : Nat) (f : Imm) : Nat :=
  word opc f.g f.d.code f.a.code (hi8 f.imm 0) (loV f.ty.code f.id f.ia false 0)

def encTri (opc : Nat) (f : Tri) : Nat :=
  word opc f.g f.d.code f.a.code f.b.code (loC f.c.code f.ty.code f.rm.code)

def encCmp (opc : Nat) (f : CmpF) (sub : Nat) : Nat :=
  word opc f.g f.p f.a.code f.b.code (loV f.ty.code false f.ia f.ib sub)

def encMem (opc : Nat) (f : Mem) : Nat :=
  word opc f.g f.d.code f.base.code (hi8 f.ofs f.sc) (loM f.ty.code f.scope f.pol f.qf)

def encMemA (opc : Nat) (f : MemA) : Nat :=
  word opc f.g 0 f.base.code (hi8 f.ofs f.sc) (loM Ty.b32.code f.scope f.pol f.qf)

/-- Format C (R26). -/
def encC (opc : Nat) (g : Guard) (d : Nat) (t : Target) : Nat :=
  match t with
  | .disp x => word opc g d 0 (hi8 x 0) 0
  | .far s => word opc g d (1536 + s) 0 65536

/-- Formats V3, C and E with only some of D, A, B and SUB (R17, R26, R28). -/
def enc3 (opc : Nat) (g : Guard) (d a b lo : Nat) : Nat := word opc g d a b lo

/-- The word of an instruction, from the encoding tables of the forms. Events have none. -/
def encode : Instr → Nat
  | .add f => encBin 0x00 f 0
  | .addi f => encImm 0x01 f
  | .sub f => encBin 0x02 f 0
  | .adds f dif => encBin 0x03 f dif.toNat
  | .mul f => encBin 0x04 f 0
  | .mulhi f => encBin 0x05 f 0
  | .mulw f => encBin 0x06 f 0
  | .mad f => encTri 0x07 f
  | .div f => encBin 0x08 f 0
  | .rem f => encBin 0x09 f 0
  | .min f => encBin 0x0A f 0
  | .max f => encBin 0x0B f 0
  | .abs f => encUn 0x0C f 0
  | .and f => encBin 0x0D f 0
  | .or f => encBin 0x0E f 0
  | .xor f => encBin 0x0F f 0
  | .not f => encUn 0x10 f 0
  | .andi f => encImm 0x11 f
  | .ori f => encImm 0x12 f
  | .xori f => encImm 0x13 f
  | .shl f => encBin 0x14 f 0
  | .shr f => encBin 0x15 f 0
  | .shli f => encImm 0x16 f
  | .shri f => encImm 0x17 f
  | .rot f r => encBin 0x18 f r.toNat
  | .bfx f => encTri 0x19 f
  | .bfi f => encTri 0x1A f
  | .popc f => encUn 0x1B f 0
  | .clz f => encUn 0x1C f 0
  | .brev f => encUn 0x1D f 0
  | .cmp f => encCmp 0x1E f f.cc
  | .cmpi f => word 0x1F f.g f.p f.a.code (hi8 f.imm 0) (loV f.ty.code false f.ia false f.cc)
  | .plog f => word 0x20 f.g f.p f.pa f.pb (loV 0 false false false f.tt)
  | .sel f => word 0x21 f.g f.d.code f.a.code f.b.code (loC f.p f.ty.code 0)
  | .movi f => word 0x22 f.g f.d.code 0 (hi8 f.imm 0) (loV f.ty.code f.id false false 0)
  | .lea f k => encBin 0x23 f k
  | .ext f e => encUn 0x24 f e
  | .bsel f => encBin 0x25 f 0
  | .fadd f rm => encBin 0x30 f rm.code
  | .fsub f rm => encBin 0x31 f rm.code
  | .fmul f rm => encBin 0x32 f rm.code
  | .fma f => encTri 0x33 f
  | .fmin f => encBin 0x34 f 0
  | .fmax f => encBin 0x35 f 0
  | .fabs f => encUn 0x36 f 0
  | .fneg f => encUn 0x37 f 0
  | .fdiv f rm => encBin 0x38 f rm.code
  | .fsqrt f rm => encUn 0x39 f rm.code
  | .frcp f => encUn 0x3A f 0
  | .frsq f => encUn 0x3B f 0
  | .fexp2 f => encUn 0x3C f 0
  | .flog2 f => encUn 0x3D f 0
  | .fcmp f => encCmp 0x3E f (f.cc * 4)
  | .fclass f => word 0x3F f.g f.p f.a.code 0 (loV f.ty.code false f.ia false (f.mask * 4))
  | .frnd f rm => encUn 0x40 f rm.code
  | .fdot2 f => encTri 0x41 f
  | .fstatRd f => word 0x42 f.g f.d.code 0 0 (loV Ty.b32.code f.id false false 0)
  | .fstatClr f => encUn 0x42 f 4
  | .cvt f => word 0x50 f.g f.d.code f.a.code 0
      (loV f.dty.code f.id f.ia false (f.rm.code + f.hi.toNat * 4 + f.sat.toNat * 8 + f.sty.code * 64))
  | .cvt2 f rm => encBin 0x51 f rm.code
  | .qds8 f k => encBin 0x52 f (k * 4)
  | .dqds8 f k rm => encBin 0x53 f (k * 4 + rm.code)
  | .escale f k => encUn 0x54 f (k * 4)
  | .allot g m => enc3 0x58 g 0 0 (hi8 m 0) 0
  | .shrink g m => enc3 0x59 g 0 0 (hi8 m 0) 0
  | .ldw f => encMem 0x5A f
  | .stw f => encMem 0x5B f
  | .ldi g d a b ty => word 0x5C g d.code a b.code (loV ty.code false false false 0)
  | .sti g d a b ty => word 0x5D g d.code a b.code (loV ty.code false false false 0)
  | .mov f => encUn 0x5E f 0
  | .perm g d a b => word 0x5F g d a b.code (loV Ty.b32.code false false false 0)
  | .bcast g d a b ty => word 0x60 g d.code a b.code (loV ty.code false false false 0)
  | .shfl g d a b mode => word 0x61 g d a b.code (loV Ty.b32.code false false false mode)
  | .vote g d a mode => enc3 0x62 g (if mode == 2 then 1536 + d else d) a 0 mode
  | .redux g d a op ty rm => word 0x63 g (1536 + d) a 0 (loV ty.code false false false (op * 4 + rm.code))
  | .ld f => encMem 0x68 f
  | .st f => encMem 0x69 f
  | .stz f => encMemA 0x6A f
  | .prefetch f => encMemA 0x6B f
  | .cwb f => encMemA 0x6C f
  | .ldt f => encMem 0x6D f
  | .stt f => encMem 0x6E f
  | .iinv f => encMemA 0x6F f
  | .ifence g => enc3 0x70 g 0 0 0 0
  | .atom f => encMem 0x80 f
  | .red f => encMem 0x81 f
  | .fence g scope => enc3 0x82 g 0 0 0 (loM 0 scope 0 0)
  | .wait g l1 l2 l3 l4 => enc3 0x83 g 0 0 (l1 * 128 + l2 * 8 + l3 / 2) (l3 % 2 * 65536 + l4 * 4096)
  | .rtake f => encMem 0x84 f
  | .rhead f => encMem 0x85 f
  | .tlset f => encMem 0x86 f
  | .tladd f => encMem 0x87 f
  | .tlwait f => encMem 0x88 f
  | .br g t => encC 0x90 g 0 t
  | .call g t => encC 0x91 g 0 t
  | .callInd g a => enc3 0x92 g 0 a.code 0 0
  | .ret g => enc3 0x93 g 0 0 0 0
  | .jmpi g a => enc3 0x94 g 0 a.code 0 0
  | .exit g => enc3 0x95 g 0 0 0 0
  | .fspawn g d t => encC 0x97 g d t
  | .fend g => enc3 0x98 g 0 0 0 0
  | .fsort g d a b => enc3 0x99 g d a (1536 + b) 0
  | .bar g => enc3 0x9A g 0 0 0 0
  | .barCl g => enc3 0x9B g 0 0 0 0
  | .yield g => enc3 0x9C g 0 0 0 0
  | .nop g => enc3 0x9D g 0 0 0 0
  | .lfetch f => enc3 0xA0 f.g 0 (1536 + f.a) 0 0
  | .lcast f => enc3 0xA1 f.g 0 (1536 + f.a) 0 0
  | .lput f => enc3 0xA2 f.g 0 (1536 + f.a) 0 0
  | .lcopy f => enc3 0xA3 f.g 0 (1536 + f.a) 0 0
  | .lpermit f => enc3 0xA4 f.g 0 (1536 + f.a) 0 0
  | .gmma f => enc3 0xA8 f.g 0 (1536 + f.a) 0 0
  | .gdrain f => enc3 0xA9 f.g 0 (1536 + f.a) 0 0
  | .gload f => enc3 0xAA f.g 0 (1536 + f.a) 0 0
  | .gzero f => enc3 0xAB f.g 0 (1536 + f.a) 0 0
  | .gsave f => enc3 0xAC f.g 0 (1536 + f.a) (1536 + f.b) 0
  | .gresume f => enc3 0xAD f.g 0 (1536 + f.a) (1536 + f.b) 0
  | .gstat f => enc3 0xAE f.g (1536 + f.d) (1536 + f.a) 0 0
  | .cload f => enc3 0xB0 f.g 0 (1536 + f.a) (1536 + f.b) 0
  | .cstore f => enc3 0xB1 f.g 0 (1536 + f.a) (1536 + f.b) 0
  | .cseed f => enc3 0xB2 f.g 0 (1536 + f.a) 0 0
  | .ctab f => enc3 0xB3 f.g 0 (1536 + f.a) 0 0
  | .cinfer g d a mask => enc3 0xB4 g d a 0 mask
  | .cvote g d a mask => enc3 0xB5 g d a 0 mask
  | .ctrain g a b mask set sall => enc3 0xB6 g 0 a b (mask + set * 16 + sall.toNat * 64)
  | .cfb g a b set k two => enc3 0xB7 g 0 a b (two.toNat + k * 2 + set * 8)
  | .ensure g t d => encC 0xB8 g (1536 + d) t
  | .accept g a => enc3 0xB9 g 0 a 0 0
  | .elseby g t => encC 0xBA g 0 t
  | .elseerr g => enc3 0xBB g 0 0 0 0
  | .jtest g => enc3 0xBC g 0 0 0 0
  | .cjoin f => enc3 0xBD f.g 0 (1536 + f.a) 0 0
  | .frq g d => enc3 0xBE g d 0 0 0
  | .tkpost f => enc3 0xC0 f.g 0 (1536 + f.a) 0 0
  | .launch g d a => enc3 0xC1 g (match d with | none => 0 | some n => 1536 + n) (1536 + a) 0 0
  | .dsync g => enc3 0xC2 g 0 0 0 0
  | .await f => enc3 0xC3 f.g 0 (1536 + f.a) 0 0
  | .rand f => encBin 0xC4 f 0
  | .msend f => enc3 0xC8 f.g (1536 + f.d) (1536 + f.a) 0 0
  | .mrecv f => enc3 0xC9 f.g 0 (1536 + f.a) 0 0
  | .mpoll f => enc3 0xCA f.g (1536 + f.d) (1536 + f.a) 0 0
  | .pverInc g d => enc3 0xCB g (1536 + d) 0 0 0
  | .pverRd g d => enc3 0xCB g (1536 + d) 0 0 1
  | .trap g imm => enc3 0xCC g 0 0 (hi8 imm 0) 0
  | .srd g d r => enc3 0xCD g (1536 + d) 0 0 r
  | .swr g a r => enc3 0xCE g 0 (1536 + a) 0 r
  | .ctxq g d a b => enc3 0xCF g d (1536 + a) (1536 + b) 0
  | .hostLaunch _ | .translationInvalidate _ | .unpin _ | .resume _ | .cancel _ | .episodeStart _ | .episodeKill _
  | .collective _ | .registerWrite _ _ _ _ | .erbStatusClear _ _ | .dramcActstatClear _ _ | .evqLostClear _ _ _ _
  | .onyxAlarmClear _ | .tureenSlcfgWrite _ _ | .coreDccfgWrite _ _ | .berylEnvcfgWrite _ | .cqTailWrite _ _ _ _
  | .attestation _ | .imageLoad _ _ _ _ _ | .hostRead _ _ _ _ | .hostWrite _ _ _ _ | .peerWrite _ _ _
  | .pageMapped _ _ | .pageInvalid _ _ | .sideLogEntryFree _ | .blockPlace _ _ | .placementDone _ | .preempt _
  | .awaitSave _ | .blockRetire _ | .blockFreeze _ | .cpCancel _ | .faultReportAfterIssue _ | .launchEnd _
  | .taskStart _ | .taskComplete _ | .renameWriteback _ | .queueBalance _ _ | .allotGrant _ | .shrinkRelease _ _
  | .barrierTimeout _ | .cycleLimitExpiry _ | .cycbudExpiry _ | .demotionEnd _ | .reconvergenceTimeout _
  | .bundleMerge _ _ | .starvationPromotion _ | .ladleDelivery _ _ | .ladleComplete _ | .griddleOpStart _
  | .griddleOpComplete _ | .jasperOpApply _ | .silentError _ _ _ _ | .frameFail _ | .convVoteApply _ | .convNotice _
  | .vtoExpiry _ | .msendApply _ | .mrecvDelivery _ _ | .bmbTake _ | .bmbGive _ _ _ _ | .episodeRecordWrite _ _
  | .episodeViolation _ _ _ _ | .watchdogExpiry _ _ | .episodeCycbudIdle _ _ | .episodeStop _ | .rowAlert _ _
  | .backoffEnd _ _ _ | .flitReplay _ _ _ | .linkRetrain _ _ | .verificationFailure | .glitch | .tamperBreach
  | .functionReady _ _ | .stackTrainingFail _ | .deviceReset | .thermalThrottle _ _ | .accessPerformed _ _
  | .loadReturned _ _ | .writeCompletionTimePassed _ | .policyVersionApply _ | .peerRead _ _ _
  | .collectiveComplete _ _ _ | .contextCreation _ => 0

/-! ### Field reader -/

def rawBin (w : Nat) : Bin :=
  { g := fGuard w, d := opnd (fD w), a := opnd (fA w), b := opnd (fB w), id := fLo w / 4096 % 2 == 1,
    ia := fLo w / 2048 % 2 == 1, ib := fLo w / 1024 % 2 == 1, ty := tyOf (fLo w / 8192) }

def rawUn (w : Nat) : Un :=
  { g := fGuard w, d := opnd (fD w), a := opnd (fA w), id := fLo w / 4096 % 2 == 1, ia := fLo w / 2048 % 2 == 1,
    ty := tyOf (fLo w / 8192) }

def rawImm (w : Nat) : Imm :=
  { g := fGuard w, d := opnd (fD w), a := opnd (fA w), imm := fB w / 8, id := fLo w / 4096 % 2 == 1,
    ia := fLo w / 2048 % 2 == 1, ty := tyOf (fLo w / 8192) }

def rawTri (w : Nat) : Tri :=
  { g := fGuard w, d := opnd (fD w), a := opnd (fA w), b := opnd (fB w), c := opnd (fLo w / 64),
    ty := tyOf (fLo w / 4 % 16), rm := rmOf (fLo w % 4) }

def rawMem (w : Nat) : Mem :=
  { g := fGuard w, d := opnd (fD w), base := opnd (fA w), ofs := fB w / 8, sc := fB w % 8, ty := tyOf (fLo w / 8192),
    scope := fLo w / 256 % 32, pol := fLo w / 16 % 16, qf := fLo w % 16 }

def rawMemA (w : Nat) : MemA :=
  { g := fGuard w, base := opnd (fA w), ofs := fB w / 8, sc := fB w % 8, scope := fLo w / 256 % 32,
    pol := fLo w / 16 % 16, qf := fLo w % 16 }

def rawCmp (w cc : Nat) : CmpF :=
  { g := fGuard w, p := fD w, a := opnd (fA w), b := opnd (fB w), ia := fLo w / 2048 % 2 == 1,
    ib := fLo w / 1024 % 2 == 1, ty := tyOf (fLo w / 8192), cc := cc }

def rawTarget (w : Nat) : Target := if fLo w / 65536 == 1 then .far (fA w - 1536) else .disp (fB w / 8)

def rawEng (w : Nat) : Eng := { g := fGuard w, a := fA w - 1536 }
def rawEngD (w : Nat) : EngD := { g := fGuard w, d := fD w - 1536, a := fA w - 1536 }
def rawEngB (w : Nat) : EngB := { g := fGuard w, a := fA w - 1536, b := fB w - 1536 }

/-- SUB of formats V3, VI, C, W and E. -/
def fSub (w : Nat) : Nat := fLo w % 1024
/-- The rounding code SUB[1:0] and the variant SUB[9:2]. -/
def fRm (w : Nat) : RM := rmOf (fLo w % 4)
def fVar (w : Nat) : Nat := fLo w % 1024 / 4
/-- TY of formats V3 and VI. -/
def fTy (w : Nat) : Ty := tyOf (fLo w / 8192)

/-- Integer and address forms, 0x00 to 0x2F. -/
def rawInt (w opc : Nat) : Option Instr :=
  match opc with
  | 0x00 => some (.add (rawBin w))
  | 0x01 => some (.addi (rawImm w))
  | 0x02 => some (.sub (rawBin w))
  | 0x03 => some (.adds (rawBin w) (fSub w == 1))
  | 0x04 => some (.mul (rawBin w))
  | 0x05 => some (.mulhi (rawBin w))
  | 0x06 => some (.mulw (rawBin w))
  | 0x07 => some (.mad (rawTri w))
  | 0x08 => some (.div (rawBin w))
  | 0x09 => some (.rem (rawBin w))
  | 0x0A => some (.min (rawBin w))
  | 0x0B => some (.max (rawBin w))
  | 0x0C => some (.abs (rawUn w))
  | 0x0D => some (.and (rawBin w))
  | 0x0E => some (.or (rawBin w))
  | 0x0F => some (.xor (rawBin w))
  | 0x10 => some (.not (rawUn w))
  | 0x11 => some (.andi (rawImm w))
  | 0x12 => some (.ori (rawImm w))
  | 0x13 => some (.xori (rawImm w))
  | 0x14 => some (.shl (rawBin w))
  | 0x15 => some (.shr (rawBin w))
  | 0x16 => some (.shli (rawImm w))
  | 0x17 => some (.shri (rawImm w))
  | 0x18 => some (.rot (rawBin w) (fSub w == 1))
  | 0x19 => some (.bfx (rawTri w))
  | 0x1A => some (.bfi (rawTri w))
  | 0x1B => some (.popc (rawUn w))
  | 0x1C => some (.clz (rawUn w))
  | 0x1D => some (.brev (rawUn w))
  | 0x1E => some (.cmp (rawCmp w (fSub w)))
  | 0x1F => some (.cmpi
      { g := fGuard w, p := fD w, a := opnd (fA w), imm := fB w / 8, ia := fLo w / 2048 % 2 == 1,
        ty := fTy w, cc := fSub w })
  | 0x20 => some (.plog { g := fGuard w, p := fD w, pa := fA w, pb := fB w, tt := fSub w })
  | 0x21 => some (.sel
      { g := fGuard w, d := opnd (fD w), a := opnd (fA w), b := opnd (fB w), p := fLo w / 64,
        ty := tyOf (fLo w / 4 % 16) })
  | 0x22 => some (.movi { g := fGuard w, d := opnd (fD w), imm := fB w / 8, id := fLo w / 4096 % 2 == 1, ty := fTy w })
  | 0x23 => some (.lea (rawBin w) (fSub w))
  | 0x24 => some (.ext (rawUn w) (fSub w))
  | 0x25 => some (.bsel (rawBin w))
  | _ => none

/-- Floating point and conversion, 0x30 to 0x57. -/
def rawFloat (w opc : Nat) : Option Instr :=
  match opc with
  | 0x30 => some (.fadd (rawBin w) (fRm w))
  | 0x31 => some (.fsub (rawBin w) (fRm w))
  | 0x32 => some (.fmul (rawBin w) (fRm w))
  | 0x33 => some (.fma (rawTri w))
  | 0x34 => some (.fmin (rawBin w))
  | 0x35 => some (.fmax (rawBin w))
  | 0x36 => some (.fabs (rawUn w))
  | 0x37 => some (.fneg (rawUn w))
  | 0x38 => some (.fdiv (rawBin w) (fRm w))
  | 0x39 => some (.fsqrt (rawUn w) (fRm w))
  | 0x3A => some (.frcp (rawUn w))
  | 0x3B => some (.frsq (rawUn w))
  | 0x3C => some (.fexp2 (rawUn w))
  | 0x3D => some (.flog2 (rawUn w))
  | 0x3E => some (.fcmp (rawCmp w (fVar w)))
  | 0x3F => some (.fclass
      { g := fGuard w, p := fD w, a := opnd (fA w), ia := fLo w / 2048 % 2 == 1, ty := fTy w,
        mask := fVar w })
  | 0x40 => some (.frnd (rawUn w) (fRm w))
  | 0x41 => some (.fdot2 (rawTri w))
  | 0x42 => if fVar w == 1 then some (.fstatClr (rawUn w))
      else some (.fstatRd { g := fGuard w, d := opnd (fD w), id := fLo w / 4096 % 2 == 1 })
  | 0x50 => some (.cvt
      { g := fGuard w, d := opnd (fD w), a := opnd (fA w), id := fLo w / 4096 % 2 == 1,
        ia := fLo w / 2048 % 2 == 1, dty := fTy w, sty := tyOf (fLo w / 64 % 16), sat := fLo w / 8 % 2 == 1,
        hi := fLo w / 4 % 2 == 1, rm := fRm w })
  | 0x51 => some (.cvt2 (rawBin w) (fRm w))
  | 0x52 => some (.qds8 (rawBin w) (fVar w))
  | 0x53 => some (.dqds8 (rawBin w) (fVar w) (fRm w))
  | 0x54 => some (.escale (rawUn w) (fVar w))
  | _ => none

/-- Register store, memory, atomics and control flow, 0x58 to 0x9F. -/
def rawMemCtl (w opc : Nat) : Option Instr :=
  match opc with
  | 0x58 => some (.allot (fGuard w) (fB w / 8))
  | 0x59 => some (.shrink (fGuard w) (fB w / 8))
  | 0x5A => some (.ldw (rawMem w))
  | 0x5B => some (.stw (rawMem w))
  | 0x5C => some (.ldi (fGuard w) (opnd (fD w)) (fA w) (opnd (fB w)) (fTy w))
  | 0x5D => some (.sti (fGuard w) (opnd (fD w)) (fA w) (opnd (fB w)) (fTy w))
  | 0x5E => some (.mov (rawUn w))
  | 0x5F => some (.perm (fGuard w) (fD w) (fA w) (opnd (fB w)))
  | 0x60 => some (.bcast (fGuard w) (opnd (fD w)) (fA w) (opnd (fB w)) (fTy w))
  | 0x61 => some (.shfl (fGuard w) (fD w) (fA w) (opnd (fB w)) (fSub w))
  | 0x62 => some (.vote (fGuard w) (if fSub w == 2 then fD w - 1536 else fD w) (fA w) (fSub w))
  | 0x63 => some (.redux (fGuard w) (fD w - 1536) (fA w) (fVar w) (fTy w) (fRm w))
  | 0x68 => some (.ld (rawMem w))
  | 0x69 => some (.st (rawMem w))
  | 0x6A => some (.stz (rawMemA w))
  | 0x6B => some (.prefetch (rawMemA w))
  | 0x6C => some (.cwb (rawMemA w))
  | 0x6D => some (.ldt (rawMem w))
  | 0x6E => some (.stt (rawMem w))
  | 0x6F => some (.iinv (rawMemA w))
  | 0x70 => some (.ifence (fGuard w))
  | 0x80 => some (.atom (rawMem w))
  | 0x81 => some (.red (rawMem w))
  | 0x82 => some (.fence (fGuard w) (fLo w / 256 % 32))
  | 0x83 => some (.wait (fGuard w) (fB w / 128) (fB w / 8 % 16) (fB w % 8 * 2 + fLo w / 65536) (fLo w / 4096 % 16))
  | 0x84 => some (.rtake (rawMem w))
  | 0x85 => some (.rhead (rawMem w))
  | 0x86 => some (.tlset (rawMem w))
  | 0x87 => some (.tladd (rawMem w))
  | 0x88 => some (.tlwait (rawMem w))
  | 0x90 => some (.br (fGuard w) (rawTarget w))
  | 0x91 => some (.call (fGuard w) (rawTarget w))
  | 0x92 => some (.callInd (fGuard w) (opnd (fA w)))
  | 0x93 => some (.ret (fGuard w))
  | 0x94 => some (.jmpi (fGuard w) (opnd (fA w)))
  | 0x95 => some (.exit (fGuard w))
  | 0x97 => some (.fspawn (fGuard w) (fD w) (rawTarget w))
  | 0x98 => some (.fend (fGuard w))
  | 0x99 => some (.fsort (fGuard w) (fD w) (fA w) (fB w - 1536))
  | 0x9A => some (.bar (fGuard w))
  | 0x9B => some (.barCl (fGuard w))
  | 0x9C => some (.yield (fGuard w))
  | 0x9D => some (.nop (fGuard w))
  | _ => none

/-- Engines, recovery, tasks, mailboxes and system, 0xA0 to 0xCF. -/
def rawSys (w opc : Nat) : Option Instr :=
  match opc with
  | 0xA0 => some (.lfetch (rawEng w))
  | 0xA1 => some (.lcast (rawEng w))
  | 0xA2 => some (.lput (rawEng w))
  | 0xA3 => some (.lcopy (rawEng w))
  | 0xA4 => some (.lpermit (rawEng w))
  | 0xA8 => some (.gmma (rawEng w))
  | 0xA9 => some (.gdrain (rawEng w))
  | 0xAA => some (.gload (rawEng w))
  | 0xAB => some (.gzero (rawEng w))
  | 0xAC => some (.gsave (rawEngB w))
  | 0xAD => some (.gresume (rawEngB w))
  | 0xAE => some (.gstat (rawEngD w))
  | 0xB0 => some (.cload (rawEngB w))
  | 0xB1 => some (.cstore (rawEngB w))
  | 0xB2 => some (.cseed (rawEng w))
  | 0xB3 => some (.ctab (rawEng w))
  | 0xB4 => some (.cinfer (fGuard w) (fD w) (fA w) (fSub w))
  | 0xB5 => some (.cvote (fGuard w) (fD w) (fA w) (fSub w))
  | 0xB6 => some (.ctrain (fGuard w) (fA w) (fB w) (fSub w % 16) (fSub w / 16 % 4) (fSub w / 64 == 1))
  | 0xB7 => some (.cfb (fGuard w) (fA w) (fB w) (fSub w / 8) (fSub w / 2 % 4) (fSub w % 2 == 1))
  | 0xB8 => some (.ensure (fGuard w) (rawTarget w) (fD w - 1536))
  | 0xB9 => some (.accept (fGuard w) (fA w))
  | 0xBA => some (.elseby (fGuard w) (rawTarget w))
  | 0xBB => some (.elseerr (fGuard w))
  | 0xBC => some (.jtest (fGuard w))
  | 0xBD => some (.cjoin (rawEng w))
  | 0xBE => some (.frq (fGuard w) (fD w))
  | 0xC0 => some (.tkpost (rawEng w))
  | 0xC1 => some (.launch (fGuard w) (if fD w == 0 then none else some (fD w - 1536)) (fA w - 1536))
  | 0xC2 => some (.dsync (fGuard w))
  | 0xC3 => some (.await (rawEng w))
  | 0xC4 => some (.rand (rawBin w))
  | 0xC8 => some (.msend (rawEngD w))
  | 0xC9 => some (.mrecv (rawEng w))
  | 0xCA => some (.mpoll (rawEngD w))
  | 0xCB => some (if fSub w == 0 then .pverInc (fGuard w) (fD w - 1536) else .pverRd (fGuard w) (fD w - 1536))
  | 0xCC => some (.trap (fGuard w) (fB w / 8))
  | 0xCD => some (.srd (fGuard w) (fD w - 1536) (fSub w))
  | 0xCE => some (.swr (fGuard w) (fA w - 1536) (fSub w))
  | 0xCF => some (.ctxq (fGuard w) (fD w) (fA w - 1536) (fB w - 1536))
  | _ => none

/-- The instruction a word's opcode and fields name, before any check; none for an unassigned opcode (R36). -/
def raw (w : Nat) : Option Instr :=
  if fOpc w < 0x30 then rawInt w (fOpc w)
  else if fOpc w < 0x58 then rawFloat w (fOpc w)
  else if fOpc w < 0xA0 then rawMemCtl w (fOpc w)
  else rawSys w (fOpc w)

/-- What decoding a word gives (R35): an instruction, an illegal-instruction fault, or a header fault (0xF0 to 0xFF). -/
inductive Decoded
  | ok (i : Instr)
  | illegal
  | header
deriving DecidableEq, Repr

/-- Decode one 64-bit word. -/
def decode (w : Nat) : Decoded :=
  if 0xF0 ≤ fOpc w then .header
  else match raw w with
    | none => .illegal
    | some i => if i.wf && encode i == w then .ok i else .illegal

/-- The 64-bit word of eight bytes, little-endian (R8). -/
def wordOfBytes : List Byte → Nat
  | [] => 0
  | b :: bs => b.toNat + 256 * wordOfBytes bs

/-- The eight bytes of a word, from the lowest address (R8). -/
def bytesOfWord : Nat → Nat → List Byte
  | 0, _ => []
  | n + 1, w => BitVec.ofNat 8 w :: bytesOfWord n (w / 256)

/-- Decode eight bytes of code. -/
def decodeBytes (bs : List Byte) : Decoded := decode (wordOfBytes bs)

/-- The instruction the decoder reads from a word numbered as spec/opcode_table.json numbers it. An instruction is 64 bits;
bits at or above `nbits` are 0. -/
def decodeTableWord (nbits w : Nat) : Option Instr :=
  match decodeBytes (bytesOfWord 8 (w % 2 ^ nbits)) with
  | .ok i => some i
  | _ => none

end Sys2Proof
end

