-- ==== Sys2Proof/Machine/Control.lean ====
section
/-!
DEFINITION. Transfers and headers (R31 to R34, R268), entering a block, ending fibres and blocks (R260, R271), and the forms that
need no collective: br, call, call.ind, ret, jmpi, fspawn, yield and nop (R267 to R271, R275), jtest and frq (R311, R323).
-/
namespace Sys2Proof.Machine

/-! ### Headers (R31) -/

def hdKind (w : Nat) : Nat := w / 2 ^ 56 % 256
def isHeader (w : Nat) : Bool := decide (0xF0 ≤ hdKind w) && decide (hdKind w ≤ 0xF3)
/-- Words of the block. -/
def hdLen (w : Nat) : Nat := bits w 50 6 + 1
def hdLivev (w : Nat) : Nat := bits w 39 11
def hdLives (w : Nat) : Nat := bits w 32 7
/-- The reconvergence header's address. -/
def hdRecon (w at_ : Nat) : Option Nat := if bits w 12 20 = 0 then none else some (unsgn 64 ((at_ : Int) + 8 * sgn 20 (bits w 12 20)))

/-- What the checks of a transfer target give (R268): the header word, a fault, or a page that is not present. -/
inductive Land
  | ok (w : Nat)
  | fault (c : FClass) (det : Nat)
  | absent
  | wait
deriving DecidableEq, Repr

/-- Check a target for a set of header kinds, in the order of R268. -/
def State.land (s : State) (bk core t : Nat) (kinds : List Nat) : Land :=
  if t % 8 ≠ 0 then .fault .hd t
  else match s.fetchWord bk core t with
    | .fault c det => .fault c det
    | .absent => .absent
    | .wait => .wait
    | .word w => if kinds.contains (hdKind w) then .ok w else .fault .hd t

/-- Header kinds allowed for an arrival (R34), by the fibre's code: falling through, launch, alternate dispatch, as `br`; 68 is a
transfer whose target has been checked. -/
def kindsOf (left : Nat) : List Nat :=
  match left with
  | 0 => [0xF0, 0xF2]
  | 65 => [0xF1]
  | 66 => [0xF3]
  | 67 => [0xF0]
  | _ => [0xF0, 0xF1, 0xF2, 0xF3]

/-- The fibre stands at a header it is about to enter. -/
def Fibre.atHeader (f : Fibre) : Bool := decide (f.left = 0) || decide (64 < f.left)

/-- Enter the block at the fibre's header (R32, R34): the core is where it fetches. -/
def State.enterOne (s : State) (fk : Nat) : State :=
  match s.fib fk with
  | none => s
  | some f =>
    let bk := fkBk fk
    let core := (s.group bk (fkG fk)).core
    let w? := s.land bk core f.pc (kindsOf f.left)
    let fault := fun (c : FClass) (det : Nat) =>
      s.takeFault bk { code := c.code, pc := f.pc, det := det, grp := fkG fk, lane := fkL fk }
    match w? with
    | .fault c det => fault c det
    | .wait => s
    | .absent => (s.setStat fk (.page f.pc)).request (s.ctxOf bk) f.pc
    | .ok w =>
      let s := s.fillIcache bk core f.pc
      let rc := hdRecon w f.pc
      let badRecon := rc.any fun a => match s.fetchWord bk core a with
        | .word r => a % 8 ≠ 0 || !(isHeader r)
        | _ => true
      if rc.any fun a => s.fetchWord bk core a == .wait then s
      else if hdLivev w > 1536 || hdLives w > 96 || bits w 0 10 ≠ 0 || badRecon then s.openFault bk fk .hd f.pc
      else if hdLivev w > s.allot bk (fkG fk) then fault .al (hdLivev w - 1)
      else s.putFib fk { f with pc := f.pc + 8, left := hdLen w, stat := .ready, ahead := [], rcv := rc, livev := hdLivev w, lives := hdLives w }

/-! ### Transfers -/

/-- The fibre goes to a checked target. -/
def Fibre.goto (f : Fibre) (t : Nat) : Fibre := { f with pc := t, left := 68, stat := .ready, ahead := [] }

/-- Park a fibre on a fetch (R71, R72). -/
def State.parkFetch (s : State) (fk p : Nat) : State := (s.setStat fk (.page p)).request (s.ctxOf (fkBk fk)) p

/-- A target that is displaced from a PC. -/
def dispTo (pc d : Nat) : Nat := unsgn 64 ((pc : Int) + 8 * sgn 8 d)

/-- Plan the target of a unit: its value and what the checks give; scoreboard and poison of its register come first. -/
def planTarget (s : State) (u : WUnit) (t : Target) (kinds : List Nat) : Plan (Nat × Bool) :=
  let go := fun (x : Nat) => match s.land u.bk (s.group u.bk u.g).core x kinds with
    | .fault c det => .fault c det
    | .wait => .stall
    | .absent => .go (x, false)
    | .ok _ => .go (x, true)
  match t with
  | .disp d => go (dispTo s.ipc d)
  | .far r => if s.busyU u.bk u.g r then .stall
    else if s.upois u.bk u.g r then .fault .pz (1536 + r) else go (s.uraw u.bk u.g r)

/-- Plan an indirect target: a vector pair of the fibre or a uniform register. -/
def planInd (s : State) (u : WUnit) (a : Opnd) (kinds : List Nat) : Plan (Nat × Bool) :=
  match planOperands s u none [⟨a, false, true⟩] [true] with
  | .stall => .stall
  | .fault c det => .fault c det
  | .go (_, rs) =>
    let x := (readSrcs s u [⟨a, false, true⟩] rs).getD 0 0
    match s.land u.bk (s.group u.bk u.g).core x kinds with
    | .fault c det => .fault c det
    | .wait => .stall
    | .absent => .go (x, false)
    | .ok _ => .go (x, true)

/-- Go to a planned target, or park on its page. -/
def gotoOr (s : State) (fk : Nat) (a : Nat × Bool) (f : Fibre → Fibre) : State :=
  if a.2 then s.updFib fk fun x => (f x).goto a.1 else s.parkFetch fk a.1

/-- Call depth of a fibre. -/
def State.depthOf (s : State) (fk : Nat) : Nat :=
  match s.fib fk with
  | some f => f.stack.length
  | none => 0

/-- A call's target with the depth check of R268, which follows the target's own faults. DESIGN CHOICE: at a full stack the AC comes at once where the
target's page is absent (notes/assumptions/37.md). -/
def planCall (s : State) (u : WUnit) (p : Plan (Nat × Bool)) (target : Nat) : Plan (Nat × Bool) :=
  match p with
  | .go a => if s.depthOf u.rep ≥ 68 then .fault .ac target else .go a
  | x => x

/-- br, br.far (R268). -/
def execBr (g : Guard) (t : Target) (s : State) : Host.Outcome State Fault Refusal :=
  .next (runUnits s g (fun s u => planTarget s u t [0xF0]) fun st u a => gotoOr st u.rep a fun f => f)

/-- jmpi (R268). -/
def execJmpi (g : Guard) (a : Opnd) (s : State) : Host.Outcome State Fault Refusal :=
  .next (runUnits s g (fun s u => planInd s u a [0xF0]) fun st u x => gotoOr st u.rep x fun f => f)

/-- The value of a planned target. -/
def Plan.val : Plan (Nat × Bool) → Nat
  | .go a => a.1
  | _ => 0

/-- Push a return pointer: a fifth entry in the core makes the oldest there spill (R266). -/
def pushRet (pc : Nat) (f : Fibre) : Fibre := { f with stack := (pc + 8) :: f.stack, chip := min 4 (f.chip + 1) }

/-- Pop a return pointer: an emptied on-chip part refills the newest spilled entry (R266). -/
def popRet (f : Fibre) : Fibre := { f with stack := f.stack.tail, chip := if f.chip ≤ 1 then min 1 (f.stack.length - 1) else f.chip - 1 }

/-- The spill line that the refill of a `ret` reads: sixteen entries of 8 bytes stand in each, the oldest first. -/
def Fibre.refills (f : Fibre) : Option Nat := if f.chip ≤ 1 ∧ 2 ≤ f.stack.length then some ((f.stack.length - 2) / 16) else none

/-- The `ret` would refill from a line that cannot be corrected. -/
def Fibre.badRefill (f : Fibre) : Bool := f.refills.any fun ln => bit f.spoil ln

/-- call, call.far (R268). -/
def execCall (g : Guard) (t : Target) (s : State) : Host.Outcome State Fault Refusal :=
  .next (runUnits s g (fun s u => let p := planTarget s u t [0xF1]; planCall s u p p.val)
    fun st u a => gotoOr st u.rep a (pushRet s.ipc))

/-- call.ind (R268). -/
def execCallInd (g : Guard) (a : Opnd) (s : State) : Host.Outcome State Fault Refusal :=
  .next (runUnits s g (fun s u => let p := planInd s u a [0xF1]; planCall s u p p.val)
    fun st u x => gotoOr st u.rep x (pushRet s.ipc))

/-- The call depth a fibre had at the innermost `ensure`; 0 outside every frame (R324). -/
def State.depthFloor (s : State) (fk : Nat) : Nat :=
  match s.block? (fkBk fk) with
  | some b => match b.frames with
    | f :: _ => sget 0 f.depths fk
    | [] => 0
  | none => 0

/-- An illegal instruction found when a fibre of an instruction acts; its rule names no detail. -/
def ilFibre (s : State) (fk : Nat) : State := s.openFault (fkBk fk) fk .il s.ipc

/-- A `ret` of the fibre that is no IL reads a spill line that cannot be corrected. -/
def State.badRet (s : State) (fk : Nat) : Bool :=
  !(decide (s.depthOf fk ≤ s.depthFloor fk) && s.depth (fkBk fk) != 0) && (s.fib fk).any Fibre.badRefill

/-- The core logs the uncorrected record of that line (R266, R395): its address and its syndrome are free values, since no rule places the spill area. -/
def State.logSpill (s : State) (fk : Nat) : State :=
  let addr := (Config.openDetail s.free).toNat % Config.dramTop / 128 * 128
  let s' := s.logError (s.group (fkBk fk) (fkG fk)).core 3 10 (some (s.ctxOf (fkBk fk))) addr (Config.openDetail (s.free + 1)).toNat
  { s' with free := s.free + 2 }

/-- ret (R268): inside a frame never below the call depth at `ensure` (R324). The PZ of a bad refill comes before the target's checks, as that of a
poisoned target does; its rule names no detail. -/
def execRet (g : Guard) (s : State) : Host.Outcome State Fault Refusal :=
  let s := ((s.curSorted.filter (guardHolds s g)).filter s.badRet).foldl State.logSpill s
  .next (runUnits s g
    (fun s u => match s.fib u.rep with
      | none => .stall
      | some f => match f.stack with
        | [] => .fault .hd s.ipc
        | t :: _ =>
          if s.depthOf u.rep ≤ s.depthFloor u.rep && s.depth u.bk ≠ 0 then .fault .il openDet
          else if f.badRefill then .fault .pz openDet
          else match s.land u.bk (s.group u.bk u.g).core t [0xF0] with
            | .fault c det => .fault c det
            | .wait => .stall
            | .absent => .go (t, 1)
            | .ok _ => .go (t, 0))
    (fun st u a => if a.2 = 0 then st.updFib u.rep fun f => (popRet f).goto a.1 else st.parkFetch u.rep a.1))

/-! ### Ending and spawning -/

/-- The lane of an `rtake` waits for its block's turn at an ordered ring (R254). -/
def State.ringWaits (s : State) (o : Op) (x : Lane) : Bool :=
  let r := ringOf (s.ringAt x.tgt)
  r.ordered && (s.ownTicket o.bk x.tgt).isNone && match s.block? o.bk with
    | some b => r.ownxt != b.idx
    | none => false

/-- A lane that holds its fibre parked: at a page, for a side-log entry, at an empty granule, at a ring, or in an `mrecv` before its delivery (R72, R73,
R77, R254, R368). An issued lane that would not park is none. -/
def LStat.parked : LStat → Bool
  | .page => true
  | .sideFull => true
  | .granule _ => true
  | .ticket => true
  | _ => false
def State.parkedLane (s : State) (o : Op) (x : Lane) : Bool :=
  x.st.parked || (x.st == .pending && match o.kind with
    | .mrecv => x.val == 0
    | .rtake => s.ringWaits o x
    | _ => o.fe && !(s.fullAt x.tgt))
/-- Discard parked lanes: their accesses are not performed (R271, R318); a save keeps lanes that hold a ticket (R341). -/
def State.discard (s : State) (tickets : Bool) (o : Op) : Op :=
  Op.settleFin { o with lanes := o.lanes.map fun x => if s.parkedLane o x && (tickets || x.st != .ticket) then { x with st := .done } else x }
def State.discardLanes (s : State) (bk : Nat) (tickets : Bool) : State :=
  State.sweep { s with ops := s.ops.map fun o => if o.bk = bk then s.discard tickets o else o }
def State.discardParked (s : State) (bk : Nat) : State := s.discardLanes bk true

/-- The fibres a lane acts for. -/
def Lane.fibres (x : Lane) : List Nat := ((span 0 64).filter fun l => bit x.dl l).map fun l => fkOf (fkBk x.fk) (fkG x.fk) l

/-- The fibres of a lane have ended: an issued access that would park is discarded (R271). -/
def State.orphan (s : State) (x : Lane) : Bool := x.fibres.all fun fk => (s.fib fk).isNone

/-- Discard the lanes of an instruction that park without a fibre. -/
def State.dropOrphans (s : State) (ins : Nat) : State :=
  { s with ops := s.ops.map fun o => if o.ins = ins then
      Op.settleFin { o with lanes := o.lanes.map fun x => if s.orphan x && s.parkedLane o x then { x with st := .done } else x } else o }

/-- Every fibre of a block ends (R271): parked accesses are discarded, issued operations complete. -/
def State.endFibres (s : State) (bk : Nat) : State :=
  ((s.blockFibs bk).foldl State.dropFib s).discardParked bk

/-- The bundle's fibres in the order in which their faults count: by group and then home lane (R332). -/
def State.byGroup (s : State) : List Nat := sortBy id s.cur

/-- Fibres of the bundle whose block has an open frame: `fspawn`, `fend` and `exit` are illegal there (R269). -/
def framed (s : State) : List Nat := s.byGroup.filter fun fk => decide (s.depth (fkBk fk) ≠ 0)

/-- Run one of the three forms: the bundle's fibres inside a frame take IL, the others go on. -/
def runUnframed (s : State) (f : State → State) : State :=
  let bad := framed s
  let s1 := f { s with cur := s.cur.filter fun fk => !(bad.contains fk) }
  bad.foldl (fun st fk => ilFibre st fk) s1

/-- The lowest free home lane of a group (R270). -/
def State.freeLane (s : State) (bk g : Nat) : Option Nat := (span 0 64).find? fun l => (s.fib (fkOf bk g l)).isNone

/-- One fibre's `fspawn` (R270): no register of the new fibre is dead before its first header (R32). -/
def spawnOne (pc d : Nat) (s : State) (fk t : Nat) : State :=
  let bk := fkBk fk
  let g := fkG fk
  let w : Who := { pc := pc, fk := fk }
  let s := match s.freeLane bk g with
    | some l =>
      let x := s.vraw bk g d (fkL fk)
      let s := s.putFib (fkOf bk g l)
        { pc := t, left := 68, preds := 0, stack := [], stat := .ready, ahead := [], posts := 0, last := s.clockOf bk, rcv := none,
          livev := 1536, lives := 96, chip := 0, spoil := 0, recon := [] }
      (s.setV w bk g d l x).setV w bk g d (fkL fk) l
    | none => s.setV w bk g d (fkL fk) 0xFFFFFFFF
  s.advance fk

/-- Free home lanes of a group (R260). -/
def State.freeLanes (s : State) (bk g : Nat) : Nat := ((span 0 64).filter fun l => (s.fib (fkOf bk g l)).isNone).length

/-- fspawn (R270): a fibre for which no home lane is left creates nothing, and its target is not looked at. The fibres of a group name one target, so where
its page is absent none of them creates one, and all that find a lane free park. -/
def execFspawn (g : Guard) (d : Nat) (t : Target) (s : State) : Host.Outcome State Fault Refusal :=
  .next (runUnframed s fun s => runUnits s g
    (fun s u => match planOperands s u (some (.reg (.v d) false false .z32)) [⟨.v d, false, false⟩] [true] with
      | .stall => .stall
      | .fault c det => .fault c det
      | .go _ => if s.busyReg u.bk u.g d then .stall
        else if s.freeLanes u.bk u.g = 0 then .go (0, true)
        else planTarget s u t [0xF1])
    (fun st u a => if a.2 then spawnOne s.ipc d st u.rep a.1 else st.parkFetch u.rep a.1))

/-! ### Other forms -/

/-- nop (R275). -/
def execNop (g : Guard) (s : State) : Host.Outcome State Fault Refusal :=
  .next (runUnits s g (fun _ _ => .go ()) fun st u _ => advanceUnit st u)

/-- yield (R265, R275): its own bundle is demoted. -/
def execYield (g : Guard) (s : State) : Host.Outcome State Fault Refusal :=
  let hold := s.cur.filter (guardHolds s g)
  let now := s.clockAt (s.group (fkBk (hold.headD 0)) (fkG (hold.headD 0))).core
  let s' := runUnits s g (fun _ _ => .go ()) fun st u _ => advanceUnit st u
  .next { s' with bundles := s'.bundles.map fun b =>
    if (hold.any fun fk => b.fibs.contains fk) then { b with demoted := some now, yielded := true } else b }

/-- Instructions that must be unguarded raise IL otherwise; that is a check of the word (R310). jtest (R311). -/
def execJtest (g : Guard) (s : State) : Host.Outcome State Fault Refusal :=
  .next (runUnits s g
    (fun s u => match s.block? u.bk with
      | none => .stall
      | some b => match b.frames with
        | [] => .fault .il openDet
        | f :: _ => match s.land u.bk (s.group u.bk u.g).core f.test [0xF2] with
          | .fault c det => .fault c det
          | .wait => .stall
          | .absent => .go (f.test, false)
          | .ok _ => .go (f.test, true))
    (fun st u a => gotoOr st u.rep a fun f => f))

/-- The word that `frq` reads (R323). -/
def frqWord (b : Block) : Nat :=
  match b.frames with
  | [] => 0
  | f :: _ => f.cause % 16 * 2 ^ 28 + b.frames.length % 16 * 2 ^ 24 + f.k % 16 * 2 ^ 20 + b2n f.conv.isSome * 2 ^ 19

/-- frq (R323). -/
def execFrq (g : Guard) (d : Nat) (s : State) : Host.Outcome State Fault Refusal :=
  .next (runUnits s g
    (fun s u => match planOperands s u (some (.reg (.v d) false false .z32)) [] [] with
      | .stall => .stall
      | .fault c det => .fault c det
      | .go (rd, _) => .go rd)
    (fun st u rd =>
      let v := match st.block? u.bk with
        | some b => frqWord b
        | none => 0
      advanceUnit (writeRes st u s.ipc .z32 false v rd) u))

/-- elseby and elseerr reached in instruction position raise IL (R311). -/
def execElseby (_g : Guard) (_t : Target) (s : State) : Host.Outcome State Fault Refusal :=
  .next (s.byGroup.foldl ilFibre s)
def execElseerr (_g : Guard) (s : State) : Host.Outcome State Fault Refusal :=
  .next (s.byGroup.foldl ilFibre s)

end Sys2Proof.Machine
end

