-- ==== Sys2Proof/Machine/Recovery.lean ====
section
/-!
DEFINITION. Recovery frames (R308 to R325): reading a frame's layout, entering, acceptance and pop, drain, restore, dispatch and
exhaustion; and conversations (R326 to R330).
-/
namespace Sys2Proof.Machine

/-! ### Waiting for operations -/

/-- LD = CP = TL = 0 in every group of the block (R312, R316). -/
def State.quiet (s : State) (bk : Nat) : Bool :=
  s.ops.all fun o => o.bk != bk || o.fin || !(o.cls == .ld || o.cls == .cp || o.cls == .tl)

/-- Every operation of the block is complete and no command of it is under way (R318, R334). -/
def State.drained (s : State) (bk : Nat) : Bool :=
  (s.ops.all fun o => o.bk != bk || o.fin) && s.cmds.all fun c => c.bk != bk || c.stat == .done || c.fill.isSome

/-- The live fibre of lowest group and lane (R349). -/
def State.firstFib (s : State) (bk : Nat) : Nat := (s.blockFibs bk).headD 0

/-! ### Moving fibres -/

def moveKey (m : List (Nat × Nat)) (fk : Nat) : Nat :=
  match m.find? fun p => p.1 == fk with
  | some p => p.2
  | none => fk

def Lane.move (m : List (Nat × Nat)) (x : Lane) : Lane :=
  { x with fk := moveKey m x.fk, dl := if moveKey m x.fk = x.fk then x.dl else 2 ^ fkL (moveKey m x.fk) }
def Op.move (m : List (Nat × Nat)) (o : Op) : Op := { o with lanes := o.lanes.map (Lane.move m) }

/-- A fibre-position record after a move: its values are the fibre's present position and that at `ensure` (R315). -/
def Rec.move (m : List (Nat × Nat)) (r : Rec) : Rec :=
  match r.item with
  | .fpos _ =>
    let c := moveKey m (r.vals.headD 0)
    { r with item := .fpos (fkL c), vals := [c, r.vals.getD 1 0] }
  | _ => r

/-- The group whose area holds a record: that of a fibre's position is in the group where the fibre now stands. -/
def Rec.home (g : Nat) (r : Rec) : Nat :=
  match r.item with
  | .fpos _ => fkG (r.vals.headD 0)
  | _ => g

/-- A record of group `g` under the generation that its frame has in group `h`. -/
def Block.regen (b : Block) (g h : Nat) (r : Rec) : Rec :=
  match b.frames.find? fun f => f.gens.getD g 0 == r.gen with
  | some f => { r with gen := f.gens.getD h 0 }
  | none => r

/-- The groups of a block after a move: the record of a fibre's position goes with the fibre. -/
def Block.moveRecs (m : List (Nat × Nat)) (b : Block) : List Group :=
  let all := (b.groups.mapIdx fun g gr => gr.recs.map fun r => (g, r.move m)).flatten
  b.groups.mapIdx fun h gr => { gr with recs := (all.filter fun x => x.2.home x.1 == h).map fun x => b.regen x.1 h x.2 }

def Frame.move (m : List (Nat × Nat)) (f : Frame) : Frame :=
  { f with depths := f.depths.foldl (fun d p => sput d (moveKey m p.1) p.2) [], heads := f.heads.map fun h => (moveKey m h.1, h.2) }

/-- Move fibres to new positions with their predicates, call stacks and scoreboard state (R272). -/
def State.relabel (s : State) (bk : Nat) (m : List (Nat × Nat)) : State :=
  let moved := m.filterMap fun p => (s.fib p.1).map fun f => (p.2, f)
  let s := m.foldl (fun s p => s.dropFib p.1) s
  let s := moved.foldl (fun s p => s.putFib p.1 p.2) s
  let ops := s.ops.map fun o => if o.bk = bk then o.move m else o
  let cmds := s.cmds.map fun c => { c with fk := moveKey m c.fk }
  let bs := s.bundles.map fun b => { b with fibs := b.fibs.map (moveKey m) }
  let s := { s with ops := ops, cmds := cmds, bundles := bs, cur := s.cur.map (moveKey m) }
  s.updBlock bk fun b => { b with
    frames := b.frames.map (Frame.move m)
    groups := b.moveRecs m }

/-! ### Pop (R317) -/

/-- Records of a group when frame `gen` folds into a parent `pgen`: an item the parent has not saved is retagged; `sh` are the shared
items it has saved in any group. -/
def foldRecs (gen pgen : Nat) (sh : List Item) (rs : List Rec) : List Rec :=
  rs.filterMap fun r =>
    if r.gen = gen then
      if sh.contains r.item || rs.any fun q => q.gen == pgen && q.item == r.item then none else some { r with gen := pgen }
    else some r

/-- The shared items a frame has saved. -/
def sharedItems (gs : List Group) (gens : List Nat) : List Item :=
  (gs.zip gens).flatMap fun x => (x.1.recs.filter fun r => r.gen == x.2 && r.item.shared).map Rec.item

/-- Chunks kept for a frame go back to the free pool; their registers are no longer anyone's. -/
def State.freeHeld (s : State) (bk : Nat) : State :=
  match s.block? bk with
  | none => s
  | some b =>
    let s := (span 0 b.groups.length).foldl (fun s g =>
      { s with rs := (s.group bk g).held.foldl (fun rs h => (span (32 * h.2) 32).foldl (fun rs r => rs.clearReg (rkOf bk g r)) rs) s.rs }) s
    s.updBlock bk fun b => { b with groups := b.groups.map fun g => { g with held := [] } }

/-- A staged write that is to be performed, as an operation under ST of its group (R317). -/
def State.commitOp (s : State) (x : Stg) : State :=
  let kind : OpKind := if x.red.isSome then .red else .put
  let o : Op :=
    { id := s.seq, ins := s.seq, bk := x.bk, g := x.g, core := (s.group x.bk x.g).core, cls := .st, kind := kind, pc := x.pc, d := .v 0, uni := false,
      ty := (x.red.map (·.2)).getD .b32, n := x.n, pol := x.pol, qf := 0, scope := x.scope, aux := (x.red.map (·.1)).getD 0, frame := 0,
      fin := false,
      lanes := [{ fk := x.fk, ptr := x.ptr, tgt := .none, st := .commit, src := x.data, src2 := x.mask, dl := 0, val := 0, wct := 0,
                  wct4 := 0 }] }
  { s with seq := s.seq + 1, ops := s.ops ++ [o] }

/-- Perform a write at a target for an operation's lane and mark the lane done: one that an engine had in the side log may lie in a range of the block's
conversation (R328). -/
def State.performPut (s : State) (o : Op) (k : Nat) (x : Lane) (t : Tgt) : State :=
  let w : Who := { pc := o.pc, fk := x.fk }
  let s := s.touch (s.ctxOf o.bk) t
  if s.linkDown t then s.loseLane o k x
  else match s.logConv o.bk x.ptr o.n (if o.kind = .red then fullMask o.n else x.src2) t with
    | none => (s.noRoom o.bk w).doneLane o.id k fun x => x
    | some s =>
      let s := (if o.n = 128 then s else s.sense (some (s.ctxOf o.bk)) t).effect o.bk
      let s := if o.kind = .red then
          let old := ofNats ((s.overTask o.bk x.fk o.id x.ptr [] ((s.readTgt t o.n).1.map fun b => (b, false))).map (·.1))
          let new := atomNew o.aux o.ty old x.src x.src2
          ((s.gwrite w o.bk o.core false t x.ptr o.n new.1 (fullMask o.n)).orGsw w o.bk o.g new.2).ownView o x x.ptr o.n new.1 (fullMask o.n)
        else (s.gwrite w o.bk o.core (o.pol == 4) t x.ptr o.n x.src x.src2).ownView o x x.ptr o.n x.src x.src2
      let wc := s.wcts o.core (s.scopeFor o.bk o.core o.scope) (o.scope == 0) t
      ((s.wctDrawn t).doneLane o.id k fun x => { x with wct := wc.1, wct4 := wc.2 }).wake

/-- Perform the block's committed writes in order as far as pages are present (R71, R97, R317). -/
def commitList : List Op → State → State
  | [], s => s
  | o :: os, s => match o.lanes with
    | [x] =>
      match s.check (s.ctxOf o.bk) x.ptr o.n 1 .store false with
      | .absent _ => s.request (s.ctxOf o.bk) x.ptr
      | .wait => s
      | .ok t => if s.tgtUp t then commitList os (s.performPut o 0 x t) else s
      | _ => commitList os ((s.reportFault o.bk
          { code := FClass.ac.code, pc := o.pc, det := x.ptr, grp := fkG x.fk, lane := fkL x.fk } 0).doneLane o.id 0 fun x => x)
    | _ => commitList os s

def LStat.isCommit : LStat → Bool
  | .commit => true
  | _ => false
def State.commitRun (s : State) (bk : Nat) : State :=
  (commitList (s.ops.filter fun o => o.bk == bk && o.lanes.any fun x => x.st.isCommit) s).sweep

/-- The innermost frame pops (R317): records fold into the parent or are discarded, staged stores pass to the parent or, at depth 1
of a normal region, are performed in the order they were staged. Chunks stay held while a parent is open. -/
def State.popFrame (s : State) (bk : Nat) : State :=
  match s.block? bk with
  | none => s
  | some b => match b.frames with
    | [] => s
    | f :: rest =>
      let n := rest.length + 1
      let s := s.updBlock bk fun b => { b with
        frames := rest
        groups := b.groups.mapIdx fun g gr => { gr with recs := match rest with
          | [] => []
          | p :: _ => foldRecs (f.gens.getD g 0) (p.gens.getD g 0) (sharedItems b.groups p.gens) gr.recs } }
      let s := { s with mem := { s.mem with stages := s.mem.stages.map fun x => if x.bk = bk ∧ x.depth = n then { x with depth := n - 1 } else x } }
      if n = 1 then
        let s := s.freeHeld bk
        if (s.rcbOf bk).det then s
        else
          let mine := s.mem.stages.filter fun x => x.bk == bk && !x.inh
          let s := { s with mem := { s.mem with stages := s.mem.stages.filter fun x => !(x.bk == bk && !x.inh) } }
          (mine.foldl State.commitOp s).commitRun bk
      else s

/-! ### Restore (R318 steps 3 to 5) -/

def restoreRegs (rk : Nat) (rs : RegSt) (vals : List Nat) (p : Nat) : RegSt :=
  let rs := (vals.zip (span 0 64)).foldl (fun (rs : RegSt) x => rs.putLane rk x.2 x.1) rs
  { rs with vpoison := sset 0 rs.vpoison rk p }

/-- Put back the prior value of one record. -/
def State.restoreRec (s : State) (bk g : Nat) (r : Rec) : State :=
  match r.item with
  | .vreg n => { s with rs := restoreRegs (rkOf bk g n) s.rs r.vals r.poison }
  | .ureg n => { s with rs := s.rs.putU (ukOf bk g n) (r.vals.headD 0) (r.poison == 1) }
  | .preds => (r.vals.zip (span 0 64)).foldl (fun s x =>
      s.updFib (fkOf bk g x.2) fun f => { f with preds := BitVec.ofNat 16 x.1 }) s
  | .gsw => s.updGroup bk g fun gr => { gr with gsw := BitVec.ofNat 32 (r.vals.headD 0) }
  | .allot =>
    let s := s.updGroup bk g fun gr => { gr with chunks := r.vals, held := r.held }
    let kept := r.held.map (·.2)
    { s with rs := ((span r.vals.length (48 - r.vals.length)).filter fun c => !kept.contains c).foldl (fun rs c =>
        { rs with vregs := sdrop rs.vregs (rkOf bk g (32 * c)) 32, vpoison := sdrop rs.vpoison (rkOf bk g (32 * c)) 32,
                  fe := sdrop rs.fe (rkOf bk g (32 * c)) 32 }) s.rs }
  | .fpos _ => s
  | .bank m b => { s with eng := { s.eng with banks := sset none s.eng.banks (s.memberCore bk m * 2 + b) r.bank } }
  | .jasper m => { s with eng := { s.eng with jas := sset none s.eng.jas (s.memberCore bk m) r.jas } }

/-- The moves that a frame's fibre-position records ask for. -/
def State.fposMoves (s : State) (bk ngrp : Nat) (f : Frame) : List (Nat × Nat) :=
  (span 0 ngrp).flatMap fun g => (s.group bk g).recs.filterMap fun r => match r.item with
    | .fpos _ =>
      let p := (r.vals.headD 0, r.vals.getD 1 0)
      if r.gen = f.gens.getD g 0 ∧ p.1 ≠ p.2 then some p else none
    | _ => none

/-- Restore the records of one frame: the fibres return to their places, then every other item to its prior value, newest first. -/
def State.restoreFrame (s : State) (bk ngrp : Nat) (f : Frame) : State :=
  let ours := fun (g : Nat) (r : Rec) => f.gens.getD g 0 == r.gen
  let m := s.fposMoves bk ngrp f
  let s := if m.isEmpty then s else s.relabel bk m
  (span 0 ngrp).foldl (fun s g => ((s.group bk g).recs.filter (ours g)).foldl (fun s r => s.restoreRec bk g r) s) s

/-- Restore the frame at depth `d` and every frame nested in it, the innermost first; nested frames are popped without folding; the failing frame keeps
its records. -/
def State.restoreTo (s : State) (bk d : Nat) : State :=
  match s.block? bk with
  | none => s
  | some b =>
    let n := b.frames.length - d
    let open_ := b.frames.take (n + 1)
    let ours := fun (g : Nat) (r : Rec) => open_.any fun f => f.gens.getD g 0 == r.gen
    let s := open_.foldl (fun s f => s.restoreFrame bk b.groups.length f) s
    let gens := ((b.frames[n]?).map Frame.gens).getD []
    let s := s.updBlock bk fun b => { b with
      frames := b.frames.drop n
      groups := b.groups.mapIdx fun g gr => { gr with recs := gr.recs.filter fun r => !(ours g r) || r.gen == gens.getD g 0 } }
    { s with mem := { s.mem with stages := s.mem.stages.filter fun x => !(x.bk == bk && decide (d ≤ x.depth)) } }

/-- Put back the granules of a conversation's ranges that the attempt logged (R328), oldest value last; a value at home may release waiters (R258). -/
def State.restoreLog (s : State) (bk : Nat) (log : List (Tgt × List Byte)) : State :=
  if log.isEmpty then s else (log.foldr (fun r s => s.writeTgt (s.group bk 0).core false r.1 (byteNats r.2)) s).wake

/-! ### Starting a routine -/

/-- The call stack cut back to the depth recorded at `ensure`. -/
def cutStack (depths : FMap Nat) (fk : Nat) (st : List Nat) : List Nat := st.drop (st.length - sget 0 depths fk)

/-- A fibre as the `ensure` of a frame found it: its call depth, its live counts and its reconvergence header. An entry that came into the core
since then leaves it again, and one that had spilled is refilled. -/
def Frame.rewind (fr : Frame) (fk : Nat) (f : Fibre) : Fibre :=
  let st := cutStack fr.depths fk f.stack
  let h := ((fr.heads.find? fun h => h.1 == fk).map (·.2)).getD (f.livev, f.lives, f.rcv)
  { f with stack := st, chip := min st.length (max 1 (f.chip - (f.stack.length - st.length))), livev := h.1, lives := h.2.1, rcv := h.2.2 }

/-- Every fibre starts at an address with an arrival code, as the innermost `ensure` found it. -/
def State.startAll (s : State) (bk pc left : Nat) : State :=
  match s.block? bk with
  | none => s
  | some b =>
    (s.blockFibs bk).foldl (fun s fk => s.updFib fk fun f =>
      { (match b.frames with
          | fr :: _ => fr.rewind fk f
          | [] => { f with stack := [], chip := 0 }) with pc := pc, left := left, stat := .ready, ahead := [], recon := [] }) s

/-- Change the innermost frame. -/
def State.updTop (s : State) (bk : Nat) (f : Frame → Frame) : State :=
  s.updBlock bk fun b => { b with frames := match b.frames with
    | x :: xs => f x :: xs
    | [] => [] }

/-- When a limit that starts now expires, none for the limit 0: by core clocks for a frame's, by ticks for a conversation's (R313, R329). -/
def armAt (now lim : Nat) : Option Nat := if lim = 0 then none else some (now + lim)

/-- The address of the K-th `elseby` word of a frame. -/
def Frame.elsebyAt (f : Frame) (k : Nat) : Nat := f.acc + 8 * k

/-- The target of the K-th `elseby`: a far target is read from the block's lowest group. -/
def State.altTarget (s : State) (bk : Nat) (f : Frame) (k : Nat) : Nat :=
  match decode (f.alts.getD (k - 1) 0) with
  | .ok (.elseby _ (.disp d)) => dispTo (f.elsebyAt k) d
  | .ok (.elseby _ (.far r)) => s.uraw bk 0 r
  | _ => 0

/-- A resident block's limit starts to count; a block that is not resident keeps what is left (R325). -/
def State.arm (s : State) (bk : Nat) (f : Frame) : Frame :=
  match s.block? bk with
  | some b => if b.st = .resident then { f with dead := armAt (s.clockOf bk) f.lim, left := 0 } else { f with dead := none, left := f.lim }
  | none => f

/-- Start routine `k` of the innermost frame (R318 step 6, R320): routine 0 behind `ensure`, an alternate at its header. -/
def State.startRoutine (s : State) (bk k : Nat) (repl : Bool) : State :=
  match s.block? bk with
  | none => s
  | some b => match b.frames with
    | [] => s
    | f :: _ =>
      let s := s.updTop bk fun f => s.arm bk { f with k := k, repl := repl, rlog := [] }
      let s := if k = 0 then s.startAll bk (f.epc + 8) (f.eleft - 1) else s.startAll bk (s.altTarget bk f k) 66
      s.updBlock bk fun b => { b with mode := .run, clFirst := [], tag := none }

/-- What a frame recorded of its last failure. -/
def Frame.failure (f : Frame) : FaultRec :=
  f.sil.getD { code := f.cause, pc := f.fpc, det := f.fdet, grp := f.floc / 64, lane := f.floc % 64 }

/-- The alternates are exhausted (R319): the frame pops without folding and the parent fails with the same cause, its fibres standing where they stopped
(R390), or the block stops with every fibre at the outermost `ensure`. -/
def State.exhaust (s : State) (bk : Nat) : State :=
  match s.block? bk with
  | none => s
  | some b => match b.frames with
    | [] => s
    | f :: rest =>
      let r := f.failure
      let s := if rest.isEmpty then s.startAll bk f.epc f.eleft else s
      let s := s.updBlock bk fun b => { b with
        frames := rest, clFirst := []
        groups := b.groups.mapIdx fun g gr => { gr with recs := gr.recs.filter fun x => x.gen != f.gens.getD g 0 } }
      match rest with
      | [] => (s.freeHeld bk).startFreeze bk r
      | _ => s.failFrame bk rest.length r

/-! ### Conversations (R326 to R330) -/

def convObj (s : State) (pa : Nat) : Nat := s.mem.homeNum pa 128
def State.putObj (s : State) (pa w : Nat) : State := { s with mem := s.mem.physPut s.noCache pa (natBytes 128 w) }
def cNmem (w : Nat) : Nat := bits w 0 5
def cState (w : Nat) : Nat := bits w 8 2
def cJoined (w : Nat) : Nat := bits w 32 8
def cVotes (w : Nat) : Nat := bits w 48 8
def cRound (w : Nat) : Nat := bits w 64 32
def cVto (w : Nat) : Nat := bits w 256 64
/-- Reserved bits of the object. -/
def cResv (w : Nat) : Bool :=
  bits w 5 3 ≠ 0 || bits w 13 19 ≠ 0 || bits w 40 8 ≠ 0 || bits w 56 8 ≠ 0 || bits w 96 160 ≠ 0 || bits w 320 192 ≠ 0 ||
    (span 0 4).any fun j => bits w (512 + 128 * j + 96) 32 ≠ 0

def Conv.none : Conv := { members := [], ready := [], dead := Option.none, opener := Option.none }
def State.conv (s : State) (pa : Nat) : Conv := (sget Option.none s.hub.convs pa).getD Conv.none
def State.putConv (s : State) (pa : Nat) (c : Conv) : State :=
  { s with hub := { s.hub with convs := sset Option.none s.hub.convs pa (some c) } }
def State.vote (s : State) (bk pa : Nat) (v : Vote) : State := { s with hub := { s.hub with votes := s.hub.votes ++ [(bk, pa, v)] } }
def State.notify (s : State) (l : List Nat) : State := { s with hub := { s.hub with notices := s.hub.notices ++ l } }
def State.unnotify (s : State) (l : List Nat) : State :=
  { s with hub := { s.hub with notices := s.hub.notices.filter fun x => !(l.contains x) } }

/-- The conversational frame of a block. -/
def Block.convFrame (b : Block) : Option Frame := b.frames.find? fun f => f.conv.isSome
def State.convFrame (s : State) (bk : Nat) : Option Frame :=
  match s.block? bk with
  | some b => b.convFrame
  | none => none
/-- VTO starts again (R329). -/
def State.startVto (s : State) (pa : Nat) : State :=
  s.putConv pa { s.conv pa with dead := armAt s.tick (cVto (convObj s pa)) }

/-- A member leaves Voting by popping (R320): its fibres go to the continuation. -/
def State.releasePop (s : State) (bk : Nat) : State :=
  match s.block? bk with
  | none => s
  | some b => match b.frames with
    | [] => s
    | f :: _ =>
      let s := (s.popFrame bk).updBlock bk fun b => { b with mode := .run, clFirst := [] }
      (s.blockFibs bk).foldl (fun s fk => s.updFib fk fun x => { x with pc := f.cont, left := 67, stat := .ready, ahead := [] }) s

/-- A silent error that was replayed leaves no trace (R321); one that was not is the frame's own failure (R329). -/
def Frame.forget (f : Frame) : Frame := { f with sil := none }
def Frame.own (f : Frame) : Frame :=
  match f.sil with
  | some r => f.fails r
  | none => f

/-- A member is released to its next alternate, or to its current routine again. -/
def State.releaseNext (s : State) (replay : Bool) (bk : Nat) : State :=
  match s.block? bk with
  | none => s
  | some b => match b.frames with
    | [] => s
    | f :: _ => if replay then (s.updTop bk Frame.forget).startRoutine bk f.k true else (s.updTop bk Frame.own).startRoutine bk (f.k + 1) false

/-- A release takes effect on a member. -/
def State.freed (s : State) (bk : Nat) : Release → State
  | .pop => s.releasePop bk
  | .next => s.releaseNext false bk
  | .replay => s.releaseNext true bk
  | .abandon => s.exhaust bk

/-- A release reaches a member (R325, R329): a saved one's is held for it, and an abandoned one that has not been restored yet is restored first. -/
def State.release_ (s : State) (r : Release) (bk : Nat) : State :=
  match s.block? bk with
  | none => s
  | some b =>
    if b.st = .frozen ∨ b.st = .retired ∨ b.mode = .freezing then s
    else if b.st ≠ .resident ∨ (r = .abandon ∧ b.mode ≠ .voting) then { s with hub := { s.hub with held := s.hub.held ++ [(bk, r)] } }
    else s.freed bk r

/-- A release held for a member in Voting takes effect. -/
def State.takeHeld (s : State) (bk : Nat) : State :=
  match s.hub.held.find? fun h => h.1 == bk with
  | some h => ({ s with hub := { s.hub with held := s.hub.held.erase h } } : State).freed bk h.2
  | none => s

/-- Members of a conversation are abandoned (R319, R329). Each takes the release's number and its rank among the blocks that it ends: of those of one
launch, the launch record takes the failure of the block whose vote moved the object, else that of the lowest-indexed one, whichever of them ends
first (R390). -/
def State.abandon (s : State) (pa : Nat) : State :=
  let c := s.conv pa
  let id := s.seq
  let s := c.members.foldl (fun (s : State) m => s.updBlock m fun b =>
    { b with tag := some (id, if (c.opener.map (·.1)) = some m then 0 else b.idx + 1) }) { s with seq := id + 1 }
  (c.members.foldl (State.release_ · .abandon ·) s).putConv pa Conv.none

/-- The object moves on a vote or report (R329); the report that ends a conversation is counted in no VOTES (R391). -/
def State.applyVote (s : State) (bk pa : Nat) (v : Vote) : State :=
  let w := convObj s pa
  let c := s.conv pa
  let st := cState w
  match v with
  | .acc =>
    if st ≠ 1 then s
    else if cVotes w + 1 = cNmem w ∧ cJoined w = cNmem w then
      let s := s.putObj pa (setBits (setBits (setBits w 48 8 (cVotes w + 1)) 32 8 0) 8 2 0)
      (c.members.foldl (State.release_ · .pop ·) (s.unnotify c.members)).putConv pa Conv.none
    else s.putObj pa (setBits w 48 8 (cVotes w + 1))
  | .ready =>
    if st ≠ 2 then s
    else
      let noNext : Bool := match s.convFrame bk with
        | some f => decide (f.nalt ≤ f.k)
        | none => true
      let noReplay : Bool := match s.convFrame bk with
        | some f => f.repl
        | none => true
      let w := if noNext then setBits w 10 1 1 else w
      let w := if noReplay then setBits w 12 1 1 else w
      let s := (s.unnotify [bk]).putConv pa { c with ready := c.ready ++ [bk] }
      if cVotes w + 1 < cNmem w then s.putObj pa (setBits w 48 8 (cVotes w + 1))
      else
        let clr := setBits (setBits (setBits w 48 8 0) 11 1 0) 12 1 0
        let again := fun (s : State) => (s.putConv pa { s.conv pa with ready := [], opener := none }).startVto pa
        if bit w 11 && !(bit w 12) then
          let s := again (s.putObj pa (setBits (setBits clr 10 1 0) 8 2 1))
          c.members.foldl (State.release_ · .replay ·) s
        else if !(bit w 10) then
          let s := again (s.putObj pa (setBits (setBits clr 64 32 (cRound w + 1)) 8 2 1))
          c.members.foldl (State.release_ · .next ·) s
        else
          (s.putObj pa (setBits (setBits (setBits (setBits (setBits w 32 8 0) 10 1 0) 11 1 0) 12 1 0) 8 2 0)).abandon pa
  | _ =>
    if st = 1 then
      let s := s.putObj pa (setBits (setBits (setBits w 48 8 0) 11 1 (b2n (v == .replay))) 8 2 2)
      let r := (s.convFrame bk).map fun f => (bk, f.failure)
      (s.putConv pa { c with opener := r, ready := [] }).notify c.members
    else if st = 2 ∧ v = .fail then s.putObj pa (setBits w 11 1 0)
    else s

/-- CONV_VOTE_APPLY (R329, R330): the member's oldest vote or report is applied at the object's home. -/
def execConvVoteApply (uid : Nat) (s : State) : Host.Outcome State Fault Refusal :=
  .next (match s.hub.votes.find? fun v => v.1 == uid with
    | none => s
    | some v =>
      let s := { s with hub := { s.hub with votes := s.hub.votes.erase v } }
      s.applyVote v.1 v.2.1 v.2.2)

/-- The frame at depth `d` fails by a conversation's notice: no vote of its own is sent for it (R329). -/
def State.failByNotice (s : State) (bk d : Nat) : State :=
  match s.block? bk with
  | none => s
  | some b =>
    let n := b.frames.length - d
    let fk := s.firstFib bk
    let pc := match s.fib fk with
      | some f => f.pc
      | none => 0
    let dr := s.draw
    dr.2.updBlock bk fun b => { b with
      mode := .failing, failDepth := d, stopAt := s.clockOf bk
      frames := b.frames.modify n fun f =>
        Frame.fails { code := 15, pc := pc, det := (Config.openDetail dr.1).toNat, grp := fkG fk, lane := fkL fk } { f with dead := none } }

/-- CONV_NOTICE (R325, R329, R330): a failure notice reaches a member; a member that has failed at its conversational frame already, or has
reported, takes no further notice, and for a member that is saved it is held. -/
def execConvNotice (uid : Nat) (s : State) : Host.Outcome State Fault Refusal :=
  .next (if s.hub.notices.contains uid then
    let took : State := { s with hub := { s.hub with notices := s.hub.notices.erase uid } }
    match s.block? uid with
    | none => took
    | some b =>
      if b.mode == .saving || b.st == .saved || b.st == .placing then s else
      let s := took
      let n := b.frames.findIdx fun f => f.conv.isSome
      match b.frames[n]? with
      | none => s
      | some f =>
        let d := b.frames.length - n
        let pa := (f.conv.map (·.2)).getD 0
        let done := (s.conv pa).ready.contains uid || s.hub.votes.any fun v => v.1 == uid && v.2.2 == .ready
        if done || ((b.mode == .failing || b.mode == .replaying) && decide (b.failDepth ≤ d)) || b.mode == .freezing then s
        else s.failByNotice uid d
  else s)

/-- VTO_EXPIRY (R329). -/
def execVtoExpiry (pa : Nat) (s : State) : Host.Outcome State Fault Refusal :=
  .next (match (s.conv pa).dead with
    | none => s
    | some t =>
      if s.tick < t then s
      else
        let s := s.putConv pa { s.conv pa with dead := none }
        let w := convObj s pa
        if cState w = 1 then
          (s.putObj pa (setBits (setBits (setBits w 48 8 0) 11 1 0) 8 2 2)).notify (s.conv pa).members
        else if cState w = 2 ∧ cJoined w < cNmem w then
          (s.putObj pa (setBits (setBits (setBits (setBits (setBits w 32 8 0) 10 1 0) 11 1 0) 12 1 0) 8 2 0)).abandon pa
        else s)

/-! ### Failing and replaying: FRAME_FAIL -/

/-- A frame that has been restored reports to its conversation, dispatches its next alternate, or is exhausted (R318 step 6). -/
def State.afterRestore (s : State) (bk : Nat) : State :=
  match s.block? bk with
  | none => s
  | some b => match b.frames with
    | [] => s
    | f :: _ =>
      match f.conv with
      | some (_, pa) =>
        let s := s.updBlock bk fun b => { b with mode := .voting }
        if s.hub.held.any fun h => h.1 == bk then s.takeHeld bk else s.vote bk pa .ready
      | none => if f.k + 1 ≤ f.nalt then s.startRoutine bk (f.k + 1) false else s.exhaust bk

/-! ### Silent errors (R321, R322) -/

/-- An operation is over without effect. -/
def Op.cancel (o : Op) : Op := Op.settleFin { o with lanes := o.lanes.map fun x => if x.st.isSide then x else { x with st := .done } }

/-- Operations of commands that a save had recorded are over (R334: a cancelled operation counts as complete). -/
def State.dropRecorded (s : State) (b : Block) : State :=
  match b.saved with
  | none => s
  | some v => { s with ops := s.ops.map fun o => if v.cmds.any fun c => c.op == o.id then o.cancel else o }

/-- A recorded fill as a command again: it fetches the part from its source and writes it into block `bk` (R340). Its reads and its reports are
the issuer's, while that block is listed. -/
def State.fillCmd (s : State) (bk core : Nat) (c : Cmd) : Cmd :=
  { c with id := s.seq, bk := if (s.block? c.bk).isSome then c.bk else bk, core := core, stat := .queued, parts := [], prog := [], skip := [],
           dst := [], page := none, fill := some bk }

/-- The fills recorded for a block are under way again, on its cores as they are now. -/
def State.takeFills (s : State) (bk : Nat) : State :=
  match s.block? bk with
  | some b => match b.saved with
    | some v =>
      let s := v.fills.foldl (fun (s : State) x =>
        { s with cmds := s.cmds ++ [s.fillCmd bk (b.cores.getD x.1 0) x.2], seq := s.seq + 1 }) s
      s.updBlock bk fun b => { b with saved := b.saved.map fun v => { v with fills := [] } }
    | none => s
  | none => s

/-- A silent error of a block, met by an instruction of a fibre: the innermost frame's current routine is replayed; in a conversation by a replay vote
(R329); the second one of an attempt fails the frame; outside every frame the block is replayed from its entry while nothing it did is left. A block
that stops to be saved gives the save up. -/
def State.silent (s : State) (bk pc fk : Nat) : State :=
  match s.block? bk with
  | none => s
  | some b =>
    if b.st != .resident || !(b.mode == .run || b.mode == .voting || b.mode == .saving) || s.entering bk then s
    else
      let n := s.named { code := FClass.se.code, pc := pc, det := openDet, grp := fkG fk, lane := fkL fk }
      let s := if b.mode = .saving then ((n.2.dropRecorded b).takeFills bk).updBlock bk fun b => { b with saved := none } else n.2
      let r := n.1
      match b.frames with
      | [] =>
        if b.effects || b.replayed then s.startFreeze bk r
        else s.updBlock bk fun b => { b with mode := .replaying, failDepth := 0, stopAt := s.clockOf bk, replayed := true }
      | f :: _ =>
        if f.repl then s.failFrame bk b.frames.length r
        else match f.conv with
          | none => (s.updTop bk fun f => { f with dead := none }).updBlock bk fun b =>
              { b with mode := .replaying, failDepth := b.frames.length, stopAt := s.clockOf bk }
          | some (_, pa) => ((s.vote bk pa .replay).updTop bk fun f =>
              { f with sil := some r, dead := none })
                |>.updBlock bk fun b => { b with mode := .failing, failDepth := b.frames.length, stopAt := s.clockOf bk }

/-! ### Entering a frame: ensure (R309, R312) -/

/-- A frame's layout as `ensure` reads it. -/
inductive Layout
  | ok (acc cont : Nat) (alts : List Nat)
  | fault (c : FClass) (det : Nat) (named : Bool)
  | absent (p : Nat)
  | wait
deriving DecidableEq, Repr

/-- Fetch `n` words from an address. -/
def State.fetchList (s : State) (bk core p : Nat) : Nat → Except Layout (List Nat)
  | 0 => .ok []
  | n + 1 => match s.fetchWord bk core p with
    | .fault c det => .error (.fault c det true)
    | .absent => .error (.absent p)
    | .wait => .error .wait
    | .word w => match s.fetchList bk core (p + 8) n with
      | .ok ws => .ok (w :: ws)
      | .error e => .error e

/-- `accept`, then `elseby` words, then one `elseerr`, at the end of a block's words (R309). -/
def listOf (ws : List Nat) : Option (Nat × List Nat) :=
  let rev := ws.reverse
  let isE := fun (w : Nat) => match decode w with
    | .ok (.elseby _ _) => true
    | _ => false
  match rev with
  | [] => none
  | e :: rest =>
    let alts := (rest.takeWhile isE).reverse
    match decode e, rest.drop alts.length with
    | .ok (.elseerr _), a :: _ => match decode a with
      | .ok (.accept _ _) => if alts.length ≤ 15 then some (ws.length - 2 - alts.length, alts) else none
      | _ => none
    | _, _ => none

/-- Read and check a frame's test entry (R309): kind and RECONV give HD, the list IL. -/
def State.layout (s : State) (bk core t : Nat) : Layout :=
  match s.land bk core t [0xF2] with
  | .fault c det => .fault c det true
  | .absent => .absent t
  | .wait => .wait
  | .ok w =>
    match hdRecon w t with
    | none => .fault .hd 0 false
    | some rc => match s.fetchList bk core (t + 8) (hdLen w) with
      | .error e => e
      | .ok ws => match listOf ws with
        | none => .fault .il 0 false
        | some (i, alts) => .ok (t + 8 + 8 * i) rc alts

/-- Raise the fault of a completed collective: it belongs to the fibre of lowest group and lane. -/
def State.collFault (s : State) (bk pc : Nat) (c : FClass) (det : Nat) (named : Bool) : State :=
  let fk := s.firstFib bk
  let s := s.updBlock bk fun b => { b with clFirst := [] }
  if named then s.raiseFault bk { code := c.code, pc := pc, det := det, grp := fkG fk, lane := fkL fk }
  else
    let d := s.draw
    d.2.raiseFault bk { code := c.code, pc := pc, det := (Config.openDetail d.1).toNat, grp := fkG fk, lane := fkL fk }

/-- The next generation of a group; when it wraps every tag is cleared (R314). -/
def Group.nextGen (g : Group) : Group :=
  if g.gen + 1 = 65536 then { g with gen := 0, recs := g.recs.map fun r => { r with tagged := false } } else { g with gen := g.gen + 1 }

/-- `ensure` once every live fibre has arrived (R312). -/
def State.finishEnsure (s : State) (bk pc : Nat) (t : Target) (d : Nat) : State :=
  match s.block? bk with
  | none => s
  | some b =>
    let core := (s.group bk 0).core
    if b.frames.length = 8 then s.collFault bk pc .il pc true
    else if s.busyU bk 0 d || (match t with | .far r => s.busyU bk 0 r | .disp _ => false) then s
    else if (match t with | .far r => s.upois bk 0 r | .disp _ => false) then
      s.collFault bk pc .pz (1536 + match t with | .far r => r | .disp _ => 0) true
    else if s.upois bk 0 d then s.collFault bk pc .pz (1536 + d) true
    else
      let tgt := match t with
        | .disp x => dispTo pc x
        | .far r => s.uraw bk 0 r
      match s.layout bk core tgt with
      | .fault c det named => s.collFault bk pc c det named
      | .absent p => s.request (s.ctxOf bk) p
      | .wait => s
      | .ok acc cont alts =>
        if !(s.quiet bk) then s
        else
          let lim := s.uraw bk 0 d % 2 ^ 32
          let depths := (s.blockFibs bk).foldl (fun m fk => sput m fk (s.depthOf fk)) []
          let heads := (s.blockFibs bk).filterMap fun fk => (s.fib fk).map fun f => (fk, f.livev, f.lives, f.rcv)
          let left := match s.fib (s.firstFib bk) with
            | some f => f.left
            | none => 0
          let s := s.updBlock bk fun b =>
            let gs := b.groups.map Group.nextGen
            { b with
              groups := gs, clFirst := []
              frames := { test := tgt, lim := lim, k := 0, nalt := alts.length, gens := gs.map Group.gen, repl := false, cause := 0, sil := none,
                          conv := none, depths := depths, heads := heads, dead := armAt (s.clockOf bk) lim, left := 0, fpc := 0, fdet := 0, floc := 0,
                          epc := pc, eleft := left, acc := acc, cont := cont, alts := alts, rlog := [] } :: b.frames }
          (s.blockFibs bk).foldl State.advance s

/-- `accept` once every live fibre has arrived (R316). -/
def State.finishAccept (s : State) (bk pc p : Nat) : State :=
  match s.block? bk with
  | none => s
  | some b => match b.frames with
    | [] => s.collFault bk pc .il pc true
    | f :: _ =>
      if f.acc ≠ pc then s.collFault bk pc .il pc true
      else if !(s.quiet bk) then s
      else
        let fs := s.blockFibs bk
        let ok := fs.all fun fk => match s.fib fk with
          | some x => x.pred p
          | none => true
        let fk := s.firstFib bk
        let clear := fun (s : State) => s.updBlock bk fun b => { b with clFirst := [] }
        if !ok then
          let d := s.draw
          (clear d.2).failFrame bk b.frames.length
            { code := 0, pc := pc, det := (Config.openDetail d.1).toNat, grp := fkG fk, lane := fkL fk }
        else match f.conv with
          | some (_, pa) =>
            let rem := match f.dead with
              | some t => t - s.clockOf bk
              | none => 0
            ((clear s).vote bk pa .acc).updTop bk (fun f => { f with dead := none, left := rem })
              |>.updBlock bk fun b => { b with mode := .voting }
          | none => match s.land bk (s.group bk 0).core f.cont [0xF0] with
            | .fault c det => s.collFault bk pc c det true
            | .absent => s.request (s.ctxOf bk) f.cont
            | .wait => s
            | .ok _ => fs.foldl (fun s fk => s.updFib fk fun x => x.goto f.cont) ((clear s).popFrame bk)

/-- `cjoin` once every live fibre has arrived (R327). -/
def State.finishCjoin (s : State) (bk pc a : Nat) : State :=
  match s.block? bk with
  | none => s
  | some b => match b.frames with
    | [] => s.collFault bk pc .il pc true
    | f :: outer =>
      let pass := fun (s : State) => (s.blockFibs bk).foldl State.advance (s.updBlock bk fun b => { b with clFirst := [] })
      if outer.any fun x => x.conv.isSome then s.collFault bk pc .il pc true
      else if s.busyU bk 0 a then s
      else if s.upois bk 0 a then s.collFault bk pc .pz (1536 + a) true
      else
        let p := s.uraw bk 0 a
        if f.conv.map (·.1) = some p then pass s
        else if f.conv.isSome then s.collFault bk pc .il pc true
        else match s.check (s.ctxOf bk) p 128 128 .atom false with
          | .fault c det => s.collFault bk pc c det true
          | .absent _ => s.request (s.ctxOf bk) p
          | .wait => s
          | .ok (.mem pa mt) =>
            let w := convObj s pa
            if mt > 1 ∨ cResv w ∨ cNmem w < 2 ∨ 16 < cNmem w ∨ cState w = 3 ∨ cJoined w = cNmem w then s.collFault bk pc .ac p true
            else
              let s := if cState w = 0 then
                  ((s.putObj pa (setBits (setBits (setBits (setBits w 64 32 0) 48 8 0) 32 8 1) 8 2 1)).putConv pa
                    { Conv.none with members := [bk] }).startVto pa
                else
                  (s.putObj pa (setBits w 32 8 (cJoined w + 1))).putConv pa { s.conv pa with members := (s.conv pa).members ++ [bk] }
              let s := if cState w = 2 then s.notify [bk] else s
              pass (s.updTop bk fun f => { f with conv := some (p, pa) })
          | _ => s.collFault bk pc .ac p true

end Sys2Proof.Machine
end

