-- ==== Sys2Proof/Machine/Fold.lean ====
section
/-!
DEFINITION. Staging of tasks: folding a child's staged writes into its parent, and the merge at grid end (R298 to R300).
-/
namespace Sys2Proof.Machine

/-- Lexicographic order of task ids; a shorter path that begins a longer one comes first (R293). -/
def pathLe : List Nat → List Nat → Bool
  | [], _ => true
  | _ :: _, [] => false
  | a :: as, b :: bs => decide (a < b) || (a == b && pathLe as bs)

/-- Insert an element before the first greater one. -/
def insertPath {α : Type} (path : α → List Nat) (x : α) : List α → List α
  | [] => [x]
  | y :: ys => if pathLe (path y) (path x) then y :: insertPath path x ys else x :: y :: ys
def sortPath {α : Type} (path : α → List Nat) : List α → List α
  | [] => []
  | x :: xs => (sortPath path xs).foldl (fun acc y => insertPath path y acc) [x]

/-- The 16-byte granules a staged write touches, by va. -/
def Stg.granules (x : Stg) : List Nat :=
  let va := x.ptr % 2 ^ 56
  (span (va / 16) ((va + x.n + 15) / 16 - va / 16)).filter fun j =>
    (span 0 x.n).any fun i => bit x.mask i && (va + i) / 16 == j

/-- The writes a block itself staged (R298 leaves out those it only sees). -/
def State.ownStages (s : State) (bk : Nat) : List Stg := s.mem.stages.filter fun x => x.bk == bk && !x.inh

/-- Without the bytes of some granules. -/
def Stg.without (js : List Nat) (x : Stg) : Stg :=
  { x with mask := (span 0 x.n).foldl (fun m i =>
      if bit m i && js.contains ((x.ptr % 2 ^ 56 + i) / 16) then m - 2 ^ i else m) x.mask }

/-- The granules that a write of group `i` has in common with a write of a lower id, so that it conflicts there (R250, R299, R300): a plain write
with a plain one of an earlier group that no fold has taken in before, a plain write and a reduction outside a RED range also where they come
from two tasks of one group. -/
def lostOf (inRed : Nat → Bool) (groups : List (List Stg)) (i : Nat) (x : Stg) : List Nat :=
  let common := fun (y : Stg) => x.granules.filter fun j => y.granules.contains j
  let mixed := fun (y : Stg) => x.red.isSome != y.red.isSome
  if inRed x.ptr then []
  else ((groups.take i).flatten.flatMap fun y =>
      if mixed y || (x.red.isNone && y.red.isNone && !x.old && !y.old) then common y else []) ++
    (groups.getD i []).flatMap fun y => if mixed y && y.orig != x.orig && pathLe y.orig x.orig then common y else []

/-- The pseudo-owner that keeps the staging of an ended child launch of a deterministic region until its parent folds it. -/
def launchOwner (lid : Nat) : Nat := 2 ^ 48 + lid

/-- The staging owner of a child. -/
def Kid.owner (k : Kid) : Nat := if k.isLaunch then launchOwner k.ref else k.ref

/-- A child's writes as a fold takes them in. -/
def State.kidStages (s : State) (k : Kid) : List Stg := (s.ownStages k.owner).map fun x => { x with old := false }
def Kid.fold (k : Kid) : Kid := { k with folded := true }

/-- A child is complete (R292, R305). -/
def State.kidDone (s : State) (k : Kid) : Bool :=
  if k.isLaunch then (s.launch? k.ref).isNone
  else match s.block? k.ref with
    | some b => match b.task with
      | some t => t.done
      | none => true
    | none => true

/-- Fold the staging of completed children into a task's own, in child-index order; none on a conflict (R299). The task's own writes
since its last fold take part in the check; a reduction and a plain write conflict whenever they were made. -/
def State.fold (s : State) (bk : Nat) : Option State :=
  match s.block? bk with
  | none => some s
  | some b =>
    let red := fun (p : Nat) => (s.redRange bk p).isSome
    let kids := sortBy Kid.idx (b.kids.filter fun k => !k.folded)
    let groups := s.ownStages bk :: kids.map s.kidStages
    let bad := (span 0 groups.length).any fun i => (groups.getD i []).any fun x => !(lostOf red groups i x).isEmpty
    if bad then none
    else
      let d := s.depth bk
      let new := (groups.tail).flatten.map fun x => { x with bk := bk, depth := d, old := true }
      let kept := (s.mem.stages.filter fun x => !(kids.any fun k => k.owner == x.bk)).map fun x =>
        if x.bk = bk ∧ !x.inh then { x with old := true } else x
      let s := { s with mem := { s.mem with stages := kept ++ new } }
      some (s.updBlock bk fun b => { b with kids := b.kids.map Kid.fold })

/-! ### The merge at grid end -/

/-- A write the merge performs: the staged write, the operation that issued it being long complete. -/
inductive Merge
  | done (s : State)
  | wait (s : State)

/-- Contributions of one task to one place inside a RED range combine in order, each with the sum so far; elsewhere each contribution is
applied by itself (R250, R300). -/
def totalsFrom (inRed : Nat → Bool) (x : Stg) : List Stg → List Stg
  | [] => [x]
  | y :: ys => match x.red with
    | some (op, ty) =>
      if inRed x.ptr ∧ y.ptr = x.ptr ∧ y.orig = x.orig ∧ y.red = x.red then
        totalsFrom inRed { x with data := (atomNew op ty x.data y.data 0).1 } ys
      else x :: totalsFrom inRed y ys
    | none => x :: totalsFrom inRed y ys
def totals (inRed : Nat → Bool) : List Stg → List Stg
  | [] => []
  | x :: xs => totalsFrom inRed x xs

/-- The reductions of a list, brought together by place and task, in task-id order. DESIGN CHOICE: those of one task come fibre by
fibre, in ascending group and lane, each fibre's in program order, so that they are the same on every run (R301; notes/assumptions/63.md). -/
def redList (xs : List Stg) : List Stg :=
  sortPath Stg.orig (sortBy (fun x => x.ptr % 2 ^ 56) (sortBy (fun x => x.fk % 8192) (xs.filter fun x => x.red.isSome)))

/-- A launch keeps the first fault recorded for it (R302). -/
def State.launchFault (s : State) (lid idx : Nat) (r : FaultRec) : State :=
  s.updLaunch lid fun l => if l.fault.isNone then { l with fault := some r, fblock := idx } else l

/-- Path of a root block: its index, behind the path of the child launch it belongs to (R293, R305). -/
def State.rootPath (s : State) (l : Launch) (idx : Nat) : List Nat :=
  match l.owner with
  | none => [idx]
  | some o => match s.block? o with
    | some b => if (s.rcbOf o).det then
        (b.path ++ ((b.kids.filter fun k => k.isLaunch && k.ref == l.lid).map Kid.idx)) ++ [idx] else [idx]
    | none => [idx]

/-- The block index that a launch records for a staged write: of the block that made it, or of the launch's block that folded it. -/
def State.writerIdx (s : State) (lid : Nat) (x : Stg) : Nat :=
  match s.block? (fkBk x.fk), s.launch? lid with
  | some b, some l => if b.lid = lid then b.idx else (x.orig.drop ((s.rootPath l 0).length - 1)).headD 0
  | _, some l => (x.orig.drop ((s.rootPath l 0).length - 1)).headD 0
  | _, none => 0

/-- Perform one merged write (R71): a page that is not present makes the merge wait; a failing check reports AC against the staging
store's PC and discards the write, and so does a link that is down (R375). -/
def State.mergeOne (s : State) (lid c : Nat) (x : Stg) : Merge :=
  let lost : State := s.launchFault lid (s.writerIdx lid x)
    { code := FClass.ac.code, pc := x.pc, det := x.ptr, grp := fkG x.fk, lane := fkL x.fk }
  match s.check c x.ptr x.n 1 .store false with
  | .absent _ => if s.barred c x.ptr then .done lost else .wait (s.request c x.ptr)
  | .wait => .wait s
  | .ok t =>
    if !(s.tgtUp t) then .wait s
    else if s.linkDown t then .done lost
    else
      let s := s.touch c t
      let s := if x.n = 128 ∧ x.mask = fullMask 128 then s else s.sense (some c) t
      match x.red with
      | some (op, ty) =>
        let old := ofNats (s.readTgt t x.n).1
        .done (s.writeTgt Config.cores false t (natBytes x.n (atomNew op ty old x.data 0).1)).wake
      | none => .done (s.writeMasked { pc := x.pc, fk := x.fk } Config.cores false t x.n x.data x.mask).wake
  | _ => .done lost

/-- Perform merged writes in order, each leaving the list as it is performed. -/
def mergeList (lid c : Nat) : List Stg → State → Merge
  | [], s => .done s
  | x :: xs, s => match s.mergeOne lid c x with
    | .done s => mergeList lid c xs { s with mem := { s.mem with stages := s.mem.stages.erase x } }
    | .wait s => .wait s

/-- The writes to merge: the plain writes block by block, then the reductions, each without its granules that a write of a lower id conflicts with
(R299); and the first write that lost one. -/
def mergePlan (inRed : Nat → Bool) (groups : List (List Stg)) : List Stg × Option Stg :=
  let groups := groups.map fun l => l.map fun x => { x with old := false }
  let idx := span 0 groups.length
  let lost := lostOf inRed groups
  let keep := (idx.flatMap fun i => (groups.getD i []).map fun x => x.without (lost i x)).filter fun x => x.mask != 0
  let first := (idx.flatMap fun i => (groups.getD i []).filter fun x => !(lost i x).isEmpty).head?
  ((keep.filter fun x => x.red.isNone) ++ totals inRed (redList keep), first)

end Sys2Proof.Machine
end

