-- ==== Sys2Proof/Machine/Lane.lean ====
section
/-!
DEFINITION. The register store's own instructions: `allot` and `shrink` (R106 to R109), `ldi` and `sti` (R121, R122), `mov`
(R123), and the cross-lane forms `perm`, `bcast` and `shfl` (R124, R125).
-/
namespace Sys2Proof.Machine

/-! ### allot and shrink -/

/-- The fibres that wait for a grant on a core, oldest first: request number, fibre, chunks. A block that does not run has none queued: a saved
one asks again at its restore (R341). -/
def State.requests (s : State) (core : Nat) : List (Nat × Nat × Nat) :=
  sortBy (·.1) (s.rs.fibres.filterMap fun p => match p.2 with
    | some f => match f.stat with
      | .allot m sq => if (s.group (fkBk p.1) (fkG p.1)).core = core ∧ s.running (fkBk p.1) then some (sq, p.1, m) else none
      | _ => none
    | none => none)

/-- HeldAbove(g, m) (R107). -/
def Group.heldAbove (g : Group) (m : Nat) : List (Nat × Nat) := g.held.filter fun h => decide (h.2 < m)

/-- Chunks that a grant takes from the free pool. -/
def Group.need (g : Group) (m : Nat) : Nat := m - g.chunks.length - (g.heldAbove m).length

/-- The chunk map after a grant of `m` chunks: each window chunk above the old allotment is the held one, else the next free. -/
def growMap (held : List (Nat × Nat)) : List Nat → List Nat → List Nat
  | [], _ => []
  | c :: cs, free => match held.find? fun h => h.2 == c with
    | some h => h.1 :: growMap held cs free
    | none => free.headD 0 :: growMap held cs free.tail

/-- Set the allotment to `m` chunks (R107): the entering registers are zero, empty and unmarked; inside a frame the count and the
contents of held registers are first written here (R109). None when a record finds no room. -/
def State.grow (s : State) (bk g m : Nat) : Option State :=
  let gr := s.group bk g
  let cur := gr.chunks.length
  let back := gr.heldAbove m
  match s.record bk g .allot with
  | none => none
  | some s =>
    match s.recordRegs bk g ((sortBy id (back.map (·.2))).flatMap fun c => span (32 * c) 32) with
    | none => none
    | some s =>
      let new := growMap back (span cur (m - cur)) (s.pickChunks gr.core (gr.need m))
      let s := s.updGroup bk g fun gr =>
        { gr with chunks := gr.chunks ++ new, held := gr.held.filter fun h => decide (m ≤ h.2) }
      some { s with rs := (span (32 * cur) (32 * (m - cur))).foldl (fun rs r => rs.clearReg (rkOf bk g r)) s.rs }

/-- One fibre at `allot` (R107). -/
def allotOne (m : Nat) (s : State) (fk : Nat) : State :=
  let bk := fkBk fk
  let g := fkG fk
  let gr := s.group bk g
  let al : State := s.takeFault bk { code := FClass.al.code, pc := s.ipc, det := 32 * m - 1, grp := g, lane := fkL fk }
  if m ≤ gr.chunks.length then s.advance fk
  else if 32 * m > 4 * (s.rcbOf bk).rsbud then al
  else if m - gr.chunks.length > Config.chunksPerCore - s.dcChunks gr.core - s.reserveChunks gr.core then al
  else if (s.requests gr.core).isEmpty && decide (gr.need m ≤ s.freeCount gr.core) then
    match s.grow bk g m with
    | some s => s.advance fk
    | none => s.noRoom bk { pc := s.ipc, fk := fk }
  else { s.setStat fk (.allot m s.seq) with seq := s.seq + 1 }

/-- Run an instruction that each guard-holding fibre executes in turn, in ascending home lane. -/
def runEach (s : State) (g : Guard) (f : State → Nat → State) : State :=
  runUnits s g (fun _ _ => .go ()) fun s u _ => f s u.rep

/-- allot (R107). -/
def execAllot (g : Guard) (m : Nat) (s : State) : Host.Outcome State Fault Refusal := .next (runEach s g (allotOne m))

/-- The fibres parked at `allot` in a group whose request the allotment now covers go on. -/
def State.allotServed (s : State) (bk g : Nat) : State :=
  (s.groupFibs bk g).foldl (fun s fk => match s.fib fk with
    | some f => match f.stat with
      | .allot m _ => if m ≤ (s.group bk g).chunks.length then s.advance fk else s
      | _ => s
    | none => s) s

/-- ALLOT_GRANT (R107): the core's oldest request is granted once the free chunks suffice; the fibres of its group that parked behind it go on
with it where the allotment now covers what they ask for. -/
def execAllotGrant (core : Nat) (s : State) : Host.Outcome State Fault Refusal :=
  .next (match s.requests core with
    | [] => s
    | (_, fk, m) :: _ =>
      let bk := fkBk fk
      let g := fkG fk
      let gr := s.group bk g
      if m ≤ gr.chunks.length then s.allotServed bk g
      else if gr.need m ≤ s.freeCount core then
        match s.grow bk g m with
        | some s => s.allotServed bk g
        | none => s.noRoom bk { pc := match s.fib fk with | some f => f.pc | none => 0, fk := fk }
      else s)

/-- Where a Ladle command delivers (R92, R95, R99): its ring, the address of its completion granule, its receiving cores, and the group of the receiving
block in whose window a part is written. -/
def ldRing (d : Nat) : Nat := bits d 368 8
def ldCgran (d : Nat) : Nat := bits d 384 32
def ldMcast (d : Nat) : Nat := bits d 320 48
def ldMcq (d : Nat) : Nat := bits d 429 2
def ldCores (kind : CmdKind) (core d : Nat) : List Nat :=
  if kind = .lcast then ((span 0 48).filter fun i => bit (ldMcast d) i).map fun i => 48 * ldMcq d + i else [core]
def State.ldGroup (s : State) (kind : CmdKind) (rb core g : Nat) : Nat :=
  if kind ≠ .lcast then g
  else match s.block? rb with
    | some b => if b.cores.length ≤ 1 then g else s.memberOf rb core * b.perCore + g % b.perCore
    | none => g

/-- A delivery to a group of its own block still has to fill its completion granule, at or above window chunk `m` of that group: one that needs no
permit, or that has begun there. -/
def State.cgranAbove (s : State) (c : Cmd) (m : Nat) : Bool :=
  let d := c.desc.toNat
  (c.kind == .lfetch || c.kind == .lcast) && ldCgran d != 0 && decide (8192 * m < ldCgran d % 2 ^ 19 + 16) &&
    (ldCores c.kind c.core d).any fun k => !(c.parts.contains k) && (ldRing d == 255 || sget 0 c.prog (1024 + k) == c.bk + 1) &&
      s.ldGroup c.kind c.bk k (winGrp (ldCgran d)) == c.g

/-- An outstanding LD, CP or TL operation of the group, or an `ldw`, has a destination at or above window chunk `m` (R108): a register, a delivery
of the Ladle or the Griddle, its completion granule among them, or the header of an `mrecv`. -/
def State.owedAbove (s : State) (bk g m : Nat) : Bool :=
  (s.ops.any fun o => o.bk == bk && o.kind.writes && (match o.d with
      | .v n => decide (32 * m < n + o.width)
      | _ => false) && o.lanes.any fun x => fkG x.fk == g && !x.st.isDone) ||
  (s.ops.any fun o => o.bk == bk && o.g == g && o.kind == .mrecv && o.lanes.any fun x => !x.st.isDone &&
    winGrp (bits x.src 96 32) == g && decide (8192 * m < winOff (bits x.src 96 32) + 64)) ||
  (s.cmds.any fun c => c.bk == bk && c.g == g && c.stat != .done &&
    (s.cgranAbove c m || c.dst.any fun d => decide (8192 * m < d.1 + d.2)))

/-- Release the window chunks from `m` to below `top` that a `shrink` holds; inside a frame they stay held (R109). -/
def State.release (s : State) (bk g m top : Nat) : State :=
  if s.depth bk ≠ 0 then s
  else
    let mine := fun (h : Nat × Nat) => decide (m ≤ h.2) && decide (h.2 < top)
    let out := (s.group bk g).held.filter mine
    let s := s.updGroup bk g fun gr => { gr with held := gr.held.filter fun h => !(mine h) }
    { s with rs := out.foldl (fun rs h => (span (32 * h.2) 32).foldl (fun rs r => rs.clearReg (rkOf bk g r)) rs) s.rs }

/-- One fibre at `shrink` (R108): it holds the chunks that it takes from the allotment until nothing is owed to its range. -/
def shrinkOne (m : Nat) (s : State) (fk : Nat) : State :=
  let bk := fkBk fk
  let g := fkG fk
  let gr := s.group bk g
  match (if gr.chunks.length ≤ m then some s else (s.record bk g .allot).map fun s =>
      s.updGroup bk g fun gr => { gr with
        chunks := gr.chunks.take m
        held := gr.held ++ (gr.chunks.drop m).mapIdx fun i c => (c, m + i) }) with
  | none => s.noRoom bk { pc := s.ipc, fk := fk }
  | some s => if s.owedAbove bk g m then s.setStat fk (.shrink m gr.chunks.length) else (s.release bk g m gr.chunks.length).advance fk

/-- shrink (R108). -/
def execShrink (g : Guard) (m : Nat) (s : State) : Host.Outcome State Fault Refusal := .next (runEach s g (shrinkOne m))

/-- SHRINK_RELEASE (R108): the stalled `shrink` of a group ends once nothing is owed to its range. -/
def execShrinkRelease (uid grp : Nat) (s : State) : Host.Outcome State Fault Refusal :=
  .next ((s.groupFibs uid grp).foldl (fun s fk => match s.fib fk with
    | some f => match f.stat with
      | .shrink m top => if s.owedAbove uid grp m then s else (s.release uid grp m top).advance fk
      | _ => s
    | none => s) s)

/-! ### ldi and sti (R122) -/

/-- The byte offset of an element, or the register that faults. -/
def elemAt (allot a size i : Nat) : Except Nat Nat :=
  let off := 256 * a + size * i
  let n := off / 256
  let m := n + if size = 8 ∧ off % 256 = 248 then 1 else 0
  if m ≥ allot then .error n else .ok off

/-- The words of an element wait for an operation. -/
def State.waitBytes (s : State) (fk off n : Nat) : Bool :=
  (span (off / 4) ((off + n + 3) / 4 - off / 4)).any fun w => s.waitV fk (w / 64) (w % 64)

/-- ldi (R122). -/
def execLdi (g : Guard) (d : Opnd) (a : Nat) (b : Opnd) (ty : Ty) (s : State) : Host.Outcome State Fault Refusal :=
  .next (runUnits s g
    (fun s u => match planOperands s u (some (.reg d false ty.wide ty)) [⟨b, false, false⟩] [true] with
      | .stall => .stall
      | .fault c det => .fault c det
      | .go (rd, rs) => match elemAt (s.allot u.bk u.g) a ty.size ((readSrcs s u [⟨b, false, false⟩] rs).getD 0 0) with
        | .error n => .fault .al n
        | .ok off => if s.waitBytes u.rep off ty.size || s.acqWait u.rep then .stall else .go (rd, off))
    (fun st u x =>
      let v := loadExt ty (s.wnum u.bk u.g x.2 ty.size)
      let pz := s.wpois u.bk u.g x.2 ty.size
      let w : Who := { pc := s.ipc, fk := u.rep }
      let st := match x.1 with
        | .v n =>
          let st := st.setVP w u.bk u.g n u.l (v % 2 ^ 32) pz
          if ty.wide then st.setVP w u.bk u.g (n + 1) u.l (v / 2 ^ 32) pz else st
        | _ => st
      advanceUnit st u))

/-- sti (R122): lanes are applied in ascending order, so the highest home lane's bytes stand. The element's allotment fault comes before the
poison fault of the data (R35); a poisoned index names no element. -/
def execSti (g : Guard) (d : Opnd) (a : Nat) (b : Opnd) (ty : Ty) (s : State) : Host.Outcome State Fault Refusal :=
  let srcs : List Src := [⟨d, false, ty.wide⟩, ⟨b, false, false⟩]
  .next (runUnits s g
    (fun s u => match planOperands s u none srcs [false, false] with
      | .stall => .stall
      | .fault c det => .fault c det
      | .go (_, rs) =>
        let xs := readSrcs s u srcs rs
        let pd := poisonRes s u.rep ty.wide (rs.getD 0 .stall)
        match poisonRes s u.rep false (rs.getD 1 .stall) with
        | some n => .fault .pz (pd.getD n)
        | none => match elemAt (s.allot u.bk u.g) a ty.size (xs.getD 1 0), pd with
          | .error n, _ => .fault .al n
          | .ok _, some n => .fault .pz n
          | .ok off, none => if s.waitBytes u.rep off ty.size || s.acqWait u.rep then .stall else .go (xs.getD 0 0, off))
    (fun st u x =>
      advanceUnit (st.wput { pc := s.ipc, fk := u.rep } u.bk u.g x.2 (natBytes ty.size x.1)) u))

/-! ### mov and the cross-lane forms -/

/-- The fibres of a group that pass their own checks execute once between them, the lowest of them supplying the source (R11, R123). -/
def onceEach {α : Type} (l : List (WUnit × Plan α)) : List (WUnit × Plan α) :=
  l.filterMap fun p => match p.2 with
    | .go a =>
      let mates := l.filter fun q => groupKey q.1.rep == groupKey p.1.rep && q.2.isGo
      if mates.any fun q => decide (q.1.l < p.1.l) then none else some ({ rep := p.1.rep, mem := mates.flatMap fun q => q.1.mem }, .go a)
    | x => some (p.1, x)

/-- mov (R123). A uniform D is written once per group whatever U; with U = 0 each fibre's index is still its own, with its own checks (R16), and
the value is that of the lowest fibre which passes them. -/
def execMov (f : Un) (s : State) : Host.Outcome State Fault Refusal :=
  let src : Src := ⟨f.a, f.ia, f.ty.wide⟩
  .next (match f.d, f.g.u with
    | .s _, false => runPrep s f.g
        (fun s u => planOperands s u (some (.reg f.d f.id f.ty.wide f.ty)) [src] [false])
        (fun l => (onceEach l).map fun p => match p.2 with
          | .go (_, rs) => match poisonRes s p.1.rep f.ty.wide (rs.headD .stall) with
            | some n => (p.1, .fault .pz n)
            | none => p
          | _ => p)
        (fun st u a => advanceUnit (writeRes st u s.ipc f.ty f.ty.wide ((readSrcs s u [src] a.2).headD 0) a.1) u)
    | _, _ => runUn s f f.ty.wide f.ty.wide fun a => (a, 0))

/-- A form that reads lane `pick l k` of register `a` for the fibre at home lane `l`, `k` being bits [5:0] of B. -/
def runCross (s : State) (g : Guard) (d : Opnd) (a : Nat) (b : Opnd) (ty : Ty) (pick : Nat → Nat → Nat) : State :=
  runUnits s g
    (fun s u =>
      let rd := resolve s u.rep d false ty.wide
      let ra := checkReg (s.allot u.bk u.g) a ty.wide false
      let rb := resolve s u.rep b false false
      match firstBad [rd, ra, rb] with
      | some (.bad c det) => .fault c det
      | some _ => .stall
      | none =>
        let k := pick u.l (readRes s u.rep false rb % 64)
        if (u.mem.any fun fk => busyRes s fk ty.wide rd) || busyRes s u.rep false rb || s.waitV u.rep a k
            || (ty.wide && s.waitV u.rep (a + 1) k) then .stall
        else if s.vpois u.bk u.g a k then .fault .pz a
        else if ty.wide && s.vpois u.bk u.g (a + 1) k then .fault .pz (a + 1)
        else match poisonRes s u.rep false rb with
          | some n => .fault .pz n
          | none => .go (rd, s.vraw u.bk u.g a k + if ty.wide then s.vraw u.bk u.g (a + 1) k * 2 ^ 32 else 0))
    (fun st u x => advanceUnit (writeRes st u s.ipc ty ty.wide x.2 x.1) u)

/-- perm (R125). -/
def execPerm (g : Guard) (d a : Nat) (b : Opnd) (s : State) : Host.Outcome State Fault Refusal :=
  .next (runCross s g (.v d) a b .b32 fun _ k => k)

/-- bcast (R125). -/
def execBcast (g : Guard) (d : Opnd) (a : Nat) (b : Opnd) (ty : Ty) (s : State) : Host.Outcome State Fault Refusal :=
  .next (runCross s g d a b ty fun _ k => k)

/-- The lane that `shfl` reads (R125): up, down, xor. -/
def shflLane (mode l k : Nat) : Nat :=
  match mode with
  | 0 => if k ≤ l then l - k else l
  | 1 => if l + k ≤ 63 then l + k else l
  | _ => l ^^^ k

/-- shfl (R125). -/
def execShfl (g : Guard) (d a : Nat) (b : Opnd) (mode : Nat) (s : State) : Host.Outcome State Fault Refusal :=
  .next (runCross s g (.v d) a b .b32 (shflLane mode))

end Sys2Proof.Machine
end

