-- ==== Sys2Proof/Machine/Collect.lean ====
section
/-!
DEFINITION. Arrival at barriers and collectives and their completion: `bar`, `bar.cl` (R273, R274), `vote` and `redux` (R126 to R128),
`fsort` (R272), `ensure`, `accept`, `cjoin` and `dsync` (R306, R312, R316, R327); the ends of fibres, `fend` and `exit` (R271).
-/
namespace Sys2Proof.Machine

/-! ### Generations -/

/-- Keys of the generations whose first arrival a block keeps: a core's `bar.cl`, the block's `bar`; and by the word's address, at which its
fibres wait for each other (R126), a group's collective, a core's `fsort` and the block's collective. -/
def keyBarCl (core : Nat) : Nat := core
def keyBar : Nat := 1024
def keyAt (pc : Nat) : Nat := 2048 + pc / 8 * 1024
def keyGroup (g pc : Nat) : Nat := keyAt pc + g
def keySort (core pc : Nat) : Nat := keyAt pc + 256 + core
def keyBlock (pc : Nat) : Nat := keyAt pc + 512

/-- A fibre arrives; the first arrival of its generation starts the barrier timeout (R274): the block keeps the tick at which it
expires, 0 when it has none. -/
def State.arrive (s : State) (fk key : Nat) (st : FStat) : State :=
  (s.setStat fk st).updBlock (fkBk fk) fun b =>
    { b with clFirst := if (sget none b.clFirst key).isSome then b.clFirst else sset none b.clFirst key (some (if b.bto = 0 then 0 else s.tick + b.bto)) }

/-- A generation completes. -/
def State.closeGen (s : State) (bk key : Nat) : State :=
  s.updBlock bk fun b => { b with clFirst := sset none b.clFirst key none }

/-- The live fibres a generation of a block counts. -/
def State.genFibs (s : State) (bk key : Nat) : List Nat :=
  let k := key % 1024
  if key < 256 then s.coreFibs bk key
  else if key < 2048 then s.blockFibs bk
  else if k < 256 then s.groupFibs bk k
  else if k < 512 then s.coreFibs bk (k - 256)
  else s.blockFibs bk

/-- Which generation a fibre has arrived at. -/
def keyOfStat (core g pc : Nat) : FStat → Option Nat
  | .bar => some keyBar
  | .barCl => some (keyBarCl core)
  | .coll (.vote _ _ _ _) _ => some (keyGroup g pc)
  | .coll (.redux _ _ _ _ _ _) _ => some (keyGroup g pc)
  | .coll (.fsort _ _ _ _) _ => some (keySort core pc)
  | .coll _ _ => some (keyBlock pc)
  | _ => none

/-- The fibres of a generation that have arrived. -/
def State.arrived (s : State) (bk key : Nat) : List Nat :=
  (s.genFibs bk key).filter fun fk => match s.fib fk with
    | some f => keyOfStat (s.group bk (fkG fk)).core (fkG fk) f.pc f.stat == some key
    | none => false

/-- A fibre's store-window writes are all performed (R116). -/
def State.winDone (s : State) (fk : Nat) : Bool :=
  s.ops.all fun o => !(o.kind == .stw) || o.lanes.all fun x => x.fk != fk || x.st.isDone

/-- A barrier generation is complete: every live fibre of its set has arrived, and the window writes that the barrier orders are
performed (R116, R273). -/
def State.barReady (s : State) (bk key : Nat) : Bool :=
  let fs := s.genFibs bk key
  !fs.isEmpty && (s.arrived bk key).length == fs.length && fs.all s.winDone

def State.settleBar (s : State) (bk key : Nat) : State :=
  if s.barReady bk key then (s.genFibs bk key).foldl State.advance (s.closeGen bk key) else s

/-- The instruction at which every live fibre of a set stands, by one word at one PC, with the fibres whose guard holds (R126). -/
def State.collective (s : State) (fs : List Nat) : Option (Instr × Nat × List Nat) :=
  match fs with
  | [] => none
  | fk :: _ => match s.fib fk with
    | some f => match f.stat with
      | .coll i _ =>
        let at_ := fun (k : Nat) => match s.fib k with
          | some x => x.pc == f.pc && (x.stat == .coll i true || x.stat == .coll i false)
          | none => false
        let holds := fun (k : Nat) => match s.fib k with
          | some x => x.stat == .coll i true
          | none => false
        if fs.all at_ then some (i, f.pc, fs.filter holds) else none
      | _ => none
    | none => none

/-! ### vote and redux -/

/-- `vote` of a group whose fibres have all arrived (R127). -/
def State.finishVote (s : State) (bk g pc d a mode : Nat) (fs holds : List Nat) : State :=
  let mask := fun (l : List Nat) => l.foldl (fun m fk => m + 2 ^ fkL fk) 0
  let yes := holds.filter fun fk => match s.fib fk with
    | some f => f.pred a
    | none => false
  let w := fun (fk : Nat) => ({ pc := pc, fk := fk } : Who)
  let s : State := match mode with
    | 0 => holds.foldl (fun (s : State) fk => s.setP (w fk) fk d (mask yes == mask holds)) s
    | 1 => holds.foldl (fun (s : State) fk => s.setP (w fk) fk d (mask yes != 0)) s
    | _ => s.setU (w (fs.headD 0)) bk g d (mask yes)
  fs.foldl State.advance (s.closeGen bk (keyGroup g pc))

/-- One combining step of `redux` (R128): result and flags. -/
def combine (op : Nat) (ty : Ty) (rm : RM) (a b : Nat) : Nat × Nat :=
  match op, ty with
  | 0, .f32 => fAdd fmt32 rm a b
  | 1, .f32 => fMinMax fmt32 false a b
  | 2, .f32 => fMinMax fmt32 true a b
  | 0, t => intAdd t a b
  | 1, t => intMin t a b
  | 2, t => intMax t a b
  | 3, _ => bitAnd a b
  | 4, _ => bitOr a b
  | _, _ => bitXor a b

/-- One level of the tree: neighbours are combined pair by pair; flags accumulate. -/
def treeLevel (comb : Nat → Nat → Nat × Nat) : List (Option Nat) → List (Option Nat) × Nat
  | some a :: some b :: xs =>
    let r := comb a b
    let q := treeLevel comb xs
    (some r.1 :: q.1, r.2 ||| q.2)
  | some a :: none :: xs => let q := treeLevel comb xs; (some a :: q.1, q.2)
  | none :: x :: xs => let q := treeLevel comb xs; (x :: q.1, q.2)
  | xs => (xs, 0)

/-- The whole tree over 64 lanes. -/
def treeFold (comb : Nat → Nat → Nat × Nat) (xs : List (Option Nat)) : Option Nat × Nat :=
  let r := (span 0 6).foldl (fun p _ => let q := treeLevel comb p.1; (q.1, p.2 ||| q.2)) (xs, 0)
  (r.1.headD none, r.2)

def State.finishRedux (s : State) (bk g pc d a op : Nat) (ty : Ty) (rm : RM) (fs holds : List Nat) : State :=
  if s.busyU bk g d then s
  else
    let val := fun (l : Nat) => s.vraw bk g a l + if ty.wide then s.vraw bk g (a + 1) l * 2 ^ 32 else 0
    let xs := (span 0 64).map fun l => if holds.contains (fkOf bk g l) then some (val l) else none
    let r := treeFold (combine op ty rm) xs
    let w : Who := { pc := pc, fk := fs.headD 0 }
    let v := r.1.getD 0
    let s := (s.setU w bk g d (if ty.wide then v else extendU ty v)).orGsw w bk g r.2
    fs.foldl State.advance (s.closeGen bk (keyGroup g pc))

def State.settleGroup (s : State) (bk g : Nat) : State :=
  let fs := s.groupFibs bk g
  match s.collective fs with
  | some (.vote _ d a mode, pc, holds) => if mode = 2 ∧ s.busyU bk g d then s else s.finishVote bk g pc d a mode fs holds
  | some (.redux _ d a op ty rm, pc, holds) => s.finishRedux bk g pc d a op ty rm fs holds
  | _ => s

/-! ### fsort (R272) -/

/-- A fault of a completed collective of one core, taken by its lowest fibre. -/
def State.localFault (s : State) (bk key pc : Nat) (fs : List Nat) (c : FClass) (det : Nat) : State :=
  let fk := fs.headD 0
  (s.closeGen bk key).takeFault bk { code := c.code, pc := pc, det := det, grp := fkG fk, lane := fkL fk }

/-- Groups of a block on a core, ascending. -/
def State.groupsOn (s : State) (bk core : Nat) : List Nat :=
  match s.block? bk with
  | some b => (span 0 b.groups.length).filter fun g => (b.group g).core == core
  | none => []

/-- Where each local fibre goes: (old, new) in sorted order. -/
def sortMoves (bk : Nat) (gs : List Nat) (sorted : List Nat) : List (Nat × Nat) :=
  sorted.mapIdx fun k fk => (fk, fkOf bk (gs.getD (k / 64) 0) (k % 64))

/-- A frame has recorded where a fibre stood at its `ensure`. -/
def Block.hasPos (b : Block) (f : Frame) (fk : Nat) : Bool :=
  let g := fkG fk
  (b.group g).recs.any fun r => r.tagged && r.gen == f.gens.getD g 0 && r.item == .fpos (fkL fk) && r.vals.headD 0 == fk

/-- Record the position that a fibre leaves, in the area of the group that it goes to (R272, R315). -/
def State.recordPos (s : State) (bk : Nat) (p : Nat × Nat) : Option State :=
  match s.block? bk with
  | none => some s
  | some b => match b.frames with
    | [] => some s
    | f :: _ =>
      if b.hasPos f p.1 then some s
      else
        let g := fkG p.2
        s.addRec bk g { s.capture bk g (f.gens.getD g 0) (.fpos (fkL p.2)) with vals := [p.1, p.1] }

/-- Save what the sort writes, inside a frame (R272, R315). -/
def State.recordSort (s : State) (bk : Nat) (gs regs : List Nat) (m : List (Nat × Nat)) : Option State :=
  let s := gs.foldl (fun (acc : Option State) g => acc.bind fun s => (s.recordRegs bk g regs).bind fun s => s.record bk g .preds) (some s)
  m.foldl (fun (acc : Option State) p => acc.bind fun s => s.recordPos bk p) s

/-- The lanes of one register move with the fibres, with their marks. -/
def moveLanes (bk r : Nat) (m : List (Nat × Nat)) (rs : RegSt) : RegSt :=
  let old := fun (fk : Nat) => (sget 0 (sget [] rs.vregs (rkOf bk (fkG fk) r)) (fkL fk)).toNat
  let mark := fun (fk : Nat) => bit (sget 0 rs.vpoison (rkOf bk (fkG fk) r)) (fkL fk)
  (m.map fun p => (p.2, old p.1, mark p.1)).foldl (fun rs x =>
    (rs.putLane (rkOf bk (fkG x.1) r) (fkL x.1) x.2.1).putPoison (rkOf bk (fkG x.1) r) (fkL x.1) x.2.2) rs

/-- `fsort` once every local fibre has arrived. -/
def State.finishSort (s : State) (bk core pc d a sb : Nat) (fs : List Nat) : State :=
  let gs := s.groupsOn bk core
  let g0 := gs.headD 0
  let quiet := s.ops.all fun o => !(o.bk == bk && gs.contains o.g && (o.cls == .ld || o.cls == .cp || o.cls == .tl)) || o.fin
  if !quiet || s.busyU bk g0 sb || !(fs.all s.winDone) then s
  else if s.upois bk g0 sb then s.localFault bk (keySort core pc) pc fs .pz (1536 + sb)
  else
    let mask := s.uraw bk g0 sb
    let chunks := (span 0 48).filter fun j => bit mask j
    match chunks.find? fun j => gs.any fun g => decide (s.allot bk g ≤ 32 * j) with
    | some j => s.localFault bk (keySort core pc) pc fs .al (32 * j)
    | none =>
      let regs := chunks.flatMap fun j => span (32 * j) 32
      let key := fun (fk : Nat) => s.vraw bk (fkG fk) a (fkL fk) * 8192 + fkFibre fk
      let m := sortMoves bk gs (sortBy key fs)
      match s.recordSort bk gs (regs ++ [d]) m with
      | none => s.noRoom bk { pc := pc, fk := fs.headD 0 }
      | some s =>
        let s := { s with rs := regs.foldl (fun rs r => moveLanes bk r m rs) s.rs }
        let live := (fs.filterMap s.fib).foldl (fun x (f : Fibre) => max x f.livev) 0
        let s := (regs.filter fun r => decide (live ≤ r)).foldl (fun s r => s.scramble (m.map fun p => (rkOf bk (fkG p.2) r, fkL p.2))) s
        let s := (s.closeGen bk (keySort core pc)).relabel bk m
        m.foldl (fun s p => (s.setV { pc := pc, fk := p.2 } bk (fkG p.2) d (fkL p.2) (fkFibre p.1)).advance p.2) s

def State.settleSort (s : State) (bk core : Nat) : State :=
  let fs := s.coreFibs bk core
  match s.collective fs with
  | some (.fsort _ d a sb, pc, _) => s.finishSort bk core pc d a sb fs
  | _ => s

/-! ### Block collectives -/

/-- `dsync` once every live fibre has arrived (R306): the block is synced, so that its tasks may start (R298); with its children complete
it folds them, or waits as `fence.sc3` does. -/
def State.finishDsync (s : State) (bk pc : Nat) : State :=
  match s.block? bk with
  | none => s
  | some b =>
    let s := s.updBlock bk fun b => { b with synced := true }
    let go := fun (s : State) => (s.blockFibs bk).foldl State.advance
      ((s.closeGen bk (keyBlock pc)).updBlock bk fun b => { b with synced := false })
    if !(b.kids.all s.kidDone) then s
    else if (s.rcbOf bk).det then match s.fold bk with
      | some s => go s
      | none => s.collFault bk pc .cf 0 false
    else if (span 0 b.ngrp).all fun g => s.fenceReady bk g s.seq then go s
    else s

def State.settleBlock (s : State) (bk : Nat) : State :=
  match s.collective (s.blockFibs bk) with
  | some (.ensure _ t d, pc, _) => s.finishEnsure bk pc t d
  | some (.accept _ p, pc, _) => s.finishAccept bk pc p
  | some (.cjoin f, pc, _) => s.finishCjoin bk pc f.a
  | some (.dsync _, pc, _) => s.finishDsync bk pc
  | _ => s

/-- Complete what can complete in a running block: judged at each arrival, each end and each spawn, and when what a collective waits for
comes to pass. -/
def State.settle (s : State) (bk : Nat) : State :=
  match s.block? bk with
  | none => s
  | some b =>
    if !b.running then s
    else
      let s := s.settleBar bk keyBar
      let s := b.cores.foldl (fun s c => s.settleBar bk (keyBarCl c)) s
      let s := (span 0 b.ngrp).foldl (fun s g => s.settleGroup bk g) s
      let s := b.cores.foldl (fun s c => s.settleSort bk c) s
      s.settleBlock bk

/-- The blocks that have a fibre in a list. -/
def blocksOf : List Nat → List Nat
  | [] => []
  | fk :: fks => let rest := blocksOf fks; if rest.contains (fkBk fk) then rest else fkBk fk :: rest

def settleCur (s0 s : State) : State := (blocksOf s0.cur).foldl State.settle s

/-! ### The instructions -/

/-- bar (R273). -/
def execBar (g : Guard) (s : State) : Host.Outcome State Fault Refusal :=
  .next (settleCur s (runEach s g fun s fk => s.arrive fk keyBar .bar))
/-- bar.cl (R273). -/
def execBarCl (g : Guard) (s : State) : Host.Outcome State Fault Refusal :=
  .next (settleCur s (runEach s g fun s fk => s.arrive fk (keyBarCl (s.group (fkBk fk) (fkG fk)).core) .barCl))

/-- Run a collective: every fibre of the bundle arrives, whatever its guard; `plan` checks the operands of a fibre whose guard holds. -/
def runColl (s : State) (g : Guard) (i : Instr) (key : State → Nat → Nat) (plan : State → WUnit → Plan Unit) : State :=
  settleCur s (runUnits s { u := false, gn := false, gp := 15 }
    (fun s u => if guardHolds s g u.rep then plan s u else .go ())
    (fun st u _ => st.arrive u.rep (key s u.rep) (.coll i (guardHolds s g u.rep))))

/-- vote (R127). -/
def execVote (g : Guard) (d a mode : Nat) (s : State) : Host.Outcome State Fault Refusal :=
  .next (runColl s g (.vote g d a mode) (fun s fk => keyGroup (fkG fk) s.ipc) fun s u =>
    if mode = 2 ∧ s.busyU u.bk u.g d then .stall else .go ())
/-- redux (R128). -/
def execRedux (g : Guard) (d a op : Nat) (ty : Ty) (rm : RM) (s : State) : Host.Outcome State Fault Refusal :=
  .next (runColl s g (.redux g d a op ty rm) (fun s fk => keyGroup (fkG fk) s.ipc) fun s u =>
    match planOperands s u (some (.reg (.s d) false ty.wide ty)) [⟨.v a, false, ty.wide⟩] [true] with
    | .stall => .stall
    | .fault c det => .fault c det
    | .go _ => .go ())
/-- fsort (R272). -/
def execFsort (g : Guard) (d a b : Nat) (s : State) : Host.Outcome State Fault Refusal :=
  .next (runColl s g (.fsort g d a b) (fun s fk => keySort (s.group (fkBk fk) (fkG fk)).core s.ipc) fun s u =>
    match planOperands s u (some (.reg (.v d) false false .z32)) [⟨.v a, false, false⟩] [true] with
    | .stall => .stall
    | .fault c det => .fault c det
    | .go _ => .go ())
/-- ensure (R312). -/
def execEnsure (g : Guard) (t : Target) (d : Nat) (s : State) : Host.Outcome State Fault Refusal :=
  .next (runColl s g (.ensure g t d) (fun s _ => keyBlock s.ipc) fun _ _ => .go ())
/-- accept (R316). -/
def execAccept (g : Guard) (a : Nat) (s : State) : Host.Outcome State Fault Refusal :=
  .next (runColl s g (.accept g a) (fun s _ => keyBlock s.ipc) fun _ _ => .go ())
/-- cjoin (R327). -/
def execCjoin (f : Eng) (s : State) : Host.Outcome State Fault Refusal :=
  .next (runColl s f.g (.cjoin f) (fun s _ => keyBlock s.ipc) fun _ _ => .go ())
/-- dsync (R306). -/
def execDsync (g : Guard) (s : State) : Host.Outcome State Fault Refusal :=
  .next (runColl s g (.dsync g) (fun s _ => keyBlock s.ipc) fun _ _ => .go ())

/-- fend (R271). -/
def execFend (g : Guard) (s : State) : Host.Outcome State Fault Refusal :=
  .next (settleCur s (runUnframed s fun s => runUnits s g (fun _ _ => .go ()) fun st u _ => st.dropFib u.rep))
/-- exit (R271). -/
def execExit (g : Guard) (s : State) : Host.Outcome State Fault Refusal :=
  .next (runUnframed s fun s =>
    let hold := s.curSorted.filter (guardHolds s g)
    let s' := runUnits s g (fun _ _ => .go ()) fun st _ _ => st
    (blocksOf hold).foldl State.endFibres s')

end Sys2Proof.Machine
end

