-- ==== Sys2Proof/Machine/Hub.lean ====
section
/-!
DEFINITION. Step mailboxes as the hub holds them (R353, R355 to R357, R363, R369): episode records, slot headers, and the events that stop an
episode.
-/
namespace Sys2Proof.Machine

/-- Fields of an episode record (R353). -/
def epDefrew (e : Nat) : Nat := bits e 224 32
def epCycbud (e : Nat) : Nat := bits e 184 40
def epTickbud (e : Nat) : Nat := bits e 152 32
def epMode (e : Nat) : Nat := bits e 150 2
def epValid (e : Nat) : Bool := bit e 149
def epCtx (e : Nat) : Nat := bits e 143 6
def epId (e : Nat) : Nat := bits e 96 32
def epWsize (e : Nat) : Nat := bits e 75 21
def epWbase (e : Nat) : Nat := bits e 16 48 * 2 ^ 16

/-- A slot header (R355). -/
structure Hdr where
  pver : Nat
  step : Nat
  episode : Nat
  reward : Nat
  vchg : Bool
  fin : Bool
  status : Nat
  len : Nat
  pofs : Nat
deriving DecidableEq, Repr

def Hdr.word (h : Hdr) : Nat :=
  h.pofs % 2 ^ 14 * 2 ^ 11 + h.len % 2 ^ 15 * 2 ^ 25 + h.status % 2 ^ 8 * 2 ^ 40 + b2n h.fin * 2 ^ 48 + b2n h.vchg * 2 ^ 49 +
    h.reward % 2 ^ 32 * 2 ^ 64 + h.episode % 2 ^ 32 * 2 ^ 96 + h.step % 2 ^ 64 * 2 ^ 128 + h.pver % 2 ^ 64 * 2 ^ 192

def hdrLen (w : Nat) : Nat := bits w 25 15
def hdrPofs (w : Nat) : Nat := bits w 11 14
def hdrStatus (w : Nat) : Nat := bits w 40 8
def hdrEnd (w : Nat) : Bool := bit w 48
def hdrVchg (w : Nat) : Bool := bit w 49
def hdrReward (w : Nat) : Nat := bits w 64 32
def hdrPver (w : Nat) : Nat := bits w 192 64

/-- Result codes (R356). -/
def rcOk : Nat := 0
def rcStale : Nat := 1
def rcTrunc : Nat := 2
def rcTimeout : Nat := 3
def rcKilled : Nat := 4
def rcAborted : Nat := 5
def rcFault : Nat := 0xFF

/-! ### Mailboxes -/

def MState.code : MState → Nat
  | .free => 0
  | .idle => 1
  | .act => 2
  | .run => 3
  | .obs => 4
  | .ended => 5

def State.mbx (s : State) (m : Nat) : Mbx := (sget none s.hub.mbx m).getD Mbx.reset

/-- The word of `mpoll` (R369). -/
def Mbx.word (b : Mbx) : Nat := b.step % 2 ^ 32 * 2 ^ 32 + bits b.epi.toNat 150 2 * 2 ^ 8 + b.st.code

/-! ### Events of a mailbox (R357) -/

/-- An event of the mailbox wakes a hart that waits in `wfi` (R351). -/
def Mbx.rouse (b : Mbx) : Mbx := { b with asleep := false }

/-- The episode stops: its hart state is discarded and no watchdog counts (R361). -/
def Mbx.stop (b : Mbx) : Mbx := { b with running := false, hart := none, asleep := false, dead := none }

/-- The observation of the present step; the episode may go on on another hart (R351). -/
def Mbx.give (b : Mbx) (h : Hdr) : Mbx :=
  { b with st := .obs, obs := BitVec.ofNat 512 h.word, hdr := BitVec.ofNat 512 h.word, hart := none, asleep := false, dead := none }

/-- An observation that the hub makes for an accepted action (KILLED, TIMEOUT). -/
def Mbx.closing (b : Mbx) (status reward : Nat) : Mbx :=
  (b.give { pver := hdrPver b.act.toNat, step := b.step, episode := epId b.epi.toNat, reward := reward, vchg := hdrVchg b.act.toNat,
            fin := true, status := status, len := 0, pofs := 0 }).stop

/-- An episode violation (R357, R362). -/
def Mbx.violate (b : Mbx) : Mbx :=
  match b.st with
  | .act | .run => b.closing rcKilled 0
  | .idle => { b.stop with kill := true }
  | .obs | .ended => b.stop
  | _ => b

/-- The watchdog expiry (R357). -/
def Mbx.expire (b : Mbx) : Mbx := if b.st == .act || b.st == .run then b.closing rcTimeout (epDefrew b.epi.toNat) else b

/-- TICKBUD has expired: a tick that has ended no longer takes a give (R357, R363). -/
def Mbx.lapse (tick : Nat) (b : Mbx) : Mbx :=
  match b.dead with
  | some t => if t < tick then b.expire else b
  | none => b

/-- The mailbox after every expiry that lies before this step. -/
def State.mbxNow (s : State) (m : Nat) : Mbx := (s.mbx m).lapse s.tick

end Sys2Proof.Machine
end

