-- ==== Sys2Proof/Machine/Perform.lean ====
section
/-!
DEFINITION. What the memory unit does with accesses after issue: ACCESS_PERFORMED (R237), LOAD_RETURNED (R242),
WRITE_COMPLETION_TIME_PASSED (R241), SIDE_LOG_ENTRY_FREE (R73), the write-back of region lines (R87), and the checks a parked or
side-logged lane makes again (R72, R74).
-/
namespace Sys2Proof.Machine

/-! ### Write-back of a region line (R87) -/

inductive WriteBack
  | done (s : State)
  | wait (s : State)

def Region.evq (s : State) (r : Region) : Nat :=
  match s.launch? r.lid with
  | some l => bits l.rcb.fdom 0 3
  | none => 0

/-- An AC pins the line and reports a write-back fault naming the entry and the pointer. -/
def State.pinLine (s : State) (c k off : Nat) (r : Region) (t : TLine) : State :=
  let q := r.gbase + off / 128 * 128
  let s := { s with mem := { s.mem with tlines := sset none s.mem.tlines (tlKey k off) (some { t with pinned := true }) } }
  (s.postEvent c (r.evq s) (eventEntry 2 FClass.ac.code 0 0 0 r.lid (k % 64) q)).2

/-- Write one region line back, when its entry writes back and the line is dirty; `again` retries a pinned line. A zero-tagged line is zero at its home too
(R60), and the home's value may release waiters there (R258). -/
def State.wbLine (s : State) (c k off : Nat) (again : Bool) : WriteBack :=
  match sget none s.mem.regions k, s.mem.tline k off with
  | some r, some t =>
    if !r.wb || !t.dirty || (t.pinned && !again) then .done s
    else
      let base := off / 128 * 128
      let q := r.gbase + base
      match s.boundsCheck c q 128 128 .store with
      | some _ => .done (s.pinLine c k off r t)
      | none => match s.leafCheck c q .store with
        | .absent _ => if s.barred c q then .done (s.pinLine c k off r t) else .wait (s.request c q)
        | .wait => .wait s
        | .ok tg =>
          if !(s.tgtUp tg) then .wait s
          else if s.linkDown tg then .done (s.pinLine c k off r t)
          else
            let s := if t.zero then s.zeroTgt Config.cores false tg else s.writeTgt Config.cores false tg ((span base 128).map (s.mem.tbyte k))
            let s := match tg with
              | .mem pa mt =>
                if mt = 2 then { s with mem := { s.mem with dpoison := sset false s.mem.dpoison (pa / 128) t.poison } }
                else match s.mem.tag (pa / 128) with
                  | some h => { s with mem := { s.mem with htag := sset none s.mem.htag (pa / 128) (some { h with poison := t.poison }) } }
                  | none => { s with mem := { s.mem with dpoison := sset false s.mem.dpoison (pa / 128) t.poison } }
              | _ => s
            .done ({ s with mem := { s.mem with
              tlines := sset none s.mem.tlines (tlKey k off) (some { t with dirty := false, pinned := false }) } } : State).wake
        | _ => .done (s.pinLine c k off r t)
  | _, _ => .done s

/-! ### Performing -/

/-- The global copy of a region line goes on from its home slice down to DRAM. -/
def State.flushMirror (s : State) (c k off : Nat) : State :=
  match sget none s.mem.regions k with
  | none => s
  | some r => match s.leafCheck c (r.gbase + off / 128 * 128) .any with
    | .ok (.mem pa mt) => if mt = 2 then s else { s with mem := s.mem.writeBack (pa / 128) }
    | _ => s

/-- `cwb` of a lane's line, from every level down to DRAM: a region line goes to its home first, when it is dirty there, and from the home on (R80, R87). -/
def State.performCwb (s : State) (o : Op) (k : Nat) (x : Lane) : State :=
  match x.tgt with
  | .mem pa _ => ({ s with mem := s.mem.writeBack (pa / 128) } : State).doneLane o.id k fun x => x
  | .region j off =>
    let c := s.ctxOf o.bk
    match s.wbLine c j off false with
    | .done t => (if ((t.mem.tline j off).map TLine.dirty).getD false then t else t.flushMirror c j off).doneLane o.id k fun x => x
    | .wait s => s
  | _ => s.doneLane o.id k fun x => x

/-- `iinv` of a lane's line on the cores of its scope (R278). -/
def State.performIinv (s : State) (o : Op) (k : Nat) (x : Lane) : State :=
  match x.tgt with
  | .mem pa _ => (s.dropIcache (s.scopeFor o.bk o.core o.scope).mask (pa / 128)).doneLane o.id k fun x => x
  | _ => s.doneLane o.id k fun x => x

/-- Perform one pending lane that may be performed. -/
def State.performLane (s : State) (o : Op) (k : Nat) (x : Lane) : State :=
  if !(s.canPerform o x) then s
  else match o.kind with
    | .st | .stt | .stw | .stz => s.performStore o k x
    | .cwb => s.performCwb o k x
    | .iinv => s.performIinv o k x
    | .atom | .red => s.performAtomic o x
    | .rtake | .rhead => (s.performRing o x).dropOrphans o.ins
    | .tlset | .tladd => s.performTl o x
    | .put => s.performPut o k x x.tgt
    | _ => s

/-- The lane of an operation. -/
def State.laneAt (s : State) (id k : Nat) : Option (Op × Lane) :=
  match s.op? id with
  | some o => (o.lanes[k]?).map fun x => (o, x)
  | none => none

/-! ### Waiting lanes try again (R72, R73) -/

/-- The check a lane of an operation makes when it is issued again: of R71, R90, R252 or R257. A store lane that waits is none that
staging takes, since staging comes before the walk. -/
def State.recheck (s : State) (o : Op) (x : Lane) : Chk :=
  let c := s.ctxOf o.bk
  match o.kind with
  | .ld => s.feqLoad o.bk o.fe x.ptr (s.check c x.ptr o.n o.n .load false)
  | .st => feqCheck o.fset x.ptr (s.check c x.ptr o.n o.n .store false)
  | .stz => feqCheck o.fset x.ptr (s.check c x.ptr 128 128 .store false)
  | .red => noOut x.ptr (s.check c x.ptr o.n o.n .store false)
  | .ldt => s.checkT c x.ptr o.n .load (s.staging o.bk) o.fe
  | .stt => s.checkT c x.ptr o.n .store false o.fset
  | .atom => noOut x.ptr (s.check c x.ptr o.n o.n .atom (s.staging o.bk))
  | .rtake => s.ringCheck o.bk x.ptr true
  | .rhead => s.ringCheck o.bk x.ptr false
  | .tlset | .tladd => s.tlCheck c x.ptr
  | .put => s.check c x.ptr o.n 1 .store false
  | _ => .ok x.tgt

/-- A page fault's fibre is parked at this lane. -/
def State.laneFibs (s : State) (o : Op) (x : Lane) : List Nat :=
  x.fibres.filter fun fk => match s.fib fk with
    | some f => f.pc == o.pc && (match f.stat with
      | .page _ => true
      | .sideFull => true
      | _ => false)
    | none => false

def State.setLane (s : State) (id k : Nat) (f : Lane → Lane) : State := s.updOp id fun o => o.updLane k f

/-- A lane parked on its page executes again (R72); a precise fault ends it. -/
def State.retryLoad (s : State) (o : Op) (k : Nat) (x : Lane) : State :=
  let fs := s.laneFibs o x
  match s.recheck o x with
  | .ok t =>
    let s := (s.touch (s.ctxOf o.bk) t).setLane o.id k fun x => { x with tgt := t, st := .pending }
    match o.kind with
    | .rtake => fs.foldl (fun s fk => s.setStat fk .lane) (s.bindRing o.bk o.core true t)
    | _ => if o.fe then fs.foldl (fun s fk => s.setStat fk .lane) s else fs.foldl State.advance s
  | .fault c det =>
    let s := s.doneLane o.id k fun x => x
    fs.foldl (fun s fk => s.takeFault o.bk { code := c.code, pc := o.pc, det := det, grp := fkG fk, lane := fkL fk }) s
  | .absent t => s.request (s.ctxOf o.bk) (s.globalPtr o.kind.tureen t x.ptr)
  | _ => s

/-- A store lane that found no side-log entry is issued again (R73). -/
def State.retryStore (s : State) (o : Op) (k : Nat) (x : Lane) : State :=
  let fs := s.laneFibs o x
  match s.recheck o x with
  | .ok t => fs.foldl State.advance ((s.touch (s.ctxOf o.bk) t).setLane o.id k fun x => { x with tgt := t, st := .pending })
  | .absent t =>
    if s.sideUsed o.core < Config.sideLogEntries then
      let s := (s.setLane o.id k fun x => { x with tgt := t, st := .side s.seq }).request (s.ctxOf o.bk) (s.globalPtr o.kind.tureen t x.ptr)
      fs.foldl State.advance { s with seq := s.seq + 1 }
    else s
  | .staged | .wait => s
  | .fault c det =>
    let s := s.doneLane o.id k fun x => x
    fs.foldl (fun s fk => s.takeFault o.bk { code := c.code, pc := o.pc, det := det, grp := fkG fk, lane := fkL fk }) s

/-- Lanes in a state, with their operations and numbers. -/
def State.lanesIn (s : State) (p : Op → Lane → Bool) : List (Op × Nat × Lane) :=
  s.ops.flatMap fun o => (o.lanes.mapIdx fun k x => (o, k, x)).filter fun y => p y.1 y.2.2

/-- A side-logged lane is replayed (R74): performed as the original access would have been; `val` 1 marks a replayed lane that has to
wait for its turn. An access that now fails its checks is reported after issue (R333). -/
def State.replayLane (s : State) (o : Op) (k : Nat) (x : Lane) : State :=
  match s.recheck o x with
  | .ok t =>
    let s := (s.touch (s.ctxOf o.bk) t).setLane o.id k fun x => { x with tgt := t, st := .pending, val := 1 }
    match s.laneAt o.id k with
    | some (o, x) => s.performLane o k x
    | none => s
  | .fault c det =>
    (s.reportFault o.bk { code := c.code, pc := o.pc, det := det, grp := fkG x.fk, lane := fkL x.fk } o.frame).doneLane o.id k fun x => x
  | .absent t => s.request (s.ctxOf o.bk) (s.globalPtr o.kind.tureen t x.ptr)
  | _ => s

def State.replayAt (s : State) (id k : Nat) : State :=
  match s.laneAt id k with
  | some (o, x) => if x.st.isSide then s.replayLane o k x else s
  | none => s

/-- Place of a lane in the side log's sequence. -/
def Lane.sideSeq (x : Lane) : Nat :=
  match x.st with
  | .side q => q
  | _ => 0

/-- Side-log entries in sequence order (R74). -/
def State.sideLanes (s : State) (p : Op → Lane → Bool) : List (Op × Nat × Lane) :=
  sortBy (fun y => y.2.2.sideSeq) (s.lanesIn fun o x => x.st.isSide && p o x)

/-- A pointer's va lies in [lo, lo + n). -/
def inVa (lo n p : Nat) : Bool := decide (lo ≤ p % 2 ^ 56) && decide (p % 2 ^ 56 < lo + n)

/-- The address on which a lane's page is looked up: region lines fill from the mirrored page (R86). -/
def State.pagePtr (s : State) (o : Op) (x : Lane) : Nat := s.globalPtr o.kind.tureen x.tgt x.ptr

/-- A replayed entry of the core that names the page still waits to be performed: parked fibres of the core do not resume (R74). -/
def State.replaying (s : State) (core c lo n : Nat) : Bool :=
  !(s.lanesIn fun o x => o.core == core && s.ctxOf o.bk == c && (x.st.isSide || (x.st == .pending && x.val == 1 && !o.kind.isLoad)) &&
    inVa lo n (s.pagePtr o x)).isEmpty

/-- The side-log entries of a context in a range, those of saved blocks left out. -/
def State.sideOf (s : State) (c lo n : Nat) : List (Op × Nat × Lane) :=
  s.sideLanes fun o x => decide (o.core < Config.cores) && s.ctxOf o.bk == c && inVa lo n (s.pagePtr o x)

/-- Lanes of a range that replay has begun and that are still to be performed; one that gave up its bytes waits for the lane that writes them. -/
def State.begun (s : State) (c lo n : Nat) (p : Op → Lane → Bool) : List (Op × Nat × Lane) :=
  s.lanesIn fun o x => x.st == .pending && x.val == 1 && !o.kind.isLoad && s.ctxOf o.bk == c && inVa lo n (s.pagePtr o x) && p o x
def Lane.yielded (o : Op) (x : Lane) : Bool := o.kind.isStore && x.src2 == 0

/-- Replay the entries of a range core by core in sequence order (R74): an entry that has to wait holds back the later ones of its core. -/
def State.replayRange (s : State) (c lo n : Nat) : State :=
  let s := (s.sideOf c lo n).foldl (fun s y =>
    if (s.begun c lo n fun o x => o.core == y.1.core && !(x.yielded o)).isEmpty then s.replayAt y.1.id y.2.1 else s) s
  (s.begun c lo n fun o x => x.yielded o).foldl (fun s y => s.performLane y.1 y.2.1 y.2.2) s

/-- What was parked on the pages of a range resumes, core by core once its replay is complete (R72, R74): lanes execute again, and
fibres parked at a fetch or at a waiting instruction are ready at it. -/
def State.resumeRange (s : State) (c lo n : Nat) : State :=
  let s := (s.lanesIn fun o x => x.st == .page && s.ctxOf o.bk == c && inVa lo n (s.pagePtr o x)).foldl (fun s y =>
    if s.replaying y.1.core c lo n then s else s.retryLoad y.1 y.2.1 y.2.2) s
  s.rs.fibres.foldl (fun s p => match p.2 with
    | some f => match f.stat with
      | .page q =>
        if s.ctxOf (fkBk p.1) = c ∧ inVa lo n q ∧ !(s.replaying (s.group (fkBk p.1) (fkG p.1)).core c lo n) ∧
            (s.ops.all fun o => !(o.pc == f.pc) || o.lanes.all fun x => !(x.st == .page && x.fibres.contains p.1))
        then s.setStat p.1 .ready else s
      | _ => s
    | none => s) s

/-! ### The events -/

/-- What a completed access may let go on: operations retire, and collectives of the blocks that waited for it complete. -/
def State.afterAccess (s : State) (bk : Nat) : State := s.sweep.settle bk

/-- ACCESS_PERFORMED (R237): one lane of a store-like access, with the lanes of its instruction on the same line. -/
def execAccessPerformed (op lane : Nat) (s : State) : Host.Outcome State Fault Refusal :=
  .next (match s.laneAt op lane with
    | none => s
    | some (o, x) =>
      let s := s.performLane o lane x
      let c := s.ctxOf o.bk
      let s := if x.val = 1 ∧ !o.kind.isLoad then match s.walk c (s.pagePtr o x % 2 ^ 56) with
          | .leaf _ _ size _ _ _ =>
            let lo := s.pagePtr o x % 2 ^ 56 / size * size
            (s.replayRange c lo size).resumeRange c lo size
          | _ => s
        else s
      s.afterAccess o.bk)

/-! ### Reads at the hub and event posts (R350, R369, R370) -/

/-- What an `mpoll` or `pver.rd` lane reads at the hub. -/
def State.hubWord (s : State) (o : Op) (x : Lane) : Nat :=
  match o.kind with
  | .mpoll => (s.mbxNow x.src).word
  | _ => match s.launchOf o.bk with
    | some l => l.pver
    | none => 0

/-- Every earlier ST-counted access of the group is performed and the tick has passed its write completion time over scope 4 (R350, R367). -/
def State.sc4Ready (s : State) (o : Op) : Bool :=
  (s.before o.id).all fun p => !(p.bk == o.bk && p.g == o.g && p.cls == .st) ||
    p.lanes.all fun x => x.st.isDone && decide (x.wct4 = 0 ∨ x.wct4 < s.tickOf p)

/-- The lanes of an operation's instruction that are still to be done and whose turn has come, over all its groups in ascending home lane: a lane whose
group is not ready holds the later ones back. -/
def State.turnLanes (s : State) (o : Op) : List (Op × Nat × Lane) :=
  (sortBy (fun p => fkL p.2.2.fk) (s.lanesIn fun p x => p.ins == o.ins && p.kind == o.kind && !x.st.isDone)).takeWhile fun p => s.sc4Ready p.1

/-- Post the entry of one lane of a `ctxq`: D tells whether there was room (R350). -/
def State.ctxqLane (s : State) (o : Op) (k : Nat) (x : Lane) : State :=
  let idx := match s.block? o.bk with
    | some b => b.idx
    | none => 0
  let lid := match s.launchOf o.bk with
    | some l => l.lid % 2 ^ 64
    | none => 0
  let r := s.postEvent (s.ctxOf o.bk) (bits (s.rcbOf o.bk).fdom 0 3) (eventEntry 3 0 (fkL x.fk) o.g idx lid x.src x.src2)
  ((r.2.effect o.bk).writeBackD o x false (b2n r.1) false).doneLane o.id k fun x => x

/-- Post the entries of a `ctxq` whose turn has come (R350). -/
def State.ctxqRun (s : State) (id : Nat) : State :=
  match s.op? id with
  | none => s
  | some o => if o.kind ≠ .ctxq then s else (s.turnLanes o).foldl (fun s p => s.ctxqLane p.1 p.2.1 p.2.2) s

/-- LOAD_RETURNED (R242): one lane of a load; at an empty granule it becomes a waiter in arrival order (R77), unless its fibre has ended (R271). -/
def execLoadReturned (op lane : Nat) (s : State) : Host.Outcome State Fault Refusal :=
  .next (match s.laneAt op lane with
    | none => s
    | some (o, x) =>
      if o.kind == .mpoll || o.kind == .pverRd then
        (if x.st == .pending then
          ((s.writeBackD o x true (s.hubWord o x) false).doneLane op lane fun x => x).afterAccess o.bk
        else s)
      else if !o.kind.isLoad || !(s.canPerform o x) then s
      else if o.fe && !(s.fullAt x.tgt) then
        if s.orphan x then (s.doneLane op lane fun x => x).afterAccess o.bk
        else { s.setLane o.id lane (fun x => { x with st := .granule s.seq }) with seq := s.seq + 1 }
      else (s.deliverLoad op lane).afterAccess o.bk)

/-- WRITE_COMPLETION_TIME_PASSED (R241): nothing but the tick has changed; what waits for it sees it, a `ctxq` among it (R350). -/
def execWriteCompletionTimePassed (op : Nat) (s : State) : Host.Outcome State Fault Refusal :=
  .next (match s.op? op with
    | some o => (s.ctxqRun op).afterAccess o.bk
    | none => s)

/-- SIDE_LOG_ENTRY_FREE (R73): the core's lanes left without an entry are issued again, lowest operation and home lane first. -/
def execSideLogEntryFree (core : Nat) (s : State) : Host.Outcome State Fault Refusal :=
  .next ((s.lanesIn fun o x => o.core == core && x.st == .sideFull).foldl (fun s y => s.retryStore y.1 y.2.1 y.2.2) s)

end Sys2Proof.Machine
end

