-- ==== Sys2Proof/Machine/Engine.lean ====
section
/-!
DEFINITION. What the three engines share: issue of a command into a queue under a counter (R91, R187, R222), the record it names
(R112, R394), its global reads and writes (R97, R100), its reports (R97), and the Lid slots and permits (R95, R186).
-/
namespace Sys2Proof.Machine

/-! ### Issue -/

def engI (cls : Cnt) : MemI :=
  { kind := .eng, cls := cls, d := .v 0, ty := .b32, n := 0, pol := 0, qf := 0, scope := 0, aux := 0, uni := false }

def engLane (fk : Nat) : Lane :=
  { fk := fk, ptr := 0, tgt := .none, st := .pending, src := 0, src2 := 0, dl := 0, val := 0, wct := 0, wct4 := 0 }

/-- A command of a fibre, before it has a number. -/
def State.cmdOf (s : State) (u : WUnit) (kind : CmdKind) : Cmd :=
  { id := 0, op := 0, bk := u.bk, g := u.g, core := (s.group u.bk u.g).core, fk := u.rep, pc := s.ipc, kind := kind, addr := 0, b := 0,
    sub := 0, desc := 0, va := [], vb := [], stat := .queued, parts := [], prog := [], skip := [], wct := 0,
    frame := (match s.block? u.bk with | some b => b.frameKey u.g | none => 0), dst := [], du := none, page := none, fill := none }

/-- The fibre's command enters its queue: one operation per group for all the fibres of the instruction. -/
def State.engIssue (s : State) (cls : Cnt) (start : Nat) (u : WUnit) (c : Cmd) : State :=
  let r := s.opFor (engI cls) start u.bk u.g
  let s := r.2.addLane r.1 (engLane u.rep)
  advanceUnit { s with cmds := s.cmds ++ [{ c with id := s.seq, op := r.1 }], seq := s.seq + 1 } u

def CmdKind.ladle : CmdKind → Bool
  | .lfetch | .lcast | .lput | .lcopy => true
  | _ => false
def CmdKind.griddle : CmdKind → Bool
  | .gmma | .gdrain | .gload | .gzero | .gsave | .gresume | .gstat => true
  | _ => false
def CmdKind.jasper : CmdKind → Bool
  | .cload | .cstore | .cseed | .ctab | .cinfer | .cvote | .ctrain | .cfb => true
  | _ => false

/-- Room in a core's queue of a kind of command. -/
def State.queueRoom (s : State) (core limit : Nat) (p : CmdKind → Bool) : Bool :=
  decide ((s.cmds.filter fun c => c.core == core && p c.kind && c.stat != .done && c.fill.isNone).length < limit)

/-- Words of a window range that an earlier operation of the fibre's group, or a window store of the fibre, still has to write. -/
def State.recBusy (s : State) (fk w n : Nat) : Bool :=
  if winGrp w = fkG fk then (span (winOff w / 4) ((n + 3) / 4)).any fun i => s.waitV fk (i / 64) (i % 64)
  else s.ops.any fun o => o.kind == .stw && o.lanes.any fun x => x.fk == fk && !x.st.isDone &&
    overlapK x.keys ((Tgt.win (fkBk fk) (winGrp w) (winOff w)).key.toList) o.n n

/-- Plan the record of an engine instruction: sA, the counter, the address under R112, and the marks on its words. -/
def planRec (s : State) (u : WUnit) (cls : Cnt) (a n al : Nat) : Plan Nat :=
  match planOperands s u none [⟨.s a, false, false⟩] [true] with
  | .stall => .stall
  | .fault c det => .fault c det
  | .go (_, rs) =>
    let w := (readSrcs s u [⟨.s a, false, false⟩] rs).getD 0 0
    if s.cntFull u cls || s.acqWait u.rep then .stall
    else match s.winCheck u.bk w n al with
      | some (c, det) => .fault c det
      | none =>
        if s.recBusy u.rep w n then .stall
        else match s.wpoisAt u.bk (winGrp w) (winOff w) n with
          | some o => .fault .pz (winAddr (winGrp w) o)
          | none => .go w

/-- Continue a plan. -/
def Plan.bind {α β : Type} (p : Plan α) (f : α → Plan β) : Plan β :=
  match p with
  | .stall => .stall
  | .fault c det => .fault c det
  | .go a => f a

/-- Run an engine instruction: each fibre's command enters the queue while there is room, in ascending home lane; a fibre that finds
none stalls at the instruction. -/
def runEng (s : State) (g : Guard) (cls : Cnt) (limit : Nat) (p : CmdKind → Bool) (plan : State → WUnit → Plan Cmd) : State :=
  runUnits s g plan fun st u c =>
    if st.queueRoom c.core limit p || !(p c.kind) then st.engIssue cls s.seq u c else st

/-! ### Global accesses of an engine -/

/-- What one engine access came to. -/
inductive EAcc
  | ok (bs : List Nat) (s : State)
  | wait (s : State)
  | fail (c : FClass) (det : Nat) (s : State)

/-- An earlier store of the command's fibre to these bytes is still to be performed (R75). -/
def State.ownStore (s : State) (c : Cmd) (ptr n : Nat) : Bool :=
  s.ops.any fun o => decide (o.id < c.op) && o.kind.isStore && o.lanes.any fun x => x.fk == c.fk && !x.st.isDone &&
    overlapK x.keys [(1, ptr % 2 ^ 56)] o.n n

/-- Read `n` bytes at a global pointer, or at a Tureen address, as a load of the command's block at the home (R235): a poisoned line fails with PZ, a
link that is down with AC (R375). -/
def State.engLoadA (s : State) (c : Cmd) (tu : Bool) (p n align : Nat) : EAcc :=
  let ctx := s.ctxOf c.bk
  match (if tu then s.checkT ctx p n .load (s.staging c.bk) false else s.check ctx p n align .load false) with
  | .fault f det => .fail f det s
  | .absent t => .wait ((s.request ctx (s.globalPtr tu t p)).updCmd c.id fun c => { c with page := some (s.globalPtr tu t p) })
  | .wait => .wait s
  | .staged => .wait s
  | .ok t =>
    let q := s.globalPtr tu t p
    if !(s.tgtUp t) || s.ownStore c q n then .wait s
    else if s.linkDown t then .fail .ac p s
    else
      let s := s.touch ctx t
      let r : List Nat × Bool × State := match s.snapOf c.bk with
        | some m =>
          let r := ((({ s with mem := m } : State).touch ctx t).sense (some ctx) t).readTgt t n
          (r.1, r.2.1, { s with free := r.2.2.free, host := r.2.2.host })
        | none =>
          let r := (s.sense (some ctx) t).readTgt t n
          (r.1, r.2.1, r.2.2.refreshCopy c.core t)
      let bs := r.2.2.overTask c.bk c.fk c.op q (t.key.toList ++ [(1, q % 2 ^ 56)]) (r.1.map fun b => (b, r.2.1))
      if bs.any (·.2) then .fail .pz p r.2.2 else .ok (bs.map (·.1)) r.2.2

/-- An access aligned to its size. -/
def State.engLoad (s : State) (c : Cmd) (tu : Bool) (p n : Nat) : EAcc := s.engLoadA c tu p n n

/-- A write of a command as an operation of its own, under no counter (R100). -/
def State.putFor (s : State) (c : Cmd) (p n data scope : Nat) (t : Tgt) (st : LStat) : Op :=
  { s.mkOp { engI .none with kind := .put, n := n, scope := scope, aux := c.id + 1 } c.bk c.g s.seq with
    core := c.core, pc := c.pc, frame := c.frame
    lanes := [{ engLane c.fk with ptr := p, tgt := t, st := st, src := data, src2 := fullMask n }] }

/-- A side-logged write of a command. -/
def State.putOp (s : State) (c : Cmd) (p n data scope : Nat) (t : Tgt) : State :=
  { s with seq := s.seq + 2, ops := s.ops ++ [s.putFor c p n data scope t (.side (s.seq + 1))] }

/-- Perform a store of a command's fibre at a target: its write completion time; none when a conversation's log has no room (R328). -/
def State.storeAt (s : State) (c : Cmd) (t : Tgt) (q n data scope : Nat) : Option (Nat × State) :=
  let s := s.touch (s.ctxOf c.bk) t
  match s.logConv c.bk q n (fullMask n) t with
  | none => none
  | some s =>
    let s := if n = 128 then s else s.sense (some (s.ctxOf c.bk)) t
    let s := (s.gwrite { pc := c.pc, fk := c.fk } c.bk c.core false t q n data (fullMask n)).effect c.bk
    let o := { s.putFor c q n data scope t .done with id := c.op }
    let s := s.ownView o { engLane c.fk with ptr := q, tgt := t } q n data (fullMask n)
    some ((s.wcts c.core (s.scopeFor c.bk c.core scope) (scope == 0) t).1, (s.wctDrawn t).wake)

/-- Write `n` bytes as a store of the command's block with a scope: performed, staged, or side-logged while an entry is free. A Ladle waits for the page of
an absent region line (R86). -/
def State.engStore (s : State) (c : Cmd) (tu : Bool) (p n data scope : Nat) : EAcc :=
  let ctx := s.ctxOf c.bk
  let q := if tu then s.mirror ctx p else p
  let chk := if tu then s.checkT ctx p n .store (s.stagesAt c.bk q) false else s.check ctx p n n .store (s.stagesAt c.bk p)
  match s.redCheck c.bk q n none chk p with
  | .fault f det => .fail f det s
  | .wait => .wait s
  | .absent t =>
    if c.kind.ladle && (match t with | .region _ _ => true | _ => false) then
      .wait ((s.request ctx q).updCmd c.id fun c => { c with page := some q })
    else if s.sideUsed c.core < Config.sideLogEntries then .ok [] ((s.putOp c q n data scope t).request ctx q) else .wait s
  | .staged =>
    let s := match tu, s.regionT ctx p with
      | true, some (k, e) => s.touch ctx (.region k (p - e.tbase))
      | _, _ => s
    .ok [] (s.stageAt c.pc c.fk q n data (fullMask n) scope 0 none)
  | .ok t =>
    if !(s.tgtUp t) || s.ownStore c q n then .wait s
    else if s.linkDown t then .fail .ac p s
    else match s.storeAt c t q n data scope with
      | none => .fail .ac (s.rcbOf c.bk).rres s
      | some (w, s) => .ok [] (s.updCmd c.id fun c => { c with wct := max c.wct w })

/-- A command's writes are all performed, replay included, and their write completion times have passed. -/
def State.putsDone (s : State) (c : Cmd) : Bool :=
  decide (c.wct = 0 ∨ c.wct < s.tickOn (quadOf c.core)) && s.ops.all fun o => !(o.kind == .put && o.aux == c.id + 1) ||
    (o.fin && decide (o.maxWct < s.tickOf o))

/-! ### Reports -/

/-- A fault found after issue, against the command's PC and the fibre that issued it (R97, R333). -/
def State.engReport (s : State) (c : Cmd) (f : FClass) (det : Nat) : State :=
  s.reportFault c.bk { code := f.code, pc := c.pc, det := det, grp := fkG c.fk, lane := fkL c.fk } c.frame

/-- A command that fails is reported and cancelled; what it has delivered stays. -/
def State.engFail (s : State) (c : Cmd) (f : FClass) (det : Nat) : State := (s.engReport c f det).finishCmd c.id

/-- Bytes of a group's window lie in its allotment. -/
def State.winHolds (s : State) (bk g off n : Nat) : Bool := decide (off + n ≤ 256 * s.allot bk g)

/-- An engine's write into a group's window: outside the allotment at the moment of writing it is discarded and reported (R108). -/
def State.winDeliver (s : State) (c : Cmd) (bk g off : Nat) (bs : List Nat) : State :=
  if s.winHolds bk g off bs.length then s.wput { pc := c.pc, fk := c.fk } bk g off bs else s.engReport c .ac (winAddr g off)

/-- Write a line as stores in scope 3: granule by granule inside a conversation (R328). -/
def State.engLine (s : State) (c : Cmd) (p v : Nat) : EAcc :=
  if (s.convOf c.bk).isNone then s.engStore c false p 128 v 3
  else (span 0 8).foldl (fun acc j => match acc with
    | .ok _ s => s.engStore c false (p + 16 * j) 16 (bits v (128 * j) 128) 3
    | x => x) (.ok [] s)

/-- Units of work a command has done: live chunks, lines of an area, clauses. -/
def Cmd.chunks (c : Cmd) : Nat := sget 0 c.prog 0
def Cmd.setChunks (n : Nat) (c : Cmd) : Cmd := { c with prog := sset 0 c.prog 0 n }

/-- A command completes: its flags go to the GSW (R139). -/
def State.engDone (s : State) (c : Cmd) (fl : Nat) : State :=
  ((s.orGsw { pc := c.pc, fk := c.fk } c.bk c.g fl).finishCmd c.id).settle c.bk

/-! ### External records (R232, R314, R315) -/

/-- Save the state of an engine at its first write in a frame: its image is written to its place in the reserve, line by line. -/
def State.recordExt (s : State) (bk g : Nat) (item : Item) (lines : Nat) (image : Nat → Nat) : Option State :=
  match s.record bk g item with
  | none => none
  | some t => match (t.group bk g).recs with
    | [] => some t
    | r :: _ =>
      if (t.group bk g).recs.length = (s.group bk g).recs.length then some t
      else
        let base := (s.rcbOf bk).rres + r.off
        some { t with mem := (span 0 lines).foldl (fun (m : MemSt) i => m.physPut s.noCache (base + 128 * i) (natBytes 128 (image i))) t.mem }

/-! ### Lid slots and permits -/

/-- The block that holds a Lid slot. -/
def slotKey (core slot : Nat) : Nat := core * 16 + slot
def State.slotHolder (s : State) (core slot : Nat) : Nat := sget 0 s.eng.lidHold (slotKey core slot)
/-- A slot another block holds (R186). -/
def State.slotTaken (s : State) (core slot bk : Nat) : Bool :=
  s.slotHolder core slot != 0 && s.slotHolder core slot != bk + 1
def State.takeSlot (s : State) (core slot bk : Nat) : State :=
  { s with eng := { s.eng with lidHold := sset 0 s.eng.lidHold (slotKey core slot) (bk + 1) } }

def permKey (core ring stage : Nat) : Nat := core * 1024 + ring * 32 + stage
def State.permit (s : State) (core ring stage : Nat) : Option (Nat × Nat) := sget none s.eng.permits (permKey core ring stage)
def State.setPermit (s : State) (core ring stage : Nat) (p : Option (Nat × Nat)) : State :=
  { s with eng := { s.eng with permits := sset none s.eng.permits (permKey core ring stage) p } }

end Sys2Proof.Machine
end

