-- ==== Sys2Proof/Machine/Region.lean ====
section
/-!
DEFINITION. Reading memory for the command processor (R71), region-table entries and the slice ways they take (R84, R85), their release
(R87), and the work of translation invalidate and unpin (R70, R374).
-/
namespace Sys2Proof.Machine

/-! ### Reads of the command processor -/

/-- A pointer `n` bytes further on: the rid stays. -/
def ptrAdd (p n : Nat) : Nat := p / 2 ^ 56 * 2 ^ 56 + (p % 2 ^ 56 + n) % 2 ^ 56

/-- Bytes read through a context: present, waiting for a page or a stack, or refused by the check of R71. -/
inductive Got
  | ok (bs : List Nat) (s : State)
  | wait (s : State)
  | bad (s : State)

/-- Read `n` bytes at a pointer, each checked as a load of the context (R71, R375, R380). -/
def State.readCtx (s : State) (c p : Nat) : Nat → Got
  | 0 => .ok [] s
  | n + 1 => match s.check c p 1 1 .load false with
    | .ok t =>
      if !(s.tgtUp t) then .wait s
      else if s.linkDown t then .bad s
      else
        let r := ((s.touch c t).sense (some c) t).readTgt t 1
        match r.2.2.readCtx c (ptrAdd p 1) n with
        | .ok bs s => .ok (r.1 ++ bs) s
        | x => x
    | .absent _ => if s.barred c p then .bad s else .wait (s.request c p)
    | .wait => .wait s
    | _ => .bad s

/-- An instruction word read as a core fetches it (R277), for the launch checks of R283. -/
def State.codeWord (s : State) (c p : Nat) : Fetch :=
  match s.check c p 8 8 .fetch false with
  | .fault f det => .fault f det
  | .absent _ => .absent
  | .wait => .wait
  | .ok (.mem pa _) => if s.stackUp pa then .word (ofNats (s.mem.dramBytes pa 8)) else .wait
  | _ => .fault .ac p

/-! ### Region entries (R84, R85) -/

/-- The region of a table entry. -/
def regionOf (e lid : Nat) : Region :=
  { tbase := bits e 0 32, size := bits e 32 32, gbase := bits e 64 64, sfirst := bits e 128 8, scount := bits e 136 8, fill := bit e 145,
    wb := bit e 146, fei := bit e 147, rd := bit e 148, w := bit e 149, lid := lid }

/-- The table entry of a region. -/
def Region.word (r : Region) : Nat :=
  r.tbase + r.size * 2 ^ 32 + r.gbase * 2 ^ 64 + r.sfirst * 2 ^ 128 + r.scount * 2 ^ 136 + 2 ^ 144 + b2n r.fill * 2 ^ 145 +
    b2n r.wb * 2 ^ 146 + b2n r.fei * 2 ^ 147 + b2n r.rd * 2 ^ 148 + b2n r.w * 2 ^ 149

/-- The fields of a region lie in their ranges. -/
def Region.fits (r : Region) : Bool :=
  decide (r.size ≠ 0) && decide (r.size % 65536 = 0) && decide (r.tbase % 65536 = 0) && decide (r.gbase % 2 ^ 56 % 128 = 0) &&
    decide (1 ≤ r.scount) && decide (r.scount ≤ 48) && decide (r.sfirst ≤ 191) &&
    decide (r.sfirst / 48 = (r.sfirst + r.scount - 1) / 48) && decide (r.tbase + r.size ≤ 2 ^ 32)

/-- The region an entry describes, when V is set, no reserved bit is, and every field lies in its range. -/
def entryRegion (e : Nat) : Option Region :=
  if bit e 144 && bits e 150 106 == 0 && (regionOf e 0).fits then some (regionOf e 0) else none

/-- The Tureen ranges or the global va ranges of two regions overlap. -/
def Region.overlaps (r q : Region) : Bool :=
  let va := fun (x : Region) => x.gbase % 2 ^ 56
  (decide (r.tbase < q.tbase + q.size) && decide (q.tbase < r.tbase + r.size)) ||
    (decide (va r < va q + q.size) && decide (va q < va r + r.size))

/-- Ways of 1,024 lines that the region's lines take in a slice. -/
def Region.ways (r : Region) (slice : Nat) : Nat :=
  if r.sfirst ≤ slice ∧ slice < r.sfirst + r.scount then
    ((r.size / 128 + r.scount - 1 - (slice - r.sfirst)) / r.scount + 1023) / 1024
  else 0

/-- Region ways of a slice that no valid entry of any context holds. -/
def State.waysFree (s : State) (slice : Nat) : Nat :=
  min 24 (sget 0 s.host.slcfg slice) - (s.mem.regions.map fun p => match p.2 with
    | some r => r.ways slice
    | none => 0).sum

def State.waysOk (s : State) (r : Region) : Bool :=
  (span r.sfirst r.scount).all fun j => decide (r.ways j ≤ s.waysFree j)

/-- A valid entry of the context with a lower index overlaps. -/
def State.lowerOverlap (s : State) (c i : Nat) (r : Region) : Bool :=
  (s.regionsOf c).any fun p => decide (p.1 < regKey c i) && p.2.overlaps r

/-! ### Release (R87) -/

/-- Offsets of the present lines of a region. -/
def State.regionLines (s : State) (k : Nat) : List Nat :=
  (s.mem.tlines.filter fun p => p.1 / 2 ^ 25 == k && p.2.isSome).map fun p => p.1 % 2 ^ 25 * 128

def State.pinnedLines (s : State) (k : Nat) : List Nat :=
  (s.regionLines k).filter fun off => match s.mem.tline k off with
    | some t => t.pinned
    | none => false

/-- What a write-back leaves, whether or not it has to be tried again. -/
def WriteBack.state : WriteBack → State
  | .done s => s
  | .wait s => s

/-- Write the dirty lines of a list back; a line that waits for its page holds up none of the others. -/
def wbAll (c k : Nat) (again : Bool) : List Nat → State → WriteBack
  | [], s => .done s
  | off :: offs, s => match s.wbLine c k off again with
    | .done s => wbAll c k again offs s
    | .wait s => .wait (wbAll c k again offs s).state

/-- A region entry with its lines goes. -/
def State.dropRegion (s : State) (k : Nat) : State :=
  { s with mem := { s.mem with
      regions := sset none s.mem.regions k none
      tlines := sdrop s.mem.tlines (k * 2 ^ 25) (2 ^ 25)
      tmem := sdrop s.mem.tmem (k * 2 ^ 32) (2 ^ 32)
      tfe := sdrop s.mem.tfe (k * 2 ^ 28) (2 ^ 28) } }

/-- Release an entry: its dirty lines are written back; with a pinned line the entry stays and keeps its ways. -/
def State.releaseRegion (s : State) (c k : Nat) : WriteBack :=
  match wbAll c k false (s.regionLines k) s with
  | .wait s => .wait s
  | .done s => .done (if (s.pinnedLines k).isEmpty then s.dropRegion k else s)

/-- An entry becomes valid: it takes its ways and all its lines are absent. -/
def State.takeRegion (s : State) (k : Nat) (r : Region) : State :=
  { s.dropRegion k with mem := { (s.dropRegion k).mem with regions := sset none s.mem.regions k (some r) } }

/-! ### Translation invalidate (R70, R85) -/

/-- The region that entry `i` of a context asks for: a launch's entry stands as it is. -/
def State.wanted (s : State) (c i : Nat) : Option Region :=
  match sget none s.mem.regions (regKey c i) with
  | some r => if r.lid ≠ 0 then some r else entryRegion (s.mem.homeNum ((s.ctx c).trgbase + 32 * i) 32)
  | none => entryRegion (s.mem.homeNum ((s.ctx c).trgbase + 32 * i) 32)

/-- First pass: entries in force that the table no longer asks for are released. -/
def releaseChanged (c : Nat) : List Nat → State → WriteBack
  | [], s => .done s
  | i :: is, s =>
    let k := regKey c i
    match sget none s.mem.regions k with
    | none => releaseChanged c is s
    | some r =>
      if s.wanted c i = some r then releaseChanged c is s
      else match s.releaseRegion c k with
        | .done s => releaseChanged c is s
        | .wait s => .wait (releaseChanged c is s).state

/-- Second pass, in ascending index: an entry that overlaps a lower one is released, and the entries the table asks for take their ways
where they fit. -/
def takeWanted (c : Nat) : List Nat → State → WriteBack
  | [], s => .done s
  | i :: is, s =>
    let k := regKey c i
    match sget none s.mem.regions k with
    | some r =>
      if s.lowerOverlap c i r then match s.releaseRegion c k with
        | .done s => takeWanted c is s
        | .wait s => .wait s
      else takeWanted c is s
    | none => match s.wanted c i with
      | some r => takeWanted c is (if s.lowerOverlap c i r || !(s.waysOk r) then s else s.takeRegion k r)
      | none => takeWanted c is s

/-- Translation invalidate of a context: the region table comes into force, and from its completion only the present tables are read. -/
def State.invalidate (s : State) (c : Nat) : WriteBack :=
  match releaseChanged c (span 0 64) s with
  | .wait s => .wait s
  | .done s => match takeWanted c (span 0 64) s with
    | .wait s => .wait s
    | .done s => .done (s.updCtx c fun x => { x with tsnap := s.mem.view })

/-! ### Unpin (R374) -/

/-- Drop lines unwritten: they become absent. -/
def State.dropLines (s : State) (k : Nat) (offs : List Nat) : State :=
  offs.foldl (fun s off => { s with mem := { s.mem with
      tlines := sset none s.mem.tlines (tlKey k off) none
      tmem := sdrop s.mem.tmem (tbKey k off) 128
      tfe := sdrop s.mem.tfe (tgKey k off) 8 } }) s

/-! ### The entry of a launch's Tureen budget (R286) -/

/-- The lowest 64 KiB-aligned Tureen address at which `size` bytes overlap no valid entry of the context. -/
def State.freeTbase (s : State) (c size : Nat) : Option Nat :=
  let rs := (s.regionsOf c).map (·.2)
  let fits := fun (a : Nat) => decide (a + size ≤ 2 ^ 32) && rs.all fun r => decide (a + size ≤ r.tbase) || decide (r.tbase + r.size ≤ a)
  (sortBy id (0 :: rs.map fun r => r.tbase + r.size)).find? fits

/-- Runs of slices of one ready base die, longest first. -/
def State.sliceRuns (s : State) : List (Nat × Nat) :=
  (span 0 48).flatMap fun j => (span 0 4).flatMap fun q =>
    if bit s.host.hubReady (28 + q) then (span 0 (j + 1)).map fun f => (48 * q + f, 48 - j) else []

/-- The entry the command processor creates for a budget of `kib` KiB, with its index; none when R85 leaves it no place. Another entry of
lower index that it overlaps makes it invalid. -/
def State.budgetEntry (s : State) (c kib gbase lid : Nat) : Option (Nat × Region) :=
  let size := kib * 1024
  match ((span 32 32).reverse).find? fun i => (sget none s.mem.regions (regKey c i)).isNone, s.freeTbase c size with
  | some i, some t =>
    let mk := fun (x : Nat × Nat) =>
      ({ tbase := t, size := size, gbase := gbase, sfirst := x.1, scount := x.2, fill := false, wb := false, fei := false, rd := true,
         w := true, lid := lid } : Region)
    ((s.sliceRuns.map mk).find? fun r => r.fits && !(s.lowerOverlap c i r) && s.waysOk r).map fun r => (i, r)
  | _, _ => none

/-- Entries of a higher index that a new entry overlaps are no longer valid; they are released as they are, since a wait for a page is none of
the launch's. -/
def State.evictHigher (s : State) (c i : Nat) (r : Region) : State :=
  ((s.regionsOf c).filter fun p => decide (regKey c i < p.1) && p.2.overlaps r).foldl (fun s p => match s.releaseRegion c p.1 with
    | .done s => s
    | .wait s => s) s

/-- Create a launch's entry: in force at once, and written in the region table. -/
def State.createRegion (s : State) (c i : Nat) (r : Region) : State :=
  let s := (s.evictHigher c i r).takeRegion (regKey c i) r
  { s with mem := s.mem.physPut s.noCache ((s.ctx c).trgbase + 32 * i) (natBytes 32 r.word) }

/-- Release the entries that a launch created: their words in the table become zero. -/
def State.dropBudget (s : State) (c lid : Nat) : State :=
  ((s.regionsOf c).filter fun p => p.2.lid == lid).foldl (fun s p =>
    let s := s.dropRegion p.1
    { s with mem := s.mem.physPut s.noCache ((s.ctx c).trgbase + 32 * (p.1 % 64)) (natBytes 32 0) }) s

end Sys2Proof.Machine
end

