-- ==== Sys2Proof/Machine/Launch.lean ====
section
/-!
DEFINITION. Launches and regions: descriptors and templates (R282, R284), the checks of R283 and R285, acceptance and refusal, the launch
record (R302, R373), the frame in which host commands run (R280, R281, R374), `launch` (R305) and LAUNCH_END.
-/
namespace Sys2Proof.Machine

/-! ### The launch record (R302, R373) -/

/-- The fields of a launch record. -/
structure LRec where
  digest : Nat
  fpc : Nat
  faddr : Nat
  fblock : Nat
  fclass : Nat
  status : Nat
  tend : Nat
  tstart : Nat
  prio : Nat
  det : Nat
  grpm1 : Nat
  clus : Nat
  grid : Nat
  cbase : Nat
  seed : Nat
  rcb : Nat
  lid : Nat
deriving DecidableEq, Repr

def LRec.word (r : LRec) : Nat :=
  r.lid % 2 ^ 64 + r.rcb % 2 ^ 64 * 2 ^ 64 + r.seed % 2 ^ 64 * 2 ^ 128 + r.cbase % 2 ^ 64 * 2 ^ 192 + r.grid % 2 ^ 32 * 2 ^ 256 +
    r.clus % 4 * 2 ^ 288 + r.grpm1 % 128 * 2 ^ 291 + r.det % 2 * 2 ^ 298 + r.prio % 8 * 2 ^ 299 + r.tstart % 2 ^ 64 * 2 ^ 320 +
    r.tend % 2 ^ 64 * 2 ^ 384 + r.status % 256 * 2 ^ 448 + r.fclass % 16 * 2 ^ 456 + r.fblock % 2 ^ 32 * 2 ^ 464 +
    r.faddr % 2 ^ 64 * 2 ^ 512 + r.fpc % 2 ^ 64 * 2 ^ 576 + r.digest % 2 ^ 256 * 2 ^ 768

/-- A record goes to the next slot of the context's ring, when the ring is enabled, and is counted. -/
def State.writeRecord (s : State) (c : Nat) (r : LRec) : State :=
  let x := s.ctx c
  let slot := x.lrcnt % 2 ^ max (bits x.lring 8 4) 4
  let s := if bit x.lring 0 then
      { s with mem := s.mem.physPut s.noCache (x.lring / 2 ^ 12 * 2 ^ 12 + 128 * slot) (natBytes 128 r.word) }
    else s
  s.updCtx c fun x => { x with lrcnt := (x.lrcnt + 1) % 2 ^ 64 }

/-- The record of a refusal (R283, R374): what its rules leave open is a free value (notes/assumptions/5.md). -/
def State.refusal (s : State) (c d addr : Nat) (cls : Option FClass) : State :=
  let f := fun (i : Nat) => (Config.openDetail (s.free + i)).toNat
  let r : LRec :=
    { digest := 0, fpc := 0, faddr := addr, fblock := 0, fclass := match cls with | some k => k.code | none => f 5, status := 2,
      tend := s.tick, tstart := s.tick, prio := f 0, det := f 1, grpm1 := bits d 165 7, clus := bits d 163 2, grid := bits d 128 32,
      cbase := f 2, seed := f 3, rcb := f 4, lid := 0 }
  ({ s with free := s.free + 6 } : State).writeRecord c r

/-! ### Vetting (R283, R285) -/

/-- What a check of a launch came to: passed, waiting for a page, or refused. -/
inductive Vet (α : Type)
  | ok (a : α) (s : State)
  | wait (s : State)
  | no (cls : FClass) (s : State)

def Vet.bind {α β : Type} (v : Vet α) (f : α → State → Vet β) : Vet β :=
  match v with
  | .ok a s => f a s
  | .wait s => .wait s
  | .no c s => .no c s

/-- Read a number of `n` bytes; what cannot be read refuses the launch with the class of the failed check. -/
def State.vetRead (s : State) (c p n : Nat) : Vet Nat :=
  match s.readCtx c p n with
  | .ok bs s => .ok (ofNats bs) s
  | .wait s => .wait s
  | .bad s => .no .ac s

def vetIf (b : Bool) (c : FClass) (s : State) : Vet Unit := if b then .no c s else .ok () s

/-- A field of the launch descriptor is reserved and set, or out of its range (R282). -/
def descBad (d : Nat) : Bool :=
  bits d 392 8 ≠ 0 || bits d 400 48 ≠ 0 || decide (64 < bits d 384 8) || bits d 235 21 ≠ 0 || bits d 230 5 = 0 || decide (16 < bits d 230 5) ||
    bits d 224 6 = 0 || decide (48 < bits d 224 6) || bits d 192 32 % 8 ≠ 0 || bits d 179 13 ≠ 0 || decide (96 < bits d 172 7) ||
    bits d 163 2 = 3 || bits d 160 3 ≠ 0 || bits d 128 32 = 0 || decide (64 * 2 ^ bits d 163 2 < bits d 165 7 + 1)

/-- The constant table, relocated (R29). -/
def State.vetConsts (s : State) (c d : Nat) : Vet (List Nat) :=
  let n := bits d 172 7
  let image := bits d 0 64
  (s.vetRead c (bits d 256 64) 16).bind fun h s =>
    (vetIf (bits h 96 32 ≠ 0 || bits h 0 96 / 2 ^ n ≠ 0) .fm s).bind fun _ s =>
      (s.vetRead c (ptrAdd (bits d 256 64) 16) (8 * n)).bind fun t s =>
        .ok ((span 0 n).map fun i => (bits t (64 * i) 64 + if bit h i then image else 0) % 2 ^ 64) s

/-- Two output ranges overlap. -/
def outsClash : List (Nat × Nat) → Bool
  | [] => false
  | x :: xs => (xs.any fun y => decide (x.1 < y.1 + y.2) && decide (y.1 < x.1 + x.2)) || outsClash xs

/-- The output ranges (R282), in ascending start address. -/
def State.vetOuts (s : State) (c d : Nat) : Vet (List (Nat × Nat)) :=
  let n := bits d 384 8
  (s.vetRead c (bits d 320 64) (16 * n)).bind fun t s =>
    let l := (span 0 n).map fun i => (bits t (128 * i) 64, bits t (128 * i + 64) 64)
    (vetIf ((l.any fun x => x.2 = 0) || outsClash l) .fm s).bind fun _ s => .ok (sortBy (·.1) l) s

/-- Reserved bits of a template, and the form of its reduction ranges (R284). -/
def tmplBad (t : Nat) : Bool :=
  bits t 1536 512 ≠ 0 || bits t 704 320 ≠ 0 || bits t 544 32 ≠ 0 || bits t 503 9 ≠ 0 || bits t 492 4 ≠ 0

/-- Reduction range `j` of a template: pointer, length, OP. -/
def tmplRed (t j : Nat) : Nat × Nat × Nat := (bits t (1024 + 128 * j) 64, bits t (1024 + 128 * j + 64) 32, bits t (1024 + 128 * j + 124) 4)
def redBad (t : Nat) : Bool :=
  (span 0 4).any fun j => let r := tmplRed t j
    bits t (1024 + 128 * j + 96) 28 ≠ 0 || r.1 % 16 ≠ 0 || r.2.1 % 16 ≠ 0 || (r.2.1 != 0 && (r.2.2 == 0 || decide (5 < r.2.2)))

/-- Where the command processor puts a region control block, in device-owned memory (R284): a free value, 256-aligned. -/
def rcbPlace (n : Nat) : Nat := (Config.openDetail n).toNat % (Config.dramTop / 256) * 256

/-- The image of a region control block (R284). -/
def Rcb.word (r : Rcb) (lid : Nat) : Nat :=
  r.parent % 2 ^ 64 + r.seed % 2 ^ 64 * 2 ^ 64 + r.cbase % 2 ^ 64 * 2 ^ 128 + r.cycbud % 2 ^ 64 * 2 ^ 192 + r.save % 2 ^ 64 * 2 ^ 256 +
    r.rres % 2 ^ 64 * 2 ^ 320 + r.rrsize / 1024 % 2 ^ 32 * 2 ^ 384 + r.tbud % 2 ^ 32 * 2 ^ 416 + r.rsbud % 2 ^ 16 * 2 ^ 448 +
    r.cores % 256 * 2 ^ 464 + r.fdom % 256 * 2 ^ 472 + r.ovr % 2 ^ 16 * 2 ^ 480 + r.prio % 8 * 2 ^ 496 + b2n r.det * 2 ^ 499 +
    (r.depth - 1) % 8 * 2 ^ 500 + r.bto % 2 ^ 32 * 2 ^ 512 + lid % 2 ^ 64 * 2 ^ 576 + r.tgbase % 2 ^ 64 * 2 ^ 640 +
    (r.red.zip (span 0 4)).foldl (fun m x =>
      m + (x.1.1 % 2 ^ 64 + x.1.2.1 % 2 ^ 32 * 2 ^ 64 + x.1.2.2 % 16 * 2 ^ 124) * 2 ^ (1024 + 128 * x.2)) 0

/-- The region of a launch from its template and its parent's region (R284, R285); `a` is the address of its control block. -/
def mergeRcb (t a : Nat) (par : Option Rcb) : Rcb :=
  let pick := fun (j : Nat) (own : Nat) (up : Rcb → Nat) => match par with
    | some p => if bit (bits t 480 16) j then own else up p
    | none => own
  { addr := a, parent := match par with | some p => p.addr | none => 0
    seed := pick 0 (bits t 64 64) Rcb.seed, cbase := pick 1 (bits t 128 64) Rcb.cbase, cycbud := pick 2 (bits t 192 64) Rcb.cycbud
    save := bits t 256 64, rres := pick 3 (bits t 320 64) Rcb.rres, rrsize := pick 3 (bits t 384 32 * 1024) Rcb.rrsize
    tbud := pick 4 (bits t 416 32) Rcb.tbud, tgbase := pick 4 (bits t 640 64) Rcb.tgbase
    rsbud := pick 5 (bits t 448 16) Rcb.rsbud, cores := pick 6 (bits t 464 8) Rcb.cores, fdom := pick 7 (bits t 472 8) Rcb.fdom
    ovr := bits t 480 16, prio := pick 8 (bits t 496 3) Rcb.prio
    det := pick 9 (bits t 499 1) (fun p => b2n p.det) == 1
    depth := match par with | some p => p.depth + 1 | none => 1
    bto := pick 10 (bits t 512 32) Rcb.bto
    red := match par with
      | some p => if bit (bits t 480 16) 11 then (span 0 4).map (tmplRed t) else p.red
      | none => (span 0 4).map (tmplRed t) }

/-- A field of the region lies outside its range, or a budget exceeds the parent's (R284, R285, R335). -/
def rcbBad (r : Rcb) (par : Option Rcb) : Bool :=
  r.cores = 0 || decide (192 < r.cores) || decide (r.rsbud < 8) || decide (384 < r.rsbud) || r.rsbud % 8 ≠ 0 || r.tbud % 64 ≠ 0 ||
    bits r.fdom 6 2 = 3 || bits r.fdom 3 3 ≠ 0 || decide (8 < r.depth) || match par with
      | none => false
      | some p => decide (p.prio < r.prio) || decide (p.cores < r.cores) || decide (p.rsbud < r.rsbud) || decide (p.tbud < r.tbud) ||
          (p.cycbud != 0 && (r.cycbud == 0 || decide (p.cycbud < r.cycbud))) || (p.det && !r.det)

/-- The entry header (R283). -/
def State.vetEntry (s : State) (c p : Nat) : Vet Unit :=
  match s.codeWord c p with
  | .word w => vetIf (w / 2 ^ 56 ≠ 0xF1) .hd s
  | .absent => if s.barred c p then .no .ac s else .wait (s.request c p)
  | .wait => .wait s
  | .fault f _ => .no f s

/-- Words of `n` instructions from `p` on hold a Jasper opcode (R213); none where one cannot be read yet. -/
def State.jasperIn (s : State) (c p : Nat) : Nat → Option Bool
  | 0 => some false
  | n + 1 => match s.codeWord c p with
    | .word w => if 0xB0 ≤ w / 2 ^ 56 ∧ w / 2 ^ 56 ≤ 0xB7 then some true else s.jasperIn c (p + 8) n
    | .fault _ _ => some false
    | .absent => if s.barred c p then some false else none
    | .wait => none

/-- The image's blocks hold a Jasper opcode: they are read from its base on, up to the first word that is no header or to `stop`. -/
def State.jasperScan (s : State) (c stop : Nat) : Nat → Nat → Option Bool
  | 0, _ => some false
  | n + 1, p =>
    if p = stop then some false
    else match s.codeWord c p with
      | .word w =>
        if w / 2 ^ 56 < 0xF0 ∨ 0xF3 < w / 2 ^ 56 then some false
        else match s.jasperIn c (p + 8) (bits w 50 6 + 1) with
          | some false => s.jasperScan c stop n (p + 8 * (bits w 50 6 + 2))
          | x => x
      | .fault _ _ => some false
      | .absent => if s.barred c p then some false else none
      | .wait => none

def State.vetJasper (s : State) (c image stop : Nat) : Vet Bool :=
  match s.jasperScan c stop (2 ^ 29) image with
  | some b => .ok b s
  | none => .wait s

/-- Everything the checks give. -/
structure Vetted where
  consts : List Nat
  outs : List (Nat × Nat)
  tmpl : Nat
  rcb : Rcb
  jasper : Bool
deriving DecidableEq, Repr

/-- The checks of R283 and R285 but for the Tureen budget. DESIGN CHOICE: when causes of several classes hold at once the record names FM before HD before AC,
the budget's AC last (notes/assumptions/65.md). -/
def State.vet (s : State) (c d : Nat) (par : Option Rcb) : Vet Vetted :=
  (vetIf (descBad d) .fm s).bind fun _ s =>
  (s.vetConsts c d).bind fun cs s =>
  (s.vetOuts c d).bind fun outs s =>
  (s.vetRead c (bits d 64 64) 256).bind fun t s =>
    let r := mergeRcb t (rcbPlace s.free) par
    (vetIf (tmplBad t || redBad t || rcbBad r par) .fm s).bind fun _ s =>
    (s.vetEntry c ((bits d 0 64 + bits d 192 32) % 2 ^ 64)).bind fun _ s =>
    (s.vetJasper c (bits d 0 64) (bits d 256 64)).bind fun j s =>
      .ok { consts := cs, outs := outs, tmpl := t, rcb := r, jasper := j } s

/-! ### Acceptance (R283, R284, R286) -/

/-- Key of a launch. -/
def launchKey (c lid : Nat) : Nat := c * 2 ^ 64 + lid

/-- A launch takes its id, its region, whose control block is written to memory, and its snapshot. -/
def State.newLaunch (s : State) (c d : Nat) (v : Vetted) (par : Option (Nat × Launch)) : Nat × State :=
  let key := launchKey c (s.ctx c).nextLid
  let l : Launch :=
    { lid := key, ctx := c, grid := bits d 128 32, clus := bits d 163 2, grpm1 := bits d 165 7, image := bits d 0 64,
      entry := bits d 192 32, consts := v.consts, allotc := bits d 224 6, resc := bits d 230 5, done := bits d 448 64, outs := v.outs,
      rcb := v.rcb, owner := par.map (·.1), anc := match par with | some p => p.2.lid :: p.2.anc | none => []
      next := 0, halt := false, dquads := (span 0 4).filter fun q => bit s.host.hubReady (32 + q), merged := false, tstart := s.tick,
      fault := none, fblock := 0, ftag := none, status := 0, pver := (match par with | some p => p.2.pver | none => 0), rings := []
      snap := if v.rcb.det then ({ s.mem with stages := [] }, true) else (MemSt.reset, false), jasper := v.jasper }
  let mem := s.mem.physPut s.noCache v.rcb.addr (natBytes 256 (v.rcb.word key))
  (key, ({ s with launches := s.launches ++ [l], free := s.free + 1, mem := mem } : State).updCtx c fun x => { x with nextLid := (x.nextLid + 1) % 2 ^ 64 })

/-- Accept or refuse a descriptor: the key of the accepted launch. -/
def State.accept (s : State) (c d : Nat) (par : Option (Nat × Launch)) : Vet Nat :=
  (s.vet c d (par.map fun p => p.2.rcb)).bind fun v s =>
    if v.rcb.tbud = 0 then let n := s.newLaunch c d v par; .ok n.1 n.2
    else match s.budgetEntry c v.rcb.tbud v.rcb.tgbase (launchKey c (s.ctx c).nextLid) with
      | none => .no .ac s
      | some (i, r) => let n := (s.createRegion c i r).newLaunch c d v par; .ok n.1 n.2

/-! ### Host commands (R280, R281, R374) -/

/-- What a host command came to: completed; taken, to complete later; refused; waiting, with nothing done; or waiting with the part it has done. -/
inductive CmdOut
  | done (s : State)
  | taken (s : State)
  | refuse (cls : Option FClass) (s : State)
  | wait (s : State)
  | held (s : State)

/-- Only the page requests of a state that could not go on are kept. -/
def State.keepReq (s t : State) : State := { s with mem := { s.mem with preq := t.mem.preq } }

def cqLen (cfg : Nat) : Nat := 2 ^ min (max (bits cfg 4 4) 4) 15

/-- The queue the command processor serves next in a context, and the address of its entry. -/
def State.cqNext (s : State) (c : Nat) : Option (Nat × Nat) :=
  let x := s.ctx c
  ([7, 6, 5, 4, 3, 2, 1, 0].find? fun p =>
    let cfg := sget cqcfgReset x.cqcfg p
    let ptr := sget 0 x.cqptr p
    bit cfg 0 && decide (bits ptr 0 32 % cqLen cfg ≠ bits ptr 32 32 % cqLen cfg)).map fun p =>
      let cfg := sget cqcfgReset x.cqcfg p
      (p, cfg / 2 ^ 12 * 2 ^ 12 + 64 * (bits (sget 0 x.cqptr p) 0 32 % cqLen cfg))

/-- HEAD advances. -/
def State.headAdvance (s : State) (c p : Nat) : State :=
  s.updCtx c fun x =>
    let n := cqLen (sget cqcfgReset x.cqcfg p)
    let ptr := sget 0 x.cqptr p
    { x with cqptr := sset 0 x.cqptr p (setBits ptr 0 32 ((bits ptr 0 32 + 1) % n)) }

/-- Commands are taken once CC and ONYX are both set (R380), and none after a security stop (R345). -/
def State.commandsOn (s : State) : Bool := bit s.host.hubReady 38 && bit s.host.hubReady 37 && !s.host.stopped

def Ctx.setCmd (v : Option (Nat × Nat)) (x : Ctx) : Ctx := { x with cmd := v }

/-- The entry that the command processor works on for a context: the one it has read and not completed, or else the next one, which it reads, so that
HEAD advances (R281). -/
def State.takeCmd (s : State) (c : Nat) : Option (Nat × Nat × State) :=
  match (s.ctx c).cmd with
  | some (d, a) => some (d, a, s)
  | none => match s.cqNext c with
    | none => none
    | some (p, a) => if !(s.memUp a 0) then none
        else
          let d := s.mem.homeNum a 64
          some (d, a, (s.headAdvance c p).updCtx c (Ctx.setCmd (some (d, a))))

/-- Run the command of a context, when it is one of `mine`: `f` gets the entry and its address. Completion and refusal advance DONE; an entry that has been
read and has to wait is kept. -/
def State.command (s : State) (c : Nat) (mine : Nat → Bool) (f : State → Nat → Nat → CmdOut) : State :=
  match s.takeCmd c with
  | none => s
  | some (d, a, r) =>
    if !s.commandsOn || !(mine (bits d 392 8)) then s
    else
      let drop := fun (t : State) => t.updCtx c (Ctx.setCmd none)
      let fin := fun (t : State) => match t.tlAdvance c (bits d 448 64) with
        | (true, t) => drop t
        | (false, t) => r.keepReq t
      match f r d a with
      | .done t => fin t
      | .taken t => drop t
      | .refuse cls t => fin (t.refusal c d a cls)
      | .wait t => r.keepReq t
      | .held t => t

/-- Bits of an entry that a host command must leave zero. -/
def cmdResv (d : Nat) : Bool := bits d 320 72 ≠ 0

/-- HOST_LAUNCH (R281, R283): a launch descriptor; an unknown command is refused (R374). -/
def execHostLaunch (ctx : Nat) (s : State) : Host.Outcome State Fault Refusal :=
  .next (s.command ctx (fun k => decide (k = 0 ∨ 8 ≤ k)) fun s d _ =>
    if bits d 392 8 ≠ 0 then .refuse none s
    else match s.accept ctx d none with
      | .ok _ s => .taken s
      | .wait s => .wait s
      | .no cls s => .refuse (some cls) s)

/-- TRANSLATION_INVALIDATE (R70, R85, R374). -/
def execTranslationInvalidate (ctx : Nat) (s : State) : Host.Outcome State Fault Refusal :=
  .next (s.command ctx (· == 1) fun s d _ =>
    if cmdResv d then .refuse none s
    else match s.invalidate ctx with
      | .done s => .done s
      | .wait s => .held s)

/-- UNPIN (R374). -/
def execUnpin (ctx : Nat) (s : State) : Host.Outcome State Fault Refusal :=
  .next (s.command ctx (· == 2) fun s d _ =>
    let i := bits d 0 64
    let k := regKey ctx i
    let pins := s.pinnedLines k
    if cmdResv d || decide (63 < i) || pins.isEmpty then .refuse none s
    else if bit d 64 then .done (s.dropLines k pins)
    else match wbAll ctx k true pins s with
      | .done s => .done s
      | .wait s => .wait s)

/-! ### launch (R305) -/

/-- The child index of a fibre's next post (R293), and whether the post is allowed. -/
def State.childIdx (s : State) (fk : Nat) : Nat × Bool :=
  match s.fib fk, s.block? (fkBk fk) with
  | some f, some b => (fkFibre fk * 65536 + f.posts, decide (f.posts < 65536) && decide (b.path.length < 8))
  | _, _ => (0, false)

/-- A block takes a child. -/
def State.addKid (s : State) (bk : Nat) (k : Kid) : State := s.updBlock bk fun b => { b with kids := b.kids ++ [k] }

/-- The fibre has made one more post. -/
def Fibre.post (f : Fibre) : Fibre := { f with posts := f.posts + 1 }

/-- Submit one fibre's descriptor: a page that is not present holds the fibre at the instruction. -/
def launchOne (d : Option Nat) (s : State) (u : WUnit) (a : Nat × Nat) : State :=
  let fk := u.rep
  let bk := u.bk
  let c := s.ctxOf bk
  let put := fun (s : State) (v : Nat) => match d with
    | some n => s.setU { pc := s.ipc, fk := fk } bk u.g n v
    | none => s
  match s.launchOf bk with
  | none => s
  | some l => match s.accept c a.2 (some (bk, l)) with
    | .wait t => s.keepReq t
    | .ok key t =>
      let idx := if l.rcb.det then (s.childIdx fk).1 else 0
      let t := (put t (if l.rcb.det then idx else key % 2 ^ 64)).addKid bk { idx := idx, isLaunch := true, ref := key, folded := false }
      ((if l.rcb.det then t.updFib fk Fibre.post else t).effect bk).advance fk
    | .no cls t =>
      match (t.refusal c a.2 a.1 (some cls)).tlAdvance c (bits a.2 448 64) with
      | (false, t) => s.keepReq t
      | (true, t) =>
        let t := (put t 0).reportFault bk { code := cls.code, pc := s.ipc, det := a.1, grp := u.g, lane := u.l }
          (match s.block? bk with | some b => b.frameKey u.g | none => 0)
        (t.effect bk).advance fk

/-- launch (R305). -/
def execLaunch (g : Guard) (d : Option Nat) (a : Nat) (s : State) : Host.Outcome State Fault Refusal :=
  .next (runUnits s g
    (fun s u =>
      if (match d with | some n => s.busyU u.bk u.g n | none => false) then .stall
      else (planRec s u .none a 64 64).bind fun w =>
        let x := s.wnum u.bk (winGrp w) (winOff w) 64
        if bits x 392 8 ≠ 0 then .fault .fm openDet
        else if (s.rcbOf u.bk).det && !(s.childIdx u.rep).2 then .fault .fm openDet
        else .go (w, x))
    (launchOne d))

/-! ### LAUNCH_END (R299, R300, R302) -/

/-- A launch whose blocks and tasks have all come to their end. -/
def State.launchOver (s : State) (l : Launch) : Bool :=
  (l.halt || decide (l.grid ≤ l.next)) &&
    (s.blocks.filter fun b => b.lid == l.lid).all fun b => b.st == .retired && match b.task with
      | some t => t.done
      | none => true

/-- The owner of a launch belongs to a deterministic region, which takes the launch's staging as a child's (R305). -/
def State.detChild (s : State) (l : Launch) : Bool :=
  match l.owner with
  | some o => (s.rcbOf o).det
  | none => false

/-- Lay the merge of the blocks' staging out under the launch itself, in block-index order; the first conflict is recorded (R299). -/
def State.layMerge (s : State) (l : Launch) : State :=
  let roots := sortBy Block.idx (s.blocks.filter fun b => b.lid == l.lid && b.task.isNone)
  let mine := (s.blocks.filter fun b => b.lid == l.lid).map Block.uid
  let red := fun (p : Nat) => l.rcb.red.any fun r =>
    p / 2 ^ 56 == r.1 / 2 ^ 56 && decide (r.1 % 2 ^ 56 ≤ p % 2 ^ 56) && decide (p % 2 ^ 56 < r.1 % 2 ^ 56 + r.2.1)
  let plan := mergePlan red (roots.map fun b => s.ownStages b.uid)
  let kept := s.mem.stages.filter fun x => !(mine.contains x.bk)
  let laid := plan.1.map fun x => { x with bk := launchOwner l.lid, depth := 0 }
  let s := ({ s with mem := { s.mem with stages := kept ++ laid } } : State).updLaunch l.lid fun l => { l with merged := true }
  match plan.2 with
  | none => s
  | some x =>
    let dr := s.draw
    dr.2.launchFault l.lid (s.writerIdx l.lid x)
      { code := FClass.cf.code, pc := x.pc, det := (Config.openDetail dr.1).toNat, grp := fkG x.fk, lane := fkL x.fk }

/-- Lay a merged write over bytes that begin at va `lo`: a plain one as it is, a reduction with the value below (R299, R300). -/
def layOver (lo : Nat) (bs : List Nat) (x : Stg) : List Nat :=
  let va := x.ptr % 2 ^ 56
  match x.red with
  | none => (overlay [(1, lo)] [(1, va)] x.n x.data x.mask true (bs.map fun b => (b, false))).map (·.1)
  | some (op, ty) =>
    if va < lo ∨ lo + bs.length < va + x.n then bs
    else bs.take (va - lo) ++ natBytes x.n (atomNew op ty (ofNats ((bs.drop (va - lo)).take x.n)) x.data 0).1 ++ bs.drop (va - lo + x.n)

/-- The bytes of the output ranges as reads of memory `m` find them, with merged writes laid over, granule by granule; a byte that cannot be read is a free
value. -/
def State.outBytes (s : State) (c : Nat) (m : MemSt) (st : List Stg) : List (Nat × Nat) → Got
  | [] => .ok [] s
  | r :: rs =>
    let lo := r.1 / 16 * 16
    match readOpen c lo { s with mem := { m with preq := s.mem.preq } } ((r.1 + r.2 + 15) / 16 * 16 - lo) with
    | .ok bs t =>
      let s : State := { s with free := t.free, mem := { s.mem with preq := t.mem.preq } }
      let bs := ((st.foldl (layOver (lo % 2 ^ 56)) bs).drop (r.1 - lo)).take r.2
      match s.outBytes c m st rs with
      | .ok cs s => .ok (bs ++ cs) s
      | x => x
    | .wait t => .wait { s with mem := { s.mem with preq := t.mem.preq } }
    | .bad _ => .bad s
where
  /-- Read bytes one by one. -/
  readOpen (c p : Nat) (s : State) : Nat → Got
    | 0 => .ok [] s
    | n + 1 => match s.readCtx c p 1 with
      | .wait s => .wait s
      | .ok bs s => match readOpen c (ptrAdd p 1) s n with
        | .ok cs s => .ok (bs ++ cs) s
        | x => x
      | .bad s =>
        let dr := s.draw
        match readOpen c (ptrAdd p 1) dr.2 n with
        | .ok cs s => .ok ((Config.openByte dr.1).toNat :: cs) s
        | x => x

/-- What a launch's output is read from: memory after its merge; for a child of a deterministic region its snapshot, under the staging that its owner
sees and what it hands over (R298, R302). -/
def State.outView (s : State) (l : Launch) : MemSt × List Stg :=
  match l.owner with
  | some o => if (s.rcbOf o).det then (l.snap.1, s.seen o ++ s.ownStages (launchOwner l.lid)) else (s.mem, [])
  | none => (s.mem, [])

/-- Unbind the rings that a launch bound (R252). -/
def State.unbindRings (s : State) (l : Launch) : State :=
  l.rings.foldl (fun s t =>
    let w := s.ringAt t
    s.putRing Config.cores t w { ringOf w with bound := false }) s

/-- STATUS of an ending launch. -/
def Launch.endStatus (l : Launch) : Nat := if l.status ≠ 0 then l.status else if l.fault.isSome then 1 else 0

/-- The record of a launch that ends. -/
def State.endRecord (s : State) (l : Launch) (digest : Nat) : LRec :=
  { digest := digest, fpc := match l.fault with | some r => r.pc | none => 0
    faddr := match l.fault with | some r => r.det | none => 0, fblock := l.fblock
    fclass := match l.fault with | some r => r.code | none => 0, status := l.endStatus, tend := s.tick, tstart := l.tstart,
    prio := l.rcb.prio, det := b2n l.rcb.det, grpm1 := l.grpm1, clus := l.clus, grid := l.grid, cbase := l.rcb.cbase, seed := l.rcb.seed,
    rcb := l.rcb.addr, lid := l.lid }

/-- The launch leaves: its blocks and itself are no longer listed, and its owner goes on. -/
def State.dropLaunch (s : State) (l : Launch) : State :=
  let s := { s with blocks := s.blocks.filter fun b => b.lid != l.lid, launches := s.launches.filter fun x => x.lid != l.lid }
  match l.owner with
  | some o => s.settle o
  | none => s

/-- The last part of a launch's end, after its merge: entries released, rings unbound, record written, DONE advanced. -/
def State.closeLaunch (s0 s : State) (lid : Nat) : State :=
  match s.launch? lid with
  | none => s
  | some l =>
    let v := s.outView l
    match (if l.endStatus ≠ 0 ∨ l.outs = [] then Got.ok [] s else s.outBytes l.ctx v.1 v.2 l.outs) with
    | .ok bs t =>
      let digest := if l.endStatus ≠ 0 ∨ l.outs = [] then 0 else ofBytes (sha3 (bs.map (BitVec.ofNat 8)))
      let t := ((t.unbindRings l).dropBudget l.ctx lid).writeRecord l.ctx (t.endRecord l digest)
      match t.tlAdvance l.ctx l.done with
      | (true, t) => t.dropLaunch l
      | (false, t) => s0.keepReq t
    | .wait t => s0.keepReq t
    | .bad _ => s

/-- LAUNCH_END: the first time it lays the merge out; then the merge is performed as far as pages are present, and the launch ends. -/
def execLaunchEnd (lid : Nat) (s : State) : Host.Outcome State Fault Refusal :=
  .next (match s.launch? lid with
    | none => s
    | some l =>
      if !(s.launchOver l) then s
      else
        let s := if l.merged then s else s.layMerge l
        if s.detChild l then State.closeLaunch s s lid
        else match mergeList lid l.ctx (s.ownStages (launchOwner lid)) s with
          | .wait s => s
          | .done s => State.closeLaunch s s lid)

end Sys2Proof.Machine
end

