-- ==== Sys2Proof/Machine/Mailbox.lean ====
section
/-!
DEFINITION. The Beryl hub: step mailboxes, episodes and their watchdogs (R351 to R363), `msend`, `mrecv`, `mpoll`, `pver.inc` and `pver.rd`
(R364 to R370), and the host's episode commands (R374).
-/
namespace Sys2Proof.Machine

/-! ### Records and headers -/

/-- Fields of a mailbox record (R366). -/
def mrMbx (d : Nat) : Nat := bits d 80 16
def mrLen (d : Nat) : Nat := bits d 65 15
def mrPofs (d : Nat) : Nat := bits d 51 14
def mrWord (d : Nat) : Nat := bits d 96 32
def mrPtr (d : Nat) : Nat := bits d 448 64
def mrAbort (d : Nat) : Bool := bit d 50
/-- Reserved bits of a record; `mrecv` adds POFS and ABORT. -/
def mrResv (recv : Bool) (d : Nat) : Bool :=
  bits d 0 50 ≠ 0 || bits d 128 320 ≠ 0 || (recv && (mrPofs d ≠ 0 || mrAbort d))

def State.putMbx (s : State) (m : Nat) (b : Mbx) : State :=
  { s with hub := { s.hub with mbx := sset none s.hub.mbx m (some b) } }

/-- Action and observation buffers of a mailbox (R352). -/
def State.actBuf (s : State) (m : Nat) : Nat := (s.envPart.getD (0, 0)).1 + 32768 * m
def State.obsBuf (s : State) (m : Nat) : Nat := s.actBuf m + 16384

/-! ### Waiting receivers (R368) -/

/-- The `mrecv` lanes that have come to examine a mailbox and wait there, in arrival order: number, operation, lane. -/
def State.receivers (s : State) (m : Nat) : List (Nat × Nat × Nat) :=
  sortBy (·.1) ((s.lanesIn fun o x => o.kind == .mrecv && x.st == .pending && x.wct4 != 0 && mrMbx x.src == m).map fun y =>
    (y.2.2.wct4, y.1.id, y.2.1))

/-- A parked lane ends with a fault at its instruction. -/
def State.failLane (s : State) (o : Op) (k : Nat) (x : Lane) (c : FClass) (det : Nat) : State :=
  let s := (s.setStat x.fk .ready).updOp o.id fun o => (o.updLane k fun x => { x with st := .done }).settleFin
  s.takeFault o.bk { code := c.code, pc := o.pc, det := det, grp := fkG x.fk, lane := fkL x.fk }

/-- Receivers that find a mailbox in IDLE or ENDED take MB (R357, R368); one whose delivery has begun goes on. -/
def State.turnAway (s : State) (m : Nat) : State :=
  let b := s.mbx m
  if b.st == .idle || b.st == .ended then
    (s.receivers m).foldl (fun s r => match s.laneAt r.2.1 r.2.2 with
      | some (o, x) => if x.val = 0 then s.failLane o r.2.2 x .mb openDet else s
      | none => s) s
  else s

/-- Earlier sends of a receiver's group are complete. -/
def State.sendsDone (s : State) (o : Op) : Bool :=
  (s.before o.id).all fun p => !(p.kind == .msend && p.bk == o.bk && p.g == o.g) || p.fin

/-- Receivers whose wait for earlier sends is over come to examine their mailboxes, in order of issue. -/
def State.arriveRecv (s : State) : State :=
  (s.lanesIn fun o x => o.kind == .mrecv && x.st == .pending && x.wct4 == 0 && s.sendsDone o).foldl (fun s y =>
    let s := { s.setLane y.1.id y.2.1 (fun x => { x with wct4 := s.seq + 1 }) with seq := s.seq + 1 }
    s.turnAway (mrMbx y.2.2.src)) s

/-! ### Starting an episode (R353) -/

/-- The Beryl cluster and its supervisor are up (R379, R380). -/
def State.berylUp (s : State) : Bool := bit s.host.hubReady 36

/-- The window lies inside the partition above its first 2 GiB. -/
def State.windowOk (s : State) (e : Nat) : Bool :=
  match s.envPart with
  | some (base, n) => decide (1 ≤ epWsize e) && decide (epWsize e ≤ 2 ^ 20) && decide (base + 2 ^ 31 ≤ epWbase e) &&
      decide (epWbase e + epWsize e * 65536 ≤ base + n)
  | none => false

/-- The record that the supervisor writes starts an episode. -/
def State.startable (s : State) (m e : Nat) : Bool :=
  let b := s.mbx m
  s.berylUp && (b.st == .free || b.st == .ended) && decide (m < 2 ^ 16) && epValid e && bits e 128 15 == 0 && bits e 64 11 == 0 && bits e 0 16 == 0 &&
    epMode e != 3 && s.windowOk e

def State.startEpisode (s : State) (m e : Nat) : State :=
  s.putMbx m { Mbx.reset with st := .idle, epi := BitVec.ofNat 256 e, running := true }

/-- EPISODE_START (R374): the supervisor is asked; a record of another context is refused. -/
def execEpisodeStart (ctx : Nat) (s : State) : Host.Outcome State Fault Refusal :=
  .next (s.command ctx (· == 5) fun s d a =>
    if cmdResv d || epCtx (bits d 0 256) ≠ ctx then .refuse none s
    else .taken { s with hub := { s.hub with asks := s.hub.asks ++ [{ ctx := ctx, d := d, addr := a }] } })

/-- EPISODE_RECORD_WRITE (R353, R374): the supervisor answers a request for a mailbox by writing its record; the command completes, or is
refused when the record is not started. -/
def execEpisodeRecordWrite (mbx rec : Nat) (s : State) : Host.Outcome State Fault Refusal :=
  .next (match s.hub.asks.find? fun q => bits q.d 256 16 == mbx && bits q.d 0 256 == rec with
    | none => s
    | some q =>
      let t : State := { s with hub := { s.hub with asks := s.hub.asks.erase q } }
      let t := if t.startable mbx rec then t.startEpisode mbx rec else t.refusal q.ctx q.d q.addr none
      match t.tlAdvance q.ctx (bits q.d 448 64) with
      | (true, t) => t
      | (false, t) => s.keepReq t)

/-- EPISODE_KILL (R374): applied as an episode violation; refused for a mailbox of another context. -/
def execEpisodeKill (ctx : Nat) (s : State) : Host.Outcome State Fault Refusal :=
  .next (s.command ctx (· == 6) fun s d _ =>
    let m := bits d 256 16
    let b := s.mbxNow m
    if cmdResv d || b.st == .free || epCtx b.epi.toNat ≠ ctx then .refuse none s
    else .done (s.putMbx m b.violate))

/-! ### The environment side (R359 to R363) -/

/-- A hart that runs no episode, the lowest one (R351; notes/assumptions/41.md). -/
def State.freeHart (s : State) : Option Nat :=
  (span 0 Config.harts).find? fun h => s.hub.mbx.all fun p => match p.2 with
    | some b => b.hart != some h
    | none => true

/-- The mailbox with its episode on a hart: the one it has, or one that is free; none where it does not run, or waits in `wfi` for an event (R351). -/
def State.onHart (s : State) (m : Nat) : Option Mbx :=
  let b := s.mbxNow m
  if !b.running || b.asleep || !s.berylUp then none
  else match b.hart with
    | some _ => some b
    | none => s.freeHart.map fun h => { b with hart := some h }

/-- What a read of the hart returned. -/
def State.hartGets (s : State) (v : Nat) : State := { s with hub := { s.hub with word := v } }

/-- A read of BMB_TAKE (R359): in ACT the mailbox moves to RUN and the read returns VALID and the step; else it returns 0. -/
def State.take (s : State) (m : Nat) : State :=
  match s.onHart m with
  | none => s
  | some b =>
    if b.st = .act then (s.putMbx m { b with st := .run }).hartGets (2 ^ 63 + b.step % 2 ^ 63)
    else (s.putMbx m b).hartGets 0

/-- BMB_TAKE (R359): a mailbox whose episode has no hart only learns of an expiry that lies behind it. -/
def execBmbTake (mbx : Nat) (s : State) : Host.Outcome State Fault Refusal :=
  .next (match s.onHart mbx with
    | some _ => s.take mbx
    | none => if (s.mbx mbx).st == .free then s else s.putMbx mbx (s.mbxNow mbx))

/-- A write of BMB_GIVE (R355, R360): the observation is given from the header as the episode has written it; a bad give is a violation. -/
def State.giveObs (s : State) (m val : Nat) (b : Mbx) : State :=
  let h := b.hdr.toNat
  if b.st != .run || decide (val / 2 % 2 ^ 63 ≠ 0) || decide (hdrStatus h ≠ 0) || decide (16384 < hdrPofs h * 16 + hdrLen h) then s.putMbx m b.violate
  else s.putMbx m (b.give
    { pver := hdrPver b.act.toNat, step := b.step, episode := epId b.epi.toNat, reward := hdrReward h,
      vchg := hdrVchg b.act.toNat, fin := bit val 0, status := rcOk, len := hdrLen h, pofs := hdrPofs h })

/-- BMB_GIVE (R355, R360): the stores of the hart to its header and its buffer are performed, then the observation is given; a hart that waits gives none. -/
def execBmbGive (mbx val hdr : Nat) (payload : List (Nat × Byte)) (s : State) : Host.Outcome State Fault Refusal :=
  let b := s.mbxNow mbx
  .next (if !b.running || b.asleep then (if b.st == .free then s else s.putMbx mbx b)
    else
      let s := payload.foldl (fun (s : State) p =>
        if p.1 < 16384 then { s with mem := s.mem.physPut s.noCache (s.obsBuf mbx + p.1) [p.2.toNat] } else s) s
      s.giveObs mbx val { b with hdr := BitVec.ofNat 512 hdr })

/-! ### The accesses of an episode's hart (R354) -/

/-- What an address of an episode reaches. -/
inductive Reach
  | mem (pa : Nat) (read write exec : Bool)
  | actHdr (off : Nat)
  | obsHdr (off : Nat)
  | take
  | give
  | none
deriving DecidableEq, Repr

/-- The map of R354, for an access of `n` bytes. -/
def State.reach (s : State) (m : Nat) (b : Mbx) (addr n : Nat) : Reach :=
  let e := b.epi.toNat
  let hub := 0x100_0000_0000
  let within := fun (lo len : Nat) => decide (lo ≤ addr) && decide (addr + n ≤ lo + len)
  if within 0 (epWsize e * 65536) then .mem (epWbase e + addr) true true true
  else if within hub 0x40 then .actHdr (addr - hub)
  else if within (hub + 0x40) 0x40 then .obsHdr (addr - hub - 0x40)
  else if addr = hub + 0x80 ∧ n = 8 then .take
  else if addr = hub + 0x88 ∧ n = 8 then .give
  else if within 0x200_0000_0000 0x4000 then .mem (s.actBuf m + (addr - 0x200_0000_0000)) true false false
  else if within 0x300_0000_0000 0x4000 then .mem (s.obsBuf m + (addr - 0x300_0000_0000)) true true false
  else .none

def HartAcc.size : HartAcc → Nat
  | .wfi => 0
  | .load n => n
  | .fetch n => n
  | .store bs => bs.length

/-- A read of memory by an episode: bytes of a poisoned line are logged in the bank of Beryl and violate (R354). -/
def State.hartRead (s : State) (m : Nat) (b : Mbx) (pa n : Nat) : State :=
  match (span (pa / 128) ((pa + n + 127) / 128 - pa / 128)).find? s.mem.homePois with
  | some ln =>
    let d := s.draw
    (d.2.logError 412 3 6 (some (epCtx b.epi.toNat)) (max pa (ln * 128)) (Config.openDetail d.1).toNat).putMbx m b.violate
  | none => (s.putMbx m b).hartGets (s.mem.homeNum pa n)

/-- An access of an episode's hart (R354): what the map forbids is a violation (R362); by `wfi` it waits for an event of its mailbox (R351). -/
def State.hartAccess (s : State) (m addr : Nat) (acc : HartAcc) : State :=
  match s.onHart m with
  | none => s
  | some b =>
    let bad := s.putMbx m b.violate
    if acc = .wfi then s.putMbx m { b with asleep := true }
    else if acc.size = 0 ∨ 8 < acc.size then s
    else match s.reach m b addr acc.size, acc with
      | .mem pa true _ _, .load n => s.hartRead m b pa n
      | .mem pa _ _ true, .fetch n => s.hartRead m b pa n
      | .mem pa _ true _, .store bs => State.wake ({ s with mem := s.mem.physPut s.noCache pa (byteNats bs) } : State) |>.putMbx m b
      | .actHdr off, .load n => (s.putMbx m b).hartGets (bits b.act.toNat (8 * off) (8 * n))
      | .obsHdr off, .load n => (s.putMbx m b).hartGets (bits b.hdr.toNat (8 * off) (8 * n))
      | .obsHdr off, .store bs =>
        s.putMbx m { b with hdr := BitVec.ofNat 512 (setBits b.hdr.toNat (8 * off) (8 * bs.length) (ofNats (byteNats bs))) }
      | .take, .load _ => s.take m
      | .give, .store bs => s.giveObs m (ofNats (byteNats bs)) b
      | _, _ => bad

/-- Addresses of an error in an episode's access (R395): a physical address of DRAM, a word of the cluster's shared SRAM; other violations have none. -/
def episodeAddr (src addr : Nat) : Bool :=
  match src with
  | 6 => decide (addr < Config.dramTop)
  | 12 => decide (addr < Config.berylSram) && addr % 8 == 0
  | _ => true

/-- EPISODE_VIOLATION (R354, R362): with `src` 6 or 12 an uncorrectable error in its access is logged in the bank of Beryl. -/
def execEpisodeViolation (mbx src addr synd : Nat) (s : State) : Host.Outcome State Fault Refusal :=
  let b := s.mbxNow mbx
  .next (if !b.running || !(episodeAddr src addr) then s
    else
      let s := if src = 6 ∨ src = 12 then s.logError 412 3 src (some (epCtx b.epi.toNat)) addr synd else s
      s.putMbx mbx b.violate)

/-- The episode has executed `cycles` U-mode cycles: its budget is used up (R363). -/
def Mbx.cycOut (b : Mbx) (cycles : Nat) : Bool :=
  decide (epCycbud b.epi.toNat ≠ 0) && decide (b.cycles ≤ cycles) && decide (epCycbud b.epi.toNat ≤ cycles)

/-- WATCHDOG_EXPIRY (R357, R363): TICKBUD or CYCBUD has expired in ACT or RUN; the expiry acts once its tick has ended, after every give of that tick. -/
def execWatchdogExpiry (mbx cycles : Nat) (s : State) : Host.Outcome State Fault Refusal :=
  let b := s.mbxNow mbx
  .next (if b.st == .free then s
    else if b.running && b.cycOut cycles && (b.st == .act || b.st == .run) then s.putMbx mbx { b with dead := some s.tick, cycles := cycles }
    else s.putMbx mbx b)

/-- EPISODE_CYCBUD_IDLE (R363). -/
def execEpisodeCycbudIdle (mbx cycles : Nat) (s : State) : Host.Outcome State Fault Refusal :=
  let b := s.mbx mbx
  .next (if b.running && b.st == .idle && b.cycOut cycles then s.putMbx mbx { b.stop with kill := true, cycles := cycles } else s)

/-- EPISODE_STOP (R361): an episode that has ended is stopped; its V clears once the final observation is consumed. -/
def execEpisodeStop (mbx : Nat) (s : State) : Host.Outcome State Fault Refusal :=
  let b := s.mbx mbx
  .next (match b.st with
    | .ended => s.putMbx mbx { b.stop with epi := BitVec.ofNat 256 (setBits b.epi.toNat 149 1 0) }
    | .obs => if hdrEnd b.obs.toNat then s.putMbx mbx b.stop else s
    | _ => s)

/-! ### msend (R367) -/

def mbxI (kind : OpKind) (cls : Cnt) (d : Opnd) : MemI :=
  { kind := kind, cls := cls, d := d, ty := .z64, n := 0, pol := 0, qf := 0, scope := 0, aux := 0, uni := false }

/-- The mailbox belongs to another context, or to none. -/
def State.notMine (s : State) (bk m : Nat) : Bool :=
  let b := s.mbx m
  b.st == .free || epCtx b.epi.toNat != s.ctxOf bk

/-- Plan the record of `msend` or `mrecv` (R366): its window address and its contents. -/
def planMbx (s : State) (u : WUnit) (cls : Cnt) (a : Nat) (recv : Bool) : Plan (Nat × Nat) :=
  (planRec s u cls a 64 64).bind fun w =>
    let d := s.wnum u.bk (winGrp w) (winOff w) 64
    if mrResv recv d then .fault .fm openDet
    else if s.notMine u.bk (mrMbx d) || decide (16384 < mrPofs d * 16 + mrLen d) then .fault .ac openDet
    else .go (w, d)

/-- Issue one lane of a hub operation; its fibre goes on. -/
def hubLane (i : MemI) (start : Nat) (s : State) (u : WUnit) (ptr src src2 : Nat) : State :=
  let r := s.opFor i start u.bk u.g
  advanceUnit (r.2.addLane r.1 { engLane u.rep with ptr := ptr, src := src, src2 := src2, dl := maskOfUnit u }) u

/-- msend (R367): the sends of a bundle in ascending home lane. -/
def execMsend (f : EngD) (s : State) : Host.Outcome State Fault Refusal :=
  .next (runUnits s f.g
    (fun s u => if s.busyU u.bk u.g f.d then .stall else planMbx s u .st f.a false)
    (fun st u r => hubLane (mbxI .msend .st (.s f.d)) s.seq st u (mrPtr r.2) r.2 r.1))

/-- Pieces of a range that lie in one unit of `g` bytes each: pointer, bytes, offset. -/
def piecesFrom (g : Nat) : Nat → Nat → Nat → Nat → List (Nat × Nat × Nat)
  | 0, _, _, _ => []
  | f + 1, p, n, off =>
    if n = 0 then []
    else
      let k := min n (g - p % g)
      (p, k, off) :: piecesFrom g f (ptrAdd p k) (n - k) (off + k)
def pieces (g p n : Nat) : List (Nat × Nat × Nat) := piecesFrom g (n / g + 2) p n 0

/-- The operation of a mailbox lane as a command of its fibre. -/
def Op.asCmd (o : Op) (x : Lane) (id : Nat) : Cmd :=
  { id := id, op := o.id, bk := o.bk, g := o.g, core := o.core, fk := x.fk, pc := o.pc, kind := .lput, addr := 0, b := 0, sub := 0, desc := 0,
    va := [], vb := [], stat := .done, parts := [], prog := [], skip := [], wct := 0, frame := o.frame, dst := [], du := none, page := none, fill := none }

/-- Read the payload of a send piece by piece (R367, R71). -/
def readPieces (c : Cmd) : List (Nat × Nat × Nat) → State → EAcc
  | [], s => .ok [] s
  | (p, k, _) :: rest, s => match s.engLoadA c false p k 1 with
    | .ok bs s => match readPieces c rest s with
      | .ok cs s => .ok (bs ++ cs) s
      | x => x
    | x => x

/-- A send that an observation answers in place of an action: its PVER has no rule. -/
def State.answerSend (s : State) (m : Nat) (b : Mbx) (status : Nat) : State :=
  let dr := s.draw
  let b := b.give { pver := (Config.openDetail dr.1).toNat, step := b.step, episode := epId b.epi.toNat, reward := 0, vchg := false, fin := true,
                    status := status, len := 0, pofs := 0 }
  dr.2.putMbx m (if status = rcTrunc then b else b.stop)

/-- Apply a send at the hub (R357, R364): its result, none for MB. -/
def State.applySend (s : State) (bk d : Nat) (data : List Nat) : Option Nat × State :=
  let m := mrMbx d
  let b := s.mbxNow m
  match s.launchOf bk with
  | none => (none, s)
  | some l =>
    let changed := b.ver.isSome && b.ver != some l.pver
    if b.st != .idle || (b.bound.isSome && b.bound != some l.lid) then (none, s)
    else if mrAbort d then (some rcAborted, s.answerSend m b rcAborted)
    else if b.kill then (some rcKilled, s.answerSend m b rcKilled)
    else if epMode b.epi.toNat = 2 ∧ changed then (some rcTrunc, s.answerSend m b rcTrunc)
    else if epMode b.epi.toNat = 0 ∧ changed then (some rcStale, s)
    else
      let h : Hdr := { pver := l.pver, step := b.step, episode := epId b.epi.toNat, reward := mrWord d, vchg := changed, fin := false,
                       status := 0, len := mrLen d, pofs := mrPofs d }
      let s : State := { s with mem := s.mem.physPut s.noCache (s.actBuf m + 16 * mrPofs d) data }
      (some rcOk, s.putMbx m { b.rouse with
        st := .act, act := BitVec.ofNat 512 h.word, bound := some l.lid, ver := some l.pver, dead := armAt s.tick (epTickbud b.epi.toNat) })

/-- A send is over: D takes its result. -/
def State.sendEnd (s : State) (o : Op) (k : Nat) (x : Lane) (v : Nat) : State :=
  ((s.effect o.bk).writeBackD o x true v false).doneLane o.id k fun x => x

/-- A send fails: it is reported and D takes 0xFF (R367). -/
def State.sendBad (s : State) (o : Op) (k : Nat) (x : Lane) (f : FClass) (det : Nat) : State :=
  (s.reportFault o.bk { code := f.code, pc := o.pc, det := det, grp := fkG x.fk, lane := fkL x.fk } o.frame).sendEnd o k x rcFault

/-- One lane's send: the payload is read, the event applied, D written (R367). -/
def State.sendLane (s : State) (o : Op) (k : Nat) (x : Lane) : State :=
  let n := mrLen x.src
  if n ≠ 0 ∧ x.ptr % 16 ≠ 0 then s.sendBad o k x .ma x.ptr
  else match readPieces (o.asCmd x s.seq) (pieces 16 x.ptr n) s with
    | .wait t => s.keepReq t
    | .fail f det t => t.sendBad o k x f det
    | .ok bs t => match t.applySend o.bk x.src bs with
      | (some v, t) => t.sendEnd o k x v
      | (none, t) => t.sendBad o k x .mb openDet

/-- The next send of an operation, once the group's earlier stores are complete in scope 4. -/
def State.sendNext (s : State) (id : Nat) : State :=
  match s.op? id with
  | none => s
  | some o =>
    if o.kind ≠ .msend ∨ !(s.sc4Ready o) then s
    else match (o.lanes.mapIdx fun k x => (k, x)).find? fun p => !p.2.st.isDone with
      | some (k, x) => s.sendLane o k x
      | none => s

/-- MSEND_APPLY (R357, R367): the hub applies the next send of an operation. -/
def execMsendApply (op : Nat) (s : State) : Host.Outcome State Fault Refusal :=
  .next (match s.op? op with
    | some o => ((s.sendNext op).afterAccess o.bk).arriveRecv
    | none => s)

/-! ### mrecv (R368) -/

/-- mrecv (R368): the fibres park; those with no send to wait for examine their mailboxes at once. -/
def execMrecv (f : Eng) (s : State) : Host.Outcome State Fault Refusal :=
  let i := mbxI .mrecv .ld (.v 0)
  .next (State.arriveRecv (runUnits s f.g (fun s u => planMbx s u .ld f.a true) fun st u x =>
    let r := st.opFor i s.seq u.bk u.g
    parkUnit (r.2.addLane r.1 { engLane u.rep with ptr := mrPtr x.2, src := x.2, src2 := x.1, dl := maskOfUnit u }) u .lane))

/-- The check of one piece of a delivery (R71, R375, R380). -/
def State.pieceChk (s : State) (c : Cmd) (p k : Nat) : Chk :=
  match s.redCheck c.bk p k none (s.check (s.ctxOf c.bk) p k 1 .store (s.stagesAt c.bk p)) p with
  | .ok t => if !(s.tgtUp t) then .wait else if s.linkDown t then .fault .ac p else .ok t
  | x => x

/-- What holds a delivery up or makes it fail: the first piece that cannot be stored. -/
def State.pieceBad (s : State) (c : Cmd) (l : List (Nat × Nat × Nat)) : Option (Nat × Chk) :=
  l.findSome? fun x => match s.pieceChk c x.1 x.2.1 with
    | .ok _ => none
    | .staged => none
    | k => some (x.1, k)

/-- Store the pieces: the latest write completion time, none when a record finds no room. -/
def storePieces (c : Cmd) (data : List Nat) : List (Nat × Nat × Nat) → State → Option (Nat × State)
  | [], s => some (0, s)
  | (p, k, off) :: rest, s =>
    let v := ofNats ((data.drop off).take k)
    match s.pieceChk c p k with
    | .ok t => match s.storeAt c t p k v 3 with
      | none => none
      | some (w, s) => (storePieces c data rest s).map fun r => (max w r.1, r.2)
    | _ => storePieces c data rest (s.stageAt c.pc c.fk p k v (fullMask k) 3 0 none)

/-- A delivery that fails is reported, and leaves the observation unconsumed. -/
def State.recvFail (s : State) (o : Op) (k : Nat) (x : Lane) (c : FClass) (det : Nat) : State :=
  (s.reportFault o.bk { code := c.code, pc := o.pc, det := det, grp := fkG x.fk, lane := fkL x.fk } o.frame).doneLane o.id k fun x => x

/-- The first part of a delivery: the payload. -/
def State.recvPayload (s : State) (o : Op) (k : Nat) (x : Lane) (b : Mbx) : State :=
  let m := mrMbx x.src
  let h := b.obs.toNat
  let n := min (hdrLen h) (mrLen x.src)
  let c := o.asCmd x s.seq
  let l := pieces 16 x.ptr n
  match s.winCheck o.bk (mrWord x.src) 64 64 with
  | some (f, det) => s.recvFail o k x f det
  | none => match s.pieceBad c l with
    | some (p, .absent _) => s.request (s.ctxOf o.bk) p
    | some (_, .fault f det) => s.recvFail o k x f det
    | some _ => s
    | none =>
      match storePieces c (s.mem.homeBytes (s.obsBuf m + 16 * hdrPofs h) n) l s with
      | none => s.recvFail o k x .ac (s.rcbOf o.bk).rres
      | some (w, s) => (s.putMbx m b).setLane o.id k fun x => { x with val := 1, wct := w }

/-- The second part: the header with its full granules, and the observation is consumed. -/
def State.recvHeader (s : State) (o : Op) (k : Nat) (x : Lane) (b : Mbx) : State :=
  let m := mrMbx x.src
  let w := mrWord x.src
  match s.winCheck o.bk w 64 64 with
  | some (f, det) => s.recvFail o k x f det
  | none =>
    let t : Tgt := .win o.bk (winGrp w) (winOff w)
    let s := (s.wput { pc := o.pc, fk := x.fk } o.bk (winGrp w) (winOff w) (natBytes 64 b.obs.toNat)).effect o.bk
    let s := s.putMbx m { b.rouse with st := if hdrEnd b.obs.toNat then .ended else .idle, step := (b.step + 1) % 2 ^ 64 }
    ((s.doneLane o.id k fun x => x).fillAt t 64).turnAway m

/-- A delivery goes on, to the receiver that arrived first. -/
def State.recvStep (s : State) (id k : Nat) : State :=
  match s.laneAt id k with
  | none => s
  | some (o, x) =>
    let m := mrMbx x.src
    let b := s.mbxNow m
    if o.kind ≠ .mrecv ∨ x.st ≠ .pending ∨ x.wct4 = 0 ∨ b.st ≠ .obs then s
    else
      let s := if x.val = 0 then
          (if (s.receivers m).head? = some (x.wct4, id, k) ∧ s.running o.bk ∧ s.orderReady o x then s.recvPayload o k x b else s)
        else s
      match s.laneAt id k with
      | some (o, x) => if x.st = .pending ∧ x.val = 1 ∧ (x.wct = 0 ∨ x.wct < s.tick) then s.recvHeader o k x b else s
      | none => s

/-- MRECV_DELIVERY (R368). -/
def execMrecvDelivery (op lane : Nat) (s : State) : Host.Outcome State Fault Refusal :=
  .next (match s.op? op with
    | some o => (s.recvStep op lane).afterAccess o.bk
    | none => s)

/-! ### mpoll and pver (R369, R370) -/

/-- mpoll (R369). -/
def execMpoll (f : EngD) (s : State) : Host.Outcome State Fault Refusal :=
  .next (runUnits s f.g
    (fun s u => match planOperands s u none [⟨.s f.a, false, true⟩] [true] with
      | .stall => .stall
      | .fault c det => .fault c det
      | .go (_, rs) =>
        let v := (readSrcs s u [⟨.s f.a, false, true⟩] rs).getD 0 0
        if s.busyU u.bk u.g f.d || s.cntFull u .ld || s.acqWait u.rep then .stall
        else if v / 2 ^ 16 ≠ 0 then .fault .fm openDet
        else if s.notMine u.bk v then .fault .ac openDet
        else .go v)
    (fun st u v => hubLane (mbxI .mpoll .ld (.s f.d)) s.seq st u 0 v 0))

/-- Issue of a `pver` form. -/
def runPver (s : State) (kind : OpKind) (cls : Cnt) (g : Guard) (d : Nat) : State :=
  runUnits s g
    (fun s u => if s.busyU u.bk u.g d || s.cntFull u cls || s.acqWait u.rep then .stall else .go ())
    (fun st u _ => hubLane (mbxI kind cls (.s d)) s.seq st u 0 0 0)

/-- pver.inc (R370). -/
def execPverInc (g : Guard) (d : Nat) (s : State) : Host.Outcome State Fault Refusal := .next (runPver s .pverInc .st g d)
/-- pver.rd (R370). -/
def execPverRd (g : Guard) (d : Nat) (s : State) : Host.Outcome State Fault Refusal := .next (runPver s .pverRd .ld g d)

/-- One fibre's increment; one past 2^64 − 1 is refused and reported. -/
def State.pverLane (s : State) (o : Op) (k : Nat) (x : Lane) : State :=
  match s.launchOf o.bk with
  | none => s
  | some l =>
    let s := if l.pver + 1 < 2 ^ 64 then (s.updLaunch l.lid fun l => { l with pver := l.pver + 1 }).effect o.bk
      else s.reportFault o.bk { code := FClass.ac.code, pc := o.pc, det := 2 ^ 64 - 1, grp := fkG x.fk, lane := fkL x.fk } o.frame
    let v := match s.launchOf o.bk with
      | some l => l.pver
      | none => 0
    (s.writeBackD o x true v false).doneLane o.id k fun x => x

/-- POLICY_VERSION_APPLY (R370): the increments of an operation's instruction, in ascending home lane. -/
def execPolicyVersionApply (op : Nat) (s : State) : Host.Outcome State Fault Refusal :=
  .next (match s.op? op with
    | none => s
    | some o =>
      if o.kind ≠ .pverInc then s
      else
        let ls := s.turnLanes o
        ls.foldl (fun s p => s.afterAccess p.1.bk) (ls.foldl (fun s p => s.pverLane p.1 p.2.1 p.2.2) s))

/-! ### An invalid page (R97) -/

/-- Sends and deliveries that wait for a page of a range are tried again under a verdict. -/
def State.mailPage (s : State) (c : Nat) : State :=
  let s := ((s.lanesIn fun o x => o.kind == .msend && !x.st.isDone && s.ctxOf o.bk == c).map fun y => y.1.id).eraseDups.foldl State.sendNext s
  ((s.lanesIn fun o x => o.kind == .mrecv && x.st == .pending && x.val == 0 && s.ctxOf o.bk == c).foldl (fun s y => s.recvStep y.1.id y.2.1) s).arriveRecv

end Sys2Proof.Machine
end

