-- ==== Sys2Proof/Machine/Host.lean ====
section
/-!
DEFINITION. The host's register writes (R65, R82, R105, R280, R336, R344, R346, R352, R371, R372), its reads and writes of device memory
(R396), the accesses of peers (R61, R245, R375), the collective command (R146, R376) and the creation of a context (R373).
-/
namespace Sys2Proof.Machine

/-! ### Windows (R371, R372) -/

def State.updHost (s : State) (f : HostSt → HostSt) : State := { s with host := f s.host }

def State.answer (s : State) (r : Reply) : State := s.updHost fun h => { h with reply := r }

/-- A context is assigned to a host function (R371). -/
def State.owns (s : State) (fn ctx : Nat) : Bool :=
  let e := sget 0 s.host.ctxmap ctx
  decide (ctx < 64) && decide (fn ≤ 32) && bit e 8 && bits e 0 6 == fn

/-- An access of a function to a window: without the window it completes as an unsupported request. -/
def State.viaCtx (s : State) (fn ctx : Nat) (f : State → State) : State := if s.owns fn ctx then f s else s.answer .unsupported

/-- Write-1-to-clear of an error record bank: the records of the same tick count as later ones (R343, R344). -/
def State.clearErb (s : State) (unit val : Nat) : State :=
  if bit val 63 then s.updHost fun h => { h with erb := match sget none h.erb unit, sget none h.erbNew unit with
    | some e, some (t, n) => sset none h.erb unit (some (if t = s.tick then n else { e with valid := false, ovf := 0 }))
    | some e, none => sset none h.erb unit (some { e with valid := false, ovf := 0 })
    | none, _ => h.erb }
  else s

/-- Write-1-to-clear of DRAMC_ACTSTAT (R65): ALERTS is cleared by bit 32, BOCLK by bit 0. -/
def State.clearActstat (s : State) (stack val : Nat) : State :=
  s.updHost fun h =>
    let v := sget 0 h.actstat stack
    let v := if bit val 32 then setBits v 32 32 0 else v
    { h with actstat := sset 0 h.actstat stack (if bit val 0 then setBits v 0 32 0 else v) }

/-- DRAMC_ACTCFG: its reserved fields read zero (R65). -/
def State.putActcfg (s : State) (stack val : Nat) : State :=
  s.updHost fun h => { h with actcfg := sset actcfgReset h.actcfg stack (bits val 4 16 * 16) }

/-- CTX_EVQCFG (R336): BASE, LOG2N and EN are written; writing 1 to bit 2 clears LOST. -/
def State.putEvqcfg (s : State) (c q val : Nat) : State :=
  s.updCtx c fun x =>
    let old := sget evqcfgReset x.evqcfg q
    let lost := if bit val 2 then 0 else bits old 2 6
    { x with evqcfg := sset evqcfgReset x.evqcfg q (setBits (setBits (val % 2 ^ 64) 1 1 0) 2 6 lost) }

/-- CTX_CQPTR (R280, R281): the host writes TAIL. -/
def State.putTail (s : State) (c q val : Nat) : State :=
  s.updCtx c fun x => { x with cqptr := sset 0 x.cqptr q (setBits (sget 0 x.cqptr q) 32 32 (bits val 32 32)) }

/-- Clear a level 1 or 2 alarm (R346). -/
def State.clearAlarm (s : State) (val : Nat) : State :=
  s.updHost fun h => if bit val 0 && bits h.alarm 0 2 != 3 then { h with alarm := 0 } else h

/-- TUREEN_SLCFG (R82): ignored while a valid region entry names the slice; when no way is left for the cache, the lines that the slice holds leave it. -/
def State.putSlcfg (s : State) (slice val : Nat) : State :=
  let named := s.mem.regions.any fun p => match p.2 with
    | some r => decide (r.sfirst ≤ slice) && decide (slice < r.sfirst + r.scount)
    | none => false
  if named || decide (192 ≤ slice) then s
  else
    let held := if 24 ≤ val % 32 then (s.mem.htag.map (·.1)).filter fun ln => homeOf (ln * 128) == slice else []
    ({ s with mem := held.foldl (fun (m : MemSt) ln => m.evict ln false) s.mem } : State).updHost fun h =>
      { h with slcfg := sset 0 h.slcfg slice (val % 32) }

/-- BERYL_ENVCFG (R352): ignored while an episode record is valid. -/
def State.putEnvcfg (s : State) (val : Nat) : State :=
  let valid := s.hub.mbx.any fun p => match p.2 with
    | some b => b.st != .free && epValid b.epi.toNat
    | none => false
  if valid then s else s.updHost fun h => { h with envcfg := setBits (val % 2 ^ 64) 7 23 0 }

/-- A write in the management window, by offset (R372). -/
def State.mgmtWrite (s : State) (off val : Nat) : State :=
  if off % 8 ≠ 0 then s
  else if off < 0x33C0 then (if off % 32 = 0 then s.clearErb (off / 32) val else s)
  else if off = 0x4040 then s.clearAlarm val
  else if off = 0x4048 then s.putEnvcfg val
  else if 0x4100 ≤ off ∧ off < 0x4300 then
    s.updHost fun h => { h with ctxmap := sset 0 h.ctxmap ((off - 0x4100) / 8) (bits val 0 6 + b2n (bit val 8) * 256) }
  else if 0x4400 ≤ off ∧ off < 0x4C00 then
    s.updHost fun h => { h with route := sset 0 h.route ((off - 0x4400) / 8) (bits val 0 4 + b2n (bit val 8) * 256) }
  else if 0x5000 ≤ off ∧ off < 0x50C0 then
    (if off % 16 = 0 then s.putActcfg ((off - 0x5000) / 16) val else s.clearActstat ((off - 0x5000) / 16) val)
  else if 0x5400 ≤ off ∧ off < 0x5A00 then s.putSlcfg ((off - 0x5400) / 8) val
  else s

/-- A write in a context window, by offset (R372). -/
def State.ctxWrite (s : State) (c off val : Nat) : State :=
  let v := val % 2 ^ 64
  if off % 8 ≠ 0 then s
  else if off = 0x000 then s.updCtx c fun x => { x with ptroot := v }
  else if off = 0x008 then s.updCtx c fun x => { x with bndbase := v }
  else if off = 0x010 then s.updCtx c fun x => { x with trgbase := v }
  else if off = 0x018 then s.updCtx c fun x => { x with scpbase := v }
  else if off = 0x020 then s.updCtx c fun x => { x with rncfg := v }
  else if off = 0x028 then s.updCtx c fun x => { x with diag := v % 2 }
  else if off = 0x030 then s.updCtx c fun x => { x with lring := setBits v 1 7 0 }
  else if 0x100 ≤ off ∧ off < 0x180 then
    let p := (off - 0x100) / 16
    if off % 16 = 0 then s.updCtx c fun x => { x with cqcfg := sset cqcfgReset x.cqcfg p (setBits (setBits v 8 4 0) 1 3 0) }
    else s.putTail c p v
  else if 0x200 ≤ off ∧ off < 0x280 then
    let q := (off - 0x200) / 16
    if off % 16 = 0 then s.putEvqcfg c q v
    else s.updCtx c fun x => { x with evqptr := sset 0 x.evqptr q (setBits (sget 0 x.evqptr q) 32 32 (bits v 32 32)) }
  else s

/-- The status register of an error record bank (R343). -/
def Erb.status (e : Erb) : Nat :=
  e.ctx % 64 + b2n e.cv * 2 ^ 6 + e.ovf % 2 ^ 16 * 2 ^ 32 + e.src % 256 * 2 ^ 48 + e.rank % 4 * 2 ^ 61 + b2n e.valid * 2 ^ 63

/-- The register at an offset of the management window (R372), none where there is none. -/
def State.mgmtReg (s : State) (off : Nat) : Option Nat :=
  let h := s.host
  let i := fun (base step : Nat) => (off - base) / step
  if off % 8 ≠ 0 then none
  else if off < 0x33C0 then
    let e := (sget none h.erb (off / 32)).getD Erb.reset
    some (match off % 32 with
      | 0 => e.status
      | 8 => e.addr
      | 16 => e.synd
      | _ => e.tick)
  else if off = 0x4000 then some h.hubReady
  else if 0x4008 ≤ off ∧ off < 0x4028 then some (sget 0 h.coreRdy (i 0x4008 8))
  else if off = 0x4040 then some h.alarm
  else if off = 0x4048 then some h.envcfg
  else if 0x4100 ≤ off ∧ off < 0x4300 then some (sget 0 h.ctxmap (i 0x4100 8))
  else if 0x4400 ≤ off ∧ off < 0x4C00 then some (sget 0 h.route (i 0x4400 8))
  else if 0x5000 ≤ off ∧ off < 0x50C0 then
    some (if off % 16 = 0 then sget actcfgReset h.actcfg (i 0x5000 16) else sget 0 h.actstat (i 0x5000 16))
  else if 0x5400 ≤ off ∧ off < 0x5A00 then some (sget 0 h.slcfg (i 0x5400 8))
  else if 0x6000 ≤ off ∧ off < 0x6600 then some (sget 0 h.dccfg (i 0x6000 8))
  else none

/-- The register at an offset of a context window (R372). -/
def State.ctxReg (s : State) (c off : Nat) : Option Nat :=
  let x := s.ctx c
  if off % 8 ≠ 0 then none
  else if off < 0x40 then [x.ptroot, x.bndbase, x.trgbase, x.scpbase, x.rncfg, x.diag, x.lring, x.lrcnt][off / 8]?
  else if 0x100 ≤ off ∧ off < 0x180 then
    some (if off % 16 = 0 then sget cqcfgReset x.cqcfg ((off - 0x100) / 16) else sget 0 x.cqptr ((off - 0x100) / 16))
  else if 0x200 ≤ off ∧ off < 0x280 then
    some (if off % 16 = 0 then sget evqcfgReset x.evqcfg ((off - 0x200) / 16) else sget 0 x.evqptr ((off - 0x200) / 16))
  else none

/-- The window, and the offset in it, that an address of a function's base address register reaches (R371): the physical function's BAR0 is the
management window and its BAR2 the context windows; a virtual function's BAR0 holds the windows of its contexts in ascending order. -/
def State.barWindow (s : State) (fn bar off : Nat) : Option (Win × Nat) :=
  let pick := fun (c : Nat) => if s.owns fn c then some (Win.ctx c, off % 4096) else none
  if fn = 0 then
    if bar = 0 ∧ off < 65536 then some (.mgmt, off)
    else if bar = 2 ∧ off < 64 * 4096 then pick (off / 4096)
    else none
  else if bar = 0 then (((span 0 64).filter (s.owns fn))[off / 4096]?).bind pick
  else none

/-- A function reads eight bytes through a base address register (R371, R372): an offset without a register gives a free value. -/
def State.barRead (s : State) (fn bar off : Nat) : State :=
  let reply := fun (r : Option Nat) => match r with
    | some v => s.answer (.data ((natBytes 8 v).map (BitVec.ofNat 8)) false)
    | none => let d := s.draw; d.2.answer (.data ((natBytes 8 (Config.openDetail d.1).toNat).map (BitVec.ofNat 8)) false)
  match s.barWindow fn bar off with
  | none => s.answer .unsupported
  | some (.mgmt, o) => reply (s.mgmtReg o)
  | some (.ctx c, o) => reply (s.ctxReg c o)

/-- A function writes eight bytes through a base address register (R371, R372). -/
def State.barWrite (s : State) (fn bar off val : Nat) : State :=
  match s.barWindow fn bar off with
  | none => s.answer .unsupported
  | some (.mgmt, o) => s.mgmtWrite o val
  | some (.ctx c, o) => s.ctxWrite c o val

/-- REGISTER_WRITE (R371, R372): the management window belongs to the physical function. -/
def execRegisterWrite (fn : Nat) (win : Win) (off val : Nat) (s : State) : Host.Outcome State Fault Refusal :=
  .next (match win with
    | .mgmt => if fn = 0 then s.mgmtWrite off val else s.answer .unsupported
    | .ctx c => s.viaCtx fn c fun s => s.ctxWrite c off val)

/-- ERB_STATUS_CLEAR (R344). -/
def execErbStatusClear (unit val : Nat) (s : State) : Host.Outcome State Fault Refusal := .next (s.clearErb unit val)

/-- DRAMC_ACTSTAT_CLEAR (R65). -/
def execDramcActstatClear (stack val : Nat) (s : State) : Host.Outcome State Fault Refusal :=
  .next (if stack < Config.nStacks then s.clearActstat stack val else s)

/-- EVQ_LOST_CLEAR (R336). -/
def execEvqLostClear (fn ctx q val : Nat) (s : State) : Host.Outcome State Fault Refusal :=
  .next (s.viaCtx fn ctx fun s => if q < 8 then s.putEvqcfg ctx q val else s)

/-- ONYX_ALARM_CLEAR (R346). -/
def execOnyxAlarmClear (val : Nat) (s : State) : Host.Outcome State Fault Refusal := .next (s.clearAlarm val)

/-- TUREEN_SLCFG_WRITE (R82). -/
def execTureenSlcfgWrite (slice val : Nat) (s : State) : Host.Outcome State Fault Refusal := .next (s.putSlcfg slice val)

/-- CORE_DCCFG_WRITE (R105): Silivo sets the carve between placements; the cache starts without lines. -/
def execCoreDccfgWrite (core val : Nat) (s : State) : Host.Outcome State Fault Refusal :=
  .next (if !(s.coreGroups core).isEmpty || decide (Config.cores ≤ core) then s
    else
      let s : State := { s with mem := { s.mem with copies := s.mem.copies.filter fun c => c.core != core } }
      s.updHost fun h => { h with dccfg := sset 0 h.dccfg core (val % 4) })

/-- BERYL_ENVCFG_WRITE (R352). -/
def execBerylEnvcfgWrite (val : Nat) (s : State) : Host.Outcome State Fault Refusal := .next (s.putEnvcfg val)

/-- CQ_TAIL_WRITE (R280, R281). -/
def execCqTailWrite (fn ctx q val : Nat) (s : State) : Host.Outcome State Fault Refusal :=
  .next (s.viaCtx fn ctx fun s => if q < 8 then s.putTail ctx q val else s)

/-- CONTEXT_CREATION (R302, R373): launch ids start at 1 and the record count at 0; a context with launches under way is not created anew. -/
def execContextCreation (ctx : Nat) (s : State) : Host.Outcome State Fault Refusal :=
  .next (if decide (64 ≤ ctx) || (s.launches.any fun l => l.ctx == ctx) then s
    else s.updCtx ctx fun x => { x with made := true, nextLid := 1, lrcnt := 0 })

/-! ### Host accesses to memory (R396) -/

/-- The check of one piece: the host reaches the copy in memory, not a region's lines (R87). -/
def State.hostChk (s : State) (c p k : Nat) (kind : Kind) : Chk :=
  match s.boundsCheck c p k 1 kind with
  | some f => .fault f p
  | none => match s.leafCheck c p kind with
    | .ok (.mem pa mt) => if s.memUp pa mt then .ok (.mem pa mt) else .wait
    | .ok _ => .fault .ac p
    | x => x

/-- All pieces checked: their targets, an abort with the pages to ask for, or a stack that is not ready. -/
inductive Checked
  | ok (l : List (Tgt × Nat × Nat))
  | abort (s : State)
  | wait

def State.hostAll (s : State) (c : Nat) (kind : Kind) : List (Nat × Nat × Nat) → Checked
  | [] => .ok []
  | (p, k, off) :: rest => match s.hostChk c p k kind with
    | .ok t => match s.hostAll c kind rest with
      | .ok l => .ok ((t, k, off) :: l)
      | x => x
    | .absent _ => .abort (s.request c p)
    | .wait => .wait
    | _ => .abort s

/-- HOST_READ (R63, R396). -/
def execHostRead (fn ctx ptr n : Nat) (s : State) : Host.Outcome State Fault Refusal :=
  .next (s.viaCtx fn ctx fun s => match s.hostAll ctx .load (pieces 128 ptr n) with
    | .wait => s
    | .abort s => s.answer .abort
    | .ok l =>
      let bs := l.flatMap fun x => (s.readTgt x.1 x.2.1).1
      (l.foldl (fun s x => s.sense (some ctx) x.1) s).answer (.data (bs.map (BitVec.ofNat 8)) (l.any fun x => (s.readTgt x.1 x.2.1).2.1)))

/-- HOST_WRITE (R245, R396): performed at the home slices in the order of its bytes, or discarded. -/
def execHostWrite (fn ctx ptr : Nat) (bytes : List Byte) (s : State) : Host.Outcome State Fault Refusal :=
  .next (s.viaCtx fn ctx fun s => match s.hostAll ctx .store (pieces 128 ptr bytes.length) with
    | .wait => s
    | .abort s => s
    | .ok l => State.wake (l.foldl (fun s x => s.writeTgt Config.cores false x.1 (byteNats ((bytes.drop x.2.2).take x.2.1))) s))

/-! ### Peers (R61, R245, R375) -/

/-- An access over a port reaches memory: the link and the stacks are up. -/
def State.peerOk (s : State) (port pa n : Nat) : Bool :=
  bit s.host.hubReady port && decide (port < 16) && decide (pa + n ≤ Config.dramTop) &&
    (pieces 4096 pa n).all fun x => s.memUp x.1 0

def State.linkGood (s : State) (port : Nat) : State := s.updHost fun h => { h with links := sset 0 h.links port 0 }

/-- PEER_WRITE (R245). -/
def execPeerWrite (port pa : Nat) (bytes : List Byte) (s : State) : Host.Outcome State Fault Refusal :=
  .next (if s.peerOk port pa bytes.length then
      State.wake ((pieces 128 pa bytes.length).foldl (fun s x =>
        s.writeTgt Config.cores false (.mem x.1 0) (byteNats ((bytes.drop x.2.2).take x.2.1))) (s.linkGood port))
    else s)

/-- PEER_READ (R61). -/
def execPeerRead (port pa n : Nat) (s : State) : Host.Outcome State Fault Refusal :=
  .next (if s.peerOk port pa n then
      let l := pieces 128 pa n
      (l.foldl (fun s x => s.sense none (.mem x.1 0)) (s.linkGood port)).answer (.data ((l.flatMap fun x => s.mem.homeBytes x.1 x.2.1).map (BitVec.ofNat 8))
        (l.any fun x => s.mem.homePois (x.1 / 128)))
    else if (pieces 4096 pa n).any fun x => s.stackFailed x.1 || decide (Config.dramTop ≤ x.1) then s.answer .abort
    else s)

/-! ### Collective operations (R146, R376) -/

def coOp (d : Nat) : Nat := bits d 0 4
def coFmt (d : Nat) : Nat := bits d 4 4
def coRank (d : Nat) : Nat := bits d 8 8
def coP (d : Nat) : Nat := bits d 16 8 + 1
def coCount (d : Nat) : Nat := bits d 192 64
def coBf (d : Nat) : Bool := coFmt d == 0
/-- Bytes of an element; gathers and scatters count bytes. -/
def coSize (d : Nat) : Nat := if 2 ≤ coOp d then 1 else if coBf d then 2 else 4

/-- Bytes that a module of a rank contributes (notes/assumptions/31.md). -/
def coOwn (d : Nat) : Nat :=
  match coOp d with
  | 1 => coP d * coCount d * coSize d
  | 3 => if coRank d = 0 then coP d * coCount d else 0
  | _ => coCount d * coSize d

/-- Round a sum to the wire format and widen it again. -/
def coRound (bf : Bool) (x : Nat) : Nat := if bf then (cvtFF fmt32 (fmtOf .bf16) .near x).1 * 65536 else x

/-- One level of the tree over the ranks. -/
def coLevel (bf : Bool) : List Nat → List Nat
  | a :: b :: xs => coRound bf (fAdd fmt32 .near a b).1 :: coLevel bf xs
  | [a] => [coRound bf a]
  | [] => []
def coTree (bf : Bool) : Nat → List Nat → Nat
  | 0, xs => xs.headD 0
  | n + 1, xs => if xs.length ≤ 1 then xs.headD 0 else coTree bf n (coLevel bf xs)

/-- Element `i` of a contribution, as FP32. -/
def coElem (bf : Bool) (c : List Nat) (i : Nat) : Nat :=
  if bf then ofNats ((c.drop (2 * i)).take 2) * 65536 else ofNats ((c.drop (4 * i)).take 4)

/-- The reduction of elements [lo, lo + n), in the wire format. -/
def coReduce (bf : Bool) (cs : List (List Nat)) (lo n : Nat) : List Nat :=
  (span lo n).flatMap fun i =>
    let v := coTree bf 8 (cs.map fun c => coElem bf c i)
    if bf then natBytes 2 (v / 65536) else natBytes 4 v

/-- What a module writes at the destination. -/
def coResult (d : Nat) (cs : List (List Nat)) : List Nat :=
  match coOp d with
  | 0 => coReduce (coBf d) cs 0 (coCount d)
  | 1 => coReduce (coBf d) cs (coRank d * coCount d) (coCount d)
  | 2 => cs.flatten
  | _ => ((cs.headD []).drop (coRank d * coCount d)).take (coCount d)

/-- A peer's route is not valid or its link is down. -/
def State.unreachable (s : State) (id : Nat) : Bool :=
  match s.routeOf (id * 2 ^ 40) with
  | some l => !(bit s.host.hubReady l)
  | none => true

/-- COLLECTIVE (R376): the contribution is read at the home slices once the command starts. -/
def execCollective (ctx : Nat) (s : State) : Host.Outcome State Fault Refusal :=
  .next (s.command ctx (· == 7) fun s d a =>
    if cmdResv d || decide (3 < coOp d) || decide (coP d ≤ coRank d) then .refuse none s
    else if coOp d ≤ 1 ∧ coFmt d ≠ 0 ∧ coFmt d ≠ 2 then .refuse (some .fm) s
    else match s.readCtx ctx (bits d 256 64) (coP d) with
      | .wait s => .wait s
      | .bad s => .refuse (some .ac) s
      | .ok ids s =>
        if (span 0 (coP d)).any fun j => j != coRank d && s.unreachable (ids.getD j 0) then .refuse none s
        else match s.readCtx ctx (bits d 64 64) (coOwn d) with
          | .wait s => .wait s
          | .bad s => .refuse (some .ac) s
          | .ok own s => .taken { s with
              seq := s.seq + 1
              host := { s.host with colls := s.host.colls ++ [{ id := s.seq, ctx := ctx, d := d, addr := a, own := own, wct := none }] } })

/-- The contributions in rank order: this module's own, and those that have arrived. -/
def Coll.inputs (c : Coll) (contribs : List (List Byte)) : List (List Nat) :=
  (span 0 (coP c.d)).map fun j => if j = coRank c.d then c.own else byteNats (contribs.getD j [])

/-- A collective ends: refused with a record, or done; DONE advances. -/
def State.endColl (s : State) (c : Coll) (refused : Option (Option FClass)) : State :=
  let t := s.updHost fun h => { h with colls := h.colls.filter fun x => x.id != c.id }
  let t := match refused with
    | some cls => t.refusal c.ctx c.d c.addr cls
    | none => t
  match t.tlAdvance c.ctx (bits c.d 448 64) with
  | (true, t) => t
  | (false, t) => s.keepReq t

/-- Write the result: pages that are not present make it wait. -/
def State.writeColl (s : State) (c : Coll) (bs : List Nat) : State :=
  let l := pieces 128 (bits c.d 128 64) bs.length
  let chk := fun (x : Nat × Nat × Nat) => match s.check c.ctx x.1 x.2.1 1 .store false with
    | .ok t => if !(s.tgtUp t) then Chk.wait else if s.linkDown t then .fault .ac x.1 else .ok t
    | .absent t => if s.barred c.ctx x.1 then .fault .ac x.1 else .absent t
    | k => k
  match l.find? fun x => match chk x with | .ok _ => false | _ => true with
  | some x => match chk x with
    | .absent _ => s.request c.ctx x.1
    | .wait => s
    | _ => s.endColl c (some (some .ac))
  | none =>
    let r := l.foldl (fun (p : Nat × State) x => match chk x with
      | .ok t =>
        let s := (p.2.touch c.ctx t).writeTgt Config.cores false t ((bs.drop x.2.2).take x.2.1)
        (max p.1 (s.wcts Config.cores (s.scope c.ctx 3 Config.cores []) false t).1, s)
      | _ => p) (0, s)
    r.2.wake.updHost fun h => { h with colls := h.colls.map fun x => if x.id = c.id then { x with wct := some r.1 } else x }

/-- COLLECTIVE_COMPLETE (R146, R245, R376): first the result is written; once its write completion times have passed in scope 3 DONE
advances. A rank whose peer is unreachable ends the command as refused. -/
def execCollectiveComplete (id : Nat) (reachable : Bool) (contribs : List (List Byte)) (s : State) : Host.Outcome State Fault Refusal :=
  .next (match s.host.colls.find? fun c => c.id == id with
    | none => s
    | some c => match c.wct with
      | some w => if w < s.tick then s.endColl c none else s
      | none => if reachable then s.writeColl c (coResult c.d (c.inputs contribs)) else s.endColl c (some none))

end Sys2Proof.Machine
end

