-- ==== Sys2Proof/Machine/Ladle.lean ====
section
/-!
DEFINITION. The Ladle: tile descriptors and walks (R92 to R94), permits (R95, R102), deliveries (R96, R99), `lput` and `lcopy` (R100,
R101), and the events LADLE_DELIVERY and LADLE_COMPLETE.
-/
namespace Sys2Proof.Machine

/-! ### Descriptors (R92, R93) -/

def ldGaddr (d : Nat) : Nat := bits d 0 64
def ldLaddr (d : Nat) : Nat := bits d 64 64
def ldStride (d i : Nat) : Int := sgn 32 (bits d (192 + 32 * i) 32)
def ldStage (d : Nat) : Nat := bits d 376 8
def ldScope (d : Nat) : Nat := bits d 416 5
def ldNdim (d : Nat) : Nat := bits d 421 2 + 1
def ldEsz (d : Nat) : Nat := 2 ^ bits d 423 2
def ldDkind (d : Nat) : Nat := bits d 425 2
def ldTureen (d : Nat) : Bool := bit d 427
def ldFew (d : Nat) : Bool := bit d 428
/-- Extent of dimension `i`; those above NDIM count once. -/
def ldExt (d i : Nat) : Nat := if i < ldNdim d then bits d (128 + 16 * i) 16 + 1 else 1
/-- Bytes of the tile. -/
def ldBytes (d : Nat) : Nat := ldEsz d * (ldExt d 0 * ldExt d 1 * ldExt d 2 * ldExt d 3)
/-- Bytes that `lcopy` copies. -/
def ldLen (d : Nat) : Nat := bits d 144 16 * 65536 + bits d 128 16 + 1

/-- The walk's offset of element `e`, dimension 0 fastest. -/
def ldOffset (d e : Nat) : Int :=
  let e0 := ldExt d 0
  let e1 := ldExt d 1
  let e2 := ldExt d 2
  (e % e0 : Nat) * ldStride d 0 + (e / e0 % e1 : Nat) * ldStride d 1 + (e / (e0 * e1) % e2 : Nat) * ldStride d 2
    + (e / (e0 * e1 * e2) : Nat) * ldStride d 3
/-- Global address of element `e`: the rid stays, the va moves. -/
def ldElem (d e : Nat) : Nat :=
  let g := ldGaddr d
  if ldTureen d then unsgn 32 ((g : Int) + ldOffset d e)
  else g / 2 ^ 56 * 2 ^ 56 + unsgn 56 (((g % 2 ^ 56 : Nat) : Int) + ldOffset d e)
/-- Lowest and highest byte of the walk, as signed sums. -/
def ldRange (d : Nat) : Int × Int :=
  let g : Int := if ldTureen d then (ldGaddr d : Nat) else (ldGaddr d % 2 ^ 56 : Nat)
  let ends := (span 0 4).map fun i => if i < ldNdim d then ((ldExt d i - 1 : Nat) : Int) * ldStride d i else 0
  (g + (ends.map fun x => min x 0).sum, g + (ends.map fun x => max x 0).sum + (ldEsz d : Nat) - 1)

/-- The descriptor's reserved fields and codes (R92, R99 to R101). DESIGN CHOICE: FEW, which the table gives to `lput` alone, raises IL for the three other
kinds, though a rule asks for FEW = 0 only of `lfetch` (notes/assumptions/62.md). -/
def ldIll (kind : CmdKind) (d : Nat) : Bool :=
  bits d 431 81 ≠ 0 || (decide (31 < ldRing d) && ldRing d != 255) || decide (31 < ldStage d) ||
  (ldTureen d && ldGaddr d / 2 ^ 32 ≠ 0) || ldDkind d == 3 || (ldFew d && kind != .lput) ||
  (kind != .lcopy && (if ldDkind d = 1 then ldLaddr d / 2 ^ 21 ≠ 0 else ldLaddr d / 2 ^ 32 ≠ 0)) ||
  (kind == .lcopy && ldDkind d == 2 && ldLaddr d / 2 ^ 32 ≠ 0) ||
  (kind != .lcast && ldMcast d ≠ 0) || (kind == .lfetch && ldMcq d ≠ 0) || (kind == .lcast && ldMcast d == 0) ||
  ((kind == .lput || kind == .lcopy) && ldDkind d == 1) ||
  (kind == .lcopy && (ldNdim d ≠ 1 || bits d 192 128 ≠ 0))

/-- Alignment of the walk, of the local side and of CGRAN (R94). -/
def ldMisaligned (kind : CmdKind) (d : Nat) : Bool :=
  ldGaddr d % ldEsz d ≠ 0 || ldLaddr d % 16 ≠ 0 || ldCgran d % 16 ≠ 0 || if kind = .lcopy then ldLen d % 16 ≠ 0
    else ((span 0 (ldNdim d)).any fun i => ldStride d i % (ldEsz d : Nat) ≠ 0) || ldBytes d % 16 ≠ 0

/-- A Tureen range of the local side (R90): inside one entry, with the permission; a staged region takes no delivery (R88). -/
def State.ldRegion (s : State) (bk t n : Nat) (kind : Kind) (deliver : Bool) : Option Nat :=
  match s.regionT (s.ctxOf bk) t with
  | none => some t
  | some (_, r) =>
    if t + n > r.tbase + r.size ∨ !(r.allowed kind) then some t
    else if deliver && s.staging bk && s.dsOf (s.ctxOf bk) r.gbase then some t else none

/-- The bounds of a range of global bytes (R71): its lowest and highest byte, and the permission. -/
def State.ldBounds (s : State) (bk rid : Nat) (lo hi : Int) (kind : Kind) : Bool :=
  match s.bounds (s.ctxOf bk) rid with
  | none => false
  | some e => decide ((e.base : Int) ≤ lo) && decide (hi ≤ (e.limit : Int)) && kind.allowed e.rd e.w e.x

/-- Steps 5 and 6 of R94: the local range and the global range, as a fault. -/
def State.ldRanges (s : State) (u : WUnit) (kind : CmdKind) (d : Nat) : Option (FClass × Nat) :=
  let bk := u.bk
  let n := if kind = .lcopy then ldLen d else ldBytes d
  let la := ldLaddr d
  let loc : Option (FClass × Nat) :=
    if kind = .lcopy then
      if ldDkind d = 2 then (s.ldRegion bk la n .store false).map fun t => (.ac, t)
      else if la % 2 ^ 56 + n > 2 ^ 56 ∨ !(s.ldBounds bk (la / 2 ^ 56) (la % 2 ^ 56 : Nat) (la % 2 ^ 56 + n - 1 : Nat) .store)
        then some (.ac, la) else none
    else if ldDkind d = 1 then (if la % 2 ^ 17 + n > 131072 then some (.ac, openDet) else none)
    else if ldDkind d = 2 then
      (s.ldRegion bk la n (if kind = .lput then .load else .store) (kind != .lput)).map fun t => (.ac, t)
    else if kind = .lfetch ∧ ldRing d = 255 then s.winCheck bk la n 16
    else none
  let cg : Option (FClass × Nat) :=
    if kind = .lfetch ∧ ldRing d = 255 ∧ ldCgran d ≠ 0 then s.winCheck bk (ldCgran d) 16 16 else none
  let r := if kind = .lcopy then
      (((if ldTureen d then ldGaddr d else ldGaddr d % 2 ^ 56 : Nat) : Int),
       ((if ldTureen d then ldGaddr d else ldGaddr d % 2 ^ 56 : Nat) : Int) + (n : Nat) - 1)
    else ldRange d
  let glob : Option (FClass × Nat) :=
    if ldTureen d then (if r.1 < 0 ∨ r.2 ≥ 2 ^ 32 then some (.ac, openDet) else none)
    else if r.1 < 0 ∨ r.2 ≥ 2 ^ 56 ∨ !(s.ldBounds bk (ldGaddr d / 2 ^ 56) r.1 r.2 (if kind = .lput then .store else .load))
      then some (.ac, openDet) else none
  let clash : Bool := kind == .lcopy && decide (ldGaddr d < la + n) && decide (la < ldGaddr d + n)
  match loc, cg, glob with
  | some x, _, _ => some x
  | _, some x, _ => some x
  | _, _, some x => some x
  | _, _, _ => if clash then some (.ac, openDet) else none

/-- Cores that a multicast may not name: not in the enabled set of the configuration (R378), or outside the cluster without a permit (R95, R99). -/
def State.ldBadCore (s : State) (u : WUnit) (kind : CmdKind) (core d : Nat) : Bool :=
  kind == .lcast && (ldCores kind core d).any fun c =>
    !(bit s.host.cfgCores c) || (ldRing d == 255 && !((match s.block? u.bk with
      | some b => b.cores
      | none => []).contains c))

/-- Ranges of the issuing group's own allotment that a command will write (R118): known at issue only without a permit. -/
def State.ldDst (s : State) (u : WUnit) (kind : CmdKind) (core d : Nat) : List (Nat × Nat) :=
  if (kind = .lfetch ∨ kind = .lcast) ∧ ldRing d = 255 ∧ ldDkind d = 0 ∧ (ldCores kind core d).contains core ∧
      s.ldGroup kind u.bk core (winGrp (ldLaddr d)) = u.g then [(winOff (ldLaddr d), ldBytes d)] else []

/-- Lanes of the issuing group that a command will write are still owed by an outstanding operation, or lie under a window access of the fibre
(R116, R118). -/
def State.dstBusy (s : State) (u : WUnit) (dst : List (Nat × Nat)) : Bool :=
  dst.any fun r => s.owedIn u.bk u.g r.1 r.2 || u.mem.any fun fk => s.pendIn fk r.1 r.2

/-- The checks of a tile descriptor of the issuing unit, in order (R94, R98): illegal fields, alignment, cores, ranges, and the scope of a
write. -/
def State.ldCheck (s : State) (u : WUnit) (kind : CmdKind) (d : Nat) : Option (FClass × Nat) :=
  if ldIll kind d then some (.il, openDet)
  else if ldMisaligned kind d then some (.ma, openDet)
  else if s.ldBadCore u kind (s.group u.bk u.g).core d then some (.ac, openDet)
  else match s.ldRanges u kind d with
    | some r => some r
    | none => if (kind = .lput ∨ kind = .lcopy) ∧ s.badScope u (ldScope d) then some (.ac, ldScope d) else none

/-- The record of `lpermit` (R102). -/
def permitCheck (r : Nat) : Option (FClass × Nat) := if bits r 96 32 ≠ 0 ∨ bits r 5 59 ≠ 0 then some (.il, openDet) else none

/-- Issue of a Ladle command other than `lpermit` (R94). -/
def runLadle (s : State) (f : Eng) (kind : CmdKind) : State :=
  runEng s f.g .cp Config.ladleQueue CmdKind.ladle fun s u =>
    (planRec s u .cp f.a 64 64).bind fun w =>
      let d := s.wnum u.bk (winGrp w) (winOff w) 64
      match s.ldCheck u kind d with
      | some (c, det) => .fault c det
      | none =>
        let dst := s.ldDst u kind (s.group u.bk u.g).core d
        if s.dstBusy u dst then .stall else .go { s.cmdOf u kind with addr := w, desc := BitVec.ofNat 1024 d, dst := dst }

/-- lfetch (R99). -/
def execLfetch (f : Eng) (s : State) : Host.Outcome State Fault Refusal := .next (runLadle s f .lfetch)
/-- lcast (R99). -/
def execLcast (f : Eng) (s : State) : Host.Outcome State Fault Refusal := .next (runLadle s f .lcast)
/-- lput (R100). -/
def execLput (f : Eng) (s : State) : Host.Outcome State Fault Refusal := .next (runLadle s f .lput)
/-- lcopy (R101). -/
def execLcopy (f : Eng) (s : State) : Host.Outcome State Fault Refusal := .next (runLadle s f .lcopy)
/-- lpermit (R102): it takes no queue entry. -/
def execLpermit (f : Eng) (s : State) : Host.Outcome State Fault Refusal :=
  .next (runEng s f.g .cp Config.ladleQueue CmdKind.ladle fun s u =>
    (planRec s u .cp f.a 16 16).bind fun w =>
      let r := s.wnum u.bk (winGrp w) (winOff w) 16
      match permitCheck r with
      | some (c, det) => .fault c det
      | none => .go { s.cmdOf u .lpermit with addr := w, desc := BitVec.ofNat 1024 r })

/-! ### Delivery (R95, R96) -/

/-- Progress of a part: 0 not begun, else one more than the granules written; and the receiving block. -/
def Cmd.progress (c : Cmd) (core : Nat) : Nat := sget 0 c.prog core
def Cmd.receiver (c : Cmd) (core : Nat) : Nat := sget 0 c.prog (1024 + core) - 1
def Cmd.setProgress (core n rb : Nat) (c : Cmd) : Cmd :=
  { c with stat := .running, prog := sset 0 (sset 0 c.prog core n) (1024 + core) (rb + 1) }
def Cmd.endPart (core : Nat) (c : Cmd) : Cmd := { c with parts := core :: c.parts }

/-- The part of a core is still to be delivered. -/
def Cmd.awaits (c : Cmd) (core : Nat) : Bool :=
  (c.kind == .lfetch || c.kind == .lcast) && c.stat != .done && !(c.parts.contains core) &&
    if c.fill.isSome then core == c.core else (ldCores c.kind c.core c.desc.toNat).contains core

/-- Commands that wait on the same stage of a core's ring and came earlier take the permit first. -/
def State.firstAtStage (s : State) (c : Cmd) (core : Nat) : Bool :=
  let d := c.desc.toNat
  (s.cmds.takeWhile fun e => e.id != c.id).all fun e =>
    !(e.fill.isNone && e.awaits core && e.progress core == 0 && ldRing e.desc.toNat == ldRing d && ldStage e.desc.toNat == ldStage d)

/-- A block that stands on cores: the last part of a restore, the replay of recorded fills, counts (R342). -/
def State.onCore (s : State) (bk : Nat) : Bool :=
  match s.block? bk with
  | some b => b.st == .resident || b.st == .frozen || (b.st == .placing && match b.saved with
      | some v => v.back
      | none => false)
  | none => false

/-- A block whose groups a delivery writes: one on cores that is not being saved (R340). -/
def State.atHome (s : State) (bk : Nat) : Bool :=
  s.onCore bk && match s.block? bk with
    | some b => b.st != .resident || b.mode != .saving
    | none => false

/-- The local place of a part's byte `o`: a register granule of the receiving block, a Lid slot, or a region. -/
def State.ldTarget (s : State) (c : Cmd) (core rb o : Nat) : Tgt :=
  let la := ldLaddr c.desc.toNat
  match ldDkind c.desc.toNat with
  | 0 => .win rb (s.ldGroup c.kind rb core (winGrp la)) (winOff la + o)
  | 1 => .lid core (la % 2 ^ 21 + o)
  | _ => match s.regionT (s.ctxOf c.bk) (la + o) with
    | some (k, r) => .region k (la + o - r.tbase)
    | none => .none

/-- The check of a part at its delivery: its register range and completion granule (R95). -/
def State.ldPartCheck (s : State) (c : Cmd) (core rb : Nat) : Option Nat :=
  let d := c.desc.toNat
  let at_ := fun (w : Nat) => w / 2 ^ 26 * 2 ^ 26 + winAddr (s.ldGroup c.kind rb core (winGrp w)) (winOff w)
  let reg := if ldDkind d = 0 then (s.winCheck rb (at_ (ldLaddr d)) (ldBytes d) 16).map (·.2) else none
  let cg := if ldCgran d ≠ 0 then (s.winCheck rb (at_ (ldCgran d)) 16 16).map (·.2) else none
  match reg with
  | some x => some x
  | none => cg

/-- Read the elements of granule `j` of a walk. -/
def State.ldGather (s : State) (c : Cmd) (d : Nat) : List Nat → EAcc
  | [] => .ok [] s
  | e :: es => match s.engLoad c (ldTureen d) (ldElem d e) (ldEsz d) with
    | .ok bs s => match s.ldGather c d es with
      | .ok cs s => .ok (bs ++ cs) s
      | x => x
    | x => x

/-- Write a granule whole and set it full, unless a later command of the same Ladle has written it (R96); one outside the allotment is
discarded, its full/empty bit with it (R108, R113). -/
def State.putGranule (s : State) (c : Cmd) (t : Tgt) (bs : List Nat) : State :=
  let later := c.skip.any fun x => overlapK x.1.key.toList t.key.toList x.2 16
  let s := s.touch (s.ctxOf c.bk) t
  let lost := match t with
    | .win bk g off => !(s.winHolds bk g off 16)
    | _ => false
  let s := if later then s else match t with
    | .win bk g off => s.winDeliver c bk g off bs
    | t => s.writeTgt c.core false t bs
  let mark := fun (e : Cmd) => if e.core == c.core && decide (e.id < c.id) && e.stat != .done && (e.kind == .lfetch || e.kind == .lcast)
    then { e with skip := e.skip ++ [(t, 16)] } else e
  if lost then s
  else
    let s : State := { s with cmds := s.cmds.map mark }
    let s := s.effect c.bk
    if t.granular then (s.fillAt t 16).wake else s

/-- Whether a local byte can be accessed: a line of a region that is absent must first be brought in (R86, R97). -/
def State.ldReady (s : State) (c : Cmd) (la : Nat) (t : Tgt) : EAcc :=
  match t with
  | .region k off => match sget none s.mem.regions k with
    | some r => match s.fillCheck (s.ctxOf c.bk) k off r la with
      | .ok _ => .ok [] s
      | .fault f det => .fail f det s
      | .absent t => .wait ((s.request (s.ctxOf c.bk) (s.globalPtr true t la)).updCmd c.id fun c =>
          { c with page := some (s.globalPtr true t la) })
      | _ => .wait s
    | none => .ok [] s
  | _ => .ok [] s

/-- Read the elements of granule `j` of a walk once its place can be written. -/
def State.ldFetch (s : State) (c : Cmd) (core rb j : Nat) : EAcc :=
  let d := c.desc.toNat
  let per := 16 / ldEsz d
  match s.ldReady c (ldLaddr d + 16 * j) (s.ldTarget c core rb (16 * j)) with
  | .ok _ s => s.ldGather c d (span (j * per) per)
  | x => x

/-- After its last granule a part fills its completion granule (R96); one that has left the allotment is discarded and reported (R108, R113). -/
def State.fillCgran (s : State) (c : Cmd) (core rb : Nat) : State :=
  let w := ldCgran c.desc.toNat
  let g := s.ldGroup c.kind rb core (winGrp w)
  if w = 0 then s
  else if s.winHolds rb g (winOff w) 16 then s.fillAt (.win rb g (winOff w)) 16 else s.engReport c .ac (winAddr g (winOff w))

/-- Deliver up to `fuel` granules of a part from granule `j` on. A Lid slot is held from the first granule on; one that another block holds takes
nothing (R186). -/
def ladleLoop (cid core rb : Nat) : Nat → Nat → State → State
  | 0, _, s => s
  | fuel + 1, j, s => match s.cmd? cid with
    | none => s
    | some c =>
      let d := c.desc.toNat
      if ldBytes d / 16 ≤ j then
        (s.fillCgran c core rb).updCmd cid (Cmd.endPart core)
      else if ldDkind d = 1 ∧ s.slotTaken core (ldLaddr d / 2 ^ 17) rb then
        (s.engReport c .ac (ldLaddr d / 2 ^ 17)).updCmd cid (Cmd.endPart core)
      else
        match s.ldFetch c core rb j with
        | .wait s => s
        | .fail f det s => s.engFail c f det
        | .ok bs s =>
          let s := if ldDkind d = 1 then s.takeSlot core (ldLaddr d / 2 ^ 17) rb else s
          let s := s.putGranule c (s.ldTarget c core rb (16 * j)) bs
          ladleLoop cid core rb fuel (j + 1) (s.updCmd cid (Cmd.setProgress core (j + 2) rb))

/-- How many granules move at this step: the hardware's choice, 0 for all that remain (notes/assumptions/3.md). -/
def State.chunkOf (s : State) (all : Nat) : Nat := if s.ch.ahead = 0 then all + 1 else s.ch.ahead

/-- A saved block's permit for a stage of a core's ring is used up: the block and the granting group. -/
def State.savedPermit (s : State) (core ring stage : Nat) : Option (Nat × Nat) :=
  s.blocks.findSome? fun b => match b.saved with
    | some v => (v.permits.find? fun p => p.2.1 == ring * 32 + stage && b.st == .saved && b.cores.getD p.1 Config.cores == core).map
        fun p => (b.uid, p.1)
    | none => none
def Saved.dropPermit (m k : Nat) (v : Saved) : Saved := { v with permits := v.permits.filter fun p => !(p.1 == m && p.2.1 == k) }

/-- A save that holds nothing yet. -/
def Saved.none_ : Saved := { back := false, banks := [], jas := [], lid := [], permits := [], cmds := [], fills := [] }

/-- Record a command in the slot of a block that is saved, or being saved, as a fill to be replayed at restore: it counts as the receiver's part
(R340). -/
def State.recordFill (s : State) (c : Cmd) (core rb : Nat) : State :=
  let s := s.updBlock rb fun b =>
    let v := b.saved.getD Saved.none_
    { b with saved := some { v with fills := v.fills ++ [(s.memberOf rb core, c)] } }
  s.updCmd c.id (Cmd.endPart core)

/-- A delivery under a permit that comes to the issuing group itself is scoreboarded from its start on. DEDUCED: before, nothing says which group it will
write (R95, R118; notes/assumptions/62.md). -/
def State.ringDst (s : State) (c : Cmd) (core rb : Nat) : List (Nat × Nat) :=
  let d := c.desc.toNat
  if ldRing d ≠ 255 ∧ ldDkind d = 0 ∧ rb = c.bk ∧ s.ldGroup c.kind rb core (winGrp (ldLaddr d)) = c.g ∧ c.fill.isNone then
    [(winOff (ldLaddr d), ldBytes d)] else []

/-- Begin a core's part in the window of a block. -/
def State.startPart (s : State) (c : Cmd) (core rb n : Nat) : State :=
  match s.ldPartCheck c core rb with
  | some det => (s.engReport c .ac det).updCmd c.id fun c => (c.setProgress core 1 rb).endPart core
  | none =>
    let dst := s.ringDst c core rb
    ladleLoop c.id core rb n 0 (s.updCmd c.id fun c => { Cmd.setProgress core 1 rb c with dst := c.dst ++ dst })

/-- The Ladle takes a queued command up once the earlier ones of its core have been taken up or wait for permits (R91). -/
def State.permitWait (s : State) (c : Cmd) : Bool :=
  let d := c.desc.toNat
  (c.kind == .lfetch || c.kind == .lcast) && ldRing d != 255 && (ldCores c.kind c.core d).all fun k =>
    ((s.permit k (ldRing d) (ldStage d)).isNone && (s.savedPermit k (ldRing d) (ldStage d)).isNone) || !(s.firstAtStage c k)
def State.takesUp (s : State) (c : Cmd) : Bool :=
  c.stat != .queued || c.fill.isSome || (s.cmds.takeWhile fun e => e.id != c.id).all fun e =>
    !(e.core == c.core && e.kind.ladle && e.stat == .queued && e.fill.isNone) || !(s.onCore e.bk) || s.permitWait e

/-- Begin or continue a core's part. -/
def State.deliverPart (s : State) (c : Cmd) (core : Nat) : State :=
  let d := c.desc.toNat
  let n := s.chunkOf (ldBytes d / 16)
  let begin_ := fun (s : State) (rb : Nat) => if s.atHome rb then s.startPart c core rb n else s.recordFill c core rb
  if c.progress core ≠ 0 then
    if s.atHome (c.receiver core) then ladleLoop c.id core (c.receiver core) n (c.progress core - 1) s
    else s.recordFill c core (c.receiver core)
  else match c.fill with
    | some rb => s.startPart c core rb n
    | none =>
      if ldRing d = 255 then begin_ s c.bk
      else match s.permit core (ldRing d) (ldStage d) with
        | some (gb, _) => if s.firstAtStage c core then begin_ (s.setPermit core (ldRing d) (ldStage d) none) gb else s
        | none => match s.savedPermit core (ldRing d) (ldStage d) with
          | some (gb, m) => if s.firstAtStage c core then
              (s.updBlock gb fun b => { b with saved := b.saved.map (Saved.dropPermit m (ldRing d * 32 + ldStage d)) }).recordFill c core gb
            else s
          | none => s

/-! ### lput and lcopy -/

/-- Write the elements of one granule of a walk. -/
def State.ldScatter (s : State) (c : Cmd) (d scope : Nat) : List Nat → List Nat → EAcc
  | [], _ => .ok [] s
  | e :: es, bs => match s.engStore c (ldTureen d) (ldElem d e) (ldEsz d) (ofNats (bs.take (ldEsz d))) scope with
    | .ok _ s => s.ldScatter c d scope es (bs.drop (ldEsz d))
    | x => x

/-- The block has the group. -/
def State.hasGroup (s : State) (bk g : Nat) : Bool :=
  match s.block? bk with
  | some b => decide (g < b.ngrp)
  | none => false

/-- The local granule of an `lput`, whose place is checked as it is read (R94, R108, R112): waits while it is empty under FEW, and fails where a word is poisoned. -/
def State.ldLocal (s : State) (c : Cmd) (j : Nat) : EAcc :=
  let d := c.desc.toNat
  if ldDkind d = 0 then
    let g := winGrp (ldLaddr d)
    let off := winOff (ldLaddr d) + 16 * j
    if decide (2 ^ 26 ≤ ldLaddr d) || !(s.hasGroup c.bk g) then .fail .ac (ldLaddr d) s
    else if !(s.winHolds c.bk g off 16) then .fail .ac (winAddr g (off / 256 * 256)) s
    else if ldFew d && !(s.granFull c.bk g off) then .wait s
    else if s.wpois c.bk g off 16 then .fail .pz (winAddr g off) s
    else .ok ((span off 16).map (s.wget c.bk g)) (if ldFew d then (s.setFulls c.bk g off 1 false).effect c.bk else s)
  else
    match s.ldTarget c c.core c.bk (16 * j) with
    | .region k off => match s.ldReady c (ldLaddr d + 16 * j) (.region k off) with
      | .ok _ s => if ldFew d && !((s.touch (s.ctxOf c.bk) (.region k off)).mem.tfull k off) then .wait s
        else match s.engLoad c true (ldLaddr d + 16 * j) 16 with
          | .ok bs s => .ok bs (if ldFew d then (s.setFullAt (.region k off) false).effect c.bk else s)
          | x => x
      | x => x
    | _ => .fail .ac (ldLaddr d + 16 * j) s

/-- One chunk of 16 bytes of an `lcopy`, read in elements. -/
def State.copySrc (s : State) (c : Cmd) (d j : Nat) : List Nat → EAcc
  | [] => .ok [] s
  | e :: es => match s.engLoad c (ldTureen d) (ldGaddr d + 16 * j + e * ldEsz d) (ldEsz d) with
    | .ok bs s => match s.copySrc c d j es with
      | .ok cs s => .ok (bs ++ cs) s
      | x => x
    | x => x

/-- Read local granule `j` and write it out: what became of it. -/
def State.putChunk (s : State) (c : Cmd) (j : Nat) : EAcc :=
  let d := c.desc.toNat
  let per := 16 / ldEsz d
  if c.kind = .lput then match s.ldLocal c j with
    | .ok bs s' =>
      match s'.ldScatter c d (ldScope d) (span (j * per) per) bs with
      | .wait t => .wait { s with mem := { s.mem with preq := t.mem.preq }, cmds := t.cmds }
      | x => x
    | x => x
  else match s.copySrc c d j (span 0 per) with
    | .ok bs s => s.engStore c (ldDkind d == 2) (ldLaddr d + 16 * j) 16 (ofNats bs) (ldScope d)
    | x => x

/-- Move up to `fuel` granules of an `lput` or `lcopy`. -/
def putLoop (cid : Nat) : Nat → Nat → State → State
  | 0, _, s => s
  | fuel + 1, j, s => match s.cmd? cid with
    | none => s
    | some c =>
      let n := (if c.kind = .lput then ldBytes c.desc.toNat else ldLen c.desc.toNat) / 16
      if n ≤ j then s.updCmd cid (Cmd.endPart 0)
      else match s.putChunk c j with
        | .wait s => s
        | .fail f det s => s.engFail c f det
        | .ok _ s => putLoop cid fuel (j + 1) (s.updCmd cid (Cmd.setProgress 0 (j + 1) 0))

def State.putPart (s : State) (c : Cmd) : State :=
  let n := (if c.kind = .lput then ldBytes c.desc.toNat else ldLen c.desc.toNat) / 16
  if c.parts.isEmpty then putLoop c.id (s.chunkOf n) (c.progress 0) (s.updCmd c.id fun c => { c with stat := .running }) else s

/-! ### The events -/

/-- The command is still run: its block stands on its cores, or it replays a recorded fill of a block that does. -/
def State.cmdLive (s : State) (c : Cmd) : Bool := s.onCore (c.fill.getD c.bk)

/-- LADLE_DELIVERY (R96): a core's part moves; an `lput` or `lcopy` moves its granules (R100). -/
def execLadleDelivery (cmd core : Nat) (s : State) : Host.Outcome State Fault Refusal :=
  .next (match s.cmd? cmd with
    | none => s
    | some c =>
      if !(s.cmdLive c) || !(s.takesUp c) then s
      else if c.awaits core then (s.deliverPart c core).settle c.bk
      else if c.kind = .lput ∨ c.kind = .lcopy then (s.putPart c).settle c.bk
      else s)

/-- A permit record is applied at the ring (R102). -/
def State.applyPermit (s : State) (c : Cmd) : State :=
  let r := c.desc.toNat
  (span 0 32).foldl (fun s k => if bit (bits r 64 32) k then s.setPermit c.core (bits r 0 5) k (some (c.bk, c.g)) else s) (s.effect c.bk)

/-- LADLE_COMPLETE (R99, R100, R102): the command is complete under CP. -/
def execLadleComplete (cmd : Nat) (s : State) : Host.Outcome State Fault Refusal :=
  .next (match s.cmd? cmd with
    | none => s
    | some c =>
      let fin := fun (s : State) => (s.finishCmd cmd).settle c.bk
      match c.kind with
      | .lpermit => if s.cmdLive c then fin (s.applyPermit c) else s
      | .lfetch | .lcast => if (if c.fill.isSome then [c.core] else ldCores c.kind c.core c.desc.toNat).all c.parts.contains then fin s else s
      | .lput | .lcopy => if !c.parts.isEmpty && s.putsDone c then fin s else s
      | _ => s)

end Sys2Proof.Machine
end

