-- ==== Sys2Proof/Machine/Griddle.lean ====
section
/-!
DEFINITION. The Griddle: parameter blocks (R188, R189), operand layouts (R190 to R192), accumulation (R141 to R143, R193 to R195),
checksums and correction (R197 to R199), ring signals (R196), suspension and save areas (R202, R203, R209), drains (R144, R206),
`gload`, `gzero` and `gstat` (R207, R208, R210), and the events GRIDDLE_OP_START and GRIDDLE_OP_COMPLETE.
-/
namespace Sys2Proof.Machine

/-! ### The parameter block (R188) -/

def gOp (d : Nat) : Nat := bits d 0 4
def gAfmt (d : Nat) : Nat := bits d 4 4
def gBfmt (d : Nat) : Nat := bits d 8 4
def gOfmt (d : Nat) : Nat := bits d 12 4
def gM (d : Nat) : Nat := bits d 16 7 + 1
def gN (d : Nat) : Nat := bits d 24 7 + 1
def gK (d : Nat) : Nat := bits d 32 13 + 1
def gBank (d : Nat) : Nat := bits d 48 1
def gAcc (d : Nat) : Bool := bit d 49
def gWmode (d : Nat) : Bool := bit d 50
def gChk (d : Nat) : Bool := bit d 51
def gSca (d : Nat) : Bool := bit d 52
def gScb (d : Nat) : Bool := bit d 53
def gLken (d : Nat) : Bool := bit d 54
def gS24 (d : Nat) : Bool := bit d 55
def gAfe (d : Nat) : Bool := bit d 56
def gRgen (d : Nat) : Bool := bit d 57
def gResume (d : Nat) : Bool := bit d 58
def gZad (d : Nat) : Bool := bit d 59
def gW (d : Nat) : Int := sgn 16 (bits d 64 16)
def gRing (d : Nat) : Nat := bits d 80 5
def gStage (d : Nat) : Nat := bits d 88 5
def gBslot (d : Nat) : Nat := bits d 96 4
def gAbsel (d : Nat) : Nat := bits d 104 8
def gBbsel (d : Nat) : Nat := bits d 112 8
def gAbase (d : Nat) : Nat := bits d 128 32
def gObase (d : Nat) : Nat := bits d 160 32
def gAsBase (d : Nat) : Nat := bits d 192 11
def gBsBase (d : Nat) : Nat := bits d 208 11
def gMbase (d : Nat) : Nat := bits d 224 11
def gLkmap (d : Nat) : Nat := bits d 256 64
def gIrow (d : Nat) : Nat := bits d 320 7
def gIcol (d : Nat) : Nat := bits d 328 7
def gIbit (d : Nat) : Nat := bits d 336 7
def gIen (d : Nat) : Bool := bit d 343

/-- A reserved field is nonzero. -/
def gResv (d : Nat) : Bool :=
  [(23, 1), (31, 1), (45, 3), (60, 4), (85, 3), (93, 3), (100, 4), (120, 8), (203, 5), (219, 5), (235, 21), (327, 1), (335, 1), (344, 680)].any
    fun p => bits d p.1 p.2 ≠ 0

/-- The codes that Silivo emulates (R147). -/
def emuFmt (f : Nat) : Bool := decide (8 ≤ f) && decide (f ≤ 14)

/-- An element of a format takes two bytes, else one. DESIGN CHOICE: one of a format that Silivo defines lies where an engine's element of its width lies
(R190, R191; notes/assumptions/62.md). -/
def fmtWide (f : Nat) : Bool := f == 0 || (emuFmt f && Config.emuWide f)

/-- A and B formats go together (R189): the engine's four pairs, or a format that Silivo defines with any that its role allows (R147). -/
def gPair (a b : Nat) : Bool :=
  if emuFmt a || emuFmt b then (emuFmt a || [0, 3].contains a) && (emuFmt b || [0, 3, 4].contains b)
  else [(0, 0), (0, 4), (3, 3), (3, 4)].contains (a, b)

/-- A `gmma` block is ill-formed (R189). -/
def gmmaIll (d : Nat) : Bool :=
  gResv d || decide (1 < gOp d) || !(gPair (gAfmt d) (gBfmt d)) ||
  (gS24 d && gK d % 4 ≠ 0) || (gLken d && decide (2048 < gK d)) || (gLken d && gLkmap d / 2 ^ ((gK d + 31) / 32) ≠ 0) ||
  (gIen d && decide (79 < gIbit d))

/-! ### Layouts (R190 to R193) -/

/-- Live K-chunks in ascending order. -/
def gLive (d : Nat) : List Nat := (span 0 ((gK d + 31) / 32)).filter fun c => !(gLken d) || bit (gLkmap d) c
/-- Logical k of a chunk. -/
def gWidth (d c : Nat) : Nat := min 32 (gK d - 32 * c)
/-- Steps of a chunk, and of a full chunk. -/
def gSteps (d c : Nat) : Nat := if gS24 d then gWidth d c / 2 else gWidth d c
def gPer (d : Nat) : Nat := if gS24 d then 16 else 32
/-- Bytes of a stored B element, elements of a column in a slot, stored elements of a column. -/
def gBsize (d : Nat) : Nat := if fmtWide (gBfmt d) then 2 else 1
def gKs (d : Nat) : Nat := 1024 / gBsize d
def gStored (d : Nat) : Nat := if gS24 d then gK d / 2 else gK d
/-- Elements of A in a lane word. -/
def gAdiv (d : Nat) : Nat := if fmtWide (gAfmt d) then 2 else 4

def gAreg (d m k : Nat) : Nat := winOff (gAbase d) / 256 + 2 * (k / gAdiv d) + m / 64
/-- Highest register of A. -/
def gAtop (d : Nat) : Nat := gAreg d (gM d - 1) (gK d - 1)
/-- A scale's register and byte (R137). -/
def gScaleReg (base sel b r : Nat) : Nat := base + 2 * ((b + sel) / 4) + r / 64
/-- The Lid slots of B, first and last. -/
def gLast (d : Nat) : Nat := gBslot d + (gStored d - 1) / gKs d
def gSlots (d : Nat) : List Nat := span (gBslot d) (gLast d + 1 - gBslot d)

/-- Registers of the issuing group that the operation can read as control data (R191). DESIGN CHOICE: of several outside the allotment AL names the first
of the A scales by chunk and half, then of the B scales, then of the index maps (notes/assumptions/62.md). -/
def gCtlRegs (d : Nat) : List Nat :=
  let halves := fun (n : Nat) => span 0 ((n + 63) / 64)
  (if gSca d then (gLive d).flatMap fun b => (halves (gM d)).map fun h => gScaleReg (gAsBase d) (gAbsel d) b (64 * h) else []) ++
  (if gScb d then (gLive d).flatMap fun b => (halves (gN d)).map fun h => gScaleReg (gBsBase d) (gBbsel d) b (64 * h) else []) ++
  (if gS24 d then (span 0 (gLive d).length).flatMap fun o => (halves (gN d)).map fun h => gMbase d + 2 * o + h else [])

/-- The format codes of a parameter block that Silivo is asked for, in any field (R147, R189). -/
def gEmuCodes (kind : CmdKind) (d : Nat) : List Nat :=
  if kind = .gmma ∨ kind = .gdrain ∨ kind = .gzero ∨ kind = .gstat then [gAfmt d, gBfmt d, gOfmt d].filter emuFmt else []

/-- Checks of a `gmma` after the record's address (R189 to R191, R204). -/
def gmmaRules (s : State) (u : WUnit) (d : Nat) : Option (FClass × Nat) :=
  if gmmaIll d then some (.fm, openDet)
  else
    let core := (s.group u.bk u.g).core
    let grp := winGrp (gAbase d)
    match (gCtlRegs d).find? fun r => decide (s.allot u.bk u.g ≤ r) with
    | some r => some (.al, r)
    | none => match s.winCheck u.bk (gAbase d) (256 * (gAtop d + 1 - gAreg d 0 0)) 256 with
      | some x => some x
      | none =>
        if (s.group u.bk grp).core ≠ core then some (.ac, openDet)
        else if 15 < gLast d then some (.ac, gLast d)
        else ((gSlots d).find? fun k => s.slotTaken core k u.bk).map fun k => (.ac, k)

/-- Checks of `gmma` at issue: an emulated code traps to Silivo before them. -/
def gmmaCheck (s : State) (u : WUnit) (d : Nat) : Option (FClass × Nat) :=
  if (gEmuCodes .gmma d).isEmpty then gmmaRules s u d else none

/-- Registers of a drain's output (R206). -/
def gOreg (d m n : Nat) : Nat :=
  winOff (gObase d) / 256 + (if gOfmt d = 0 ∨ gOfmt d = 1 then 2 * (n / 2) else 2 * n) + m / 64

/-- A `gdrain` block is ill-formed (R189). -/
def gdrainIll (d : Nat) : Bool := gResv d || decide (1 < gOp d) || !(emuFmt (gOfmt d) || [0, 1, 2, 5].contains (gOfmt d))

/-- Issue checks of `gdrain`; an emulated code traps to Silivo before the first. -/
def gdrainCheck (s : State) (u : WUnit) (d : Nat) : Option (FClass × Nat) :=
  if (gEmuCodes .gdrain d).isEmpty && gdrainIll d then some (.fm, openDet)
  else match s.winCheck u.bk (gObase d) (256 * (gOreg d (gM d - 1) (gN d - 1) + 1 - gOreg d 0 0)) 256 with
    | some x => some x
    | none => if (s.group u.bk (winGrp (gObase d))).core ≠ (s.group u.bk u.g).core then some (.ac, openDet) else none

/-- The ranges of its own group that a drain writes (R118). -/
def gdrainDst (u : WUnit) (d : Nat) : List (Nat × Nat) :=
  if winGrp (gObase d) ≠ u.g then []
  else (span (gOreg d 0 0) (gOreg d (gM d - 1) (gN d - 1) + 1 - gOreg d 0 0)).map fun r =>
    (256 * r, 4 * min 64 (gM d - 64 * ((r - gOreg d 0 0) % 2)))

/-! ### gload records (R207) -/

def glSrc (r : Nat) : Nat := bits r 0 32
def glSlot (r : Nat) : Nat := bits r 32 4
def glOfs (r : Nat) : Nat := bits r 36 17
def glLen (r : Nat) : Nat := bits r 64 18
def gloadCheck (s : State) (u : WUnit) (r : Nat) : Option (FClass × Nat) :=
  if bits r 53 11 ≠ 0 ∨ bits r 82 46 ≠ 0 ∨ glLen r < 16 ∨ 131072 < glLen r ∨ glLen r % 16 ≠ 0 then some (.fm, openDet)
  else if glOfs r % 16 ≠ 0 then some (.ma, openDet)
  else match s.winCheck u.bk (glSrc r) (glLen r) 16 with
    | some x => some x
    | none => if 131072 < glOfs r + glLen r then some (.ac, openDet) else none

/-! ### Elements -/

/-- An element with its scale, or a word that cannot be read and the fault it gives. -/
inductive GEl
  | fin (n e : Int)
  | inf (neg : Bool)
  | nan
  | bad (c : FClass) (det : Nat)
deriving DecidableEq, Repr

def GEl.failure : GEl → Option (FClass × Nat)
  | .bad c det => some (c, det)
  | _ => none

/-- floor(log2 |x|) of a nonzero finite element. -/
def GEl.expo : GEl → Option Int
  | .fin n e => if n = 0 then none else some (n.natAbs.log2 + e)
  | _ => none

/-- A lane word of a group as the engine reads it: outside the allotment it is AC with the register's window address (R108), under a
mark PZ (R200). -/
def State.gWord (s : State) (bk g r l : Nat) : Except (FClass × Nat) Nat :=
  if r ≥ s.allot bk g then .error (.ac, winAddr g (256 * r))
  else if s.vpois bk g r l then .error (.pz, openDet) else .ok (s.vraw bk g r l)

/-- A decoded element under a scale (R134, R135, R141). -/
def gScaled (v : GEl) (sc : Nat) : GEl :=
  if sc = 0xFF then .nan else match v with
    | .fin n e => .fin n (e + sc - 127)
    | x => x

/-- A BF16 pattern, an INT8 byte, a DS8 code, or an element of a format that Silivo defines, which is a free value of the machine (R147). -/
def gDecode (fmt x : Nat) : GEl :=
  match fmt with
  | 0 => match unpack (fmtOf .bf16) x with
    | .nan _ => .nan
    | .inf n => .inf n
    | .fin n m e => .fin (if n then -(m : Int) else m) e
  | 3 => .fin (sgn 8 x) 0
  | 4 => .fin (ds8Val x).1 (-6)
  | _ => match Config.emuElement fmt x with
    | (n, e, 0) => .fin n e
    | (_, _, 1) => .inf false
    | (_, _, 2) => .inf true
    | _ => .nan

/-- The scale byte of a row or column for a K-block. -/
def State.gScale (s : State) (c : Cmd) (used : Bool) (base sel b r : Nat) : Except (FClass × Nat) Nat :=
  if !used then .ok 0x7F
  else match s.gWord c.bk c.g (gScaleReg base sel b r) (r % 64) with
    | .error e => .error e
    | .ok w => .ok (bits w (8 * ((b + sel) % 4)) 8)

/-- A(m, k) with its scale. -/
def State.gA (s : State) (c : Cmd) (d m k : Nat) : GEl :=
  match s.gWord c.bk (winGrp (gAbase d)) (gAreg d m k) (m % 64), s.gScale c (gSca d) (gAsBase d) (gAbsel d) (k / 32) m with
  | .error e, _ => .bad e.1 e.2
  | _, .error e => .bad e.1 e.2
  | .ok w, .ok sc => gScaled (gDecode (gAfmt d) (if fmtWide (gAfmt d) then bits w (16 * (k % 2)) 16 else bits w (8 * (k % 4)) 8)) sc

/-- The stored code of B at k′ in column n. -/
def State.gBcode (s : State) (c : Cmd) (d k' n : Nat) : Nat :=
  let off := (gBslot d + k' / gKs d) * 2 ^ 17 + 1024 * n + gBsize d * (k' % gKs d)
  ofNats ((span 0 (gBsize d)).map fun i => (mget s.eng.lid (lidKey c.core (off + i))).toNat)

/-- Stored element k′ of column n, which stands at logical k, and whether it decodes a reserved DS8 term. -/
def State.gB (s : State) (c : Cmd) (d k' n k : Nat) : GEl × Bool :=
  let x := s.gBcode c d k' n
  match s.gScale c (gScb d) (gBsBase d) (gBbsel d) (k / 32) n with
  | .error e => (.bad e.1 e.2, false)
  | .ok sc => (gScaled (gDecode (gBfmt d) x) sc, gBfmt d == 4 && (ds8Val x).2)

/-- The positions of a group of four in a column (R192): FM when they do not rise. -/
def State.gIdx (s : State) (c : Cmd) (d j n : Nat) : Except (FClass × Nat) (Nat × Nat) :=
  match s.gWord c.bk c.g (gMbase d + 2 * (j / 8) + n / 64) (n % 64) with
  | .error e => .error e
  | .ok w =>
    let i0 := bits w (4 * (j % 8)) 2
    let i1 := bits w (4 * (j % 8) + 2) 2
    if i1 ≤ i0 then .error (.fm, openDet) else .ok (i0, i1)

/-- The offset in its chunk of the logical k that step `t` of the `o`-th live chunk has in column `n`. -/
def State.gPos (s : State) (c : Cmd) (d o t n : Nat) : Except (FClass × Nat) Nat :=
  if gS24 d then match s.gIdx c d (8 * o + t / 2) n with
    | .ok (i0, i1) => .ok (4 * (t / 2) + (if t % 2 = 0 then i0 else i1))
    | .error e => .error e
  else .ok t

/-- One step of a chunk: by column, the offset of its logical k in the chunk and its B element. -/
structure GStep where
  ks : List Nat
  bs : List GEl
  dsr : Bool
  fault : Option (FClass × Nat)
deriving DecidableEq, Repr

/-- Step `t` of the `o`-th live chunk, chunk `ch`. -/
def State.gStep (s : State) (c : Cmd) (d ch o t : Nat) : GStep :=
  let cols := span 0 (gN d)
  let pos := cols.map (s.gPos c d o t)
  let ks := pos.map fun x => match x with
    | .ok k => k
    | .error _ => t
  let bs := cols.map fun n => s.gB c d (gPer d * o + t) n (32 * ch + ks.getD n 0)
  let e1 := pos.findSome? fun x => match x with
    | .error e => some e
    | .ok _ => none
  { ks := ks, bs := bs.map (·.1), dsr := bs.any (·.2), fault := match e1 with
      | some e => some e
      | none => bs.findSome? fun x => x.1.failure }

/-! ### Accumulation (R141 to R143) -/

/-- Comb of R141 over statuses. -/
def combSt (a b : Nat) : Nat := if a = 3 ∨ b = 3 then 3 else if a = 0 then b else if b = 0 then a else if a = b then a else 3

/-- A product, negated for OP 0x1. -/
def GEl.mul (op : Nat) (a b : GEl) : GEl :=
  let sg := decide (op = 1)
  match a, b with
  | .fin n e, .fin n' e' => .fin (if sg then -(n * n') else n * n') (e + e')
  | .inf s, .fin n _ => if n = 0 then .nan else .inf ((s != decide (n < 0)) != sg)
  | .fin n _, .inf s => if n = 0 then .nan else .inf ((s != decide (n < 0)) != sg)
  | .inf s, .inf s' => .inf ((s != s') != sg)
  | _, _ => .nan

/-- An exact sum of elements. -/
def GEl.add (a b : GEl) : GEl :=
  match a, b with
  | .fin n e, .fin n' e' => if e ≤ e' then .fin (n + n' * (2 ^ (e' - e).toNat : Nat)) e else .fin (n * (2 ^ (e - e').toNat : Nat) + n') e'
  | .inf s, .inf s' => if s = s' then .inf s else .nan
  | .inf s, .fin _ _ => .inf s
  | .fin _ _, .inf s => .inf s
  | _, _ => .nan
def GEl.sum (l : List GEl) : GEl := l.foldl GEl.add (.fin 0 0)

/-- An integer kept in `n` bits, and whether it was set to a bound. -/
def clampBits (n : Nat) (x : Int) : Int × Bool :=
  let hi : Int := (2 ^ (n - 1) : Nat) - 1
  let lo : Int := -(2 ^ (n - 1) : Nat)
  if x > hi then (hi, true) else if x < lo then (lo, true) else (x, false)

/-- Add a product to a cell of `n` bits under window `w`: truncated toward minus infinity. -/
def addTerm (n : Nat) (w : Int) (x : GEl) (cell : Int × Nat) : (Int × Nat) × Bool :=
  match x with
  | .fin v e =>
    let q := v * (2 ^ (e - w).toNat : Nat) / (2 ^ (w - e).toNat : Nat)
    let r := clampBits n (cell.1 + q)
    ((r.1, cell.2), r.2)
  | .inf neg => ((cell.1, combSt cell.2 (if neg then 2 else 1)), false)
  | _ => ((cell.1, 3), false)

def cellKey (m n : Nat) : Nat := 128 * m + n
def Bank.cell (b : Bank) (k : Nat) : Int × Nat := sget (0, 0) b.cells k
def Bank.entry (b : Bank) (k : Nat) : Int := sget 0 b.latch k

/-- Add a product to cell `k`. -/
def Bank.add (x : GEl) (k : Nat) (b : Bank) : Bank :=
  let r := addTerm 80 b.w x (b.cell k)
  { b with cells := sset (0, 0) b.cells k r.1, sat := b.sat || r.2, satop := b.satop || r.2 }

def Bank.addRow (x : GEl) (n : Nat) (b : Bank) : Bank :=
  let r := addTerm 88 b.w x (sget (0, 0) b.crow n)
  { b with crow := sset (0, 0) b.crow n r.1, satop := b.satop || r.2 }
def Bank.addCol (x : GEl) (m : Nat) (b : Bank) : Bank :=
  let r := addTerm 88 b.w x (sget (0, 0) b.ccol m)
  { b with ccol := sset (0, 0) b.ccol m r.1, satop := b.satop || r.2 }

/-- An arithmetic shift right by `d` of every integer of a store. -/
def shiftCells (d : Nat) (m : FMap (Int × Nat)) : FMap (Int × Nat) :=
  m.foldl (fun acc p => sset (0, 0) acc p.1 (p.2.1 / (2 ^ d : Nat), p.2.2)) []
def shiftInts (d : Nat) (m : FMap Int) : FMap Int := m.foldl (fun acc p => sset 0 acc p.1 (p.2 / (2 ^ d : Nat))) []

/-- The window at a chunk's start, from the chunk's maxima (R143, R194). -/
def Bank.window (ea eb : Option Int) (b : Bank) : Bank :=
  if b.wmode then b
  else match ea, eb with
    | some x, some y =>
      let w := x + y - 62
      if !b.wset then { b with w := w, wset := true }
      else if w ≤ b.w then b
      else
        let d := (w - b.w).toNat
        { b with w := w, cells := shiftCells d b.cells, latch := shiftInts d b.latch, crow := shiftCells d b.crow,
                 ccol := shiftCells d b.ccol }
    | _, _ => b

def maxExpo (l : List GEl) : Option Int :=
  l.foldl (fun acc x => match acc, x.expo with
    | none, e => e
    | some a, some e => some (max a e)
    | some a, none => some a) none

/-- Element m, k-offset of a chunk's A. -/
def atA (as : List (List GEl)) (m k : Nat) : GEl := (as.getD m []).getD k .nan

/-- Products of one step, with the checksum row when CHK is set. -/
def gApply (d : Nat) (as : List (List GEl)) (st : GStep) (b : Bank) : Bank :=
  let b := (span 0 (gM d)).foldl (fun b m => (span 0 (gN d)).foldl (fun b n =>
    b.add (GEl.mul (gOp d) (atA as m (st.ks.getD n 0)) (st.bs.getD n .nan)) (cellKey m n)) b) b
  if !(gChk d) then b
  else (span 0 (gN d)).foldl (fun b n =>
    b.addRow (GEl.mul (gOp d) (GEl.sum ((span 0 (gM d)).map fun m => atA as m (st.ks.getD n 0))) (st.bs.getD n .nan)) n) b

/-- The checksum column of the steps of one group of k (R197): each logical k of the group once. -/
def gColumn (d : Nat) (as : List (List GEl)) (sts : List GStep) (b : Bank) : Bank :=
  if !(gChk d) then b
  else
    let kk := (sts.flatMap GStep.ks).dedup
    kk.foldl (fun b k =>
      let sum := GEl.sum (sts.flatMap fun st => ((span 0 (gN d)).filter fun n => st.ks.getD n 0 == k).map fun n => st.bs.getD n .nan)
      (span 0 (gM d)).foldl (fun b m => b.addCol (GEl.mul (gOp d) (atA as m k) sum) m) b) b

/-- The first fault of a step: of its index nibbles, its B elements, or its A elements. -/
def gFault (d : Nat) (as : List (List GEl)) (st : GStep) : Option (FClass × Nat) :=
  match st.fault with
  | some e => some e
  | none => (span 0 (gM d)).findSome? fun m => st.ks.findSome? fun k => (atA as m k).failure

/-- What a chunk came to: the bank, the flags, the steps applied and a fault. -/
structure GRes where
  bank : Bank
  dsr : Bool
  n : Nat
  fault : Option (FClass × Nat)

/-- The steps of one group of k in order; the step that faults and those after it are not applied. -/
def gGroup (d : Nat) (as : List (List GEl)) (all : List GStep) : List GStep → GRes → GRes
  | [], r => { r with bank := gColumn d as all r.bank }
  | st :: sts, r => match gFault d as st with
    | some e => { r with fault := some e }
    | none => gGroup d as all sts { r with bank := gApply d as st r.bank, dsr := r.dsr || st.dsr, n := r.n + 1 }

/-- The steps of a chunk, group by group. -/
def gGroups (d : Nat) (as : List (List GEl)) : List (List GStep) → GRes → GRes
  | [], r => r
  | g :: gs, r => match (gGroup d as g g r).fault with
    | some _ => gGroup d as g g r
    | none => gGroups d as gs (gGroup d as g g r)

/-- Note the window of the chunk that begins, for the recomputation. -/
def Bank.noteW (b : Bank) : Bank := if b.ws.isEmpty then b else { b with ws := b.ws ++ [b.w] }

/-- Process the `o`-th live chunk. -/
def State.gChunk (s : State) (c : Cmd) (d ch o : Nat) (b : Bank) : GRes :=
  let as := (span 0 (gM d)).map fun m => (span 0 (gWidth d ch)).map fun i => s.gA c d m (32 * ch + i)
  let sts := (span 0 (gSteps d ch)).map fun t => s.gStep c d ch o t
  let ok := sts.filter fun st => st.fault.isNone
  let ks := (ok.flatMap GStep.ks).dedup
  let ea := maxExpo ((span 0 (gM d)).flatMap fun m => ks.map fun k => atA as m k)
  let eb := maxExpo (ok.flatMap GStep.bs)
  let per := if gS24 d then 2 else 1
  let groups := (span 0 (sts.length / per)).map fun j => (sts.drop (per * j)).take per
  gGroups d as groups { bank := (b.window ea eb).noteW, dsr := false, n := 0, fault := none }

/-! ### Preparing and comparing -/

/-- A bank prepared for accumulation from zero (R195). -/
def Bank.prepare (d : Nat) (b : Bank) : Bank :=
  { b with cells := [], sat := false, bad := false, wmode := gWmode d, w := if gWmode d then gW d else b.w, wset := gWmode d }

/-- The integer of every cell, as entry latches (R197). -/
def latchOf (m : FMap (Int × Nat)) : FMap Int := m.foldl (fun acc p => sset 0 acc p.1 p.2.1) []

/-- The start of an operation on a bank (R195, R197). -/
def Bank.start (d : Nat) (b : Bank) : Bank :=
  let b := { b with wset0 := gAcc d && !b.wset, satop := false, first := [], ws := [] }
  let b := if gAcc d then b else b.prepare d
  if gChk d then { b with latch := latchOf b.cells, crow := [], ccol := [], first := latchOf b.cells, ws := [b.w] } else b

/-- dC(n) and dR(m) (R197). -/
def Bank.dC (d n : Nat) (b : Bank) : Int :=
  ((span 0 (gM d)).map fun m => (b.cell (cellKey m n)).1 - b.entry (cellKey m n)).sum - (sget (0, 0) b.crow n).1
def Bank.dR (d m : Nat) (b : Bank) : Int :=
  ((span 0 (gN d)).map fun n => (b.cell (cellKey m n)).1 - b.entry (cellKey m n)).sum - (sget (0, 0) b.ccol m).1
/-- Columns and rows that take part in the comparison: without a non-finite cell or checksum cell (R198). -/
def Bank.colOk (d n : Nat) (b : Bank) : Bool :=
  (span 0 (gM d)).all (fun m => (b.cell (cellKey m n)).2 == 0) && (sget (0, 0) b.crow n).2 == 0
def Bank.rowOk (d m : Nat) (b : Bank) : Bool :=
  (span 0 (gN d)).all (fun n => (b.cell (cellKey m n)).2 == 0) && (sget (0, 0) b.ccol m).2 == 0
def gBound (d : Nat) : Nat := 4 * gK d * 129
def Bank.badCols (d : Nat) (b : Bank) : List Nat :=
  (span 0 (gN d)).filter fun n => b.colOk d n && decide (gBound d < (b.dC d n).natAbs)
def Bank.badRows (d : Nat) (b : Bank) : List Nat :=
  (span 0 (gM d)).filter fun m => b.rowOk d m && decide (gBound d < (b.dR d m).natAbs)
/-- The comparison is skipped (R198). -/
def Bank.skips (d : Nat) (b : Bank) : Bool :=
  b.satop || b.wset0 || ((span 0 (gN d)).all (fun n => !(b.colOk d n)) && (span 0 (gM d)).all fun m => !(b.rowOk d m))

/-! ### The bank of a command, and its image (R203) -/

def areaLines : Nat := 4160

/-- Line `i` of the save area, as a number of 128 bytes. -/
def Bank.areaLine (b : Bank) (i : Nat) : Nat :=
  let chk := fun (m : FMap (Int × Nat)) (n : Nat) => let x := sget (0, 0) m n; unsgn 88 x.1 + x.2 * 2 ^ 88
  let pack := fun (w : Nat) (f : Nat → Nat) => (span 0 (128 / w)).foldl (fun acc j => acc + f j * 2 ^ (8 * w * j)) 0
  if i = 0 then
    unsgn 16 b.w + b2n b.wmode * 2 ^ 32 + b2n b.wset * 2 ^ 33 + b2n b.sat * 2 ^ 34 + b2n b.susp * 2 ^ 35 + b2n b.bad * 2 ^ 36
      + b2n b.ent * 2 ^ 37 + (if b.susp then b.kdone * 2 ^ 42 else 0) + 2 ^ 56
  else if i = 1 then (if b.susp then b.blk.toNat else 0)
  else if i < 18 then pack 16 fun j => chk b.crow (8 * (i - 2) + j)
  else if i < 34 then pack 16 fun j => chk b.ccol (8 * (i - 18) + j)
  else if i < 64 then 0
  else pack 32 fun j =>
    let k := 4 * (i - 64) + j
    unsgn 80 (b.cell k).1 + (b.cell k).2 * 2 ^ 80 + unsgn 80 (b.entry k) * 2 ^ 128

def State.bankAt (s : State) (c : Cmd) : Bank := (sget none s.eng.banks (c.core * 2 + c.sub)).getD Bank.reset

/-- The bank of a command is saved in a frame, with its image in the reserve (R314). -/
def State.saveBank (s : State) (c : Cmd) : Option State :=
  s.recordExt c.bk c.g (.bank (s.memberOf c.bk c.core) c.sub) areaLines (s.bankAt c).areaLine
def State.putBank (s : State) (c : Cmd) (b : Bank) : State :=
  match s.saveBank c with
  | none => s.noRoom c.bk { pc := c.pc, fk := c.fk }
  | some s => { s with eng := { s.eng with banks := sset none s.eng.banks (c.core * 2 + c.sub) (some b) } }

/-! ### Running a gmma -/

/-- Granules of A that a chunk reads: register and granule number (R196). -/
def gGranules (d ch : Nat) : List (Nat × Nat) :=
  let regs := ((span 0 (gWidth d ch)).flatMap fun i => (span 0 ((gM d + 63) / 64)).map fun h => (gAreg d (64 * h) (32 * ch + i), h)).dedup
  regs.flatMap fun r => (span 0 ((min 64 (gM d - 64 * r.2) + 3) / 4)).map fun j => (r.1, j)

/-- A `gmma` has sent its ring signal, and its comparison is over. -/
def Cmd.signalled (c : Cmd) : Bool := sget 0 c.prog 1 != 0
def Cmd.compared (c : Cmd) : Bool := sget 0 c.prog 2 != 0
def Cmd.mark (k : Nat) (c : Cmd) : Cmd := { c with prog := sset 0 c.prog k 1 }

/-- The ring signal (R196), once: the granules read become empty and the stage's permit is granted by the issuing group, in one step. What lies outside the
allotment was not read (R108). -/
def State.gSignal (s : State) (c : Cmd) (d done : Nat) : State :=
  if !(gRgen d) || c.signalled then s
  else
    let grp := winGrp (gAbase d)
    let gs := (((gLive d).take done).flatMap (gGranules d)).filter fun p => decide (p.1 < s.allot c.bk grp)
    let s := gs.foldl (fun s p => s.setFulls c.bk grp (256 * p.1 + 16 * p.2) 1 false) s
    ((s.setPermit c.core (gRing d) (gStage d) (some (c.bk, c.g))).effect c.bk).updCmd c.id (Cmd.mark 1)

/-- An operation that ends with an execution fault (R195): the ring signal, the report, and completion. DESIGN CHOICE: LASTCHK keeps its value, as for one that is
suspended, since R210 names none for an operation that is not compared (notes/assumptions/62.md). -/
def State.gAbort (s : State) (c : Cmd) (d done : Nat) (e : FClass × Nat) : State :=
  ((s.gSignal c d done).engReport c e.1 e.2).engDone c c.b

/-- The injection of R201, at the end of the first processed chunk. -/
def State.gInject (s : State) (c : Cmd) (d : Nat) (b : Bank) : Bank :=
  if bit (s.ctx (s.ctxOf c.bk)).diag 0 && gIen d && decide (gIrow d < gM d) && decide (gIcol d < gN d) then
    let k := cellKey (gIrow d) (gIcol d)
    let x := b.cell k
    { b with cells := sset (0, 0) b.cells k (sgn 80 (unsgn 80 x.1 ^^^ 2 ^ gIbit d), x.2) }
  else b

/-- Process up to `fuel` further chunks; with AFE a chunk waits until its granules of A are full, those outside the allotment left out (R108). Without CHK the last one sends the ring signal (R196). -/
def gmmaLoop (cid : Nat) : Nat → State → State
  | 0, s => s
  | fuel + 1, s => match s.cmd? cid with
    | none => s
    | some c =>
      let d := c.desc.toNat
      match (gLive d)[c.chunks]? with
      | none => s
      | some ch =>
        if gAfe d && (gGranules d ch).any (fun p => decide (p.1 < s.allot c.bk (winGrp (gAbase d))) && !(s.granFull c.bk (winGrp (gAbase d)) (256 * p.1 + 16 * p.2))) then s
        else
          let r := s.gChunk c d ch c.chunks (s.bankAt c)
          match r.fault with
          | some e =>
            let s := s.putBank c { r.bank with bad := true }
            s.gAbort { c with b := c.b ||| (if r.dsr then fDSR else 0) ||| (if r.bank.satop then fSAT else 0) } d (c.chunks + 1) e
          | none =>
            let b := if c.chunks = 0 then s.gInject c d r.bank else r.bank
            let n := c.chunks + 1
            let s := (s.putBank c b).updCmd cid fun c =>
              { c.setChunks n with b := c.b ||| (if r.dsr then fDSR else 0) ||| (if r.bank.satop then fSAT else 0) }
            gmmaLoop cid fuel (if n = (gLive d).length ∧ !(gChk d) then s.gSignal c d n else s)

/-- The product of step `t` of the `o`-th live chunk in cell (m, n), from operands read again. -/
def State.gTerm (s : State) (c : Cmd) (d m n ch o t : Nat) : Except (FClass × Nat) GEl :=
  match s.gPos c d o t n with
  | .error e => .error e
  | .ok k =>
    let x := s.gA c d m (32 * ch + k)
    let y := (s.gB c d (gPer d * o + t) n (32 * ch + k)).1
    match x.failure, y.failure with
    | some e, _ => .error e
    | _, some e => .error e
    | _, _ => .ok (GEl.mul (gOp d) x y)

/-- The spare cell replays element (m, n) from its entry value (R199): the same steps, shifts and saturation, over operands read again (R211). Where the
bank was restored from an area without a record of its shifts, the value is a free one. -/
def State.gReplay (s : State) (c : Cmd) (d m n : Nat) (b : Bank) : Except (FClass × Nat) Int :=
  if b.ws.isEmpty then .ok (clampBits 80 (Config.openCell s.free)).1
  else ((gLive d).zip (span 0 (gLive d).length)).foldl (fun acc x => match acc with
    | .error e => .error e
    | .ok v =>
      let w := b.ws.getD (x.2 + 1) b.w
      (span 0 (gSteps d x.1)).foldl (fun acc t => match acc with
        | .error e => .error e
        | .ok v => match s.gTerm c d m n x.1 x.2 t with
          | .error e => .error e
          | .ok p => .ok (addTerm 80 w p (v, 0)).1.1) (.ok (v / (2 ^ (w - b.ws.getD x.2 b.w).toNat : Nat))))
    (.ok (sget 0 b.first (cellKey m n)))

/-- The comparison after the last product (R197 to R199): LASTCHK, any correction, and the ring signal. An uncorrectable pattern is a silent error, whose replay
supersedes the operation's completion. DESIGN CHOICE: after a failed recheck the syndrome is that of the first comparison
(notes/assumptions/62.md). -/
def State.gCompare (s : State) (c : Cmd) (d : Nat) : State :=
  let b := s.bankAt c
  let n := (gLive d).length
  let done := fun (s : State) (b : Bank) (k : Nat) => ((s.putBank c { b with lastchk := k }).gSignal c d n).updCmd c.id (Cmd.mark 2)
  if !(gChk d) then done s b 0
  else if b.skips d then done s b 3
  else
    let rows := b.badRows d
    let cols := b.badCols d
    let unit := fun (m k : Nat) => c.sub * 2 ^ 14 + m * 2 ^ 7 + k
    let lost := fun (s : State) (m k : Nat) =>
      let synd : Int := if cols.isEmpty then b.dR d m else b.dC d k
      (((s.logError c.core 3 2 (some (s.ctxOf c.bk)) (unit m k) (unsgn 64 synd)).gSignal c d n).silent c.bk c.pc c.fk).engDone c c.b
    match rows, cols with
    | [], [] => done s b 1
    | [m], [k] =>
      match s.gReplay c d m k b with
      | .error e => (s.putBank c { b with bad := true }).gAbort c d n e
      | .ok v =>
        let s := if b.ws.isEmpty then { s with free := s.free + 1 } else s
        let b' := { b with cells := sset (0, 0) b.cells (cellKey m k) (v, (b.cell (cellKey m k)).2) }
        if (b'.badRows d).isEmpty && (b'.badCols d).isEmpty then
          done (s.logError c.core 1 2 (some (s.ctxOf c.bk)) (unit m k) (unsgn 64 (b.dC d k))) b' 1
        else lost (s.putBank c b') m k
    | _, _ => lost s (rows.headD 0) (cols.headD 0)

def zeroResume (d : Nat) : Nat := setBits d 58 1 0

/-- A `gmma` begins (R195, R202): with RESUME it goes on from the recorded step. -/
def State.gmmaStart (s : State) (c : Cmd) : State :=
  let d := c.desc.toNat
  let b := s.bankAt c
  let run := fun (s : State) (n : Nat) => s.updCmd c.id fun c => { c.setChunks n with stat := .running }
  if gResume d then
    if !b.susp || zeroResume b.blk.toNat ≠ zeroResume d then s.gAbort c d 0 (.fm, openDet)
    else run (s.putBank c { b with susp := false, ent := false, kdone := 0 }) ((b.kdone + gPer d - 1) / gPer d)
  else if gAcc d && (b.wmode != gWmode d || (b.wmode && decide (b.w ≠ gW d)) || b.bad) then
    (s.putBank c { b with bad := true }).gAbort c d 0 (.fm, openDet)
  else run (s.putBank c (b.start d)) 0

/-- Suspend a running `gmma` at its chunk boundary (R202): it completes under TL without a ring signal. -/
def State.gSuspend (s : State) (c : Cmd) : State :=
  let d := c.desc.toNat
  let k := (((gLive d).take c.chunks).map (gSteps d)).sum
  (s.putBank c { s.bankAt c with susp := true, ent := gChk d, kdone := k, blk := c.desc }).engDone c c.b

/-! ### gdrain -/

/-- Flags that a drain may set. -/
def drainFlags : Nat := fNV + fOF + fUF + fNX + fSAT

/-- A drained cell and its flags (R144); in a format that Silivo defines both are free values of the machine (R147). DESIGN CHOICE: an INT32 value that is rounded and clamped sets SAT alone (notes/assumptions/62.md). -/
def drainCell (ofmt : Nat) (w : Int) (cell : Int × Nat) : Nat × Nat :=
  let k := if ofmt = 0 then fmtOf .bf16 else if ofmt = 1 then fmtOf .f16 else fmt32
  if emuFmt ofmt then ((Config.emuWord ofmt cell.1 cell.2 w).toNat, Config.emuFlags ofmt cell.1 cell.2 w &&& drainFlags)
  else if ofmt = 5 then match cell.2 with
    | 0 => if cell.1 = 0 then (0, 0) else
        let r := toIntegral .near (decide (cell.1 < 0)) cell.1.natAbs w
        (unsgn 32 (clampTo .i32 r.1), (if clampTo .i32 r.1 = r.1 then (if r.2 then fNX else 0) else fSAT))
    | 1 => (0x7FFFFFFF, fNV)
    | 2 => (0x80000000, fNV)
    | _ => (0, fNV)
  else match cell.2 with
    | 0 => roundInt k .near cell.1 w false
    | 1 => (infBits k false, 0)
    | 2 => (infBits k true, 0)
    | _ => (nanBits k, fNV)

/-- One drained lane word: register, lane and value with flags. DESIGN CHOICE: a format that Silivo defines, for which no layout is given, takes one word
per cell, as FP32 does (notes/assumptions/62.md). -/
def drainWords (d : Nat) (b : Bank) : List (Nat × Nat × Nat × Nat) :=
  let half := gOfmt d == 0 || gOfmt d == 1
  (span 0 (gM d)).flatMap fun m => (span 0 (if half then (gN d + 1) / 2 else gN d)).map fun j =>
    if half then
      let x := drainCell (gOfmt d) b.w (b.cell (cellKey m (2 * j)))
      let y := if 2 * j + 1 < gN d then drainCell (gOfmt d) b.w (b.cell (cellKey m (2 * j + 1))) else (0, 0)
      (gOreg d m (2 * j), m % 64, x.1 + y.1 * 2 ^ 16, x.2 ||| y.2)
    else
      let x := drainCell (gOfmt d) b.w (b.cell (cellKey m j))
      (gOreg d m j, m % 64, x.1, x.2)

/-- Execute a drain (R206): a word outside its group's allotment is discarded and reported (R108). -/
def State.gdrainRun (s : State) (c : Cmd) : State :=
  let d := c.desc.toNat
  let b := s.bankAt c
  let grp := winGrp (gObase d)
  if b.bad || gdrainIll d then (s.engReport c .fm openDet).engDone c 0
  else
    let ws := drainWords d b
    let s := ws.foldl (fun s x => s.winDeliver c c.bk grp (256 * x.1 + 4 * x.2.1) (natBytes 4 x.2.2.1)) s
    let grans := ((ws.filter fun x => decide (x.1 < s.allot c.bk grp)).map fun x => 256 * x.1 + 16 * (x.2.1 / 4)).dedup
    let s := grans.foldl (fun s o => s.fillAt (.win c.bk grp o) 16) (s.effect c.bk)
    let s := if gZad d then s.putBank c { b with cells := [], sat := false, bad := false, wset := b.wmode } else s
    s.engDone c (ws.foldl (fun m x => m ||| x.2.2.2) 0)

/-! ### gload, gzero, gstat -/

/-- Copy to a Lid slot (R207): words under a mark leave their bytes; a source that has left the allotment leaves them all (R108). The slot is held from
the first write on (R186). -/
def State.gloadRun (s : State) (c : Cmd) : State :=
  let r := c.desc.toNat
  let core := c.core
  let g := winGrp (glSrc r)
  if s.slotTaken core (glSlot r) c.bk then (s.engReport c .ac (glSlot r)).engDone c 0
  else
    let ws := (span 0 (glLen r / 4)).map fun i => (i, winOff (glSrc r) + 4 * i)
    match ws.find? fun x => decide (256 * s.allot c.bk g ≤ x.2) with
    | some x => (s.engReport c .ac (winAddr g (x.2 / 256 * 256))).engDone c 0
    | none =>
      let marked := fun (x : Nat × Nat) => s.vpois c.bk g (x.2 / 256) (x.2 % 256 / 4)
      let good := ws.filter fun x => !(marked x)
      let lid := good.foldl (fun m x =>
        mputs m (lidKey core (glSlot r * 2 ^ 17 + glOfs r + 4 * x.1)) ((span x.2 4).map (s.wget c.bk g))) s.eng.lid
      let t := if good.isEmpty then s
        else ((({ s with eng := { s.eng with lid := lid } } : State)).takeSlot core (glSlot r) c.bk).effect c.bk
      (if ws.any marked then t.engReport c .pz openDet else t).engDone c 0

/-- Prepare a bank (R208). -/
def State.gzeroRun (s : State) (c : Cmd) : State :=
  (s.putBank c { (s.bankAt c).prepare c.desc.toNat with susp := false, ent := false, kdone := 0 }).engDone c 0

/-- The status word (R210). -/
def Bank.status (b : Bank) : Nat :=
  unsgn 16 b.w + (if b.susp then b.kdone * 2 ^ 24 else 0) + b2n b.wmode * 2 ^ 41 + b2n b.wset * 2 ^ 42 + b2n b.sat * 2 ^ 43
    + b2n b.susp * 2 ^ 44 + b2n b.bad * 2 ^ 45 + b.lastchk * 2 ^ 46

def State.gstatRun (s : State) (c : Cmd) : State :=
  (s.setU { pc := c.pc, fk := c.fk } c.bk c.g (c.du.getD 0) (s.bankAt c).status).engDone c 0

/-! ### Save areas (R203, R209) -/

/-- Read line `i` of an area into a bank, with what an area has no room for open; none where a byte that must be zero is not. -/
def Bank.readLine (i w : Nat) (b : Bank) : Option Bank :=
  let put := fun (m : FMap (Int × Nat)) (base : Nat) => (span 0 8).foldl (fun m j =>
    sset (0, 0) m (base + j) (sgn 88 (bits w (128 * j) 88), bits w (128 * j + 88) 2)) m
  if i = 0 then
    if bits w 56 8 ≠ 1 ∨ bits w 16 16 ≠ 0 ∨ bits w 38 4 ≠ 0 ∨ w / 2 ^ 64 ≠ 0 then none
    else some { b with w := sgn 16 (bits w 0 16), wmode := bit w 32, wset := bit w 33, sat := bit w 34, susp := bit w 35, bad := bit w 36,
                       ent := bit w 37, kdone := bits w 42 14, satop := bit w 34, wset0 := false, first := [], ws := [] }
  else if i = 1 then (if b.susp then some { b with blk := BitVec.ofNat 1024 w } else if w = 0 then some b else none)
  else if i < 34 then
    if (span 0 8).any fun j => bits w (128 * j + 90) 38 ≠ 0 then none
    else if i < 18 then some { b with crow := put b.crow (8 * (i - 2)) } else some { b with ccol := put b.ccol (8 * (i - 18)) }
  else if i < 64 then (if w = 0 then some b else none)
  else if (span 0 4).any fun j => bits w (256 * j + 82) 46 ≠ 0 || bits w (256 * j + 208) 48 ≠ 0 then none
  else some ((span 0 4).foldl (fun (b : Bank) j =>
    let k := 4 * (i - 64) + j
    { b with cells := sset (0, 0) b.cells k (sgn 80 (bits w (256 * j) 80), bits w (256 * j + 80) 2),
             latch := sset 0 b.latch k (sgn 80 (bits w (256 * j + 128) 80)) }) b)

/-- Write up to `fuel` lines of the area. -/
def areaLoop (cid : Nat) : Nat → State → State
  | 0, s => s
  | fuel + 1, s => match s.cmd? cid with
    | none => s
    | some c =>
      if c.chunks = areaLines then s
      else match s.engLine c (c.addr + 128 * c.chunks) ((s.bankAt c).areaLine c.chunks) with
        | .wait s => s
        | .fail f det s => s.engFail c f det
        | .ok _ s => areaLoop cid fuel (s.updCmd cid (Cmd.setChunks (c.chunks + 1)))

/-- What reading an area came to. -/
inductive AreaRead
  | ok (b : Bank) (s : State)
  | wait (s : State)
  | fail (c : FClass) (det : Nat) (s : State)
  | bad (s : State)

/-- Read the lines of an area in order. -/
def areaRead (c : Cmd) : Nat → Nat → Bank → State → AreaRead
  | 0, _, b, s => .ok b s
  | fuel + 1, i, b, s => match s.engLoad c false (c.addr + 128 * i) 128 with
    | .wait s => .wait s
    | .fail f det s => .fail f det s
    | .ok bs s => match b.readLine i (ofNats bs) with
      | none => .bad s
      | some b => areaRead c fuel (i + 1) b s

/-- What an area shows of a bank. -/
def Bank.shown (b : Bank) : Bank :=
  { b with satop := false, wset0 := false, first := [], ws := [], lastchk := 0, blk := if b.susp then b.blk else 0, kdone := if b.susp then b.kdone else 0 }

/-- A bank read from an area goes on as the suspended one that a `gsave` left with these contents (R202). DESIGN CHOICE: of an area without such a `gsave`,
the bank's SAT counts as the operation's own, and a fixed window as one that never moved (notes/assumptions/62.md). -/
def State.recallBank (s : State) (b : Bank) : Bank :=
  match if b.susp then s.eng.saves.find? fun x => x.shown == b.shown else none with
  | some x => { b with satop := x.satop, wset0 := x.wset0, first := x.first, ws := x.ws }
  | none => if b.wmode then { b with first := b.latch, ws := [b.w] } else b

/-- Remember a suspended bank that a `gsave` has written. -/
def State.saveOut (s : State) (c : Cmd) : State :=
  let b := s.bankAt c
  if b.susp then { s with eng := { s.eng with saves := b :: s.eng.saves.filter fun x => x.shown != b.shown } } else s

/-- Restore a bank from its area. -/
def State.gresumeRun (s : State) (c : Cmd) : State :=
  let b := s.bankAt c
  match areaRead c areaLines 0 { b with cells := [], latch := [], crow := [], ccol := [] } s with
  | .wait s => s
  | .fail f det s => s.engFail c f det
  | .bad s => ((s.putBank c { b with bad := true }).engReport c .fm openDet).engDone c 0
  | .ok b s => (s.putBank c (s.recallBank b)).engDone c 0

/-! ### The instructions -/

/-- A Griddle command enters the queue; the first one in a frame that names a bank saves it (R314). -/
def gIssue (start : Nat) (s : State) (u : WUnit) (c : Cmd) : State :=
  if !(s.queueRoom c.core Config.griddleQueue CmdKind.griddle) then s
  else if c.kind = .gload then s.engIssue .tl start u c
  else match s.saveBank c with
    | none => s.noRoom u.bk { pc := s.ipc, fk := u.rep }
    | some s => s.engIssue .tl start u c

/-- Issue of an instruction with a record of `n` bytes. -/
def runGriddle (s : State) (g : Guard) (kind : CmdKind) (a n : Nat) (ready : State → WUnit → Nat → Bool)
    (check : State → WUnit → Nat → Option (FClass × Nat)) (fin : WUnit → Nat → Cmd → Cmd) : State :=
  runUnits s g (fun s u =>
    (planRec s u .tl a n n).bind fun w =>
      let d := s.wnum u.bk (winGrp w) (winOff w) n
      if !(ready s u d) then .stall
      else match check s u d with
        | some (c, det) => .fault c det
        | none => .go (fin u d { s.cmdOf u kind with addr := w, desc := BitVec.ofNat 1024 d, sub := gBank d }))
    (gIssue s.seq)

/-- gmma (R205). -/
def execGmma (f : Eng) (s : State) : Host.Outcome State Fault Refusal :=
  .next (runGriddle s f.g .gmma f.a 128 (fun _ _ _ => true) gmmaCheck fun _ _ c => c)
/-- gdrain (R206). -/
def execGdrain (f : Eng) (s : State) : Host.Outcome State Fault Refusal :=
  .next (runGriddle s f.g .gdrain f.a 128 (fun s u d => !(s.dstBusy u (gdrainDst u d))) gdrainCheck fun u d c => { c with dst := gdrainDst u d })
/-- gload (R207). -/
def execGload (f : Eng) (s : State) : Host.Outcome State Fault Refusal :=
  .next (runGriddle s f.g .gload f.a 16 (fun _ _ _ => true) gloadCheck fun _ d c => { c with sub := glSlot d })
/-- gzero (R208). -/
def execGzero (f : Eng) (s : State) : Host.Outcome State Fault Refusal :=
  .next (runGriddle s f.g .gzero f.a 128 (fun _ _ _ => true) (fun _ _ _ => none) fun _ _ c => c)
/-- gstat (R210). -/
def execGstat (f : EngD) (s : State) : Host.Outcome State Fault Refusal :=
  .next (runGriddle s f.g .gstat f.a 128 (fun s u _ => !(s.busyU u.bk u.g f.d)) (fun _ _ _ => none) fun _ _ c => { c with du := some f.d })

/-- gsave and gresume (R209): a global pointer and a bank number. DESIGN CHOICE: a pointer that is no multiple of 128 raises MA at the instruction, behind the FM
of sB (notes/assumptions/62.md). -/
def runArea (s : State) (f : EngB) (kind : CmdKind) : State :=
  runUnits s f.g (fun s u =>
    let srcs : List Src := [⟨.s f.a, false, true⟩, ⟨.s f.b, false, true⟩]
    match planOperands s u none srcs [true, true] with
    | .stall => .stall
    | .fault c det => .fault c det
    | .go (_, rs) =>
      let xs := readSrcs s u srcs rs
      let p := xs.getD 0 0
      let b := xs.getD 1 0
      if s.cntFull u .tl || s.acqWait u.rep then .stall
      else if 1 < b then .fault .fm openDet
      else if p % 128 ≠ 0 then .fault .ma p
      else .go { s.cmdOf u kind with addr := p, sub := b })
    (gIssue s.seq)

/-- gsave (R209). -/
def execGsave (f : EngB) (s : State) : Host.Outcome State Fault Refusal := .next (runArea s f .gsave)
/-- gresume (R209). -/
def execGresume (f : EngB) (s : State) : Host.Outcome State Fault Refusal := .next (runArea s f .gresume)

/-! ### The events -/

/-- Bank commands name a bank; `gload` names a slot (R187). -/
def Cmd.onBank (c : Cmd) : Bool := c.kind != .gload
/-- Two commands of one Griddle conflict (R187). -/
def gConflict (a b : Cmd) : Bool :=
  (a.onBank && b.onBank && a.sub == b.sub) || (a.kind == .gmma && b.kind == .gmma) ||
  (a.kind == .gload && b.kind == .gmma && (gSlots b.desc.toNat).contains a.sub) ||
  (b.kind == .gload && a.kind == .gmma && (gSlots a.desc.toNat).contains b.sub)

/-- The earlier commands that a command waits for. -/
def State.gEarlier (s : State) (c : Cmd) : List Cmd :=
  (s.cmds.takeWhile fun e => e.id != c.id).filter fun e => e.core == c.core && e.kind.griddle && e.stat != .done && gConflict e c

/-- Begin a command whose conflicts are over: what Silivo is asked for and does not define is reported with its code, and the command ends without its effect;
what it defines runs as the engine's own operation, a `gmma` after its checks (R147). DESIGN CHOICE: of several codes, the first of AFMT, BFMT, OFMT is
reported (notes/assumptions/62.md). -/
def State.gBegin (s : State) (c : Cmd) : State :=
  let d := c.desc.toNat
  let run := s.updCmd c.id fun c => { c with stat := .running }
  match (gEmuCodes c.kind d).find? fun k => !(s.host.silivo.contains k) with
  | some code => if c.kind = .gmma then s.gAbort c d 0 (.fm, code) else (s.engReport c .fm code).engDone c 0
  | none =>
    if c.kind ≠ .gmma then run
    else match if (gEmuCodes c.kind d).isEmpty then none else gmmaRules s { rep := c.fk, mem := [c.fk] } d with
      | some e => s.gAbort c d 0 e
      | none => gmmaLoop c.id s.ch.ahead (s.gmmaStart c)

/-- A running `gmma` has chunks left. -/
def Cmd.inChunks (c : Cmd) : Bool :=
  c.kind == .gmma && c.stat == .running && decide (c.chunks < (gLive c.desc.toNat).length)

/-- GRIDDLE_OP_START (R187): a command starts once no earlier one that conflicts is left; a running `gmma` processes the chunks that the
step's choice says, and after the last one is compared; `gsave` and `gresume` suspend the `gmma` that runs on their bank (R209). -/
def execGriddleOpStart (cmd : Nat) (s : State) : Host.Outcome State Fault Refusal :=
  .next (match s.cmd? cmd with
    | none => s
    | some c =>
      if !(s.cmdLive c) || !c.kind.griddle then s
      else if c.stat = .running then
        (if c.inChunks then gmmaLoop cmd s.ch.ahead s
        else if c.kind = .gmma ∧ !c.compared then s.gCompare c c.desc.toNat
        else s)
      else match s.gEarlier c with
        | [] => s.gBegin c
        | [e] =>
          if (c.kind = .gsave ∨ c.kind = .gresume) ∧ e.inChunks then (s.gSuspend e).updCmd cmd fun c => { c with stat := .running } else s
        | _ => s)

/-- A `gmma` whose chunks are all processed is compared and completes. -/
def State.gFinish (s : State) (cmd : Nat) : State :=
  match s.cmd? cmd with
  | some c =>
    if c.chunks ≠ (gLive c.desc.toNat).length then s
    else
      let s := if c.compared then s else s.gCompare c c.desc.toNat
      (match s.cmd? cmd with
        | some c => s.engDone c c.b
        | none => s)
  | none => s

/-- GRIDDLE_OP_COMPLETE (R205): what is left of a running command is done, and it completes under TL. -/
def execGriddleOpComplete (cmd : Nat) (s : State) : Host.Outcome State Fault Refusal :=
  .next (match s.cmd? cmd with
    | none => s
    | some c =>
      let d := c.desc.toNat
      if !(s.cmdLive c) || c.stat != .running then s
      else match c.kind with
        | .gmma => (gmmaLoop cmd ((gLive d).length + 1) s).gFinish cmd
        | .gdrain => s.gdrainRun c
        | .gload => s.gloadRun c
        | .gzero => s.gzeroRun c
        | .gstat => s.gstatRun c
        | .gresume => s.gresumeRun c
        | .gsave =>
          let s := areaLoop cmd (s.chunkOf areaLines) s
          (match s.cmd? cmd with
            | some c => if c.chunks = areaLines ∧ s.putsDone c then (s.saveOut c).engDone c 0 else s
            | none => s)
        | _ => s)

end Sys2Proof.Machine
end

