-- ==== Sys2Proof/Machine/Jasper.lean ====
section
/-!
DEFINITION. The Jasper clause array: evaluation (R215), training and feedback (R216 to R220), the eight instructions (R221 to R230) and
the event JASPER_OP_APPLY (R231).
-/
namespace Sys2Proof.Machine

/-! ### The array -/

def State.jasAt (s : State) (core : Nat) : Jas := (sget none s.eng.jas core).getD Jas.reset
def Jas.cell (j : Jas) (c l : Nat) : Nat := sget 0 j.cells (c * 1024 + l)
def Jas.entry (j : Jas) (c : Nat) : Nat := sget 0 j.cmap c
def Jas.en (j : Jas) (c : Nat) : Bool := bit (j.entry c) 5
def Jas.neg (j : Jas) (c : Nat) : Bool := bit (j.entry c) 4
def Jas.cls (j : Jas) (c : Nat) : Nat := bits (j.entry c) 0 4

/-- A block holds the array of its core (R213). -/
def State.holdsJas (s : State) (bk core : Nat) : Bool := sget 0 s.eng.jasHold core == bk + 1

/-! ### Evaluation (R215) -/

/-- Value of literal `l` of sample `j` of a register's words. -/
def litVal (ws : List Word) (j l : Nat) : Bool :=
  let x := (ws.getD (16 * j + l / 2 / 32) 0).getLsbD (l / 2 % 32)
  if l % 2 = 0 then x else !x

/-- The literals a clause includes. -/
def Jas.included (j : Jas) (c : Nat) : List Nat :=
  ((scut j.cells (c * 1024) 1024).filter fun p => decide (128 ≤ p.2) && decide (p.1 < 2 * j.nf)).map (·.1)

/-- Output of a clause on a sample. -/
def Jas.output (j : Jas) (train : Bool) (ws : List Word) (k c : Nat) : Bool :=
  j.en c && (if (j.included c).isEmpty then train else (j.included c).all (litVal ws k))

/-- The vote of a class over given outputs, clamped to [−T, T]. -/
def Jas.vote (j : Jas) (out : Nat → Bool) (k : Nat) : Int :=
  let v : Int := ((span 0 256).map fun c => if j.en c && j.cls c == k && out c then (if j.neg c then (-1 : Int) else 1) else 0).sum
  max (-(j.t : Int)) (min v j.t)

/-! ### Training (R216 to R220) -/

/-- Event(thr, r) (R218). -/
def event (thr r : Nat) : Bool := thr == 0xFFFF || decide (r < thr)

/-- draw(c, l) (R220). -/
def Jas.draw (j : Jas) (seed cbase c l : Nat) : Nat := hashH seed cbase (j.step * 2 ^ 19 + c * 2 ^ 11 + l) 0xFFFF % 2 ^ 16

/-- Entry `e` of nudge set `n`: INC1, DEC1, DEC0, INC2. -/
def Jas.thr (j : Jas) (n e : Nat) : Nat := sget 0 j.nudge (4 * n + e)

/-- A cell after feedback (R217); `two` is type II. -/
def Jas.nudged (j : Jas) (seed cbase n : Nat) (two o v : Bool) (c l : Nat) : Nat :=
  let x := j.cell c l
  let r := j.draw seed cbase c l
  let up := min 255 (x + 1)
  if two then (if o && !v && decide (x < 128) && event (j.thr n 3) r then up else x)
  else if o then
    if v then (if event (j.thr n 0) r then up else x) else (if event (j.thr n 1) r then x - 1 else x)
  else (if event (j.thr n 2) r then x - 1 else x)

/-- Feedback of a clause on a sample, formed from `j` and written over `m`. -/
def Jas.feedback (j : Jas) (seed cbase n : Nat) (two o : Bool) (ws : List Word) (k c : Nat) (m : FMap Nat) : FMap Nat :=
  (span 0 (2 * j.nf)).foldl (fun m l => sset 0 m (c * 1024 + l) (j.nudged seed cbase n two o (litVal ws k l) c l)) m

def Jas.advance (j : Jas) : Jas := { j with step := (j.step + 1) % 2 ^ 45 }

/-- Tsel(k, ±1) (R216). -/
def Jas.tsel (j : Jas) (sall : Bool) (v : Int) : Nat := if sall then 0xFFFF else (65535 * ((j.t : Int) + v)).toNat / (2 * j.t)

/-- Train one sample (R216). -/
def Jas.train (seed cbase n : Nat) (sall : Bool) (ws : List Word) (k y q : Nat) (j : Jas) : Jas :=
  let out := fun (c : Nat) => j.output true ws k c
  let vy := j.vote out y
  let vq := j.vote out q
  let cells := (span 0 256).foldl (fun m c =>
    if !(j.en c) then m
    else if j.cls c = y then
      if event (j.tsel sall (-vy)) (j.draw seed cbase c 1024) then j.feedback seed cbase n (j.neg c) (out c) ws k c m else m
    else if q < 16 ∧ q ≠ y ∧ j.cls c = q then
      if event (j.tsel sall vq) (j.draw seed cbase c 1024) then j.feedback seed cbase n (!(j.neg c)) (out c) ws k c m else m
    else m) j.cells
  { j with cells := cells }.advance

/-! ### Issue (R222) -/

/-- A block that does not hold its core's array takes IL (R213); TL and the queue are as for every engine. -/
def runJasper (s : State) (g : Guard) (plan : State → WUnit → Plan Cmd) : State :=
  runEng s g .tl Config.jasperQueue CmdKind.jasper fun s u =>
    if !(s.holdsJas u.bk (s.group u.bk u.g).core) then .fault .il openDet
    else if s.cntFull u .tl || s.acqWait u.rep then .stall else plan s u

/-- cload and cstore (R226). DESIGN CHOICE: of R71's checks of the range its alignment, the bounds entry and the entry's permission are made at issue, the
walk, the leaf and the region's permissions as the command runs (R97; notes/assumptions/62.md). -/
def runClause (s : State) (f : EngB) (kind : CmdKind) (acc : Kind) : State :=
  runJasper s f.g fun s u =>
    let srcs : List Src := [⟨.s f.a, false, true⟩, ⟨.s f.b, false, true⟩]
    match planOperands s u none srcs [true, true] with
    | .stall => .stall
    | .fault c det => .fault c det
    | .go (_, rs) =>
      let xs := readSrcs s u srcs rs
      let p := xs.getD 0 0
      let b := xs.getD 1 0
      let n := bits b 8 8 + 1
      if b / 2 ^ 16 ≠ 0 ∨ 256 < b % 256 + n then .fault .fm openDet
      else match s.boundsCheck (s.ctxOf u.bk) p (1024 * n) 128 acc with
        | some c => .fault c p
        | none => .go { s.cmdOf u kind with addr := p, sub := b % 256, b := n }

/-- cload (R226). -/
def execCload (f : EngB) (s : State) : Host.Outcome State Fault Refusal := .next (runClause s f .cload .load)
/-- cstore (R226). -/
def execCstore (f : EngB) (s : State) : Host.Outcome State Fault Refusal := .next (runClause s f .cstore .store)

/-- Words `i` to `i + n` of a window range, and their marks. -/
def State.recWords (s : State) (bk w i n : Nat) : List Word × List Word :=
  let off := fun (j : Nat) => winOff w + 4 * j
  ((span i n).map fun j => BitVec.ofNat 32 (s.wnum bk (winGrp w) (off j) 4),
   (span i n).map fun j => BitVec.ofNat 32 (b2n (s.wpois bk (winGrp w) (off j) 4)))

/-- ctab and cseed: only the record's address is checked at issue (R224, R225, R394); the command holds the record's words and their marks as they stand
(R57). -/
def runTable (s : State) (f : Eng) (kind : CmdKind) (n al : Nat) : State :=
  runJasper s f.g fun s u =>
    let srcs : List Src := [⟨.s f.a, false, false⟩]
    match planOperands s u none srcs [true] with
    | .stall => .stall
    | .fault c det => .fault c det
    | .go (_, rs) =>
      let w := (readSrcs s u srcs rs).getD 0 0
      match s.winCheck u.bk w n al with
      | some (c, det) => .fault c det
      | none => if s.recBusy u.rep w n then .stall else
          let r := s.recWords u.bk w 0 (n / 4)
          .go { s.cmdOf u kind with addr := w, va := r.1, vb := r.2 }

/-- cseed (R225). -/
def execCseed (f : Eng) (s : State) : Host.Outcome State Fault Refusal := .next (runTable s f .cseed 16 16)
/-- ctab (R224). -/
def execCtab (f : Eng) (s : State) : Host.Outcome State Fault Refusal := .next (runTable s f .ctab 320 64)

/-- The 64 lane words of a register. -/
def State.lanes (s : State) (bk g r : Nat) : List Word := (span 0 64).map fun l => BitVec.ofNat 32 (s.vraw bk g r l)

/-- Selected samples of a mask. -/
def samplesOf (mask : Nat) : List Nat := (span 0 4).filter fun j => bit mask j

/-- Plan a form with vector sources read whole at issue; `d` is the destination and the mask of the samples it takes. -/
def planVec (s : State) (u : WUnit) (d : Option (Nat × Nat)) (srcs : List Nat) : Plan Unit :=
  let al := s.allot u.bk u.g
  let dst := match d with
    | some (r, _) => [r]
    | none => []
  match firstBad ((dst ++ srcs).map fun r => checkReg al r false false) with
  | some (.bad c det) => .fault c det
  | _ =>
    let busyD := match d with
      | some (r, m) => (samplesOf m).any fun j => (span (16 * j) 16).any fun l => s.waitV u.rep r l
      | none => false
    if busyD || srcs.any fun r => (span 0 64).any fun l => s.waitV u.rep r l then .stall
    else match srcs.find? fun r => (span 0 64).any fun l => s.vpois u.bk u.g r l with
      | some r => .fault .pz r
      | none => .go ()

/-- cinfer and cvote: the result goes to the lanes of the selected samples of D. -/
def runEval (s : State) (g : Guard) (kind : CmdKind) (d a mask : Nat) : State :=
  runJasper s g fun s u => (planVec s u (some (d, mask)) [a]).bind fun _ =>
    .go { s.cmdOf u kind with
      sub := d, b := mask, va := s.lanes u.bk u.g a, dst := (samplesOf mask).map fun j => (256 * d + 64 * j, 64) }

/-- cinfer (R227). -/
def execCinfer (g : Guard) (d a mask : Nat) (s : State) : Host.Outcome State Fault Refusal := .next (runEval s g .cinfer d a mask)
/-- cvote (R228). -/
def execCvote (g : Guard) (d a mask : Nat) (s : State) : Host.Outcome State Fault Refusal := .next (runEval s g .cvote d a mask)

/-- ctrain and cfb. -/
def runTrain (s : State) (g : Guard) (kind : CmdKind) (a b code : Nat) : State :=
  runJasper s g fun s u => (planVec s u none [a, b]).bind fun _ =>
    .go { s.cmdOf u kind with b := code, va := s.lanes u.bk u.g a, vb := s.lanes u.bk u.g b }

/-- ctrain (R229). -/
def execCtrain (g : Guard) (a b mask set : Nat) (sall : Bool) (s : State) : Host.Outcome State Fault Refusal :=
  .next (runTrain s g .ctrain a b (mask + 16 * set + 64 * b2n sall))
/-- cfb (R230). -/
def execCfb (g : Guard) (a b set k : Nat) (two : Bool) (s : State) : Host.Outcome State Fault Refusal :=
  .next (runTrain s g .cfb a b (b2n two + 2 * k + 8 * set))

/-! ### Execution -/

/-- Line `i` of the image of an array (R232), as a number of 128 bytes. -/
def Jas.line (j : Jas) (i : Nat) : Nat :=
  let byte := fun (o : Nat) =>
    if o < 0x40000 then j.cell (o / 1024) (o % 1024)
    else if o < 0x40100 then j.entry (o - 0x40000)
    else if o < 0x40120 then bits (sget 0 j.nudge ((o - 0x40100) / 2)) (8 * (o % 2)) 8
    else if o < 0x40122 then bits j.t (8 * (o - 0x40120)) 8
    else if o < 0x40124 then bits j.nf (8 * (o - 0x40122)) 8
    else if 0x40128 ≤ o ∧ o < 0x40130 then bits j.step (8 * (o - 0x40128)) 8
    else 0
  (span 0 128).foldl (fun m k => m + byte (128 * i + k) * 256 ^ k) 0

/-- Write the array of a command's core; the whole state is saved at a frame's first change, with its image in the reserve (R232). -/
def State.putJas (s : State) (c : Cmd) (j : Jas) : State :=
  match s.recordExt c.bk c.g (.jasper (s.memberOf c.bk c.core)) (Config.jasperRecordBytes / 128) (s.jasAt c.core).line with
  | none => s.noRoom c.bk { pc := c.pc, fk := c.fk }
  | some s => { s with eng := { s.eng with jas := sset none s.eng.jas c.core (some j) } }

/-- The record that a command holds; a marked word is reported. -/
def jasRecord (c : Cmd) : Except (FClass × Nat) Nat :=
  if c.vb.any fun x => x != 0 then .error (.pz, openDet) else .ok (c.va.foldr (fun x m => x.toNat + m * 2 ^ 32) 0)

/-- `ctab`'s record, when it is well-formed. -/
def tabOf (r : Nat) (j : Jas) : Option Jas :=
  let put := fun (n w base : Nat) => (span 0 n).foldl (fun (m : FMap Nat) i => sset 0 m i (bits r (base + w * i) w)) []
  if bits r 288 224 ≠ 0 ∨ (span 0 256).any (fun c => bits r (512 + 8 * c + 6) 2 ≠ 0) ∨ bits r 272 16 = 0 ∨ 512 < bits r 272 16 ∨
      bits r 256 16 = 0 ∨ 256 < bits r 256 16 then none
  else some { j with cmap := put 256 8 512, nf := bits r 272 16, t := bits r 256 16, nudge := put 16 16 0 }

/-- Write result words to lanes of D and leave their granules full (R108, R222). -/
def State.jasResult (s : State) (c : Cmd) (ws : List (Nat × Nat)) : State :=
  let s := ws.foldl (fun s x => s.winDeliver c c.bk c.g (256 * c.sub + 4 * x.1) (natBytes 4 x.2)) s
  if s.allot c.bk c.g ≤ c.sub then s
  else (ws.map fun x => 256 * c.sub + 16 * (x.1 / 4)).dedup.foldl (fun s o => s.fillAt (.win c.bk c.g o) 16) (s.effect c.bk)

/-- Words of `cinfer`. -/
def inferWords (j : Jas) (c : Cmd) : List (Nat × Nat) :=
  (samplesOf c.b).flatMap fun k => (span 0 16).map fun i =>
    (16 * k + i, if i < 8 then (span 0 32).foldl (fun m b => if j.output false c.va k (32 * i + b) then m + 2 ^ b else m) 0 else 0)

/-- Words of `cvote`. -/
def voteWords (j : Jas) (c : Cmd) : List (Nat × Nat) :=
  (samplesOf c.b).flatMap fun k => (span 0 16).map fun i =>
    (16 * k + i, unsgn 32 (j.vote (fun n => (c.va.getD (16 * k + n / 32) 0).getLsbD (n % 32)) i))

/-- `ctrain` over its samples in order. -/
def trainAll (seed cbase : Nat) (c : Cmd) (j : Jas) : Jas :=
  (samplesOf (c.b % 16)).foldl (fun j k =>
    let w := (c.vb.getD (16 * k) 0).toNat
    j.train seed cbase (bits c.b 4 2) (bit c.b 6) c.va k (bits w 0 4) (bits w 8 5)) j

/-- `cfb` (R230). -/
def feedbackAll (seed cbase : Nat) (c : Cmd) (j : Jas) : Jas :=
  let k := bits c.b 1 2
  let cells := (span 0 256).foldl (fun m n =>
    if j.en n && (c.vb.getD (n / 32) 0).getLsbD (n % 32) then
      j.feedback seed cbase (bits c.b 3 2) (bit c.b 0) (j.output true c.va k n) c.va k n m else m) j.cells
  { j with cells := cells }.advance

/-- Read the eight lines of a clause's image. -/
def clauseRead (c : Cmd) (p : Nat) : Nat → State → EAcc
  | 0, s => .ok [] s
  | n + 1, s => match s.engLoad c false p 128 with
    | .ok bs s => match clauseRead c (p + 128) n s with
      | .ok cs s => .ok (bs ++ cs) s
      | x => x
    | x => x

/-- Load clauses in order; those whose lines were read keep their new cells. -/
def cloadLoop (cid : Nat) : Nat → State → State
  | 0, s => s
  | fuel + 1, s => match s.cmd? cid with
    | none => s
    | some c =>
      if c.chunks = c.b then s.engDone c 0
      else match clauseRead c (c.addr + 1024 * c.chunks) 8 s with
        | .wait s => s
        | .fail f det s => s.engFail c f det
        | .ok bs s =>
          let j := s.jasAt c.core
          let n := c.sub + c.chunks
          let j := { j with cells := (bs.zip (span 0 1024)).foldl (fun m x => sset 0 m (n * 1024 + x.2) x.1) j.cells }
          cloadLoop cid fuel ((s.putJas c j).updCmd cid (Cmd.setChunks (c.chunks + 1)))

/-- Store clauses line by line. -/
def cstoreLoop (cid : Nat) : Nat → State → State
  | 0, s => s
  | fuel + 1, s => match s.cmd? cid with
    | none => s
    | some c =>
      if c.chunks = 8 * c.b then (if s.putsDone c then s.engDone c 0 else s)
      else
        let j := s.jasAt c.core
        let n := c.sub + c.chunks / 8
        let v := (span 0 128).foldl (fun acc i => acc + j.cell n (128 * (c.chunks % 8) + i) * 256 ^ i) 0
        match s.engLine c (c.addr + 128 * c.chunks) v with
        | .wait s => s
        | .fail f det s => s.engFail c f det
        | .ok _ s => cstoreLoop cid fuel (s.updCmd cid (Cmd.setChunks (c.chunks + 1)))

/-- Apply a command (R223 to R230). -/
def State.jasApply (s : State) (c : Cmd) : State :=
  let j := s.jasAt c.core
  let rcb := s.rcbOf c.bk
  match c.kind with
  | .cload => cloadLoop c.id (c.b + 1) s
  | .cstore => cstoreLoop c.id (8 * c.b + 1) s
  | .ctab => match jasRecord c with
    | .error e => (s.engReport c e.1 e.2).engDone c 0
    | .ok r => match tabOf r j with
      | none => (s.engReport c .fm openDet).engDone c 0
      | some j => (s.putJas c j).engDone c 0
  | .cseed => match jasRecord c with
    | .error e => (s.engReport c e.1 e.2).engDone c 0
    | .ok r => if r / 2 ^ 45 ≠ 0 then (s.engReport c .fm openDet).engDone c 0 else (s.putJas c { j with step := r }).engDone c 0
  | .cinfer => (s.jasResult c (inferWords j c)).engDone c 0
  | .cvote => (s.jasResult c (voteWords j c)).engDone c 0
  | .ctrain => (s.putJas c (trainAll rcb.seed rcb.cbase c j)).engDone c 0
  | .cfb => (s.putJas c (feedbackAll rcb.seed rcb.cbase c j)).engDone c 0
  | _ => s

/-- The commands of a core's array that may be the next to arrive: the oldest of each group, or the one that is being applied. -/
def State.jasNext (s : State) (core : Nat) : List Cmd :=
  let q := s.cmds.filter fun c => c.core == core && c.kind.jasper && c.stat != .done
  match q.find? fun c => c.stat == .running with
  | some c => [c]
  | none => q.filter fun c => (q.find? fun e => e.bk == c.bk && e.g == c.g).map Cmd.id == some c.id

/-- JASPER_OP_APPLY (R231): the core's array applies the next command. Operations of different groups arrive in an order that depends on timing: the step's
choice names the group, 0 the command issued first. -/
def execJasperOpApply (core : Nat) (s : State) : Host.Outcome State Fault Refusal :=
  .next (let q := s.jasNext core
    match (q[s.ch.ahead]? <|> q.getLast?) with
    | none => s
    | some c => if s.cmdLive c then (s.updCmd c.id fun c => { c with stat := .running }).jasApply c else s)

end Sys2Proof.Machine
end

