-- ==== Sys2Proof/Machine/Page.lean ====
section
/-!
DEFINITION. The verdicts of the fault service: PAGE_MAPPED replays the side log and lets what waits for the page go on (R72, R74), PAGE_INVALID
gives AC to parked fibres and reports side-logged stores and engine commands (R72, R74, R97).
-/
namespace Sys2Proof.Machine

/-- Complete what can complete in every running block. -/
def State.settleRunning (s : State) : State := (s.blocks.map Block.uid).foldl State.settle s.sweep

/-- The committed writes of a context's blocks go on, block by block (R317). -/
def State.commitAll (s : State) (c : Nat) : State :=
  (s.blocks.filter fun b => s.ctxOf b.uid == c).foldl (fun s b => s.commitRun b.uid) s

/-- A command no longer waits for a page of a range. -/
def Cmd.unpage (lo n : Nat) (c : Cmd) : Cmd :=
  match c.page with
  | some p => if inVa lo n p then { c with page := none } else c
  | none => c

/-- Requests for pages of a range are answered. -/
def MemSt.answer (m : MemSt) (c lo n : Nat) : MemSt :=
  let keep := fun (r : Nat × Nat) => !(r.1 == c && inVa lo n r.2)
  { m with preq := m.preq.filter keep, inval := m.inval.filter keep }

/-- PAGE_MAPPED (R72, R74): a leaf maps the va; the entries that name the range are replayed in sequence order, then what was parked on it
resumes, and walks that waited for it go on. -/
def execPageMapped (ctx va : Nat) (s : State) : Host.Outcome State Fault Refusal :=
  .next (match s.walk ctx (va % 2 ^ 56) with
    | .leaf _ _ size _ _ _ =>
      let lo := va % 2 ^ 56 / size * size
      let s : State := { s with mem := s.mem.answer ctx lo size }
      let s := s.replayRange ctx lo size
      let s := (s.commitAll ctx).resumeRange ctx lo size
      ({ s with cmds := s.cmds.map (Cmd.unpage lo size) } : State).settleRunning
    | _ => s)

/-- A fibre parked on an invalid page takes AC at its instruction: its lane is checked again, or it stood at a fetch or a waiting instruction. -/
def State.invalidFib (s : State) (c lo fk : Nat) : State :=
  match s.fib fk with
  | some f => match f.stat with
    | .page q =>
      let ls := s.lanesIn fun o x => x.st == .page && o.bk == fkBk fk && x.fibres.contains fk
      if s.ctxOf (fkBk fk) ≠ c then s
      else if ls.isEmpty then
        (if inVa lo 65536 q then
          s.takeFault (fkBk fk) { code := FClass.ac.code, pc := f.pc, det := q, grp := fkG fk, lane := fkL fk }
        else s)
      else ls.foldl (fun s y => if inVa lo 65536 (s.pagePtr y.1 y.2.2) then s.retryLoad y.1 y.2.1 y.2.2 else s) s
    | _ => s
  | none => s

/-- A side-logged store of an engine command that is lost cancels the command (R97). -/
def State.invalidSide (s : State) (y : Op × Nat × Lane) : State :=
  let s := s.replayAt y.1.id y.2.1
  let lost : Bool := match s.laneAt y.1.id y.2.1 with
    | some (_, x) => x.st.isDone
    | none => true
  if y.1.kind == .put && y.1.aux != 0 && lost then s.finishCmd (y.1.aux - 1) else s

/-- A command that waits for an invalid page fails (R97). -/
def State.invalidCmd (s : State) (ctx lo : Nat) (c : Cmd) : State :=
  match c.page with
  | some p =>
    if s.ctxOf c.bk = ctx ∧ inVa lo 65536 p then match s.leafCheck ctx p .load with
      | .fault f _ => s.engFail c f p
      | _ => s.updCmd c.id fun c => { c with page := none }
    else s
  | none => s

/-- PAGE_INVALID (R72, R74, R97): the verdict on a request, for the 64 KiB range that holds its pointer. -/
def execPageInvalid (ctx va : Nat) (s : State) : Host.Outcome State Fault Refusal :=
  let lo := va % 2 ^ 56 / 65536 * 65536
  .next (if !(s.mem.preq.contains (ctx, lo)) then s
    else
      let m := s.mem.answer ctx lo 65536
      let s : State := { s with mem := { m with inval := m.inval ++ [(ctx, lo)], verdict := some (ctx, lo) } }
      let s := (s.rs.fibres.map Prod.fst).foldl (fun s fk => s.invalidFib ctx lo fk) s
      let s := (s.sideOf ctx lo 65536).foldl State.invalidSide s
      let s := s.commitAll ctx
      let s := (s.lanesIn fun o x => o.kind == .cwb && x.st == .pending && s.ctxOf o.bk == ctx && !x.tgt.isWin).foldl
        (fun s y => s.performLane y.1 y.2.1 y.2.2) s
      let s := (s.cmds.foldl (fun s c => s.invalidCmd ctx lo c) s).mailPage ctx
      let s := s.settleRunning
      { s with mem := { s.mem with verdict := none } })

end Sys2Proof.Machine
end

