-- ==== Sys2Proof/Machine/Place.lean ====
section
/-!
DEFINITION. Placement (R286 to R289, R292, R296, R305, R342): the order of a launch's blocks, the conditions of a gang, reservation, the
start of a block and the restore of a saved one; BLOCK_PLACE and PLACEMENT_DONE.
-/
namespace Sys2Proof.Machine

/-! ### The order of blocks (R287, R296) -/

/-- Side of the Hilbert square: the smallest power of two whose square holds the grid. -/
def hilbertSide (grid : Nat) : Nat := ((span 0 17).map (2 ^ ·)).find? (fun n => decide (grid ≤ n * n)) |>.getD (2 ^ 16)

/-- One turn of R296's loop at step `t`: x, y and h. -/
def hilbertStep (n : Nat) (p : Nat × Nat × Nat) (t : Nat) : Nat × Nat × Nat :=
  let rx := p.1 / t % 2
  let ry := p.2.1 / t % 2
  let h := p.2.2 + t * t * ((3 * rx) ^^^ ry)
  if ry = 0 then
    if rx = 1 then (n - 1 - p.2.1, n - 1 - p.1, h) else (p.2.1, p.1, h)
  else (p.1, p.2.1, h)

/-- Curve index of block `b` of a grid. -/
def hilbert (grid b : Nat) : Nat :=
  let n := hilbertSide grid
  ((((span 0 17).map (2 ^ ·)).filter fun t => decide (t < n)).reverse.foldl (hilbertStep n) (b % n, b / n, 0)).2.2

/-- The block of rank `k`: in rank order of R296 in deterministic mode, else in index order. -/
def Launch.blockAt (l : Launch) (k : Nat) : Nat := if l.rcb.det then (sortBy (hilbert l.grid) (span 0 l.grid)).getD k 0 else k

/-- The rank of a block. -/
def Launch.rankOf (l : Launch) (idx : Nat) : Nat := if l.rcb.det then (sortBy (hilbert l.grid) (span 0 l.grid)).idxOf idx else idx

/-- The quadrant a deterministic launch gives rank `k`; none when any will do. -/
def Launch.quadAt (l : Launch) (k : Nat) : Option Nat :=
  if l.rcb.det then some (l.dquads.getD (l.dquads.length * k / l.grid) 4) else none

/-! ### Conditions (R286, R287) -/

/-- A block as it comes to be placed: its launch's id, its index and path, its task, its groups. -/
def Block.fresh (uid lid idx ngrp bto : Nat) (path : List Nat) (task : Option TaskRec) : Block :=
  { uid := uid, lid := lid, idx := idx, path := path, task := task, cores := [], ngrp := ngrp, st := .pending, mode := .run,
    groups := List.replicate ngrp Group.none, frames := [], clFirst := [], bto := bto, cyc := 0, clDone := false, since := 0, fault := none,
    held := false, effects := false, replayed := false, stopAt := 0, failDepth := 0, reports := [], saved := none, kids := [],
    tickets := [], synced := false, tag := none }

/-- Cores of a cluster of the block's launch; a task has one (R292). -/
def Block.width (b : Block) (l : Launch) : Nat := if b.task.isSome then 1 else 2 ^ l.clus

/-- Chunks that group `g` of a block takes: those it had when it was saved, or its first allotment. -/
def Block.chunksOf (b : Block) (l : Launch) (g : Nat) : Nat :=
  if b.saved.isSome then (b.group g).chunks.length + (b.group g).held.length
  else match b.task with
    | some t => bits t.desc.toNat 200 6
    | none => l.allotc

/-- Groups of a block of `w` cores that R111 puts on member `m`. -/
def Block.groupsAt (b : Block) (w m : Nat) : List Nat :=
  let per := (b.ngrp + w - 1) / w
  (span 0 b.ngrp).filter fun g => g / per == m

/-- Cores that a region's blocks and tasks, and those of the regions below it, occupy. -/
def State.regionCores (s : State) (key : Nat) : List Nat :=
  ((s.blocks.filter fun b => b.onCores && (b.lid == key || match s.launch? b.lid with
    | some l => l.anc.contains key
    | none => false)).flatMap Block.cores).eraseDups

/-- CORES of the region and of every region above it (R286). -/
def State.coresOk (s : State) (l : Launch) (cores : List Nat) : Bool :=
  (l.lid :: l.anc).all fun key => match s.launch? key with
    | some r => decide ((s.regionCores key ++ cores).eraseDups.length ≤ r.rcb.cores)
    | none => true

/-- One member's conditions. -/
def State.memberOk (s : State) (b : Block) (l : Launch) (w m core : Nat) : Bool :=
  let gs := b.groupsAt w m
  bit (sget 0 s.host.coreRdy (quadOf core)) (core % Config.coresPerQuad) &&
    decide ((s.coreGroups core).length + gs.length ≤ Config.groupsPerCore) &&
    decide ((gs.map fun g => b.chunksOf l g + l.resc).sum ≤ s.freeCount core) &&
    (!l.jasper || sget 0 s.eng.jasHold core == 0) &&
    (match b.saved with
      | some v => v.lid.all fun x => x.1 != m || s.slotHolder core x.2.1 == 0
      | none => true)

/-- The owner of a child launch of a deterministic region has reached `dsync` or ended (R298, R305). -/
def State.ownerSynced (s : State) (o : Nat) : Bool :=
  match s.block? o with
  | some b => b.synced || (s.blockFibs o).isEmpty
  | none => true

/-- The cores from `first` on can be a block's cluster, within its budgets: a task goes to its core, and after a save to one of its quadrant (R292), a block of
a deterministic launch to the quadrant of its rank (R296). -/
def State.siteOk (s : State) (b : Block) (l : Launch) (first : Nat) : Bool :=
  let w := b.width l
  decide (first + w ≤ Config.cores) && first % w == 0 && bit s.host.hubReady (32 + quadOf first) && !s.host.stopped && !l.halt &&
    (match b.task with
      | some t => if b.saved.isSome then t.quad == quadOf first else t.core == first
      | none => match l.quadAt (if b.saved.isSome then l.rankOf b.idx else l.next) with
        | some q => q == quadOf first
        | none => true) &&
    s.coresOk l (span first w)

/-- All that R287 asks for a block on the cores from `first` on. -/
def State.placeOk (s : State) (b : Block) (l : Launch) (first : Nat) : Bool :=
  s.siteOk b l first && (span 0 (b.width l)).all fun m => s.memberOk b l (b.width l) m (first + m)

/-! ### Reservation -/

/-- The partition of a core with the fewest groups. -/
def State.leastPart (s : State) (core : Nat) : Nat :=
  (argMin (fun p => ((s.coreGroups core).filter fun x => x.2.part == p).length) (span 0 Config.partitions)).getD 0

/-- The recorded allotments of a group name its new chunks. -/
def Rec.remap (m : List (Nat × Nat)) (r : Rec) : Rec :=
  if r.item = .allot then { r with vals := r.vals.map (moveKey m), held := r.held.map fun h => (moveKey m h.1, h.2) } else r

/-- Seat group `g` of a block on a core: `old` is what it held before, renamed to the new chunks. -/
def State.seat (s : State) (bk core : Nat) (old : Group) (g n : Nat) : State :=
  let new := s.pickChunks core n
  let was := old.chunks ++ old.held.map (·.1)
  let m := was.zip new
  let part := s.leastPart core
  s.updGroup bk g fun _ =>
    if was = [] then { old with core := core, part := part, chunks := new }
    else { old with core := core, part := part, chunks := old.chunks.map (moveKey m), held := old.held.map (fun h => (moveKey m h.1, h.2)),
                    recs := old.recs.map (Rec.remap m) }

/-- Reserve cores, slots and chunks for a listed block (R289). -/
def State.seatAll (s : State) (b : Block) (l : Launch) (first : Nat) : State :=
  let w := b.width l
  let cores := span first w
  let per := (b.ngrp + w - 1) / w
  let empty : Block := { b with cores := cores, st := .placing, groups := b.groups.map fun g => { g with core := Config.cores, chunks := [], held := [] } }
  let s := { s with blocks := (s.blocks.filter fun x => x.uid != b.uid) ++ [empty] }
  let s := (span 0 b.ngrp).foldl (fun s g => s.seat b.uid (first + g / per) (b.group g) g (b.chunksOf l g)) s
  let s := if l.jasper then cores.foldl (fun s c => { s with eng := { s.eng with
      jasHold := sset 0 s.eng.jasHold c (b.uid + 1), jas := sset none s.eng.jas c none } }) s else s
  match b.saved with
  | some v => v.lid.foldl (fun s x => s.takeSlot (first + x.1) x.2.1 b.uid) s
  | none => s

/-- Staged writes that a task sees without having made them: a parent's staging, then what earlier siblings staged (R298). -/
def State.inherit (s : State) (uid : Nat) (from_ : List Nat) (sibs : List Nat) : State :=
  let take := fun (x : Stg) => { x with bk := uid, depth := 0, inh := true }
  let up := (from_.flatMap fun o => s.mem.stages.filter fun x => x.bk == o).map take
  let side := (sibs.flatMap fun o => s.ownStages o).map take
  { s with mem := { s.mem with stages := s.mem.stages ++ up ++ side } }

/-- The next block of a launch as it comes to be placed. -/
def State.nextBlock (s : State) (l : Launch) : Block :=
  Block.fresh s.seq l.lid (l.blockAt l.next) (l.grpm1 + 1) l.rcb.bto (s.rootPath l (l.blockAt l.next)) none

/-- A launch has a block that waits to be placed; a child launch of a deterministic region waits for its owner (R298, R305). -/
def State.hasNext (s : State) (l : Launch) : Bool :=
  decide (l.next < l.grid) && match l.owner with
    | some o => !(s.rcbOf o).det || s.ownerSynced o
    | none => true

/-- The task that its core's ready queue gives next. -/
def State.queueHead (s : State) (core : Nat) : Option Nat :=
  let q := s.blocks.filterMap fun b => match b.task with
    | some t => if b.st = .pending ∧ t.ready ∧ t.core = core then some (t.rq, b.uid) else none
    | none => none
  (argMin (·.1) q).map (·.2)

/-- A saved block that may come back: not held, and with a fibre that waits for no timeline (R307, R335). -/
def State.wakes (s : State) (b : Block) : Bool :=
  let fs := s.blockFibs b.uid
  !b.held && (fs.isEmpty || fs.any fun fk => match s.fib fk with
    | some f => match f.stat with
      | .timeline _ _ _ _ => false
      | _ => true
    | none => true)

/-- A listed block whose turn it is: a saved one that may come back, or the task at the head of its core's ready queue. -/
def State.comesUp (s : State) (b : Block) : Bool :=
  match b.st, b.task with
  | .saved, _ => s.wakes b
  | .pending, some t => s.queueHead t.core == some b.uid
  | _, _ => false

/-- The blocks that wait to be placed, of launches of a priority above `p` (R288). -/
def State.waiting (s : State) (p : Nat) : List (Block × Launch) :=
  ((s.launches.filter fun l => decide (p < l.rcb.prio) && s.hasNext l).map fun l => (s.nextBlock l, l)) ++
    s.blocks.filterMap fun b => match s.launch? b.lid with
      | some l => if p < l.rcb.prio ∧ s.comesUp b then some (b, l) else none
      | none => none

/-- A waiting block fits on some cores. -/
def State.fits (s : State) (x : Block × Launch) : Bool := (span 0 Config.cores).any fun c => s.placeOk x.1 x.2 c

/-- A waiting block fits nowhere, though its budgets would allow it somewhere: pre-emption makes room for it. -/
def State.wants (s : State) (x : Block × Launch) : Bool := !(s.fits x) && (span 0 Config.cores).any fun c => s.siteOk x.1 x.2 c

/-- The slots of a region's save area that its saved blocks, and those that stop to be saved or are being restored, leave free hold a block's cluster
(R338). -/
def State.slotsFree (s : State) (b : Block) : Bool :=
  let inSlots := fun (x : Block) => x.lid == b.lid && x.uid != b.uid &&
    (x.st == .saved || (x.st == .placing && x.saved.isSome) || (x.st == .resident && x.mode == .saving))
  decide (((s.blocks.filter inSlots).map fun x => x.cores.length).sum + b.cores.length ≤ (s.rcbOf b.uid).cores)

/-- The resident block that pre-emption takes next: the lowest priority, then the most recently placed, with room in its save area. -/
def State.victim (s : State) : Option Block :=
  let c := s.blocks.filter fun b => b.st == .resident && b.mode != .saving && s.slotsFree b
  argMin (fun b => (s.rcbOf b.uid).prio) c.reverse

/-- A block of priority `p` waits for one of a higher priority that fits, or that a pre-emption makes room for (R288). -/
def State.outranked (s : State) (p : Nat) : Bool :=
  (s.waiting p).any fun x => s.fits x || (s.wants x && match s.victim with
    | some v => decide ((s.rcbOf v.uid).prio < x.2.rcb.prio)
    | none => false)

/-- Place the next block of a launch. -/
def State.placeNext (s : State) (l : Launch) (first : Nat) : State :=
  let b := s.nextBlock l
  if !(s.hasNext l && s.placeOk b l first) || s.outranked l.rcb.prio then s
  else
    let s := ({ s with seq := s.seq + 1 } : State).updLaunch l.lid fun l => { l with next := l.next + 1 }
    let s := s.seatAll b l first
    match l.owner with
    | some o => if (s.rcbOf o).det then s.inherit b.uid [o] [] else s
    | none => s

/-- The earlier siblings that write a task's read tiles (R298) are those it waited for. -/
def TaskRec.sibs (t : TaskRec) : List Nat := t.waits

/-- BLOCK_PLACE (R287 to R289): the next block of a launch is named by 2^48 plus the launch's key; other numbers name a saved block or a ready
task. -/
def execBlockPlace (uid first : Nat) (s : State) : Host.Outcome State Fault Refusal :=
  .next (if 2 ^ 48 ≤ uid then match s.launch? (uid - 2 ^ 48) with
      | some l => s.placeNext l first
      | none => s
    else match s.block? uid with
      | none => s
      | some b => match s.launch? b.lid with
        | none => s
        | some l =>
          if !(s.comesUp b && s.placeOk b l first) || s.outranked l.rcb.prio then s
          else match b.st, b.task with
            | .pending, some t => if l.rcb.det then (s.seatAll b l first).inherit uid [t.poster] t.sibs else s.seatAll b l first
            | _, _ => s.seatAll b l first)

/-! ### Start and restore -/

/-- A fibre that starts at a header, at a core clock. Until it has entered the header every register is live: no header has said which are not (R32). -/
def newFibre (pc clock : Nat) : Fibre :=
  { pc := pc, left := 65, preds := 0, stack := [], stat := .ready, ahead := [], posts := 0, last := clock, rcv := none, livev := 1536, lives := 96, chip := 0,
    spoil := 0, recon := [] }

/-- The block becomes resident: its limits count again, and a launch that has stopped stops it. -/
def State.settleIn (s : State) (bk : Nat) : State :=
  match s.block? bk with
  | none => s
  | some b =>
    let halt := b.fault.isSome || s.host.stopped || match s.launch? b.lid with
      | some l => l.halt
      | none => false
    let now := s.clockOf bk
    let run := fun (f : Frame) => if f.left = 0 then f else { f with dead := some (now + f.left), left := 0 }
    (s.updBlock bk fun b => { b with
      st := .resident, since := now, saved := none
      frames := match b.mode, b.frames with
        | .voting, f :: fs => f :: fs.map run
        | _, fs => fs.map run
      mode := if halt then .freezing else b.mode, stopAt := now }).settle bk

/-- Fibres start at the entry (R259, R292): the constant table in every group, and for a task its child index and its argument. -/
def State.startBlock (s : State) (b : Block) (l : Launch) : State :=
  let pc := match b.task with
    | some t => bits t.desc.toNat 0 64
    | none => (l.image + l.entry) % 2 ^ 64
  let s := (span 0 b.ngrp).foldl (fun s g =>
    let rs := (l.consts.zip (span 0 l.consts.length)).foldl (fun (rs : RegSt) x => rs.putU (ukOf b.uid g x.2) x.1 false) s.rs
    let rs := match b.task with
      | some t => (rs.putU (ukOf b.uid g 94) t.child false).putU (ukOf b.uid g 95) (bits t.desc.toNat 64 64) false
      | none => rs
    { s with rs := rs }) s
  let s := ((span 0 b.ngrp).flatMap fun g => (span 0 64).map (fkOf b.uid g)).foldl (fun s fk => s.putFib fk (newFibre pc (s.clockOf b.uid))) s
  s.settleIn b.uid

/-- A fibre parked in `allot` asks again; a fibre still registered at a timeline executes its instruction again (R341). -/
def State.reask (s : State) (fk : Nat) : State :=
  match s.fib fk with
  | some f => match f.stat with
    | .allot m _ => { s.setStat fk (.allot m s.seq) with seq := s.seq + 1 }
    | .timeline _ _ _ _ => s.setStat fk .ready
    | _ => s
  | none => s

/-- Reinsert a restored block's side-log entries (R74, R342): those whose page is mapped by now are replayed in sequence, the others ask for their page. -/
def State.reinsert (s : State) (bk : Nat) : State :=
  (s.sideLanes fun o _ => o.bk == bk).foldl (fun s y => match s.laneAt y.1.id y.2.1 with
    | some (o, x) =>
      let c := s.ctxOf bk
      let va := s.pagePtr o x % 2 ^ 56
      if !x.st.isSide then s
      else match s.walk c va with
        | .leaf _ _ size _ _ _ => s.replayRange c (va / size * size) size
        | _ => s.replayAt y.1.id y.2.1
    | none => s) s

/-- Put a saved block's state on its new cores (R342): engines, Lid slots, side-log entries, and the recorded fills as commands. -/
def State.bringBack (s : State) (b : Block) (v : Saved) : State :=
  let core := fun (m : Nat) => b.cores.getD m 0
  let s := v.banks.foldl (fun (s : State) x => { s with eng := { s.eng with banks := sset none s.eng.banks (core x.1 * 2 + x.2.1) (some x.2.2) } }) s
  let s := v.jas.foldl (fun (s : State) x => { s with eng := { s.eng with jas := sset none s.eng.jas (core x.1) (some x.2) } }) s
  let s := v.lid.foldl (fun (s : State) x => { s with eng := { s.eng with
      lid := spaste (sdrop s.eng.lid (lidKey (core x.1) (x.2.1 * 2 ^ 17)) (2 ^ 17)) (lidKey (core x.1) (x.2.1 * 2 ^ 17)) x.2.2 } }) s
  let s : State := { s with ops := s.ops.map fun o => if o.bk = b.uid then { o with core := core (o.core - Config.cores) } else o }
  let s := s.reinsert b.uid
  let s := (s.blockFibs b.uid).foldl State.reask s
  (s.takeFills b.uid).updBlock b.uid fun b => { b with saved := some { v with back := true, fills := [] } }

/-- The end of a restore: cancelled and suspended commands take their places in the queues again, permits are granted again, and a release held for a
member takes effect (R325). -/
def State.endRestore (s : State) (b : Block) (v : Saved) : State :=
  let core := fun (m : Nat) => b.cores.getD m 0
  let s : State := { s with cmds := s.cmds ++ (sortBy Cmd.id v.cmds).map fun c => { c with core := core c.core } }
  let s := v.permits.foldl (fun s p => s.setPermit (core p.1) (p.2.1 / 32) (p.2.1 % 32) (some (b.uid, p.2.2))) s
  let s := (s.blockFibs b.uid).foldl (fun s fk => s.updFib fk fun f => { f with last := s.clockAt (s.group b.uid (fkG fk)).core }) s
  let s := s.settleIn b.uid
  match s.block? b.uid with
  | some b => if b.mode = .voting then s.takeHeld b.uid else s
  | none => s

/-- PLACEMENT_DONE (R288, R289, R342). -/
def execPlacementDone (uid : Nat) (s : State) : Host.Outcome State Fault Refusal :=
  .next (match s.block? uid with
    | none => s
    | some b =>
      if b.st ≠ .placing then s
      else match b.saved with
        | none => match s.launch? b.lid with
          | some l => s.startBlock b l
          | none => s
        | some v =>
          let s := if v.back then s else s.bringBack b v
          match s.block? uid with
          | some b =>
            if s.cmds.any fun c => c.fill == some uid && c.stat != .done then s
            else s.endRestore b (b.saved.getD v)
          | none => s)

end Sys2Proof.Machine
end

