-- ==== Sys2Proof/Machine/Save.lean ====
section
/-!
DEFINITION. Stopping a block and saving it (R288, R307, R334, R338 to R341): PREEMPT, AWAIT_SAVE and CP_CANCEL.
-/
namespace Sys2Proof.Machine

/-! ### Stopping (R334 steps 1 to 3) -/

/-- Ladle commands of a block under way: operations under CP. -/
def State.cpOf (s : State) (bk : Nat) : List Cmd :=
  s.cmds.filter fun c => c.bk == bk && c.stat != .done && c.fill.isNone && (c.kind.ladle || c.kind == .lpermit)

/-- The Griddle commands of a block on a core, in order. -/
def State.griddleOf (s : State) (bk core : Nat) : List Cmd :=
  s.cmds.filter fun c => c.bk == bk && c.core == core && c.kind.griddle && c.stat != .done

/-- The block's engines are still: nothing is left but a `gmma`, which a save suspends, and what stands behind it. -/
def State.enginesStill (s : State) (b : Block) : Bool :=
  (s.cpOf b.uid).isEmpty && (s.cmds.all fun c => c.bk != b.uid || c.stat == .done || !c.kind.jasper) &&
    b.cores.all fun core => match s.griddleOf b.uid core with
      | [] => true
      | c :: _ => c.kind == .gmma && (c.stat == .queued || c.inChunks)

/-- A lane that a save leaves as it is: done, parked, in the side log, to be committed, or a store still on its way to memory. -/
def State.stillLane (s : State) (o : Op) (x : Lane) : Bool :=
  x.st.isDone || s.parkedLane o x || x.st.isSide || x.st == .commit ||
    (x.st == .pending && (o.cls == .st || o.cls == .none) && !x.tgt.isWin)

/-- Outstanding LD and TL operations are complete (R334 step 2). -/
def State.still (s : State) (b : Block) : Bool :=
  s.enginesStill b && s.ops.all fun o => o.bk != b.uid || o.kind == .eng || o.lanes.all (s.stillLane o)

/-! ### The save (R338, R341) -/

/-- A fibre's status in its save slot: parked fibres execute their instruction again, but for those that hold a ticket, and in `await` for
those whose threshold is not met (R341, R307). -/
def State.saveFib (s : State) (await : Bool) (fk : Nat) : State :=
  match s.fib fk with
  | none => s
  | some f => match f.stat with
    | .page _ => s.setStat fk .ready
    | .sideFull => s.setStat fk .ready
    | .lane => if (s.lanesIn fun _ x => x.st == .ticket && x.fibres.contains fk).isEmpty then s.setStat fk .ready else s
    | .timeline _ _ _ _ => if await then s else s.setStat fk .ready
    | _ => s

/-- Registers above the live counts of the group's fibres are not preserved (R32); a group without a live fibre keeps its registers. -/
def State.loseDead (s : State) (bk g : Nat) : State :=
  let fs := (s.groupFibs bk g).filterMap s.fib
  if fs.isEmpty then s
  else
    let v := fs.foldl (fun m f => max m f.livev) 0
    let u := fs.foldl (fun m f => max m f.lives) 0
    let s := s.scramble ((span v (s.allot bk g - v)).flatMap fun r => (span 0 64).map fun l => (rkOf bk g r, l))
    (span u (96 - u)).foldl (fun (s : State) n =>
      { s with rs := s.rs.putU (ukOf bk g n) (Config.openDetail s.free).toNat false, free := s.free + 1 }) s

/-- What the block's cores hold for it. -/
def State.collectSaved (s : State) (b : Block) : Saved :=
  let ms := b.cores.zip (span 0 b.cores.length)
  let kept := s.cmds.filterMap fun c => if c.bk = b.uid ∧ c.kind.griddle ∧ c.stat ≠ .done then some { c with core := b.cores.idxOf c.core } else none
  let old := b.saved.getD Saved.none_
  { back := false
    banks := ms.flatMap fun p => (span 0 2).map fun j => (p.2, j, (sget none s.eng.banks (p.1 * 2 + j)).getD Bank.reset)
    jas := ms.filterMap fun p => if sget 0 s.eng.jasHold p.1 = b.uid + 1 then some (p.2, (sget none s.eng.jas p.1).getD Jas.reset) else none
    lid := ms.flatMap fun p => (span 0 16).filterMap fun k =>
      if s.slotHolder p.1 k = b.uid + 1 then some (p.2, k, scut s.eng.lid (lidKey p.1 (k * 2 ^ 17)) (2 ^ 17)) else none
    permits := ms.flatMap fun p => (span 0 1024).filterMap fun k => match s.permit p.1 (k / 32) (k % 32) with
      | some (gb, g) => if gb = b.uid then some (p.2, k, g) else none
      | none => none
    cmds := old.cmds ++ kept
    fills := old.fills }

/-- The cores forget the block: its slots, its array, its permits and its commands. -/
def State.clearCores (s : State) (b : Block) : State :=
  let hold := b.uid + 1
  { s with
    cmds := s.cmds.filter fun c => !(c.bk == b.uid && c.kind.griddle && c.stat != .done)
    eng := { s.eng with
      lidHold := s.eng.lidHold.filter fun p => p.2 != hold
      jas := skeep (fun c => sget 0 s.eng.jasHold c != hold) s.eng.jas
      jasHold := s.eng.jasHold.filter fun p => p.2 != hold
      permits := s.eng.permits.filter fun p => match p.2 with
        | some (gb, _) => gb != b.uid
        | none => false } }

/-- Limits pause: what is left of each stays with its frame (R325). -/
def Frame.pause (clock : Nat) (f : Frame) : Frame :=
  match f.dead with
  | some t => { f with dead := none, left := max 1 (t - clock) }
  | none => f

/-- Write the block's state to its slots: it is Saved. -/
def State.save (s : State) (b : Block) (await held : Bool) : State :=
  let v := s.collectSaved b
  let now := s.clockOf b.uid
  let s := s.discardLanes b.uid false
  let s := (s.blockFibs b.uid).foldl (fun s fk => s.saveFib await fk) s
  let s := s.clearCores b
  let s := (span 0 b.ngrp).foldl (fun s g => s.loseDead b.uid g) s
  let s : State := { s with ops := s.ops.map fun o => if o.bk = b.uid then { o with core := Config.cores + b.cores.idxOf o.core } else o }
  s.updBlock b.uid fun x => { x with
    st := .saved, saved := some v, held := held, cyc := x.cyc + (now - x.since), frames := x.frames.map (Frame.pause now)
    mode := if x.mode == .voting then .voting else .run }

/-! ### The events -/

/-- PREEMPT (R288, R338): while a block of higher priority fits nowhere, the next victim stops; once it is still, it is saved. -/
def execPreempt (uid : Nat) (s : State) : Host.Outcome State Fault Refusal :=
  .next (match s.block? uid with
    | none => s
    | some b =>
      if b.st ≠ .resident then s
      else if b.mode = .saving then (if s.still b && s.slotsFree b then s.save b false false else s)
      else if !(b.mode == .run || b.mode == .voting) || (s.victim.map Block.uid) != some uid || !((s.waiting (s.rcbOf uid).prio).any s.wants) then s
      else if b.mode = .voting ∧ s.still b then s.save b false false
      else if b.mode = .voting then s
      else s.updBlock uid fun b => { b with mode := .saving, stopAt := s.clockOf uid })

/-- AWAIT_SAVE (R307): a block whose live fibres are all parked in `await`, with nothing under CP. -/
def execAwaitSave (uid : Nat) (s : State) : Host.Outcome State Fault Refusal :=
  .next (match s.block? uid with
    | none => s
    | some b =>
      let fs := s.blockFibs uid
      let parked := !fs.isEmpty && fs.all fun fk => match s.fib fk with
        | some f => match f.stat with
          | .timeline _ _ _ aw => aw
          | _ => false
        | none => false
      if b.running && parked && s.still b && s.slotsFree b then s.save b true false else s)

/-- A Ladle command cancelled for a save: recorded, to be issued again whole (R339). -/
def Cmd.again (m : Nat) (c : Cmd) : Cmd := { c with core := m, stat := .queued, parts := [], prog := [], skip := [], wct := 0, page := none }

/-- Record the commands a save cancels. -/
def State.recordCp (s : State) (b : Block) : State :=
  let l := (s.cpOf b.uid).map fun c => c.again (b.cores.idxOf c.core)
  let s := s.updBlock b.uid fun x => { x with saved := some { x.saved.getD Saved.none_ with cmds := (x.saved.getD Saved.none_).cmds ++ l } }
  { s with cmds := s.cmds.filter fun c => !(c.bk == b.uid && c.fill.isNone && (c.kind.ladle || c.kind == .lpermit)) }

/-- The fault policy keeps the block for the host: under `hold` it is saved, not retired (R335). -/
def State.toHold (s : State) (b : Block) : Bool :=
  b.fault.isSome && match s.launch? b.lid with
    | some l => l.status == 0 && !l.halt && bits l.rcb.fdom 6 2 == 2
    | none => false

/-- CP_CANCEL (R318, R334, R339): 2,048 clocks after a block stopped, its outstanding Ladle commands are cancelled; they count as complete,
or are recorded when the block is being saved. -/
def execCpCancel (uid : Nat) (s : State) : Host.Outcome State Fault Refusal :=
  .next (match s.block? uid with
    | none => s
    | some b =>
      if b.st ≠ .resident ∨ s.clockOf uid < b.stopAt + 2048 then s
      else match b.mode with
        | .saving => s.recordCp b
        | .freezing => if s.toHold b then s.recordCp b else (s.cpOf uid).foldl (fun s c => s.finishCmd c.id) s
        | .failing | .replaying => (s.cpOf uid).foldl (fun s c => s.finishCmd c.id) s
        | _ => s)

end Sys2Proof.Machine
end

