-- ==== Sys2Proof/Machine/Silent.lean ====
section
/-!
DEFINITION. Uncorrectable errors that a block meets in its own storage (R200, R233, R318, R321, R342, R395): SILENT_ERROR.
-/
namespace Sys2Proof.Machine

/-- Addresses that a record of a source of errors can hold (R395): a word of a physical register, of a Lid slot or of the array, a cell of a bank, a line of
DRAM. -/
def silentAddr (src addr : Nat) : Bool :=
  match src with
  | 1 => decide (addr < 256 * 16384) && addr % 8 == 0
  | 2 => decide (addr < 2 ^ 15)
  | 3 => decide (addr < 2 ^ 21) && addr % 8 == 0
  | 4 => decide (0x10000 ≤ addr) && decide (addr < 0x10000 + 1024 * 256) && addr % 8 == 0
  | 10 | 11 => decide (addr < Config.dramTop) && addr % 128 == 0
  | _ => false

/-- The instruction that met an error of the array or of a register: the command of the core's array that is being applied, else where the block's first
fibre stands. -/
def State.metBy (s : State) (uid core src : Nat) : Who :=
  match s.cmds.find? fun c => c.bk == uid && c.core == core && c.stat == .running && c.kind.jasper && src == 4 with
  | some c => { pc := c.pc, fk := c.fk }
  | none => { pc := match s.fib (s.firstFib uid) with | some f => f.pc | none => 0, fk := s.firstFib uid }

/-- The running `gmma` of a block on a core whose B lies in the slot of a Lid address. -/
def State.lidReader (s : State) (uid core addr : Nat) : Option Cmd :=
  s.cmds.find? fun c => c.bk == uid && c.core == core && c.inChunks && (gSlots c.desc.toNat).contains (addr / 2 ^ 17)

/-- The block freezes with SE: what it was to be restored from cannot be read (R318, R342). -/
def State.lostRecord (s : State) (uid : Nat) (w : Who) : State :=
  let n := s.named { code := FClass.se.code, pc := w.pc, det := openDet, grp := fkG w.fk, lane := fkL w.fk }
  n.2.startFreeze uid n.1

/-- A save slot cannot be read: the block that is being restored freezes with SE once it is resident (R342). -/
def State.lostSlot (s : State) (b : Block) (w : Who) : State :=
  let n := s.named { code := FClass.se.code, pc := w.pc, det := openDet, grp := fkG w.fk, lane := fkL w.fk }
  (n.2.updBlock b.uid fun b => if b.fault.isNone then { b with fault := some n.1 } else b).updLaunch b.lid (Launch.recordFault n.1 b)

/-- SILENT_ERROR (R200, R233, R318, R321, R342): an uncorrectable error in a block's registers (SRC 1), its array (SRC 4) or a Lid slot that a running `gmma`
reads (SRC 3) is logged in the core's bank and replays the block; that `gmma` sends its ring signal first and ends, as after an uncorrectable comparison
(R196, R199). Met in a recovery record under restore it freezes the block with SE: SRC 1, or SRC 6 at a codeword of the reserve, which the event names by its
physical address and its stack's controller logs. So does SRC 0x0B in a save slot under restore. -/
def execSilentError (uid : Nat) (src : ErrSite) (addr synd : Nat) (s : State) : Host.Outcome State Fault Refusal :=
  .next (match s.block? uid with
    | none => s
    | some b =>
      let w := s.metBy uid src.core src.code
      let logged := s.logError src.core 3 src.code (some (s.ctxOf uid)) addr synd
      let restoring := b.st == .resident && (b.mode == .failing || b.mode == .replaying) && !b.frames.isEmpty
      let rcb := s.rcbOf uid
      if !(b.cores.contains src.core) then s
      else match src.code with
        | 1 => if !(silentAddr 1 addr) then s else if restoring then logged.lostRecord uid w else logged.silent uid w.pc w.fk
        | 3 => match if silentAddr 3 addr then s.lidReader uid src.core addr else none with
          | some c => ((logged.gSignal c c.desc.toNat (c.chunks + 1)).silent uid c.pc c.fk).engDone c c.b
          | none => s
        | 4 => if silentAddr 4 addr then logged.silent uid w.pc w.fk else s
        | 6 =>
          if restoring && decide (rcb.rres ≤ addr) && decide (addr < rcb.rres + rcb.rrsize) && addr % 32 == 0 then
            (s.logError (384 + stackOf addr) 3 6 (some (s.ctxOf uid)) (soffOf addr) synd).lostRecord uid w
          else s
        | 11 => if b.st == .placing && b.saved.isSome && silentAddr 11 addr then logged.lostSlot b w else s
        | _ => s)

end Sys2Proof.Machine
end

