-- ==== Sys2Proof/Machine/Stop.lean ====
section
/-!
DEFINITION. How blocks fail, freeze, time out and retire: FRAME_FAIL (R318, R320 to R322), BLOCK_FREEZE (R334, R335), the reports of R333,
the limits of R274, R286 and R313, BLOCK_RETIRE (R256, R260, R297), and the host's resume and cancel (R374).
-/
namespace Sys2Proof.Machine

/-! ### FRAME_FAIL -/

/-- Groups of a block replayed from its entry hold their first allotment again; none while the chunks are not free. -/
def State.resizeAll (s : State) (b : Block) (l : Launch) : List Nat → Option State
  | [] => some s
  | g :: gs =>
    let gr := s.group b.uid g
    let n := ({ b with saved := none } : Block).chunksOf l g
    let more := n - gr.chunks.length
    if s.freeCount gr.core < more then none
    else
      let new := gr.chunks.take n ++ s.pickChunks gr.core more
      (s.updGroup b.uid g fun gr => { gr with chunks := new, held := [], gsw := 0, gen := 0, recs := [] }).resizeAll b l gs

/-- Drop every register and fibre of a block. -/
def State.dropRegs (s : State) (uid : Nat) : State :=
  let n := 128 * 1536
  { s with rs := { s.rs with
      vregs := sdrop s.rs.vregs (rkOf uid 0 0) n, vpoison := sdrop s.rs.vpoison (rkOf uid 0 0) n, fe := sdrop s.rs.fe (rkOf uid 0 0) n
      uregs := sdrop s.rs.uregs (ukOf uid 0 0) (128 * 96), upoison := sdrop s.rs.upoison (ukOf uid 0 0) (128 * 96)
      fibres := sdrop s.rs.fibres (fkOf uid 0 0) 8192 } }

/-- Replay a block from its entry (R322): its launch state again. -/
def State.relaunch (s : State) (b : Block) (l : Launch) : State :=
  match s.resizeAll b l (span 0 b.ngrp) with
  | none => s
  | some s =>
    let s := s.dropRegs b.uid
    let jas := if l.jasper then b.cores.foldl (fun m c => sset none m c none) s.eng.jas else s.eng.jas
    let s : State := { s with
      eng := { s.eng with jas := jas }
      mem := { s.mem with stages := s.mem.stages.filter fun x => !(x.bk == b.uid && !x.inh) } }
    let s := s.updBlock b.uid fun b => { b with mode := .run, clFirst := [], cyc := b.cyc + (s.clockOf b.uid - b.since) }
    match s.block? b.uid with
    | some b => s.startBlock b l
    | none => s

/-- FRAME_FAIL (R318 steps 1 to 6, R320, R322): what is parked is discarded; once every operation is complete, staging is dropped, records and
logs are restored, and the frame goes on. -/
def execFrameFail (uid : Nat) (s : State) : Host.Outcome State Fault Refusal :=
  .next (match s.block? uid with
    | none => s
    | some b =>
      if b.st ≠ .resident ∨ !(b.mode == .failing || b.mode == .replaying) then s
      else
        let s := s.discardParked uid
        if !(s.drained uid) then s
        else if b.failDepth = 0 then match s.launch? b.lid with
          | some l => s.relaunch b l
          | none => s
        else
          let n := b.frames.length - b.failDepth
          let s := (s.restoreTo uid b.failDepth).restoreLog uid ((b.frames.take (n + 1)).flatMap Frame.rlog)
          if b.mode = .failing then s.afterRestore uid
          else match b.frames[n]? with
            | some f => s.startRoutine uid f.k true
            | none => s)

/-! ### Stopping a launch -/

/-- An operation is over, what of it is side-logged included. -/
def Op.over (o : Op) : Op := { o with fin := true, lanes := o.lanes.map fun x => { x with st := .done } }

def TaskRec.finish (t : TaskRec) : TaskRec := { t with done := true }

/-- Stop one block of a launch that ends early: a resident one stops to freeze, a saved one leaves its slots, its operations are discarded and its tickets
voided (R256), a task that has not started is not placed. -/
def State.stopBlock (s : State) (b : Block) : State :=
  match b.st with
  | .resident => (s.dropRecorded b).updBlock b.uid fun b => { b with mode := .freezing, stopAt := s.clockOf b.uid, saved := none }
  | .saved =>
    let s : State := { s with ops := s.ops.map fun o => if o.bk = b.uid then o.over else o }
    (s.updBlock b.uid fun b => { b with st := .frozen, saved := none, held := false }).voidBlock b.uid
  | .pending => s.updBlock b.uid fun b => { b with st := .retired, task := b.task.map TaskRec.finish }
  | _ => s

/-- Every block of a launch stops and no other is placed (R335, R345, R374). -/
def State.stopLaunch (s : State) (lid status : Nat) : State :=
  let s := s.updLaunch lid fun l => { l with halt := true, status := if l.status = 0 then status else l.status }
  (s.blocks.filter fun b => b.lid == lid).foldl State.stopBlock s

/-! ### BLOCK_FREEZE (R334, R335) -/

/-- Running `gmma`s of a block are suspended (R202). -/
def State.suspendAll (s : State) (uid : Nat) : State :=
  (s.cmds.filter fun c => c.bk == uid && c.inChunks).foldl State.gSuspend s

/-- Report a frozen block's fault to its region's event queue. -/
def State.reportFreeze (s : State) (b : Block) (r : FaultRec) : State :=
  (s.postEvent (s.ctxOf b.uid) (bits (s.rcbOf b.uid).fdom 0 3)
    (eventEntry 1 r.code r.lane r.grp b.idx (b.lid % 2 ^ 64) r.pc r.det)).2

/-- The policy of the fault domain for a block that has stopped. -/
def State.policy (s : State) (b : Block) (l : Launch) : State :=
  let frozen := fun (s : State) => s.updBlock b.uid fun b => { b with st := .frozen }
  match b.fault with
  | none => frozen s
  | some r =>
    let held := s.toHold b
    let s := s.reportFreeze b r
    if held then s.save b false true
    else if l.status = 0 ∧ bits l.rcb.fdom 6 2 = 0 then (frozen s).stopLaunch l.lid 0
    else frozen s

/-- Nothing of the block is on its way to memory, and its operations are complete or parked: it can be kept (R256, R334, R335). -/
def State.settled (s : State) (b : Block) : Bool :=
  s.still b && s.ops.all fun o => o.bk != b.uid || o.kind == .eng || o.lanes.all fun x => x.st.isDone || s.parkedLane o x || x.st.isSide

/-- A side-logged store of the block is left, which its restore performs (R338, R342). -/
def State.owesStores (s : State) (uid : Nat) : Bool := s.ops.any fun o => o.bk == uid && o.lanes.any fun x => x.st.isSide

/-- BLOCK_FREEZE: a block that the host may resume is kept as pre-emption keeps one, with its running `gmma`, its cancelled commands and its parked
accesses (R338); of another the running `gmma`s are suspended and what is parked is discarded. Once its operations are done its tickets are voided (R256)
and the policy acts. DESIGN CHOICE: a kept block that has side-logged stores left keeps its tickets, since R256 voids them only after its stores
(notes/assumptions/65.md). -/
def execBlockFreeze (uid : Nat) (s : State) : Host.Outcome State Fault Refusal :=
  .next (match s.block? uid with
    | none => s
    | some b =>
      if b.st ≠ .resident ∨ b.mode ≠ .freezing then s
      else
        let keep := s.toHold b
        let s := if keep then s else (s.suspendAll uid).discardParked uid
        if !(if keep then s.settled b else s.drained uid) then s
        else
          let s := if keep then s.discardLanes uid false else s
          let s := if keep && s.owesStores uid then s else s.voidBlock uid
          match s.block? uid, s.launch? b.lid with
          | some b, some l => s.policy { b with mode := .run } l
          | _, _ => s)

/-! ### Reports after issue (R333) -/

/-- FAULT_REPORT_AFTER_ISSUE: a report takes effect at a bundle boundary: the frame it belongs to fails while that frame is open, else the block freezes
(R74, R97). Of several, the oldest of the lowest core does (R332). -/
def execFaultReportAfterIssue (uid : Nat) (s : State) : Host.Outcome State Fault Refusal :=
  .next (match s.block? uid with
    | none => s
    | some b =>
      if b.st ≠ .resident ∨ !(b.mode == .run || b.mode == .voting) ∨ s.entering uid then s
      else match argMin (fun x => (s.group uid x.1.grp).core) b.reports with
        | none => s
        | some (r, key) =>
          match b.openAt r.grp key with
          | some d => s.failFrame uid d r
          | none => s.startFreeze uid r)

/-! ### Limits -/

/-- PC and position of the live fibre of lowest group and lane, as a record of a failure that no fibre raised (R349). -/
def State.ownerless (s : State) (uid code det : Nat) : FaultRec :=
  let fk := s.firstFib uid
  { code := code, pc := match s.fib fk with | some f => f.pc | none => 0, det := det, grp := fkG fk, lane := fkL fk }

/-- CYCLE_LIMIT_EXPIRY (R313): of the limits that have expired the outermost frame's fails it with CL. -/
def execCycleLimitExpiry (uid : Nat) (s : State) : Host.Outcome State Fault Refusal :=
  .next (match s.block? uid with
    | none => s
    | some b =>
      let n := b.frames.length
      let late := (span 0 n).filter fun i => match b.frames[i]? with
        | some f => match f.dead with
          | some t => decide (t ≤ s.clockOf uid)
          | none => false
        | none => false
      match late.getLast? with
      | none => s
      | some i =>
        let d := n - i
        let f := (b.frames[i]?).map Frame.lim
        if b.st ≠ .resident then s
        else if b.mode == .run || b.mode == .voting || ((b.mode == .failing || b.mode == .replaying) && decide (d < b.failDepth)) then
          s.failFrame uid d (s.ownerless uid FClass.cl.code (f.getD 0))
        else s)

/-- CYCBUD_EXPIRY (R286): the block has been resident for its budget and takes CL once. -/
def execCycbudExpiry (uid : Nat) (s : State) : Host.Outcome State Fault Refusal :=
  .next (match s.block? uid with
    | none => s
    | some b =>
      let bud := (s.rcbOf uid).cycbud
      if b.st ≠ .resident ∨ !(b.mode == .run || b.mode == .voting) ∨ bud = 0 ∨ b.clDone ∨ b.cyc + (s.clockOf uid - b.since) < bud ∨ s.entering uid then s
      else (s.updBlock uid fun b => { b with clDone := true }).takeFault uid (s.ownerless uid FClass.cl.code openDet))

/-- BARRIER_TIMEOUT (R274): the first generation that a fibre leaves open and whose timeout has passed raises BT for every fibre that has arrived. -/
def execBarrierTimeout (uid : Nat) (s : State) : Host.Outcome State Fault Refusal :=
  .next (match s.block? uid with
    | none => s
    | some b =>
      if !b.running then s
      else match b.clFirst.find? fun p => decide ((s.arrived uid p.1).length < (s.genFibs uid p.1).length) && (match p.2 with
          | some t => t != 0 && decide (t ≤ s.tick)
          | none => false) with
        | none => s
        | some (key, _) =>
          let fs := s.arrived uid key
          let det := (s.genFibs uid key).length * 2 ^ 32 + fs.length
          fs.foldl (fun s fk => s.takeFault uid
            { code := FClass.bt.code, pc := match s.fib fk with | some f => f.pc | none => 0, det := det, grp := fkG fk, lane := fkL fk })
            (s.closeGen uid key))

/-! ### BLOCK_RETIRE -/

/-- The block of the rank before has retired (R297). -/
def State.turnToRetire (s : State) (b : Block) (l : Launch) : Bool :=
  !l.rcb.det || b.task.isSome || match l.rankOf b.idx with
    | 0 => true
    | k + 1 => s.blocks.any fun x => x.lid == b.lid && x.task.isNone && x.idx == l.blockAt k && x.st == .retired

/-- Resources go back: Lid slots, arrays, registers (R289). -/
def State.retire (s : State) (b : Block) : State :=
  let hold := b.uid + 1
  let s := { s.dropRegs b.uid with eng := { s.eng with
      lidHold := s.eng.lidHold.filter fun p => p.2 != hold, jasHold := s.eng.jasHold.filter fun p => p.2 != hold } }
  s.updBlock b.uid fun b => { b with st := .retired, mode := .run, reports := [] }

/-- A task's end acts as a `dsync` of its own (R292, R298): its children are complete and folded, or its accesses are done. -/
def State.endSync (s : State) (b : Block) (l : Launch) : Option (Bool × State) :=
  if !(l.rcb.det || b.task.isSome) then some (true, s)
  else if !(b.kids.all s.kidDone) then none
  else if l.rcb.det then match s.fold b.uid with
    | some s => some (true, s)
    | none => some (false, s)
  else if (span 0 b.ngrp).all fun g => s.fenceReady b.uid g s.seq then some (true, s) else none

/-- BLOCK_RETIRE (R260, R297): a block without live fibres, its counters zero and its reports taken; a frozen block. -/
def execBlockRetire (uid : Nat) (s : State) : Host.Outcome State Fault Refusal :=
  .next (match s.block? uid with
    | none => s
    | some b => match s.launch? b.lid with
      | none => s
      | some l =>
        if !(s.turnToRetire b l) then s
        else if b.st = .frozen then s.retire b
        else if b.running && (s.blockFibs uid).isEmpty && s.drained uid && b.reports.isEmpty then match s.endSync b l with
          | none => s
          | some (true, s) => (s.voidBlock uid).retire b
          | some (false, s) =>
            let dr := s.draw
            let d2 := dr.2.draw
            d2.2.raiseFault uid { code := FClass.cf.code, pc := (Config.openDetail dr.1).toNat, det := (Config.openDetail d2.1).toNat,
                                  grp := 0, lane := 0 }
        else s)

/-! ### resume and cancel (R335, R374) -/

/-- RESUME: the held block may be placed again; its fault is no longer the launch's. -/
def execResume (ctx : Nat) (s : State) : Host.Outcome State Fault Refusal :=
  .next (s.command ctx (· == 3) fun s d _ =>
    let key := launchKey ctx (bits d 0 64)
    match s.blocks.find? fun b => b.lid == key && b.idx == bits d 64 64 && b.st == .saved && b.held with
    | none => .refuse none s
    | some b =>
      if cmdResv d then .refuse none s
      else .done ((s.updBlock b.uid fun b => { b with held := false, fault := none }).updLaunch key fun l =>
        if l.fault = b.fault ∧ l.fblock = b.idx then { l with fault := none, fblock := 0 } else l))

/-- CANCEL. -/
def execCancel (ctx : Nat) (s : State) : Host.Outcome State Fault Refusal :=
  .next (s.command ctx (· == 4) fun s d _ =>
    let key := launchKey ctx (bits d 0 64)
    if cmdResv d || (s.launch? key).isNone || decide (2 ^ 64 ≤ bits d 0 64) then .refuse none s
    else .done (s.stopLaunch key 3))

end Sys2Proof.Machine
end

