-- ==== Sys2Proof/Machine/Board.lean ====
section
/-!
DEFINITION. The rest of the module: what storage does of itself (R57, R60, R62, R83, R395), row alerts (R64), links (R375), Onyx (R345, R346, R377), bring-up and
reset (R346, R378 to R380), and thermal throttling (R381).
-/
namespace Sys2Proof.Machine

/-! ### Storage (R60, R62) -/

/-- A dirty line that is uncorrectable at its eviction is logged as deferred by its slice. -/
def State.evict (s : State) (ln : Nat) (bad : Bool) : State :=
  let lost := bad && (match s.mem.tag ln with
    | some t => t.dirty && !t.zero
    | none => false)
  let s := if lost then s.logError (192 + homeOf (ln * 128)) 2 5 none (ln * 128) 0 else s
  { s with mem := s.mem.evict ln bad }

/-- A codeword of DRAM (R62): one that a read of a context corrects is logged; one that has gone bad waits for the read that finds it. A marked line, and
one whose directory bit is set, gives neither. -/
def State.eccHit (s : State) (ctx : Option Nat) (pa synd : Nat) (fixed : Bool) : State :=
  let ln := pa / 128
  if sget false s.mem.zdir ln || sget false s.mem.dpoison ln || decide (Config.dramTop ≤ pa) then s
  else if fixed then s.logError (384 + stackOf pa) 1 6 ctx (soffOf pa / 32 * 32) synd
  else { s with mem := { s.mem with dbad := sset 0 s.mem.dbad ln (synd * 4 + pa / 32 % 4 + 1) } }

/-- A line that a home slice holds has gone bad (R83): it is poisoned, and its slice logs the failing word. -/
def State.sliceHit (s : State) (ctx : Option Nat) (pa synd : Nat) : State :=
  match s.mem.tag (pa / 128) with
  | some t =>
    if t.zero then s
    else
      let s := s.logError (192 + homeOf pa) 3 5 ctx (pa / 8 * 8) synd
      { s with mem := { s.mem with htag := sset none s.mem.htag (pa / 128) (some { t with poison := true }) } }
  | none => s

/-- A line of a region has gone bad (R83, R84, R395). -/
def State.tlineHit (s : State) (ctx : Option Nat) (k off synd : Nat) : State :=
  match s.mem.tline k off, sget none s.mem.regions k with
  | some t, some r =>
    let s := s.logError (192 + (r.sfirst + off / 128 % r.scount)) 3 5 ctx (2 ^ 63 + (r.tbase + off) / 8 * 8) synd
    { s with mem := { s.mem with tlines := sset none s.mem.tlines (tlKey k off) (some { t with poison := true }) } }
  | _, _ => s

/-- Stack-local address of the directory byte of a line (R61). -/
def zdirByte (pa : Nat) : Nat := 0xF_FC00_0000 + soffOf pa / 128 / 8

/-- Records of corrected errors that a unit logs of itself (R395): which unit holds the storage of a source, and the addresses in it. -/
def correctedOk (unit src addr synd : Nat) : Bool :=
  decide (synd < 2 ^ 64) && match src with
  | 1 | 3 | 4 => decide (unit < 192) && silentAddr src addr
  | 5 => addr % 8 == 0 && decide (192 ≤ unit) && decide (unit < 384) &&
      ((decide (addr < Config.dramTop) && unit == 192 + homeOf addr) || (decide (2 ^ 63 ≤ addr) && decide (addr < 2 ^ 63 + 2 ^ 32)))
  | 6 => unit == 412 && decide (addr < Config.dramTop)
  | 7 => decide (384 ≤ unit) && decide (unit < 396) && decide (0xF_FC00_0000 ≤ addr) && decide (addr < 2 ^ 36)
  | 9 => unit == 413 && decide (addr < 414) && synd == 0
  | 10 | 11 => decide (unit < 192) && silentAddr src addr
  | 12 => unit == 412 && decide (addr < Config.berylSram) && addr % 8 == 0
  | _ => false

/-- A vote is lost in the fabric (R330): the hub logs it, with the slice that it was sent to, and it is applied as a failure vote. -/
def State.voteLost (s : State) (uid : Nat) : State :=
  match s.hub.votes.findIdx? fun v => v.1 == uid && v.2.2 != .ready with
  | none => s
  | some i =>
    let pa := ((s.hub.votes.getD i (0, 0, .fail)).2).1
    let s := s.logError 413 3 9 (some (s.ctxOf uid)) (192 + homeOf pa) 0
    { s with hub := { s.hub with votes := s.hub.votes.modify i fun v => (v.1, v.2.1, .fail) } }

/-- A line of a fibre's call-stack spill has gone bad (R266). -/
def State.spillHit (s : State) (fk line : Nat) : State :=
  if line < 4 then s.updFib fk fun f => { f with spoil := f.spoil ||| 2 ^ line } else s

/-! ### Records taken anew (R57, R366) -/

/-- The bytes of an engine command's record, and the checks that its instruction made of it. -/
def recordBytes (k : CmdKind) : Nat :=
  match k with
  | .gmma | .gdrain | .gzero | .gstat => 128
  | .lfetch | .lcast | .lput | .lcopy => 64
  | .gload | .lpermit | .cseed => 16
  | .ctab => 320
  | _ => 0
def State.recordCheck (s : State) (u : WUnit) (k : CmdKind) (d : Nat) : Option (FClass × Nat) :=
  match k with
  | .gmma => gmmaCheck s u d
  | .gdrain => gdrainCheck s u d
  | .gload => gloadCheck s u d
  | .lfetch | .lcast | .lput | .lcopy => s.ldCheck u k d
  | .lpermit => permitCheck d
  | _ => none

/-- A command with another record, and what it fixed at issue from it. -/
def State.withRecord (s : State) (c : Cmd) (u : WUnit) (d : Nat) : Cmd :=
  let c := { c with desc := BitVec.ofNat 1024 d }
  match c.kind with
  | .gmma | .gzero | .gstat => { c with sub := gBank d }
  | .gdrain => { c with sub := gBank d, dst := gdrainDst u d }
  | .gload => { c with sub := glSlot d }
  | .lpermit => c
  | _ => if c.fill.isSome then c else { c with dst := (if c.stat = .queued then [] else c.dst) ++ s.ldDst u c.kind c.core d }

/-- The command's operation is outstanding: its counter does not show it complete. -/
def State.outstanding (s : State) (c : Cmd) : Bool :=
  match s.op? c.op with
  | some o => !o.fin
  | none => false

/-- The record `d` of `n` bytes at a window address with the granules of a mask as they stand now; none where one lies outside the record or its
allotment. -/
def State.newRecord (s : State) (bk addr d n mask : Nat) : Option Nat :=
  ((span 0 32).filter (bit mask)).foldl (fun r i => match r with
    | none => none
    | some d =>
      let off := winOff addr + 16 * i
      if n ≤ 16 * i ∨ 256 * s.allot bk (winGrp addr) < off + 16 then none else some (setBits d (128 * i) 128 (s.wnum bk (winGrp addr) off 16))) (some d)

/-- The first marked word of the granules of a mask (R394). -/
def State.newPois (s : State) (bk addr mask : Nat) : Option Nat :=
  (((span 0 32).filter (bit mask)).findSome? fun i => s.wpoisAt bk (winGrp addr) (winOff addr + 16 * i) 16).map (winAddr (winGrp addr))

/-- What is wrong with a record that a command takes anew: a marked word among the new granules, or a field. -/
def State.newFault (s : State) (c : Cmd) (d mask : Nat) : Option (FClass × Nat) :=
  match s.newPois c.bk c.addr mask with
  | some p => some (.pz, p)
  | none => s.recordCheck { rep := c.fk, mem := [c.fk] } c.kind d

/-- A command takes the granules of a mask of its record as they stand now (R57): a Griddle or Jasper command that has not begun, a Ladle command at any
time. A record that then fails its check is reported, and the command ends. -/
def State.rereadCmd (s : State) (c : Cmd) (mask : Nat) : State :=
  let n := recordBytes c.kind
  if c.stat = .done ∨ !(s.outstanding c) ∨ n = 0 ∨ (c.stat ≠ .queued ∧ !c.kind.ladle) then s
  else if c.kind = .ctab ∨ c.kind = .cseed then
    let r := s.recWords c.bk c.addr 0 (n / 4)
    let put := fun (l new : List Word) => (l.zip (new.zip (span 0 (n / 4)))).map fun x => if bit mask (x.2.2 / 4) then x.2.1 else x.1
    if (s.newRecord c.bk c.addr 0 n mask).isNone then s else s.updCmd c.id fun c => { c with va := put c.va r.1, vb := put c.vb r.2 }
  else match s.newRecord c.bk c.addr c.desc.toNat n mask with
    | none => s
    | some d =>
      if d = c.desc.toNat then s
      else match s.newFault c d mask with
        | some e => (if c.kind = .gmma then s.gAbort c d 0 e else s.engFail c e.1 e.2).settle c.bk
        | none => s.updCmd c.id fun c => s.withRecord c { rep := c.fk, mem := [c.fk] } d

/-- A recorded fill takes the granules of a mask of its command's record, while the command is outstanding (R57, R340); a record that then fails its check is
reported, and the fill ends. -/
def State.rereadFill (s : State) (uid m id mask : Nat) : State :=
  match (((s.block? uid).bind Block.saved).bind fun v => v.fills.find? fun x => x.1 == m && x.2.id == id) with
  | none => s
  | some (_, c) =>
    let upd := fun (s : State) (f : Nat × Cmd → Option (Nat × Cmd)) => s.updBlock uid fun b => { b with saved := b.saved.map fun v =>
      { v with fills := v.fills.filterMap fun x => if x.1 = m ∧ x.2.id = id then f x else some x } }
    match if s.outstanding c then s.newRecord c.bk c.addr c.desc.toNat (recordBytes c.kind) mask else none with
    | none => s
    | some d => match s.newFault c d mask with
      | some e => upd (s.engReport c e.1 e.2) fun _ => none
      | none => upd s fun x => some (x.1, { x.2 with desc := BitVec.ofNat 1024 d })

/-- A mailbox operation takes the granules of a mask of its record as they stand now, until its send is applied or its delivery begins (R57, R366). -/
def State.rereadMail (s : State) (o : Op) (k : Nat) (x : Lane) (mask : Nat) : State :=
  let recv : Bool := o.kind == .mrecv
  let fail := fun (f : FClass) (det : Nat) => (if recv then s.recvFail o k x f det else s.sendBad o k x f det).afterAccess o.bk
  if !(recv || o.kind == .msend) || x.st != .pending || x.val != 0 then s
  else match s.newRecord o.bk x.src2 x.src 64 mask with
    | none => s
    | some d => match s.newPois o.bk x.src2 mask with
      | some p => fail .pz p
      | none =>
        if mrResv recv d then fail .fm openDet
        else if s.notMine o.bk (mrMbx d) || decide (16384 < mrPofs d * 16 + mrLen d) then fail .ac openDet
        else (s.setLane o.id k fun y =>
          { y with src := d, ptr := mrPtr d, wct4 := if recv && mrMbx d != mrMbx x.src then 0 else y.wct4 }).arriveRecv

/-- An operation takes granules of its record anew: `lane` is 0 for a command itself, 1 + 4 k + m for the fill of it that is recorded for member `m` of the
k-th listed block, and 1 + k for the k-th lane of a mailbox operation. -/
def State.reread (s : State) (id lane mask : Nat) : State :=
  match s.op? id, lane with
  | some o, k + 1 => match s.laneAt id k with
    | some (_, x) => s.rereadMail o k x mask
    | none => s
  | _, 0 => match s.cmd? id with
    | some c => s.rereadCmd c mask
    | none => s
  | none, k + 1 => match s.blocks[k / 4]? with
    | some b => s.rereadFill b.uid (k % 4) id mask
    | none => s

/-- A record reaches the flash partition (R378). -/
def State.storeCfg (s : State) (r : CfgRec) : State := s.updHost fun h => { h with flash := h.flash ++ [r] }

def State.mishap (s : State) (m : Mishap) : State :=
  match m with
  | .evict ln bad => s.evict ln bad
  | .ecc ctx pa synd fixed => s.eccHit ctx pa synd fixed
  | .slice ctx pa synd => s.sliceHit ctx pa synd
  | .tline ctx k off synd => s.tlineHit ctx k off synd
  | .zeroDir ctx pa synd => if pa < Config.dramTop then s.logError (384 + stackOf pa) 3 7 ctx (zdirByte pa) synd else s
  | .spill fk line => s.spillHit fk line
  | .corrected ctx unit src addr synd => if correctedOk unit src addr synd then s.logError unit 1 src ctx addr synd else s
  | .reread id lane grans => s.reread id lane grans
  | .voteLost uid => s.voteLost uid
  | .hart m addr acc => s.hartAccess m addr acc
  | .barRead fn bar off => s.barRead fn bar off
  | .barWrite fn bar off val => s.barWrite fn bar off val
  | .flash r => s.storeCfg r

/-! ### DRAM controllers and links (R64, R65, R375) -/

/-- What DRAMC_ACTCFG's fields act as (R65): the threshold, and the neighbour distance. -/
def actMthr (v : Nat) : Nat := max (bits v 8 12) 0x100
def actNbr (v : Nat) : Nat := min (max (bits v 4 4) 1) 4

/-- ROW_ALERT (R64, R65): a row has reached the threshold, its neighbours are refreshed, and the bank backs off; a bank in back-off accepts no activate, so
none of its rows raises an alert. -/
def execRowAlert (stack bank : Nat) (s : State) : Host.Outcome State Fault Refusal :=
  .next (if decide (Config.nStacks ≤ stack) || sget false s.host.backoff (bank * 16 + stack) then s
    else s.updHost fun h =>
      let v := sget 0 h.actstat stack
      let cfg := sget actcfgReset h.actcfg stack
      { h with
        rowref := sset none h.rowref (bank * 16 + stack) (some (actMthr cfg, actNbr cfg))
        actstat := sset 0 h.actstat stack (setBits v 32 32 (min (bits v 32 32 + 1) (2 ^ 32 - 1)))
        backoff := sset false h.backoff (bank * 16 + stack) true })

/-- BACKOFF_END (R64, R65): the interval is at most 480 clocks. -/
def execBackoffEnd (stack bank clocks : Nat) (s : State) : Host.Outcome State Fault Refusal :=
  .next (if sget false s.host.backoff (bank * 16 + stack) then
      s.updHost fun h =>
        let v := sget 0 h.actstat stack
        { h with
          actstat := sset 0 h.actstat stack (setBits v 0 32 (min (bits v 0 32 + min clocks 480) (2 ^ 32 - 1)))
          backoff := sset false h.backoff (bank * 16 + stack) false }
    else s)

/-- FLIT_REPLAY (R375): a corrected record with the flit's number and its checksum error. Delivery is in order: when another flit fails, the one that failed
before has arrived, and the failures in a row start anew. -/
def execFlitReplay (port sq crc : Nat) (s : State) : Host.Outcome State Fault Refusal :=
  .next (if 16 ≤ port then s
    else (s.logError (396 + port) 1 8 none sq (crc % 2 ^ 32)).updHost fun h =>
      { h with
        links := sset 0 h.links port (if sget 0 h.linkSq port = sq + 1 then sget 0 h.links port + 1 else 1)
        linkSq := sset 0 h.linkSq port (sq + 1) })

/-- Accesses under way on a link. -/
def State.onLink (s : State) (port : Nat) (x : Lane) : Bool :=
  match x.tgt with
  | .out a mt => mt == 4 && s.routeOf a == some port && x.st == .pending
  | _ => false

/-- A write that a link has sent and not yet acknowledged (R237, R375). -/
def State.unacked (s : State) (port : Nat) (o : Op) (x : Lane) : Bool :=
  match x.tgt with
  | .out a mt => mt == 4 && s.routeOf a == some port && x.st.isDone && o.kind.stores && !(decide (x.wct = 0 ∨ x.wct < s.tickOf o))
  | _ => false

/-- AC of an access that a failed link has lost, of a write that has left its core among them (R97, R375). -/
def State.loseWrite (s : State) (o : Op) (x : Lane) : State :=
  s.reportFault o.bk { code := FClass.ac.code, pc := o.pc, det := x.ptr, grp := fkG x.fk, lane := fkL x.fk } o.frame

/-- LINK_RETRAIN (R375): after 8 consecutive failures; a failed retrain takes the link down, for good (R380), and what is under way on it is lost. -/
def execLinkRetrain (port : Nat) (ok : Bool) (s : State) : Host.Outcome State Fault Refusal :=
  .next (if decide (16 ≤ port) || decide (sget 0 s.host.links port < 8) then s
    else
      let s := s.linkGood port
      if ok then s
      else
        let s := (s.logError (396 + port) 3 8 none 0 0).updHost fun h => { h with hubReady := setBits h.hubReady port 1 0, gone := h.gone ||| 2 ^ port }
        let s := (s.lanesIn fun o x => s.unacked port o x).foldl (fun s y => s.loseWrite y.1 y.2.2) s
        ((s.lanesIn fun _ x => s.onLink port x).foldl (fun s y => s.loseLane y.1 y.2.1 y.2.2) s).settleRunning)

/-! ### Onyx (R345, R346, R377) -/

/-- Every launch of every context stops, and no command is taken until a device reset (R345). -/
def State.stopAll (s : State) : State :=
  let s := (s.launches.map Launch.lid).foldl (fun s l => s.stopLaunch l 4) s
  let s := (span 0 64).foldl (fun s c => (s.postEvent c 0 (eventEntry 4 0 0 0 0 0 s.host.alarm 0)).2) s
  s.updHost fun h => { h with stopped := true }

/-- Raise the alarm: ONYX_ALARM keeps the highest level and its tick. -/
def State.raiseAlarm (s : State) (level : Nat) : State :=
  let s := s.updHost fun h =>
    if bits h.alarm 0 2 < level then { h with alarm := s.tick % 2 ^ 64 / 4 * 4 + level } else h
  let s := if 2 ≤ level then s.stopAll else s
  if level = 3 then s.updHost fun h => { h with erased := true } else s

/-- A verification fails: the third without a success between is of level 2. -/
def State.failVerify (s : State) : State :=
  let n := s.host.verFails + 1
  (s.updHost fun h => { h with verFails := n }).raiseAlarm (if 3 ≤ n then 2 else 1)

/-- VERIFICATION_FAILURE (R345). -/
def execVerificationFailure (s : State) : Host.Outcome State Fault Refusal := .next s.failVerify
/-- GLITCH (R345). -/
def execGlitch (s : State) : Host.Outcome State Fault Refusal := .next (s.raiseAlarm 2)
/-- TAMPER_BREACH (R345): stop, then the keys are erased. -/
def execTamperBreach (s : State) : Host.Outcome State Fault Refusal := .next (s.raiseAlarm 3)

/-- IMAGE_LOAD (R147, R377): an image is loaded when both signatures verify; a Silivo image (kind 0) brings the element formats it defines. -/
def execImageLoad (kind : Nat) (ecdsaOk lmsOk : Bool) (hash : Nat) (codes : List Nat) (s : State) : Host.Outcome State Fault Refusal :=
  .next (if ecdsaOk && lmsOk then
      s.updHost fun h => { h with
        images := sset 0 h.images kind hash, verFails := 0
        silivo := if kind = 0 then (h.silivo ++ codes.filter fun c => decide (8 ≤ c) && decide (c < 15)).eraseDups else h.silivo }
    else s.failVerify)

/-- ATTESTATION (R377): the report over the host's nonce; an erased device's carries only the nonce and is not signed. -/
def execAttestation (nonce : Nat) (s : State) : Host.Outcome State Fault Refusal :=
  .next (if s.host.erased then
      s.updHost fun h => { h with attest := some { nonce := nonce, images := [], config := none, erased := true, sigs := none } }
    else
      { s with
        free := s.free + 2
        host := { s.host with attest := some { nonce := nonce, images := s.host.images, config := some s.host.cfgHash, erased := false,
                                               sigs := some (Config.signature s.free, Config.signature (s.free + 1)) } } })

/-! ### Bring-up and reset (R346, R378 to R380) -/

/-- FUNCTION_READY (R379, R380): bit `n` of HUB_READY sets, a failed link's never again; for a quadrant `cores` are its ready cores, of those the configuration
enables. -/
def execFunctionReady (n cores : Nat) (s : State) : Host.Outcome State Fault Refusal :=
  .next (if decide (38 < n) || bit s.host.gone n || (decide (16 ≤ n) && decide (n < 28) && sget false s.host.trainFail (n - 16)) then s
    else if 32 ≤ n ∧ n < 36 then
      let q := n - 32
      let ready := sget 0 s.host.coreRdy q ||| (cores % 2 ^ 48 &&& bits s.host.cfgCores (48 * q) 48)
      (s.updHost fun h => { h with
        coreRdy := sset 0 h.coreRdy q ready
        hubReady := if ready = 0 then h.hubReady else setBits h.hubReady n 1 1 }).settleRunning
    else (s.updHost fun h => { h with hubReady := setBits h.hubReady n 1 1 }).settleRunning)

/-- STACK_TRAINING_FAIL (R380): accesses that waited for the stack are reported, later ones fail their check. -/
def execStackTrainingFail (stack : Nat) (s : State) : Host.Outcome State Fault Refusal :=
  .next (if decide (Config.nStacks ≤ stack) || bit s.host.hubReady (16 + stack) || sget false s.host.trainFail stack then s
    else
      let d1 := s.draw
      let d2 := d1.2.draw
      let s := (d2.2.logError (384 + stack) 3 6 none (Config.openDetail d1.1).toNat (Config.openDetail d2.1).toNat).updHost fun h =>
        { h with trainFail := sset false h.trainFail stack true }
      let here := fun (x : Lane) => match x.tgt with
        | .mem pa _ => x.st == .pending && stackOf pa == stack
        | _ => false
      ((s.lanesIn fun _ x => here x).foldl (fun s y => s.loseLane y.1 y.2.1 y.2.2) s).settleRunning)

/-- The record that Onyx takes (R378): the newest whose two signatures verify and whose counter is not below the partition's. -/
def HostSt.record (h : HostSt) : Option CfgRec := h.flash.reverse.find? fun r => r.ecdsa && r.lms && decide (h.cfgCtr ≤ r.counter)

/-- What a reset leaves on the package (R346, R378): ONYX_ALARM, erased keys, the flash partition, and the configuration of the record that Onyx takes, whose
counter is the partition's from then on; with none, as it was. -/
def HostSt.restart (h : HostSt) : HostSt :=
  let r := h.record.getD { cores := h.cfgCores, sku := h.cfgSku, keys := h.cfgKeys, counter := h.cfgCtr, hash := h.cfgHash, ecdsa := true, lms := true }
  { HostSt.reset with alarm := h.alarm, erased := h.erased, flash := h.flash, cfgCores := r.cores, cfgSku := r.sku, cfgKeys := r.keys, cfgCtr := r.counter,
                      cfgHash := r.hash }

/-- DEVICE_RESET (R346, R378): the reset state, with what the package keeps. -/
def execDeviceReset (s : State) : Host.Outcome State Fault Refusal :=
  .next { State.reset with agenda := s.agenda, free := s.free, seq := s.seq, host := s.host.restart }

/-! ### Cooling (R381) -/

/-- THERMAL_THROTTLE (R381): a die at 105 °C or more steps its clock down, and goes on doing so until it is below 100 °C. The entry is twice the
steps of 100 MHz, plus 1 while they go on; what its clock has lost so far is kept. -/
def execThermalThrottle (die temp : Nat) (s : State) : Host.Outcome State Fault Refusal :=
  let v := sget 0 s.host.throttle die
  let more : Bool := decide (105 ≤ temp) || (v % 2 == 1 && decide (100 ≤ temp))
  let w := if more then (v / 2 + 1) * 2 + 1 else v / 2 * 2
  .next (s.updHost fun h => { h with throttle := sset 0 h.throttle die w, lag := sset none h.lag die (some (s.tick, s.lagOn die)) })

end Sys2Proof.Machine
end

