-- ==== Sys2Proof/Machine/Bundle.lean ====
section
/-!
DEFINITION. Bundles (R261 to R265): which fibres may issue, how bundles split and form, reconvergence records and holds, and
the Whisk's timed events.
-/
namespace Sys2Proof.Machine

/-- The Whisk issues a fibre at its instruction, or tries it again at a fence. -/
def FStat.issues : FStat → Bool
  | .ready => true
  | .fence _ => true
  | _ => false

/-- The fibre is neither parked nor waiting, and its block runs. -/
def State.issuable (s : State) (fk : Nat) : Bool :=
  match s.fib fk with
  | some f => f.stat.issues && s.running (fkBk fk)
  | none => false

/-- What the fibres of a bundle share (R261): launch, core, partition and PC, and whether the word there is a header that they are about to enter. -/
structure Place where
  lid : Nat
  core : Nat
  part : Nat
  pc : Nat
  header : Bool
deriving DecidableEq, Repr

def State.place (s : State) (fk : Nat) : Option Place :=
  match s.fib fk with
  | none => none
  | some f =>
    let gr := s.group (fkBk fk) (fkG fk)
    some { lid := match s.block? (fkBk fk) with
                  | some b => b.lid
                  | none => 0
           core := gr.core, part := gr.part, pc := f.pc, header := f.atHeader }

/-- A bundle formed at a core clock, with the records that its fibres kept. -/
def Bundle.form (clock : Nat) (recon : List Recon) (fibs : List Nat) : Bundle :=
  { fibs := fibs, last := clock, demoted := none, yielded := false, back := [], changed := false, recon := recon, hold := none, promoted := false }

/-- The core and the partition of a bundle's fibres, and the clock that its waits count. -/
def State.seatOf (s : State) (b : Bundle) : Nat × Nat :=
  let gr := s.group (fkBk (b.fibs.headD 0)) (fkG (b.fibs.headD 0))
  (gr.core, gr.part)
def State.bundleClock (s : State) (b : Bundle) : Nat := s.clockAt (s.seatOf b).1

/-- Split a list of fibres by a key, in the order of first appearance. -/
def classes {α : Type} [DecidableEq α] (key : Nat → α) : List Nat → List (List Nat)
  | [] => []
  | fk :: fks =>
    let rest := classes key fks
    match rest.find? fun c => c.any fun x => key x = key fk with
    | some c => (fk :: c) :: rest.filter fun d => !(d.any fun x => key x = key fk)
    | none => [fk] :: rest

/-- The record that each part of a split makes (R263): none without a reconvergence header or beyond eight; a split whose header is
that of the innermost record joins it. -/
def Bundle.fork (b : Bundle) (rcv : Option Nat) (key : Nat) : Bundle :=
  match rcv, b.recon with
  | none, _ => b
  | some p, [] => { b with recon := [{ rpc := p, key := key }] }
  | some p, r :: rs => if r.rpc = p ∨ 8 ≤ b.recon.length then b else { b with recon := { rpc := p, key := key } :: r :: rs }

/-- Of a list of fibres, the first at each home lane. -/
def byLane : List Nat → List Nat
  | [] => []
  | fk :: fks => fk :: (byLane fks).filter fun x => fkL x != fkL fk

/-- The fibres that a step may leave in a bundle, of a list: issuable, in no earlier bundle, one at each home lane. -/
def State.vacant (s : State) (seen : List Nat) (fks : List Nat) : List Nat :=
  byLane (fks.filter fun fk => s.issuable fk && !(seen.contains fk))

/-- A bundle as a step leaves it, whose fibres `stay` still issue: their parts, by place, and the records of those that left it. It splits where the parts
are several, or where some of its fibres park, wait or end (R261); each part of a split makes the record. -/
def State.parts (s : State) (b : Bundle) (stay : List Nat) (key : Nat) : Bundle × List Bundle :=
  let cs := classes s.place stay
  let split : Bool := decide (2 ≤ cs.length) || (decide (1 ≤ cs.length) && decide (stay.length < b.fibs.length))
  let f := if split then b.fork ((s.fib (stay.headD 0)).bind Fibre.rcv) key else b
  (f, cs.map fun c => { f with fibs := c })

def fibsOf (bs : List Bundle) : List Nat := bs.flatMap Bundle.fibs

/-- The bundles, the next record number, and the records of the fibres that left their bundles, by fibre. -/
structure Split where
  bundles : List Bundle
  key : Nat
  left : List (Nat × List Recon)

/-- Split every bundle, after those already settled; each split takes a record number of its own. -/
def State.splitAll (s : State) : List Bundle → Split → Split
  | [], r => r
  | b :: bs, r =>
    let stay := s.vacant (fibsOf r.bundles) b.fibs
    let p := s.parts b stay r.key
    s.splitAll bs
      { bundles := r.bundles ++ p.2, key := if p.1.recon = b.recon then r.key else r.key + 1
        left := r.left ++ (b.fibs.filter fun fk => !(stay.contains fk)).map fun fk => (fk, p.1.recon) }

/-- A fibre outside every bundle keeps its records (R263). -/
def State.keepRecon (s : State) (x : Nat × List Recon) : State :=
  match s.fib x.1 with
  | some f => if f.recon = x.2 then s else s.putFib x.1 { f with recon := x.2 }
  | none => s

/-- The records that a fibre kept. -/
def State.reconOf (s : State) (fk : Nat) : List Recon :=
  match s.fib fk with
  | some f => f.recon
  | none => []

/-- The fibres of a group that no bundle holds form bundles of their own, by place and records. -/
def State.formAll (s : State) : List (List Nat) → List Bundle → List Bundle
  | [], bs => bs
  | c :: cs, bs => s.formAll cs (bs ++ (classes (fun fk => (s.place fk, s.reconOf fk)) (s.vacant (fibsOf bs) c)).map fun c =>
      let fk := c.headD 0
      Bundle.form (s.clockAt (s.group (fkBk fk) (fkG fk)).core) (s.reconOf fk) c)

def State.formNew (s : State) (bs : List Bundle) : List Bundle :=
  s.formAll (classes groupKey (s.rs.fibres.map (·.1))) bs

/-- The PC of a bundle that stands at a header. -/
def State.headerOf (s : State) (b : Bundle) : Option Nat :=
  match s.fib (b.fibs.headD 0) with
  | some f => if f.atHeader then some f.pc else none
  | none => none

/-- The bundle has reached the header of its innermost record. -/
def State.atRecon (s : State) (b : Bundle) (key : Nat) : Bool :=
  match b.recon with
  | r :: _ => r.key == key && s.headerOf b == some r.rpc
  | [] => false

/-- A part that waits at `yield` or at `wait` (R263). -/
def State.idles (s : State) (b : Bundle) : Bool :=
  b.yielded || match s.fib (b.fibs.headD 0) with
    | some f => !f.atHeader && match s.fetchWord (fkBk (b.fibs.headD 0)) (s.group (fkBk (b.fibs.headD 0)) (fkG (b.fibs.headD 0))).core f.pc with
      | .word w => fOpc w == 0x83
      | _ => false
    | none => false

/-- A sibling part of a record is still on its way. -/
def State.awaits (s : State) (bs : List Bundle) (key : Nat) : Bool :=
  bs.any fun b => (b.recon.any fun r => r.key == key) && !(s.atRecon b key) && !(s.idles b)

/-- Hold the parts that have reached the header of their innermost record, or let them go when no sibling is awaited (R263). -/
def State.reconverge (s : State) (bs : List Bundle) : List Bundle :=
  bs.map fun b => match b.recon with
    | [] => b
    | r :: rs =>
      if !(s.atRecon b r.key) then b
      else if s.awaits bs r.key then (if b.hold.isNone then { b with hold := some (s.bundleClock b) } else b)
      else { b with hold := none, recon := rs }

/-- Settle the bundles after a step. -/
def State.rebundle (s : State) : State :=
  let r := s.splitAll s.bundles { bundles := [], key := s.seq, left := [] }
  let s := r.left.foldl State.keepRecon s
  { s with bundles := s.reconverge (s.formNew r.bundles), seq := r.key }

/-! ### The order of issue (R261, R265) -/

/-- A starved bundle is of the highest class. -/
def State.starved (s : State) (b : Bundle) : Bool := b.promoted || decide (b.last + 1024 ≤ s.bundleClock b)

/-- A demotion that has not ended. -/
def State.demotedNow (s : State) (b : Bundle) : Bool :=
  match b.demoted with
  | some t => decide (s.bundleClock b < t + 256)
  | none => false

/-- The rank of a bundle, the lowest first: a demoted one behind every other, then the class, then the longest wait. -/
def State.bundleRank (s : State) (b : Bundle) : Nat :=
  (b2n (s.demotedNow b) * 8 + (7 - if s.starved b then 7 else (s.rcbOf (fkBk (b.fibs.headD 0))).prio)) * 2 ^ 64 + b.last

/-- A fault reported after issue waits for the fibre's block. -/
def State.reported (s : State) (fk : Nat) : Bool :=
  match s.block? (fkBk fk) with
  | some b => !b.reports.isEmpty
  | none => false

/-- A bundle that is neither held (R263) nor of a block that has a report to take first (R333). -/
def State.unheld (s : State) (b : Bundle) : Bool := b.hold.isNone && !(b.fibs.any s.reported)

/-- Bundle `k` is the next of its core and partition: no other ready one, the step's late ones left out, ranks before it (R261, R265); and of the bundles that
issue at one tick those of a lower core come first (R332). -/
def State.mayIssue (s : State) (k : Nat) (b : Bundle) : Bool :=
  s.unheld b && decide (s.turn ≤ (s.seatOf b).1) && (span 0 s.bundles.length).all fun j => j == k || s.ch.late.contains j || match s.bundles[j]? with
    | some x => !(s.unheld x && s.seatOf x == s.seatOf b && decide (s.bundleRank x < s.bundleRank b))
    | none => true

/-! ### Timed events -/

def State.updBundle (s : State) (k : Nat) (f : Bundle → Bundle) : State := { s with bundles := s.bundles.modify k f }

/-- DEMOTION_END (R265): 256 clocks have passed. -/
def execDemotionEnd (k : Nat) (s : State) : Host.Outcome State Fault Refusal :=
  .next (s.updBundle k fun b => match b.demoted with
    | some t => if t + 256 ≤ s.bundleClock b then { b with demoted := none, yielded := false } else b
    | none => b)

/-- RECONVERGENCE_TIMEOUT (R263): the hold of 256 clocks ends. -/
def execReconvergenceTimeout (k : Nat) (s : State) : Host.Outcome State Fault Refusal :=
  .next (s.updBundle k fun b => match b.hold with
    | some t => if t + 256 ≤ s.bundleClock b then { b with hold := none, recon := b.recon.tail } else b
    | none => b)

/-- STARVATION_PROMOTION (R261): a ready bundle has waited 1,024 clocks. -/
def execStarvationPromotion (k : Nat) (s : State) : Host.Outcome State Fault Refusal :=
  .next (s.updBundle k fun b => if b.last + 1024 ≤ s.bundleClock b then { b with promoted := true } else b)

/-- The fibre's last issue. -/
def State.lastOf (s : State) (fk : Nat) : Nat :=
  match s.fib fk with
  | some f => f.last
  | none => 0

/-- At each home lane the fibre that has waited longest. -/
def State.takes (s : State) (all : List Nat) (fk : Nat) : Bool :=
  !(all.any fun x => fkL x == fkL fk && (decide (s.lastOf x < s.lastOf fk) || (s.lastOf x == s.lastOf fk && decide (x < fk))))

/-- The records that two bundles share: the longest common tail. -/
def commonTail (xs ys : List Recon) : List Recon :=
  ((xs.reverse.zip ys.reverse).takeWhile fun p => p.1 == p.2).map (·.1) |>.reverse

/-- Two bundles may merge (R261): same launch, partition and PC, and neither is held. -/
def State.mergeable (s : State) (a b : Bundle) : Bool :=
  a.hold.isNone && b.hold.isNone && (s.place (a.fibs.headD 0)).isSome && s.place (a.fibs.headD 0) == s.place (b.fibs.headD 0)

/-- BUNDLE_MERGE (R261): bundle `j` joins bundle `k`; of two fibres at one home lane the one that has waited longest is taken, and the others
stay behind. -/
def execBundleMerge (k j : Nat) (s : State) : Host.Outcome State Fault Refusal :=
  .next (match s.bundles[k]?, s.bundles[j]? with
    | some a, some b =>
      if k = j ∨ !(s.mergeable a b) then s
      else
        let all := sortBy id (a.fibs ++ b.fibs)
        let m := { a with
          fibs := all.filter (s.takes all), last := min a.last b.last, demoted := if a.demoted = b.demoted then a.demoted else none
          yielded := a.yielded && b.yielded, back := a.back.filter b.back.contains, changed := a.changed || b.changed
          recon := commonTail a.recon b.recon, promoted := a.promoted || b.promoted }
        let s := s.updBundle k fun _ => m
        let s := s.updBundle j fun b => { b with fibs := all.filter fun fk => !(s.takes all fk) }
        { s with bundles := s.bundles.filter fun b => !b.fibs.isEmpty }
    | _, _ => s)

end Sys2Proof.Machine
end

