-- ==== Sys2Proof/Machine/Float.lean ====
section
/-!
DEFINITION. The floating-point forms (R169 to R177), the conversions (R178 to R183) and `rand` (R184).
-/
namespace Sys2Proof.Machine

/-- The element a form reads: 32 bits, or bits [15:0] of a 16-bit type (R149). -/
def elemOf (t : Ty) (x : Nat) : Nat := if t.size = 2 then x % 65536 else x

def binF (s : State) (f : Bin) (op : Fmt → Nat → Nat → Nat × Nat) : State :=
  runBin s f false false false fun a b => op (fmtOf f.ty) (elemOf f.ty a) (elemOf f.ty b)
def unF (s : State) (f : Un) (op : Fmt → Nat → Nat × Nat) : State :=
  runUn s f false false fun a => op (fmtOf f.ty) (elemOf f.ty a)

/-- fadd (R170). -/
def execFadd (f : Bin) (rm : RM) (s : State) : Host.Outcome State Fault Refusal := .next (binF s f fun k => fAdd k rm)
/-- fsub (R170). -/
def execFsub (f : Bin) (rm : RM) (s : State) : Host.Outcome State Fault Refusal := .next (binF s f fun k => fSubt k rm)
/-- fmul (R170). -/
def execFmul (f : Bin) (rm : RM) (s : State) : Host.Outcome State Fault Refusal := .next (binF s f fun k => fMul k rm)
/-- fma (R170). -/
def execFma (f : Tri) (s : State) : Host.Outcome State Fault Refusal :=
  .next (runTri s f false false false false (fFma fmt32 f.rm))
/-- fmin (R172). -/
def execFmin (f : Bin) (s : State) : Host.Outcome State Fault Refusal := .next (binF s f fun k => fMinMax k false)
/-- fmax (R172). -/
def execFmax (f : Bin) (s : State) : Host.Outcome State Fault Refusal := .next (binF s f fun k => fMinMax k true)
/-- fabs (R173): the sign bit is cleared. -/
def execFabs (f : Un) (s : State) : Host.Outcome State Fault Refusal :=
  .next (unF s f fun k a => (a % signBit k true, 0))
/-- fneg (R173): the sign bit is inverted. -/
def execFneg (f : Un) (s : State) : Host.Outcome State Fault Refusal := .next (unF s f fun k a => (flipSign k a, 0))
/-- fdiv (R170). -/
def execFdiv (f : Bin) (rm : RM) (s : State) : Host.Outcome State Fault Refusal := .next (binF s f fun k => fDivide k rm)
/-- fsqrt (R170). -/
def execFsqrt (f : Un) (rm : RM) (s : State) : Host.Outcome State Fault Refusal := .next (unF s f fun k => fSquareRoot k rm)
/-- frcp (R174). -/
def execFrcp (f : Un) (s : State) : Host.Outcome State Fault Refusal := .next (unF s f fun _ => fRecip)
/-- frsq (R174). -/
def execFrsq (f : Un) (s : State) : Host.Outcome State Fault Refusal := .next (unF s f fun _ => fRecipSqrt)
/-- fexp2 (R174). -/
def execFexp2 (f : Un) (s : State) : Host.Outcome State Fault Refusal := .next (unF s f fun _ => fExp2)
/-- flog2 (R174). -/
def execFlog2 (f : Un) (s : State) : Host.Outcome State Fault Refusal := .next (unF s f fun _ => fLog2)

/-- fcmp (R175). -/
def execFcmp (f : CmpF) (s : State) : Host.Outcome State Fault Refusal :=
  .next (runAlu s f.g (.pred f.p) [⟨f.a, f.ia, false⟩, ⟨f.b, f.ib, false⟩] (needAll 2) fun _ _ xs =>
    let r := fCompare (fmtOf f.ty) f.cc (elemOf f.ty (xs.getD 0 0)) (elemOf f.ty (xs.getD 1 0))
    .ok (b2n r.1, r.2))
/-- fclass (R176). -/
def execFclass (f : ClassF) (s : State) : Host.Outcome State Fault Refusal :=
  .next (runAlu s f.g (.pred f.p) [⟨f.a, f.ia, false⟩] (needAll 1) fun _ _ xs =>
    .ok (b2n (bit f.mask (fClassOf (fmtOf f.ty) (elemOf f.ty (xs.getD 0 0)))), 0))
/-- frnd (R170). -/
def execFrnd (f : Un) (rm : RM) (s : State) : Host.Outcome State Fault Refusal := .next (unF s f fun k => fRound k rm)
/-- fdot2 (R171). -/
def execFdot2 (f : Tri) (s : State) : Host.Outcome State Fault Refusal :=
  .next (runTri s f false false false false (fDot2 (fmtOf f.ty) f.rm))

/-- fstat.rd (R177). -/
def execFstatRd (f : Dst) (s : State) : Host.Outcome State Fault Refusal :=
  .next (runAlu s f.g (.reg f.d f.id false .b32) [] (needAll 0) fun s fk _ =>
    .ok ((s.group (fkBk fk) (fkG fk)).gsw.toNat, 0))

/-- fstat.clr (R177): every fibre of a group reads the same value; the bits any of them names are cleared once after the
reads. -/
def execFstatClr (f : Un) (s : State) : Host.Outcome State Fault Refusal :=
  .next (runUnits s f.g
    (fun s u => match planOperands s u (some (.reg f.d f.id false .b32)) [⟨f.a, f.ia, false⟩] [true] with
      | .stall => .stall
      | .fault c det => .fault c det
      | .go (rd, rs) => .go (rd, (readSrcs s u [⟨f.a, f.ia, false⟩] rs).getD 0 0))
    (fun st u a =>
      let w : Who := { pc := s.ipc, fk := u.rep }
      let old := (s.group u.bk u.g).gsw
      let st := writeDest st u s.ipc (.reg f.d f.id false .b32) a.1 old.toNat
      let st := if clearFlags (st.group u.bk u.g).gsw a.2 = (st.group u.bk u.g).gsw then st
        else match st.record u.bk u.g .gsw with
          | none => st.noRoom u.bk w
          | some st => st.updGroup u.bk u.g fun gr => { gr with gsw := clearFlags gr.gsw a.2 }
      advanceUnit st u))

/-- cvt (R179). -/
def execCvt (f : CvtF) (s : State) : Host.Outcome State Fault Refusal :=
  .next (runAlu s f.g (.reg f.d f.id f.dty.wide f.dty) [⟨f.a, f.ia, f.sty.wide⟩] (needAll 1) fun _ _ xs =>
    .ok (cvtAny f.dty f.sty f.sat f.hi f.rm (xs.getD 0 0)))
/-- cvt2 (R180). -/
def execCvt2 (f : Bin) (rm : RM) (s : State) : Host.Outcome State Fault Refusal :=
  .next (runBin s f false false false fun a b =>
    let x := cvtFF fmt32 (fmtOf f.ty) rm a
    let y := cvtFF fmt32 (fmtOf f.ty) rm b
    (x.1 + y.1 * 65536, x.2 ||| y.2))

/-- qds8 (R181): D is read as a source for the bytes that stay. -/
def execQds8 (f : Bin) (k : Nat) (s : State) : Host.Outcome State Fault Refusal :=
  .next (runAlu s f.g (.reg f.d f.id false f.ty) [⟨f.d, f.id, false⟩, ⟨f.a, f.ia, false⟩, ⟨f.b, f.ib, false⟩] (needAll 3)
    fun _ _ xs =>
      let r := quantDs8 (xs.getD 1 0) (xs.getD 2 0 % 256)
      .ok (setBits (xs.getD 0 0) (8 * k) 8 r.1, r.2))
/-- dqds8 (R182). -/
def execDqds8 (f : Bin) (k : Nat) (rm : RM) (s : State) : Host.Outcome State Fault Refusal :=
  .next (runBin s f false false false fun a b => decodeDs8 (bits a (8 * k) 8) (b % 256) rm)
/-- escale (R183). -/
def execEscale (f : Un) (k : Nat) (s : State) : Host.Outcome State Fault Refusal :=
  .next (runAlu s f.g (.reg f.d f.id false f.ty) [⟨f.d, f.id, false⟩, ⟨f.a, f.ia, false⟩] (needAll 2)
    fun _ _ xs =>
      let r := scaleOf (xs.getD 1 0)
      .ok (setBits (xs.getD 0 0) (8 * k) 8 r.1, r.2))

/-- The result of `rand` by type (R184). -/
def randVal (t : Ty) (h : Nat) : Nat :=
  match t with
  | .z64 => h
  | .z32 => h % 2 ^ 32
  | _ => (roundInt fmt32 .near (h / 2 ^ 40 : Nat) (-24) false).1

/-- rand (R184): stream 0xFFFF raises an illegal-instruction fault, for which no rule names a detail (R332). -/
def execRand (f : Bin) (s : State) : Host.Outcome State Fault Refusal :=
  .next (runAlu s f.g (.reg f.d f.id f.ty.wide f.ty) [⟨f.a, f.ia, true⟩, ⟨f.b, f.ib, false⟩] (needAll 2)
    fun s fk xs =>
      let sid := xs.getD 1 0 % 65536
      if sid = 0xFFFF then .error (.il, openDet)
      else .ok (randVal f.ty (hashH (s.rcbOf (fkBk fk)).seed (s.rcbOf (fkBk fk)).cbase (xs.getD 0 0) sid), 0))

end Sys2Proof.Machine
end

