-- ==== Sys2Proof/Machine/Int.lean ====
section
/-!
DEFINITION. The integer and address forms, opcodes 0x00 to 0x25 (R154 to R168).
-/
namespace Sys2Proof.Machine

/-- A two-source form whose operands all take TY's width. -/
def binTy (s : State) (f : Bin) (op : Ty → Nat → Nat → Nat × Nat) : State :=
  runBin s f f.ty.wide f.ty.wide f.ty.wide (op f.ty)

/-- add (R155). -/
def execAdd (f : Bin) (s : State) : Host.Outcome State Fault Refusal := .next (binTy s f intAdd)
/-- addi (R151, R155). -/
def execAddi (f : Imm) (s : State) : Host.Outcome State Fault Refusal := .next (runImm s f (intAdd f.ty) (immVal f.ty f.imm))
/-- sub (R155). -/
def execSub (f : Bin) (s : State) : Host.Outcome State Fault Refusal := .next (binTy s f intSub)
/-- adds (R155). -/
def execAdds (f : Bin) (dif : Bool) (s : State) : Host.Outcome State Fault Refusal := .next (binTy s f fun t => intAddSat t dif)
/-- mul (R155). -/
def execMul (f : Bin) (s : State) : Host.Outcome State Fault Refusal := .next (binTy s f intMul)
/-- mulhi (R155). -/
def execMulhi (f : Bin) (s : State) : Host.Outcome State Fault Refusal := .next (binTy s f intMulHi)
/-- mulw (R155): a 64-bit result of two 32-bit sources. -/
def execMulw (f : Bin) (s : State) : Host.Outcome State Fault Refusal := .next (runBin s f true false false (intMulWide f.ty))
/-- mad (R155). -/
def execMad (f : Tri) (s : State) : Host.Outcome State Fault Refusal :=
  .next (runTri s f f.ty.wide f.ty.wide f.ty.wide f.ty.wide (intMad f.ty))
/-- div (R155, R156). -/
def execDiv (f : Bin) (s : State) : Host.Outcome State Fault Refusal := .next (binTy s f intDiv)
/-- rem (R155, R156). -/
def execRem (f : Bin) (s : State) : Host.Outcome State Fault Refusal := .next (binTy s f intRem)
/-- min (R155). -/
def execMin (f : Bin) (s : State) : Host.Outcome State Fault Refusal := .next (binTy s f intMin)
/-- max (R155). -/
def execMax (f : Bin) (s : State) : Host.Outcome State Fault Refusal := .next (binTy s f intMax)
/-- abs (R155). -/
def execAbs (f : Un) (s : State) : Host.Outcome State Fault Refusal := .next (runUn s f f.ty.wide f.ty.wide (intAbs f.ty))
/-- and (R158). -/
def execAnd (f : Bin) (s : State) : Host.Outcome State Fault Refusal := .next (binTy s f fun _ => bitAnd)
/-- or (R158). -/
def execOr (f : Bin) (s : State) : Host.Outcome State Fault Refusal := .next (binTy s f fun _ => bitOr)
/-- xor (R158). -/
def execXor (f : Bin) (s : State) : Host.Outcome State Fault Refusal := .next (binTy s f fun _ => bitXor)
/-- not (R158). -/
def execNot (f : Un) (s : State) : Host.Outcome State Fault Refusal := .next (runUn s f f.ty.wide f.ty.wide (bitNot f.ty))
/-- andi (R151, R158). -/
def execAndi (f : Imm) (s : State) : Host.Outcome State Fault Refusal := .next (runImm s f bitAnd (immVal f.ty f.imm))
/-- ori (R151, R158). -/
def execOri (f : Imm) (s : State) : Host.Outcome State Fault Refusal := .next (runImm s f bitOr (immVal f.ty f.imm))
/-- xori (R151, R158). -/
def execXori (f : Imm) (s : State) : Host.Outcome State Fault Refusal := .next (runImm s f bitXor (immVal f.ty f.imm))
/-- shl (R158): the count is 32 bits wide whatever TY (R149). -/
def execShl (f : Bin) (s : State) : Host.Outcome State Fault Refusal := .next (runBin s f f.ty.wide f.ty.wide false (shiftL f.ty))
/-- shr (R158). -/
def execShr (f : Bin) (s : State) : Host.Outcome State Fault Refusal := .next (runBin s f f.ty.wide f.ty.wide false (shiftR f.ty))
/-- shli (R151, R158): the immediate is zero-extended. -/
def execShli (f : Imm) (s : State) : Host.Outcome State Fault Refusal := .next (runImm s f (shiftL f.ty) f.imm)
/-- shri (R151, R158). -/
def execShri (f : Imm) (s : State) : Host.Outcome State Fault Refusal := .next (runImm s f (shiftR f.ty) f.imm)
/-- rot (R158). -/
def execRot (f : Bin) (right : Bool) (s : State) : Host.Outcome State Fault Refusal :=
  .next (runBin s f f.ty.wide f.ty.wide false (rotate f.ty right))
/-- bfx (R159). -/
def execBfx (f : Tri) (s : State) : Host.Outcome State Fault Refusal :=
  .next (runTri s f f.ty.wide f.ty.wide false false (bitExtract f.ty))
/-- bfi (R160). -/
def execBfi (f : Tri) (s : State) : Host.Outcome State Fault Refusal :=
  .next (runTri s f f.ty.wide f.ty.wide f.ty.wide false (bitInsert f.ty))
/-- popc (R158): one register receives the count. -/
def execPopc (f : Un) (s : State) : Host.Outcome State Fault Refusal :=
  .next (runUn s f false f.ty.wide fun a => (countOnes (Ty.bits f.ty) a, 0))
/-- clz (R158). -/
def execClz (f : Un) (s : State) : Host.Outcome State Fault Refusal :=
  .next (runUn s f false f.ty.wide fun a => (leadZeros (Ty.bits f.ty) a, 0))
/-- brev (R158). -/
def execBrev (f : Un) (s : State) : Host.Outcome State Fault Refusal :=
  .next (runUn s f f.ty.wide f.ty.wide fun a => (bitReverse (Ty.bits f.ty) a, 0))

/-- cmp (R166). -/
def execCmp (f : CmpF) (s : State) : Host.Outcome State Fault Refusal :=
  .next (runAlu s f.g (.pred f.p) [⟨f.a, f.ia, f.ty.wide⟩, ⟨f.b, f.ib, f.ty.wide⟩] (needAll 2)
    fun _ _ xs => .ok (b2n (condHolds f.ty f.cc (xs.getD 0 0) (xs.getD 1 0)), 0))
/-- cmpi (R151, R166). -/
def execCmpi (f : CmpI) (s : State) : Host.Outcome State Fault Refusal :=
  .next (runAlu s f.g (.pred f.p) [⟨f.a, f.ia, f.ty.wide⟩] (needAll 1)
    fun _ _ xs => .ok (b2n (condHolds f.ty f.cc (xs.getD 0 0) (immVal f.ty f.imm)), 0))

/-- A predicate of a fibre; false for a fibre that is not live. -/
def State.predOf (s : State) (fk p : Nat) : Bool :=
  match s.fib fk with
  | some f => f.pred p
  | none => false

/-- plog (R167). -/
def execPlog (f : PlogF) (s : State) : Host.Outcome State Fault Refusal :=
  .next (runAlu s f.g (.pred f.p) [] (needAll 0) fun s fk _ =>
    .ok (b2n (bit f.tt (2 * b2n (s.predOf fk f.pa) + b2n (s.predOf fk f.pb))), 0))

/-- sel (R168): only the selected operand is read. -/
def execSel (f : SelF) (s : State) : Host.Outcome State Fault Refusal :=
  .next (runAlu s f.g (.reg f.d false f.ty.wide f.ty) [⟨f.a, false, f.ty.wide⟩, ⟨f.b, false, f.ty.wide⟩]
    (fun s fk => [s.predOf fk f.p, !(s.predOf fk f.p)])
    fun s fk xs => .ok (if s.predOf fk f.p then xs.getD 0 0 else xs.getD 1 0, 0))

/-- movi (R163). -/
def execMovi (f : Imm0) (s : State) : Host.Outcome State Fault Refusal :=
  .next (runAlu s f.g (.reg f.d f.id f.ty.wide f.ty) [] (needAll 0) fun _ _ _ => .ok (immVal f.ty f.imm, 0))
/-- lea (R164). -/
def execLea (f : Bin) (k : Nat) (s : State) : Host.Outcome State Fault Refusal := .next (runBin s f true true false (leaPtr k))
/-- ext (R162). -/
def execExt (f : Un) (e : Nat) (s : State) : Host.Outcome State Fault Refusal :=
  .next (runUn s f (f.ty.size == 4) false (extElem f.ty e))
/-- bsel (R161). -/
def execBsel (f : Bin) (s : State) : Host.Outcome State Fault Refusal := .next (runBin s f false false false byteSelect)

end Sys2Proof.Machine
end

