-- ==== Sys2Proof/Machine/System.lean ====
section
/-!
DEFINITION. The system forms: `trap` (R348), `srd` and `swr` (R349), `ctxq` (R350).
-/
namespace Sys2Proof.Machine

/-- trap (R348): TR with the immediate as detail. -/
def execTrap (g : Guard) (imm : Nat) (s : State) : Host.Outcome State Fault Refusal :=
  .next (runUnits s g (fun (_ : State) (_ : WUnit) => (.fault .tr imm : Plan Unit)) fun st u _ => advanceUnit st u)

/-- The register that `srd` selects (R349). -/
def State.sysReg (s : State) (bk sel : Nat) : Nat :=
  match s.block? bk with
  | none => 0
  | some b =>
    let top := fun (f : Frame → Nat) => match b.frames with
      | x :: _ => f x
      | [] => 0
    match sel with
    | 0 => top Frame.fpc
    | 1 => top Frame.fdet
    | 2 => top fun f => f.floc % 2 ^ 13
    | 3 => b.lid % 2 ^ 64
    | 4 => (s.rcbOf bk).addr
    | 5 => s.ctxOf bk
    | _ => b.bto

/-- srd (R349). -/
def execSrd (g : Guard) (d sel : Nat) (s : State) : Host.Outcome State Fault Refusal :=
  .next (runUnits s { g with u := true }
    (fun s u => if s.busyU u.bk u.g d then .stall else .go (s.sysReg u.bk sel))
    (fun st u v => advanceUnit (st.setU { pc := s.ipc, fk := u.rep } u.bk u.g d v) u))

/-- swr (R349): the barrier timeout, the highest home lane's value standing. -/
def execSwr (g : Guard) (a _sel : Nat) (s : State) : Host.Outcome State Fault Refusal :=
  .next (runUnits s g
    (fun s u => match planOperands s u none [⟨.s a, false, true⟩] [true] with
      | .stall => .stall
      | .fault c det => .fault c det
      | .go (_, rs) => .go ((readSrcs s u [⟨.s a, false, true⟩] rs).getD 0 0))
    (fun st u v => advanceUnit (st.updBlock u.bk fun b => { b with bto := v }) u))

/-- ctxq (R350): an entry for each fibre, posted at once when the group's earlier stores are complete in scope 4, else by
WRITE_COMPLETION_TIME_PASSED. -/
def execCtxq (g : Guard) (d a b : Nat) (s : State) : Host.Outcome State Fault Refusal :=
  let i : MemI := { kind := .ctxq, cls := .none, d := .v d, ty := .z32, n := 0, pol := 0, qf := 0, scope := 0, aux := 0, uni := false }
  let srcs : List Src := [⟨.s a, false, true⟩, ⟨.s b, false, true⟩]
  let t := runUnits s g
    (fun s u => match planOperands s u (some (.reg (.v d) false false .z32)) srcs [true, true] with
      | .stall => .stall
      | .fault c det => .fault c det
      | .go (_, rs) =>
        if s.acqWait u.rep then .stall
        else
          let xs := readSrcs s u srcs rs
          .go (xs.getD 0 0, xs.getD 1 0))
    (fun st u x =>
      let r := st.opFor i s.seq u.bk u.g
      advanceUnit (r.2.addLane r.1 { engLane u.rep with src := x.1, src2 := x.2, dl := maskOfUnit u }) u)
  .next (((t.ops.filter fun o => decide (s.seq ≤ o.id)).foldl (fun s o => s.ctxqRun o.id) t).sweep)

end Sys2Proof.Machine
end

