-- ==== Sys2Proof/Machine/Task.lean ====
section
/-!
DEFINITION. Tile tasks (R290 to R295, R298): `tkpost` (R304), TASK_START, TASK_COMPLETE, RENAME_WRITEBACK and QUEUE_BALANCE; and `await`
(R307).
-/
namespace Sys2Proof.Machine

/-! ### Task descriptors (R291) -/

/-- Tile `j`: first pointer and bytes. -/
def tile (d j : Nat) : Nat × Nat := (bits d (256 + 128 * j) 64, bits d (256 + 128 * j + 64) 32 * 4096)
def nRead (d : Nat) : Nat := bits d 192 4
def nWrite (d : Nat) : Nat := bits d 196 4
def readTiles (d : Nat) : List (Nat × Nat) := (span 0 (nRead d)).map (tile d)
def writeTiles (d : Nat) : List (Nat × Nat) := (span 4 (nWrite d)).map (tile d)

/-- A used tile's fields are out of range. -/
def tileBad (d j : Nat) : Bool :=
  let n := bits d (256 + 128 * j + 64) 32
  (tile d j).1 % 4096 ≠ 0 || n = 0 || decide (65536 < n) || bits d (256 + 128 * j + 96) 32 ≠ 0

/-- A reserved field is set or a field is out of its range. -/
def taskBad (d : Nat) : Bool :=
  bits d 206 50 ≠ 0 || bits d 200 6 = 0 || decide (48 < bits d 200 6) || decide (2 < nWrite d) || decide (4 < nRead d) ||
    (span 0 6).any fun j =>
      if j < nRead d ∨ (4 ≤ j ∧ j < 4 + nWrite d) then tileBad d j else bits d (256 + 128 * j) 128 ≠ 0

/-- The pointer ranges of two tiles intersect (R294). -/
def tilesMeet (a b : Nat × Nat) : Bool := decide (a.1 < b.1 + b.2) && decide (b.1 < a.1 + a.2)
def anyMeet (xs ys : List (Nat × Nat)) : Bool := xs.any fun x => ys.any (tilesMeet x)

/-! ### The dependence table (R294, R295) -/

/-- The incomplete tasks of a quadrant, oldest first, as (block, task). -/
def State.tableOf (s : State) (quad : Nat) : List (Nat × TaskRec) :=
  (sortBy (fun p => p.2.arr) (s.blocks.filterMap fun b => b.task.map fun t => (b.uid, t))).filter fun p => p.2.quad == quad && !p.2.done

/-- The context's rename pool (R295): its base, its size, and the buffers in it, by offset and length. -/
def State.poolBase (s : State) (c : Nat) : Nat := (s.ctx c).rncfg / 2 ^ 16 * 2 ^ 16
def State.poolSize (s : State) (c : Nat) : Nat := (s.ctx c).rncfg % 65536 * 2 ^ 20
def State.poolUsed (s : State) (c : Nat) : List (Nat × Nat) :=
  s.blocks.flatMap fun b => match b.task with
    | some t => if s.ctxOf b.uid = c then t.ren.map fun r => (r.2.2 - s.poolBase c, r.2.1) else []
    | none => []

/-- What a write tile does to its task's place (R295): renamed while the pool has room, else the task waits for the entries it overlaps. DESIGN CHOICE:
a buffer takes the lowest place in the pool (notes/assumptions/63.md). -/
def addWrite (es : List (Nat × TaskRec)) (base size : Nat) (used : List (Nat × Nat)) (t : TaskRec) (w : Nat × Nat) : TaskRec :=
  let old := (es.filter fun e => anyMeet [w] (readTiles e.2.desc.toNat ++ writeTiles e.2.desc.toNat)).map (·.1)
  let off := extPlace (used ++ t.ren.map fun r => (r.2.2 - base, r.2.1)) w.2
  if old = [] then t
  else if off + w.2 ≤ size then { t with ren := t.ren ++ [(w.1, w.2, base + off)], olds := t.olds ++ old }
  else { t with waits := t.waits ++ old }

/-- The record of a posted task; renaming and the table order nothing in deterministic mode (R298). -/
def State.newTask (s : State) (bk core d child : Nat) : TaskRec :=
  let quad := quadOf core
  let c := s.ctxOf bk
  let es := if (s.rcbOf bk).det then [] else s.tableOf quad
  let t : TaskRec :=
    { desc := BitVec.ofNat 1024 d, child := child, poster := bk, quad := quad, core := 0, arr := s.seq
      waits := (es.filter fun e => anyMeet (writeTiles e.2.desc.toNat) (readTiles d)).map (·.1)
      olds := [], ready := false, done := false, ren := [], bufset := [], rq := 0 }
  (writeTiles d).foldl (addWrite es (s.poolBase c) (s.poolSize c) (s.poolUsed c)) t

/-! ### tkpost (R304) -/

/-- The checks of R71 on a tile's first and last byte: the pointer of the first that is not passed, and what it met. -/
def State.tileCheck (s : State) (bk : Nat) (kind : Kind) (x : Nat × Nat) : Option (Nat × Chk) :=
  [x.1, ptrAdd x.1 (x.2 - 1)].findSome? fun p => match s.check (s.ctxOf bk) p 1 1 kind (s.stagesAt bk p) with
    | .ok _ | .staged => none
    | y => some (p, y)

/-- The first tile byte whose check is not passed (R304). -/
def State.tilesCheck (s : State) (bk d : Nat) : Option (Nat × Chk) :=
  ((readTiles d).map (fun x => (Kind.load, x)) ++ (writeTiles d).map fun x => (Kind.store, x)).findSome? fun x => s.tileCheck bk x.1 x.2

/-- What the checks of one `tkpost` gave: the descriptor, or the pointer of a page that is not present. -/
inductive Post
  | page (p : Nat)
  | go (d : Nat)

/-- Post one fibre's task; it stalls while the dependence table is full. -/
def postOne (s : State) (u : WUnit) (a : Post) : State :=
  let bk := u.bk
  match a with
  | .page p => (s.setStat u.rep (.page p)).request (s.ctxOf bk) p
  | .go d => match s.block? bk with
    | none => s
    | some b =>
      let core := (s.group bk u.g).core
      if (s.tableOf (quadOf core)).length ≥ Config.depEntries then s
      else
        let child := (s.childIdx u.rep).1
        let t := s.newTask bk core d child
        let nb := Block.fresh s.seq b.lid b.idx 1 (s.rcbOf bk).bto (b.path ++ [child]) (some t)
        let s := { s with seq := s.seq + 1, blocks := s.blocks ++ [nb] }
        let s := (s.addKid bk { idx := child, isLaunch := false, ref := nb.uid, folded := false }).effect bk
        (s.updFib u.rep Fibre.post).advance u.rep

/-- tkpost (R304). -/
def execTkpost (f : Eng) (s : State) : Host.Outcome State Fault Refusal :=
  .next (runUnits s f.g
    (fun s u => (planRec s u .none f.a 128 128).bind fun w =>
      let d := s.wnum u.bk (winGrp w) (winOff w) 128
      let n := match s.launchOf u.bk with
        | some l => l.consts.length
        | none => 0
      if taskBad d || decide (94 < n) || !(s.childIdx u.rep).2 then .fault .fm openDet
      else match s.tilesCheck u.bk d with
        | none => .go (.go d)
        | some (p, .absent _) => .go (.page p)
        | some (_, .wait) => .stall
        | some (p, _) => .fault .ac p)
    postOne)

/-! ### The events -/

/-- Tasks that stand in a core's ready queue. -/
def State.queueOf (s : State) (core : Nat) : List (Nat × Nat) :=
  sortBy (·.1) (s.blocks.filterMap fun b => match b.task with
    | some t => if b.st = .pending ∧ t.ready ∧ t.core = core then some (t.rq, b.uid) else none
    | none => none)

def State.coreReady (s : State) (core : Nat) : Bool := bit (sget 0 s.host.coreRdy (quadOf core)) (core % Config.coresPerQuad)

/-- The ready core of a quadrant whose ready queue takes a task. DESIGN CHOICE: the shortest queue with room, of the lowest core (notes/assumptions/65.md). -/
def State.pickQueue (s : State) (quad : Nat) : Option Nat :=
  argMin (fun c => (s.queueOf c).length) ((span (48 * quad) 48).filter fun c =>
    s.coreReady c && decide ((s.queueOf c).length < Config.readyEntries))

/-- A task is complete, or its entry has gone. -/
def State.taskDone (s : State) (uid : Nat) : Bool :=
  match s.block? uid with
  | some b => match b.task with
    | some t => t.done
    | none => true
  | none => true

/-- Siblings of lower child index that write a task's read tiles (R298). -/
def State.lowerSibs (s : State) (t : TaskRec) : List Nat :=
  (sortBy (·.1) (s.blocks.filterMap fun b => match b.task with
    | some x => if x.poster = t.poster ∧ x.child < t.child ∧ anyMeet (writeTiles x.desc.toNat) (readTiles t.desc.toNat)
        then some (x.child, b.uid) else none
    | none => none)).map (·.2)

def State.updTask (s : State) (uid : Nat) (f : TaskRec → TaskRec) : State := s.updBlock uid fun b => { b with task := b.task.map f }

/-- TASK_START (R290, R294, R298): the entries a task waits for are complete, and a ready queue takes it. -/
def execTaskStart (uid : Nat) (s : State) : Host.Outcome State Fault Refusal :=
  .next (match s.block? uid with
    | none => s
    | some b => match b.task with
      | none => s
      | some t =>
        let det := (s.rcbOf uid).det
        let ws := if det then s.lowerSibs t else t.waits
        if b.st ≠ .pending ∨ t.ready ∨ !(ws.all s.taskDone) ∨ (det ∧ !(s.ownerSynced t.poster)) then s
        else match s.pickQueue t.quad with
          | none => s
          | some c => { s.updTask uid (fun t => { t with ready := true, core := c, rq := s.seq, waits := ws }) with seq := s.seq + 1 })

/-- Write the bytes of a rename buffer to the tile, one by one as far as pages are present. -/
def renLoop (uid lid c pc : Nat) : List Nat → State → State
  | [], s => s.updTask uid fun t => { t with ren := [], bufset := [] }
  | p :: ps, s =>
    let v := match s.block? uid with
      | some b => match b.task with
        | some t => s.mem.homeNum (t.bufAddr p) 1
        | none => 0
      | none => 0
    let x : Stg := { bk := uid, g := 0, depth := 0, pc := pc, fk := fkOf uid 0 0, ptr := p, n := 1, data := v, mask := 1, red := none,
                     scope := 4, pol := 0, inh := false, orig := [], sq := 0, old := false }
    match s.mergeOne lid c x with
    | .done s => renLoop uid lid c pc ps (s.updTask uid fun t => { t with bufset := sset false t.bufset p false })
    | .wait s => s

/-- RENAME_WRITEBACK (R295): the task's block has retired and every entry its renamed tiles overlap is complete. -/
def execRenameWriteback (uid : Nat) (s : State) : Host.Outcome State Fault Refusal :=
  .next (match s.block? uid with
    | none => s
    | some b => match b.task with
      | none => s
      | some t =>
        if b.st ≠ .retired ∨ t.ren = [] ∨ !(t.olds.all s.taskDone) then s
        else
          let dr := s.draw
          renLoop uid b.lid (s.ctxOf uid) (Config.openDetail dr.1).toNat (t.bufset.map (·.1)) dr.2)

/-- TASK_COMPLETE (R292): the block has retired and its renamed tiles are written; DONE advances, but not for a task that a fault ended. -/
def execTaskComplete (uid : Nat) (s : State) : Host.Outcome State Fault Refusal :=
  .next (match s.block? uid with
    | none => s
    | some b => match b.task with
      | none => s
      | some t =>
        if b.st ≠ .retired ∨ t.done ∨ t.ren ≠ [] then s
        else
          let fin := fun (s : State) => (s.updTask uid TaskRec.finish).settle t.poster
          if b.fault.isSome then fin s
          else match s.tlAdvance (s.ctxOf uid) (bits t.desc.toNat 128 64) with
            | (true, s) => fin s
            | (false, s) => s)

/-- The newest entries of a queue go to another core, behind what it holds. -/
def moveTasks (core : Nat) : List Nat → State → State
  | [], s => s
  | uid :: us, s => moveTasks core us { s.updTask uid (fun t => { t with core := core, rq := s.seq }) with seq := s.seq + 1 }

/-- The exchanges of a quadrant take place at this core clock. -/
def State.balances (s : State) (quad : Nat) : Bool := s.clockOn quad % 4096 == 0

/-- QUEUE_BALANCE (R290), every 4,096 core clocks: cores `idx` and its successor of a quadrant. -/
def execQueueBalance (quad idx : Nat) (s : State) : Host.Outcome State Fault Refusal :=
  let a := 48 * quad + idx % 48
  let b := 48 * quad + (idx + 1) % 48
  let qa := (s.queueOf a).map (·.2)
  let qb := (s.queueOf b).map (·.2)
  .next (if !(s.balances quad && s.coreReady a && s.coreReady b) then s
    else if qb.length + 8 < qa.length then moveTasks b (qa.drop (qa.length - (qa.length - qb.length) / 2)) s
    else if qa.length + 8 < qb.length then moveTasks a (qb.drop (qb.length - (qb.length - qa.length) / 2)) s
    else s)

/-! ### await (R307) -/

/-- await: the record names a timeline and a threshold; the fibre waits as at `tlwait`. -/
def execAwait (f : Eng) (s : State) : Host.Outcome State Fault Refusal :=
  .next (runUnits s f.g
    (fun s u => (planRec s u .none f.a 16 16).bind fun w =>
      let r := s.wnum u.bk (winGrp w) (winOff w) 16
      let p := bits r 0 64
      match s.tlCheck (s.ctxOf u.bk) p with
      | .fault c det => .fault c det
      | .wait => .stall
      | .ok t => if s.linkDown t then .fault .ac p else if s.ownPending u.rep t p 8 then .stall else .go (p, bits r 64 64, t)
      | _ => .go (p, 0, .none))
    (fun st u a => match a.2.2 with
      | .none => (st.setStat u.rep (.page a.1)).request (st.ctxOf u.bk) a.1
      | t => st.tlPark u.rep t a.2.1 true))

end Sys2Proof.Machine
end

