-- ==== Sys2Proof/Machine/Dispatch.lean ====
section
/-!
DEFINITION. The meaning of every instruction and event: one arm per constructor of `Instr`, each one call.
-/
namespace Sys2Proof.Machine

def exec (i : Instr) (s : State) : Host.Outcome State Fault Refusal :=
  match i with
  | .add f => Sys2Proof.Machine.execAdd f s
  | .addi f => Sys2Proof.Machine.execAddi f s
  | .sub f => Sys2Proof.Machine.execSub f s
  | .adds f dif => Sys2Proof.Machine.execAdds f dif s
  | .mul f => Sys2Proof.Machine.execMul f s
  | .mulhi f => Sys2Proof.Machine.execMulhi f s
  | .mulw f => Sys2Proof.Machine.execMulw f s
  | .mad f => Sys2Proof.Machine.execMad f s
  | .div f => Sys2Proof.Machine.execDiv f s
  | .rem f => Sys2Proof.Machine.execRem f s
  | .min f => Sys2Proof.Machine.execMin f s
  | .max f => Sys2Proof.Machine.execMax f s
  | .abs f => Sys2Proof.Machine.execAbs f s
  | .and f => Sys2Proof.Machine.execAnd f s
  | .or f => Sys2Proof.Machine.execOr f s
  | .xor f => Sys2Proof.Machine.execXor f s
  | .not f => Sys2Proof.Machine.execNot f s
  | .andi f => Sys2Proof.Machine.execAndi f s
  | .ori f => Sys2Proof.Machine.execOri f s
  | .xori f => Sys2Proof.Machine.execXori f s
  | .shl f => Sys2Proof.Machine.execShl f s
  | .shr f => Sys2Proof.Machine.execShr f s
  | .shli f => Sys2Proof.Machine.execShli f s
  | .shri f => Sys2Proof.Machine.execShri f s
  | .rot f right => Sys2Proof.Machine.execRot f right s
  | .bfx f => Sys2Proof.Machine.execBfx f s
  | .bfi f => Sys2Proof.Machine.execBfi f s
  | .popc f => Sys2Proof.Machine.execPopc f s
  | .clz f => Sys2Proof.Machine.execClz f s
  | .brev f => Sys2Proof.Machine.execBrev f s
  | .cmp f => Sys2Proof.Machine.execCmp f s
  | .cmpi f => Sys2Proof.Machine.execCmpi f s
  | .plog f => Sys2Proof.Machine.execPlog f s
  | .sel f => Sys2Proof.Machine.execSel f s
  | .movi f => Sys2Proof.Machine.execMovi f s
  | .lea f k => Sys2Proof.Machine.execLea f k s
  | .ext f e => Sys2Proof.Machine.execExt f e s
  | .bsel f => Sys2Proof.Machine.execBsel f s
  | .fadd f rm => Sys2Proof.Machine.execFadd f rm s
  | .fsub f rm => Sys2Proof.Machine.execFsub f rm s
  | .fmul f rm => Sys2Proof.Machine.execFmul f rm s
  | .fma f => Sys2Proof.Machine.execFma f s
  | .fmin f => Sys2Proof.Machine.execFmin f s
  | .fmax f => Sys2Proof.Machine.execFmax f s
  | .fabs f => Sys2Proof.Machine.execFabs f s
  | .fneg f => Sys2Proof.Machine.execFneg f s
  | .fdiv f rm => Sys2Proof.Machine.execFdiv f rm s
  | .fsqrt f rm => Sys2Proof.Machine.execFsqrt f rm s
  | .frcp f => Sys2Proof.Machine.execFrcp f s
  | .frsq f => Sys2Proof.Machine.execFrsq f s
  | .fexp2 f => Sys2Proof.Machine.execFexp2 f s
  | .flog2 f => Sys2Proof.Machine.execFlog2 f s
  | .fcmp f => Sys2Proof.Machine.execFcmp f s
  | .fclass f => Sys2Proof.Machine.execFclass f s
  | .frnd f rm => Sys2Proof.Machine.execFrnd f rm s
  | .fdot2 f => Sys2Proof.Machine.execFdot2 f s
  | .fstatRd f => Sys2Proof.Machine.execFstatRd f s
  | .fstatClr f => Sys2Proof.Machine.execFstatClr f s
  | .cvt f => Sys2Proof.Machine.execCvt f s
  | .cvt2 f rm => Sys2Proof.Machine.execCvt2 f rm s
  | .qds8 f k => Sys2Proof.Machine.execQds8 f k s
  | .dqds8 f k rm => Sys2Proof.Machine.execDqds8 f k rm s
  | .escale f k => Sys2Proof.Machine.execEscale f k s
  | .rand f => Sys2Proof.Machine.execRand f s
  | .allot g m => Sys2Proof.Machine.execAllot g m s
  | .shrink g m => Sys2Proof.Machine.execShrink g m s
  | .ldw f => Sys2Proof.Machine.execLdw f s
  | .stw f => Sys2Proof.Machine.execStw f s
  | .ldi g d a b ty => Sys2Proof.Machine.execLdi g d a b ty s
  | .sti g d a b ty => Sys2Proof.Machine.execSti g d a b ty s
  | .mov f => Sys2Proof.Machine.execMov f s
  | .perm g d a b => Sys2Proof.Machine.execPerm g d a b s
  | .bcast g d a b ty => Sys2Proof.Machine.execBcast g d a b ty s
  | .shfl g d a b mode => Sys2Proof.Machine.execShfl g d a b mode s
  | .vote g d a mode => Sys2Proof.Machine.execVote g d a mode s
  | .redux g d a op ty rm => Sys2Proof.Machine.execRedux g d a op ty rm s
  | .ld f => Sys2Proof.Machine.execLd f s
  | .st f => Sys2Proof.Machine.execSt f s
  | .stz f => Sys2Proof.Machine.execStz f s
  | .prefetch f => Sys2Proof.Machine.execPrefetch f s
  | .cwb f => Sys2Proof.Machine.execCwb f s
  | .ldt f => Sys2Proof.Machine.execLdt f s
  | .stt f => Sys2Proof.Machine.execStt f s
  | .iinv f => Sys2Proof.Machine.execIinv f s
  | .ifence g => Sys2Proof.Machine.execIfence g s
  | .atom f => Sys2Proof.Machine.execAtom f s
  | .red f => Sys2Proof.Machine.execRed f s
  | .fence g scope => Sys2Proof.Machine.execFence g scope s
  | .wait g ld st cp tl => Sys2Proof.Machine.execWait g ld st cp tl s
  | .rtake f => Sys2Proof.Machine.execRtake f s
  | .rhead f => Sys2Proof.Machine.execRhead f s
  | .tlset f => Sys2Proof.Machine.execTlset f s
  | .tladd f => Sys2Proof.Machine.execTladd f s
  | .tlwait f => Sys2Proof.Machine.execTlwait f s
  | .br g t => Sys2Proof.Machine.execBr g t s
  | .call g t => Sys2Proof.Machine.execCall g t s
  | .callInd g a => Sys2Proof.Machine.execCallInd g a s
  | .ret g => Sys2Proof.Machine.execRet g s
  | .jmpi g a => Sys2Proof.Machine.execJmpi g a s
  | .exit g => Sys2Proof.Machine.execExit g s
  | .fspawn g d t => Sys2Proof.Machine.execFspawn g d t s
  | .fend g => Sys2Proof.Machine.execFend g s
  | .fsort g d a b => Sys2Proof.Machine.execFsort g d a b s
  | .bar g => Sys2Proof.Machine.execBar g s
  | .barCl g => Sys2Proof.Machine.execBarCl g s
  | .yield g => Sys2Proof.Machine.execYield g s
  | .nop g => Sys2Proof.Machine.execNop g s
  | .lfetch f => Sys2Proof.Machine.execLfetch f s
  | .lcast f => Sys2Proof.Machine.execLcast f s
  | .lput f => Sys2Proof.Machine.execLput f s
  | .lcopy f => Sys2Proof.Machine.execLcopy f s
  | .lpermit f => Sys2Proof.Machine.execLpermit f s
  | .gmma f => Sys2Proof.Machine.execGmma f s
  | .gdrain f => Sys2Proof.Machine.execGdrain f s
  | .gload f => Sys2Proof.Machine.execGload f s
  | .gzero f => Sys2Proof.Machine.execGzero f s
  | .gsave f => Sys2Proof.Machine.execGsave f s
  | .gresume f => Sys2Proof.Machine.execGresume f s
  | .gstat f => Sys2Proof.Machine.execGstat f s
  | .cload f => Sys2Proof.Machine.execCload f s
  | .cstore f => Sys2Proof.Machine.execCstore f s
  | .cseed f => Sys2Proof.Machine.execCseed f s
  | .ctab f => Sys2Proof.Machine.execCtab f s
  | .cinfer g d a mask => Sys2Proof.Machine.execCinfer g d a mask s
  | .cvote g d a mask => Sys2Proof.Machine.execCvote g d a mask s
  | .ctrain g a b mask set sall => Sys2Proof.Machine.execCtrain g a b mask set sall s
  | .cfb g a b set k two => Sys2Proof.Machine.execCfb g a b set k two s
  | .ensure g t d => Sys2Proof.Machine.execEnsure g t d s
  | .accept g a => Sys2Proof.Machine.execAccept g a s
  | .elseby g t => Sys2Proof.Machine.execElseby g t s
  | .elseerr g => Sys2Proof.Machine.execElseerr g s
  | .jtest g => Sys2Proof.Machine.execJtest g s
  | .cjoin f => Sys2Proof.Machine.execCjoin f s
  | .frq g d => Sys2Proof.Machine.execFrq g d s
  | .tkpost f => Sys2Proof.Machine.execTkpost f s
  | .launch g d a => Sys2Proof.Machine.execLaunch g d a s
  | .dsync g => Sys2Proof.Machine.execDsync g s
  | .await f => Sys2Proof.Machine.execAwait f s
  | .msend f => Sys2Proof.Machine.execMsend f s
  | .mrecv f => Sys2Proof.Machine.execMrecv f s
  | .mpoll f => Sys2Proof.Machine.execMpoll f s
  | .pverInc g d => Sys2Proof.Machine.execPverInc g d s
  | .pverRd g d => Sys2Proof.Machine.execPverRd g d s
  | .trap g imm => Sys2Proof.Machine.execTrap g imm s
  | .srd g d sel => Sys2Proof.Machine.execSrd g d sel s
  | .swr g a sel => Sys2Proof.Machine.execSwr g a sel s
  | .ctxq g d a b => Sys2Proof.Machine.execCtxq g d a b s
  | .hostLaunch ctx => Sys2Proof.Machine.execHostLaunch ctx s
  | .translationInvalidate ctx => Sys2Proof.Machine.execTranslationInvalidate ctx s
  | .unpin ctx => Sys2Proof.Machine.execUnpin ctx s
  | .resume ctx => Sys2Proof.Machine.execResume ctx s
  | .cancel ctx => Sys2Proof.Machine.execCancel ctx s
  | .episodeStart ctx => Sys2Proof.Machine.execEpisodeStart ctx s
  | .episodeKill ctx => Sys2Proof.Machine.execEpisodeKill ctx s
  | .collective ctx => Sys2Proof.Machine.execCollective ctx s
  | .registerWrite fn win off val => Sys2Proof.Machine.execRegisterWrite fn win off val s
  | .erbStatusClear unit val => Sys2Proof.Machine.execErbStatusClear unit val s
  | .dramcActstatClear stack val => Sys2Proof.Machine.execDramcActstatClear stack val s
  | .evqLostClear fn ctx q val => Sys2Proof.Machine.execEvqLostClear fn ctx q val s
  | .onyxAlarmClear val => Sys2Proof.Machine.execOnyxAlarmClear val s
  | .tureenSlcfgWrite slice val => Sys2Proof.Machine.execTureenSlcfgWrite slice val s
  | .coreDccfgWrite core val => Sys2Proof.Machine.execCoreDccfgWrite core val s
  | .berylEnvcfgWrite val => Sys2Proof.Machine.execBerylEnvcfgWrite val s
  | .cqTailWrite fn ctx q val => Sys2Proof.Machine.execCqTailWrite fn ctx q val s
  | .attestation nonce => Sys2Proof.Machine.execAttestation nonce s
  | .imageLoad kind ecdsaOk lmsOk hash codes => Sys2Proof.Machine.execImageLoad kind ecdsaOk lmsOk hash codes s
  | .hostRead fn ctx ptr n => Sys2Proof.Machine.execHostRead fn ctx ptr n s
  | .hostWrite fn ctx ptr bytes => Sys2Proof.Machine.execHostWrite fn ctx ptr bytes s
  | .peerWrite port pa bytes => Sys2Proof.Machine.execPeerWrite port pa bytes s
  | .pageMapped ctx va => Sys2Proof.Machine.execPageMapped ctx va s
  | .pageInvalid ctx va => Sys2Proof.Machine.execPageInvalid ctx va s
  | .sideLogEntryFree core => Sys2Proof.Machine.execSideLogEntryFree core s
  | .blockPlace uid first => Sys2Proof.Machine.execBlockPlace uid first s
  | .placementDone uid => Sys2Proof.Machine.execPlacementDone uid s
  | .preempt uid => Sys2Proof.Machine.execPreempt uid s
  | .awaitSave uid => Sys2Proof.Machine.execAwaitSave uid s
  | .blockRetire uid => Sys2Proof.Machine.execBlockRetire uid s
  | .blockFreeze uid => Sys2Proof.Machine.execBlockFreeze uid s
  | .cpCancel uid => Sys2Proof.Machine.execCpCancel uid s
  | .faultReportAfterIssue uid => Sys2Proof.Machine.execFaultReportAfterIssue uid s
  | .launchEnd lid => Sys2Proof.Machine.execLaunchEnd lid s
  | .taskStart uid => Sys2Proof.Machine.execTaskStart uid s
  | .taskComplete uid => Sys2Proof.Machine.execTaskComplete uid s
  | .renameWriteback uid => Sys2Proof.Machine.execRenameWriteback uid s
  | .queueBalance quad idx => Sys2Proof.Machine.execQueueBalance quad idx s
  | .allotGrant core => Sys2Proof.Machine.execAllotGrant core s
  | .shrinkRelease uid grp => Sys2Proof.Machine.execShrinkRelease uid grp s
  | .barrierTimeout uid => Sys2Proof.Machine.execBarrierTimeout uid s
  | .cycleLimitExpiry uid => Sys2Proof.Machine.execCycleLimitExpiry uid s
  | .cycbudExpiry uid => Sys2Proof.Machine.execCycbudExpiry uid s
  | .demotionEnd k => Sys2Proof.Machine.execDemotionEnd k s
  | .reconvergenceTimeout k => Sys2Proof.Machine.execReconvergenceTimeout k s
  | .bundleMerge k j => Sys2Proof.Machine.execBundleMerge k j s
  | .starvationPromotion k => Sys2Proof.Machine.execStarvationPromotion k s
  | .ladleDelivery cmd core => Sys2Proof.Machine.execLadleDelivery cmd core s
  | .ladleComplete cmd => Sys2Proof.Machine.execLadleComplete cmd s
  | .griddleOpStart cmd => Sys2Proof.Machine.execGriddleOpStart cmd s
  | .griddleOpComplete cmd => Sys2Proof.Machine.execGriddleOpComplete cmd s
  | .jasperOpApply core => Sys2Proof.Machine.execJasperOpApply core s
  | .silentError uid src addr synd => Sys2Proof.Machine.execSilentError uid src addr synd s
  | .frameFail uid => Sys2Proof.Machine.execFrameFail uid s
  | .convVoteApply uid => Sys2Proof.Machine.execConvVoteApply uid s
  | .convNotice uid => Sys2Proof.Machine.execConvNotice uid s
  | .vtoExpiry pa => Sys2Proof.Machine.execVtoExpiry pa s
  | .msendApply op => Sys2Proof.Machine.execMsendApply op s
  | .mrecvDelivery op lane => Sys2Proof.Machine.execMrecvDelivery op lane s
  | .bmbTake mbx => Sys2Proof.Machine.execBmbTake mbx s
  | .bmbGive mbx val hdr payload => Sys2Proof.Machine.execBmbGive mbx val hdr payload s
  | .episodeRecordWrite mbx rec => Sys2Proof.Machine.execEpisodeRecordWrite mbx rec s
  | .episodeViolation mbx src addr synd => Sys2Proof.Machine.execEpisodeViolation mbx src addr synd s
  | .watchdogExpiry mbx cycles => Sys2Proof.Machine.execWatchdogExpiry mbx cycles s
  | .episodeCycbudIdle mbx cycles => Sys2Proof.Machine.execEpisodeCycbudIdle mbx cycles s
  | .episodeStop mbx => Sys2Proof.Machine.execEpisodeStop mbx s
  | .rowAlert stack bank => Sys2Proof.Machine.execRowAlert stack bank s
  | .backoffEnd stack bank clocks => Sys2Proof.Machine.execBackoffEnd stack bank clocks s
  | .flitReplay port sq crc => Sys2Proof.Machine.execFlitReplay port sq crc s
  | .linkRetrain port ok => Sys2Proof.Machine.execLinkRetrain port ok s
  | .verificationFailure => Sys2Proof.Machine.execVerificationFailure s
  | .glitch => Sys2Proof.Machine.execGlitch s
  | .tamperBreach => Sys2Proof.Machine.execTamperBreach s
  | .functionReady bit cores => Sys2Proof.Machine.execFunctionReady bit cores s
  | .stackTrainingFail stack => Sys2Proof.Machine.execStackTrainingFail stack s
  | .deviceReset => Sys2Proof.Machine.execDeviceReset s
  | .thermalThrottle die temp => Sys2Proof.Machine.execThermalThrottle die temp s
  | .accessPerformed op lane => Sys2Proof.Machine.execAccessPerformed op lane s
  | .loadReturned op lane => Sys2Proof.Machine.execLoadReturned op lane s
  | .writeCompletionTimePassed op => Sys2Proof.Machine.execWriteCompletionTimePassed op s
  | .policyVersionApply op => Sys2Proof.Machine.execPolicyVersionApply op s
  | .peerRead port pa n => Sys2Proof.Machine.execPeerRead port pa n s
  | .collectiveComplete id reachable contribs => Sys2Proof.Machine.execCollectiveComplete id reachable contribs s
  | .contextCreation ctx => Sys2Proof.Machine.execContextCreation ctx s

end Sys2Proof.Machine
end

