-- ==== Sys2Proof/Machine/Whisk.lean ====
section
/-!
DEFINITION. One step: the Whisk fetches and issues a bundle's word (R35, R261, R277), or an event happens; and what the device does of its
own accord when the agenda names nothing.
-/
namespace Sys2Proof.Machine

/-- Go on from a next state. -/
def onNext (f : State → State) : Host.Outcome State Fault Refusal → Host.Outcome State Fault Refusal
  | .next s => .next (f s)
  | .fault r => .fault r
  | .refused r => .refused r

/-! ### Fetch -/

def State.coreOf (s : State) (fk : Nat) : Nat := (s.group (fkBk fk) (fkG fk)).core

/-- The word a fibre finds at an address: one it holds fetched ahead, or a fetch (R277). -/
def State.wordFor (s : State) (fk : Nat) (f : Fibre) (p : Nat) : Fetch :=
  match f.ahead.find? fun x => x.1 == p with
  | some x => .word x.2
  | none => s.fetchWord (fkBk fk) (s.coreOf fk) p

def State.wordAt (s : State) (fk : Nat) : Fetch :=
  match s.fib fk with
  | some f => s.wordFor fk f f.pc
  | none => .wait

/-- The line of a fetch is filled unless the word was held fetched ahead. -/
def State.fillFor (s : State) (fk : Nat) (f : Fibre) (p : Nat) : State :=
  if f.ahead.any fun x => x.1 == p then s else s.fillIcache (fkBk fk) (s.coreOf fk) p

/-- A fibre keeps the words of its block fetched ahead of it, and fetches some more (R277). -/
def State.lookAhead (s : State) (fk : Nat) : State :=
  match s.fib fk with
  | none => s
  | some f =>
    let ps := (span 1 (min s.ch.ahead (f.left - 1))).map fun i => f.pc + 8 * i
    let got := ps.filterMap fun p => match s.wordFor fk f p with
      | .word w => some (p, w)
      | _ => none
    let keep := f.ahead.filter fun x => decide (f.pc < x.1) && !(got.any fun y => y.1 == x.1)
    let s := got.foldl (fun s x => s.fillFor fk f x.1) s
    if f.ahead.isEmpty && got.isEmpty then s else s.putFib fk { f with ahead := got ++ keep }

/-! ### Issue -/

/-- The effect of a word for the fibres of `cur` (R35): faults of the word are raised for every one of them. -/
def execWord (w : Nat) (s : State) : Host.Outcome State Fault Refusal :=
  match decode w with
  | .ok i => exec i s
  | .illegal => .next (s.byGroup.foldl (fun st fk => st.openFault (fkBk fk) fk .il s.ipc) s)
  | .header => .next (s.byGroup.foldl (fun st fk => st.openFault (fkBk fk) fk .hd s.ipc) s)

/-- The spin detector (R265), after an issue: whether the bundle changed something since its last one, and whether it took a backward branch that it
has executed since its last change. -/
def State.watch (s s0 : State) (k : Nat) : State :=
  let preds := fun (s : State) (fk : Nat) => (s.fib fk).map Fibre.preds
  let wrote := !(decide (s.rs.vregs = s0.rs.vregs) && decide (s.rs.uregs = s0.rs.uregs)) || s0.cur.any fun fk => preds s fk != preds s0 fk
  let back := s0.cur.any fun fk => match s.fib fk with
    | some f => f.left == 68 && decide (f.pc ≤ s0.ipc)
    | none => false
  s.updBundle k fun b =>
    let seen := if b.changed || wrote then [] else b.back
    if back then { b with
      back := if seen.contains s0.ipc then seen else s0.ipc :: seen, changed := false
      demoted := if seen.contains s0.ipc then some (s.bundleClock b) else b.demoted }
    else { b with back := seen, changed := false }

/-- Note an issue of bundle `k` (R261, R265, R332). -/
def State.noteIssue (s : State) (k : Nat) (fibs : List Nat) : State :=
  let core := s.coreOf (fibs.headD 0)
  let now := s.clockAt core
  fibs.foldl (fun s fk => s.updFib fk fun f => { f with last := now })
    (({ s with turn := core } : State).updBundle k fun b => { b with last := now, promoted := false, demoted := none, yielded := false })

/-- The state in which the word of bundle `k` acts for the fibres `cur` (R277). -/
def State.atIssue (s : State) (k pc : Nat) (cur : List Nat) : State :=
  let s := cur.foldl State.lookAhead (s.noteIssue k cur)
  let s := match cur with
    | [] => s
    | fk :: _ => match s.fib fk with
      | some f => s.fillFor fk f pc
      | none => s
  { s with cur := cur, ipc := pc }

/-- A fetch that faults (R277). -/
def State.fetchFault (s : State) (fk : Nat) (c : FClass) (pc det : Nat) : State :=
  s.takeFault (fkBk fk) { code := c.code, pc := pc, det := det, grp := fkG fk, lane := fkL fk }

/-- The word that a fibre finds at its PC. -/
def State.heldWord (s : State) (fk : Nat) : Option Nat :=
  match s.wordAt fk with
  | .word w => some w
  | _ => none

/-- A fibre that finds no word takes its fault or parks (R71, R72, R277). -/
def State.fetchOne (s : State) (fk pc : Nat) : State :=
  match s.wordAt fk with
  | .fault c det => s.fetchFault fk c pc det
  | .absent => s.parkFetch fk pc
  | _ => s

/-- The Whisk issues bundle `k`: its fibres enter the header they stand at (R32, R34), or execute the word at their PC. A held bundle does not
issue (R263), nor one of a block that has a report to take first (R333), nor one that another comes before (R261). The fibres that find one word execute it together, those that hold it fetched
ahead among them; where none finds a word each takes what its own fetch gives. -/
def issue (k : Nat) (s : State) : Host.Outcome State Fault Refusal :=
  match s.bundles[k]? with
  | none => .next s
  | some b =>
    match s.fib (b.fibs.headD 0) with
    | none => .next s
    | some f =>
      if !(s.mayIssue k b) then .next s
      else if f.atHeader then .next ((sortBy id b.fibs).foldl State.enterOne (s.noteIssue k b.fibs))
      else match b.fibs.findSome? s.heldWord with
        | none => .next ((sortBy id b.fibs).foldl (fun s fk => s.fetchOne fk f.pc) s)
        | some w =>
          let s0 := s.atIssue k f.pc (b.fibs.filter fun fk => s.wordAt fk == .word w)
          onNext (fun s => s.watch s0 k) (execWord w s0)

/-- What an agenda entry names. -/
def execAct (a : Act) (s : State) : Host.Outcome State Fault Refusal :=
  match a with
  | .ev i => exec i s
  | .issue k => issue k s

/-- The start of a step: its ticks pass, its choices hold, and storage does what the entry says. -/
def State.start (s : State) (e : Entry) : State :=
  e.mis.foldl State.mishap
    { s with tick := s.tick + e.dt, turn := if e.dt = 0 then s.turn else 0, ch := { old := e.old, drop := e.drop, ahead := e.ahead, late := e.late },
             cur := [], ipc := 0 }

/-- The end of a step. -/
def State.finish (s : State) : State := { s.rebundle with cur := [], ipc := 0 }

/-! ### The device's own order -/

/-- Work of the device that may be due, in the order in which it is tried; an event whose time has not come changes nothing. -/
def State.due (s : State) : List Instr :=
  let uids := s.blocks.map Block.uid
  let cores := (s.blocks.flatMap Block.cores).dedup
  let onUid := fun (f : Nat → Instr) => uids.map f
  let opLanes := fun (f : Nat → Nat → Instr) => s.ops.flatMap fun o => (span 0 o.lanes.length).map fun k => f o.id k
  let onOps := fun (f : Nat → Instr) => s.ops.map fun o => f o.id
  let onCmds := fun (f : Nat → Instr) => s.cmds.map fun c => f c.id
  let onCores := fun (f : Nat → Instr) => cores.map f
  let ctxs := s.host.ctxs.map (·.1)
  let onCtx := fun (f : Nat → Instr) => ctxs.map f
  onUid .faultReportAfterIssue ++ onUid .frameFail ++ onUid .blockFreeze ++ onUid .cpCancel ++
  onUid .cycleLimitExpiry ++ onUid .cycbudExpiry ++ onUid .barrierTimeout ++
  opLanes .accessPerformed ++ opLanes .loadReturned ++ onOps .msendApply ++ opLanes .mrecvDelivery ++ onOps .policyVersionApply ++
  onOps .writeCompletionTimePassed ++
  onCmds .griddleOpStart ++ onCmds .griddleOpComplete ++ (s.cmds.flatMap fun c => cores.map fun k => .ladleDelivery c.id k) ++
  onCmds .ladleComplete ++ onCores .jasperOpApply ++
  onCores .sideLogEntryFree ++ onCores .allotGrant ++ (s.blocks.flatMap fun b => (span 0 b.ngrp).map fun g => .shrinkRelease b.uid g) ++
  onUid .convVoteApply ++ onUid .convNotice ++ s.hub.convs.map (fun c => .vtoExpiry c.1) ++
  onUid .taskComplete ++ onUid .renameWriteback ++ onUid .placementDone ++ onUid .blockRetire ++ s.launches.map (fun l => .launchEnd l.lid) ++
  onUid .taskStart ++ onUid .preempt ++
  ((if s.blocks.any fun b => b.task.isSome then (span 0 4).filter s.balances else []).flatMap fun q => (span 0 48).map (.queueBalance q)) ++
  onCtx .hostLaunch ++ onCtx .translationInvalidate ++ onCtx .unpin ++ onCtx .resume ++ onCtx .cancel ++ onCtx .episodeStart ++
  onCtx .episodeKill ++ onCtx .collective ++
  (span 0 s.bundles.length).flatMap fun k => [.demotionEnd k, .reconvergenceTimeout k, .starvationPromotion k]

/-- Placing is tried every 16 clocks, and when nothing else is due: each waiting block at each core. -/
def State.places (s : State) : List Instr :=
  let keys := (s.launches.map fun l => 2 ^ 48 + l.lid) ++
    (s.blocks.filter fun b => b.st == .saved || b.st == .pending).map Block.uid
  keys.flatMap fun k => (span 0 Config.cores).map fun c => .blockPlace k c

/-- The result of an event that changes the state. -/
def State.tryEvent (s : State) (i : Instr) : Option State :=
  match exec i s with
  | .next t => if t = s then none else some t
  | _ => none

/-- The bundles in the order in which the Whisk takes them. -/
def State.bundleOrder (s : State) : List Nat :=
  sortBy (fun k => match s.bundles[k]? with | none => 0 | some b => s.bundleRank b) (span 0 s.bundles.length)

/-- The bundle's issue moved a fibre of it, or stopped its block. -/
def State.movedBy (s : State) (k : Nat) (t : State) : Bool :=
  match s.bundles[k]? with
  | none => false
  | some b => b.fibs.any fun fk => !(t.issuable fk) || match s.fib fk, t.fib fk with
    | some f, some f' => !(f.pc == f'.pc && f.left == f'.left && f.stat == f'.stat)
    | _, _ => true

def State.tryIssue (s : State) (k : Nat) : Option State :=
  match issue k s with
  | .next t => if s.movedBy k t then some t else none
  | _ => none

/-- The first bundle of an order that issues; those before it, whose words wait, are not ready. -/
def State.issueFirst (s : State) : List Nat → List Nat → Option State
  | [], _ => none
  | k :: ks, late => match ({ s with ch := { s.ch with late := late } } : State).tryIssue k with
    | some t => some t
    | none => s.issueFirst ks (k :: late)

/-- A merge is taken every 4 clocks, of two bundles whose home lanes are disjoint (R261). -/
def State.tryMerge (s : State) : Option State :=
  if s.tick % 4 ≠ 0 then none
  else
    let n := s.bundles.length
    let ok := fun (p : Nat × Nat) => match s.bundles[p.1]?, s.bundles[p.2]? with
      | some a, some b => s.mergeable a b && !(a.fibs.any fun x => b.fibs.any fun y => fkL x == fkL y)
      | _, _ => false
    match ((span 0 n).flatMap fun k => (span (k + 1) (n - k - 1)).map fun j => (k, j)).find? ok with
    | some p => s.tryEvent (.bundleMerge p.1 p.2)
    | none => none

/-- With nothing named, the device does the first thing that is due; else it issues a bundle; else a tick passes. -/
def State.own (s : State) : State :=
  let next : State := { s with tick := s.tick + 1, turn := 0 }
  match (s.due ++ if s.tick % 16 = 0 then s.places else []).findSome? s.tryEvent with
  | some t => t
  | none => match s.tryMerge with
    | some t => t
    | none => match next.issueFirst s.bundleOrder [] with
      | some t => t
      | none => match (s.places ++ s.blocks.map fun b => Instr.awaitSave b.uid).findSome? s.tryEvent with
        | some t => t
        | none => next

end Sys2Proof.Machine
end

