-- ==== Sys2Proof/Machine/Step.lean ====
section
/-!
DEFINITION. One step of the device, and the placing of one instruction word where the step fetches it.
-/
namespace Sys2Proof.Machine

/-- One step: the head of the agenda, or what the device does of its own accord. -/
def step (s : State) : Host.Outcome State Fault Refusal :=
  match s.agenda with
  | [] => .next ({ s with cur := [], ipc := 0, ch := { old := false, drop := false, ahead := 0, late := [] } } : State).own.finish
  | e :: es => onNext State.finish (execAct e.act (({ s with agenda := es } : State).start e))

/-- The address at which `withFetchWord` places its word; virtual and physical. -/
def placedAt : Nat := 0x10000

/-- The one fibre of the placed program, inside a block of 64 words. -/
def placedFibre : Fibre :=
  { pc := placedAt, left := 64, preds := 0, stack := [], stat := .ready, ahead := [], posts := 0, last := 0, rcv := none, livev := 1536, lives := 96,
    chip := 0, spoil := 0, recon := [] }

def placedRcb : Rcb :=
  { Rcb.none with rsbud := 384, cores := 192 }

/-- A launch of one block, as a load from outside leaves it (notes/assumptions/8.md). -/
def placedLaunch : Launch :=
  { lid := 0, ctx := 0, grid := 1, clus := 1, grpm1 := 0, image := placedAt, entry := placedAt, consts := [], allotc := 48, resc := 0,
    done := 0, outs := [], rcb := placedRcb, owner := none, anc := [], next := 1, halt := false, dquads := [], merged := false, tstart := 0,
    fault := none, fblock := 0, ftag := none, status := 0, pver := 0, rings := [], snap := (MemSt.reset, false), jasper := false }

def placedBlock : Block :=
  { uid := 0, lid := 0, idx := 0, path := [], task := none, cores := [0], ngrp := 1, st := .resident, mode := .run,
    groups := [{ Group.none with chunks := span 0 48 }], frames := [], clFirst := [], bto := 0, cyc := 0, clDone := false, since := 0,
    fault := none, held := false, effects := false, replayed := false, stopAt := 0, failDepth := 0, reports := [], saved := none, kids := [],
    tickets := [], synced := false, tag := none }

/-- The state with an instruction stored where the very next step fetches and runs it: a page table that maps the code, one resident block
with one live fibre at the word, and an agenda that issues its bundle. Bits at or above `nbits` are 0. -/
def State.withFetchWord (s : State) (nbits w : Nat) : State :=
  let dram := mwrites (mwrites (mwrites s.mem.dram 0 (bytesOfWord 8 0x2001)) 0x2000 (bytesOfWord 8 0x1F)) placedAt (bytesOfWord 8 (w % 2 ^ nbits))
  { s with
    agenda := [{ dt := 0, old := false, drop := false, ahead := 0, late := [], mis := [], act := .issue 0 }]
    turn := 0
    bundles := [Bundle.form (s.clockAt 0) [] [fkOf 0 0 0]]
    mem := { s.mem with dram := dram }
    rs := { s.rs with fibres := [(fkOf 0 0 0, some placedFibre)] }
    blocks := [placedBlock]
    launches := [placedLaunch]
    host := { s.host with
      ctxs := sset Ctx.reset s.host.ctxs 0 { (s.ctx 0) with made := true, ptroot := 0 }
      hubReady := 2 ^ 64 - 1, coreRdy := sset 0 s.host.coreRdy 0 1 } }

end Sys2Proof.Machine
end

