-- ==== Sys2Proof/Safety.lean ====
section
/-!
DEFINITION. What claims are stated in: a fibre that issues, operands that can be read and written, the state in which an instruction
leaves its results, and what bundles must satisfy in a sound state.
-/
namespace Sys2Proof.Machine

/-! ### Issue -/

/-- The fibre `fk`, live as `f`, is the bundle that issues, and the guard holds for it (R10, R261). -/
structure Issues (s : State) (g : Guard) (fk : Nat) (f : Fibre) : Prop where
  cur : s.cur = [fk]
  fib : s.fib fk = some f
  holds : (f.pred g.gp != g.gn) = true

/-- The fibre as the unit of an instruction. -/
def only (fk : Nat) : WUnit := { rep := fk, mem := [fk] }

/-- Who writes for the instruction that issues. -/
def State.who (s : State) (fk : Nat) : Who := { pc := s.ipc, fk := fk }

/-- The fibre's block is resident and runs, has its group, and no frame of it is open. -/
structure Calm (s : State) (fk : Nat) (b : Block) : Prop where
  block : s.block? (fkBk fk) = some b
  runs : b.running = true
  frames : b.frames = []
  group : fkG fk < b.groups.length

/-- The fibre of a running block issues a collective word that every other live fibre of the block has reached at the same PC (R126). -/
structure LastToArrive (s : State) (g : Guard) (fk : Nat) (x : Fibre) (b : Block) (i : Instr) : Prop where
  cur : s.cur = [fk]
  fib : s.fib fk = some x
  pc : x.pc = s.ipc
  block : s.block? (fkBk fk) = some b
  runs : b.running = true
  store : swf none s.rs.fibres = true
  group : fkG fk < b.ngrp
  cores : ∀ c ∈ b.cores, c < Config.cores
  others : ∀ k y, s.fib k = some y → fkBk k = fkBk fk → k ≠ fk →
    y.pc = s.ipc ∧ (y.stat = .coll i true ∨ y.stat = .coll i false)

/-- No frame of the block is open and its live fibres are all of one group. -/
structure OneGroup (s : State) (fk : Nat) (b : Block) : Prop where
  frames : b.frames = []
  group : fkG fk < b.groups.length
  mates : ∀ k y, s.fib k = some y → fkBk k = fkBk fk → fkG k = fkG fk

/-- Every live fibre of a block can issue. -/
def State.allReady (s : State) (bk : Nat) : Prop := ∀ k y, s.fib k = some y → fkBk k = bk → y.stat = .ready

/-- The guard of a fibre that has arrived, or that is about to (R126). -/
def arrives (s : State) (g : Guard) (fk : Nat) (i : Instr) (k : Nat) : Bool :=
  if k = fk then guardHolds s g fk else match s.fib k with
    | some y => y.stat == .coll i true
    | none => false

/-! ### Operands -/

/-- The register number that a vector operand names for a fibre (R16). -/
def regOf (s : State) (fk n : Nat) (ind : Bool) : Nat := if ind then s.vraw (fkBk fk) (fkG fk) n (fkL fk) else n

/-- A lane word of the fibre lies in its allotment, and nothing outstanding will write it (R16, R118). -/
def State.laneFree (s : State) (fk r : Nat) : Bool :=
  decide (r < 1536) && decide (r < s.allot (fkBk fk) (fkG fk)) && !s.waitV fk r (fkL fk)

/-- No poison mark on the fibre's lane word (R63). -/
def State.laneClean (s : State) (fk r : Nat) : Bool := !s.vpois (fkBk fk) (fkG fk) r (fkL fk)

/-- Lane word `l` of a register of the fibre's group can be read by the fibre (R16, R63, R118). -/
def State.wordReady (s : State) (fk r l : Nat) : Bool :=
  decide (r < 1536) && decide (r < s.allot (fkBk fk) (fkG fk)) && !s.waitV fk r l && !s.vpois (fkBk fk) (fkG fk) r l

/-- An operand the instruction may write, or name without reading: in the allotment and owed nothing; an index register is readable and,
for a pair, even (R15, R16). -/
def free (s : State) (fk : Nat) (o : Opnd) (ind wide : Bool) : Bool :=
  match o with
  | .v n =>
    (!ind || (s.laneFree fk n && s.laneClean fk n && !(wide && regOf s fk n true % 2 == 1))) &&
    s.laneFree fk (regOf s fk n ind) && (!wide || s.laneFree fk (regOf s fk n ind + 1))
  | .s n => !s.busyU (fkBk fk) (fkG fk) n
  | .sp _ => true

/-- No poison mark on an operand (R63). -/
def clean (s : State) (fk : Nat) (o : Opnd) (ind wide : Bool) : Bool :=
  match o with
  | .v n => s.laneClean fk (regOf s fk n ind) && (!wide || s.laneClean fk (regOf s fk n ind + 1))
  | .s n => !s.upois (fkBk fk) (fkG fk) n
  | .sp _ => true

/-- An operand that can be read now. -/
def readable (s : State) (fk : Nat) (o : Opnd) (ind wide : Bool) : Bool := free s fk o ind wide && clean s fk o ind wide

/-- The value of an operand (R13, R15, R16): a pair is little-endian, and a 32-bit read of a uniform register or special takes its low half. -/
def value (s : State) (fk : Nat) (o : Opnd) (ind wide : Bool) : Nat :=
  match o with
  | .v n =>
    let r := regOf s fk n ind
    s.vraw (fkBk fk) (fkG fk) r (fkL fk) + if wide then s.vraw (fkBk fk) (fkG fk) (r + 1) (fkL fk) * 2 ^ 32 else 0
  | .s n => if wide then s.uraw (fkBk fk) (fkG fk) n else s.uraw (fkBk fk) (fkG fk) n % 2 ^ 32
  | .sp x => if wide then s.special fk x % 2 ^ 64 else s.special fk x % 2 ^ 32

/-- The state with a result in the operand D (R15): the low word in the named register and the high word in the next, or a whole uniform
register, sign-extended for a signed type of 32 bits or fewer. -/
def put (s : State) (fk : Nat) (o : Opnd) (ind wide : Bool) (ty : Ty) (r : Nat) : State :=
  match o with
  | .v n =>
    let k := regOf s fk n ind
    let lo := s.setV (s.who fk) (fkBk fk) (fkG fk) k (fkL fk) (r % 2 ^ 32)
    if wide then lo.setV (s.who fk) (fkBk fk) (fkG fk) (k + 1) (fkL fk) (r / 2 ^ 32) else lo
  | .s n => s.setU (s.who fk) (fkBk fk) (fkG fk) n
      (if wide then r else if ty.signed then (BitVec.ofInt 64 (BitVec.ofNat 32 r).toInt).toNat else r)
  | .sp _ => s

/-- The state after a computing instruction with result `r` and flags `fl`: D written, flags ORed into the GSW (R139), next word. -/
def gives (s : State) (fk : Nat) (o : Opnd) (ind wide : Bool) (ty : Ty) (r fl : Nat) : State :=
  ((put s fk o ind wide ty r).orGsw (s.who fk) (fkBk fk) (fkG fk) fl).advance fk

/-- The state after an instruction that sets predicate `p`. -/
def givesP (s : State) (fk p : Nat) (b : Bool) : State := (s.setP (s.who fk) fk p b).advance fk

/-- The operands of a two-source form can be used: D of `wd` registers, A of `wa`, B of `wb`. -/
def Bin.ready (s : State) (fk : Nat) (f : Bin) (wd wa wb : Bool) : Bool :=
  free s fk f.d f.id wd && readable s fk f.a f.ia wa && readable s fk f.b f.ib wb
def Un.ready (s : State) (fk : Nat) (f : Un) (wd wa : Bool) : Bool := free s fk f.d f.id wd && readable s fk f.a f.ia wa
def Imm.ready (s : State) (fk : Nat) (f : Imm) : Bool :=
  free s fk f.d f.id f.ty.wide && readable s fk f.a f.ia f.ty.wide
def Tri.ready (s : State) (fk : Nat) (f : Tri) (wd wa wb wc : Bool) : Bool :=
  free s fk f.d false wd && readable s fk f.a false wa && readable s fk f.b false wb && readable s fk f.c false wc

/-- A value of a type as an exact integer, and the pattern of an exact integer at a type's width (R155). -/
def intOf (t : Ty) (x : Nat) : Int := if t.signed then (BitVec.ofNat (8 * t.size) x).toInt else x
def patOf (t : Ty) (x : Int) : Nat := (BitVec.ofInt (8 * t.size) x).toNat

/-! ### Accesses -/

/-- The state after a fault of the issuing fibre. -/
def State.faulted (s : State) (fk : Nat) (c : FClass) (det : Nat) : State :=
  s.takeFault (fkBk fk) { code := c.code, pc := s.ipc, det := det, grp := fkG fk, lane := fkL fk }

/-- The address of format M (R21): base, index register scaled by 2^(SC - 1) when SC is not 0, and displacement in elements, modulo 2^64, or
2^32 for a Tureen or window address. -/
def addr (s : State) (fk : Nat) (wide : Bool) (base : Opnd) (ofs sc n : Nat) : Nat :=
  let idx : Int := if sc = 0 then 0 else (BitVec.ofNat 32 (value s fk (idxOpnd wide base) false false)).toInt * 2 ^ (sc - 1)
  (BitVec.ofInt (if wide then 64 else 32) ((value s fk base false wide : Nat) + idx + (BitVec.ofNat 8 ofs).toInt * n)).toNat

def addrReady (s : State) (fk : Nat) (wide : Bool) (base : Opnd) (sc : Nat) : Bool :=
  readable s fk base false wide && (sc == 0 || readable s fk (idxOpnd wide base) false false)

/-- An operation may be opened: numbers are fresh, the group's counter has room (R242), and no acquiring load of the fibre is out (R240). -/
structure Opens (s : State) (fk : Nat) (c : Cnt) : Prop where
  fresh : ∀ o ∈ s.ops, o.id < s.seq
  room : c ≠ .none → s.cnt (fkBk fk) (fkG fk) c < Config.counterMax
  acq : s.acqWait fk = false

/-- One lane of an operation, as it is issued. -/
def laneOf (fk p : Nat) (t : Tgt) (st : LStat) (src src2 : Nat) : Lane :=
  { fk := fk, ptr := p, tgt := t, st := st, src := src, src2 := src2, dl := 2 ^ fkL fk, val := 0, wct := 0, wct4 := 0 }

/-- The state with a new operation of one lane. -/
def State.issued (s : State) (fk : Nat) (i : MemI) (x : Lane) : State :=
  { s with seq := s.seq + 1, ops := s.ops ++ [{ s.mkOp i (fkBk fk) (fkG fk) s.seq with lanes := [x] }] }

/-- A command of the fibre that enters its engine's queue: an operation of one lane under the counter, the command, and the next word. -/
def State.queued (s : State) (fk : Nat) (k : Cnt) (c : Cmd) : State :=
  let u := s.issued fk (engI k) (engLane fk)
  ({ u with cmds := u.cmds ++ [{ c with id := s.seq + 1, op := s.seq }], seq := s.seq + 2 } : State).advance fk

/-- An engine instruction's record of `n` bytes stands at window address `w`, named by uniform register `a`, and can be read (R112, R394). -/
structure Record (s : State) (fk a n al w : Nat) : Prop where
  reg : readable s fk (.s a) false false = true
  addr : value s fk (.s a) false false = w
  window : s.winCheck (fkBk fk) w n al = none
  quiet : s.recBusy fk w n = false
  marks : s.wpoisAt (fkBk fk) (winGrp w) (winOff w) n = none

/-- The only command under way is `c`, which the running block `b` has issued outside every frame, under the only operation `o`; no fibre of the block
waits. -/
structure Alone (s : State) (c : Cmd) (o : Op) (b : Block) : Prop where
  cmds : s.cmds = [c]
  ops : s.ops = [o]
  op : o.id = c.op
  kind : o.kind = .eng
  owner : o.bk = c.bk
  lanes : o.lanes = [engLane c.fk]
  block : s.block? c.bk = some b
  runs : b.running = true
  frames : b.frames = []
  group : c.g < b.groups.length
  ready : s.allReady c.bk
  own : c.fill = none

/-! ### Memory that engines move -/

/-- A block whose stores go to memory at once and whose loads read it: its region is not deterministic, nothing of it is staged or renamed, and no
reduction range is met (R71, R295, R298, R300). -/
structure Plain (s : State) (bk : Nat) : Prop where
  det : (s.rcbOf bk).det = false
  red : ∀ p, s.redRange bk p = none
  ren : s.renames bk = []
  stages : ∀ y ∈ s.mem.stages, y.bk ≠ bk

/-- The bytes of a list of byte strings, each at its physical address. -/
def covers (l : List (Nat × List Nat)) (a : Nat) : Prop := ∃ x ∈ l, x.1 ≤ a ∧ a < x.1 + x.2.length

/-- The byte at `a` once the byte strings have been written in order. -/
def laid (old : Nat → Nat) (l : List (Nat × List Nat)) (a : Nat) : Nat :=
  l.foldl (fun v x => if x.1 ≤ a ∧ a < x.1 + x.2.length then x.2.getD (a - x.1) 0 else v) (old a)

/-- The `n` bytes at pointer `p` of a context are memory of type `mt` at `pa`, and stay so whatever the bytes of `l` hold: no table that maps them is
among those (R68, R71). -/
structure Maps (s : State) (l : List (Nat × List Nat)) (c p n : Nat) (kind : Kind) (pa mt : Nat) : Prop where
  type : mt ≤ 1
  up : s.memUp pa mt = true
  line : pa % 128 + n ≤ 128
  check : ∀ m : MemSt, m.regions = s.mem.regions → (∀ a, ¬ covers l a → m.homeB a = s.mem.homeB a) →
    ({ s with mem := m } : State).check c p n n kind false = .ok (.mem pa mt)

/-- A scope that an instruction of the fibre may name (R244). -/
def State.scopeOk (s : State) (fk n : Nat) : Bool := decide (n < 5) || (s.scopeFor (fkBk fk) (s.group (fkBk fk) (fkG fk)).core n).ok

/-! ### Host commands (R280, R281) -/

/-- Command queue `p` of a context is enabled and has an entry. -/
def State.pends (s : State) (c p : Nat) : Prop :=
  let cfg := sget cqcfgReset (s.ctx c).cqcfg p
  let ptr := sget 0 (s.ctx c).cqptr p
  cfg % 2 = 1 ∧ ptr % 2 ^ 32 % cqLen cfg ≠ ptr / 2 ^ 32 % 2 ^ 32 % cqLen cfg

/-- The command processor has read the entry `d` at `a`, at the HEAD of the highest queue of context `c` that has one: HEAD has advanced (R281). -/
structure Fetches (s : State) (c d a : Nat) (h : State) (p : Nat) : Prop where
  lt : p < 8
  none : (s.ctx c).cmd = .none
  pends : s.pends c p
  first : ∀ q < 8, p < q → ¬ s.pends c q
  addr : a = sget cqcfgReset (s.ctx c).cqcfg p / 2 ^ 12 * 2 ^ 12 +
    64 * (sget 0 (s.ctx c).cqptr p % 2 ^ 32 % cqLen (sget cqcfgReset (s.ctx c).cqcfg p))
  up : s.memUp a 0 = true
  entry : s.mem.homeNum a 64 = d
  read : h = (s.headAdvance c p).updCtx c fun x => { x with cmd := some (d, a) }

/-- Commands are taken (R345, R380), and context `c` is at the command `d` at `a`: one that was read before and had to wait, or the next one. In `h` it
has been read. It has no timeline to raise when it is done. -/
structure Heads (s : State) (c d a : Nat) (h : State) : Prop where
  cc : s.host.hubReady.testBit 38 = true
  onyx : s.host.hubReady.testBit 37 = true
  runs : s.host.stopped = false
  has : ((s.ctx c).cmd = some (d, a) ∧ h = s) ∨ ∃ p, Fetches s c d a h p
  quiet : d / 2 ^ 448 % 2 ^ 64 = 0

/-! ### Bundles (R261) -/

/-- A sound bundle: it has fibres, all can issue, they stand at one place, and no two share a home lane. -/
def State.bundleOk (s : State) (b : Bundle) : Prop :=
  b.fibs ≠ [] ∧ (∀ fk ∈ b.fibs, s.issuable fk = true) ∧ (∀ fk ∈ b.fibs, ∀ fk' ∈ b.fibs, s.place fk = s.place fk') ∧
    b.fibs.Pairwise fun fk fk' => fkL fk ≠ fkL fk'

/-- Every bundle is sound and no fibre is in two of them. -/
def State.bundlesOk (s : State) : Prop :=
  (∀ b ∈ s.bundles, s.bundleOk b) ∧ s.bundles.Pairwise fun a b => ∀ fk ∈ a.fibs, fk ∉ b.fibs

end Sys2Proof.Machine
end

