-- ==== Sys2Proof/Certificates/Slice0/Obligations.lean ====
section
/-!
DEFINITION. What is claimed of the model: statements of the spec's rules, each over every state that meets its hypotheses.
-/
open Sys2Proof Sys2Proof.Machine

/-! ### Computing instructions -/

/-- R155, R156: every integer arithmetic form of one fibre writes the exact result reduced to w bits (or clamped, or the high or whole
product), sets SAT only when it clamps, and goes on; division by zero and the one overflowing quotient give the table's values. R151 for the
immediate. -/
def Obligations.IntegerResults : Prop :=
  ∀ (s : State) (fk : Nat) (x : Fibre),
    (∀ f : Bin, Issues s f.g fk x → f.ty.isInt = true → Bin.ready s fk f f.ty.wide f.ty.wide f.ty.wide = true →
      let w := 8 * f.ty.size
      let a := intOf f.ty (value s fk f.a f.ia f.ty.wide)
      let b := intOf f.ty (value s fk f.b f.ib f.ty.wide)
      let lo : Int := if f.ty.signed then -2 ^ (w - 1) else 0
      let hi : Int := if f.ty.signed then 2 ^ (w - 1) - 1 else 2 ^ w - 1
      let out := fun (v : Int) (fl : Nat) => Host.Outcome.next (gives s fk f.d f.id f.ty.wide f.ty (patOf f.ty v) fl)
      exec (.add f) s = out (a + b) 0 ∧ exec (.sub f) s = out (a - b) 0 ∧ exec (.mul f) s = out (a * b) 0 ∧
      exec (.mulhi f) s = out (a * b / 2 ^ w) 0 ∧ exec (.min f) s = out (min a b) 0 ∧ exec (.max f) s = out (max a b) 0 ∧
      exec (.div f) s = (if b = 0 then out (-1) 0 else out (a.tdiv b) 0) ∧
      exec (.rem f) s = (if b = 0 then out a 0 else out (a - b * a.tdiv b) 0) ∧
      ∀ dif, exec (.adds f dif) s =
        (let v := if dif then a - b else a + b
         if v < lo then out lo 64 else if hi < v then out hi 64 else out v 0)) ∧
    (∀ f : Bin, Issues s f.g fk x → f.ty = .i32 ∨ f.ty = .z32 → Bin.ready s fk f true false false = true →
      exec (.mulw f) s = .next (gives s fk f.d f.id true f.ty
        (BitVec.ofInt 64 (intOf f.ty (value s fk f.a f.ia false) * intOf f.ty (value s fk f.b f.ib false))).toNat 0)) ∧
    (∀ f : Imm, Issues s f.g fk x → f.ty.isInt = true → Imm.ready s fk f = true →
      exec (.addi f) s = .next (gives s fk f.d f.id f.ty.wide f.ty (patOf f.ty (intOf f.ty (value s fk f.a f.ia f.ty.wide) +
        if f.ty.signed then (BitVec.ofNat 8 f.imm).toInt else f.imm)) 0)) ∧
    (∀ f : Tri, Issues s f.g fk x → f.ty.isInt = true → Tri.ready s fk f f.ty.wide f.ty.wide f.ty.wide f.ty.wide = true →
      exec (.mad f) s = .next (gives s fk f.d false f.ty.wide f.ty (patOf f.ty (intOf f.ty (value s fk f.a false f.ty.wide) *
        intOf f.ty (value s fk f.b false f.ty.wide) + intOf f.ty (value s fk f.c false f.ty.wide))) 0)) ∧
    (∀ f : Un, Issues s f.g fk x → f.ty = .i32 ∨ f.ty = .i64 → Un.ready s fk f f.ty.wide f.ty.wide = true →
      exec (.abs f) s = .next (gives s fk f.d f.id f.ty.wide f.ty (patOf f.ty |intOf f.ty (value s fk f.a f.ia f.ty.wide)|) 0))

/-- R158: the bitwise, shift and count forms; c is B[7:0], or IMM8 for `shli` and `shri`. -/
def Obligations.LogicResults : Prop :=
  ∀ (s : State) (fk : Nat) (x : Fibre),
    (∀ f : Bin, Issues s f.g fk x → f.ty.isBits = true → Bin.ready s fk f f.ty.wide f.ty.wide f.ty.wide = true →
      let a := value s fk f.a f.ia f.ty.wide
      let b := value s fk f.b f.ib f.ty.wide
      let out := fun (v : Nat) => Host.Outcome.next (gives s fk f.d f.id f.ty.wide f.ty v 0)
      exec (.and f) s = out (a &&& b) ∧ exec (.or f) s = out (a ||| b) ∧ exec (.xor f) s = out (a ^^^ b)) ∧
    (∀ f : Imm, Issues s f.g fk x → f.ty.isBits = true → Imm.ready s fk f = true →
      let w := 8 * f.ty.size
      let a := value s fk f.a f.ia f.ty.wide
      let b := patOf f.ty (if f.ty.signed then (BitVec.ofNat 8 f.imm).toInt else f.imm)
      let out := fun (v : Nat) => Host.Outcome.next (gives s fk f.d f.id f.ty.wide f.ty v 0)
      f.imm < 256 → (exec (.andi f) s = out (a &&& b) ∧ exec (.ori f) s = out (a ||| b) ∧ exec (.xori f) s = out (a ^^^ b)) ∧
      (f.imm < w → exec (.shli f) s = out (a * 2 ^ f.imm % 2 ^ w) ∧
        exec (.shri f) s = out (if f.ty.signed then ((BitVec.ofNat w a).sshiftRight f.imm).toNat else a / 2 ^ f.imm))) ∧
    (∀ f : Bin, Issues s f.g fk x → Bin.ready s fk f f.ty.wide f.ty.wide false = true →
      let w := 8 * f.ty.size
      let a := value s fk f.a f.ia f.ty.wide
      let c := value s fk f.b f.ib false % 256
      let out := fun (v : Nat) => Host.Outcome.next (gives s fk f.d f.id f.ty.wide f.ty v 0)
      (f.ty.isBits = true →
        exec (.shl f) s = out (if c < w then a * 2 ^ c % 2 ^ w else 0) ∧
        exec (.shr f) s = out (if f.ty.signed then ((BitVec.ofNat w a).sshiftRight c).toNat else if c < w then a / 2 ^ c else 0)) ∧
      (f.ty.isW64 = true → exec (.rot f false) s = out ((BitVec.ofNat w a).rotateLeft (c % w)).toNat ∧
        exec (.rot f true) s = out ((BitVec.ofNat w a).rotateRight (c % w)).toNat)) ∧
    (∀ f : Un, Issues s f.g fk x →
      let w := 8 * f.ty.size
      let a := value s fk f.a f.ia f.ty.wide
      let out := fun (wd : Bool) (v : Nat) => Host.Outcome.next (gives s fk f.d f.id wd f.ty v 0)
      (f.ty.isBits = true → Un.ready s fk f f.ty.wide f.ty.wide = true → exec (.not f) s = out f.ty.wide (~~~ BitVec.ofNat w a).toNat) ∧
      (f.ty.isW64 = true → Un.ready s fk f f.ty.wide f.ty.wide = true → exec (.brev f) s = out f.ty.wide (BitVec.ofNat w a).reverse.toNat) ∧
      (f.ty.isW64 = true → Un.ready s fk f false f.ty.wide = true →
        exec (.popc f) s = out false ((List.range w).filter fun i => a.testBit i).length ∧
        exec (.clz f) s = out false (if a = 0 then w else w - 1 - a.log2)))

/-- R159 to R164: `bfx`, `bfi`, `bsel`, `ext`, `movi` and `lea`. -/
def Obligations.FieldResults : Prop :=
  ∀ (s : State) (fk : Nat) (x : Fibre),
    (∀ f : Tri, Issues s f.g fk x → f.ty.isInt = true → Tri.ready s fk f f.ty.wide f.ty.wide false false = true →
      let pos := value s fk f.b false false % 256
      let len := min (value s fk f.c false false % 256) (8 * f.ty.size)
      let fld := BitVec.ofInt len (intOf f.ty (value s fk f.a false f.ty.wide) / 2 ^ pos)
      exec (.bfx f) s = .next (gives s fk f.d false f.ty.wide f.ty (if f.ty.signed then patOf f.ty fld.toInt else fld.toNat) 0)) ∧
    (∀ f : Tri, Issues s f.g fk x → f.ty.isW64 = true → Tri.ready s fk f f.ty.wide f.ty.wide f.ty.wide false = true →
      let a := value s fk f.a false f.ty.wide
      let b := value s fk f.b false f.ty.wide
      let pos := value s fk f.c false false % 256
      let len := value s fk f.c false false / 256 % 256
      ∃ r < 2 ^ (8 * f.ty.size), exec (.bfi f) s = .next (gives s fk f.d false f.ty.wide f.ty r 0) ∧
        ∀ i < 8 * f.ty.size, r.testBit i = if pos ≤ i ∧ i < pos + len then a.testBit (i - pos) else b.testBit i) ∧
    (∀ f : Bin, Issues s f.g fk x → f.ty = .b32 → Bin.ready s fk f false false false = true →
      let a := value s fk f.a f.ia false
      let sel := fun (j : Nat) => value s fk f.b f.ib false / 2 ^ (8 * j) % 256
      let src := fun (j : Nat) => a / 2 ^ (8 * (sel j % 4)) % 256
      let byte := fun (j : Nat) => if (sel j).testBit 7 then 0 else if (sel j).testBit 6 then (if (src j).testBit 7 then 255 else 0) else src j
      exec (.bsel f) s = .next (gives s fk f.d f.id false f.ty (byte 0 + byte 1 * 2 ^ 8 + byte 2 * 2 ^ 16 + byte 3 * 2 ^ 24) 0)) ∧
    (∀ (f : Un) (e : Nat), Issues s f.g fk x → extOk f.ty e = true →
      let wide := f.ty == .i32 || f.ty == .z32
      Un.ready s fk f wide false = true →
      let w := 8 * f.ty.size
      let el := BitVec.ofNat w (value s fk f.a f.ia false / 2 ^ (w * e))
      exec (.ext f e) s = .next (gives s fk f.d f.id wide f.ty
        (if f.ty.signed then (BitVec.ofInt (if wide then 64 else 32) el.toInt).toNat else el.toNat) 0)) ∧
    (∀ f : Imm0, Issues s f.g fk x → f.imm < 256 → free s fk f.d f.id f.ty.wide = true →
      exec (.movi f) s = .next (gives s fk f.d f.id f.ty.wide f.ty
        (if f.ty.signed then patOf f.ty (BitVec.ofNat 8 f.imm).toInt else f.imm) 0)) ∧
    (∀ (f : Bin) (k : Nat), Issues s f.g fk x → f.ty = .z64 → k < 4 → Bin.ready s fk f true true false = true →
      let a := value s fk f.a f.ia true
      let b := (BitVec.ofNat 32 (value s fk f.b f.ib false)).toInt
      exec (.lea f k) s = .next (gives s fk f.d f.id true f.ty
        (a / 2 ^ 56 * 2 ^ 56 + ((((a % 2 ^ 56 : Nat) : Int) + b * 2 ^ k) % 2 ^ 56).toNat) 0))

/-- R166 to R168: `cmp` and `cmpi` write the condition to predicate D; `plog` looks its table up; `sel` copies the selected source, and only
that one must be free of poison. -/
def Obligations.CompareAndSelectResults : Prop :=
  ∀ (s : State) (fk : Nat) (x : Fibre),
    let cond := fun (cc : Nat) (a b : Int) => match cc with
      | 0 => decide (a = b) | 1 => decide (a ≠ b) | 2 => decide (a < b) | 3 => decide (a ≤ b) | 4 => decide (b < a) | _ => decide (b ≤ a)
    (∀ f : CmpF, Issues s f.g fk x → f.ty.isBits = true → f.cc < 6 → readable s fk f.a f.ia f.ty.wide = true →
      readable s fk f.b f.ib f.ty.wide = true →
      exec (.cmp f) s = .next (givesP s fk f.p (cond f.cc (intOf f.ty (value s fk f.a f.ia f.ty.wide))
        (intOf f.ty (value s fk f.b f.ib f.ty.wide))))) ∧
    (∀ f : CmpI, Issues s f.g fk x → f.ty.isBits = true → f.cc < 6 → f.imm < 256 → readable s fk f.a f.ia f.ty.wide = true →
      exec (.cmpi f) s = .next (givesP s fk f.p (cond f.cc (intOf f.ty (value s fk f.a f.ia f.ty.wide))
        (if f.ty.signed then (BitVec.ofNat 8 f.imm).toInt else f.imm)))) ∧
    (∀ f : PlogF, Issues s f.g fk x →
      exec (.plog f) s = .next (givesP s fk f.p (f.tt.testBit (2 * (x.pred f.pa).toNat + (x.pred f.pb).toNat)))) ∧
    (∀ f : SelF, Issues s f.g fk x → free s fk f.d false f.ty.wide = true → free s fk f.a false f.ty.wide = true →
      free s fk f.b false f.ty.wide = true →
      let c := if x.pred f.p then f.a else f.b
      clean s fk c false f.ty.wide = true →
      exec (.sel f) s = .next (gives s fk f.d false f.ty.wide f.ty (value s fk c false f.ty.wide) 0))

/-- R170 to R172, R174: the rounded forms, `fdot2`, `fmin`, `fmax` and the four approximations write the result of the named operation on the
elements of R149 and OR its flags into the GSW; nothing else changes. The results are those of Machine/Num.lean. -/
def Obligations.FloatResults : Prop :=
  ∀ (s : State) (fk : Nat) (x : Fibre),
    (∀ (f : Bin) (rm : RM), Issues s f.g fk x → f.ty.isFph = true → Bin.ready s fk f false false false = true →
      let a := elemOf f.ty (value s fk f.a f.ia false)
      let b := elemOf f.ty (value s fk f.b f.ib false)
      let out := fun (r : Nat × Nat) => Host.Outcome.next (gives s fk f.d f.id false f.ty r.1 r.2)
      (f.ty = .f32 → exec (.fadd f rm) s = out (fAdd fmt32 rm a b) ∧ exec (.fsub f rm) s = out (fSubt fmt32 rm a b) ∧
        exec (.fmul f rm) s = out (fMul fmt32 rm a b) ∧ exec (.fdiv f rm) s = out (fDivide fmt32 rm a b)) ∧
      exec (.fmin f) s = out (fMinMax (fmtOf f.ty) false a b) ∧ exec (.fmax f) s = out (fMinMax (fmtOf f.ty) true a b)) ∧
    (∀ (f : Un) (rm : RM), Issues s f.g fk x → f.ty = .f32 → Un.ready s fk f false false = true →
      let a := value s fk f.a f.ia false
      let out := fun (r : Nat × Nat) => Host.Outcome.next (gives s fk f.d f.id false f.ty r.1 r.2)
      exec (.fsqrt f rm) s = out (fSquareRoot fmt32 rm a) ∧ exec (.frnd f rm) s = out (fRound fmt32 rm a) ∧
      exec (.frcp f) s = out (fRecip a) ∧ exec (.frsq f) s = out (fRecipSqrt a) ∧ exec (.fexp2 f) s = out (fExp2 a) ∧
      exec (.flog2 f) s = out (fLog2 a)) ∧
    (∀ f : Tri, Issues s f.g fk x → Tri.ready s fk f false false false false = true →
      let a := value s fk f.a false false
      let b := value s fk f.b false false
      let c := value s fk f.c false false
      let out := fun (r : Nat × Nat) => Host.Outcome.next (gives s fk f.d false false f.ty r.1 r.2)
      (f.ty = .f32 → exec (.fma f) s = out (fFma fmt32 f.rm a b c)) ∧
      (f.ty = .f16 ∨ f.ty = .bf16 → exec (.fdot2 f) s = out (fDot2 (fmtOf f.ty) f.rm a b c)))

/-- R173, R175, R176: `fabs` clears and `fneg` inverts the sign bit with no flag; `fclass` and `fcmp` write a predicate, `fclass` by the class of
the pattern, `fcmp` without NaNs by the values' order, with one by the table, which also says when NV is set.
R177, R139: `fstat.rd` writes the GSW to D; `fstat.clr` writes it and then clears the bits that A[7:0] names (here outside every frame). -/
def Obligations.FloatClassAndStatusResults : Prop :=
  (∀ (s : State) (fk : Nat) (x : Fibre),
    (∀ f : Un, Issues s f.g fk x → f.ty.isFph = true → Un.ready s fk f false false = true →
      let w := 8 * f.ty.size
      let a := value s fk f.a f.ia false % 2 ^ w
      exec (.fabs f) s = .next (gives s fk f.d f.id false f.ty (a % 2 ^ (w - 1)) 0) ∧
      exec (.fneg f) s = .next (gives s fk f.d f.id false f.ty (a ^^^ 2 ^ (w - 1)) 0)) ∧
    (∀ f : ClassF, Issues s f.g fk x → f.ty.isFph = true → readable s fk f.a f.ia false = true →
      let w := 8 * f.ty.size
      let a := value s fk f.a f.ia false % 2 ^ w
      let fr := match f.ty with | .f16 => 10 | .bf16 => 7 | _ => 23
      let ex := a % 2 ^ (w - 1) / 2 ^ fr
      let top := 2 ^ (w - 1 - fr) - 1
      let neg := a.testBit (w - 1)
      let cls := if ex = top then (if a % 2 ^ fr ≠ 0 then 0 else if neg then 1 else 7)
        else if ex = 0 then (if a % 2 ^ fr = 0 then 4 else if neg then 3 else 5) else if neg then 2 else 6
      exec (.fclass f) s = .next (givesP s fk f.p (f.mask.testBit cls))) ∧
    (∀ f : CmpF, Issues s f.g fk x → f.ty.isFph = true → f.cc < 8 → readable s fk f.a f.ia false = true → readable s fk f.b f.ib false = true →
      let a := unpack (fmtOf f.ty) (elemOf f.ty (value s fk f.a f.ia false))
      let b := unpack (fmtOf f.ty) (elemOf f.ty (value s fk f.b f.ib false))
      let nan := a.isNan || b.isNan
      let res := if nan then f.cc == 1 || f.cc == 6 else match f.cc with
        | 0 => decide (a.cmp b = 0) | 1 => decide (a.cmp b ≠ 0) | 2 => decide (a.cmp b < 0) | 3 => decide (a.cmp b ≤ 0)
        | 4 => decide (0 < a.cmp b) | 5 => decide (0 ≤ a.cmp b) | 6 => false | _ => true
      let nv := a.isSig || b.isSig || (nan && decide (2 ≤ f.cc) && decide (f.cc ≤ 5))
      exec (.fcmp f) s = .next (((s.setP (s.who fk) fk f.p res).orGsw (s.who fk) (fkBk fk) (fkG fk) (if nv then 1 else 0)).advance fk))) ∧
  (∀ (s : State) (fk : Nat) (x : Fibre) (b : Block), Calm s fk b →
     let gsw := (s.group (fkBk fk) (fkG fk)).gsw
     (∀ f : Dst, Issues s f.g fk x → free s fk f.d f.id false = true →
       exec (.fstatRd f) s = .next (gives s fk f.d f.id false .b32 gsw.toNat 0)) ∧
     (∀ f : Un, Issues s f.g fk x → Un.ready s fk f false false = true →
       exec (.fstatClr f) s = .next (((put s fk f.d f.id false .b32 gsw.toNat).updGroup (fkBk fk) (fkG fk)
         fun gr => { gr with gsw := gsw &&& ~~~(BitVec.ofNat 32 (value s fk f.a f.ia false % 256)) }).advance fk)))

/-- R179 to R184: the conversions and `rand` write the results of the named operations; `qds8` and `escale` keep the other three bytes of D;
`rand` takes the stream id from B[15:0], and 0xFFFF is an illegal instruction. -/
def Obligations.ConversionResults : Prop :=
  ∀ (s : State) (fk : Nat) (x : Fibre),
    (∀ f : CvtF, Issues s f.g fk x → free s fk f.d f.id f.dty.wide = true → readable s fk f.a f.ia f.sty.wide = true →
      let r := cvtAny f.dty f.sty f.sat f.hi f.rm (value s fk f.a f.ia f.sty.wide)
      exec (.cvt f) s = .next (gives s fk f.d f.id f.dty.wide f.dty r.1 r.2)) ∧
    (∀ (f : Bin) (rm : RM), Issues s f.g fk x → f.ty = .f16 ∨ f.ty = .bf16 → Bin.ready s fk f false false false = true →
      let p := cvtFF fmt32 (fmtOf f.ty) rm (value s fk f.a f.ia false)
      let q := cvtFF fmt32 (fmtOf f.ty) rm (value s fk f.b f.ib false)
      exec (.cvt2 f rm) s = .next (gives s fk f.d f.id false f.ty (p.1 + q.1 * 2 ^ 16) (p.2 ||| q.2))) ∧
    (∀ (f : Bin) (k : Nat) (rm : RM), Issues s f.g fk x → f.ty = .ds8 → k < 4 → Bin.ready s fk f false false false = true →
      let d := value s fk f.d f.id false
      let a := value s fk f.a f.ia false
      let e := value s fk f.b f.ib false % 256
      let r := decodeDs8 (a / 2 ^ (8 * k) % 256) e rm
      let q := quantDs8 a e
      exec (.dqds8 f k rm) s = .next (gives s fk f.d f.id false f.ty r.1 r.2) ∧
      (clean s fk f.d f.id false = true →
        exec (.qds8 f k) s = .next (gives s fk f.d f.id false f.ty
          (d % 2 ^ (8 * k) + q.1 % 256 * 2 ^ (8 * k) + d / 2 ^ (8 * k + 8) * 2 ^ (8 * k + 8)) q.2))) ∧
    (∀ (f : Un) (k : Nat), Issues s f.g fk x → f.ty = .e8 → k < 4 → Un.ready s fk f false false = true → clean s fk f.d f.id false = true →
      let d := value s fk f.d f.id false
      let q := scaleOf (value s fk f.a f.ia false)
      exec (.escale f k) s = .next (gives s fk f.d f.id false f.ty
        (d % 2 ^ (8 * k) + q.1 % 256 * 2 ^ (8 * k) + d / 2 ^ (8 * k + 8) * 2 ^ (8 * k + 8)) q.2)) ∧
    (∀ f : Bin, Issues s f.g fk x → f.ty = .z32 ∨ f.ty = .z64 ∨ f.ty = .f32 → Bin.ready s fk f f.ty.wide true false = true →
      let sid := value s fk f.b f.ib false % 65536
      exec (.rand f) s = if sid = 65535 then .next (s.openFault (fkBk fk) fk .il s.ipc)
        else .next (gives s fk f.d f.id f.ty.wide f.ty
          (randVal f.ty (hashH (s.rcbOf (fkBk fk)).seed (s.rcbOf (fkBk fk)).cbase (value s fk f.a f.ia true) sid)) 0))

/-- R123, R125: `mov` copies A; `perm` and `bcast` read lane B[5:0] of register A of the fibre's own group, `shfl` the lane that its mode and
B[5:0] give, whether or not a fibre lives there. -/
def Obligations.MoveAndCrossLaneResults : Prop :=
  ∀ (s : State) (fk : Nat) (x : Fibre),
    (∀ f : Un, Issues s f.g fk x → f.ty.isCopy = true → Un.ready s fk f f.ty.wide f.ty.wide = true →
      exec (.mov f) s = .next (gives s fk f.d f.id f.ty.wide f.ty (value s fk f.a f.ia f.ty.wide) 0)) ∧
    (∀ (g : Guard) (d a : Nat) (b : Opnd), Issues s g fk x → free s fk (.v d) false false = true → readable s fk b false false = true →
      let k := value s fk b false false % 64
      let copy := fun (l : Nat) => Host.Outcome.next (gives s fk (.v d) false false .b32 (s.vraw (fkBk fk) (fkG fk) a l) 0)
      (s.wordReady fk a k = true → exec (.perm g d a b) s = copy k) ∧
      let l := fkL fk
      (s.wordReady fk a (if k ≤ l then l - k else l) = true → exec (.shfl g d a b 0) s = copy (if k ≤ l then l - k else l)) ∧
      (s.wordReady fk a (if l + k ≤ 63 then l + k else l) = true → exec (.shfl g d a b 1) s = copy (if l + k ≤ 63 then l + k else l)) ∧
      (s.wordReady fk a (l ^^^ k) = true → exec (.shfl g d a b 2) s = copy (l ^^^ k))) ∧
    (∀ (g : Guard) (d : Opnd) (a : Nat) (b : Opnd) (ty : Ty), Issues s g fk x → ty.isCopy = true → free s fk d false ty.wide = true →
      readable s fk b false false = true →
      let k := value s fk b false false % 64
      let at_ := fun (r : Nat) => s.vraw (fkBk fk) (fkG fk) r k
      s.wordReady fk a k = true → (ty.wide = true → s.wordReady fk (a + 1) k = true) →
      exec (.bcast g d a b ty) s = .next (gives s fk d false ty.wide ty (at_ a + if ty.wide then at_ (a + 1) * 2 ^ 32 else 0) 0))

/-! ### The register store -/

/-- R122: `ldi` copies the element at byte 256·A + s·i of the fibre's own window to D, extended as a load is and with its poison mark; `sti`
writes D there, a poisoned D being PZ. Neither passes the allotment: an element outside it is an AL fault with the register as detail, before
any poison of D (R35).
R107, R108, outside a frame: `allot` raises the group's allotment to m chunks when no request of the core is queued and enough are free,
the entering registers zero, empty and unmarked and the others as they were; else it parks and queues its request, or faults above the budget;
it does nothing more when the allotment is already that large. `shrink` lowers it and goes on, or stalls with the chunks still held while an
operation owes its range; the chunks that another `shrink` holds stay held. -/
def Obligations.RegisterStoreResults : Prop :=
  (∀ (s : State) (fk : Nat) (x : Fibre) (g : Guard) (a : Nat) (b : Opnd) (ty : Ty), Issues s g fk x → readable s fk b false false = true →
    let off := 256 * a + ty.size * value s fk b false false
    let n := off / 256
    let past := if ty.size = 8 ∧ off % 256 = 248 then n + 1 else n
    let al := s.takeFault (fkBk fk) ⟨3, s.ipc, n, fkG fk, fkL fk⟩
    (∀ d, free s fk (.v d) false ty.wide = true →
      (s.allot (fkBk fk) (fkG fk) ≤ past → exec (.ldi g (.v d) a b ty) s = .next al) ∧
      (past < s.allot (fkBk fk) (fkG fk) → s.waitBytes fk off ty.size = false → s.acqWait fk = false →
        let v := loadExt ty (s.wnum (fkBk fk) (fkG fk) off ty.size)
        let pz := s.wpois (fkBk fk) (fkG fk) off ty.size
        let lo := s.setVP (s.who fk) (fkBk fk) (fkG fk) d (fkL fk) (v % 2 ^ 32) pz
        let t := if ty.wide then lo.setVP (s.who fk) (fkBk fk) (fkG fk) (d + 1) (fkL fk) (v / 2 ^ 32) pz else lo
        exec (.ldi g (.v d) a b ty) s = .next (t.advance fk))) ∧
    (∀ d, free s fk d false ty.wide = true →
      (s.allot (fkBk fk) (fkG fk) ≤ past → exec (.sti g d a b ty) s = .next al) ∧
      (past < s.allot (fkBk fk) (fkG fk) → clean s fk d false ty.wide = false → ∃ n, exec (.sti g d a b ty) s = .next (s.faulted fk .pz n)) ∧
      (past < s.allot (fkBk fk) (fkG fk) → clean s fk d false ty.wide = true → s.waitBytes fk off ty.size = false → s.acqWait fk = false →
        exec (.sti g d a b ty) s = .next
          ((s.wput (s.who fk) (fkBk fk) (fkG fk) off (natBytes ty.size (value s fk d false ty.wide))).advance fk)))) ∧
  (∀ (s : State) (fk : Nat) (x : Fibre) (b : Block) (g : Guard) (m : Nat), Issues s g fk x → Calm s fk b → 1 ≤ m → m ≤ 48 →
     let gr := s.group (fkBk fk) (fkG fk)
     let cur := gr.chunks.length
     let need := m - cur - (gr.held.filter fun h => decide (h.2 < m)).length
     let al := s.takeFault (fkBk fk) ⟨3, s.ipc, 32 * m - 1, fkG fk, fkL fk⟩
     (m ≤ cur → exec (.allot g m) s = .next (s.advance fk)) ∧
     (cur < m → 4 * (s.rcbOf (fkBk fk)).rsbud < 32 * m → exec (.allot g m) s = .next al) ∧
     (cur < m → Config.chunksPerCore - s.dcChunks gr.core - s.reserveChunks gr.core < m - cur → exec (.allot g m) s = .next al) ∧
     (cur < m → 32 * m ≤ 4 * (s.rcbOf (fkBk fk)).rsbud → m - cur ≤ Config.chunksPerCore - s.dcChunks gr.core - s.reserveChunks gr.core →
       (s.requests gr.core = [] ∧ need ≤ s.freeCount gr.core →
         ∃ t, exec (.allot g m) s = .next t ∧ t.allot (fkBk fk) (fkG fk) = 32 * m ∧ t.fib fk = some x.adv ∧
           ∀ r < 32 * m, ∀ l, (32 * cur ≤ r → t.vraw (fkBk fk) (fkG fk) r l = 0 ∧ t.vpois (fkBk fk) (fkG fk) r l = false ∧
               t.vfull (fkBk fk) (fkG fk) r l = false) ∧
             (r < 32 * cur → t.vraw (fkBk fk) (fkG fk) r l = s.vraw (fkBk fk) (fkG fk) r l)) ∧
       (¬ (s.requests gr.core = [] ∧ need ≤ s.freeCount gr.core) →
         exec (.allot g m) s = .next { s.setStat fk (.allot m s.seq) with seq := s.seq + 1 })) ∧
     (let t := s.owedAbove (fkBk fk) (fkG fk) m
      ∃ u, exec (.shrink g m) s = .next u ∧ (u.group (fkBk fk) (fkG fk)).chunks = gr.chunks.take m ∧
       u.fib fk = some (if t then { x with stat := .shrink m cur } else x.adv) ∧
       ((u.group (fkBk fk) (fkG fk)).held = if t then gr.held ++ (gr.chunks.drop m).mapIdx (fun i c => (c, m + i))
         else gr.held.filter fun h => !(decide (m ≤ h.2) && decide (h.2 < cur)))))

/-- R126, R127: when the last live fibre of a group arrives at `vote`, `.all` and `.any` write the predicate of every fibre whose guard holds,
`.ballot` writes the mask, and every fibre goes on.
R126, R128: when the last live fibre of a group arrives at `redux`, D receives the fold of the fixed tree over home lanes 0 to 63, absent
lanes left out and 0 when none is present; the flags of its steps go to the GSW. -/
def Obligations.VoteAndReduxResults : Prop :=
  (∀ (s : State) (g : Guard) (fk : Nat) (x : Fibre) (b : Block) (d a mode : Nat), LastToArrive s g fk x b (.vote g d a mode) → OneGroup s fk b → mode < 3 →
    (mode = 2 → s.busyU (fkBk fk) (fkG fk) d = false ∧ d < 96) →
    let holds := arrives s g fk (.vote g d a mode)
    let yes := fun k => holds k && s.predOf k a
    ∃ (t : State) (v : Bool), exec (.vote g d a mode) s = .next t ∧
      (mode = 0 → (v = true ↔ ∀ k, fkBk k = fkBk fk → holds k = true → yes k = true)) ∧
      (mode = 1 → (v = true ↔ ∃ k, fkBk k = fkBk fk ∧ yes k = true)) ∧
      (∀ k y, s.fib k = some y → fkBk k = fkBk fk →
        t.fib k = some { (if mode < 2 ∧ holds k = true then y.setPred d v else y).adv with
          lives := ((t.fib k).map Fibre.lives).getD 0 }) ∧
      (mode = 2 → ∀ l < 64, (t.uraw (fkBk fk) (fkG fk) d).testBit l = yes (fkOf (fkBk fk) (fkG fk) l))) ∧
  (∀ (s : State) (g : Guard) (fk : Nat) (x : Fibre) (b : Block) (d a op : Nat) (ty : Ty) (rm : RM),
     LastToArrive s g fk x b (.redux g d a op ty rm) → OneGroup s fk b → d < 96 →
     s.busyU (fkBk fk) (fkG fk) d = false → readable s fk (.v a) false ty.wide = true →
     let holds := arrives s g fk (.redux g d a op ty rm)
     let at_ := fun r l => s.vraw (fkBk fk) (fkG fk) r l
     let xs := (List.range 64).map fun l =>
       if holds (fkOf (fkBk fk) (fkG fk) l) then some (at_ a l + if ty.wide then at_ (a + 1) l * 2 ^ 32 else 0) else none
     let r := treeFold (combine op ty rm) xs
     ∃ t, exec (.redux g d a op ty rm) s = .next t ∧
       t.uraw (fkBk fk) (fkG fk) d = (if ty.wide then r.1.getD 0 else extendU ty (r.1.getD 0)) % 2 ^ 64 ∧
       (t.group (fkBk fk) (fkG fk)).gsw = (s.group (fkBk fk) (fkG fk)).gsw ||| BitVec.ofNat 32 r.2 ∧
       ∀ k y, s.fib k = some y → fkBk k = fkBk fk → ∃ z, t.fib k = some z ∧ z.pc = y.pc + 8 ∧ z.left = y.left - 1 ∧ z.stat = .ready ∧
         z.preds = y.preds)

/-! ### Main memory, Tureen and store windows -/

/-- R21, R71, R72, R77, R88, R90, R115, R118: a load that passes its check opens one operation under LD with this lane pending, and goes on (or,
with `.fe`, waits for its granule, which neither plain memory nor a staged region has); on a page that is not present it parks and asks for the
page; a failed check is the fault it names, with the address as its detail; a window load waits for what its bytes are still owed. -/
def Obligations.LoadIssue : Prop :=
  ∀ (s : State) (fk : Nat) (x : Fibre) (f : Mem), Issues s f.g fk x → Opens s fk .ld → free s fk f.d false f.ty.wide = true →
    let bk := fkBk fk
    let c := s.ctxOf bk
    let fe := f.qf.testBit 2
    let lent := fun (t : Tgt) => match t with
      | .region k _ => match sget none s.mem.regions k with
        | some r => s.staging bk && s.dsOf c r.gbase
        | none => false
      | _ => false
    let i := fun (k : OpKind) => memI k .ld f
    let done := fun (k : OpKind) (p : Nat) (t : Tgt) =>
      let u := (s.touch c t).issued fk (i k) (laneOf fk p t .pending 0 0)
      Host.Outcome.next (if fe then u.setStat fk .lane else u.advance fk)
    let park := fun (k : OpKind) (p q : Nat) (t : Tgt) =>
      Host.Outcome.next (((s.issued fk (i k) (laneOf fk p t .page 0 0)).setStat fk (.page p)).request c q)
    (addrReady s fk true f.base f.sc = true →
      let p := addr s fk true f.base f.ofs f.sc f.ty.size
      (s.scopeOk fk f.scope = false → exec (.ld f) s = .next (s.faulted fk .ac f.scope)) ∧
      (s.scopeOk fk f.scope = true → exec (.ld f) s = match s.check c p f.ty.size f.ty.size .load false with
        | .ok t => if fe && (!t.granular || lent t) then .next (s.faulted fk .ac p) else done .ld p t
        | .absent t => if fe && lent t then .next (s.faulted fk .ac p) else park .ld p p t
        | .fault fc d => .next (s.faulted fk fc d)
        | _ => .next s)) ∧
    (addrReady s fk false f.base f.sc = true →
      let p := addr s fk false f.base f.ofs f.sc f.ty.size
      (s.scopeOk fk f.scope = false → exec (.ldt f) s = .next (s.faulted fk .ac f.scope)) ∧
      (s.scopeOk fk f.scope = true → exec (.ldt f) s = match s.checkT c p f.ty.size .load (s.staging bk) fe with
        | .ok t => done .ldt p t
        | .absent t => park .ldt p (s.globalPtr true t p) t
        | .fault fc d => .next (s.faulted fk fc d)
        | _ => .next s) ∧
      exec (.ldw f) s = match s.winCheck bk p f.ty.size f.ty.size with
        | some (fc, d) => .next (s.faulted fk fc d)
        | none => if winGrp p = fkG fk ∧ s.owedIn bk (fkG fk) (winOff p) f.ty.size = true then .next s
            else done .ldw p (.win bk (winGrp p) (winOff p)))

/-- R71, R73, R77, R86, R90, R115, R118, R234, R300: a store that passes its check opens one operation under ST with its data and a full byte mask, and
goes on; through a DS entry under staging the write is staged (an `st.t` after its line was made present), unless it meets a RED range or carries
`.fset`; on a page that is not present it takes a side-log entry and goes on, or parks when the core has none; a failed check is the fault it
names; a window store waits for what its bytes are still owed. -/
def Obligations.StoreIssue : Prop :=
  ∀ (s : State) (fk : Nat) (x : Fibre) (f : Mem), Issues s f.g fk x → Opens s fk .st → readable s fk f.d false f.ty.wide = true →
    let bk := fkBk fk
    let c := s.ctxOf bk
    let n := f.ty.size
    let v := value s fk f.d false f.ty.wide % 2 ^ (8 * n)
    let mask := 2 ^ n - 1
    let fset := f.qf.testBit 3
    let i := fun (k : OpKind) => memI k .st f
    let flt := fun (fc : FClass) (d : Nat) => Host.Outcome.next (s.faulted fk fc d).settleAll
    let done := fun (k : OpKind) (p : Nat) (t : Tgt) =>
      Host.Outcome.next (((s.touch c t).issued fk (i k) (laneOf fk p t .pending v mask)).advance fk).settleAll
    let staged := fun (k : OpKind) (p q : Nat) =>
      if fset ∨ ∃ j < n, s.redRange bk (q + j) ≠ none then flt .ac p
      else
        let u := s.issued fk (i k) (laneOf fk p .none .done v mask)
        let u := match s.regionT c p with
          | some (j, r) => if k = OpKind.stt then u.touch c (.region j (p - r.tbase)) else u
          | none => u
        .next ((u.stageAt s.ipc fk q n v mask f.scope f.pol none).advance fk).settleAll
    let log := fun (k : OpKind) (p q : Nat) (t : Tgt) =>
      if s.sideUsed (s.group bk (fkG fk)).core < Config.sideLogEntries then
        let u := s.issued fk (i k) (laneOf fk p t (.side (s.seq + 1)) v mask)
        Host.Outcome.next (({ u with seq := s.seq + 2 }.request c q).advance fk).settleAll
      else .next ((s.issued fk (i k) (laneOf fk p t .sideFull v mask)).setStat fk .sideFull).settleAll
    (addrReady s fk true f.base f.sc = true →
      let p := addr s fk true f.base f.ofs f.sc n
      (s.scopeOk fk f.scope = false → exec (.st f) s = flt .ac f.scope) ∧
      (s.scopeOk fk f.scope = true → exec (.st f) s = match s.check c p n n .store (s.stagesAt bk p) with
        | .ok t => if fset ∧ t.granular = false then flt .ac p else done .st p t
        | .staged => staged .st p p
        | .absent t => log .st p p t
        | .fault fc d => flt fc d
        | .wait => .next s.settleAll)) ∧
    (addrReady s fk false f.base f.sc = true →
      let p := addr s fk false f.base f.ofs f.sc n
      let q := match s.regionT c p with
        | some (_, r) => r.gbase + (p - r.tbase)
        | none => p
      (s.scopeOk fk f.scope = false → exec (.stt f) s = flt .ac f.scope) ∧
      (s.scopeOk fk f.scope = true → exec (.stt f) s = match s.checkT c p n .store (s.stagesAt bk q) fset with
        | .ok t => done .stt p t
        | .staged => staged .stt p q
        | .absent t => log .stt p (s.globalPtr true t p) t
        | .fault fc d => flt fc d
        | .wait => .next s.settleAll) ∧
      exec (.stw f) s = match s.winCheck bk p n n with
        | some (fc, d) => flt fc d
        | none => if winGrp p = fkG fk ∧ s.owedIn bk (fkG fk) (winOff p) n = true then .next s.settleAll
            else done .stw p (.win bk (winGrp p) (winOff p)))

/-- R78 to R80, R278: outside a conversation `stz` opens a store of 128 zero bytes, with the staging and side log of R71; `cwb` and `iinv` open
an operation on the line, complete at once where they act on nothing; `prefetch` only goes on. -/
def Obligations.LineIssue : Prop :=
  ∀ (s : State) (fk : Nat) (x : Fibre) (f : MemA), Issues s f.g fk x →
    exec (.prefetch f) s = .next (s.advance fk) ∧
    (Opens s fk .st → addrReady s fk true f.base f.sc = true →
      let bk := fkBk fk
      let c := s.ctxOf bk
      let p := addr s fk true f.base f.ofs f.sc 4
      let flt := fun (fc : FClass) (d : Nat) => Host.Outcome.next (s.faulted fk fc d).settleAll
      let go := fun (k : OpKind) (y : Lane) => Host.Outcome.next ((s.issued fk (memIA k 128 f) y).advance fk).settleAll
      (s.scopeOk fk f.scope = false →
        exec (.stz f) s = flt .ac f.scope ∧ exec (.cwb f) s = flt .ac f.scope ∧ exec (.iinv f) s = flt .ac f.scope) ∧
      (s.scopeOk fk f.scope = true →
        (s.convOf bk = none →
          let i := memIA .stz 128 f
          let mask := 2 ^ 128 - 1
          let fset := f.qf.testBit 3
          exec (.stz f) s = match s.check c p 128 128 .store (s.staging bk) with
            | .ok t => if fset ∧ t.granular = false then flt .ac p
                else .next (((s.touch c t).issued fk i (laneOf fk p t .pending 0 mask)).advance fk).settleAll
            | .staged => if fset ∨ ∃ j ∈ List.range 128, s.redRange bk (p + j) ≠ none then flt .ac p
                else .next (((s.issued fk i (laneOf fk p .none .done 0 mask)).stageAt s.ipc fk p 128 0 mask f.scope f.pol none).advance fk).settleAll
            | .absent t => if s.sideUsed (s.group bk (fkG fk)).core < Config.sideLogEntries then
                let u := s.issued fk i (laneOf fk p t (.side (s.seq + 1)) 0 mask)
                .next (({ u with seq := s.seq + 2 }.request c p).advance fk).settleAll
                else .next ((s.issued fk i (laneOf fk p t .sideFull 0 mask)).setStat fk .sideFull).settleAll
            | .fault fc d => flt fc d
            | .wait => .next s.settleAll) ∧
        exec (.cwb f) s = (match s.checkLine c p .any with
          | .ok (.mem pa mt) => go .cwb (if mt = 2 then laneOf fk p (.mem pa mt) .done 0 0
              else laneOf fk (p / 128 * 128) (.mem (pa / 128 * 128) mt) .pending 0 0)
          | .ok (.region k o) => go .cwb (laneOf fk (p / 128 * 128) (.region k (o / 128 * 128)) .pending 0 0)
          | .ok t => go .cwb (laneOf fk p t .done 0 0)
          | .fault fc d => flt fc d
          | .wait => .next s.settleAll
          | _ => go .cwb (laneOf fk p .none .done 0 0)) ∧
        exec (.iinv f) s = (match s.checkLine c p .fetch with
          | .ok (.mem pa mt) => go .iinv (laneOf fk (p / 128 * 128) (.mem (pa / 128 * 128) mt) .pending 0 0)
          | .ok t => go .iinv (laneOf fk p t .done 0 0)
          | .fault fc d => flt fc d
          | .wait => .next s.settleAll
          | _ => go .iinv (laneOf fk p .none .done 0 0))))

/-! ### Atomics, rings and timelines -/

/-- R247 to R250, R300: `atom` and `red` that pass their checks open an operation with their source data; host and peer memory and, for `atom`,
a staged access are AC; `atom` parks on a page that is not present and `red` enters the side log. A staged `red` is kept with its form, which
must be the one of a RED range it meets. -/
def Obligations.AtomicIssue : Prop :=
  ∀ (s : State) (fk : Nat) (x : Fibre) (f : Mem), Issues s f.g fk x → addrReady s fk true f.base f.sc = true →
    let bk := fkBk fk
    let c := s.ctxOf bk
    let n := f.ty.size
    let p := addr s fk true f.base f.ofs f.sc n
    let cas := f.pol == 7
    (Opens s fk .ld → free s fk f.d false f.ty.wide = true → readable s fk f.d false (f.ty.wide || cas) = true →
      (cas = true → f.ty.wide = true → readable s fk (opndPlus f.d 2) false true = true) →
      let v := value s fk f.d false (f.ty.wide || cas)
      let src := if cas && !f.ty.wide then v % 2 ^ 32 else v
      let src2 := if cas then (if f.ty.wide then value s fk (opndPlus f.d 2) false true else v / 2 ^ 32) else 0
      let i := atomI .atom .ld f n
      (s.scopeOk fk f.scope = false → exec (.atom f) s = .next (s.faulted fk .ac f.scope)) ∧
      (s.scopeOk fk f.scope = true → exec (.atom f) s = match s.check c p n n .atom (s.staging bk) with
        | .ok (.out _ _) => .next (s.faulted fk .ac p)
        | .ok t => .next (((s.touch c t).issued fk i (laneOf fk p t .pending src src2)).advance fk)
        | .absent t => .next (((s.issued fk i (laneOf fk p t .page src src2)).setStat fk (.page p)).request c p)
        | .fault fc d => .next (s.faulted fk fc d)
        | _ => .next s)) ∧
    (Opens s fk .st → readable s fk f.d false f.ty.wide = true →
      let v := value s fk f.d false f.ty.wide
      let mask := 2 ^ n - 1
      let i := atomI .red .st f n
      let flt := fun (fc : FClass) (d : Nat) => Host.Outcome.next (s.faulted fk fc d).settleAll
      (s.scopeOk fk f.scope = false → exec (.red f) s = flt .ac f.scope) ∧
      (s.scopeOk fk f.scope = true → exec (.red f) s = match s.check c p n n .store (s.stagesAt bk p) with
        | .ok (.out _ _) => flt .ac p
        | .ok t => .next (((s.touch c t).issued fk i (laneOf fk p t .pending v mask)).advance fk).settleAll
        | .staged => if ∃ j < n, s.redRange bk (p + j) ≠ none ∧ s.redRange bk (p + j) ≠ some (redForm f.pol f.ty) then flt .ac p
            else .next (((s.issued fk i (laneOf fk p .none .done v mask)).stageAt s.ipc fk p n v mask f.scope f.pol
              (some (f.pol, f.ty))).advance fk).settleAll
        | .absent t => if s.sideUsed (s.group bk (fkG fk)).core < Config.sideLogEntries then
            let u := s.issued fk i (laneOf fk p t (.side (s.seq + 1)) v mask)
            .next (({ u with seq := s.seq + 2 }.request c p).advance fk).settleAll
            else .next ((s.issued fk i (laneOf fk p t .sideFull v mask)).setStat fk .sideFull).settleAll
        | .fault fc d => flt fc d
        | .wait => .next s.settleAll))

/-- R118, R251 to R258, R375: `rtake` and `rhead` check the ring record as its line holds it, and open an operation; `rtake` binds a ring at its launch's
first use and parks its fibre until its result, `rhead` goes on, its D scoreboarded. AC is a record with a reserved bit, with a LOG2N above 8 or with its slots in
no region, a ring bound to another launch, a ninth ring, or a link that is down; a slot base that is no multiple of 16 is no fault
(notes/assumptions/64.md). `tlset` and `tladd` open an operation and go on; `tlwait` goes on when the timeline has reached its threshold and else
registers the fibre. On a page that is not present each parks and asks for it. -/
def Obligations.RingAndTimelineIssue : Prop :=
  ∀ (s : State) (fk : Nat) (x : Fibre) (f : Mem), Issues s f.g fk x → addrReady s fk true f.base f.sc = true → s.scopeOk fk f.scope = true →
    let bk := fkBk fk
    let c := s.ctxOf bk
    let core := (s.group bk (fkG fk)).core
    let park := fun (i : MemI) (p v mask : Nat) (t : Tgt) =>
      Host.Outcome.next (((s.issued fk i (laneOf fk p t .page v mask)).setStat fk (.page p)).request c p)
    let ring := fun (k : OpKind) =>
      let p := addr s fk true f.base f.ofs f.sc 64
      match s.check c p 64 64 .atom false with
        | .ok (.out _ _) => Host.Outcome.next (s.faulted fk .ac p)
        | .ok t =>
          let r := ringOf ((s.touch c t).ringAt t)
          let rings := match s.launchOf bk with
            | some l => l.rings
            | none => []
          if s.linkDown t = true ∨ r.resv = true ∨ 8 < r.log2n ∨ s.regionT c r.sbase = none then .next (s.faulted fk .ac p)
          else if k = .rtake ∧ ((r.bound = true ∧ t ∉ rings) ∨ (r.bound = false ∧ 8 ≤ rings.length)) then .next (s.faulted fk .ac p)
          else
            let u := (s.bindRing bk core (k == .rtake) t).issued fk (ringI k f) (laneOf fk p t .pending 0 0)
            .next (if k = .rtake then u.setStat fk .lane else u.advance fk)
        | .absent t => park (ringI k f) p 0 0 t
        | .fault fc d => .next (s.faulted fk fc d)
        | _ => .next s
    (Opens s fk .ld → free s fk f.d false false = true → exec (.rtake f) s = ring .rtake ∧ exec (.rhead f) s = ring .rhead) ∧
    (readable s fk f.d false true = true →
      let p := addr s fk true f.base f.ofs f.sc 8
      let v := value s fk f.d false true
      let tl := fun (k : OpKind) => match s.check c p 8 8 .atom false with
        | .ok (.out _ _) => Host.Outcome.next (s.faulted fk .ac p)
        | .ok t => .next (((s.touch c t).issued fk (tlI k f) (laneOf fk p t .pending v 255)).advance fk)
        | .absent t => park (tlI k f) p v 255 t
        | .fault fc d => .next (s.faulted fk fc d)
        | _ => .next s
      (Opens s fk .st → exec (.tlset f) s = tl .tlset ∧ exec (.tladd f) s = tl .tladd) ∧
      (s.acqWait fk = false → exec (.tlwait f) s = match s.check c p 8 8 .atom false with
        | .ok (.out _ _) => .next (s.faulted fk .ac p)
        | .ok t =>
          let u := (s.touch c t).refreshCopy core t
          if s.linkDown t = true then .next (s.faulted fk .ac p)
          else if s.ownPending fk t p 8 = true then .next s
          else if v ≤ ofNats (u.readTgt t 8).1 then .next (u.advance fk)
          else .next { u.setStat fk (.timeline t v u.seq false) with seq := u.seq + 1 }
        | .absent _ => .next ((s.setStat fk (.page p)).request c p)
        | .fault fc d => .next (s.faulted fk fc d)
        | _ => .next s))

/-- R79, R241, R243, R244, R265, R275, R279: `fence` holds the fibre until the group's earlier stores are performed with their write completion
times past and its earlier loads have returned; `ifence` until the earlier `iinv` are done, and drops what was fetched ahead; `wait` until each
counter has come down to its threshold; `nop` and `yield` go on, and `yield` demotes its bundle. -/
def Obligations.WaitingForms : Prop :=
  ∀ (s : State) (fk : Nat) (x : Fibre) (g : Guard), Issues s g fk x →
    let bk := fkBk fk
    let grp := fkG fk
    let sq := match x.stat with
      | .fence n => n
      | _ => s.seq
    let early := fun (o : Op) => o ∈ s.ops ∧ o.bk = bk ∧ o.g = grp ∧ o.id < sq
    let over_ := fun (o : Op) (y : Lane) => y.st = .done ∧ (y.wct = 0 ∨ y.wct < s.tickOf o)
    (∀ sc, s.scopeOk fk sc = false → exec (.fence g sc) s = .next (s.faulted fk .ac sc)) ∧
    (∀ sc, s.scopeOk fk sc = true →
      ((∀ o, early o → ∀ y ∈ o.lanes, (o.cls = .st ∨ o.kind = .atom → over_ o y) ∧
          (o.kind.isLoad = true ∨ o.kind = .atom → y.st = .done)) →
        exec (.fence g sc) s = .next (s.advance fk)) ∧
      ((∃ o, early o ∧ ∃ y ∈ o.lanes, ((o.cls = .st ∨ o.kind = .atom) ∧ ¬ over_ o y) ∨
          ((o.kind.isLoad = true ∨ o.kind = .atom) ∧ y.st ≠ .done)) →
        exec (.fence g sc) s = .next (s.setStat fk (.fence sq)))) ∧
    ((∀ o, early o → o.kind = .iinv → ∀ y ∈ o.lanes, y.st = .done) →
      exec (.ifence g) s = .next ((s.advance fk).updFib fk fun y => { y with ahead := [] })) ∧
    ((∃ o, early o ∧ o.kind = .iinv ∧ ∃ y ∈ o.lanes, y.st ≠ .done) → exec (.ifence g) s = .next (s.setStat fk (.fence sq))) ∧
    (∀ a b c d, let met := fun (k : Cnt) (n : Nat) => n = 15 ∨ s.cnt bk grp k ≤ n
      exec (.wait g a b c d) s = .next (if met .ld a ∧ met .st b ∧ met .cp c ∧ met .tl d then s.advance fk else s)) ∧
    exec (.nop g) s = .next (s.advance fk) ∧
    exec (.yield g) s = .next { s.advance fk with
      bundles := s.bundles.map fun y => if fk ∈ y.fibs then { y with demoted := some (s.clockAt (s.group bk grp).core), yielded := true } else y }

/-! ### Control flow -/

/-- R26, R266, R268, R324, R395: where a transfer's target is an aligned header of its kind the fibre stands at it next, a call with PC + 8 pushed, `ret` with
the popped address; a wrong target is HD and an unreadable one AC with the target as detail, an absent page parks the fibre, a full call stack
is AC behind the target's own faults, and at once where the page is absent (notes/assumptions/37.md), `ret` without a return address HD with the PC, below the
depth at `ensure` an illegal instruction, and PZ where it empties the on-chip entries and the spill line it would refill them from cannot be corrected: which
line that is says notes/assumptions/60.md, and that this PZ comes before the target's faults notes/assumptions/61.md; the core logs the line. -/
def Obligations.TransferResults : Prop :=
  ∀ (s : State) (fk : Nat) (x : Fibre) (g : Guard), Issues s g fk x →
    let bk := fkBk fk
    let core := (s.group bk (fkG fk)).core
    let land := fun (a kind : Nat) (ok : Fibre → Fibre) =>
      if a % 8 ≠ 0 then Host.Outcome.next (s.faulted fk .hd a)
      else match s.fetchWord bk core a with
        | .fault fc d => .next (s.faulted fk fc d)
        | .absent => .next ((s.setStat fk (.page a)).request (s.ctxOf bk) a)
        | .wait => .next s
        | .word w => if w / 2 ^ 56 % 256 = kind then .next (s.updFib fk fun y => { ok y with pc := a, left := 68, stat := .ready, ahead := [] })
            else .next (s.faulted fk .hd a)
    let full := fun (a : Nat) => s.fetchWord bk core a = .absent ∨ ∃ w, s.fetchWord bk core a = .word w ∧ w / 2 ^ 56 % 256 = 0xF1
    (∀ (t : Target), (∀ r, t = .far r → readable s fk (.s r) false true = true) →
      let a := match t with
        | .disp d => (BitVec.ofInt 64 (s.ipc + 8 * (BitVec.ofNat 8 d).toInt)).toNat
        | .far r => value s fk (.s r) false true
      exec (.br g t) s = land a 0xF0 id ∧
      (x.stack.length < 68 → exec (.call g t) s = land a 0xF1 fun y => { y with stack := (s.ipc + 8) :: y.stack, chip := min 4 (y.chip + 1) }) ∧
      (68 ≤ x.stack.length → a % 8 = 0 → full a → exec (.call g t) s = .next (s.faulted fk .ac a))) ∧
    (∀ (o : Opnd), readable s fk o false true = true →
      let a := value s fk o false true
      exec (.jmpi g o) s = land a 0xF0 id ∧
      (x.stack.length < 68 → exec (.callInd g o) s = land a 0xF1 fun y => { y with stack := (s.ipc + 8) :: y.stack, chip := min 4 (y.chip + 1) }) ∧
      (68 ≤ x.stack.length → a % 8 = 0 → full a → exec (.callInd g o) s = .next (s.faulted fk .ac a))) ∧
    (x.stack = [] → exec (.ret g) s = .next (s.faulted fk .hd s.ipc)) ∧
    (∀ t l, x.stack = t :: l →
      let inFrame := s.depth bk ≠ 0 ∧ x.stack.length ≤ s.depthFloor fk
      (inFrame → exec (.ret g) s = .next (s.openFault bk fk .il s.ipc)) ∧
      let lost := x.chip ≤ 1 ∧ l ≠ [] ∧ x.spoil.testBit ((l.length - 1) / 16) = true
      (¬ inFrame → lost → exec (.ret g) s = .next ((s.logSpill fk).openFault bk fk .pz s.ipc) ∧
        (core < 192 → sget none s.host.erb core = none → ∃ ad sy, ad % 128 = 0 ∧ sget none (s.logSpill fk).host.erb core =
          some ⟨true, 3, 10, 0, true, s.ctxOf bk, ad, sy, s.tickDie (core / 48)⟩)) ∧
      (¬ inFrame → ¬ lost → exec (.ret g) s = land t 0xF0 fun y =>
        { y with stack := l, chip := if y.chip ≤ 1 then min 1 l.length else y.chip - 1 }))

/-- R269 to R271, outside every frame: `fspawn` creates a fibre at the group's lowest free home lane, which stands at the target header with
predicates clear and an empty call stack, passes it the argument and returns the lane, or, whatever its target, returns 0xFFFFFFFF and creates nothing; `fend` ends
the fibre; `exit` ends every fibre of its block. Inside a frame each is an illegal instruction and nothing else. -/
def Obligations.FibreLifeResults : Prop :=
  ∀ (s : State) (fk : Nat) (x : Fibre) (b : Block) (g : Guard), Issues s g fk x → s.block? (fkBk fk) = some b → swf none s.rs.fibres = true →
    let bk := fkBk fk
    let grp := fkG fk
    (b.frames ≠ [] → (∀ d t, exec (.fspawn g d t) s = .next ({ s with cur := [] }.openFault bk fk .il s.ipc)) ∧
      exec (.fend g) s = .next (settleCur s ({ s with cur := [] }.openFault bk fk .il s.ipc)) ∧
      exec (.exit g) s = .next ({ s with cur := [] }.openFault bk fk .il s.ipc)) ∧
    (Calm s fk b →
      (∀ (d : Nat) (disp : Nat), s.wordReady fk d (fkL fk) = true → s.busyReg bk grp d = false →
        let a := (BitVec.ofInt 64 (s.ipc + 8 * (BitVec.ofNat 8 disp).toInt)).toNat
        let runs := fun (t : State) => exec (.fspawn g d (.disp disp)) s = .next t ∧
          t.fib fk = some ({ x with livev := max x.livev (d + 1) } : Fibre).adv
        (∀ l w, l < 64 → s.fib (fkOf bk grp l) = none → (∀ j < l, s.fib (fkOf bk grp j) ≠ none) →
          a % 8 = 0 → s.fetchWord bk (s.group bk grp).core a = .word w → w / 2 ^ 56 % 256 = 0xF1 →
          ∃ t, runs t ∧ (∃ y, t.fib (fkOf bk grp l) = some y ∧ y.pc = a ∧ y.left = 68 ∧ y.preds = 0 ∧ y.stack = [] ∧ y.stat = .ready) ∧
            t.vraw bk grp d l = s.vraw bk grp d (fkL fk) ∧ t.vraw bk grp d (fkL fk) = l) ∧
        ((∀ l < 64, s.fib (fkOf bk grp l) ≠ none) → ∃ t, runs t ∧ t.vraw bk grp d (fkL fk) = 0xFFFFFFFF ∧
          ∀ k, s.fib k = none → t.fib k = none)) ∧
      exec (.fend g) s = .next (settleCur s (s.dropFib fk)) ∧
      ((∀ k y, s.fib k = some y → fkBk k = bk → k ≠ fk → y.stat = .ready) → exec (.fend g) s = .next (s.dropFib fk)) ∧
      (∃ t, exec (.exit g) s = .next t ∧ (∀ k, fkBk k = bk → t.fib k = none) ∧ (∀ k, fkBk k ≠ bk → t.fib k = s.fib k) ∧
        t.mem = s.mem ∧ t.rs.vregs = s.rs.vregs))

/-- R126, R272, R273: a fibre that reaches `bar`, `bar.cl` or `fsort` while others of its set are still to come waits there, and the first arrival
starts the barrier timeout; the last of its block to reach `bar`, or of its block's fibres on its core to reach `bar.cl`, sends them all on once
no store-window write of theirs is under way; the fibres of other cores stay.
R272: `fsort` by the last live fibre of the block on its core, outside every frame: with the counters at zero and the mask's chunks in every
local allotment, fibre k of the order by (key, old number) stands at home lane k of the core's groups in turn; the lanes of the chunks that sB
names move with it, D is its old number, and it goes on with its predicates and call stack. -/
def Obligations.BarrierAndSortResults : Prop :=
  (∀ (s : State) (fk : Nat) (x : Fibre) (b : Block) (g : Guard), Issues s g fk x → Calm s fk b → swf none s.rs.fibres = true →
    let bk := fkBk fk
    let coreOf := fun (k : Nat) => (s.group bk (fkG k)).core
    coreOf fk < Config.cores → coreOf fk ∈ b.cores → (∀ c ∈ b.cores, c < Config.cores) →
    let mate := fun (k : Nat) (y : Fibre) => s.fib k = some y ∧ fkBk k = bk ∧ k ≠ fk
    let waits := fun (key : Nat) (st : FStat) => Host.Outcome.next ((s.setStat fk st).updBlock bk fun y =>
      { y with clFirst := if (sget none y.clFirst key).isSome then y.clFirst
          else sset none y.clFirst key (some (if y.bto = 0 then 0 else s.tick + y.bto)) })
    ((∀ k y, mate k y → y.stat = .ready) → (∃ k y, mate k y ∧ coreOf k = coreOf fk) →
      exec (.bar g) s = waits keyBar .bar ∧ exec (.barCl g) s = waits (keyBarCl (coreOf fk)) .barCl ∧
      ∀ d a m, free s fk (.v d) false false = true → readable s fk (.v a) false false = true →
        exec (.fsort g d a m) s = waits (keySort (coreOf fk) s.ipc) (.coll (.fsort g d a m) true)) ∧
    ((∀ k y, mate k y → y.stat = .bar ∧ s.winDone k = true) → s.winDone fk = true →
      ∃ t, exec (.bar g) s = .next t ∧ t.rs.vregs = s.rs.vregs ∧ t.mem = s.mem ∧
        ∀ k y, s.fib k = some y → t.fib k = some (if fkBk k = bk then y.adv else y)) ∧
    ((∀ k y, mate k y → if coreOf k = coreOf fk then y.stat = .barCl ∧ s.winDone k = true else y.stat = .ready) → s.winDone fk = true →
      ∃ t, exec (.barCl g) s = .next t ∧ t.rs.vregs = s.rs.vregs ∧ t.mem = s.mem ∧
        ∀ k y, s.fib k = some y → t.fib k = some (if fkBk k = bk ∧ coreOf k = coreOf fk then y.adv else y))) ∧
  (∀ (s : State) (g : Guard) (fk : Nat) (x : Fibre) (b : Block) (d a m : Nat), LastToArrive s g fk x b (.fsort g d a m) → OneGroup s fk b →
     g = { u := false, gn := false, gp := 15 } →
     let bk := fkBk fk
     let gs := (List.range b.groups.length).filter fun y => (b.group y).core == (s.group bk (fkG fk)).core
     let mask := s.uraw bk (gs.headD 0) m
     let fs := (s.rs.fibres.filter fun p => fkBk p.1 == bk && p.2.isSome).map (·.1)
     (s.group bk (fkG fk)).core ∈ b.cores → free s fk (.v d) false false = true → readable s fk (.v a) false false = true →
     (∀ o ∈ s.ops, o.bk = bk → o.g ∈ gs → (o.cls = .ld ∨ o.cls = .cp ∨ o.cls = .tl) → o.fin = true) →
     s.busyU bk (gs.headD 0) m = false → s.upois bk (gs.headD 0) m = false → (∀ k ∈ fs, s.winDone k = true) →
     (∀ j < 48, mask.testBit j = true → ∀ y ∈ gs, 32 * j < s.allot bk y) →
     (∀ y ∈ gs, d < s.allot bk y) → (mask.testBit (d / 32) = false) →
     let key := fun (k : Nat) => s.vraw bk (fkG k) a (fkL k) * 8192 + k % 8192
     ∃ t, exec (.fsort g d a m) s = .next t ∧
       ∀ k ∈ fs, ∀ y, s.fib k = some y →
         let rank := (fs.filter fun j => decide (key j < key k)).length
         let to_ := fkOf bk (gs.getD (rank / 64) 0) (rank % 64)
         (∃ z, t.fib to_ = some z ∧ z.pc = y.pc + 8 ∧ z.left = y.left - 1 ∧ z.stat = .ready ∧ z.preds = y.preds ∧ z.stack = y.stack) ∧
         t.vraw bk (fkG to_) d (fkL to_) = k % 8192 ∧
         ∀ r < 1536, mask.testBit (r / 32) = true → (∀ j ∈ fs, ∀ z, s.fib j = some z → r < z.livev) →
           t.vraw bk (fkG to_) r (fkL to_) = s.vraw bk (fkG k) r (fkL k))

/-! ### Recovery frames -/

/-- R309, R312, R314: when the last live fibre arrives at `ensure` below the nesting limit and the layout reads, with LD, CP and TL at zero, the
block opens a frame at routine 0 with the limit of D, every group takes its next generation, and every fibre goes on; registers and memory stay.
At depth 8 it is an illegal instruction of the innermost frame. -/
def Obligations.EnsureResults : Prop :=
  ∀ (s : State) (g : Guard) (fk : Nat) (x : Fibre) (b : Block) (tg : Target) (d : Nat), LastToArrive s g fk x b (.ensure g tg d) →
    let bk := fkBk fk
    let at_ := match tg with
      | .disp n => (BitVec.ofInt 64 (s.ipc + 8 * (BitVec.ofNat 8 n).toInt)).toNat
      | .far r => s.uraw bk 0 r
    let lim := s.uraw bk 0 d % 2 ^ 32
    (b.frames.length = 8 → s.ipc < 2 ^ 64 → ∃ t c, exec (.ensure g tg d) s = .next t ∧ t.block? bk = some c ∧ c.mode = .failing ∧ c.failDepth = 8 ∧
      (c.frames.head?.map fun f => (f.cause, f.fpc, f.fdet)) = some (1, s.ipc, s.ipc)) ∧
    (∀ acc cont alts, b.frames.length < 8 → s.busyU bk 0 d = false → s.upois bk 0 d = false →
      (∀ r, tg = .far r → s.busyU bk 0 r = false ∧ s.upois bk 0 r = false) →
      s.layout bk (s.group bk 0).core at_ = .ok acc cont alts → s.quiet bk = true → (∀ y ∈ b.groups, y.gen < 65536) →
      ∃ t c f, exec (.ensure g tg d) s = .next t ∧ t.block? bk = some c ∧ c.frames = f :: b.frames ∧ c.mode = .run ∧
        f.test = at_ ∧ f.lim = lim ∧ f.k = 0 ∧ f.nalt = alts.length ∧ f.acc = acc ∧ f.cont = cont ∧ f.epc = s.ipc ∧
        f.dead = (if lim = 0 then none else some (s.clockOf bk + lim)) ∧
        c.groups.map Group.gen = b.groups.map (fun y => (y.gen + 1) % 65536) ∧ f.gens = c.groups.map Group.gen ∧
        t.mem = s.mem ∧ t.rs.vregs = s.rs.vregs ∧ t.rs.uregs = s.rs.uregs ∧
        ∀ k y, s.fib k = some y → t.fib k = some (if fkBk k = bk then y.adv else y))

/-- R313, R316, R317: `accept` in its frame, with LD, CP and TL at zero: with every predicate true the frame pops, its staged stores pass to the
parent, or, at depth 1 in a normal region, each becomes a store under ST of its group with its data and mask: it stays one while the first waits for its
page, and a lone one
whose page is there leaves its masked bytes, or its reduction's result, in memory and nothing else; and every fibre goes to the continuation header; in a
conversation the block sends its vote and waits; with
one false the frame fails with cause 0 and memory stays. Outside every frame, or elsewhere than the frame's own `accept`, it is illegal. -/
def Obligations.AcceptResults : Prop :=
  ∀ (s : State) (g : Guard) (fk : Nat) (x : Fibre) (b : Block) (p : Nat), LastToArrive s g fk x b (.accept g p) →
    let bk := fkBk fk
    (b.frames = [] → ∃ t c r, exec (.accept g p) s = .next t ∧ t.block? bk = some c ∧ c.mode = .freezing ∧ c.fault = some r ∧
      r.code = 1 ∧ r.pc = s.ipc) ∧
    (∀ f rest, b.frames = f :: rest →
      (f.acc ≠ s.ipc → ∃ t c, exec (.accept g p) s = .next t ∧ t.block? bk = some c ∧ c.mode = .failing ∧ c.failDepth = rest.length + 1 ∧
        (c.frames.head?.map fun y => (y.cause, y.fpc)) = some (1, s.ipc)) ∧
      (f.acc = s.ipc → s.quiet bk = true →
        ((∃ k y, s.fib k = some y ∧ fkBk k = bk ∧ y.pred p = false) → ∃ t c, exec (.accept g p) s = .next t ∧ t.block? bk = some c ∧
          c.mode = .failing ∧ c.failDepth = rest.length + 1 ∧ (c.frames.head?.map fun y => (y.cause, y.fpc)) = some (0, s.ipc) ∧
          t.mem = s.mem ∧ t.rs.vregs = s.rs.vregs) ∧
        ((∀ k y, s.fib k = some y → fkBk k = bk → y.pred p = true) →
          (∀ q pa, f.conv = some (q, pa) → ∃ t c, exec (.accept g p) s = .next t ∧ t.block? bk = some c ∧ c.mode = .voting ∧
            t.hub.votes = s.hub.votes ++ [(bk, pa, .acc)] ∧ t.mem = s.mem ∧
            (c.frames.head?.map fun y => (y.dead, y.left)) = some (none, match f.dead with | some e => e - s.clockOf bk | none => 0)) ∧
          (∀ w, f.conv = none → s.land bk (s.group bk 0).core f.cont [0xF0] = .ok w → ∃ t c, exec (.accept g p) s = .next t ∧
            t.block? bk = some c ∧ c.frames = rest ∧ c.mode = .run ∧
            (∀ k y, s.fib k = some y → fkBk k = bk → t.fib k = some { y with pc := f.cont, left := 68, stat := .ready, ahead := [] }) ∧
            (rest ≠ [] ∨ (s.rcbOf bk).det = true → t.mem.stages = s.mem.stages.map fun y =>
              if y.bk = bk ∧ y.depth = rest.length + 1 then { y with depth := rest.length } else y) ∧
            (rest = [] → (s.rcbOf bk).det = false → (∀ y ∈ t.mem.stages, y.bk = bk → y.inh = true) ∧
              let mine := s.mem.stages.filter fun y => y.bk == bk && !y.inh
              let chk := fun (y : Stg) => s.check (s.ctxOf bk) y.ptr y.n 1 .store false
              (∀ y l, mine = y :: l → chk y = .wait ∨ (∃ tg, chk y = .absent tg) → ∀ z ∈ mine, ∃ o ∈ t.ops, o.bk = bk ∧ o.g = z.g ∧ o.cls = .st ∧
                o.kind = (if z.red.isSome then .red else .put) ∧ o.n = z.n ∧ o.scope = z.scope ∧
                o.lanes.map (fun x => (x.fk, x.ptr, x.src, x.src2, x.st)) = [(z.fk, z.ptr, z.data, z.mask, .commit)]) ∧
              ∀ y pa mt, mine = [y] → y.mask ≠ 0 → chk y = .ok (.mem pa mt) → mt ≤ 1 → s.memUp pa mt = true → pa % 128 + y.n ≤ 128 → s.renames bk = [] →
                (∀ a, a < pa ∨ pa + y.n ≤ a → t.mem.homeB a = s.mem.homeB a) ∧
                (y.red = none → ∀ i < y.n, t.mem.homeB (pa + i) = if y.mask.testBit i then y.data / 256 ^ i % 256 else s.mem.homeB (pa + i)) ∧
                ∀ op ty, y.red = some (op, ty) → y.n = ty.size → s.mem.stages = [y] →
                  t.mem.homeNum pa y.n = (atomNew op ty (s.mem.homeNum pa y.n) y.data y.mask).1 % 2 ^ (8 * y.n))))))

/-- R310, R311, R323: `jtest` inside a frame stands at the frame's test header; outside every frame, and `elseby` and `elseerr` wherever they are
reached, are illegal instructions; `frq` reads cause, depth, routine and conversation bit of the innermost frame, or 0.
R326, R327, R329: `cjoin` in a frame without a conversation enters the block at a sound object: an idle one starts at round 0 with this one member; at
a running or failing one the count rises, and a failing one notifies the new member. Every fibre goes on, and again at the same object they only
go on. -/
def Obligations.FrameQueryAndJoinResults : Prop :=
  (∀ (s : State) (fk : Nat) (x : Fibre) (b : Block) (g : Guard), Issues s g fk x → s.block? (fkBk fk) = some b →
    let bk := fkBk fk
    let il := Host.Outcome.next (s.openFault bk fk .il s.ipc)
    (∀ t, exec (.elseby g t) s = il) ∧ exec (.elseerr g) s = il ∧ (b.frames = [] → exec (.jtest g) s = il) ∧
    (∀ f rest w, b.frames = f :: rest → s.land bk (s.group bk (fkG fk)).core f.test [0xF2] = .ok w →
      exec (.jtest g) s = .next (s.updFib fk fun y => { y with pc := f.test, left := 68, stat := .ready, ahead := [] })) ∧
    (∀ d, free s fk (.v d) false false = true →
      (b.frames = [] → exec (.frq g d) s = .next (gives s fk (.v d) false false .z32 0 0)) ∧
      (∀ f rest, b.frames = f :: rest → f.cause < 16 → f.k < 16 → rest.length < 8 →
        exec (.frq g d) s = .next (gives s fk (.v d) false false .z32
          (f.cause * 2 ^ 28 + (rest.length + 1) * 2 ^ 24 + f.k * 2 ^ 20 + if f.conv.isSome then 2 ^ 19 else 0) 0)))) ∧
  (∀ (s : State) (fk : Nat) (x : Fibre) (b : Block) (e : Eng) (f : Frame) (rest : List Frame), LastToArrive s e.g fk x b (.cjoin e) →
     b.frames = f :: rest → (∀ y ∈ rest, y.conv = none) → s.busyU (fkBk fk) 0 e.a = false → s.upois (fkBk fk) 0 e.a = false →
     let bk := fkBk fk
     let p := s.uraw bk 0 e.a
     (∀ pa, f.conv = some (p, pa) → ∃ t c, exec (.cjoin e) s = .next t ∧ t.block? bk = some c ∧ c.frames = b.frames ∧ t.mem = s.mem ∧
       t.hub = s.hub ∧ ∀ k y, s.fib k = some y → fkBk k = bk → t.fib k = some y.adv) ∧
     (∀ pa mt, f.conv = none → s.check (s.ctxOf bk) p 128 128 .atom false = .ok (.mem pa mt) → mt ≤ 1 →
       let w := convObj s pa
       let state := w / 2 ^ 8 % 4
       let joined := w / 2 ^ 32 % 256
       let members := w % 32
       cResv w = false → 2 ≤ members → members ≤ 16 → state < 3 → joined ≠ members →
       ∃ t c, exec (.cjoin e) s = .next t ∧ t.block? bk = some c ∧ c.frames = { f with conv := some (p, pa) } :: rest ∧
         t.mem = (s.putObj pa (if state = 0 then setBits (setBits (setBits (setBits w 64 32 0) 48 8 0) 32 8 1) 8 2 1
           else setBits w 32 8 (joined + 1))).mem ∧
         (t.conv pa).members = (if state = 0 then [bk] else (s.conv pa).members ++ [bk]) ∧
         t.hub.notices = (if state = 2 then s.hub.notices ++ [bk] else s.hub.notices) ∧
         ∀ k y, s.fib k = some y → fkBk k = bk → t.fib k = some y.adv))

/-! ### Engines: issue -/

/-- R91, R94, R98 to R102, R118: a Ladle instruction checks its record in the order form, alignment, cores, ranges, scope, and its command then enters
the core's queue under CP; without room, or while the lanes it will write are owed to another operation, the fibre stays at the instruction.
`lpermit` takes no queue entry. -/
def Obligations.LadleIssue : Prop :=
  ∀ (s : State) (fk : Nat) (x : Fibre) (f : Eng), Issues s f.g fk x → Opens s fk .cp →
    let bk := fkBk fk
    let core := (s.group bk (fkG fk)).core
    let u := only fk
    let flt := fun (fc : FClass) (d : Nat) => Host.Outcome.next (s.faulted fk fc d)
    (∀ w, Record s fk f.a 64 64 w →
      let d := s.wnum bk (winGrp w) (winOff w) 64
      let go := fun (k : CmdKind) =>
        if ldIll k d = true then flt .il openDet
        else if ldMisaligned k d = true then flt .ma openDet
        else if s.ldBadCore u k core d = true then flt .ac openDet
        else match s.ldRanges u k d with
          | some (fc, n) => flt fc n
          | none =>
            if (k = .lput ∨ k = .lcopy) ∧ s.scopeOk fk (ldScope d) = false then flt .ac (ldScope d)
            else if s.dstBusy u (s.ldDst u k core d) then .next s
            else .next (if s.queueRoom core Config.ladleQueue CmdKind.ladle
              then s.queued fk .cp { s.cmdOf u k with addr := w, desc := BitVec.ofNat 1024 d, dst := s.ldDst u k core d } else s)
      exec (.lfetch f) s = go .lfetch ∧ exec (.lcast f) s = go .lcast ∧ exec (.lput f) s = go .lput ∧ exec (.lcopy f) s = go .lcopy) ∧
    (∀ w, Record s fk f.a 16 16 w →
      let r := s.wnum bk (winGrp w) (winOff w) 16
      exec (.lpermit f) s = if r / 2 ^ 96 % 2 ^ 32 ≠ 0 ∨ r / 2 ^ 5 % 2 ^ 59 ≠ 0 then flt .il openDet
        else .next (s.queued fk .cp { s.cmdOf u .lpermit with addr := w, desc := BitVec.ofNat 1024 r }))

/-- R187 to R191, R204 to R210, R314: a Griddle instruction checks its record, and its command then enters the core's queue under TL, the first of a
frame that names a bank saving it (but for `gload`, which names none); without room the fibre stays, and at `gdrain` while the lanes it will write
are owed to another operation. `gsave` and `gresume` take a pointer, aligned to 128, and a bank, 0 or 1. -/
def Obligations.GriddleIssue : Prop :=
  ∀ (s : State) (fk : Nat) (x : Fibre) (g : Guard) (a : Nat), Issues s g fk x → Opens s fk .tl →
    let bk := fkBk fk
    let u := only fk
    let flt := fun (fc : FClass) (d : Nat) => Host.Outcome.next (s.faulted fk fc d)
    let room := fun (c : Cmd) => s.queueRoom c.core Config.griddleQueue CmdKind.griddle
    let enter := fun (c : Cmd) =>
      Host.Outcome.next (if room c then (match s.saveBank c with
        | some t => t.queued fk .tl c
        | none => s.noRoom bk (s.who fk)) else s)
    (∀ w, Record s fk a 128 128 w →
      let d := s.wnum bk (winGrp w) (winOff w) 128
      let c := fun (k : CmdKind) => { s.cmdOf u k with addr := w, desc := BitVec.ofNat 1024 d, sub := d / 2 ^ 48 % 2 }
      exec (.gmma ⟨g, a⟩) s = (match gmmaCheck s u d with
        | some (fc, n) => flt fc n
        | none => enter (c .gmma)) ∧
      exec (.gdrain ⟨g, a⟩) s = (if s.dstBusy u (gdrainDst u d) then .next s else match gdrainCheck s u d with
        | some (fc, n) => flt fc n
        | none => enter { c .gdrain with dst := gdrainDst u d }) ∧
      exec (.gzero ⟨g, a⟩) s = enter (c .gzero) ∧
      ∀ r, s.busyU bk (fkG fk) r = false → exec (.gstat ⟨g, r, a⟩) s = enter { c .gstat with du := some r }) ∧
    (∀ w, Record s fk a 16 16 w →
      let r := s.wnum bk (winGrp w) (winOff w) 16
      exec (.gload ⟨g, a⟩) s = match gloadCheck s u r with
        | some (fc, n) => flt fc n
        | none =>
          let c := { s.cmdOf u .gload with addr := w, desc := BitVec.ofNat 1024 r, sub := r / 2 ^ 32 % 16 }
          .next (if room c then s.queued fk .tl c else s)) ∧
    (∀ b, readable s fk (.s a) false true = true → readable s fk (.s b) false true = true →
      let p := value s fk (.s a) false true
      let n := value s fk (.s b) false true
      let go := fun (k : CmdKind) =>
        if 1 < n then flt .fm openDet else if p % 128 ≠ 0 then flt .ma p else enter { s.cmdOf u k with addr := p, sub := n }
      exec (.gsave ⟨g, a, b⟩) s = go .gsave ∧ exec (.gresume ⟨g, a, b⟩) s = go .gresume)

/-- R213, R221 to R230: a Jasper instruction of a block that does not hold its core's array is an illegal instruction; of the holder, its command
enters the core's queue under TL with what it reads at issue. -/
def Obligations.JasperIssue : Prop :=
  ∀ (s : State) (fk : Nat) (x : Fibre) (g : Guard), Issues s g fk x →
    let bk := fkBk fk
    let grp := fkG fk
    let core := (s.group bk grp).core
    let u := only fk
    let flt := fun (fc : FClass) (d : Nat) => Host.Outcome.next (s.faulted fk fc d)
    let enter := fun (c : Cmd) =>
      Host.Outcome.next (if s.queueRoom core Config.jasperQueue CmdKind.jasper then s.queued fk .tl c else s)
    let row := fun (r : Nat) => (List.range 64).map fun l => BitVec.ofNat 32 (s.vraw bk grp r l)
    let whole := fun (r : Nat) => ∀ l < 64, s.wordReady fk r l = true
    (s.holdsJas bk core = false → ∀ a b m n z, exec (.cload ⟨g, a, b⟩) s = flt .il openDet ∧ exec (.cstore ⟨g, a, b⟩) s = flt .il openDet ∧
      exec (.cseed ⟨g, a⟩) s = flt .il openDet ∧ exec (.ctab ⟨g, a⟩) s = flt .il openDet ∧ exec (.cinfer g a b m) s = flt .il openDet ∧
      exec (.cvote g a b m) s = flt .il openDet ∧ exec (.ctrain g a b m n z) s = flt .il openDet ∧ exec (.cfb g a b m n z) s = flt .il openDet) ∧
    (s.holdsJas bk core = true → Opens s fk .tl →
      (∀ a b, readable s fk (.s a) false true = true → readable s fk (.s b) false true = true →
        let p := value s fk (.s a) false true
        let v := value s fk (.s b) false true
        let n := v / 256 % 256 + 1
        let go := fun (k : CmdKind) (acc : Kind) =>
          if v / 2 ^ 16 ≠ 0 ∨ 256 < v % 256 + n then flt .fm openDet
          else match s.boundsCheck (s.ctxOf bk) p (1024 * n) 128 acc with
            | some fc => flt fc p
            | none => enter { s.cmdOf u k with addr := p, sub := v % 256, b := n }
        exec (.cload ⟨g, a, b⟩) s = go .cload .load ∧ exec (.cstore ⟨g, a, b⟩) s = go .cstore .store) ∧
      (∀ a, readable s fk (.s a) false false = true →
        let w := value s fk (.s a) false false
        let holds := fun (n : Nat) (c : Cmd) => { c with
          addr := w
          va := (List.range n).map fun j => BitVec.ofNat 32 (s.wnum bk (winGrp w) (winOff w + 4 * j) 4)
          vb := (List.range n).map fun j => if s.wpois bk (winGrp w) (winOff w + 4 * j) 4 then 1 else 0 }
        (s.winCheck bk w 16 16 = none → s.recBusy fk w 16 = false → exec (.cseed ⟨g, a⟩) s = enter (holds 4 (s.cmdOf u .cseed))) ∧
        (s.winCheck bk w 320 64 = none → s.recBusy fk w 320 = false → exec (.ctab ⟨g, a⟩) s = enter (holds 80 (s.cmdOf u .ctab)))) ∧
      (∀ d a m, whole a → m < 16 → d < s.allot bk grp → d < 1536 → (∀ j < 4, m.testBit j = true → ∀ l < 16, s.waitV fk d (16 * j + l) = false) →
        let c := fun (k : CmdKind) => { s.cmdOf u k with
          sub := d, b := m, va := row a, dst := ((List.range 4).filter m.testBit).map fun j => (256 * d + 64 * j, 64) }
        exec (.cinfer g d a m) s = enter (c .cinfer) ∧ exec (.cvote g d a m) s = enter (c .cvote)) ∧
      (∀ a b m n z, whole a → whole b →
        let c := fun (k : CmdKind) (code : Nat) => { s.cmdOf u k with b := code, va := row a, vb := row b }
        exec (.ctrain g a b m n z) s = enter (c .ctrain (m + 16 * n + if z then 64 else 0)) ∧
        exec (.cfb g a b m n z) s = enter (c .cfb ((if z then 1 else 0) + 2 * n + 8 * m))))

/-! ### Tasks, mailboxes and the system -/

/-- R291 to R293, R304, R307: `tkpost` with a sound descriptor whose tiles pass their checks creates one pending task of the fibre's next child
index under its block's id, and goes on; a malformed one is FM and one for an unreadable tile AC; a full dependence table holds the fibre. `await` waits on
the timeline its
record names as `tlwait` does. -/
def Obligations.TaskIssue : Prop :=
  ∀ (s : State) (fk : Nat) (x : Fibre) (b : Block) (g : Guard) (a w : Nat), Issues s g fk x → s.block? (fkBk fk) = some b →
    s.acqWait fk = false →
    let bk := fkBk fk
    (Record s fk a 128 128 w → (∀ y ∈ s.blocks, y.uid < s.seq) →
      let d := s.wnum bk (winGrp w) (winOff w) 128
      let consts := (s.launchOf bk).map Launch.consts
      let bad := taskBad d = true ∨ (∃ l, consts = some l ∧ 94 < l.length) ∨ 65536 ≤ x.posts ∨ 8 ≤ b.path.length
      (bad → exec (.tkpost ⟨g, a⟩) s = .next (s.faulted fk .fm openDet)) ∧
      (¬ bad → (∀ p fc n, s.tilesCheck bk d = some (p, .fault fc n) → exec (.tkpost ⟨g, a⟩) s = .next (s.faulted fk .ac p)) ∧
        (∀ p n, s.tilesCheck bk d = some (p, .absent n) →
          exec (.tkpost ⟨g, a⟩) s = .next ((s.setStat fk (.page p)).request (s.ctxOf bk) p)) ∧
        (s.tilesCheck bk d = none →
          let full := Config.depEntries ≤ (s.tableOf (quadOf (s.group bk (fkG fk)).core)).length
          (full → exec (.tkpost ⟨g, a⟩) s = .next s) ∧
          (¬ full → ∃ t nb tk c, exec (.tkpost ⟨g, a⟩) s = .next t ∧ t.block? s.seq = some nb ∧ nb.task = some tk ∧
            tk.desc = BitVec.ofNat 1024 d ∧ tk.done = false ∧ tk.poster = bk ∧ tk.child = fk % 8192 * 65536 + x.posts ∧
            nb.path = b.path ++ [tk.child] ∧ nb.lid = b.lid ∧ nb.st = .pending ∧ t.seq = s.seq + 1 ∧ t.block? bk = some c ∧
            c.kids = b.kids ++ [{ idx := tk.child, isLaunch := false, ref := s.seq, folded := false }] ∧
            t.fib fk = some { x.adv with posts := x.posts + 1 } ∧ t.mem = s.mem ∧ t.rs.vregs = s.rs.vregs)))) ∧
    (Record s fk a 16 16 w →
      let r := s.wnum bk (winGrp w) (winOff w) 16
      let p := r % 2 ^ 64
      let v := r / 2 ^ 64 % 2 ^ 64
      exec (.await ⟨g, a⟩) s = match s.check (s.ctxOf bk) p 8 8 .atom false with
        | .ok (.out _ _) => .next (s.faulted fk .ac p)
        | .ok t =>
          let u := (s.touch (s.ctxOf bk) t).refreshCopy (s.group bk (fkG fk)).core t
          if s.linkDown t = true then .next (s.faulted fk .ac p)
          else if s.ownPending fk t p 8 = true then .next s
          else if t = .none then .next ((s.setStat fk (.page p)).request (s.ctxOf bk) p)
          else if v ≤ ofNats (u.readTgt t 8).1 then .next (u.advance fk)
          else .next { u.setStat fk (.timeline t v u.seq true) with seq := u.seq + 1 }
        | .fault fc d => .next (s.faulted fk fc d)
        | .wait => .next s
        | _ => .next ((s.setStat fk (.page p)).request (s.ctxOf bk) p))

/-- R302, R305: `launch` of a launch descriptor: accepted, it lists a child of the block and returns the launch's id, or its child index in a
deterministic region, in D; refused, D is 0, the refusal's class is reported after issue with the descriptor's address as detail, and its DONE advances;
while a page is absent
the fibre stays, acceptance being one step that is tried again (notes/assumptions/19.md). Any other command code is FM.
R306: when the last live fibre arrives at `dsync`: with a child still running the block waits, marked as synced so that its tasks may
start; with all complete it goes on once the stores of its groups are performed, or in a deterministic region folds their staging, or is a
conflict. -/
def Obligations.LaunchAndSyncResults : Prop :=
  (∀ (s : State) (fk : Nat) (x : Fibre) (b : Block) (l : Launch) (g : Guard) (d : Option Nat) (a w : Nat), Issues s g fk x → Calm s fk b →
    x.stat = .ready → s.launchOf (fkBk fk) = some l → s.acqWait fk = false → Record s fk a 64 64 w →
    (∀ n, d = some n → s.busyU (fkBk fk) (fkG fk) n = false) →
    let bk := fkBk fk
    let desc := s.wnum bk (winGrp w) (winOff w) 64
    let idx := fk % 8192 * 65536 + x.posts
    let late := l.rcb.det = true ∧ (65536 ≤ x.posts ∨ 8 ≤ b.path.length)
    (desc / 2 ^ 392 % 256 ≠ 0 ∨ late → exec (.launch g d a) s = .next (s.faulted fk .fm openDet)) ∧
    (desc / 2 ^ 392 % 256 = 0 → ¬ late →
      (∀ t, s.accept l.ctx desc (some (bk, l)) = .wait t →
        exec (.launch g d a) s = .next { s with mem := { s.mem with preq := t.mem.preq } }) ∧
      (∀ key t, s.accept l.ctx desc (some (bk, l)) = .ok key t → t.blocks = s.blocks → t.rs = s.rs →
        ∃ u c, exec (.launch g d a) s = .next u ∧ u.launches = t.launches ∧ u.mem = t.mem ∧ u.block? bk = some c ∧
          c.kids = b.kids ++ [{ idx := if l.rcb.det then idx else 0, isLaunch := true, ref := key, folded := false }] ∧
          (u.fib fk).map Fibre.pc = some (x.pc + 8) ∧ (u.fib fk).map Fibre.posts = some (x.posts + if l.rcb.det then 1 else 0) ∧
          ∀ n, d = some n → u.uraw bk (fkG fk) n = (if l.rcb.det then idx else key) % 2 ^ 64) ∧
      (∀ fc t, s.accept l.ctx desc (some (bk, l)) = .no fc t →
        (∀ v, (t.refusal l.ctx desc w (some fc)).tlAdvance l.ctx (desc / 2 ^ 448 % 2 ^ 64) = (true, v) → v.blocks = s.blocks → v.rs = s.rs →
          ∃ u c, exec (.launch g d a) s = .next u ∧ u.launches = v.launches ∧ u.block? bk = some c ∧
            c.reports = b.reports ++ [(⟨fc.code, s.ipc, w, fkG fk, fkL fk⟩, 0)] ∧ (u.fib fk).map Fibre.pc = some (x.pc + 8) ∧
            ∀ n, d = some n → u.uraw bk (fkG fk) n = 0) ∧
        (∀ v, (t.refusal l.ctx desc w (some fc)).tlAdvance l.ctx (desc / 2 ^ 448 % 2 ^ 64) = (false, v) →
          exec (.launch g d a) s = .next { s with mem := { s.mem with preq := v.mem.preq } })))) ∧
  (∀ (s : State) (g : Guard) (fk : Nat) (x : Fibre) (b : Block), LastToArrive s g fk x b (.dsync g) →
     let bk := fkBk fk
     let waits := ∃ t c, exec (.dsync g) s = .next t ∧ t.block? bk = some c ∧ c.synced = true ∧ 
       t.fib fk = some { x with stat := .coll (.dsync g) (guardHolds s g fk) } ∧ t.mem = s.mem ∧
       ∀ k, k ≠ fk → t.fib k = s.fib k
     let goes := fun (m : MemSt) => ∃ t c, exec (.dsync g) s = .next t ∧ t.block? bk = some c ∧ c.synced = false ∧ t.mem = m ∧
       ∀ k y, s.fib k = some y → t.fib k = some (if fkBk k = bk then y.adv else y)
     ((∃ k ∈ b.kids, s.kidDone k = false) → waits) ∧
     ((∀ k ∈ b.kids, s.kidDone k = true) →
       ((s.rcbOf bk).det = false → ((∀ y < b.ngrp, s.fenceReady bk y s.seq = true) → goes s.mem) ∧
         ((∃ y < b.ngrp, s.fenceReady bk y s.seq = false) → waits)) ∧
       ((s.rcbOf bk).det = true →
         (∀ t, s.fold bk = some t → goes t.mem) ∧
         (s.fold bk = none → ∃ t c, exec (.dsync g) s = .next t ∧ t.block? bk = some c ∧ t.mem = s.mem ∧
           (b.frames = [] → c.mode = .freezing ∧ (c.fault.map fun r => (r.code, r.pc)) = some (10, s.ipc)) ∧
           (b.frames ≠ [] → c.mode = .failing ∧ (c.frames.head?.map fun f => (f.cause, f.fpc)) = some (10, s.ipc))))))

/-- R364 to R370: `msend` and `mrecv` check their record (FM for a set reserved bit, AC for a mailbox of another context or a payload past the
slot) and open an operation, for `mrecv` with the fibre held; `mpoll` checks its mailbox number; `pver.inc` and `pver.rd` open an operation. -/
def Obligations.MailboxIssue : Prop :=
  ∀ (s : State) (fk : Nat) (x : Fibre) (g : Guard) (a w : Nat), Issues s g fk x →
    let bk := fkBk fk
    let flt := fun (fc : FClass) => Host.Outcome.next (s.faulted fk fc openDet)
    let foreign := fun (m : Nat) => (s.mbx m).st = .free ∨ (s.mbx m).epi.toNat / 2 ^ 143 % 64 ≠ s.ctxOf bk
    let d := s.wnum bk (winGrp w) (winOff w) 64
    let resv := d % 2 ^ 50 ≠ 0 ∨ d / 2 ^ 128 % 2 ^ 320 ≠ 0
    let pofs := d / 2 ^ 51 % 2 ^ 14
    let len := d / 2 ^ 65 % 2 ^ 15
    let mbx := d / 2 ^ 80 % 2 ^ 16
    let ptr := d / 2 ^ 448 % 2 ^ 64
    (∀ r, Record s fk a 64 64 w → Opens s fk .st → s.busyU bk (fkG fk) r = false →
      exec (.msend ⟨g, r, a⟩) s = if resv then flt .fm else if foreign mbx ∨ 16384 < pofs * 16 + len then flt .ac
        else .next ((s.issued fk (mbxI .msend .st (.s r)) (laneOf fk ptr .none .pending d w)).advance fk)) ∧
    (Record s fk a 64 64 w → Opens s fk .ld →
      let u := (s.issued fk (mbxI .mrecv .ld (.v 0)) (laneOf fk ptr .none .pending d w)).setStat fk .lane
      exec (.mrecv ⟨g, a⟩) s = if resv ∨ d / 2 ^ 50 % 2 ^ 15 ≠ 0 then .next (s.faulted fk .fm openDet).arriveRecv
        else if foreign mbx ∨ 16384 < len then .next (s.faulted fk .ac openDet).arriveRecv else .next u.arriveRecv) ∧
    (∀ r, readable s fk (.s a) false true = true → Opens s fk .ld → s.busyU bk (fkG fk) r = false →
      let m := value s fk (.s a) false true
      exec (.mpoll ⟨g, r, a⟩) s = if m / 2 ^ 16 ≠ 0 then flt .fm else if foreign m then flt .ac
        else .next ((s.issued fk (mbxI .mpoll .ld (.s r)) (laneOf fk 0 .none .pending m 0)).advance fk)) ∧
    (∀ r, s.busyU bk (fkG fk) r = false →
      (Opens s fk .st → exec (.pverInc g r) s =
        .next ((s.issued fk (mbxI .pverInc .st (.s r)) (laneOf fk 0 .none .pending 0 0)).advance fk)) ∧
      (Opens s fk .ld → exec (.pverRd g r) s =
        .next ((s.issued fk (mbxI .pverRd .ld (.s r)) (laneOf fk 0 .none .pending 0 0)).advance fk)))

/-- R348, R349: `trap` takes TR with its immediate as detail; `srd` writes the selected register to D, the last failure's PC, detail and location, the launch
id, the control block's address, the context or the barrier timeout; `swr` sets the barrier timeout.
R336, R337, R350: `ctxq` with nothing of its group before it posts one entry of kind 3 with the fibre's lane, group, block and launch and
the values of A and B to the queue of the region's fault domain, and D is 1; a disabled or full queue counts the entry as lost, and D is 0. -/
def Obligations.SystemResults : Prop :=
  (∀ (s : State) (fk : Nat) (x : Fibre) (b : Block) (g : Guard), Issues s g fk x → s.block? (fkBk fk) = some b →
    let bk := fkBk fk
    (∀ imm, exec (.trap g imm) s = .next (s.takeFault bk ⟨14, s.ipc, imm, fkG fk, fkL fk⟩)) ∧
    (∀ d sel, s.busyU bk (fkG fk) d = false → sel < 7 →
      let top := b.frames.head?
      let v := match sel with
        | 0 => (top.map Frame.fpc).getD 0
        | 1 => (top.map Frame.fdet).getD 0
        | 2 => (top.map Frame.floc).getD 0 % 2 ^ 13
        | 3 => b.lid % 2 ^ 64
        | 4 => (s.rcbOf bk).addr
        | 5 => s.ctxOf bk
        | _ => b.bto
      exec (.srd g d sel) s = .next ((s.setU (s.who fk) bk (fkG fk) d v).advance fk)) ∧
    (∀ a sel, readable s fk (.s a) false true = true →
      exec (.swr g a sel) s = .next ((s.updBlock bk fun y => { y with bto := value s fk (.s a) false true }).advance fk))) ∧
  (∀ (s : State) (fk : Nat) (x : Fibre) (b : Block) (l : Launch) (g : Guard) (d a c : Nat), Issues s g fk x → Calm s fk b → s.ops = [] →
     s.launchOf (fkBk fk) = some l → free s fk (.v d) false false = true → readable s fk (.s a) false true = true →
     readable s fk (.s c) false true = true →
     let q := l.rcb.fdom % 8
     let cfg := sget evqcfgReset (s.ctx l.ctx).evqcfg q
     let ptr := sget 0 (s.ctx l.ctx).evqptr q
     let n := 2 ^ max (cfg / 2 ^ 8 % 16) 4
     let tail := ptr % 2 ^ 32
     let drop := cfg % 2 = 0 ∨ (tail + 1) % n = ptr / 2 ^ 32 % 2 ^ 32 % n
     let entry := 3 + fkL fk * 2 ^ 19 + fkG fk * 2 ^ 25 + b.idx % 2 ^ 32 * 2 ^ 32 + l.lid % 2 ^ 64 * 2 ^ 64 +
       value s fk (.s a) false true % 2 ^ 64 * 2 ^ 128 + value s fk (.s c) false true % 2 ^ 64 * 2 ^ 192
     ∃ t, exec (.ctxq g d a c) s = .next t ∧ t.vraw (fkBk fk) (fkG fk) d (fkL fk) = (if drop then 0 else 1) ∧
       (t.fib fk).map Fibre.pc = some (x.pc + 8) ∧
       (drop → t.mem = s.mem ∧ sget evqcfgReset (t.ctx l.ctx).evqcfg q / 4 % 64 = min (cfg / 4 % 64 + 1) 63 ∧
         sget 0 (t.ctx l.ctx).evqptr q = ptr) ∧
       (¬ drop → t.mem = s.mem.physPut s.noCache (cfg / 2 ^ 12 * 2 ^ 12 + 32 * (tail % n)) (natBytes 32 entry) ∧
         sget 0 (t.ctx l.ctx).evqptr q % 2 ^ 32 = (tail + 1) % n))

/-! ### Memory: what accesses do when they are performed -/

/-- R77, R78, R115, R237: performing a pending store lane of a running block outside every frame, with nothing renamed, leaves its masked bytes at its target
and every other
byte of that memory as it was, the lane done, and for `.mem` targets its write completion times, until its core's tick has passed them; no register
changes, or for a window store only the bytes stored to. -/
def Obligations.StoreEffects : Prop :=
  ∀ (s : State) (id k : Nat) (o : Op) (x : Lane) (b : Block), s.laneAt id k = some (o, x) → o.kind.isStore = true → s.canPerform o x = true →
    s.block? o.bk = some b → b.running = true → b.frames = [] → s.renames o.bk = [] → x.val = 0 → o.fset = false →
    s.allReady o.bk →
    let byte := fun (i : Nat) => x.src / 256 ^ i % 256
    (∀ pa mt, x.tgt = .mem pa mt → pa % 128 + o.n ≤ 128 →
      let read := fun (u : State) (a : Nat) => if mt = 2 then u.mem.dramB a else u.mem.homeB a
      ∃ t, exec (.accessPerformed id k) s = .next t ∧ t.rs.vregs = s.rs.vregs ∧ t.rs.uregs = s.rs.uregs ∧
        (∀ i < o.n, read t (pa + i) = if x.src2.testBit i then byte i else read s (pa + i)) ∧
        (∀ a, a < pa ∨ pa + o.n ≤ a → read t a = read s a) ∧
        (o.kind ≠ .stw → o.scope < 5 → let w := s.wcts o.core (s.scopeFor o.bk o.core o.scope) (o.scope == 0) x.tgt
          s.tickOf o ≤ w.1 → (t.laneAt id k).map (·.2) = some { x with st := .done, wct := w.1, wct4 := w.2 })) ∧
    (∀ r off, x.tgt = .region r off → off % 128 + o.n ≤ 128 → off + o.n ≤ 2 ^ 32 → s.linkDown x.tgt = false →
      let u := s.touch (s.ctxOf o.bk) x.tgt
      ∃ t, exec (.accessPerformed id k) s = .next t ∧ t.rs.vregs = s.rs.vregs ∧
        (∀ i < o.n, t.mem.tbyte r (off + i) = if x.src2.testBit i then byte i else u.mem.tbyte r (off + i)) ∧
        (∀ q a, a < 2 ^ 32 → q ≠ r ∨ a < off ∨ off + o.n ≤ a → t.mem.tbyte q a = u.mem.tbyte q a)) ∧
    (∀ g off, x.tgt = .win o.bk g off → o.n ≤ 8 → off + o.n ≤ 1536 * 256 →
      ∃ t, exec (.accessPerformed id k) s = .next t ∧ t.mem = s.mem ∧
        (∀ i < o.n, t.wget o.bk g (off + i) = if x.src2.testBit i then byte i else s.wget o.bk g (off + i)) ∧
        (∀ a, a < 1536 * 256 → a < off ∨ off + o.n ≤ a → t.wget o.bk g a = s.wget o.bk g a))

/-- R75, R77, R235, R242, R369, R370: a load lane that returns, with none of its fibre's stores under way and nothing staged or renamed, writes D with the bytes
its core's unexpired copy holds, or those at its target, extended by its type, and their poison mark; the rest of memory and of the registers
stays. `mpoll` and `pver.rd` return the mailbox's word and the launch's policy version. -/
def Obligations.LoadEffects : Prop :=
  ∀ (s : State) (id k : Nat) (o : Op) (x : Lane) (b : Block), s.laneAt id k = some (o, x) →
    s.block? o.bk = some b → b.running = true → b.frames = [] → s.allReady o.bk →
    (∀ pa mt n, o.kind.isLoad = true → s.canPerform o x = true → x.tgt = .mem pa mt → o.n = o.ty.size → o.fe = false → o.d = .v n →
      x.dl = 2 ^ fkL x.fk → s.renames o.bk = [] → s.snapOf o.bk = none →
      (∀ y ∈ s.mem.stages, y.bk ≠ o.bk) → (∀ p ∈ s.ops, ∀ y ∈ p.lanes, y.fk = x.fk → p.kind.isStore = true → y.st = .done) →
      let cached := mt = 0 ∧ s.dcChunks o.core ≠ 0 ∧ o.pol ≠ 3 ∧ s.ch.drop = false
      let copy := s.mem.copies.find? fun c => c.core == o.core && c.line == pa / 128 && decide (s.tickOf o + 4 < c.exp)
      let byte := fun (i : Nat) => match copy with
        | some c => if cached then (c.bytes.getD (pa % 128 + i) 0).toNat
            else if mt = 2 then s.mem.dramB (pa + i) else s.mem.homeB (pa + i)
        | none => if mt = 2 then s.mem.dramB (pa + i) else s.mem.homeB (pa + i)
      let pz := match copy with
        | some c => if cached then c.poison else if mt = 2 then s.mem.dramPois (pa / 128) else s.mem.homePois (pa / 128)
        | none => if mt = 2 then s.mem.dramPois (pa / 128) else s.mem.homePois (pa / 128)
      let v := ofNats ((List.range o.n).map byte)
      let r := if o.ty.signed then (BitVec.ofInt (if o.ty.wide then 64 else 32) (BitVec.ofNat (8 * o.n) v).toInt).toNat else v
      ∃ t, exec (.loadReturned id k) s = .next t ∧ t.vraw o.bk o.g n (fkL x.fk) = r % 2 ^ 32 ∧ t.vpois o.bk o.g n (fkL x.fk) = pz ∧
        (o.ty.wide = true → t.vraw o.bk o.g (n + 1) (fkL x.fk) = r / 2 ^ 32) ∧
        (∀ q l, ¬(l = fkL x.fk ∧ (q = rkOf o.bk o.g n ∨ o.ty.wide = true ∧ q = rkOf o.bk o.g (n + 1))) →
          sget 0 (sget [] t.rs.vregs q) l = sget 0 (sget [] s.rs.vregs q) l) ∧
        (∀ a, t.mem.homeB a = s.mem.homeB a) ∧ t.rs.uregs = s.rs.uregs) ∧
    (∀ n, o.kind = .mpoll ∨ o.kind = .pverRd → x.st = .pending → o.d = .s n →
      ∃ t, exec (.loadReturned id k) s = .next t ∧ t.rs.vregs = s.rs.vregs ∧ t.mem = s.mem ∧
        t.uraw o.bk o.g n = (match o.kind with
          | .mpoll => let m := s.mbxNow x.src
            m.step % 2 ^ 32 * 2 ^ 32 + m.epi.toNat / 2 ^ 150 % 4 * 2 ^ 8 + m.st.code
          | _ => ((s.launchOf o.bk).map Launch.pver).getD 0 % 2 ^ 64))

/-- R248, R249, R258: performing the one lane of an `atom` or `red` at memory writes the operation's result there and, for `atom`, the old
value to D; performing the one lane of a timeline operation sets or raises the value, or reports AC and leaves it. No other byte changes. -/
def Obligations.AtomicEffects : Prop :=
  ∀ (s : State) (id k : Nat) (o : Op) (x : Lane) (b : Block) (pa mt : Nat), s.laneAt id k = some (o, x) → o.lanes = [x] → k = 0 →
    (∀ p ∈ s.ops, p.id = id ∨ p.ins = o.ins → p = o) → s.canPerform o x = true → x.tgt = .mem pa mt → mt ≤ 1 → pa % 8 = 0 →
    s.block? o.bk = some b → b.running = true → b.frames = [] →
    s.renames o.bk = [] → x.val = 0 → s.allReady o.bk →
    (∀ q y, s.fib q = some y → y.stat = .ready) →
    let old := s.mem.homeNum pa o.n
    let same := fun (t : State) => ∀ a, a < pa ∨ pa + o.n ≤ a → t.mem.homeB a = s.mem.homeB a
    (o.kind = .atom ∨ o.kind = .red → o.n = o.ty.size → o.n = 4 ∨ o.n = 8 → o.aux ≤ 7 → (∀ y ∈ s.mem.stages, y.bk ≠ o.bk) →
      let src := x.src % 2 ^ (8 * o.n)
      let le := fun (p q : Nat) => intOf o.ty p ≤ intOf o.ty q
      let new := match o.aux with
        | 0 => (old + src) % 2 ^ (8 * o.n)
        | 1 => if le src old then src else old
        | 2 => if le old src then src else old
        | 3 => old &&& src
        | 4 => old ||| src
        | 5 => old ^^^ src
        | 6 => src
        | _ => if old = src then x.src2 % 2 ^ (8 * o.n) else old
      o.ty.isInt = true →
      ∃ t, exec (.accessPerformed id k) s = .next t ∧ t.mem.homeNum pa o.n = new ∧ same t ∧
        ∀ n, o.kind = .atom → o.d = .v n → x.dl = 2 ^ fkL x.fk → t.vraw o.bk o.g n (fkL x.fk) = old % 2 ^ 32 ∧
          (o.ty.wide = true → t.vraw o.bk o.g (n + 1) (fkL x.fk) = old / 2 ^ 32)) ∧
    (o.kind = .tlset ∨ o.kind = .tladd → o.n = 8 → x.src < 2 ^ 64 →
      let new := if o.kind = .tladd then (if old + x.src < 2 ^ 64 then some (old + x.src) else none)
        else if o.qf.testBit 1 = true ∨ old ≤ x.src then some x.src else none
      ∃ t c, exec (.accessPerformed id k) s = .next t ∧ t.mem.homeNum pa 8 = new.getD old ∧ same t ∧ t.block? o.bk = some c ∧
        (new = none → x.ptr < 2 ^ 64 → c.reports = b.reports ++ [(⟨4, o.pc, x.ptr, fkG x.fk, fkL x.fk⟩, o.frame)]))

/-! ### Waits that end -/

/-- R107, R108, outside a frame: the oldest request of a core is granted once the chunks suffice, its registers entering zero and unmarked and
the others as they were, and every fibre of its group that waits for no more goes on; it stays queued while they do not; a stalled `shrink` ends when nothing
is owed to its range, and the chunks
that it holds are given up.
R274, R286, R313, R331, R381, of a running block, whose limits count the core clocks of its die: nothing happens before its limit has passed; then a barrier
whose timeout has passed gives BT with the
fibres of its set and those that have arrived as detail, an open frame's cycle limit fails it with CL and the limit as detail, and the residence
budget gives CL once. -/
def Obligations.GrantAndLimitEffects : Prop :=
  (∀ (s : State) (fk : Nat) (x : Fibre) (b : Block) (m : Nat), Calm s fk b → s.fib fk = some x →
    let bk := fkBk fk
    let g := fkG fk
    let gr := s.group bk g
    let cur := gr.chunks.length
    let need := m - cur - (gr.held.filter fun h => decide (h.2 < m)).length
    let served := fun (t : State) (a : Nat) => ∀ k y n sq, s.fib k = some y → fkBk k = bk → fkG k = g → y.stat = .allot n sq →
      t.fib k = some (if n ≤ a then y.adv else y)
    (∀ sq rest, swf none s.rs.fibres = true → s.requests gr.core = (sq, fk, m) :: rest →
      (m ≤ cur → ∃ t, exec (.allotGrant gr.core) s = .next t ∧ served t cur ∧ t.rs.vregs = s.rs.vregs ∧ t.blocks = s.blocks) ∧
      (cur < m → s.freeCount gr.core < need → exec (.allotGrant gr.core) s = .next s) ∧
      (cur < m → need ≤ s.freeCount gr.core →
        ∃ t, exec (.allotGrant gr.core) s = .next t ∧ t.allot bk g = 32 * m ∧ t.fib fk = some x.adv ∧ served t m ∧
          ∀ r < 32 * m, ∀ l, (32 * cur ≤ r → t.vraw bk g r l = 0 ∧ t.vpois bk g r l = false ∧ t.vfull bk g r l = false) ∧
            (r < 32 * cur → t.vraw bk g r l = s.vraw bk g r l))) ∧
    (∀ top, x.stat = .shrink m top → s.groupFibs bk g = [fk] →
      (s.owedAbove bk g m = true → exec (.shrinkRelease bk g) s = .next s) ∧
      (s.owedAbove bk g m = false → ∃ t, exec (.shrinkRelease bk g) s = .next t ∧ t.fib fk = some x.adv ∧
        (t.group bk g).chunks = gr.chunks ∧ (t.group bk g).held = (gr.held.filter fun h => !(decide (m ≤ h.2) && decide (h.2 < top))) ∧
        ∀ h ∈ gr.held, m ≤ h.2 → h.2 < top → ∀ r, 32 * h.2 ≤ r → r < 32 * h.2 + 32 → ∀ l, t.vraw bk g r l = 0 ∧ t.vpois bk g r l = false))) ∧
  (∀ (s : State) (uid : Nat) (b : Block), s.block? uid = some b → b.running = true →
     (∀ key t0 fk x rest, b.clFirst = [(key, some t0)] →
       (s.tick < t0 ∨ t0 = 0 → exec (.barrierTimeout uid) s = .next s) ∧
       (0 < t0 → t0 ≤ s.tick → s.arrived uid key = fk :: rest → s.fib fk = some x → s.entering uid = false → b.frames = [] →
         let det := (s.genFibs uid key).length * 2 ^ 32 + (rest.length + 1)
         det < 2 ^ 64 → ∃ t c, exec (.barrierTimeout uid) s = .next t ∧ t.block? uid = some c ∧ c.mode = .freezing ∧
           c.fault = some ⟨11, x.pc, det, fkG fk, fkL fk⟩)) ∧
     (∀ f t0, b.frames = [f] → f.dead = some t0 →
       (s.clockOf uid < t0 → exec (.cycleLimitExpiry uid) s = .next s) ∧
       (t0 ≤ s.clockOf uid → ∃ t c h, exec (.cycleLimitExpiry uid) s = .next t ∧ t.block? uid = some c ∧ c.mode = .failing ∧ c.failDepth = 1 ∧
         c.frames = [h] ∧ h.cause = 7 ∧ h.fdet = f.lim ∧ h.dead = none)) ∧
     (let bud := (s.rcbOf uid).cycbud
      (bud = 0 ∨ b.clDone = true ∨ b.cyc + (s.clockOf uid - b.since) < bud → exec (.cycbudExpiry uid) s = .next s) ∧
      (0 < bud → b.clDone = false → bud ≤ b.cyc + (s.clockOf uid - b.since) → s.allReady uid → b.frames = [] →
       ∃ t c r, exec (.cycbudExpiry uid) s = .next t ∧ t.block? uid = some c ∧ c.clDone = true ∧ c.mode = .freezing ∧ c.fault = some r ∧ r.code = 7)))

/-- R73, R241, R242, R370: a store that found no side-log entry takes one and its fibre goes on, or is to be performed when its page is there now;
an operation that is complete is retired when the tick has passed its write completion times; `pver.inc` raises its launch's policy version and
returns the new one, and at the largest value is reported and leaves it.
R72, R73, with no operation under way: PAGE_MAPPED makes ready the fibres parked on the range of the leaf that now maps the address, and answers
the requests for it; PAGE_INVALID gives AC with its pointer to a fibre parked on the 64 KiB range, outside a frame by freezing its block, and
is nothing where no request names the range; the refusal is remembered for the range's later accesses (notes/assumptions/28.md). -/
def Obligations.RetireAndPageEffects : Prop :=
  (∀ (s : State) (o : Op) (x : Lane), s.ops = [o] → o.lanes = [x] →
    (∀ y, o.kind = .st → o.fset = false → x.st = .sideFull → x.dl = 2 ^ fkL x.fk → s.fib x.fk = some y → y.stat = .sideFull → y.pc = o.pc →
      let chk := s.check (s.ctxOf o.bk) x.ptr o.n o.n .store false
      let va := x.ptr % 2 ^ 56 / 65536 * 65536
      (∀ tg, chk = .absent tg → ∃ t, exec (.sideLogEntryFree o.core) s = .next t ∧ t.fib x.fk = some y.adv ∧
        t.ops = [{ o with lanes := [{ x with tgt := tg, st := .side s.seq }] }] ∧ (s.ctxOf o.bk, va) ∈ t.mem.preq ∧ t.rs.vregs = s.rs.vregs) ∧
      (∀ pa mt, chk = .ok (.mem pa mt) → ∃ t, exec (.sideLogEntryFree o.core) s = .next t ∧ t.fib x.fk = some y.adv ∧
        t.ops = [{ o with lanes := [{ x with tgt := .mem pa mt, st := .pending }] }] ∧ t.mem = s.mem)) ∧
    (o.kind ≠ .ctxq → o.fin = true → s.allReady o.bk →
      exec (.writeCompletionTimePassed o.id) s =
        .next { s with ops := if o.kind.stores = true ∧ (s.tickOf o ≤ x.wct ∨ s.tickOf o ≤ x.wct4) then [o] else [] }) ∧
    (∀ r b l, o.kind = .pverInc → o.d = .s r → x.st = .pending → s.allReady o.bk → s.block? o.bk = some b → b.running = true → b.frames = [] →
      s.launch? b.lid = some l →
      ∃ t c, exec (.policyVersionApply o.id) s = .next t ∧ t.block? o.bk = some c ∧
        (l.pver + 1 < 2 ^ 64 → (t.launch? b.lid).map Launch.pver = some (l.pver + 1) ∧ t.uraw o.bk o.g r = l.pver + 1 ∧ c.reports = b.reports) ∧
        (2 ^ 64 ≤ l.pver + 1 → (t.launch? b.lid).map Launch.pver = some l.pver ∧ t.uraw o.bk o.g r = l.pver % 2 ^ 64 ∧
          c.reports = b.reports ++ [(⟨4, o.pc, 2 ^ 64 - 1, fkG x.fk, fkL x.fk⟩, o.frame)]))) ∧
  (∀ (s : State) (ctx va : Nat), s.ops = [] → s.cmds = [] →
     ((∀ pa mt size rd w x, s.walk ctx (va % 2 ^ 56) ≠ .leaf pa mt size rd w x) → exec (.pageMapped ctx va) s = .next s) ∧
     (∀ pa mt size rd w x, s.walk ctx (va % 2 ^ 56) = .leaf pa mt size rd w x → swf none s.rs.fibres = true →
       (∀ k y, s.fib k = some y → y.stat = .ready ∨ ∃ q, y.stat = .page q) →
       let lo := va % 2 ^ 56 / size * size
       let named := fun (p : Nat) => decide (lo ≤ p % 2 ^ 56) && decide (p % 2 ^ 56 < lo + size)
       ∃ t, exec (.pageMapped ctx va) s = .next t ∧
         (∀ k, t.fib k = (s.fib k).map fun y => match y.stat with
           | .page q => if s.ctxOf (fkBk k) = ctx ∧ named q = true then { y with stat := .ready } else y
           | _ => y) ∧
         t.mem.preq = (s.mem.preq.filter fun r => !(r.1 == ctx && named r.2)) ∧ t.rs.vregs = s.rs.vregs) ∧
     let lo := va % 2 ^ 56 / 65536 * 65536
     ((ctx, lo) ∉ s.mem.preq → exec (.pageInvalid ctx va) s = .next s) ∧
     (∀ fk x b q, (ctx, lo) ∈ s.mem.preq → s.rs.fibres = [(fk, some x)] → Calm s fk b → s.ctxOf (fkBk fk) = ctx → x.stat = .page q →
       lo ≤ q % 2 ^ 56 → q % 2 ^ 56 < lo + 65536 → q < 2 ^ 64 →
       ∃ t c, exec (.pageInvalid ctx va) s = .next t ∧ t.block? (fkBk fk) = some c ∧ c.mode = .freezing ∧
         c.fault = some ⟨4, x.pc, q, fkG fk, fkL fk⟩ ∧ (ctx, lo) ∈ t.mem.inval ∧ (ctx, lo) ∉ t.mem.preq))

/-! ### Mailboxes and episodes -/

/-- R357, R364, R367: a send, its payload read, is answered by R364's table in the order MB, ABORTED, KILLED, TRUNCATED, STALE, OK; D receives the code and
the mailbox changes as that row says: OK stores the payload and the header and starts the step, an observation answers ABORTED, KILLED and
TRUNCATED, STALE changes nothing, and MB changes nothing and is reported.
R355, R357, R368: a delivery to the one receiver of a mailbox in OBS first stores the payload, cut to the receiver's length, and once that is
complete writes the header to the window with its granules full, consumes the observation (ENDED after END, else IDLE), raises the step and
lets the fibre go on. -/
def Obligations.MailboxEffects : Prop :=
  (∀ (s : State) (o : Op) (x : Lane) (b : Block) (l : Launch) (r : Nat) (bs : List Nat), s.ops = [o] → o.lanes = [x] → o.kind = .msend →
    o.d = .s r → x.st = .pending → s.allReady o.bk → s.block? o.bk = some b → b.running = true → b.frames = [] → s.launch? b.lid = some l →
    let d := x.src
    let m := d / 2 ^ 80 % 2 ^ 16
    let len := d / 2 ^ 65 % 2 ^ 15
    let pofs := d / 2 ^ 51 % 2 ^ 14
    (len ≠ 0 → x.ptr % 16 = 0) → readPieces (o.asCmd x s.seq) (pieces 16 x.ptr len) s = .ok bs s →
    let y := s.mbxNow m
    let changed := y.ver ≠ none ∧ y.ver ≠ some l.pver
    let mode := y.epi.toNat / 2 ^ 150 % 4
    let code := if y.st ≠ .idle ∨ (y.bound ≠ none ∧ y.bound ≠ some l.lid) then 255
      else if d / 2 ^ 50 % 2 = 1 then 5 else if y.kill = true then 4 else if mode = 2 ∧ changed then 2 else if mode = 0 ∧ changed then 1 else 0
    ∃ t c, exec (.msendApply o.id) s = .next t ∧ t.uraw o.bk o.g r = code ∧ t.block? o.bk = some c ∧
      (let z := t.mbx m
       let w := z.act.toNat
       let v := z.obs.toNat
       (code = 0 → z.st = .act ∧ z.bound = some l.lid ∧ z.ver = some l.pver ∧ z.step = y.step ∧
          z.dead = (if y.epi.toNat / 2 ^ 152 % 2 ^ 32 = 0 then none else some (s.tick + y.epi.toNat / 2 ^ 152 % 2 ^ 32)) ∧
          w / 2 ^ 11 % 2 ^ 14 = pofs ∧ w / 2 ^ 25 % 2 ^ 15 = len ∧ (w / 2 ^ 49 % 2 = 1 ↔ changed) ∧ w / 2 ^ 64 % 2 ^ 32 = d / 2 ^ 96 % 2 ^ 32 ∧
          w / 2 ^ 96 % 2 ^ 32 = y.epi.toNat / 2 ^ 96 % 2 ^ 32 ∧ w / 2 ^ 128 % 2 ^ 64 = y.step % 2 ^ 64 ∧ w / 2 ^ 192 % 2 ^ 64 = l.pver % 2 ^ 64 ∧
          t.mem = s.mem.physPut s.noCache (s.actBuf m + 16 * pofs) bs) ∧
       (code = 2 ∨ code = 4 ∨ code = 5 → z.st = .obs ∧ v / 2 ^ 40 % 2 ^ 8 = code ∧ v / 2 ^ 48 % 2 = 1 ∧ v / 2 ^ 64 % 2 ^ 32 = 0 ∧
          z.running = (y.running && code == 2) ∧ t.mem = s.mem) ∧
       (code = 1 ∨ code = 255 → t.hub.mbx = s.hub.mbx ∧ t.mem = s.mem) ∧
       (code = 255 → ∃ det, c.reports = b.reports ++ [(⟨13, o.pc, det, fkG x.fk, fkL x.fk⟩, o.frame)]) ∧
       (code ≠ 255 → c.reports = b.reports))) ∧
  (∀ (s : State) (o : Op) (x : Lane) (b : Block) (f : Fibre), s.ops = [o] → o.lanes = [x] → o.kind = .mrecv → o.fin = false → x.st = .pending → x.wct4 ≠ 0 →
     fkBk x.fk = o.bk → x.dl = 2 ^ fkL x.fk → s.fib x.fk = some f → f.stat = .lane → f.pc = o.pc →
     (∀ k y, s.fib k = some y → fkBk k = o.bk → k ≠ x.fk → y.stat = .ready) →
     s.block? o.bk = some b → b.running = true → b.frames = [] →
     let m := x.src / 2 ^ 80 % 2 ^ 16
     let w := x.src / 2 ^ 96 % 2 ^ 32
     let y := s.mbxNow m
     let h := y.obs.toNat
     let n := min (h / 2 ^ 25 % 2 ^ 15) (x.src / 2 ^ 65 % 2 ^ 15)
     y.st = .obs → s.winCheck o.bk w 64 64 = none →
     (x.val = 0 → n ≠ 0 → ∀ u v, s.pieceBad (o.asCmd x s.seq) (pieces 16 x.ptr n) = none →
       storePieces (o.asCmd x s.seq) (s.mem.homeBytes (s.obsBuf m + 16 * (h / 2 ^ 11 % 2 ^ 14)) n) (pieces 16 x.ptr n) s = some (v, u) →
       u.ops = s.ops → u.tick = s.tick → s.tick ≤ v → 0 < v → u.rs.fibres = s.rs.fibres →
       ∃ t, exec (.mrecvDelivery o.id 0) s = .next t ∧ t.mem = u.mem ∧ t.mbx m = y ∧
         t.ops = [{ o with lanes := [{ x with val := 1, wct := v }] }]) ∧
     ((x.val = 0 ∧ n = 0 ∨ x.val = 1 ∧ (x.wct = 0 ∨ x.wct < s.tick)) →
       ∃ t, exec (.mrecvDelivery o.id 0) s = .next t ∧ t.wnum o.bk (winGrp w) (winOff w) 64 = h ∧
         (∀ i < 4, t.granFull o.bk (winGrp w) (winOff w + 16 * i) = true) ∧
         t.mbx m = { y with st := if h / 2 ^ 48 % 2 = 1 then .ended else .idle, step := (y.step + 1) % 2 ^ 64, asleep := false } ∧
         (t.fib x.fk).map Fibre.pc = some (f.pc + 8) ∧ (t.fib x.fk).map Fibre.stat = some .ready ∧ t.ops = []))

/-- R351 to R363, R380, R395: the environment's side of a mailbox, once the Beryl cluster is ready. A read of BMB_TAKE by an episode on a hart, its own or the first
free one of the 128, starts the run and returns the step, or returns 0; with no hart free it waits, and a hart in `wfi` does nothing until an event of its
mailbox (notes/assumptions/41.md); a good give makes the observation with the hart's buffer, reward and END, and a bad one is a violation; a
violation ends the step with KILLED, kills an idle episode, or stops one that has given; a budget that runs out ends the step, after the gives of
its tick, with TIMEOUT and the default reward, or kills an idle episode; an ended episode stops, and its record is no longer valid once its last
observation is consumed. A load of the window returns the bytes there, and an access beyond every range is a violation. The supervisor's record
starts the episode, or is a refused command with its record (notes/assumptions/41.md). -/
def Obligations.EpisodeEffects : Prop :=
  ∀ (s : State) (m : Nat),
    let b := s.mbxNow m
    let closed := fun (y : Mbx) (code reward : Nat) => y.st = .obs ∧ y.running = false ∧ y.hart = none ∧ y.dead = none ∧
      y.obs.toNat / 2 ^ 40 % 2 ^ 8 = code ∧ y.obs.toNat / 2 ^ 48 % 2 = 1 ∧ y.obs.toNat / 2 ^ 64 % 2 ^ 32 = reward ∧
      y.obs.toNat / 2 ^ 25 % 2 ^ 15 = 0
    let stopped := { b with running := false, hart := none, asleep := false, dead := none }
    let up := s.host.hubReady.testBit 36 = true
    let wakes := up ∧ b.running = true ∧ b.asleep = false
    let busy := fun (h : Nat) => ∃ p ∈ s.hub.mbx, ∃ y, p.2 = some y ∧ y.hart = some h
    let takes := fun (h : Nat) => ∃ t, exec (.bmbTake m) s = .next t ∧ t.mem = s.mem ∧
      t.mbx m = (if b.st = .act then { b with st := .run, hart := some h } else { b with hart := some h }) ∧
      t.hub.word = if b.st = .act then 2 ^ 63 + b.step % 2 ^ 63 else 0
    let spent := fun (y : Mbx) (n : Nat) => y.epi.toNat / 2 ^ 184 % 2 ^ 40 ≠ 0 ∧ y.cycles ≤ n ∧ y.epi.toNat / 2 ^ 184 % 2 ^ 40 ≤ n
    (∀ h, wakes → b.hart = some h → takes h) ∧
    (∀ h < 128, wakes → b.hart = none → ¬ busy h → (∀ k < h, busy k) → takes h) ∧
    (¬ wakes ∨ b.hart = none ∧ (∀ k < 128, busy k) → ∃ t, exec (.bmbTake m) s = .next t ∧ (b.st ≠ .free → t.mbx m = b) ∧
      t.hub.word = s.hub.word ∧ t.mem = s.mem) ∧
    (∀ h, wakes → b.hart = some h → let e := b.epi.toNat
      ((s.hartAccess m 0 .wfi).mbx m = { b with asleep := true }) ∧
      (∀ a n, 1 ≤ n → n ≤ 8 → a + n ≤ e / 2 ^ 75 % 2 ^ 21 * 65536 →
        let pa := e / 2 ^ 16 % 2 ^ 48 * 2 ^ 16 + a
        (∀ ln, pa / 128 ≤ ln → ln ≤ (pa + n - 1) / 128 → s.mem.homePois ln = false) →
          (s.hartAccess m a (.load n)).hub.word = s.mem.homeNum pa n) ∧
      ∀ a n, 1 ≤ n → n ≤ 8 → 0x30000004000 ≤ a → e / 2 ^ 75 % 2 ^ 21 ≤ 2 ^ 20 → (b.st = .act ∨ b.st = .run) →
        closed ((s.hartAccess m a (.load n)).mbx m) 4 0) ∧
    (∀ val hdr payload, b.running = true → b.asleep = false →
      let bad := val / 2 % 2 ^ 63 ≠ 0 ∨ hdr / 2 ^ 40 % 2 ^ 8 ≠ 0 ∨ 16384 < hdr / 2 ^ 11 % 2 ^ 14 * 16 + hdr / 2 ^ 25 % 2 ^ 15
      ∃ t, exec (.bmbGive m val hdr payload) s = .next t ∧
        (∀ j v, payload = [(j, v)] → j < 16384 → t.mem.homeB (s.obsBuf m + j) = v.toNat) ∧
        (b.st = .run → ¬ bad → let w := (t.mbx m).obs.toNat
          (t.mbx m).st = .obs ∧ (t.mbx m).running = true ∧ w / 2 ^ 11 % 2 ^ 14 = hdr / 2 ^ 11 % 2 ^ 14 ∧
          w / 2 ^ 25 % 2 ^ 15 = hdr / 2 ^ 25 % 2 ^ 15 ∧ w / 2 ^ 40 % 2 ^ 8 = 0 ∧ w / 2 ^ 48 % 2 = val % 2 ∧
          w / 2 ^ 64 % 2 ^ 32 = hdr / 2 ^ 64 % 2 ^ 32 ∧ w / 2 ^ 96 % 2 ^ 32 = b.epi.toNat / 2 ^ 96 % 2 ^ 32 ∧
          w / 2 ^ 128 % 2 ^ 64 = b.step % 2 ^ 64 ∧ w / 2 ^ 192 % 2 ^ 64 = b.act.toNat / 2 ^ 192 % 2 ^ 64) ∧
        (b.st = .act ∨ b.st = .run ∧ bad → closed (t.mbx m) 4 0)) ∧
    (∀ src addr synd,
      let place := if src = 6 then addr < 0xBFD0000000 else if src = 12 then addr < 2 ^ 24 ∧ addr % 8 = 0 else True
      (b.running = false ∨ ¬ place → exec (.episodeViolation m src addr synd) s = .next s) ∧
      (b.running = true → place → ∃ t, exec (.episodeViolation m src addr synd) s = .next t ∧
        (b.st = .act ∨ b.st = .run → closed (t.mbx m) 4 0) ∧
        (b.st = .idle → t.mbx m = { stopped with kill := true }) ∧
        (b.st = .obs ∨ b.st = .ended → t.mbx m = stopped) ∧
        (src = 6 ∨ src = 12 → sget none s.host.erb 412 = none → sget none t.host.erb 412 =
          some ⟨true, 3, src, 0, true, b.epi.toNat / 2 ^ 143 % 2 ^ 6, addr, synd, s.tickDie (unitDie 412)⟩ ∧ t.host.irq = true) ∧
        (src ≠ 6 → src ≠ 12 → t.host = s.host))) ∧
    (∀ n, (b.running = true → b.st = .act ∨ b.st = .run → spent b n →
        ∃ t, exec (.watchdogExpiry m n) s = .next t ∧ t.mbx m = { b with dead := some s.tick, cycles := n } ∧ t.mem = s.mem ∧
          ∀ tk, s.tick < tk → closed (({ t with tick := tk } : State).mbxNow m) 3 (b.epi.toNat / 2 ^ 224 % 2 ^ 32)) ∧
      (∀ dl, (s.mbx m).dead = some dl → dl < s.tick → (s.mbx m).st = .act ∨ (s.mbx m).st = .run →
        ∃ t, exec (.watchdogExpiry m n) s = .next t ∧ closed (t.mbx m) 3 ((s.mbx m).epi.toNat / 2 ^ 224 % 2 ^ 32)) ∧
      ((s.mbx m).running = true → (s.mbx m).st = .idle → spent (s.mbx m) n →
        ∃ t, exec (.episodeCycbudIdle m n) s = .next t ∧
          t.mbx m = { s.mbx m with running := false, hart := none, asleep := false, dead := none, kill := true, cycles := n })) ∧
    ((s.mbx m).st = .ended → ∃ t, exec (.episodeStop m) s = .next t ∧ (t.mbx m).running = false ∧ (t.mbx m).st = .ended ∧
      (t.mbx m).epi.toNat / 2 ^ 149 % 2 = 0) ∧
    ((s.mbx m).st = .obs → (s.mbx m).obs.toNat / 2 ^ 48 % 2 = 1 → ∃ t, exec (.episodeStop m) s = .next t ∧
      t.mbx m = { s.mbx m with running := false, hart := none, asleep := false, dead := none }) ∧
    (∀ q rec, s.hub.asks = [q] → q.d / 2 ^ 256 % 2 ^ 16 = m → q.d % 2 ^ 256 = rec → q.d / 2 ^ 448 % 2 ^ 64 = 0 →
      let wsize := rec / 2 ^ 75 % 2 ^ 21
      let wbase := rec / 2 ^ 16 % 2 ^ 48 * 2 ^ 16
      let good := up ∧ ((s.mbx m).st = .free ∨ (s.mbx m).st = .ended) ∧ rec / 2 ^ 149 % 2 = 1 ∧ rec / 2 ^ 128 % 2 ^ 15 = 0 ∧ rec / 2 ^ 64 % 2 ^ 11 = 0 ∧
        rec % 2 ^ 16 = 0 ∧ rec / 2 ^ 150 % 4 ≠ 3 ∧ ∃ base n, s.envPart = some (base, n) ∧ 1 ≤ wsize ∧ wsize ≤ 2 ^ 20 ∧
          base + 2 ^ 31 ≤ wbase ∧ wbase + wsize * 65536 ≤ base + n
      ∃ t, exec (.episodeRecordWrite m rec) s = .next t ∧ t.hub.asks = [] ∧
        (good → t.mbx m = { Mbx.reset with st := .idle, epi := BitVec.ofNat 256 rec, running := true }) ∧
        (¬ good → t.hub.mbx = s.hub.mbx ∧ (t.ctx q.ctx).lrcnt = ((s.ctx q.ctx).lrcnt + 1) % 2 ^ 64))

/-! ### Engines: execution -/

/-- R92 to R96, R99 to R102, for a command that is alone: the part of a core that `lfetch` or `lcast` names delivers each byte of its walk's elements in
order to that core's window range and leaves its granules and its completion granule full, memory as it was, and the command completes once the part of each
core is done; `lput` and `lcopy` leave each element of the walk, and each 16 bytes of the range, at their place in memory, every other byte of memory as it was;
`lput` waits at an empty granule under FEW and empties those it has read; both complete when their writes are; `lpermit` grants the stages of its mask. -/
def Obligations.LadleEffects : Prop :=
  ∀ (s : State) (c : Cmd) (o : Op) (b : Block), Alone s c o b →
    let d := c.desc.toNat
    let la := ldLaddr d
    let g := winGrp la
    let ends := fun (t : State) => t.cmds = [] ∧ t.ops = []
    let cores := ldCores c.kind c.core d
    (∀ k ∈ cores, c.kind = .lfetch ∨ c.kind = .lcast → c.stat = .queued → c.parts = [] → c.prog = [] → c.skip = [] → s.ch.ahead = 0 → Plain s c.bk →
      ldMisaligned c.kind d = false → ldTureen d = false → ldDkind d = 0 → ldRing d = 255 → s.ldPartCheck c k c.bk = none →
      let gk := s.ldGroup c.kind c.bk k g
      ∀ p : Nat → Nat, (∀ e < ldBytes d / ldEsz d, ∃ mt, mt ≤ 1 ∧
          s.check (s.ctxOf c.bk) (ldElem d e) (ldEsz d) (ldEsz d) .load false = .ok (.mem (p e) mt) ∧
          s.memUp (p e) mt = true ∧ s.mem.homePois (p e / 128) = false) →
        ∃ t, exec (.ladleDelivery c.id k) s = .next t ∧ (∀ a, t.mem.homeB a = s.mem.homeB a) ∧ t.mem.dram = s.mem.dram ∧
          (t.cmd? c.id).map Cmd.parts = some [k] ∧
          (∀ i < ldBytes d, t.wget c.bk gk (winOff la + i) = s.mem.homeB (p (i / ldEsz d) + i % ldEsz d)) ∧
          (∀ j < ldBytes d / 16, t.granFull c.bk gk (winOff la + 16 * j) = true) ∧
          (ldCgran d ≠ 0 → t.granFull c.bk (s.ldGroup c.kind c.bk k (winGrp (ldCgran d))) (winOff (ldCgran d)) = true)) ∧
    (c.kind = .lfetch ∨ c.kind = .lcast → ((∃ k ∈ cores, k ∉ c.parts) → exec (.ladleComplete c.id) s = .next s) ∧
      ((∀ k ∈ cores, k ∈ c.parts) → ∃ t, exec (.ladleComplete c.id) s = .next t ∧ ends t)) ∧
    (c.kind = .lput → c.stat = .queued → c.prog = [] → c.parts = [] → s.ch.ahead = 0 → Plain s c.bk → ldMisaligned .lput d = false → ldTureen d = false →
      ldDkind d = 0 → la < 2 ^ 26 → g < b.ngrp → winOff la + ldBytes d ≤ 256 * s.allot c.bk g → s.wpois c.bk g (winOff la) (ldBytes d) = false →
      (ldFew d = true → ∀ j < ldBytes d / 16, s.granFull c.bk g (winOff la + 16 * j) = true) →
      ∀ p : Nat → Nat,
        let l := (List.range (ldBytes d / ldEsz d)).map fun e =>
          (p e, (List.range (ldEsz d)).map fun i => s.wget c.bk g (winOff la + ldEsz d * e + i))
        (∀ e < ldBytes d / ldEsz d, ∃ mt, Maps s l (s.ctxOf c.bk) (ldElem d e) (ldEsz d) .store (p e) mt) →
        ∃ t, exec (.ladleDelivery c.id c.core) s = .next t ∧ (t.cmd? c.id).map Cmd.parts = some [0] ∧ t.rs.vregs = s.rs.vregs ∧ t.rs.uregs = s.rs.uregs ∧
          (∀ a, t.mem.homeB a = laid s.mem.homeB l a) ∧
          ∀ j < ldBytes d / 16, t.granFull c.bk g (winOff la + 16 * j) = (s.granFull c.bk g (winOff la + 16 * j) && !(ldFew d))) ∧
    (c.kind = .lcopy → c.stat = .queued → c.prog = [] → c.parts = [] → s.ch.ahead = 0 → Plain s c.bk → ldMisaligned .lcopy d = false → ldTureen d = false →
      ldDkind d = 0 → (∀ k, sget false s.mem.zdir k = true → sget false s.mem.dpoison k = false ∧ sget 0 s.mem.dbad k = 0) →
      ∀ p q : Nat → Nat,
        let l := (List.range (ldLen d / 16)).map fun j =>
          (q j, (List.range 16).map fun i => s.mem.homeB (p ((16 * j + i) / ldEsz d) + i % ldEsz d))
        (∀ e < ldLen d / ldEsz d, (∃ mt, Maps s l (s.ctxOf c.bk) (ldGaddr d + ldEsz d * e) (ldEsz d) .load (p e) mt) ∧
          s.mem.homePois (p e / 128) = false ∧ ∀ i < ldEsz d, ¬ covers l (p e + i)) →
        (∀ j < ldLen d / 16, ∃ mt, Maps s l (s.ctxOf c.bk) (la + 16 * j) 16 .store (q j) mt) →
        ∃ t, exec (.ladleDelivery c.id c.core) s = .next t ∧ (t.cmd? c.id).map Cmd.parts = some [0] ∧ t.rs.vregs = s.rs.vregs ∧ t.rs.uregs = s.rs.uregs ∧
          ∀ a, t.mem.homeB a = laid s.mem.homeB l a) ∧
    (c.kind = .lput → c.prog = [] → c.parts = [] → ldDkind d = 0 → ldFew d = true → 16 ≤ ldBytes d → la < 2 ^ 26 → g < b.ngrp →
      winOff la + 16 ≤ 256 * s.allot c.bk g → s.granFull c.bk g (winOff la) = false →
      exec (.ladleDelivery c.id c.core) s = .next (s.updCmd c.id fun c => { c with stat := .running })) ∧
    (let now := s.tickOn (quadOf c.core)
     c.kind = .lput ∨ c.kind = .lcopy → c.parts = [0] →
      (c.wct < now ∨ c.wct = 0 → ∃ t, exec (.ladleComplete c.id) s = .next t ∧ ends t) ∧
      (now ≤ c.wct → 0 < c.wct → exec (.ladleComplete c.id) s = .next s)) ∧
    (c.kind = .lpermit → ∃ t, exec (.ladleComplete c.id) s = .next t ∧ ends t ∧
      ∀ k < 32, t.permit c.core (d % 32) k = if (d / 2 ^ 64).testBit k then some (c.bk, c.g) else s.permit c.core (d % 32) k)

/-- R141 to R143, R147, R187, R190 to R192, R195, R203, R206 to R210, for a command that is alone: a started `gmma` without ACC finds its bank zero under
the window of its block; a dense INT8 `gmma` of one chunk under W = 0 leaves the sums of the products of A and B in the cells, and one of finite elements of any
formats and scales adds to each cell its products, each truncated under the window, where none saturates; `gdrain` writes each drained cell to its
lane word, two cells to a word for BF16 and FP16, `gload` copies the source to the slot, `gzero` prepares the bank, `gstat` gives its status word, `gsave` leaves the
lines of the bank's image in its area and `gresume` takes the bank from them; each then completes. A format code that Silivo is asked for and does not define
ends the command
with FM and the code. A command whose bank an earlier one uses does not start.
R187: a bank command does not start while an earlier command of its Griddle on the same bank is under way. -/
def Obligations.GriddleEffects : Prop :=
  (∀ (s : State) (c : Cmd) (o : Op) (b : Block), Alone s c o b →
    let d := c.desc.toNat
    let y := s.bankAt c
    let ends := fun (t : State) => t.cmds = [] ∧ t.ops = []
    (c.kind = .gmma → c.stat = .queued → emuFmt (gAfmt d) = false → emuFmt (gBfmt d) = false → emuFmt (gOfmt d) = false → gResume d = false →
      gAcc d = false →
      s.ch.ahead = 0 → ∃ t, exec (.griddleOpStart c.id) s = .next t ∧ (t.cmd? c.id).map Cmd.stat = some .running ∧
        ∀ k, (t.bankAt c).cell k = (0, 0) ∧ (t.bankAt c).bad = false ∧ (t.bankAt c).sat = false ∧
          (t.bankAt c).w = (if gWmode d then gW d else y.w) ∧ (t.bankAt c).wset = gWmode d) ∧
    (let known := emuFmt (gAfmt d) = false ∧ emuFmt (gBfmt d) = false ∧ emuFmt (gOfmt d) = false
     known ∧ (c.kind = .gdrain ∨ c.kind = .gzero ∨ c.kind = .gstat) ∨ c.kind = .gload ∨ c.kind = .gsave ∨ c.kind = .gresume → c.stat = .queued →
      exec (.griddleOpStart c.id) s = .next (s.updCmd c.id fun c => { c with stat := .running })) ∧
    (∀ k, c.kind = .gmma ∨ c.kind = .gdrain ∨ c.kind = .gzero ∨ c.kind = .gstat → c.stat = .queued →
      ([gAfmt d, gBfmt d, gOfmt d].find? fun x => emuFmt x && !(s.host.silivo.contains x)) = some k →
      ∃ t e, exec (.griddleOpStart c.id) s = .next t ∧ ends t ∧ t.eng.banks = s.eng.banks ∧ t.rs.vregs = s.rs.vregs ∧ t.mem = s.mem ∧
        t.block? c.bk = some e ∧ e.reports = b.reports ++ [(⟨12, c.pc, k, fkG c.fk, fkL c.fk⟩, c.frame)]) ∧
    (c.stat = .running →
      (c.kind = .gmma → c.prog = [] → c.b = 0 → gOp d = 0 → gAfmt d = 3 → gBfmt d = 3 → gK d ≤ 32 → gChk d = false → gSca d = false → gScb d = false →
        gLken d = false → gS24 d = false → gAfe d = false → gRgen d = false → gIen d = false → y.cells = [] → y.w = 0 → y.wmode = true →
        let grp := winGrp (gAbase d)
        let a := fun (m k : Nat) => s.vraw c.bk grp (winOff (gAbase d) / 256 + 2 * (k / 4) + m / 64) (m % 64) / 256 ^ (k % 4) % 256
        let col := fun (k n : Nat) => (mget s.eng.lid (lidKey c.core (gBslot d * 2 ^ 17 + 1024 * n + k))).toNat
        (∀ m < gM d, ∀ k < gK d, let r := winOff (gAbase d) / 256 + 2 * (k / 4) + m / 64
          r < s.allot c.bk grp ∧ s.vpois c.bk grp r (m % 64) = false) →
        ∃ t, exec (.griddleOpComplete c.id) s = .next t ∧ ends t ∧
          ∀ m < gM d, ∀ n < gN d, (t.bankAt c).cell (128 * m + n) =
            (((List.range (gK d)).map fun k => (BitVec.ofNat 8 (a m k)).toInt * (BitVec.ofNat 8 (col k n)).toInt).sum, 0)) ∧
      (c.kind = .gmma → c.prog = [] → c.b = 0 → gOp d ≤ 1 → gK d ≤ 32 → gChk d = false → gLken d = false → gS24 d = false → gAfe d = false →
        gRgen d = false → gIen d = false → y.wmode = true →
        ∀ va ea vb eb : Nat → Nat → Int, (∀ m < gM d, ∀ k < gK d, s.gA c d m k = .fin (va m k) (ea m k)) →
        (∀ k < gK d, ∀ n < gN d, (s.gB c d k n k).1 = .fin (vb k n) (eb k n)) →
        let q := fun (m n k : Nat) => let v := va m k * vb k n
          let v := if gOp d = 1 then -v else v
          let e := ea m k + eb k n - y.w
          if 0 ≤ e then v * (2 ^ e.toNat : Nat) else v / (2 ^ (-e).toNat : Nat)
        (∀ m < gM d, ∀ n < gN d, (y.cell (128 * m + n)).1.natAbs + ((List.range (gK d)).map fun k => (q m n k).natAbs).sum < 2 ^ 79) →
        ∃ t, exec (.griddleOpComplete c.id) s = .next t ∧ ends t ∧ ∀ m < gM d, ∀ n < gN d, (t.bankAt c).cell (128 * m + n) =
          ((y.cell (128 * m + n)).1 + ((List.range (gK d)).map (q m n)).sum, (y.cell (128 * m + n)).2)) ∧
      (c.kind = .gdrain → gOfmt d = 2 ∨ gOfmt d = 5 →
        let grp := winGrp (gObase d)
        let reg := fun (m n : Nat) => winOff (gObase d) / 256 + 2 * n + m / 64
        (y.bad = false → gResv d = false → gOp d ≤ 1 → (∀ m < gM d, ∀ n < gN d, reg m n < s.allot c.bk grp) →
          ∃ t, exec (.griddleOpComplete c.id) s = .next t ∧ ends t ∧ (∀ m < gM d, ∀ n < gN d,
            t.vraw c.bk grp (reg m n) (m % 64) = (drainCell (gOfmt d) y.w (y.cell (128 * m + n))).1 % 2 ^ 32 ∧
            t.vfull c.bk grp (reg m n) (m % 64 / 4) = true) ∧
            (∀ k, (t.bankAt c).cell k = if gZad d then (0, 0) else y.cell k)) ∧
        (y.bad = true → ∃ t e, exec (.griddleOpComplete c.id) s = .next t ∧ ends t ∧ t.rs.vregs = s.rs.vregs ∧ t.block? c.bk = some e ∧
          ∃ det, e.reports = b.reports ++ [(⟨12, c.pc, det, fkG c.fk, fkL c.fk⟩, c.frame)])) ∧
      (c.kind = .gdrain → gOfmt d ≤ 1 → y.bad = false → gResv d = false → gOp d ≤ 1 →
        let grp := winGrp (gObase d)
        let reg := fun (m j : Nat) => winOff (gObase d) / 256 + 2 * j + m / 64
        let half := fun (m n : Nat) => (drainCell (gOfmt d) y.w (y.cell (128 * m + n))).1
        (∀ m < gM d, ∀ j, 2 * j < gN d → reg m j < s.allot c.bk grp) →
        ∃ t, exec (.griddleOpComplete c.id) s = .next t ∧ ends t ∧ ∀ m < gM d, ∀ j, 2 * j < gN d →
          t.vraw c.bk grp (reg m j) (m % 64) = (half m (2 * j) + if 2 * j + 1 < gN d then half m (2 * j + 1) * 2 ^ 16 else 0) % 2 ^ 32 ∧
          t.vfull c.bk grp (reg m j) (m % 64 / 4) = true) ∧
      (c.kind = .gload →
        let slot := d / 2 ^ 32 % 16
        let ofs := d / 2 ^ 36 % 2 ^ 17
        let len := d / 2 ^ 64 % 2 ^ 18
        let grp := winGrp (d % 2 ^ 32)
        let src := winOff (d % 2 ^ 32)
        0 < len → len % 16 = 0 → src % 16 = 0 → s.slotTaken c.core slot c.bk = false → src + len ≤ 256 * s.allot c.bk grp → s.wpois c.bk grp src len = false →
        ∃ t, exec (.griddleOpComplete c.id) s = .next t ∧ ends t ∧ t.slotHolder c.core slot = c.bk + 1 ∧
          (∀ i < len, (mget t.eng.lid (lidKey c.core (slot * 2 ^ 17 + ofs + i))).toNat = s.wget c.bk grp (src + i)) ∧
          ∀ q, q < lidKey c.core (slot * 2 ^ 17 + ofs) ∨ lidKey c.core (slot * 2 ^ 17 + ofs) + len ≤ q → mget t.eng.lid q = mget s.eng.lid q) ∧
      (c.kind = .gzero → ∃ t, exec (.griddleOpComplete c.id) s = .next t ∧ ends t ∧ t.bankAt c =
        { y with cells := [], sat := false, bad := false, susp := false, ent := false, kdone := 0, wmode := gWmode d,
                 w := if gWmode d then gW d else y.w, wset := gWmode d }) ∧
      (∀ r, c.kind = .gstat → c.du = some r → ∃ t, exec (.griddleOpComplete c.id) s = .next t ∧ ends t ∧
        t.uraw c.bk c.g r = ((BitVec.ofInt 16 y.w).toNat + (if y.susp then y.kdone * 2 ^ 24 else 0) + (if y.wmode then 2 ^ 41 else 0) +
          (if y.wset then 2 ^ 42 else 0) + (if y.sat then 2 ^ 43 else 0) + (if y.susp then 2 ^ 44 else 0) + (if y.bad then 2 ^ 45 else 0) +
          y.lastchk * 2 ^ 46) % 2 ^ 64) ∧
      (c.kind = .gsave → (c.prog = [] → s.ch.ahead = 0 → Plain s c.bk → ∀ p : Nat → Nat,
          let l := (List.range 4160).map fun i => (p i, natBytes 128 (y.areaLine i))
          (∀ i < 4160, ∃ mt, Maps s l (s.ctxOf c.bk) (c.addr + 128 * i) 128 .store (p i) mt) →
          ∃ t, exec (.griddleOpComplete c.id) s = .next t ∧ (∀ a, t.mem.homeB a = laid s.mem.homeB l a) ∧ t.eng.banks = s.eng.banks ∧
            t.rs.vregs = s.rs.vregs) ∧
        (c.chunks = 4160 → (c.wct = 0 ∨ c.wct < s.tickOn (quadOf c.core) → ∃ t, exec (.griddleOpComplete c.id) s = .next t ∧ ends t ∧ t.mem = s.mem) ∧
          (0 < c.wct → s.tickOn (quadOf c.core) ≤ c.wct → exec (.griddleOpComplete c.id) s = .next s))) ∧
      (c.kind = .gresume → Plain s c.bk → ∀ (z : Bank) (p : Nat → Nat), (-2 ^ 15 ≤ z.w ∧ z.w < 2 ^ 15) → z.kdone < 2 ^ 14 →
        (∀ k < 16384, -2 ^ 79 ≤ (z.cell k).1 ∧ (z.cell k).1 < 2 ^ 79 ∧ (z.cell k).2 < 4) → (∀ k < 16384, -2 ^ 79 ≤ z.entry k ∧ z.entry k < 2 ^ 79) →
        (∀ n < 128, ∀ x : Int × Nat, x = sget (0, 0) z.crow n ∨ x = sget (0, 0) z.ccol n → -2 ^ 87 ≤ x.1 ∧ x.1 < 2 ^ 87 ∧ x.2 < 4) →
        (∀ i < 4160, (∃ mt, Maps s [] (s.ctxOf c.bk) (c.addr + 128 * i) 128 .load (p i) mt) ∧ s.mem.homePois (p i / 128) = false ∧
          (List.range 128).map (fun k => s.mem.homeB (p i + k)) = natBytes 128 (z.areaLine i)) →
        ∃ t, exec (.griddleOpComplete c.id) s = .next t ∧ ends t ∧ (∀ a, t.mem.homeB a = s.mem.homeB a) ∧
          let x := t.bankAt c
          x.w = z.w ∧ x.wmode = z.wmode ∧ x.wset = z.wset ∧ x.sat = z.sat ∧ x.susp = z.susp ∧ x.bad = z.bad ∧ x.ent = z.ent ∧
          (z.susp = true → x.kdone = z.kdone ∧ x.blk = z.blk) ∧ (∀ k < 16384, x.cell k = z.cell k ∧ x.entry k = z.entry k) ∧
          ∀ n < 128, sget (0, 0) x.crow n = sget (0, 0) z.crow n ∧ sget (0, 0) x.ccol n = sget (0, 0) z.ccol n))) ∧
  (∀ (s : State) (e c : Cmd), s.cmds = [e, c] → e.id ≠ c.id → e.core = c.core → e.kind.griddle = true → c.kind.griddle = true →
     e.stat ≠ .done → c.stat = .queued → e.kind ≠ .gload → c.kind ≠ .gload → c.kind ≠ .gsave → c.kind ≠ .gresume → e.sub = c.sub →
     exec (.griddleOpStart c.id) s = .next s)

/-- R215 to R217, R224 to R231, for a command that is alone: `cload` takes the cells of its clauses from memory and `cstore` leaves them there, no other cell
and no other byte changed; `cseed` and `ctab` set the array's counter and tables from their record, which is
reported as FM when it is malformed and as PZ when a word of it is marked; `cinfer` writes the clause outputs of each selected sample and `cvote` its class
votes to D and leaves
the granules full; `ctrain` and `cfb` write the cells that feedback gives, and the counter goes on; each then completes. -/
def Obligations.JasperEffects : Prop :=
  ∀ (s : State) (c : Cmd) (o : Op) (b : Block), Alone s c o b → c.stat = .queued →
    let j := s.jasAt c.core
    let rcb := s.rcbOf c.bk
    let r := c.va.foldr (fun x m => x.toNat + m * 2 ^ 32) 0
    let runs := fun (t : State) => exec (.jasperOpApply c.core) s = .next t ∧ t.cmds = [] ∧ t.ops = []
    let malformed := fun (t : State) => t.jasAt c.core = j ∧ ∃ e det, t.block? c.bk = some e ∧
      e.reports = b.reports ++ [(⟨12, c.pc, det, fkG c.fk, fkL c.fk⟩, c.frame)]
    (c.kind = .cload → c.prog = [] → Plain s c.bk → ∀ p : Nat → Nat,
      (∀ i < 8 * c.b, (∃ mt, Maps s [] (s.ctxOf c.bk) (c.addr + 128 * i) 128 .load (p i) mt) ∧ s.mem.homePois (p i / 128) = false) →
      ∃ t, runs t ∧ { t.jasAt c.core with cells := j.cells } = j ∧ (∀ a, t.mem.homeB a = s.mem.homeB a) ∧ ∀ n, ∀ l < 1024, (t.jasAt c.core).cell n l =
        if c.sub ≤ n ∧ n < c.sub + c.b then s.mem.homeB (p (8 * (n - c.sub) + l / 128) + l % 128) else j.cell n l) ∧
    (c.kind = .cstore → c.prog = [] → Plain s c.bk → (∀ n l, j.cell n l < 256) → ∀ p : Nat → Nat,
      let l := (List.range (8 * c.b)).map fun i => (p i, (List.range 128).map fun k => j.cell (c.sub + i / 8) (128 * (i % 8) + k))
      (∀ i < 8 * c.b, ∃ mt, Maps s l (s.ctxOf c.bk) (c.addr + 128 * i) 128 .store (p i) mt) →
      ∃ t, exec (.jasperOpApply c.core) s = .next t ∧ t.jasAt c.core = j ∧ ∀ a, t.mem.homeB a = laid s.mem.homeB l a) ∧
    (c.kind = .cstore → c.chunks = 8 * c.b → c.wct = 0 ∨ c.wct < s.tickOn (quadOf c.core) → ∃ t, runs t ∧ t.jasAt c.core = j ∧ t.mem = s.mem) ∧
    (c.kind = .cseed ∨ c.kind = .ctab → (∃ x ∈ c.vb, x ≠ 0) → ∃ t e det, runs t ∧ t.jasAt c.core = j ∧ t.block? c.bk = some e ∧
      e.reports = b.reports ++ [(⟨9, c.pc, det, fkG c.fk, fkL c.fk⟩, c.frame)]) ∧
    (c.kind = .cseed → (∀ x ∈ c.vb, x = 0) → ∃ t, runs t ∧
      (r < 2 ^ 45 → t.jasAt c.core = { j with step := r }) ∧ (2 ^ 45 ≤ r → malformed t)) ∧
    (c.kind = .ctab → (∀ x ∈ c.vb, x = 0) → ∃ t, runs t ∧
      let bad := r / 2 ^ 288 % 2 ^ 224 ≠ 0 ∨ (∃ n ∈ List.range 256, r / 2 ^ (512 + 8 * n + 6) % 4 ≠ 0) ∨ r / 2 ^ 272 % 2 ^ 16 = 0 ∨
        512 < r / 2 ^ 272 % 2 ^ 16 ∨ r / 2 ^ 256 % 2 ^ 16 = 0 ∨ 256 < r / 2 ^ 256 % 2 ^ 16
      (bad → malformed t) ∧
      (¬ bad → (t.jasAt c.core).nf = r / 2 ^ 272 % 2 ^ 16 ∧ (t.jasAt c.core).t = r / 2 ^ 256 % 2 ^ 16 ∧ (t.jasAt c.core).cells = j.cells ∧
        (∀ n < 256, (t.jasAt c.core).entry n = r / 2 ^ (512 + 8 * n) % 256) ∧ ∀ n < 16, sget 0 (t.jasAt c.core).nudge n = r / 2 ^ (16 * n) % 2 ^ 16)) ∧
    (c.sub < s.allot c.bk c.g → c.b < 16 →
      (c.kind = .cinfer → ∃ t, runs t ∧ ∀ l < 64, let v := t.vraw c.bk c.g c.sub l
        if c.b.testBit (l / 16) then (if l % 16 < 8 then ∀ n < 32, v.testBit n = j.output false c.va (l / 16) (32 * (l % 16) + n) else v = 0) ∧
          t.vfull c.bk c.g c.sub (l / 4) = true
        else v = s.vraw c.bk c.g c.sub l) ∧
      (c.kind = .cvote → ∃ t, runs t ∧ ∀ l < 64, t.vraw c.bk c.g c.sub l = if c.b.testBit (l / 16) then
          (BitVec.ofInt 32 (j.vote (fun n => (c.va.getD (16 * (l / 16) + n / 32) 0).getLsbD (n % 32)) (l % 16))).toNat
        else s.vraw c.bk c.g c.sub l)) ∧
    (c.kind = .ctrain → ∃ t, runs t ∧ t.jasAt c.core = ((List.range 4).filter (c.b % 16).testBit).foldl (fun j k =>
      let w := (c.vb.getD (16 * k) 0).toNat
      j.train rcb.seed rcb.cbase (c.b / 16 % 4) (c.b.testBit 6) c.va k (w % 16) (w / 2 ^ 8 % 32)) j) ∧
    (c.kind = .cfb → ∃ t, runs t ∧ (t.jasAt c.core).step = (j.step + 1) % 2 ^ 45 ∧
      let k := c.b / 2 % 4
      ∀ n < 256, ∀ l < 1024, j.nf ≤ 512 → (t.jasAt c.core).cell n l =
        if j.en n = true ∧ (c.vb.getD (n / 32) 0).getLsbD (n % 32) = true ∧ l < 2 * j.nf then
          j.nudged rcb.seed rcb.cbase (c.b / 8 % 4) (c.b.testBit 0) (j.output true c.va k n) (litVal c.va k l) n l
        else j.cell n l)

/-! ### Recovery, stops and limits -/

/-- R317 to R322, with the block's operations complete and one frame open outside a conversation: FRAME_FAIL puts back every register that the
attempt saved and no other, drops what it staged, and starts every fibre at the next alternate's header with its call depth as at `ensure`; with no alternate
left the frame
pops and the block stops to freeze with the frame's own failure, every fibre at the `ensure`; after a silent error the same routine runs again. -/
def Obligations.RecoveryEffects : Prop :=
  ∀ (s : State) (uid : Nat) (b : Block) (f : Frame), s.block? uid = some b → b.st = .resident → b.frames = [f] → b.failDepth = 1 → s.ops = [] →
    s.cmds = [] → f.conv = none → f.rlog = [] → swf none s.rs.fibres = true →
    (∀ gr ∈ b.groups, gr.held = [] ∧ ∀ q ∈ gr.recs, (∃ n < 1536, q.item = .vreg n) ∨ ∃ n < 96, q.item = .ureg n) →
    let back := fun (t : State) => t.mem.stages = (s.mem.stages.filter fun x => !(x.bk == uid && decide (1 ≤ x.depth))) ∧
      ∀ g < b.groups.length,
        (∀ q ∈ (b.group g).recs, q.gen = f.gens.getD g 0 → (∀ p ∈ (b.group g).recs, p.gen = q.gen → p.item = q.item → p = q) →
          (∀ n, q.item = .vreg n → q.vals.length = 64 → ∀ l < 64,
            t.vraw uid g n l = q.vals.getD l 0 % 2 ^ 32 ∧ t.vpois uid g n l = q.poison.testBit l) ∧
          (∀ n, q.item = .ureg n → t.uraw uid g n = q.vals.headD 0 % 2 ^ 64 ∧ t.upois uid g n = (q.poison == 1))) ∧
        (∀ n < 1536, (∀ q ∈ (b.group g).recs, q.gen = f.gens.getD g 0 → q.item ≠ .vreg n) → ∀ l, t.vraw uid g n l = s.vraw uid g n l)
    let all := fun (t : State) (p : Fibre → Fibre → Prop) => ∀ k y, s.fib k = some y → fkBk k = uid → ∃ z, t.fib k = some z ∧
      z.preds = y.preds ∧ z.stat = .ready ∧ z.stack = y.stack.drop (y.stack.length - sget 0 f.depths k) ∧ p y z
    let dead := if f.lim = 0 then none else some (s.clockOf uid + f.lim)
    (b.mode = .failing → f.k < f.nalt → ∃ t c h, exec (.frameFail uid) s = .next t ∧ back t ∧ t.block? uid = some c ∧ c.mode = .run ∧
      c.frames = [h] ∧ h.k = f.k + 1 ∧ h.repl = false ∧ h.dead = dead ∧ h.gens = f.gens ∧
      ∀ g d, decode (f.alts.getD f.k 0) = .ok (.elseby g (.disp d)) →
        all t fun _ z => z.pc = dispTo (f.acc + 8 * (f.k + 1)) d ∧ z.left = 66) ∧
    (b.mode = .failing → f.nalt ≤ f.k → f.sil = none → ∃ t c, exec (.frameFail uid) s = .next t ∧ back t ∧ t.block? uid = some c ∧
      c.mode = .freezing ∧ c.frames = [] ∧ c.fault = some ⟨f.cause, f.fpc, f.fdet, f.floc / 64, f.floc % 64⟩ ∧
      all t fun _ z => z.pc = f.epc ∧ z.left = f.eleft) ∧
    (b.mode = .replaying → f.k = 0 → ∃ t c h, exec (.frameFail uid) s = .next t ∧ back t ∧ t.block? uid = some c ∧ c.mode = .run ∧ c.frames = [h] ∧
      h.k = 0 ∧ h.repl = true ∧ h.dead = dead ∧ all t fun _ z => z.pc = f.epc + 8 ∧ z.left = f.eleft - 1)

/-- R200, R322, R332 to R335, R338 to R340, R344, R395, of a resident block: the oldest report of its lowest core takes effect at a boundary, failing the
frame it belongs to while that is open and
else freezing the block; a silent error replays the routine, or the block while it has left nothing, and the second one of an attempt fails or freezes;
an error of a Lid slot that no `gmma` reads is nothing; a block that stops with no operation under way posts its fault and freezes, its launch's other blocks
stopping with it or
going on, or is saved and held, as its fault domain says; and 2,048 core clocks
after a block stopped its Ladle commands are cancelled, for a save, or a freeze that the host may resume, recorded to be issued again. -/
def Obligations.StopEffects : Prop :=
  ∀ (s : State) (uid : Nat) (b : Block), s.block? uid = some b → b.st = .resident →
    let fails := fun (t : State) (f : Frame) (r : FaultRec) => ∃ c h, t.block? uid = some c ∧ c.mode = .failing ∧ c.failDepth = 1 ∧ c.frames = [h] ∧
      h.cause = r.code ∧ h.fpc = r.pc ∧ h.fdet = r.det ∧ h.floc = r.grp * 64 + r.lane ∧ h.dead = none ∧ h.k = f.k ∧ c.reports = []
    let freezes := fun (t : State) (code : Nat) => ∃ c r, t.block? uid = some c ∧ c.mode = .freezing ∧ c.fault = some r ∧ r.code = code ∧ c.reports = []
    (b.mode = .run → s.allReady uid →
      (b.reports = [] → exec (.faultReportAfterIssue uid) s = .next s) ∧
      (∀ first r key rest, b.reports = first ++ (r, key) :: rest → (∀ x ∈ first, (b.group r.grp).core < (b.group x.1.grp).core) →
        (∀ x ∈ rest, (b.group r.grp).core ≤ (b.group x.1.grp).core) →
        (∀ f, b.frames = [f] → key = 65536 + f.gens.getD r.grp 0 → f.gens.getD r.grp 0 < 65536 →
          ∃ t, exec (.faultReportAfterIssue uid) s = .next t ∧ fails t f r) ∧
        ((b.frames = [] ∨ ∃ f, b.frames = [f] ∧ key ≠ 65536 + f.gens.getD r.grp 0 ∧ key / 65536 ≤ 1) →
          ∃ t c, exec (.faultReportAfterIssue uid) s = .next t ∧ t.block? uid = some c ∧ c.mode = .freezing ∧ c.fault = some r ∧ c.reports = [])) ∧
      (∀ core addr synd, s.cmds = [] → exec (.silentError uid ⟨core, 3⟩ addr synd) s = .next s) ∧
      (∀ core src addr synd, core ∈ b.cores → core < 192 →
        src = 1 ∧ addr < 2 ^ 22 ∧ addr % 8 = 0 ∨ src = 4 ∧ 2 ^ 16 ≤ addr ∧ addr < 2 ^ 16 + 2 ^ 18 ∧ addr % 8 = 0 →
        ∃ t, exec (.silentError uid ⟨core, src⟩ addr synd) s = .next t ∧ t.host.irq = true ∧
        (sget none s.host.erb core = none → sget none t.host.erb core =
          some ⟨true, 3, src, 0, true, s.ctxOf uid, addr, synd, s.tickDie (core / 48)⟩) ∧
        (b.frames = [] → b.effects = false → b.replayed = false → ∃ c, t.block? uid = some c ∧ c.mode = .replaying ∧ c.failDepth = 0 ∧ c.replayed = true) ∧
        (b.frames = [] → b.effects = true ∨ b.replayed = true → freezes t 8) ∧
        (∀ f, b.frames = [f] → f.conv = none →
          (f.repl = false → ∃ c, t.block? uid = some c ∧ c.mode = .replaying ∧ c.failDepth = 1) ∧
          (f.repl = true → ∃ c h, t.block? uid = some c ∧ c.mode = .failing ∧ c.failDepth = 1 ∧ c.frames = [h] ∧ h.cause = 8)))) ∧
    (∀ l r, b.mode = .freezing → (s.blocks.map Block.uid).Nodup → s.ops = [] → s.cmds = [] → b.tickets = [] → s.launch? b.lid = some l →
      l.rings = [] → l.status = 0 → l.halt = false → b.fault = some r →
      let fdom := l.rcb.fdom / 2 ^ 6 % 4
      let post := s.postEvent l.ctx (l.rcb.fdom % 8) (eventEntry 1 r.code r.lane r.grp b.idx (b.lid % 2 ^ 64) r.pc r.det)
      ∃ t c, exec (.blockFreeze uid) s = .next t ∧ t.mem = post.2.mem ∧ t.block? uid = some c ∧
        (fdom ≤ 1 → c.st = .frozen ∧ (t.launch? b.lid).map Launch.halt = some (fdom == 0)) ∧
        (∀ y ∈ s.blocks, y.uid ≠ uid → (fdom ≠ 0 ∨ y.lid ≠ b.lid → t.block? y.uid = some y) ∧
          (fdom = 0 → y.lid = b.lid → ∃ z, t.block? y.uid = some z ∧ (y.st = .resident → z.st = .resident ∧ z.mode = .freezing ∧ z.stopAt = s.clockOf y.uid) ∧
            (y.st = .saved → z.st = .frozen) ∧ (y.st = .pending → z.st = .retired) ∧ (y.st = .placing ∨ y.st = .frozen ∨ y.st = .retired → z = y))) ∧
        (fdom = 2 → c.st = .saved ∧ c.held = true ∧ (t.launch? b.lid).map Launch.halt = some false)) ∧
    (s.clockOf uid < b.stopAt + 2048 → exec (.cpCancel uid) s = .next s) ∧
    (∀ e o, b.stopAt + 2048 ≤ s.clockOf uid → s.cmds = [e] → s.ops = [o] → o.id = e.op → o.kind = .eng → e.bk = uid → e.kind.ladle = true → e.stat ≠ .done →
      e.fill = none →
      let hold := b.fault ≠ none ∧ ∃ l, s.launch? b.lid = some l ∧ l.status = 0 ∧ l.halt = false ∧ l.rcb.fdom / 2 ^ 6 % 4 = 2
      (b.mode = .failing ∨ b.mode = .replaying ∨ (b.mode = .freezing ∧ ¬ hold) → ∃ t, exec (.cpCancel uid) s = .next t ∧ t.cmds = [] ∧ t.ops = []) ∧
      (b.mode = .saving ∨ (b.mode = .freezing ∧ hold) → b.saved = none → ∃ t c v, exec (.cpCancel uid) s = .next t ∧ t.cmds = [] ∧ t.ops = [o] ∧ t.block? uid = some c ∧
        c.saved = some v ∧ v.cmds = [{ e with core := b.cores.idxOf e.core, stat := .queued, parts := [], prog := [], skip := [], wct := 0, page := none }]))

/-- R326, R329, R330: a vote or report is applied at the conversation object. In Open an acceptance counts, and the last one, with every member joined, frees
the object and
lets every member pop to its continuation, a saved one once it is resident again; a failure or replay vote moves it to Failing, counts no votes, and notifies
the members; in Failing a report
counts and notes a member that has no alternate or no replay left, and the last one decides: every member repeats its routine, or starts its next one with
the round raised, or, counted
in no VOTES (R391), each is abandoned and ends with its own failure; a saved member meets that when it is back. A notice fails a member's conversational
frame with cause 15, once; it is held while
the member is saved. VTO expires only when its tick has come, and then moves Open to Failing, and abandons a Failing conversation that not every member has joined. -/
def Obligations.ConversationEffects : Prop :=
  ∀ (s : State) (uid pa : Nat),
    let w := convObj s pa
    let state := w / 2 ^ 8 % 4
    let votes := w / 2 ^ 48 % 2 ^ 8
    let nmem := w % 2 ^ 5
    let joined := w / 2 ^ 32 % 2 ^ 8
    let put := fun (v : Nat) => s.mem.physPut s.noCache pa (natBytes 128 v)
    let apply := fun (t : State) => exec (.convVoteApply uid) s = .next t ∧ t.hub.votes = []
    let failing := fun (replay : Bool) => setBits (setBits (setBits w 48 8 0) 11 1 (if replay then 1 else 0)) 8 2 2
    let own := fun (f : Frame) =>
      let w := if f.nalt ≤ f.k then setBits w 10 1 1 else w
      if f.repl then setBits w 12 1 1 else w
    (s.hub.votes = [] → exec (.convVoteApply uid) s = .next s) ∧
    (∀ v, s.hub.votes = [(uid, pa, v)] →
      (v = .acc → state = 1 → ¬(votes + 1 = nmem ∧ joined = nmem) → ∃ t, apply t ∧ t.mem = put (setBits w 48 8 (votes + 1)) ∧ t.blocks = s.blocks) ∧
      (v = .acc → state = 1 → votes + 1 = nmem → joined = nmem → s.ops = [] → s.mem.stages = [] → swf none s.rs.fibres = true → ∃ t, apply t ∧
        t.mem = put (setBits (setBits (setBits w 48 8 (votes + 1)) 32 8 0) 8 2 0) ∧ t.conv pa = Conv.none ∧
        (∀ m ∈ (s.conv pa).members, m ∉ t.hub.notices) ∧
        ∀ m ∈ (s.conv pa).members, ∀ b, s.block? m = some b →
          (∀ f, b.st = .resident → b.mode ≠ .freezing → b.frames = [f] → (∃ c, t.block? m = some c ∧ c.mode = .run ∧ c.frames = []) ∧
            ∀ k y, s.fib k = some y → fkBk k = m → ∃ z, t.fib k = some z ∧ z.pc = f.cont ∧ z.left = 67 ∧ z.stat = .ready ∧ z.preds = y.preds) ∧
          (b.st = .saved ∨ b.st = .placing → b.mode ≠ .freezing → t.block? m = some b ∧ (m, .pop) ∈ t.hub.held)) ∧
      (v = .fail ∨ v = .replay → state = 1 → ∃ t, apply t ∧ t.mem = put (failing (v == .replay)) ∧
        t.hub.notices = s.hub.notices ++ (s.conv pa).members ∧ t.blocks = s.blocks ∧ (t.conv pa).ready = []) ∧
      (v = .fail → state = 2 → ∃ t, apply t ∧ t.mem = put (setBits w 11 1 0) ∧ t.blocks = s.blocks) ∧
      (∀ b f, v = .ready → state = 2 → votes + 1 < nmem → s.block? uid = some b → b.frames = [f] → f.conv ≠ none → ∃ t, apply t ∧
        t.mem = put (setBits (own f) 48 8 (votes + 1)) ∧ (t.conv pa).ready = (s.conv pa).ready ++ [uid] ∧ uid ∉ t.hub.notices) ∧
      (∀ b f, v = .ready → state = 2 → nmem ≤ votes + 1 → s.block? uid = some b → b.frames = [f] → f.conv ≠ none → (s.conv pa).members.Nodup →
        swf none s.rs.fibres = true →
        let x := own f
        let idle := setBits (setBits (setBits x 10 1 0) 11 1 0) 12 1 0
        let each := fun (t : State) (r : Release) (p : Block → Frame → Block → Prop) => ∀ m ∈ (s.conv pa).members, ∀ y, s.block? m = some y → y.mode = .voting →
          (∀ g, y.st = .resident → y.frames = [g] → ∃ z, t.block? m = some z ∧ p y g z) ∧
          (y.st = .saved ∨ y.st = .placing → (m, r) ∈ t.hub.held ∧ ∃ z, t.block? m = some z ∧ z.frames = y.frames ∧ z.mode = .voting)
        let goesOn := fun (k : Nat → Nat) (repl : Bool) (_ : Block) (g : Frame) (z : Block) => z.mode = .run ∧ ∃ h, z.frames = [h] ∧ h.k = k g.k ∧ h.repl = repl
        (x / 2 ^ 11 % 2 = 1 ∧ x / 2 ^ 12 % 2 = 0 → ∃ t, apply t ∧ t.mem = put (setBits (setBits idle 8 2 1) 48 8 0) ∧ each t .replay (goesOn id true)) ∧
        (¬ (x / 2 ^ 11 % 2 = 1 ∧ x / 2 ^ 12 % 2 = 0) → x / 2 ^ 10 % 2 = 0 →
          ∃ t, apply t ∧ t.mem = put (setBits (setBits (setBits idle 8 2 1) 48 8 0) 64 32 (w / 2 ^ 64 % 2 ^ 32 + 1)) ∧ each t .next (goesOn (· + 1) false)) ∧
        (¬ (x / 2 ^ 11 % 2 = 1 ∧ x / 2 ^ 12 % 2 = 0) → x / 2 ^ 10 % 2 = 1 →
          ∃ t, apply t ∧ t.mem = put (setBits (setBits idle 8 2 0) 32 8 0) ∧ t.conv pa = Conv.none ∧
            each t .abandon fun y g z => z.frames = [] ∧ z.mode = .freezing ∧ z.fault = some g.failure ∧
              ∀ k q, s.fib k = some q → fkBk k = y.uid → (t.fib k).map Fibre.pc = some g.epc))) ∧
    (uid ∉ s.hub.notices → exec (.convNotice uid) s = .next s) ∧
    (∀ b, uid ∈ s.hub.notices → s.block? uid = some b →
      (b.mode = .saving ∨ b.st = .saved ∨ b.st = .placing → exec (.convNotice uid) s = .next s) ∧
      (∀ f p, b.running = true → b.frames = [f] → f.conv = some (p, pa) → uid ∉ (s.conv pa).ready → s.hub.votes = [] →
        ∃ t c h, exec (.convNotice uid) s = .next t ∧ t.hub.notices = s.hub.notices.erase uid ∧ t.hub.votes = [] ∧ t.block? uid = some c ∧
          c.mode = .failing ∧ c.failDepth = 1 ∧ c.frames = [h] ∧ h.cause = 15 ∧ h.dead = none ∧ h.k = f.k)) ∧
    (∀ t0, (s.conv pa).dead = some t0 →
      (s.tick < t0 → exec (.vtoExpiry pa) s = .next s) ∧
      (t0 ≤ s.tick → state = 1 → ∃ t, exec (.vtoExpiry pa) s = .next t ∧ t.mem = put (failing false) ∧ (t.conv pa).dead = none ∧
        t.hub.notices = s.hub.notices ++ (s.conv pa).members) ∧
      (t0 ≤ s.tick → state = 2 → joined < nmem → (s.conv pa).members.Nodup → swf none s.rs.fibres = true → ∃ t, exec (.vtoExpiry pa) s = .next t ∧
        t.mem = put (setBits (setBits (setBits (setBits (setBits w 32 8 0) 10 1 0) 11 1 0) 12 1 0) 8 2 0) ∧ t.conv pa = Conv.none ∧
        ∀ m ∈ (s.conv pa).members, ∀ y, s.block? m = some y → y.st = .resident →
          (∀ g, y.mode = .voting → y.frames = [g] → ∃ z, t.block? m = some z ∧ z.frames = [] ∧ z.mode = .freezing ∧ z.fault = some g.failure) ∧
          (y.mode = .run ∨ y.mode = .failing → (m, .abandon) ∈ t.hub.held)) ∧
      (t0 ≤ s.tick → state = 0 ∨ state = 3 ∨ state = 2 ∧ nmem ≤ joined → ∃ t, exec (.vtoExpiry pa) s = .next t ∧ t.mem = s.mem ∧ t.blocks = s.blocks ∧
        (t.conv pa).dead = none)) ∧
    ((s.conv pa).dead = none → exec (.vtoExpiry pa) s = .next s)

/-! ### The Whisk, placement and the ends of blocks and launches -/

/-- R261, R263, R265, R381: a demotion ends after 256 clocks of the bundle's core, a hold after 256 with the record it waited for dropped
(notes/assumptions/46.md), and a bundle
that has waited 1,024 is promoted, none of them earlier; two bundles merge when neither is held and their first fibres stand at one place: at each home lane
the fibre that has waited longest, of several the lowest, is in the merged bundle, and every other stays in a bundle (both notes/assumptions/46.md). A bundle
issues only if it is not held, its block has no report to take, and no other of its core and partition that is ready ranks before it: one not demoted, then the
class of its launch, a starved one's the highest, then the longest wait. -/
def Obligations.BundleEffects : Prop :=
  ∀ (s : State) (k : Nat) (a : Bundle), s.bundles[k]? = some a →
    let as_ := fun (c : Bundle) => ({ s with bundles := s.bundles.set k c } : State)
    let now := s.clockAt (s.group (fkBk (a.fibs.headD 0)) (fkG (a.fibs.headD 0))).core
    exec (.demotionEnd k) s = .next (match a.demoted with
      | some t => if t + 256 ≤ now then as_ { a with demoted := none, yielded := false } else s
      | none => s) ∧
    exec (.reconvergenceTimeout k) s = .next (match a.hold with
      | some t => if t + 256 ≤ now then as_ { a with hold := none, recon := a.recon.tail } else s
      | none => s) ∧
    exec (.starvationPromotion k) s = .next (if a.last + 1024 ≤ now then as_ { a with promoted := true } else s) ∧
    ∀ j b, s.bundles[j]? = some b →
      let meets := a.hold = none ∧ b.hold = none ∧ ∃ p, s.place (a.fibs.headD 0) = some p ∧ s.place (b.fibs.headD 0) = some p
      (k = j ∨ ¬ meets → exec (.bundleMerge k j) s = .next s) ∧
      (k ≠ j → meets → a.fibs ≠ [] → ∃ bs, exec (.bundleMerge k j) s = .next { s with bundles := bs } ∧
        (∃ m ∈ bs, ∀ fk, fk ∈ m.fibs ↔ fk ∈ a.fibs ++ b.fibs ∧ ∀ x ∈ a.fibs ++ b.fibs, fkL x = fkL fk →
          s.lastOf fk < s.lastOf x ∨ (s.lastOf fk = s.lastOf x ∧ fk ≤ x)) ∧
        ∀ fk ∈ a.fibs ++ b.fibs, ∃ c ∈ bs, fk ∈ c.fibs) ∧
      let demoted := fun (x : Bundle) => ∃ t, x.demoted = some t ∧ s.bundleClock x < t + 256
      let class_ := fun (x : Bundle) => if x.promoted = true ∨ x.last + 1024 ≤ s.bundleClock x then 7 else (s.rcbOf (fkBk (x.fibs.headD 0))).prio
      (s.mayIssue k a = true → j ≠ k → j ∉ s.ch.late → s.seatOf b = s.seatOf a → a.hold = none ∧ (∀ x ∈ a.fibs, s.reported x = false) ∧
        (b.hold = none → (∀ x ∈ b.fibs, s.reported x = false) → a.last < 2 ^ 64 → b.last < 2 ^ 64 → class_ a ≤ 7 → class_ b ≤ 7 →
          ¬ (demoted a ∧ ¬ demoted b) ∧ ((demoted a ↔ demoted b) → class_ b ≤ class_ a ∧ (class_ a = class_ b → a.last ≤ b.last))))

/-- R32, R111, R286, R287, R289: the next block of a host's launch is placed on an aligned cluster of ready cores of one ready quadrant that hold its groups,
chunks and reserve and,
for a Jasper launch, its arrays, within its region's CORES, and reserves what it takes; otherwise, and while a block of a launch of higher priority fits or
pre-emption makes room for it
(notes/assumptions/63.md), nothing changes. A saved block that wakes, and the task at the head
of the core's ready queue, are placed likewise.
R259, R288, R289, R292: once placed, a block that was not saved becomes resident with a fibre at every home lane of its groups, about to enter the header at
its launch's entry, the
launch's constants in the low uniform registers of every group; a task starts at its own entry with its child index and argument in s94 and s95. A block that
holds a save goes on where it was. Until its first header every register of a fibre is live (R32). -/
def Obligations.PlacementEffects : Prop :=
  (∀ (s : State) (first : Nat),
    (∀ l, s.launch? l.lid = some l → l.owner = none → l.anc = [] → l.rcb.det = false → l.next < l.grid → (∀ x ∈ s.blocks, x.uid < s.seq) →
      let w := 2 ^ l.clus
      let n := l.grpm1 + 1
      let per := (n + w - 1) / w
      let share := fun (m : Nat) => ((List.range n).filter fun g => g / per = m).length
      let room := first + w ≤ 192 ∧ first % w = 0 ∧ s.host.hubReady.testBit (32 + first / 48) = true ∧ s.host.stopped = false ∧ l.halt = false ∧
        (s.regionCores l.lid ++ span first w).eraseDups.length ≤ l.rcb.cores ∧ ∀ m < w, let c := first + m
          (sget 0 s.host.coreRdy (c / 48)).testBit (c % 48) = true ∧ (s.coreGroups c).length + share m ≤ 64 ∧
          share m * (l.allotc + l.resc) ≤ s.freeCount c ∧ (l.jasper = true → sget 0 s.eng.jasHold c = 0)
      let outdone := s.outranked l.rcb.prio = true
      (¬ room ∨ outdone → exec (.blockPlace (2 ^ 48 + l.lid) first) s = .next s) ∧
      (room → ¬ outdone → ∃ t c, exec (.blockPlace (2 ^ 48 + l.lid) first) s = .next t ∧ t.block? s.seq = some c ∧ c.st = .placing ∧ c.lid = l.lid ∧
        c.idx = l.next ∧ c.cores = span first w ∧ c.ngrp = n ∧ t.launch? l.lid = some { l with next := l.next + 1 } ∧ t.seq = s.seq + 1 ∧
        (∀ g < n, (c.group g).core = first + g / per ∧ (c.group g).chunks.length = l.allotc) ∧
        (l.jasper = true → ∀ m < w, sget 0 t.eng.jasHold (first + m) = s.seq + 1) ∧ t.mem = s.mem ∧ t.rs = s.rs)) ∧
    ∀ uid b l, uid < 2 ^ 48 → s.block? uid = some b → s.launch? b.lid = some l →
      let placed := ∃ t c, exec (.blockPlace uid first) s = .next t ∧ t.block? uid = some c ∧ c.st = .placing ∧ c.cores = span first (b.width l) ∧
        c.saved = b.saved ∧ t.rs = s.rs
      (s.placeOk b l first = false ∨ s.outranked l.rcb.prio = true → exec (.blockPlace uid first) s = .next s) ∧
      (s.placeOk b l first = true → s.outranked l.rcb.prio = false → (b.st = .saved → s.wakes b = true → placed) ∧
        (b.st = .pending → b.task ≠ none → s.queueHead first = some uid → placed))) ∧
  (∀ (s : State) (uid : Nat) (b : Block) (l : Launch), s.block? uid = some b → b.st = .placing → s.launch? b.lid = some l → b.mode = .run →
     b.fault = none → s.host.stopped = false → l.halt = false → b.frames = [] →
     let up := fun (t : State) => ∃ c, t.block? uid = some c ∧ c.st = .resident ∧ c.mode = .run ∧ c.since = s.clockOf uid ∧ c.saved = none ∧ t.mem = s.mem
     (b.saved = none → b.ngrp ≤ 128 → l.consts.length ≤ 96 → (∀ k, fkBk k = uid → s.fib k = none) →
       ∃ t, exec (.placementDone uid) s = .next t ∧ up t ∧
         (∀ g < b.ngrp, ∀ h < 64, ∃ y, t.fib (fkOf uid g h) = some y ∧ y.left = 65 ∧ y.preds = 0 ∧ y.stack = [] ∧ y.stat = .ready ∧ y.livev = 1536 ∧ y.lives = 96 ∧
           y.pc = match b.task with
             | none => (l.image + l.entry) % 2 ^ 64
             | some k => k.desc.toNat % 2 ^ 64) ∧
         ∀ g < b.ngrp, (∀ n < l.consts.length, b.task = none ∨ n < 94 → t.uraw uid g n = l.consts.getD n 0 % 2 ^ 64) ∧
           ∀ k, b.task = some k → t.uraw uid g 94 = k.child % 2 ^ 64 ∧ t.uraw uid g 95 = k.desc.toNat / 2 ^ 64 % 2 ^ 64) ∧
     (∀ v, b.saved = some v → v.back = true → v.permits = [] → s.cmds = [] → s.allReady uid →
       ∃ t, exec (.placementDone uid) s = .next t ∧ up t ∧ t.rs.vregs = s.rs.vregs ∧ t.rs.uregs = s.rs.uregs ∧
         (∀ k, t.fib k = (s.fib k).map fun y => if fkBk k = uid then { y with last := s.clockAt (s.group uid (fkG k)).core } else y) ∧ ∃ cs, t.cmds = cs ∧ cs.length = v.cmds.length ∧
         ∀ e ∈ v.cmds, { e with core := b.cores.getD e.core 0 } ∈ cs))

/-- R288, R307, R338, R341: the victim stops when a block of a launch of higher priority waits that fits on no core though its budgets allow it, and not
otherwise; once still, with room in its region's save area, it is saved and may come back; a block whose
live fibres all stand in `await` is saved. A save keeps every fibre's place, predicates, stack, and registers below its live counts. -/
def Obligations.SaveEffects : Prop :=
  ∀ (s : State) (uid : Nat) (b : Block) (l : Launch), s.block? uid = some b → s.launch? b.lid = some l → b.st = .resident → s.ops = [] →
    s.cmds = [] → (∀ x ∈ s.blocks, x = b ∨ x.st = .retired) → (∀ gr ∈ b.groups, gr.chunks.length ≤ 48) →
    let fits := b.cores.length ≤ l.rcb.cores
    let asks := fun (x : Block × Launch) => (∀ c < 192, s.placeOk x.1 x.2 c = false) ∧ ∃ c < 192, s.siteOk x.1 x.2 c = true
    let saved := fun (t : State) => ∃ c, t.block? uid = some c ∧ c.st = .saved ∧ c.held = false ∧ c.saved ≠ none ∧ c.mode = .run ∧
      ∀ fk y, s.fib fk = some y → fkBk fk = uid → (∃ z, t.fib fk = some z ∧ z.pc = y.pc ∧ z.left = y.left ∧ z.preds = y.preds ∧ z.stack = y.stack ∧
          (y.stat = .ready → z = y)) ∧
        (∀ r < y.livev, r < 1536 → ∀ h, t.vraw uid (fkG fk) r h = s.vraw uid (fkG fk) r h) ∧
        ∀ n < y.lives, n < 96 → t.uraw uid (fkG fk) n = s.uraw uid (fkG fk) n
    (b.mode = .run → fits → (∃ q ∈ s.launches, l.rcb.prio < q.rcb.prio ∧ s.hasNext q = true ∧ asks (s.nextBlock q, q)) →
      exec (.preempt uid) s = .next (s.updBlock uid fun x => { x with mode := .saving, stopAt := s.clockOf uid })) ∧
    (b.mode = .run → (∀ q ∈ s.launches, q.rcb.prio ≤ l.rcb.prio ∨ s.hasNext q = false ∨ ¬ asks (s.nextBlock q, q)) → exec (.preempt uid) s = .next s) ∧
    (b.mode = .saving → fits → ∃ t, exec (.preempt uid) s = .next t ∧ saved t) ∧
    (b.mode = .run → fits → (∃ fk, fk ∈ s.blockFibs uid) → (∀ fk ∈ s.blockFibs uid, ∃ y tg thr q, s.fib fk = some y ∧ y.stat = .timeline tg thr q true) →
      ∃ t, exec (.awaitSave uid) s = .next t ∧ saved t ∧ ∀ fk ∈ s.blockFibs uid, t.fib fk = s.fib fk)

/-- R260, R289, R297, R302: a running block without fibres, operations and reports, or a frozen one, retires, and its registers, Lid slots and arrays are
free; a block with a live fibre
does not. When every block of a launch has been placed, or none will be any more, and all have retired, the launch ends: its record goes to
the context's ring, which counts it, and it and its blocks are no longer listed. -/
def Obligations.RetirementEffects : Prop :=
  ∀ (s : State) (uid : Nat) (b : Block) (l : Launch), s.block? uid = some b → s.launch? b.lid = some l → l.rcb.det = false → b.task = none →
    l.rings = [] →
    let gone := ∃ t c, exec (.blockRetire uid) s = .next t ∧ t.block? uid = some c ∧ c.st = .retired ∧ (∀ p ∈ t.eng.lidHold, p.2 ≠ uid + 1) ∧
      (∀ p ∈ t.eng.jasHold, p.2 ≠ uid + 1) ∧ (∀ g < 128, ∀ r < 1536, ∀ h, t.vraw uid g r h = 0) ∧ (∀ fk, fkBk fk = uid → t.fib fk = none) ∧ t.mem = s.mem
    (b.st = .frozen → gone) ∧
    (b.running = true → b.tickets = [] → b.reports = [] → s.ops = [] → s.cmds = [] → s.blockFibs uid = [] → gone) ∧
    (b.st ≠ .frozen → (∃ fk y, s.fib fk = some y ∧ fkBk fk = uid) → exec (.blockRetire uid) s = .next s) ∧
    (let mine := fun (x : Block) => x.lid = l.lid
     let open_ := (l.halt = false ∧ l.next < l.grid) ∨ ∃ x ∈ s.blocks, mine x ∧ x.st ≠ .retired
     (open_ → exec (.launchEnd l.lid) s = .next s) ∧
     (¬ open_ → l.merged = false → (∀ x ∈ s.blocks, mine x → x.task = none) → s.mem.stages = [] → l.owner = none → l.outs = [] → l.done = 0 →
      (∀ p ∈ s.mem.regions, ∀ r, p.2 = some r → r.lid ≠ l.lid) →
      let x := s.ctx l.ctx
      ∃ t w, exec (.launchEnd l.lid) s = .next t ∧ t.launch? l.lid = none ∧ (∀ y ∈ t.blocks, ¬ mine y) ∧
        (∀ y ∈ s.blocks, ¬ mine y → y ∈ t.blocks) ∧ (t.ctx l.ctx).lrcnt = (x.lrcnt + 1) % 2 ^ 64 ∧
        t.mem = (if x.lring % 2 = 1 then s.mem.physPut s.noCache (x.lring / 2 ^ 12 * 2 ^ 12 + 128 * (x.lrcnt % 2 ^ max (x.lring / 2 ^ 8 % 16) 4)) (natBytes 128 w)
          else s.mem) ∧
        w % 2 ^ 64 = l.lid % 2 ^ 64 ∧ w / 2 ^ 256 % 2 ^ 32 = l.grid % 2 ^ 32 ∧ w / 2 ^ 320 % 2 ^ 64 = l.tstart % 2 ^ 64 ∧
        w / 2 ^ 384 % 2 ^ 64 = s.tick % 2 ^ 64 ∧
        w / 2 ^ 448 % 2 ^ 8 = (if l.status ≠ 0 then l.status else if l.fault.isSome then 1 else 0) % 2 ^ 8 ∧
        w / 2 ^ 456 % 2 ^ 4 = (l.fault.map FaultRec.code).getD 0 % 2 ^ 4 ∧ w / 2 ^ 464 % 2 ^ 32 = l.fblock % 2 ^ 32 ∧
        w / 2 ^ 512 % 2 ^ 64 = (l.fault.map FaultRec.det).getD 0 % 2 ^ 64 ∧ w / 2 ^ 576 % 2 ^ 64 = (l.fault.map FaultRec.pc).getD 0 % 2 ^ 64))

/-- R290, R292, R294, R295, R298, outside a deterministic region: a task whose earlier entries are complete enters a ready queue of its quadrant that has
room, on a ready core: the
shortest (notes/assumptions/65.md); it stays while none has or one of them is not complete; a retired task without renamed tiles is complete, its DONE
timeline raised by one, or not raised
when a fault ended the task (notes/assumptions/26.md); renamed bytes are written once the entries they replaced are complete; and every 4,096 core clocks, of
two neighbouring queues that
differ by more than eight, half the difference moves, the newest first. -/
def Obligations.TaskEffects : Prop :=
  ∀ (s : State),
    (∀ (uid : Nat) (b : Block) (k : TaskRec), s.block? uid = some b → b.task = some k →
      let as_ := fun (t : State) (k' : TaskRec) => t.block? uid = some { b with task := some k' }
      let stays := fun (i : Instr) => exec i s = .next s
      ((s.rcbOf uid).det = true → s.ownerSynced k.poster = false → stays (.taskStart uid)) ∧
      ((s.rcbOf uid).det = false → b.st = .pending → k.ready = false →
        let has := fun (c : Nat) => 48 * k.quad ≤ c ∧ c < 48 * k.quad + 48 ∧ (sget 0 s.host.coreRdy k.quad).testBit (c % 48) = true ∧
          (s.queueOf c).length < 64
        ((∃ w ∈ k.waits, s.taskDone w = false) ∨ (∀ c, ¬ has c) → stays (.taskStart uid)) ∧
        ((∀ w ∈ k.waits, s.taskDone w = true) → (∃ c, has c) → ∃ t c, exec (.taskStart uid) s = .next t ∧ has c ∧
          (∀ e, has e → (s.queueOf c).length ≤ (s.queueOf e).length) ∧ t.seq = s.seq + 1 ∧ t.mem = s.mem ∧
          as_ t { k with ready := true, core := c, rq := s.seq })) ∧
      (b.st ≠ .retired ∨ k.done = true ∨ k.ren ≠ [] → stays (.taskComplete uid)) ∧
      (b.st = .retired → k.done = false → k.ren = [] → (∀ p ∈ s.rs.fibres, ∀ y, p.2 = some y → y.stat = .ready) →
        let p := k.desc.toNat / 2 ^ 128 % 2 ^ 64
        (b.fault ≠ none ∨ p = 0 → ∃ t, exec (.taskComplete uid) s = .next t ∧ as_ t { k with done := true } ∧ t.mem = s.mem) ∧
        (∀ pa mt, b.fault = none → p ≠ 0 → s.check (s.ctxOf uid) p 8 8 .atom false = .ok (.mem pa mt) → s.memUp pa mt = true →
          let v := ofNats (s.readTgt (.mem pa mt) 8).1
          ∃ t, exec (.taskComplete uid) s = .next t ∧ as_ t { k with done := true } ∧
            t.mem = if v + 1 < 2 ^ 64 then (s.writeTgt 192 false (.mem pa mt) (natBytes 8 (v + 1))).mem else s.mem)) ∧
      (b.st = .retired → k.ren ≠ [] →
        ((∃ w ∈ k.olds, s.taskDone w = false) → stays (.renameWriteback uid)) ∧
        (∀ p pa mt, (∀ w ∈ k.olds, s.taskDone w = true) → k.bufset = [(p, true)] → s.check (s.ctxOf uid) p 1 1 .store false = .ok (.mem pa mt) →
          s.memUp pa mt = true → ∃ t, exec (.renameWriteback uid) s = .next t ∧ as_ t { k with ren := [], bufset := [] } ∧
            t.mem = (s.writeTgt 192 false (.mem pa mt) [s.mem.homeNum (k.bufAddr p) 1]).mem))) ∧
    ∀ quad i, (s.blocks.map Block.uid).Nodup →
      let a := 48 * quad + i % 48
      let b := 48 * quad + (i + 1) % 48
      let q := fun (c : Nat) => (s.queueOf c).map (·.2)
      let moves := fun (from_ to_ : Nat) =>
        let mv := (q from_).drop ((q from_).length - ((q from_).length - (q to_).length) / 2)
        ∃ t, exec (.queueBalance quad i) s = .next t ∧ t.mem = s.mem ∧ (∀ x, x ∉ mv → t.block? x = s.block? x) ∧
          ∀ x ∈ mv, ∃ c k, t.block? x = some c ∧ c.task = some k ∧ k.core = to_ ∧ k.ready = true ∧ s.seq ≤ k.rq ∧ k.rq < t.seq
      let due := s.clockOn quad % 4096 = 0
      (¬ due ∨ s.coreReady a = false ∨ s.coreReady b = false ∨ (q a).length ≤ (q b).length + 8 ∧ (q b).length ≤ (q a).length + 8 →
        exec (.queueBalance quad i) s = .next s) ∧
      (due → s.coreReady a = true → s.coreReady b = true → ((q b).length + 8 < (q a).length → moves a b) ∧ ((q a).length + 8 < (q b).length → moves b a))

/-! ### The host -/

/-- R280 to R283, R374: the highest command queue with an entry is served first, and none while commands are not taken; reading the entry moves HEAD on by
one. A launch descriptor that passes its checks
lists a launch whose fields lie in their ranges; one that fails, and an unknown command, are refused with a record of status 2, and launch nothing; a page
that is not present makes the
command wait, its entry read. -/
def Obligations.HostLaunchResults : Prop :=
  ∀ (s : State) (c : Nat),
    ((s.ctx c).cmd = none ∧ (∀ p < 8, ¬ s.pends c p) ∨ s.host.stopped = true ∨ s.host.hubReady.testBit 37 = false ∨ s.host.hubReady.testBit 38 = false →
      ∀ i ∈ ([.hostLaunch c, .translationInvalidate c, .unpin c, .resume c, .cancel c, .episodeStart c, .episodeKill c, .collective c] : List Instr),
        exec i s = .next s) ∧
    ∀ d a h, Heads s c d a h →
      let code := d / 2 ^ 392 % 2 ^ 8
      let on := fun (t : State) => Host.Outcome.next (t.updCtx c fun x => { x with cmd := none })
      (∀ (t : State) (p : Nat), let ptr := sget 0 (t.ctx c).cqptr p
        let ptr' := sget 0 ((t.headAdvance c p).ctx c).cqptr p
        ptr' % 2 ^ 32 = (ptr % 2 ^ 32 + 1) % cqLen (sget cqcfgReset (t.ctx c).cqcfg p) ∧ ptr' / 2 ^ 32 = ptr / 2 ^ 32) ∧
      (∀ fc, let u := h.refusal c d a fc
        let x := s.ctx c
        u.launches = s.launches ∧ (u.ctx c).lrcnt = (x.lrcnt + 1) % 2 ^ 64 ∧ ∃ w,
          u.mem = (if x.lring % 2 = 1 then s.mem.physPut s.noCache (x.lring / 2 ^ 12 * 2 ^ 12 + 128 * (x.lrcnt % 2 ^ max (x.lring / 2 ^ 8 % 16) 4)) (natBytes 128 w)
            else s.mem) ∧
          w % 2 ^ 64 = 0 ∧ w / 2 ^ 448 % 2 ^ 8 = 2 ∧ w / 2 ^ 512 % 2 ^ 64 = a % 2 ^ 64 ∧ w / 2 ^ 384 % 2 ^ 64 = s.tick % 2 ^ 64 ∧
          w / 2 ^ 256 % 2 ^ 32 = d / 2 ^ 128 % 2 ^ 32 ∧ ∀ k, fc = some k → w / 2 ^ 456 % 2 ^ 4 = k.code) ∧
      (code = 0 →
        (∀ key t, h.accept c d none = .ok key t → exec (.hostLaunch c) s = on t ∧ ∃ l ∈ t.launches, l.lid = key ∧ l.ctx = c ∧ l.owner = none ∧
          l.next = 0 ∧ l.halt = false ∧ l.grid = d / 2 ^ 128 % 2 ^ 32 ∧ 0 < l.grid ∧ l.clus ≤ 2 ∧ l.grpm1 + 1 ≤ 64 * 2 ^ l.clus ∧ 1 ≤ l.allotc ∧
          l.allotc ≤ 48 ∧ 1 ≤ l.resc ∧ l.resc ≤ 16 ∧ l.consts.length ≤ 96 ∧ l.entry % 8 = 0 ∧ 1 ≤ l.rcb.cores ∧ l.rcb.cores ≤ 192 ∧ 8 ≤ l.rcb.rsbud ∧
          l.rcb.rsbud ≤ 384 ∧ l.rcb.depth = 1) ∧
        (∀ t, h.accept c d none = .wait t → exec (.hostLaunch c) s = .next { h with mem := { h.mem with preq := t.mem.preq } }) ∧
        (∀ fc t, h.accept c d none = .no fc t → exec (.hostLaunch c) s = on (t.refusal c d a (some fc))) ∧
        (d / 2 ^ 128 % 2 ^ 32 = 0 ∨ d / 2 ^ 224 % 2 ^ 6 = 0 ∨ 48 < d / 2 ^ 224 % 2 ^ 6 ∨ d / 2 ^ 192 % 2 ^ 3 ≠ 0 ∨ 96 < d / 2 ^ 172 % 2 ^ 7 ∨
          d / 2 ^ 163 % 2 ^ 2 = 3 → exec (.hostLaunch c) s = on (h.refusal c d a (some .fm)))) ∧
      (8 ≤ code → exec (.hostLaunch c) s = on (h.refusal c d a none))

/-- R70, R85, R374 to R376: `translation invalidate` brings the region table and the page tables into force; `unpin` drops or writes back the pinned lines of
a region; `resume` lets a held
block be placed again, its recorded fault removed (notes/assumptions/27.md); `cancel` stops a launch's blocks; an episode's start is put to the supervisor,
and its kill is a violation; `collective` reads its contribution when it starts (notes/assumptions/31.md). A command with a
reserved bit set, or that names nothing it can act on, is refused. -/
def Obligations.HostCommandResults : Prop :=
  ∀ (s : State) (c d a : Nat) (h : State), Heads s c d a h →
    let code := d / 2 ^ 392 % 2 ^ 8
    let resv := d / 2 ^ 320 % 2 ^ 72 ≠ 0
    let on := fun (t : State) => Host.Outcome.next (t.updCtx c fun x => { x with cmd := none })
    let no := on (h.refusal c d a none)
    let key := launchKey c (d % 2 ^ 64)
    (code = 1 → (resv → exec (.translationInvalidate c) s = no) ∧
      (¬ resv → s.regionsOf c = [] → ∀ i r, i < 64 →
        (∀ j, j < 64 → entryRegion (s.mem.homeNum ((s.ctx c).trgbase + 32 * j) 32) = if j = i then some r else none) → s.waysOk r = true →
        ∃ t, exec (.translationInvalidate c) s = on t ∧ sget none t.mem.regions (regKey c i) = some r ∧ (t.ctx c).tsnap = t.mem.view ∧
          (∀ off < r.size, t.mem.tline (regKey c i) off = none) ∧ t.rs = s.rs)) ∧
    (code = 2 → let i := d % 2 ^ 64
      let k := regKey c i
      (resv ∨ 63 < i ∨ s.pinnedLines k = [] → exec (.unpin c) s = no) ∧
      (¬ resv → i < 64 → s.pinnedLines k ≠ [] →
        (d / 2 ^ 64 % 2 = 1 → ∃ t, exec (.unpin c) s = on t ∧ (∀ off ∈ s.pinnedLines k, t.mem.tline k off = none) ∧ t.mem.dram = s.mem.dram ∧
          t.mem.home = s.mem.home) ∧
        (d / 2 ^ 64 % 2 = 0 → ∀ t, wbAll c k true (s.pinnedLines k) h = .done t → exec (.unpin c) s = on t))) ∧
    (code = 3 → let named := fun (b : Block) => b.lid = key ∧ b.idx = d / 2 ^ 64 % 2 ^ 64 ∧ b.st = .saved ∧ b.held = true
      (resv ∨ (∀ b ∈ s.blocks, ¬ named b) → exec (.resume c) s = no) ∧
      (∀ b, ¬ resv → s.block? b.uid = some b → named b → (∀ x ∈ s.blocks, named x → x = b) → ∃ t, exec (.resume c) s = on t ∧
        t.block? b.uid = some { b with held := false, fault := none } ∧ t.mem = s.mem ∧ t.rs = s.rs)) ∧
    (code = 4 → (resv ∨ s.launch? key = none → exec (.cancel c) s = no) ∧
      (∀ l, ¬ resv → s.launch? key = some l → (s.blocks.map Block.uid).Nodup → ∃ t, exec (.cancel c) s = on t ∧
        t.launch? key = some { l with halt := true, status := if l.status = 0 then 3 else l.status } ∧
        ∀ b ∈ s.blocks, ∃ b', t.block? b.uid = some b' ∧ (b.lid ≠ key → b' = b) ∧ (b.lid = key →
          (b.st = .resident → b'.st = .resident ∧ b'.mode = .freezing ∧ b'.stopAt = s.clockOf b.uid) ∧ (b.st = .pending → b'.st = .retired) ∧
          (b.st = .saved → b'.st = .frozen) ∧ (b.st = .frozen ∨ b.st = .retired ∨ b.st = .placing → b' = b)))) ∧
    (code = 5 → (resv ∨ d / 2 ^ 143 % 2 ^ 6 ≠ c → exec (.episodeStart c) s = no) ∧
      (¬ resv → d / 2 ^ 143 % 2 ^ 6 = c →
        exec (.episodeStart c) s = on { h with hub := { h.hub with asks := h.hub.asks ++ [{ ctx := c, d := d, addr := a }] } })) ∧
    (code = 6 → let m := d / 2 ^ 256 % 2 ^ 16
      let b := s.mbxNow m
      let foreign := b.st = .free ∨ b.epi.toNat / 2 ^ 143 % 2 ^ 6 ≠ c
      (resv ∨ foreign → exec (.episodeKill c) s = no) ∧
      (¬ resv → ¬ foreign → ∃ t, exec (.episodeKill c) s = on t ∧ (b.st ≠ .ended → (t.mbx m).running = false) ∧
        (b.st = .act ∨ b.st = .run → (t.mbx m).st = .obs ∧ (t.mbx m).obs.toNat / 2 ^ 40 % 2 ^ 8 = 4) ∧
        (b.st = .idle → (t.mbx m).st = .idle ∧ (t.mbx m).kill = true))) ∧
    (code = 7 → let op := d % 2 ^ 4
      let fmt := d / 2 ^ 4 % 2 ^ 4
      let rank := d / 2 ^ 8 % 2 ^ 8
      let n := d / 2 ^ 16 % 2 ^ 8 + 1
      (resv ∨ 3 < op ∨ n ≤ rank → exec (.collective c) s = no) ∧
      (¬ resv → op ≤ 3 → rank < n →
        (op ≤ 1 → fmt ≠ 0 → fmt ≠ 2 → exec (.collective c) s = on (h.refusal c d a (some .fm))) ∧
        ((op ≤ 1 → fmt = 0 ∨ fmt = 2) → ∀ ids u, h.readCtx c (d / 2 ^ 256 % 2 ^ 64) n = .ok ids u →
          ((∃ j < n, j ≠ rank ∧ u.unreachable (ids.getD j 0) = true) → exec (.collective c) s = on (u.refusal c d a none)) ∧
          (∀ own v, (∀ j < n, j ≠ rank → u.unreachable (ids.getD j 0) = false) → u.readCtx c (d / 2 ^ 64 % 2 ^ 64) (coOwn d) = .ok own v →
            exec (.collective c) s = on { v with
              seq := v.seq + 1
              host := { v.host with colls := v.host.colls ++ [{ id := v.seq, ctx := c, d := d, addr := a, own := own, wct := none }] } })) ∧
        ((op ≤ 1 → fmt = 0 ∨ fmt = 2) → ∀ u, h.readCtx c (d / 2 ^ 256 % 2 ^ 64) n = .bad u → exec (.collective c) s = on (u.refusal c d a (some .ac)))))

/-- R65, R82, R105, R280, R336, R343, R344, R346, R352, R371 to R373: what a write of a host-visible register leaves; one that is not aligned to its register
changes nothing (notes/assumptions/42.md). A function reaches a context window only when the context is assigned to it, and only the physical
function reaches the management window. Write-1-to-clear bits clear; a record of the tick of the write stays; a slice named by a region, the carve of a core
that holds groups, Beryl's configuration under a
valid episode and a level 3 alarm keep their values; a slice that is left without a way for the cache holds no line any more, its dirty ones written
(notes/assumptions/63.md), and a new carve drops the core's copies
(notes/assumptions/45.md); the creation of a context starts its launch ids and its record count. -/
def Obligations.RegisterResults : Prop :=
  ∀ (s : State) (val : Nat),
    let h := s.host
    let host := fun (x : HostSt) => (Host.Outcome.next { s with host := x } : Host.Outcome State Fault Refusal)
    let mgmt := fun (off : Nat) => exec (.registerWrite 0 .mgmt off val) s
    let refused := host { h with reply := .unsupported }
    let has := fun (n : Nat) => val / 2 ^ n % 2 = 1
    (∀ fn off, fn ≠ 0 → exec (.registerWrite fn .mgmt off val) s = refused) ∧
    (∀ u < 414, mgmt (32 * u) = exec (.erbStatusClear u val) s) ∧ mgmt 0x4040 = exec (.onyxAlarmClear val) s ∧
    mgmt 0x4048 = exec (.berylEnvcfgWrite val) s ∧ (∀ n < 12, mgmt (0x5008 + 16 * n) = exec (.dramcActstatClear n val) s) ∧
    (∀ n < 192, mgmt (0x5400 + 8 * n) = exec (.tureenSlcfgWrite n val) s) ∧
    (∀ n < 64, mgmt (0x4100 + 8 * n) = host { h with ctxmap := sset 0 h.ctxmap n (val % 2 ^ 6 + val / 2 ^ 8 % 2 * 256) }) ∧
    (∀ n < 256, mgmt (0x4400 + 8 * n) = host { h with route := sset 0 h.route n (val % 2 ^ 4 + val / 2 ^ 8 % 2 * 256) }) ∧
    (∀ n < 12, mgmt (0x5000 + 16 * n) = host { h with actcfg := sset actcfgReset h.actcfg n (val / 2 ^ 4 % 2 ^ 16 * 16) }) ∧
    (∀ off, off % 8 ≠ 0 ∨ (off < 0x33C0 ∧ off % 32 ≠ 0) ∨ 0x5A00 ≤ off → mgmt off = .next s) ∧
    (∀ u, (¬ has 63 → exec (.erbStatusClear u val) s = .next s) ∧ (∀ e, has 63 → sget none h.erb u = some e →
      let to_ := fun (x : Erb) => exec (.erbStatusClear u val) s = host { h with erb := sset none h.erb u (some x) }
      let cleared : Erb := { e with valid := false, ovf := 0 }
      (sget none h.erbNew u = none → to_ cleared) ∧
      ∀ k x, sget none h.erbNew u = some (k, x) → (k = s.tick → to_ x) ∧ (k ≠ s.tick → to_ cleared))) ∧
    (∀ n < 12, ∃ v, exec (.dramcActstatClear n val) s = host { h with actstat := sset 0 h.actstat n v } ∧
      v % 2 ^ 32 = (if has 0 then 0 else sget 0 h.actstat n % 2 ^ 32) ∧
      v / 2 ^ 32 % 2 ^ 32 = if has 32 then 0 else sget 0 h.actstat n / 2 ^ 32 % 2 ^ 32) ∧
    (∀ n, 12 ≤ n → exec (.dramcActstatClear n val) s = .next s) ∧
    exec (.onyxAlarmClear val) s = (if has 0 ∧ h.alarm % 2 ^ 2 ≠ 3 then host { h with alarm := 0 } else .next s) ∧
    (∀ n, let named := 192 ≤ n ∨ ∃ p ∈ s.mem.regions, ∃ r, p.2 = some r ∧ r.sfirst ≤ n ∧ n < r.sfirst + r.scount
      (named → exec (.tureenSlcfgWrite n val) s = .next s) ∧
      let after : HostSt := { h with slcfg := sset 0 h.slcfg n (val % 32) }
      (¬ named → val % 32 < 24 → exec (.tureenSlcfgWrite n val) s = host after) ∧
      (¬ named → 24 ≤ val % 32 → ∃ t, exec (.tureenSlcfgWrite n val) s = .next t ∧ t.host = after ∧ t.rs = s.rs ∧ t.blocks = s.blocks ∧
        (swf none s.mem.htag = true → swf false s.mem.zdir = true → Memory.wf s.mem.dram → Memory.wf s.mem.home →
          (∀ ln, t.mem.tag ln = if homeOf (ln * 128) = n then none else s.mem.tag ln) ∧
          ∀ a, (homeOf (a / 128 * 128) = n → ∀ tg, s.mem.tag (a / 128) = some tg → tg.dirty = true) → t.mem.homeB a = s.mem.homeB a))) ∧
    (∀ n, (192 ≤ n ∨ s.coreGroups n ≠ [] → exec (.coreDccfgWrite n val) s = .next s) ∧
      (n < 192 → s.coreGroups n = [] → exec (.coreDccfgWrite n val) s = .next { s with
        mem := { s.mem with copies := s.mem.copies.filter fun c => c.core != n }
        host := { h with dccfg := sset 0 h.dccfg n (val % 4) } })) ∧
    (let valid := ∃ p ∈ s.hub.mbx, ∃ b, p.2 = some b ∧ b.st ≠ .free ∧ b.epi.toNat / 2 ^ 149 % 2 = 1
     (valid → exec (.berylEnvcfgWrite val) s = .next s) ∧
     (¬ valid → ∃ v, exec (.berylEnvcfgWrite val) s = host { h with envcfg := v } ∧ v % 2 ^ 7 = val % 2 ^ 7 ∧ v / 2 ^ 7 % 2 ^ 23 = 0 ∧
        v / 2 ^ 30 = val % 2 ^ 64 / 2 ^ 30)) ∧
    ∀ c, let x := s.ctx c
      let mine := fun (fn : Nat) => c < 64 ∧ fn ≤ 32 ∧ sget 0 h.ctxmap c / 2 ^ 8 % 2 = 1 ∧ sget 0 h.ctxmap c % 2 ^ 6 = fn
      let to_ := fun (y : Ctx) => host { h with ctxs := sset Ctx.reset h.ctxs c y }
      let v := val % 2 ^ 64
      (c < 64 → (∀ l ∈ s.launches, l.ctx ≠ c) → exec (.contextCreation c) s = to_ { x with made := true, nextLid := 1, lrcnt := 0 }) ∧
      (64 ≤ c ∨ (∃ l ∈ s.launches, l.ctx = c) → exec (.contextCreation c) s = .next s) ∧
      (∀ fn, ¬ mine fn → (∀ off, exec (.registerWrite fn (.ctx c) off val) s = refused) ∧
        ∀ q, exec (.evqLostClear fn c q val) s = refused ∧ exec (.cqTailWrite fn c q val) s = refused) ∧
      ∀ fn, mine fn →
        let write := fun (off : Nat) => exec (.registerWrite fn (.ctx c) off val) s
        write 0x00 = to_ { x with ptroot := v } ∧ write 0x08 = to_ { x with bndbase := v } ∧ write 0x10 = to_ { x with trgbase := v } ∧
        write 0x18 = to_ { x with scpbase := v } ∧ write 0x20 = to_ { x with rncfg := v } ∧ write 0x28 = to_ { x with diag := v % 2 } ∧
        (∃ n, write 0x30 = to_ { x with lring := n } ∧ n % 2 = v % 2 ∧ n / 2 % 2 ^ 7 = 0 ∧ n / 2 ^ 8 = v / 2 ^ 8) ∧ write 0x38 = .next s ∧
        (∀ q < 8, (∃ n, write (0x100 + 16 * q) = to_ { x with cqcfg := sset cqcfgReset x.cqcfg q n } ∧ n % 2 = v % 2 ∧ n / 2 % 2 ^ 3 = 0 ∧
            n / 2 ^ 4 % 2 ^ 4 = v / 2 ^ 4 % 2 ^ 4 ∧ n / 2 ^ 8 % 2 ^ 4 = 0 ∧ n / 2 ^ 12 = v / 2 ^ 12) ∧
          write (0x108 + 16 * q) = exec (.cqTailWrite fn c q val) s ∧ write (0x200 + 16 * q) = exec (.evqLostClear fn c q val) s ∧
          (∃ n, exec (.cqTailWrite fn c q val) s = to_ { x with cqptr := sset 0 x.cqptr q n } ∧ n % 2 ^ 32 = sget 0 x.cqptr q % 2 ^ 32 ∧
            n / 2 ^ 32 % 2 ^ 32 = val / 2 ^ 32 % 2 ^ 32) ∧
          (∃ n, exec (.evqLostClear fn c q val) s = to_ { x with evqcfg := sset evqcfgReset x.evqcfg q n } ∧ n % 2 = v % 2 ∧ n / 2 % 2 = 0 ∧
            n / 2 ^ 2 % 2 ^ 6 = (if has 2 then 0 else sget evqcfgReset x.evqcfg q / 2 ^ 2 % 2 ^ 6) ∧ n / 2 ^ 8 = v / 2 ^ 8) ∧
          ∃ n, write (0x208 + 16 * q) = to_ { x with evqptr := sset 0 x.evqptr q n } ∧ n % 2 ^ 32 = sget 0 x.evqptr q % 2 ^ 32 ∧
            n / 2 ^ 32 % 2 ^ 32 = val / 2 ^ 32 % 2 ^ 32) ∧
        ∀ q, 8 ≤ q → exec (.evqLostClear fn c q val) s = .next s ∧ exec (.cqTailWrite fn c q val) s = .next s

/-- R59, R61, R63, R87, R245, R371, R375, R376, R396, for accesses within one line: a host read answers with the bytes and the poison mark of the copy in
memory, and logs a line of DRAM that cannot be corrected (R62), a host write performs at it; an access that
fails its check is an abort or is discarded, and one by a function that does not own the context is unsupported. A peer's access reaches memory at its
physical address while its link
and what holds the address are up; one beyond DRAM is an abort, and the record of a host's read names the reader's context (notes/assumptions/42.md); it
takes the link as good, a passed flit
ending a run of failures (notes/assumptions/63.md).
R146, R376 (the layout of the contributions is the model's, notes/assumptions/31.md): a collective whose peers are reachable writes its result and, once its
write completion times have passed, ends; one with a peer that is not is refused. The result of a reduction over two ranks is the sum of their elements,
rounded to nearest; a gather's is the
contributions in rank order; a scatter's its rank's part of rank 0's. -/
def Obligations.HostAccessResults : Prop :=
  (∀ (s : State),
    let reply := fun (r : Reply) => (Host.Outcome.next { s with host := { s.host with reply := r } } : Host.Outcome State Fault Refusal)
    let byte := fun (u : State) (mt a : Nat) => if mt = 2 then u.mem.dramB a else u.mem.homeB a
    let bad := fun (mt pa : Nat) => if mt = 2 then s.mem.dramPois (pa / 128) else s.mem.homePois (pa / 128)
    let data := fun (mt pa n : Nat) => Reply.data ((List.range n).map fun i => BitVec.ofNat 8 (byte s mt (pa + i))) (bad mt pa)
    let served := fun (t : State) (h : HostSt) (cx : Option Nat) (mt pa : Nat) => t.host.reply = h.reply ∧ t.mem = s.mem ∧ t.rs = s.rs ∧
      (sget 0 s.mem.dbad (pa / 128) = 0 → t = { s with host := h }) ∧
      (sget 0 s.mem.dbad (pa / 128) ≠ 0 → sget false s.mem.zdir (pa / 128) = false → sget false s.mem.dpoison (pa / 128) = false →
        mt = 2 ∨ s.mem.tag (pa / 128) = none → t.host.irq = true ∧ (sget none s.host.erb (384 + pa / 4096 % 12) = none → ∃ x : Erb,
          sget none t.host.erb (384 + pa / 4096 % 12) = some x ∧ x.valid = true ∧ x.rank = 3 ∧ x.src = 6 ∧ x.cv = cx.isSome ∧ x.ctx = cx.getD 0))
    let stored := fun (t : State) (mt pa : Nat) (bs : List Byte) => t.rs.vregs = s.rs.vregs ∧ t.rs.uregs = s.rs.uregs ∧ t.host.reply = s.host.reply ∧
      (∀ i < bs.length, byte t mt (pa + i) = (bs.getD i 0).toNat) ∧ ∀ a, a < pa ∨ pa + bs.length ≤ a → byte t mt a = byte s mt a
    (∀ fn c p, ¬ (c < 64 ∧ fn ≤ 32 ∧ sget 0 s.host.ctxmap c / 2 ^ 8 % 2 = 1 ∧ sget 0 s.host.ctxmap c % 2 ^ 6 = fn) →
      (∀ n, exec (.hostRead fn c p n) s = reply .unsupported) ∧ ∀ bs, exec (.hostWrite fn c p bs) s = reply .unsupported) ∧
    (∀ fn c p n, c < 64 → fn ≤ 32 → sget 0 s.host.ctxmap c / 2 ^ 8 % 2 = 1 → sget 0 s.host.ctxmap c % 2 ^ 6 = fn → 0 < n → p % 128 + n ≤ 128 →
      (∀ fc, s.boundsCheck c p n 1 .load = some fc → exec (.hostRead fn c p n) s = reply .abort) ∧
      (s.boundsCheck c p n 1 .load = none →
        (∀ fc k, s.leafCheck c p .load = .fault fc k → exec (.hostRead fn c p n) s = reply .abort) ∧
        (∀ k, s.leafCheck c p .load = .absent k → ∃ t, exec (.hostRead fn c p n) s = .next t ∧ t.host.reply = .abort ∧
          (c, p % 2 ^ 56 / 65536 * 65536) ∈ t.mem.preq ∧ t.rs = s.rs ∧ t.mem.dram = s.mem.dram) ∧
        (∀ pa mt, s.leafCheck c p .load = .ok (.mem pa mt) →
          (s.memUp pa mt = false → exec (.hostRead fn c p n) s = .next s) ∧
          (s.memUp pa mt = true → ∃ t, exec (.hostRead fn c p n) s = .next t ∧ served t { s.host with reply := data mt pa n } (some c) mt pa))) ∧
      ∀ bs : List Byte, bs.length = n →
        (∀ fc, s.boundsCheck c p n 1 .store = some fc → exec (.hostWrite fn c p bs) s = .next s) ∧
        (s.boundsCheck c p n 1 .store = none →
          (∀ fc k, s.leafCheck c p .store = .fault fc k → exec (.hostWrite fn c p bs) s = .next s) ∧
          (∀ pa mt, s.leafCheck c p .store = .ok (.mem pa mt) → s.memUp pa mt = true → pa % 128 + n ≤ 128 →
            ∃ t, exec (.hostWrite fn c p bs) s = .next t ∧ stored t mt pa bs))) ∧
    ∀ port pa n, 0 < n → pa % 128 + n ≤ 128 →
      let up := port < 16 ∧ s.host.hubReady.testBit port = true ∧ pa + n ≤ 0xBFD0000000 ∧ s.memUp pa 0 = true
      (up → ∃ t, exec (.peerRead port pa n) s = .next t ∧
        served t { s.host with links := sset 0 s.host.links port 0, reply := data 0 pa n } none 0 pa) ∧
      (¬ up → exec (.peerRead port pa n) s = if s.stackFailed pa = true ∨ 0xBFD0000000 ≤ pa then reply .abort else .next s) ∧
      ∀ bs : List Byte, bs.length = n → (¬ up → exec (.peerWrite port pa bs) s = .next s) ∧
        (up → ∃ t, exec (.peerWrite port pa bs) s = .next t ∧ stored t 0 pa bs ∧ sget 0 t.host.links port = 0)) ∧
  (∀ (s : State) (k : Coll) (cs : List (List Byte)), s.host.colls = [k] → k.d / 2 ^ 448 % 2 ^ 64 = 0 →
     let op := k.d % 2 ^ 4
     let n := k.d / 2 ^ 16 % 2 ^ 8 + 1
     let rank := k.d / 2 ^ 8 % 2 ^ 8
     let count := k.d / 2 ^ 192 % 2 ^ 64
     let dst := k.d / 2 ^ 128 % 2 ^ 64
     let bytes := coResult k.d (k.inputs cs)
     let part := fun (j : Nat) => if j = rank then k.own else (cs.getD j []).map BitVec.toNat
     (∀ w r, k.wct = some w → exec (.collectiveComplete k.id r cs) s = .next (if w < s.tick then { s with host := { s.host with colls := [] } } else s)) ∧
     (k.wct = none → ∃ t, exec (.collectiveComplete k.id false cs) s = .next t ∧ t.host.colls = [] ∧
       (t.ctx k.ctx).lrcnt = ((s.ctx k.ctx).lrcnt + 1) % 2 ^ 64) ∧
     (∀ pa mt, k.wct = none → bytes ≠ [] → dst % 128 + bytes.length ≤ 128 → s.check k.ctx dst bytes.length 1 .store false = .ok (.mem pa mt) →
       s.memUp pa mt = true → pa % 128 + bytes.length ≤ 128 → ∃ t w, exec (.collectiveComplete k.id true cs) s = .next t ∧
         t.host.colls = [{ k with wct := some w }] ∧ t.rs = s.rs ∧
         ∀ i < bytes.length, (if mt = 2 then t.mem.dramB (pa + i) else t.mem.homeB (pa + i)) = bytes.getD i 0 % 256) ∧
     (op = 0 → n = 2 → k.d / 2 ^ 4 % 2 ^ 4 ≠ 0 → bytes.length = 4 * count ∧ ∀ i < count,
       let e := fun (j : Nat) => ofNats ((part j).drop (4 * i) |>.take 4)
       ofNats ((bytes.drop (4 * i)).take 4) = (fAdd fmt32 .near (e 0) (e 1)).1 % 2 ^ 32) ∧
     (op = 2 → bytes = (List.range n).flatMap part) ∧
     (op = 3 → bytes = ((part 0).drop (rank * count)).take count))

/-- R345, R346, R377: Onyx's alarm keeps the highest level with its tick, one of the same level the first's (notes/assumptions/43.md). The third failed
verification without a success between, a glitch and a breach stop every launch, tell every context and
end the taking of commands; a breach erases the keys as well. An image is loaded only when both signatures verify, which the outside decides
(notes/assumptions/56.md); a report holds the nonce, the images and the configuration with two
signatures, or after an erasure the nonce alone. -/
def Obligations.SecurityResults : Prop :=
  ∀ (s : State),
    let alarm := fun (lv : Nat) => if s.host.alarm % 2 ^ 2 < lv then s.tick % 2 ^ 64 / 4 * 4 + lv else s.host.alarm
    let stops := fun (t : State) => t.host.stopped = true ∧
      (∀ l, s.launch? l.lid = some l → t.launch? l.lid = some { l with halt := true, status := if l.status = 0 then 4 else l.status }) ∧
      ((s.blocks.map Block.uid).Nodup → ∀ b ∈ s.blocks, (∃ l ∈ s.launches, l.lid = b.lid) → ∃ c, t.block? b.uid = some c ∧
        (b.st = .resident → c.mode = .freezing) ∧ (b.st = .saved → c.st = .frozen) ∧ (b.st = .pending → c.st = .retired)) ∧
      ∀ c < 64, let cfg := sget evqcfgReset (s.ctx c).evqcfg 0
        let ptr := sget 0 (s.ctx c).evqptr 0
        let n := 2 ^ max (cfg / 2 ^ 8 % 16) 4
        let drop := cfg % 2 = 0 ∨ (ptr % 2 ^ 32 + 1) % n = ptr / 2 ^ 32 % 2 ^ 32 % n
        (drop → sget evqcfgReset (t.ctx c).evqcfg 0 / 2 ^ 2 % 2 ^ 6 = min (cfg / 2 ^ 2 % 2 ^ 6 + 1) 63) ∧
        (¬ drop → sget 0 (t.ctx c).evqptr 0 % 2 ^ 32 = (ptr % 2 ^ 32 + 1) % n)
    let failed := fun (t : State) => t.host.verFails = s.host.verFails + 1 ∧ t.host.images = s.host.images ∧
      (s.host.verFails < 2 → t.host.alarm = alarm 1 ∧ t.host.stopped = s.host.stopped ∧ t.launches = s.launches ∧ t.blocks = s.blocks) ∧
      (2 ≤ s.host.verFails → t.host.alarm = alarm 2 ∧ t.host.erased = s.host.erased ∧ stops t)
    (∃ t, exec .verificationFailure s = .next t ∧ failed t) ∧
    (∃ t, exec .glitch s = .next t ∧ t.host.alarm = alarm 2 ∧ t.host.erased = s.host.erased ∧ stops t) ∧
    (∃ t, exec .tamperBreach s = .next t ∧ t.host.alarm = alarm 3 ∧ t.host.erased = true ∧ stops t) ∧
    (∀ kind e l hash codes, (¬ (e = true ∧ l = true) → ∃ t, exec (.imageLoad kind e l hash codes) s = .next t ∧ failed t) ∧
      (e = true → l = true → ∃ t, exec (.imageLoad kind e l hash codes) s = .next t ∧ t.host.verFails = 0 ∧ sget 0 t.host.images kind = hash ∧
        (∀ j, j ≠ kind → sget 0 t.host.images j = sget 0 s.host.images j) ∧ t.host.alarm = s.host.alarm ∧
        (kind ≠ 0 → t.host.silivo = s.host.silivo) ∧
        (kind = 0 → ∀ c, c ∈ t.host.silivo ↔ c ∈ s.host.silivo ∨ c ∈ codes ∧ 8 ≤ c ∧ c < 15))) ∧
    ∀ nonce, ∃ t r, exec (.attestation nonce) s = .next t ∧ t.host.attest = some r ∧ r.nonce = nonce ∧ r.erased = s.host.erased ∧
      (s.host.erased = true → r.images = [] ∧ r.config = none ∧ r.sigs = none) ∧
      (s.host.erased = false → r.images = s.host.images ∧ r.config = some s.host.cfgHash ∧
        r.sigs = some (Config.signature s.free, Config.signature (s.free + 1))) ∧ t.mem = s.mem ∧ t.rs = s.rs

/-- R64, R65, R344, R346, R375, R378 to R381, every live fibre being ready: what the board reports and does. Row alerts and the clocks of their back-off are
counted up to the counters' tops, a back-off counting 480 clocks at
most and admitting no other alert of its bank; a replayed flit is logged, and the eighth failure of one flit in a row lets the link retrain, a failed retrain
taking it down; a function that becomes ready sets its bit, a stack that failed its training and a link that failed
never do; an access under way on what fails, a write sent and not acknowledged among them, is reported as AC; a reset keeps the alarm, the erasure and the
flash partition and nothing else, and takes
the configuration of the newest record whose signatures verify and whose counter has not gone back; a hot die steps its clock down, and its core clocks from
then on are the fewer, the others' as before. Of this the consecutive
failures of a flit and what a passed one ends are notes/assumptions/63.md, what a reset keeps and what it zeroes notes/assumptions/1.md, 2.md and 43.md, and
that the access that fails is reported at once
notes/assumptions/33.md. -/
def Obligations.BoardResults : Prop :=
  ∀ (s : State), (∀ p ∈ s.rs.fibres, ∀ y, p.2 = some y → y.stat = .ready) →
    let h := s.host
    let host := fun (x : HostSt) => (Host.Outcome.next { s with host := x } : Host.Outcome State Fault Refusal)
    let logged := fun (t : State) (u : Nat) (e : Erb) => sget none h.erb u = none → sget none t.host.erb u = some e
    let lost := fun (t : State) (o : Op) (x : Lane) => ∀ b, s.ops = [o] → o.lanes = [x] → x.st = .pending → x.ptr < 2 ^ 64 →
      s.block? o.bk = some b → b.running = true →
      ∃ c, t.block? o.bk = some c ∧ c.reports = b.reports ++ [(⟨4, o.pc, x.ptr, fkG x.fk, fkL x.fk⟩, o.frame)]
    (∀ n bank, (12 ≤ n ∨ sget false h.backoff (bank * 16 + n) = true → exec (.rowAlert n bank) s = .next s) ∧
      (n < 12 → sget false h.backoff (bank * 16 + n) = false → ∃ t, exec (.rowAlert n bank) s = .next t ∧
      let v := sget 0 h.actstat n
      let w := sget 0 t.host.actstat n
      w / 2 ^ 32 % 2 ^ 32 = min (v / 2 ^ 32 % 2 ^ 32 + 1) (2 ^ 32 - 1) ∧ w % 2 ^ 32 = v % 2 ^ 32 ∧
      sget false t.host.backoff (bank * 16 + n) = true ∧ t.mem = s.mem)) ∧
    (∀ n bank k, (sget false h.backoff (bank * 16 + n) = false → exec (.backoffEnd n bank k) s = .next s) ∧
      (sget false h.backoff (bank * 16 + n) = true → ∃ t, exec (.backoffEnd n bank k) s = .next t ∧
        let v := sget 0 h.actstat n
        let w := sget 0 t.host.actstat n
        w % 2 ^ 32 = min (v % 2 ^ 32 + min k 480) (2 ^ 32 - 1) ∧ w / 2 ^ 32 % 2 ^ 32 = v / 2 ^ 32 % 2 ^ 32 ∧
        sget false t.host.backoff (bank * 16 + n) = false)) ∧
    (∀ p n crc, (16 ≤ p → exec (.flitReplay p n crc) s = .next s) ∧ (p < 16 → ∃ t, exec (.flitReplay p n crc) s = .next t ∧
      sget 0 t.host.links p = (if sget 0 h.linkSq p = n + 1 then sget 0 h.links p + 1 else 1) ∧ sget 0 t.host.linkSq p = n + 1 ∧ t.host.irq = h.irq ∧
      logged t (396 + p) ⟨true, 1, 8, 0, false, 0, n, crc % 2 ^ 32, s.tickDie (unitDie (396 + p))⟩)) ∧
    (∀ p ok, (16 ≤ p ∨ sget 0 h.links p < 8 → exec (.linkRetrain p ok) s = .next s) ∧ (p < 16 → 8 ≤ sget 0 h.links p →
      ∃ t, exec (.linkRetrain p ok) s = .next t ∧ sget 0 t.host.links p = 0 ∧ (ok = true → t.host.hubReady = h.hubReady) ∧
        (ok = false → t.host.hubReady.testBit p = false ∧ t.host.gone.testBit p = true ∧ (∀ j, j ≠ p → t.host.hubReady.testBit j = h.hubReady.testBit j) ∧ t.host.irq = true ∧
          logged t (396 + p) ⟨true, 3, 8, 0, false, 0, 0, 0, s.tickDie (unitDie (396 + p))⟩ ∧
          ∀ o x a, x.tgt = .out a 4 → s.routeOf a = some p → lost t o x ∧ (x.st = .done → o.kind.stores = true → 0 < x.wct → s.tickOf o ≤ x.wct → x.ptr < 2 ^ 64 →
            ∀ b, s.ops = [o] → o.lanes = [x] → s.block? o.bk = some b → b.running = true →
              ∃ c, t.block? o.bk = some c ∧ c.reports = b.reports ++ [(⟨4, o.pc, x.ptr, fkG x.fk, fkL x.fk⟩, o.frame)])))) ∧
    (∀ n cores, let failed := h.gone.testBit n = true ∨ 16 ≤ n ∧ n < 28 ∧ sget false h.trainFail (n - 16) = true
      (38 < n ∨ failed → exec (.functionReady n cores) s = .next s) ∧
      (n ≤ 38 → ¬ failed → n < 32 ∨ 36 ≤ n → ∃ t, exec (.functionReady n cores) s = .next t ∧
        (∀ j, t.host.hubReady.testBit j = (decide (j = n) || h.hubReady.testBit j)) ∧ t.mem = s.mem ∧ t.rs = s.rs) ∧
      (32 ≤ n → n < 36 → ∃ t, exec (.functionReady n cores) s = .next t ∧
        let r := sget 0 t.host.coreRdy (n - 32)
        (∀ j < 48, r.testBit j = ((sget 0 h.coreRdy (n - 32)).testBit j || (cores.testBit j && h.cfgCores.testBit (48 * (n - 32) + j)))) ∧
        t.host.hubReady.testBit n = (decide (r ≠ 0) || h.hubReady.testBit n))) ∧
    (∀ n, let known := 12 ≤ n ∨ h.hubReady.testBit (16 + n) = true ∨ sget false h.trainFail n = true
      (known → exec (.stackTrainingFail n) s = .next s) ∧ (¬ known → ∃ t, exec (.stackTrainingFail n) s = .next t ∧
        sget false t.host.trainFail n = true ∧ t.host.irq = true ∧
        (sget none h.erb (384 + n) = none → ∃ a y, sget none t.host.erb (384 + n) = some ⟨true, 3, 6, 0, false, 0, a, y, s.tickDie (unitDie (384 + n))⟩) ∧
        ∀ o x pa mt, x.tgt = .mem pa mt → pa / 4096 % 12 = n → lost t o x)) ∧
    (let old : CfgRec := { cores := h.cfgCores, sku := h.cfgSku, keys := h.cfgKeys, counter := h.cfgCtr, hash := h.cfgHash, ecdsa := true, lms := true }
     let fit := fun (r : CfgRec) => r.ecdsa = true ∧ r.lms = true ∧ h.cfgCtr ≤ r.counter
     ∀ rec, ((∀ r ∈ h.flash, ¬ fit r) ∧ rec = old ∨ ∃ l m, h.flash = l ++ rec :: m ∧ fit rec ∧ ∀ r ∈ m, ¬ fit r) → exec .deviceReset s = .next { State.reset with
      agenda := s.agenda, free := s.free, seq := s.seq
      host := { HostSt.reset with
        alarm := h.alarm, erased := h.erased, flash := h.flash, cfgCores := rec.cores, cfgSku := rec.sku, cfgKeys := rec.keys, cfgCtr := rec.counter, cfgHash := rec.hash } }) ∧
    ∀ die temp, let v := sget 0 h.throttle die
      let steps := if 105 ≤ temp ∨ (v % 2 = 1 ∧ 100 ≤ temp) then (v / 2 + 1) * 2 + 1 else v / 2 * 2
      ∃ x, exec (.thermalThrottle die temp) s = host x ∧ x = { h with throttle := sset 0 h.throttle die steps, lag := x.lag } ∧
        (∀ t q, q ≠ die → ({ s with host := x, tick := t } : State).clockOn q = ({ s with tick := t } : State).clockOn q) ∧
        (s.lagOn die ≤ 16 * s.tick → ∀ k, let y : State := { s with host := x, tick := s.tick + 16 * k }
          y.clockOn die = s.clockOn die + k * (16 - min (steps / 2) 15))

/-- R35, R126, R179 to R184, R288, R307, R316, R338, R364, R367, R368: each of these forms answers a next state that has its own effect, under conditions on
the state and its
operands alone. The conversions and `rand` write D and go on: an integer conversion gives the source's value reduced or, of equal widths or from 64 to 32
bits, clamped; `cvt2` packs two halves;
`qds8` and `escale` replace one byte of D, `escale` by the exponent of its FP32 source; `dqds8` under the scale 0xFF gives the canonical NaN; `rand` depends
on the index and the
stream, other than 0xFFFF, alone. `accept`, the last fibre arriving, with every predicate true, pops its frame. A victim that a block of higher priority asks
for stops, and once nothing of it is
under way it is saved; a block whose fibres all stand in `await` is saved. A send without a payload, or whose payload is one piece of plain memory, is
answered OK at an idle mailbox; a
delivery without a payload fills the window and ends, and one of a single piece of plain memory is stored first. -/
def Obligations.FormsComplete : Prop :=
  (∀ (s : State) (fk : Nat) (x : Fibre),
    (∀ f : CvtF, Issues s f.g fk x → free s fk f.d f.id f.dty.wide = true → readable s fk f.a f.ia f.sty.wide = true →
      ∃ r fl, exec (.cvt f) s = .next (gives s fk f.d f.id f.dty.wide f.dty r fl) ∧
        (f.hi = false → f.dty ∈ [Ty.i32, Ty.z32, Ty.i64, Ty.z64] → f.sty ∈ [Ty.i32, Ty.z32, Ty.i64, Ty.z64] →
          let n := intOf f.sty (value s fk f.a f.ia f.sty.wide)
          let lo : Int := if f.dty.signed then -(2 ^ (8 * f.dty.size - 1)) else 0
          let hi : Int := if f.dty.signed then 2 ^ (8 * f.dty.size - 1) - 1 else 2 ^ (8 * f.dty.size) - 1
          (f.sat = false → r = patOf f.dty n ∧ fl = 0) ∧
          (f.sat = true → f.dty.size ≤ f.sty.size → r = patOf f.dty (max lo (min hi n)) ∧ (fl = 0 ↔ lo ≤ n ∧ n ≤ hi)))) ∧
    (∀ (f : Bin) (rm : RM), Issues s f.g fk x → f.ty = .f16 ∨ f.ty = .bf16 → Bin.ready s fk f false false false = true →
      ∃ lo hi fl, lo < 2 ^ 16 ∧ hi < 2 ^ 16 ∧ exec (.cvt2 f rm) s = .next (gives s fk f.d f.id false f.ty (lo + hi * 2 ^ 16) fl)) ∧
    (∀ (f : Bin) (k : Nat) (rm : RM), Issues s f.g fk x → f.ty = .ds8 → k < 4 → Bin.ready s fk f false false false = true →
      let d := value s fk f.d f.id false
      let e := value s fk f.b f.ib false % 256
      (∃ r fl, exec (.dqds8 f k rm) s = .next (gives s fk f.d f.id false f.ty r fl) ∧ (e = 255 → r = 0x7FC00000)) ∧
      (clean s fk f.d f.id false = true → ∃ q fl, q < 256 ∧ (e = 255 → q = 0x77) ∧
        exec (.qds8 f k) s = .next (gives s fk f.d f.id false f.ty (d % 2 ^ (8 * k) + q * 2 ^ (8 * k) + d / 2 ^ (8 * k + 8) * 2 ^ (8 * k + 8)) fl))) ∧
    (∀ (f : Un) (k : Nat), Issues s f.g fk x → f.ty = .e8 → k < 4 → Un.ready s fk f false false = true → clean s fk f.d f.id false = true →
      let d := value s fk f.d f.id false
      ∃ fl, exec (.escale f k) s = .next (gives s fk f.d f.id false f.ty
        (d % 2 ^ (8 * k) + value s fk f.a f.ia false / 2 ^ 23 % 256 * 2 ^ (8 * k) + d / 2 ^ (8 * k + 8) * 2 ^ (8 * k + 8)) fl)) ∧
    (∀ f : Bin, Issues s f.g fk x → f.ty = .z32 ∨ f.ty = .z64 ∨ f.ty = .f32 → Bin.ready s fk f f.ty.wide true false = true →
      let sid := value s fk f.b f.ib false % 65536
      let h := hashH (s.rcbOf (fkBk fk)).seed (s.rcbOf (fkBk fk)).cbase (value s fk f.a f.ia true) sid
      sid ≠ 65535 → ∃ r, exec (.rand f) s = .next (gives s fk f.d f.id f.ty.wide f.ty r 0) ∧ (f.ty = .z64 → r = h) ∧ (f.ty = .z32 → r = h % 2 ^ 32) ∧
        (f.ty = .f32 → h / 2 ^ 40 % 2 ^ 24 = 0 → r = 0))) ∧
  (∀ (s : State) (g : Guard) (fk : Nat) (x : Fibre) (b : Block) (p : Nat) (f : Frame) (rest : List Frame) (w : Nat), LastToArrive s g fk x b (.accept g p) →
    b.frames = f :: rest → f.acc = s.ipc → f.conv = none → s.quiet (fkBk fk) = true →
    (∀ k y, s.fib k = some y → fkBk k = fkBk fk → y.pred p = true) → s.land (fkBk fk) (s.group (fkBk fk) 0).core f.cont [0xF0] = .ok w →
    ∃ t c, exec (.accept g p) s = .next t ∧ t.block? (fkBk fk) = some c ∧ c.frames = rest ∧
      ∀ k y, s.fib k = some y → fkBk k = fkBk fk → (t.fib k).map Fibre.pc = some f.cont) ∧
  (∀ (s : State) (uid : Nat) (b : Block) (l : Launch), s.block? uid = some b → s.launch? b.lid = some l → b.st = .resident →
    (∀ y ∈ s.blocks, y.lid = b.lid → y = b) → b.cores.length ≤ l.rcb.cores →
    let idle := (∀ o ∈ s.ops, o.bk ≠ uid) ∧ ∀ c ∈ s.cmds, c.bk ≠ uid
    let saved := fun (t : State) => ∃ c, t.block? uid = some c ∧ c.st = .saved ∧ c.saved ≠ none ∧ c.held = false ∧
      ∀ k y, s.fib k = some y → fkBk k = uid → (t.fib k).map Fibre.pc = some y.pc
    (b.mode = .run → (∀ y ∈ s.blocks, y.st = .resident → y.mode ≠ .saving → y = b ∨ l.rcb.prio < (s.rcbOf y.uid).prio) →
      (∃ q ∈ s.launches, l.rcb.prio < q.rcb.prio ∧ s.hasNext q = true ∧ (∀ c < 192, s.placeOk (s.nextBlock q) q c = false) ∧
        ∃ c < 192, s.siteOk (s.nextBlock q) q c = true) →
      exec (.preempt uid) s = .next (s.updBlock uid fun y => { y with mode := .saving, stopAt := s.clockOf uid })) ∧
    (b.mode = .saving → idle → ∃ t, exec (.preempt uid) s = .next t ∧ saved t) ∧
    (b.mode = .run → idle → (∃ k, k ∈ s.blockFibs uid) → (∀ k ∈ s.blockFibs uid, ∃ y tg thr q, s.fib k = some y ∧ y.stat = .timeline tg thr q true) →
      ∃ t, exec (.awaitSave uid) s = .next t ∧ saved t)) ∧
  (∀ (s : State) (o : Op) (x : Lane) (b : Block) (l : Launch) (r : Nat), s.ops = [o] → o.lanes = [x] → o.kind = .msend → o.d = .s r → x.st = .pending →
    s.allReady o.bk → s.block? o.bk = some b → b.running = true → b.frames = [] → s.launch? b.lid = some l → l.rcb.det = false →
    let m := x.src / 2 ^ 80 % 2 ^ 16
    let len := x.src / 2 ^ 65 % 2 ^ 15
    let y := s.mbxNow m
    y.st = .idle → (y.bound = none ∨ y.bound = some l.lid) → (y.ver = none ∨ y.ver = some l.pver) → x.src / 2 ^ 50 % 2 = 0 → y.kill = false →
    (len = 0 ∨ ∃ pa mt, len ≤ 16 ∧ x.ptr % 16 = 0 ∧ x.ptr < 2 ^ 64 ∧ s.check l.ctx x.ptr len 1 .load false = .ok (.mem pa mt) ∧ s.memUp pa mt = true ∧
      s.mem.stages = [] ∧ s.mem.dramPois (pa / 128) = false ∧ s.mem.homePois (pa / 128) = false) →
    ∃ t, exec (.msendApply o.id) s = .next t ∧ (t.mbx m).st = .act ∧ t.uraw o.bk o.g r = 0) ∧
  ∀ (s : State) (o : Op) (x : Lane) (b : Block) (f : Fibre), s.ops = [o] → o.lanes = [x] → o.kind = .mrecv → o.fin = false → x.st = .pending → x.wct4 ≠ 0 →
    fkBk x.fk = o.bk → x.dl = 2 ^ fkL x.fk → s.fib x.fk = some f → f.stat = .lane → f.pc = o.pc →
    (∀ k y, s.fib k = some y → fkBk k = o.bk → k ≠ x.fk → y.stat = .ready) →
    s.block? o.bk = some b → b.running = true → b.frames = [] → (s.rcbOf o.bk).det = false → 0 < s.tick →
    let m := x.src / 2 ^ 80 % 2 ^ 16
    let w := x.src / 2 ^ 96 % 2 ^ 32
    let y := s.mbxNow m
    let n := min (y.obs.toNat / 2 ^ 25 % 2 ^ 15) (x.src / 2 ^ 65 % 2 ^ 15)
    y.st = .obs → s.winCheck o.bk w 64 64 = none → x.val = 0 →
    (n = 0 → ∃ t, exec (.mrecvDelivery o.id 0) s = .next t ∧ t.ops = [] ∧ t.wnum o.bk (winGrp w) (winOff w) 64 = y.obs.toNat ∧
      (t.fib x.fk).map Fibre.pc = some (f.pc + 8)) ∧
    ∀ pa mt, 0 < n → n ≤ 16 - x.ptr % 16 → x.ptr < 2 ^ 64 → s.check (s.ctxOf o.bk) x.ptr n 1 .store false = .ok (.mem pa mt) → s.memUp pa mt = true →
      ∃ t v, exec (.mrecvDelivery o.id 0) s = .next t ∧ (t.mbx m).st = .obs ∧ t.ops = [{ o with lanes := [{ x with val := 1, wct := v }] }]

/-! ### Words, steps, faults and reset -/

/-- R8 to R28, R34 to R36: the word of every well-formed instruction decodes to that instruction, every operand and qualifier at every value its field
admits; a word decodes only to an instruction whose word it is, a word with an opcode from 0xF0 on is a header, and every other word is illegal. -/
def Obligations.EncodingRoundTrip : Prop :=
  (∀ i : Instr, i.wf = true → encode i < 2 ^ 64 ∧ decode (encode i) = .ok i) ∧
    (∀ w i, decode w = .ok i → i.wf = true ∧ encode i = w) ∧
    (∀ w, 0xF0 ≤ w / 2 ^ 56 → decode w = .header) ∧
    ∀ w, w / 2 ^ 56 < 0xF0 → (∀ i : Instr, i.wf = true → encode i ≠ w) → decode w = .illegal

/-- Words the spec assembles (R17, R18, R19, R20, R26, R98, R204, R267): `ld.b32 v1, [s1]`, `stw.b32`, `cmpi.lt.z32 p3, lane, 32`, `fma.rz.f32`, `br` by −5
words, `fspawn v12`, `lfetch s20`,
`gstat s9, s6`, `wait tl=0` and `ret`; and a word with a reserved bit set, an unassigned opcode and a header word. -/
def Obligations.DecodingSanity : Prop :=
  let on : Guard := { u := false, gn := false, gp := 15 }
  decode 0x683C00E010014300 =
      .ok (.ld { g := on, d := .v 1, base := .s 1, ofs := 0, sc := 0, ty := .f32, scope := 3, pol := 0, qf := 0 }) ∧
    decode 0x5B0C148280016300 = .ok (.stw { g := ⟨false, false, 3⟩, d := .v 41, base := .v 40, ofs := 0, sc := 0, ty := .b32, scope := 3, pol := 0, qf := 0 }) ∧
    decode 0x1F3C01E60200C002 = .ok (.cmpi { g := on, p := 3, a := .sp .lane, imm := 32, ia := false, ty := .z32, cc := 2 }) ∧
    decode 0x333C0500400A01A9 = .ok (.fma { g := on, d := .v 10, a := .v 4, b := .v 5, c := .v 6, ty := .f32, rm := .zero }) ∧
    decode 0x903C00000FB00000 = .ok (.br on (.disp 0xFB)) ∧ decode 0x973C060000600000 = .ok (.fspawn on 12 (.disp 6)) ∧
    decode 0xA03C006140000000 = .ok (.lfetch ⟨on, 20⟩) ∧ decode 0xAE3F04E060000000 = .ok (.gstat ⟨on, 9, 6⟩) ∧
    decode 0x833C00000FFF0000 = .ok (.wait on 15 15 15 0) ∧ decode 0x933C000000000000 = .ok (.ret on) ∧
    decode 0x933C000000000001 = .illegal ∧ decode 0xD03C000000000000 = .illegal ∧ decode 0xF008040200000400 = .header

/-- R35, R261, R277, R333: a step whose agenda entry issues a bundle runs the instruction that the first word found by a fibre of it decodes to, for every
fibre of the bundle that finds this word, and then
settles the bundles; an illegal or header word is a fault of each of them, a header to be entered is entered; where no fibre finds a word each takes its own
fetch's fault or parks for its page. A bundle does not issue that is
held, whose block has a report to take, or that a ready bundle of its core and partition, or in the same tick one of a higher core, has come before (R332);
it may when none of these is so. An entry that names an event runs it. -/
def Obligations.StepRunsTheWord : Prop :=
  ∀ (s : State) (e : Entry) (es : List Entry), s.agenda = e :: es →
    let u := ({ s with agenda := es } : State).start e
    (e.mis = [] → u.rs = s.rs ∧ u.mem = s.mem ∧ u.blocks = s.blocks ∧ u.bundles = s.bundles ∧ u.tick = s.tick + e.dt ∧ u.agenda = es ∧
      u.ch.late = e.late ∧ u.turn = if e.dt = 0 then s.turn else 0) ∧
    (∀ i, e.act = .ev i → step s = onNext State.finish (exec i u)) ∧
    ∀ k b, e.act = .issue k → u.bundles[k]? = some b →
      let fk := b.fibs.headD 0
      (u.mayIssue k b = false → step s = .next u.finish) ∧
      (b.hold ≠ none ∨ (∃ x ∈ b.fibs, u.reported x = true) ∨ (u.seatOf b).1 < u.turn → u.mayIssue k b = false) ∧
      (b.hold = none → (∀ x ∈ b.fibs, u.reported x = false) → u.turn ≤ (u.seatOf b).1 →
        (∀ j x, u.bundles[j]? = some x → j ≠ k → j ∉ e.late → u.seatOf x = u.seatOf b → u.bundleRank b ≤ u.bundleRank x) → e.mis = [] → u.mayIssue k b = true) ∧
      ∀ f, u.fib fk = some f → u.mayIssue k b = true →
        (f.atHeader = true → step s = .next ((sortBy id b.fibs).foldl State.enterOne (u.noteIssue k b.fibs)).finish) ∧
        (f.atHeader = false →
          (f.ahead = [] → u.wordAt fk = u.fetchWord (fkBk fk) (u.group (fkBk fk) (fkG fk)).core f.pc) ∧
          ((∀ x ∈ b.fibs, ∀ w, u.wordAt x ≠ .word w) → step s = .next ((sortBy id b.fibs).foldl (fun t x => t.fetchOne x f.pc) u).finish) ∧
          (∀ (t : State) (x : Nat), (t.wordAt x = .wait → t.fetchOne x f.pc = t) ∧ (t.wordAt x = .absent → t.fetchOne x f.pc = t.parkFetch x f.pc) ∧
            ∀ fc d, t.wordAt x = .fault fc d → t.fetchOne x f.pc = t.fetchFault x fc f.pc d) ∧
          ∀ w first rest x, b.fibs = first ++ x :: rest → (∀ y ∈ first, ∀ z, u.wordAt y ≠ .word z) → u.wordAt x = .word w →
            let cur := b.fibs.filter fun x => u.wordAt x == .word w
            let v := u.atIssue k f.pc cur
            let flt := fun (fc : FClass) => step s =
              .next (((sortBy id cur).foldl (fun t x => t.openFault (fkBk x) x fc f.pc) v).watch v k).finish
            v.cur = cur ∧ v.ipc = f.pc ∧ v.rs.vregs = u.rs.vregs ∧ v.rs.uregs = u.rs.uregs ∧ v.blocks = u.blocks ∧ v.mem.dram = u.mem.dram ∧
            v.mem.home = u.mem.home ∧
            (∀ i, decode w = .ok i → step s = onNext (fun t => (t.watch v k).finish) (exec i v)) ∧
            (decode w = .illegal → flt .il) ∧ (decode w = .header → flt .hd))

/-- R261: every step leaves every bundle with fibres that can all issue, at one launch, core, partition and PC, and at different home lanes, and no fibre in
two bundles. -/
def Obligations.StepKeepsBundles : Prop :=
  ∀ (s s' : State), s.bundlesOk → step s = .next s' → s'.bundlesOk

/-- R65, R280, R336, R343, R346, R378 to R380: after reset nothing is ready, no alarm, error record or interrupt is up, the command and event queues are
disabled with 16 entries, the row-alert
threshold is 0x400 with 2 rows, no launch, block, fibre or operation exists, and memory lists nothing. (A register without a stated value reads 0,
notes/assumptions/2.md.) -/
def Obligations.ResetValues : Prop :=
  let s := State.reset
  s.bundlesOk ∧ s.host.hubReady = 0 ∧ s.host.alarm = 0 ∧ s.host.irq = false ∧ s.host.stopped = false ∧ s.host.erased = false ∧
    (∀ u, sget none s.host.erb u = none) ∧ (∀ n, sget actcfgReset s.host.actcfg n = 0x40020 ∧ sget 0 s.host.actstat n = 0) ∧
    (∀ c, (s.ctx c).made = false ∧ ∀ q, sget cqcfgReset (s.ctx c).cqcfg q = 0x40 ∧ sget 0 (s.ctx c).cqptr q = 0 ∧
      sget evqcfgReset (s.ctx c).evqcfg q = 0x400 ∧ sget 0 (s.ctx c).evqptr q = 0) ∧
    s.launches = [] ∧ s.blocks = [] ∧ s.ops = [] ∧ s.cmds = [] ∧ (∀ fk, s.fib fk = none) ∧ (∀ bk g r l, s.vraw bk g r l = 0) ∧
    (∀ bk g n, s.uraw bk g n = 0) ∧ Memory.wf s.mem.dram ∧ Memory.wf s.mem.home ∧ ∀ a, s.mem.dramB a = 0 ∧ s.mem.homeB a = 0

/-- R16, R35, R63, R118, R302, R315, R318, R320, R332 to R334, R338: a fault outside every frame stops the block to freeze and is the launch's when it is the
first; inside, the innermost frame fails with it, its limit
stops and its conversation is told; a block that already fails, freezes or has left takes no note of it, and one that stops to be saved keeps it for later.
An operand above the allotment is AL
and a poisoned source PZ (notes/assumptions/65.md for its detail), each naming its register, in operand order and before any register changes; a scoreboarded
operand holds the fibre at the
instruction; a fibre whose guard fails goes on to its next word.
R31, R32, R34, R268, of a fibre of a running block outside every frame that is about to enter a header: a wrong address or kind is HD with the address as
detail, a count above its range or a reserved bit is
HD, a live count above the allotment AL naming its last register; otherwise the fibre goes on with the block's first word and its live counts. -/
def Obligations.FaultAndHeaderResults : Prop :=
  (∀ (s : State) (fk : Nat) (x : Fibre) (b : Block), s.fib fk = some x → x.stat = .ready → s.block? (fkBk fk) = some b →
    let bk := fkBk fk
    (∀ r : FaultRec, r.det < 2 ^ 64 → let t := s.takeFault bk r
      (b.running = true → b.frames = [] → t.rs = s.rs ∧ t.mem = s.mem ∧
        t.block? bk = some { b with mode := .freezing, fault := some r, stopAt := s.clockOf bk, reports := [] } ∧
        ∀ l, s.launch? b.lid = some l → (l.fault = none → t.launch? b.lid = some { l with fault := some r, fblock := b.idx, ftag := b.tag }) ∧
          (l.fault ≠ none → b.tag = none ∨ l.ftag = none → t.launch? b.lid = some l)) ∧
      (∀ f fs, b.running = true → b.frames = f :: fs → t.rs = s.rs ∧ t.mem = s.mem ∧
        t.hub.votes = s.hub.votes ++ (match f.conv with | some c => [(bk, c.2, Vote.fail)] | none => []) ∧
        t.block? bk = some { b with
          mode := .failing, failDepth := fs.length + 1, stopAt := s.clockOf bk, reports := []
          frames := { f with cause := r.code, fpc := r.pc, fdet := r.det, floc := r.grp * 64 + r.lane, sil := none, dead := none } :: fs }) ∧
      (b.st = .frozen ∨ b.st = .retired ∨ b.mode = .failing ∨ b.mode = .replaying ∨ b.mode = .freezing → t = s) ∧
      (b.st = .resident → b.mode = .saving → t.block? bk = some { b with reports := b.reports ++ [(r, b.frameKey r.grp)] })) ∧
    ∀ c ∈ ([.add, .sub, .min, .max, .and, .or, .xor] : List (Bin → Instr)), ∀ f : Bin, s.cur = [fk] → f.ty.wide = false →
      f.id = false → f.ia = false → f.ib = false →
      let fits := fun (o : Opnd) => ∀ n, o = .v n → n < 1536 ∧ n < s.allot bk (fkG fk)
      let ok := fun (o : Opnd) => free s fk o false false = true
      let pure_ := fun (o : Opnd) => clean s fk o false false = true
      let name := fun (o : Opnd) => match o with | .v n => n | .s n => 1536 + n | .sp _ => 0
      let runs := exec (c f) s
      ((x.pred f.g.gp != f.g.gn) = false → runs = .next (s.advance fk)) ∧
      ((x.pred f.g.gp != f.g.gn) = true →
        (¬ fits f.d → runs = .next (s.faulted fk .al (name f.d))) ∧
        (fits f.d → ¬ fits f.a → runs = .next (s.faulted fk .al (name f.a))) ∧
        (fits f.d → fits f.a → ¬ fits f.b → runs = .next (s.faulted fk .al (name f.b))) ∧
        (fits f.d → fits f.a → fits f.b →
          (¬ (ok f.d ∧ ok f.a ∧ ok f.b) → runs = .next s) ∧
          (ok f.d → ok f.a → ok f.b → (¬ pure_ f.a → runs = .next (s.faulted fk .pz (name f.a))) ∧
            (pure_ f.a → ¬ pure_ f.b → runs = .next (s.faulted fk .pz (name f.b))))))) ∧
  (∀ (s : State) (fk : Nat) (x : Fibre) (b : Block) (w : Nat), Calm s fk b → s.fib fk = some x → x.stat = .ready →
     let bk := fkBk fk
     let t := s.enterOne fk
     let kinds := match x.left with
       | 0 => [0xF0, 0xF2]
       | 65 => [0xF1]
       | 66 => [0xF3]
       | 67 => [0xF0]
       | _ => [0xF0, 0xF1, 0xF2, 0xF3]
     let fails := fun (code det : Nat) => ∃ c, t.block? bk = some c ∧ c.mode = .freezing ∧ c.fault = some ⟨code, x.pc, det, fkG fk, fkL fk⟩
     x.pc < 2 ^ 64 → (x.pc % 8 ≠ 0 → fails 2 x.pc) ∧
     (x.pc % 8 = 0 → s.fetchWord bk (s.group bk (fkG fk)).core x.pc = .word w → w < 2 ^ 64 →
       let livev := w / 2 ^ 39 % 2 ^ 11
       let lives := w / 2 ^ 32 % 2 ^ 7
       let bad := 1536 < livev ∨ 96 < lives ∨ w % 2 ^ 10 ≠ 0
       (w / 2 ^ 56 ∉ kinds → fails 2 x.pc) ∧
       (w / 2 ^ 56 ∈ kinds → w / 2 ^ 12 % 2 ^ 20 = 0 →
         (bad → ∃ c r, t.block? bk = some c ∧ c.mode = .freezing ∧ c.fault = some r ∧ r.code = 2 ∧ r.pc = x.pc) ∧
         (¬ bad → s.allot bk (fkG fk) < livev → fails 3 (livev - 1)) ∧
         (¬ bad → livev ≤ s.allot bk (fkG fk) → t.block? bk = some b ∧ t.fib fk = some { x with
           pc := x.pc + 8, left := w / 2 ^ 50 % 2 ^ 6 + 1, ahead := [], rcv := none, livev := livev, lives := lives }))))
end

