-- ==== Sys2Proof/Laws/State.lean ====
section
/-!
SUPPORT. What each named update of the state leaves alone: one lemma per field, so that no proof unfolds a record update.
-/
namespace Sys2Proof.Machine
set_option Elab.async false

@[simp] theorem State.putFib_tick (s : State) (fk : Nat) (x : Fibre) : (s.putFib fk x).tick = s.tick := rfl
@[simp] theorem State.putFib_turn (s : State) (fk : Nat) (x : Fibre) : (s.putFib fk x).turn = s.turn := rfl
@[simp] theorem State.putFib_seq (s : State) (fk : Nat) (x : Fibre) : (s.putFib fk x).seq = s.seq := rfl
@[simp] theorem State.putFib_free (s : State) (fk : Nat) (x : Fibre) : (s.putFib fk x).free = s.free := rfl
@[simp] theorem State.putFib_agenda (s : State) (fk : Nat) (x : Fibre) : (s.putFib fk x).agenda = s.agenda := rfl
@[simp] theorem State.putFib_ch (s : State) (fk : Nat) (x : Fibre) : (s.putFib fk x).ch = s.ch := rfl
@[simp] theorem State.putFib_cur (s : State) (fk : Nat) (x : Fibre) : (s.putFib fk x).cur = s.cur := rfl
@[simp] theorem State.putFib_ipc (s : State) (fk : Nat) (x : Fibre) : (s.putFib fk x).ipc = s.ipc := rfl
@[simp] theorem State.putFib_bundles (s : State) (fk : Nat) (x : Fibre) : (s.putFib fk x).bundles = s.bundles := rfl
@[simp] theorem State.putFib_mem (s : State) (fk : Nat) (x : Fibre) : (s.putFib fk x).mem = s.mem := rfl
@[simp] theorem State.putFib_ops (s : State) (fk : Nat) (x : Fibre) : (s.putFib fk x).ops = s.ops := rfl
@[simp] theorem State.putFib_cmds (s : State) (fk : Nat) (x : Fibre) : (s.putFib fk x).cmds = s.cmds := rfl
@[simp] theorem State.putFib_eng (s : State) (fk : Nat) (x : Fibre) : (s.putFib fk x).eng = s.eng := rfl
@[simp] theorem State.putFib_blocks (s : State) (fk : Nat) (x : Fibre) : (s.putFib fk x).blocks = s.blocks := rfl
@[simp] theorem State.putFib_launches (s : State) (fk : Nat) (x : Fibre) : (s.putFib fk x).launches = s.launches := rfl
@[simp] theorem State.putFib_hub (s : State) (fk : Nat) (x : Fibre) : (s.putFib fk x).hub = s.hub := rfl
@[simp] theorem State.putFib_host (s : State) (fk : Nat) (x : Fibre) : (s.putFib fk x).host = s.host := rfl

@[simp] theorem State.dropFib_tick (s : State) (fk : Nat) : (s.dropFib fk).tick = s.tick := rfl
@[simp] theorem State.dropFib_turn (s : State) (fk : Nat) : (s.dropFib fk).turn = s.turn := rfl
@[simp] theorem State.dropFib_seq (s : State) (fk : Nat) : (s.dropFib fk).seq = s.seq := rfl
@[simp] theorem State.dropFib_free (s : State) (fk : Nat) : (s.dropFib fk).free = s.free := rfl
@[simp] theorem State.dropFib_agenda (s : State) (fk : Nat) : (s.dropFib fk).agenda = s.agenda := rfl
@[simp] theorem State.dropFib_ch (s : State) (fk : Nat) : (s.dropFib fk).ch = s.ch := rfl
@[simp] theorem State.dropFib_cur (s : State) (fk : Nat) : (s.dropFib fk).cur = s.cur := rfl
@[simp] theorem State.dropFib_ipc (s : State) (fk : Nat) : (s.dropFib fk).ipc = s.ipc := rfl
@[simp] theorem State.dropFib_bundles (s : State) (fk : Nat) : (s.dropFib fk).bundles = s.bundles := rfl
@[simp] theorem State.dropFib_mem (s : State) (fk : Nat) : (s.dropFib fk).mem = s.mem := rfl
@[simp] theorem State.dropFib_ops (s : State) (fk : Nat) : (s.dropFib fk).ops = s.ops := rfl
@[simp] theorem State.dropFib_cmds (s : State) (fk : Nat) : (s.dropFib fk).cmds = s.cmds := rfl
@[simp] theorem State.dropFib_eng (s : State) (fk : Nat) : (s.dropFib fk).eng = s.eng := rfl
@[simp] theorem State.dropFib_blocks (s : State) (fk : Nat) : (s.dropFib fk).blocks = s.blocks := rfl
@[simp] theorem State.dropFib_launches (s : State) (fk : Nat) : (s.dropFib fk).launches = s.launches := rfl
@[simp] theorem State.dropFib_hub (s : State) (fk : Nat) : (s.dropFib fk).hub = s.hub := rfl
@[simp] theorem State.dropFib_host (s : State) (fk : Nat) : (s.dropFib fk).host = s.host := rfl

@[simp] theorem State.updBlock_tick (s : State) (bk : Nat) (f : Block → Block) : (s.updBlock bk f).tick = s.tick := rfl
@[simp] theorem State.updBlock_turn (s : State) (bk : Nat) (f : Block → Block) : (s.updBlock bk f).turn = s.turn := rfl
@[simp] theorem State.updBlock_seq (s : State) (bk : Nat) (f : Block → Block) : (s.updBlock bk f).seq = s.seq := rfl
@[simp] theorem State.updBlock_free (s : State) (bk : Nat) (f : Block → Block) : (s.updBlock bk f).free = s.free := rfl
@[simp] theorem State.updBlock_agenda (s : State) (bk : Nat) (f : Block → Block) : (s.updBlock bk f).agenda = s.agenda := rfl
@[simp] theorem State.updBlock_ch (s : State) (bk : Nat) (f : Block → Block) : (s.updBlock bk f).ch = s.ch := rfl
@[simp] theorem State.updBlock_cur (s : State) (bk : Nat) (f : Block → Block) : (s.updBlock bk f).cur = s.cur := rfl
@[simp] theorem State.updBlock_ipc (s : State) (bk : Nat) (f : Block → Block) : (s.updBlock bk f).ipc = s.ipc := rfl
@[simp] theorem State.updBlock_bundles (s : State) (bk : Nat) (f : Block → Block) : (s.updBlock bk f).bundles = s.bundles := rfl
@[simp] theorem State.updBlock_mem (s : State) (bk : Nat) (f : Block → Block) : (s.updBlock bk f).mem = s.mem := rfl
@[simp] theorem State.updBlock_rs (s : State) (bk : Nat) (f : Block → Block) : (s.updBlock bk f).rs = s.rs := rfl
@[simp] theorem State.updBlock_ops (s : State) (bk : Nat) (f : Block → Block) : (s.updBlock bk f).ops = s.ops := rfl
@[simp] theorem State.updBlock_cmds (s : State) (bk : Nat) (f : Block → Block) : (s.updBlock bk f).cmds = s.cmds := rfl
@[simp] theorem State.updBlock_eng (s : State) (bk : Nat) (f : Block → Block) : (s.updBlock bk f).eng = s.eng := rfl
@[simp] theorem State.updBlock_launches (s : State) (bk : Nat) (f : Block → Block) : (s.updBlock bk f).launches = s.launches := rfl
@[simp] theorem State.updBlock_hub (s : State) (bk : Nat) (f : Block → Block) : (s.updBlock bk f).hub = s.hub := rfl
@[simp] theorem State.updBlock_host (s : State) (bk : Nat) (f : Block → Block) : (s.updBlock bk f).host = s.host := rfl

@[simp] theorem State.updGroup_tick (s : State) (bk g : Nat) (f : Group → Group) : (s.updGroup bk g f).tick = s.tick := rfl
@[simp] theorem State.updGroup_turn (s : State) (bk g : Nat) (f : Group → Group) : (s.updGroup bk g f).turn = s.turn := rfl
@[simp] theorem State.updGroup_seq (s : State) (bk g : Nat) (f : Group → Group) : (s.updGroup bk g f).seq = s.seq := rfl
@[simp] theorem State.updGroup_free (s : State) (bk g : Nat) (f : Group → Group) : (s.updGroup bk g f).free = s.free := rfl
@[simp] theorem State.updGroup_agenda (s : State) (bk g : Nat) (f : Group → Group) : (s.updGroup bk g f).agenda = s.agenda := rfl
@[simp] theorem State.updGroup_ch (s : State) (bk g : Nat) (f : Group → Group) : (s.updGroup bk g f).ch = s.ch := rfl
@[simp] theorem State.updGroup_cur (s : State) (bk g : Nat) (f : Group → Group) : (s.updGroup bk g f).cur = s.cur := rfl
@[simp] theorem State.updGroup_ipc (s : State) (bk g : Nat) (f : Group → Group) : (s.updGroup bk g f).ipc = s.ipc := rfl
@[simp] theorem State.updGroup_bundles (s : State) (bk g : Nat) (f : Group → Group) : (s.updGroup bk g f).bundles = s.bundles := rfl
@[simp] theorem State.updGroup_mem (s : State) (bk g : Nat) (f : Group → Group) : (s.updGroup bk g f).mem = s.mem := rfl
@[simp] theorem State.updGroup_rs (s : State) (bk g : Nat) (f : Group → Group) : (s.updGroup bk g f).rs = s.rs := rfl
@[simp] theorem State.updGroup_ops (s : State) (bk g : Nat) (f : Group → Group) : (s.updGroup bk g f).ops = s.ops := rfl
@[simp] theorem State.updGroup_cmds (s : State) (bk g : Nat) (f : Group → Group) : (s.updGroup bk g f).cmds = s.cmds := rfl
@[simp] theorem State.updGroup_eng (s : State) (bk g : Nat) (f : Group → Group) : (s.updGroup bk g f).eng = s.eng := rfl
@[simp] theorem State.updGroup_launches (s : State) (bk g : Nat) (f : Group → Group) : (s.updGroup bk g f).launches = s.launches := rfl
@[simp] theorem State.updGroup_hub (s : State) (bk g : Nat) (f : Group → Group) : (s.updGroup bk g f).hub = s.hub := rfl
@[simp] theorem State.updGroup_host (s : State) (bk g : Nat) (f : Group → Group) : (s.updGroup bk g f).host = s.host := rfl

@[simp] theorem State.updLaunch_tick (s : State) (lid : Nat) (f : Launch → Launch) : (s.updLaunch lid f).tick = s.tick := rfl
@[simp] theorem State.updLaunch_turn (s : State) (lid : Nat) (f : Launch → Launch) : (s.updLaunch lid f).turn = s.turn := rfl
@[simp] theorem State.updLaunch_seq (s : State) (lid : Nat) (f : Launch → Launch) : (s.updLaunch lid f).seq = s.seq := rfl
@[simp] theorem State.updLaunch_free (s : State) (lid : Nat) (f : Launch → Launch) : (s.updLaunch lid f).free = s.free := rfl
@[simp] theorem State.updLaunch_agenda (s : State) (lid : Nat) (f : Launch → Launch) : (s.updLaunch lid f).agenda = s.agenda := rfl
@[simp] theorem State.updLaunch_ch (s : State) (lid : Nat) (f : Launch → Launch) : (s.updLaunch lid f).ch = s.ch := rfl
@[simp] theorem State.updLaunch_cur (s : State) (lid : Nat) (f : Launch → Launch) : (s.updLaunch lid f).cur = s.cur := rfl
@[simp] theorem State.updLaunch_ipc (s : State) (lid : Nat) (f : Launch → Launch) : (s.updLaunch lid f).ipc = s.ipc := rfl
@[simp] theorem State.updLaunch_bundles (s : State) (lid : Nat) (f : Launch → Launch) : (s.updLaunch lid f).bundles = s.bundles := rfl
@[simp] theorem State.updLaunch_mem (s : State) (lid : Nat) (f : Launch → Launch) : (s.updLaunch lid f).mem = s.mem := rfl
@[simp] theorem State.updLaunch_rs (s : State) (lid : Nat) (f : Launch → Launch) : (s.updLaunch lid f).rs = s.rs := rfl
@[simp] theorem State.updLaunch_ops (s : State) (lid : Nat) (f : Launch → Launch) : (s.updLaunch lid f).ops = s.ops := rfl
@[simp] theorem State.updLaunch_cmds (s : State) (lid : Nat) (f : Launch → Launch) : (s.updLaunch lid f).cmds = s.cmds := rfl
@[simp] theorem State.updLaunch_eng (s : State) (lid : Nat) (f : Launch → Launch) : (s.updLaunch lid f).eng = s.eng := rfl
@[simp] theorem State.updLaunch_blocks (s : State) (lid : Nat) (f : Launch → Launch) : (s.updLaunch lid f).blocks = s.blocks := rfl
@[simp] theorem State.updLaunch_hub (s : State) (lid : Nat) (f : Launch → Launch) : (s.updLaunch lid f).hub = s.hub := rfl
@[simp] theorem State.updLaunch_host (s : State) (lid : Nat) (f : Launch → Launch) : (s.updLaunch lid f).host = s.host := rfl

@[simp] theorem State.updCtx_tick (s : State) (c : Nat) (f : Ctx → Ctx) : (s.updCtx c f).tick = s.tick := rfl
@[simp] theorem State.updCtx_turn (s : State) (c : Nat) (f : Ctx → Ctx) : (s.updCtx c f).turn = s.turn := rfl
@[simp] theorem State.updCtx_seq (s : State) (c : Nat) (f : Ctx → Ctx) : (s.updCtx c f).seq = s.seq := rfl
@[simp] theorem State.updCtx_free (s : State) (c : Nat) (f : Ctx → Ctx) : (s.updCtx c f).free = s.free := rfl
@[simp] theorem State.updCtx_agenda (s : State) (c : Nat) (f : Ctx → Ctx) : (s.updCtx c f).agenda = s.agenda := rfl
@[simp] theorem State.updCtx_ch (s : State) (c : Nat) (f : Ctx → Ctx) : (s.updCtx c f).ch = s.ch := rfl
@[simp] theorem State.updCtx_cur (s : State) (c : Nat) (f : Ctx → Ctx) : (s.updCtx c f).cur = s.cur := rfl
@[simp] theorem State.updCtx_ipc (s : State) (c : Nat) (f : Ctx → Ctx) : (s.updCtx c f).ipc = s.ipc := rfl
@[simp] theorem State.updCtx_bundles (s : State) (c : Nat) (f : Ctx → Ctx) : (s.updCtx c f).bundles = s.bundles := rfl
@[simp] theorem State.updCtx_mem (s : State) (c : Nat) (f : Ctx → Ctx) : (s.updCtx c f).mem = s.mem := rfl
@[simp] theorem State.updCtx_rs (s : State) (c : Nat) (f : Ctx → Ctx) : (s.updCtx c f).rs = s.rs := rfl
@[simp] theorem State.updCtx_ops (s : State) (c : Nat) (f : Ctx → Ctx) : (s.updCtx c f).ops = s.ops := rfl
@[simp] theorem State.updCtx_cmds (s : State) (c : Nat) (f : Ctx → Ctx) : (s.updCtx c f).cmds = s.cmds := rfl
@[simp] theorem State.updCtx_eng (s : State) (c : Nat) (f : Ctx → Ctx) : (s.updCtx c f).eng = s.eng := rfl
@[simp] theorem State.updCtx_blocks (s : State) (c : Nat) (f : Ctx → Ctx) : (s.updCtx c f).blocks = s.blocks := rfl
@[simp] theorem State.updCtx_launches (s : State) (c : Nat) (f : Ctx → Ctx) : (s.updCtx c f).launches = s.launches := rfl
@[simp] theorem State.updCtx_hub (s : State) (c : Nat) (f : Ctx → Ctx) : (s.updCtx c f).hub = s.hub := rfl

@[simp] theorem State.updOp_tick (s : State) (id : Nat) (f : Op → Op) : (s.updOp id f).tick = s.tick := rfl
@[simp] theorem State.updOp_turn (s : State) (id : Nat) (f : Op → Op) : (s.updOp id f).turn = s.turn := rfl
@[simp] theorem State.updOp_seq (s : State) (id : Nat) (f : Op → Op) : (s.updOp id f).seq = s.seq := rfl
@[simp] theorem State.updOp_free (s : State) (id : Nat) (f : Op → Op) : (s.updOp id f).free = s.free := rfl
@[simp] theorem State.updOp_agenda (s : State) (id : Nat) (f : Op → Op) : (s.updOp id f).agenda = s.agenda := rfl
@[simp] theorem State.updOp_ch (s : State) (id : Nat) (f : Op → Op) : (s.updOp id f).ch = s.ch := rfl
@[simp] theorem State.updOp_cur (s : State) (id : Nat) (f : Op → Op) : (s.updOp id f).cur = s.cur := rfl
@[simp] theorem State.updOp_ipc (s : State) (id : Nat) (f : Op → Op) : (s.updOp id f).ipc = s.ipc := rfl
@[simp] theorem State.updOp_bundles (s : State) (id : Nat) (f : Op → Op) : (s.updOp id f).bundles = s.bundles := rfl
@[simp] theorem State.updOp_mem (s : State) (id : Nat) (f : Op → Op) : (s.updOp id f).mem = s.mem := rfl
@[simp] theorem State.updOp_rs (s : State) (id : Nat) (f : Op → Op) : (s.updOp id f).rs = s.rs := rfl
@[simp] theorem State.updOp_cmds (s : State) (id : Nat) (f : Op → Op) : (s.updOp id f).cmds = s.cmds := rfl
@[simp] theorem State.updOp_eng (s : State) (id : Nat) (f : Op → Op) : (s.updOp id f).eng = s.eng := rfl
@[simp] theorem State.updOp_blocks (s : State) (id : Nat) (f : Op → Op) : (s.updOp id f).blocks = s.blocks := rfl
@[simp] theorem State.updOp_launches (s : State) (id : Nat) (f : Op → Op) : (s.updOp id f).launches = s.launches := rfl
@[simp] theorem State.updOp_hub (s : State) (id : Nat) (f : Op → Op) : (s.updOp id f).hub = s.hub := rfl
@[simp] theorem State.updOp_host (s : State) (id : Nat) (f : Op → Op) : (s.updOp id f).host = s.host := rfl

@[simp] theorem State.updCmd_tick (s : State) (id : Nat) (f : Cmd → Cmd) : (s.updCmd id f).tick = s.tick := rfl
@[simp] theorem State.updCmd_turn (s : State) (id : Nat) (f : Cmd → Cmd) : (s.updCmd id f).turn = s.turn := rfl
@[simp] theorem State.updCmd_seq (s : State) (id : Nat) (f : Cmd → Cmd) : (s.updCmd id f).seq = s.seq := rfl
@[simp] theorem State.updCmd_free (s : State) (id : Nat) (f : Cmd → Cmd) : (s.updCmd id f).free = s.free := rfl
@[simp] theorem State.updCmd_agenda (s : State) (id : Nat) (f : Cmd → Cmd) : (s.updCmd id f).agenda = s.agenda := rfl
@[simp] theorem State.updCmd_ch (s : State) (id : Nat) (f : Cmd → Cmd) : (s.updCmd id f).ch = s.ch := rfl
@[simp] theorem State.updCmd_cur (s : State) (id : Nat) (f : Cmd → Cmd) : (s.updCmd id f).cur = s.cur := rfl
@[simp] theorem State.updCmd_ipc (s : State) (id : Nat) (f : Cmd → Cmd) : (s.updCmd id f).ipc = s.ipc := rfl
@[simp] theorem State.updCmd_bundles (s : State) (id : Nat) (f : Cmd → Cmd) : (s.updCmd id f).bundles = s.bundles := rfl
@[simp] theorem State.updCmd_mem (s : State) (id : Nat) (f : Cmd → Cmd) : (s.updCmd id f).mem = s.mem := rfl
@[simp] theorem State.updCmd_rs (s : State) (id : Nat) (f : Cmd → Cmd) : (s.updCmd id f).rs = s.rs := rfl
@[simp] theorem State.updCmd_ops (s : State) (id : Nat) (f : Cmd → Cmd) : (s.updCmd id f).ops = s.ops := rfl
@[simp] theorem State.updCmd_eng (s : State) (id : Nat) (f : Cmd → Cmd) : (s.updCmd id f).eng = s.eng := rfl
@[simp] theorem State.updCmd_blocks (s : State) (id : Nat) (f : Cmd → Cmd) : (s.updCmd id f).blocks = s.blocks := rfl
@[simp] theorem State.updCmd_launches (s : State) (id : Nat) (f : Cmd → Cmd) : (s.updCmd id f).launches = s.launches := rfl
@[simp] theorem State.updCmd_hub (s : State) (id : Nat) (f : Cmd → Cmd) : (s.updCmd id f).hub = s.hub := rfl
@[simp] theorem State.updCmd_host (s : State) (id : Nat) (f : Cmd → Cmd) : (s.updCmd id f).host = s.host := rfl

@[simp] theorem State.updBundle_tick (s : State) (k : Nat) (f : Bundle → Bundle) : (s.updBundle k f).tick = s.tick := rfl
@[simp] theorem State.updBundle_turn (s : State) (k : Nat) (f : Bundle → Bundle) : (s.updBundle k f).turn = s.turn := rfl
@[simp] theorem State.updBundle_seq (s : State) (k : Nat) (f : Bundle → Bundle) : (s.updBundle k f).seq = s.seq := rfl
@[simp] theorem State.updBundle_free (s : State) (k : Nat) (f : Bundle → Bundle) : (s.updBundle k f).free = s.free := rfl
@[simp] theorem State.updBundle_agenda (s : State) (k : Nat) (f : Bundle → Bundle) : (s.updBundle k f).agenda = s.agenda := rfl
@[simp] theorem State.updBundle_ch (s : State) (k : Nat) (f : Bundle → Bundle) : (s.updBundle k f).ch = s.ch := rfl
@[simp] theorem State.updBundle_cur (s : State) (k : Nat) (f : Bundle → Bundle) : (s.updBundle k f).cur = s.cur := rfl
@[simp] theorem State.updBundle_ipc (s : State) (k : Nat) (f : Bundle → Bundle) : (s.updBundle k f).ipc = s.ipc := rfl
@[simp] theorem State.updBundle_mem (s : State) (k : Nat) (f : Bundle → Bundle) : (s.updBundle k f).mem = s.mem := rfl
@[simp] theorem State.updBundle_rs (s : State) (k : Nat) (f : Bundle → Bundle) : (s.updBundle k f).rs = s.rs := rfl
@[simp] theorem State.updBundle_ops (s : State) (k : Nat) (f : Bundle → Bundle) : (s.updBundle k f).ops = s.ops := rfl
@[simp] theorem State.updBundle_cmds (s : State) (k : Nat) (f : Bundle → Bundle) : (s.updBundle k f).cmds = s.cmds := rfl
@[simp] theorem State.updBundle_eng (s : State) (k : Nat) (f : Bundle → Bundle) : (s.updBundle k f).eng = s.eng := rfl
@[simp] theorem State.updBundle_blocks (s : State) (k : Nat) (f : Bundle → Bundle) : (s.updBundle k f).blocks = s.blocks := rfl
@[simp] theorem State.updBundle_launches (s : State) (k : Nat) (f : Bundle → Bundle) : (s.updBundle k f).launches = s.launches := rfl
@[simp] theorem State.updBundle_hub (s : State) (k : Nat) (f : Bundle → Bundle) : (s.updBundle k f).hub = s.hub := rfl
@[simp] theorem State.updBundle_host (s : State) (k : Nat) (f : Bundle → Bundle) : (s.updBundle k f).host = s.host := rfl

@[simp] theorem State.addLane_tick (s : State) (id : Nat) (x : Lane) : (s.addLane id x).tick = s.tick := rfl
@[simp] theorem State.addLane_turn (s : State) (id : Nat) (x : Lane) : (s.addLane id x).turn = s.turn := rfl
@[simp] theorem State.addLane_seq (s : State) (id : Nat) (x : Lane) : (s.addLane id x).seq = s.seq := rfl
@[simp] theorem State.addLane_free (s : State) (id : Nat) (x : Lane) : (s.addLane id x).free = s.free := rfl
@[simp] theorem State.addLane_agenda (s : State) (id : Nat) (x : Lane) : (s.addLane id x).agenda = s.agenda := rfl
@[simp] theorem State.addLane_ch (s : State) (id : Nat) (x : Lane) : (s.addLane id x).ch = s.ch := rfl
@[simp] theorem State.addLane_cur (s : State) (id : Nat) (x : Lane) : (s.addLane id x).cur = s.cur := rfl
@[simp] theorem State.addLane_ipc (s : State) (id : Nat) (x : Lane) : (s.addLane id x).ipc = s.ipc := rfl
@[simp] theorem State.addLane_bundles (s : State) (id : Nat) (x : Lane) : (s.addLane id x).bundles = s.bundles := rfl
@[simp] theorem State.addLane_mem (s : State) (id : Nat) (x : Lane) : (s.addLane id x).mem = s.mem := rfl
@[simp] theorem State.addLane_rs (s : State) (id : Nat) (x : Lane) : (s.addLane id x).rs = s.rs := rfl
@[simp] theorem State.addLane_cmds (s : State) (id : Nat) (x : Lane) : (s.addLane id x).cmds = s.cmds := rfl
@[simp] theorem State.addLane_eng (s : State) (id : Nat) (x : Lane) : (s.addLane id x).eng = s.eng := rfl
@[simp] theorem State.addLane_blocks (s : State) (id : Nat) (x : Lane) : (s.addLane id x).blocks = s.blocks := rfl
@[simp] theorem State.addLane_launches (s : State) (id : Nat) (x : Lane) : (s.addLane id x).launches = s.launches := rfl
@[simp] theorem State.addLane_hub (s : State) (id : Nat) (x : Lane) : (s.addLane id x).hub = s.hub := rfl
@[simp] theorem State.addLane_host (s : State) (id : Nat) (x : Lane) : (s.addLane id x).host = s.host := rfl

@[simp] theorem State.stage_tick (s : State) (x : Stg) : (s.stage x).tick = s.tick := rfl
@[simp] theorem State.stage_turn (s : State) (x : Stg) : (s.stage x).turn = s.turn := rfl
@[simp] theorem State.stage_seq (s : State) (x : Stg) : (s.stage x).seq = s.seq := rfl
@[simp] theorem State.stage_free (s : State) (x : Stg) : (s.stage x).free = s.free := rfl
@[simp] theorem State.stage_agenda (s : State) (x : Stg) : (s.stage x).agenda = s.agenda := rfl
@[simp] theorem State.stage_ch (s : State) (x : Stg) : (s.stage x).ch = s.ch := rfl
@[simp] theorem State.stage_cur (s : State) (x : Stg) : (s.stage x).cur = s.cur := rfl
@[simp] theorem State.stage_ipc (s : State) (x : Stg) : (s.stage x).ipc = s.ipc := rfl
@[simp] theorem State.stage_bundles (s : State) (x : Stg) : (s.stage x).bundles = s.bundles := rfl
@[simp] theorem State.stage_rs (s : State) (x : Stg) : (s.stage x).rs = s.rs := rfl
@[simp] theorem State.stage_ops (s : State) (x : Stg) : (s.stage x).ops = s.ops := rfl
@[simp] theorem State.stage_cmds (s : State) (x : Stg) : (s.stage x).cmds = s.cmds := rfl
@[simp] theorem State.stage_eng (s : State) (x : Stg) : (s.stage x).eng = s.eng := rfl
@[simp] theorem State.stage_blocks (s : State) (x : Stg) : (s.stage x).blocks = s.blocks := rfl
@[simp] theorem State.stage_launches (s : State) (x : Stg) : (s.stage x).launches = s.launches := rfl
@[simp] theorem State.stage_hub (s : State) (x : Stg) : (s.stage x).hub = s.hub := rfl
@[simp] theorem State.stage_host (s : State) (x : Stg) : (s.stage x).host = s.host := rfl

@[simp] theorem State.request_tick (s : State) (c p : Nat) : (s.request c p).tick = s.tick := rfl
@[simp] theorem State.request_turn (s : State) (c p : Nat) : (s.request c p).turn = s.turn := rfl
@[simp] theorem State.request_seq (s : State) (c p : Nat) : (s.request c p).seq = s.seq := rfl
@[simp] theorem State.request_free (s : State) (c p : Nat) : (s.request c p).free = s.free := rfl
@[simp] theorem State.request_agenda (s : State) (c p : Nat) : (s.request c p).agenda = s.agenda := rfl
@[simp] theorem State.request_ch (s : State) (c p : Nat) : (s.request c p).ch = s.ch := rfl
@[simp] theorem State.request_cur (s : State) (c p : Nat) : (s.request c p).cur = s.cur := rfl
@[simp] theorem State.request_ipc (s : State) (c p : Nat) : (s.request c p).ipc = s.ipc := rfl
@[simp] theorem State.request_bundles (s : State) (c p : Nat) : (s.request c p).bundles = s.bundles := rfl
@[simp] theorem State.request_rs (s : State) (c p : Nat) : (s.request c p).rs = s.rs := rfl
@[simp] theorem State.request_ops (s : State) (c p : Nat) : (s.request c p).ops = s.ops := rfl
@[simp] theorem State.request_cmds (s : State) (c p : Nat) : (s.request c p).cmds = s.cmds := rfl
@[simp] theorem State.request_eng (s : State) (c p : Nat) : (s.request c p).eng = s.eng := rfl
@[simp] theorem State.request_blocks (s : State) (c p : Nat) : (s.request c p).blocks = s.blocks := rfl
@[simp] theorem State.request_launches (s : State) (c p : Nat) : (s.request c p).launches = s.launches := rfl
@[simp] theorem State.request_hub (s : State) (c p : Nat) : (s.request c p).hub = s.hub := rfl
@[simp] theorem State.request_host (s : State) (c p : Nat) : (s.request c p).host = s.host := rfl

@[simp] theorem State.takeSlot_tick (s : State) (core slot bk : Nat) : (s.takeSlot core slot bk).tick = s.tick := rfl
@[simp] theorem State.takeSlot_turn (s : State) (core slot bk : Nat) : (s.takeSlot core slot bk).turn = s.turn := rfl
@[simp] theorem State.takeSlot_seq (s : State) (core slot bk : Nat) : (s.takeSlot core slot bk).seq = s.seq := rfl
@[simp] theorem State.takeSlot_free (s : State) (core slot bk : Nat) : (s.takeSlot core slot bk).free = s.free := rfl
@[simp] theorem State.takeSlot_agenda (s : State) (core slot bk : Nat) : (s.takeSlot core slot bk).agenda = s.agenda := rfl
@[simp] theorem State.takeSlot_ch (s : State) (core slot bk : Nat) : (s.takeSlot core slot bk).ch = s.ch := rfl
@[simp] theorem State.takeSlot_cur (s : State) (core slot bk : Nat) : (s.takeSlot core slot bk).cur = s.cur := rfl
@[simp] theorem State.takeSlot_ipc (s : State) (core slot bk : Nat) : (s.takeSlot core slot bk).ipc = s.ipc := rfl
@[simp] theorem State.takeSlot_bundles (s : State) (core slot bk : Nat) : (s.takeSlot core slot bk).bundles = s.bundles := rfl
@[simp] theorem State.takeSlot_mem (s : State) (core slot bk : Nat) : (s.takeSlot core slot bk).mem = s.mem := rfl
@[simp] theorem State.takeSlot_rs (s : State) (core slot bk : Nat) : (s.takeSlot core slot bk).rs = s.rs := rfl
@[simp] theorem State.takeSlot_ops (s : State) (core slot bk : Nat) : (s.takeSlot core slot bk).ops = s.ops := rfl
@[simp] theorem State.takeSlot_cmds (s : State) (core slot bk : Nat) : (s.takeSlot core slot bk).cmds = s.cmds := rfl
@[simp] theorem State.takeSlot_blocks (s : State) (core slot bk : Nat) : (s.takeSlot core slot bk).blocks = s.blocks := rfl
@[simp] theorem State.takeSlot_launches (s : State) (core slot bk : Nat) : (s.takeSlot core slot bk).launches = s.launches := rfl
@[simp] theorem State.takeSlot_hub (s : State) (core slot bk : Nat) : (s.takeSlot core slot bk).hub = s.hub := rfl
@[simp] theorem State.takeSlot_host (s : State) (core slot bk : Nat) : (s.takeSlot core slot bk).host = s.host := rfl

@[simp] theorem State.setPermit_tick (s : State) (core ring stage : Nat) (p : Option (Nat × Nat)) : (s.setPermit core ring stage p).tick = s.tick := rfl
@[simp] theorem State.setPermit_turn (s : State) (core ring stage : Nat) (p : Option (Nat × Nat)) : (s.setPermit core ring stage p).turn = s.turn := rfl
@[simp] theorem State.setPermit_seq (s : State) (core ring stage : Nat) (p : Option (Nat × Nat)) : (s.setPermit core ring stage p).seq = s.seq := rfl
@[simp] theorem State.setPermit_free (s : State) (core ring stage : Nat) (p : Option (Nat × Nat)) : (s.setPermit core ring stage p).free = s.free := rfl
@[simp] theorem State.setPermit_agenda (s : State) (core ring stage : Nat) (p : Option (Nat × Nat)) : (s.setPermit core ring stage p).agenda = s.agenda := rfl
@[simp] theorem State.setPermit_ch (s : State) (core ring stage : Nat) (p : Option (Nat × Nat)) : (s.setPermit core ring stage p).ch = s.ch := rfl
@[simp] theorem State.setPermit_cur (s : State) (core ring stage : Nat) (p : Option (Nat × Nat)) : (s.setPermit core ring stage p).cur = s.cur := rfl
@[simp] theorem State.setPermit_ipc (s : State) (core ring stage : Nat) (p : Option (Nat × Nat)) : (s.setPermit core ring stage p).ipc = s.ipc := rfl
@[simp] theorem State.setPermit_bundles (s : State) (core ring stage : Nat) (p : Option (Nat × Nat)) : (s.setPermit core ring stage p).bundles = s.bundles := rfl
@[simp] theorem State.setPermit_mem (s : State) (core ring stage : Nat) (p : Option (Nat × Nat)) : (s.setPermit core ring stage p).mem = s.mem := rfl
@[simp] theorem State.setPermit_rs (s : State) (core ring stage : Nat) (p : Option (Nat × Nat)) : (s.setPermit core ring stage p).rs = s.rs := rfl
@[simp] theorem State.setPermit_ops (s : State) (core ring stage : Nat) (p : Option (Nat × Nat)) : (s.setPermit core ring stage p).ops = s.ops := rfl
@[simp] theorem State.setPermit_cmds (s : State) (core ring stage : Nat) (p : Option (Nat × Nat)) : (s.setPermit core ring stage p).cmds = s.cmds := rfl
@[simp] theorem State.setPermit_blocks (s : State) (core ring stage : Nat) (p : Option (Nat × Nat)) : (s.setPermit core ring stage p).blocks = s.blocks := rfl
@[simp] theorem State.setPermit_launches (s : State) (core ring stage : Nat) (p : Option (Nat × Nat)) : (s.setPermit core ring stage p).launches = s.launches := rfl
@[simp] theorem State.setPermit_hub (s : State) (core ring stage : Nat) (p : Option (Nat × Nat)) : (s.setPermit core ring stage p).hub = s.hub := rfl
@[simp] theorem State.setPermit_host (s : State) (core ring stage : Nat) (p : Option (Nat × Nat)) : (s.setPermit core ring stage p).host = s.host := rfl

@[simp] theorem State.sweep_tick (s : State) : (s.sweep).tick = s.tick := rfl
@[simp] theorem State.sweep_turn (s : State) : (s.sweep).turn = s.turn := rfl
@[simp] theorem State.sweep_seq (s : State) : (s.sweep).seq = s.seq := rfl
@[simp] theorem State.sweep_free (s : State) : (s.sweep).free = s.free := rfl
@[simp] theorem State.sweep_agenda (s : State) : (s.sweep).agenda = s.agenda := rfl
@[simp] theorem State.sweep_ch (s : State) : (s.sweep).ch = s.ch := rfl
@[simp] theorem State.sweep_cur (s : State) : (s.sweep).cur = s.cur := rfl
@[simp] theorem State.sweep_ipc (s : State) : (s.sweep).ipc = s.ipc := rfl
@[simp] theorem State.sweep_bundles (s : State) : (s.sweep).bundles = s.bundles := rfl
@[simp] theorem State.sweep_mem (s : State) : (s.sweep).mem = s.mem := rfl
@[simp] theorem State.sweep_rs (s : State) : (s.sweep).rs = s.rs := rfl
@[simp] theorem State.sweep_cmds (s : State) : (s.sweep).cmds = s.cmds := rfl
@[simp] theorem State.sweep_eng (s : State) : (s.sweep).eng = s.eng := rfl
@[simp] theorem State.sweep_blocks (s : State) : (s.sweep).blocks = s.blocks := rfl
@[simp] theorem State.sweep_launches (s : State) : (s.sweep).launches = s.launches := rfl
@[simp] theorem State.sweep_hub (s : State) : (s.sweep).hub = s.hub := rfl
@[simp] theorem State.sweep_host (s : State) : (s.sweep).host = s.host := rfl

@[simp] theorem State.settleAll_tick (s : State) : (s.settleAll).tick = s.tick := rfl
@[simp] theorem State.settleAll_turn (s : State) : (s.settleAll).turn = s.turn := rfl
@[simp] theorem State.settleAll_seq (s : State) : (s.settleAll).seq = s.seq := rfl
@[simp] theorem State.settleAll_free (s : State) : (s.settleAll).free = s.free := rfl
@[simp] theorem State.settleAll_agenda (s : State) : (s.settleAll).agenda = s.agenda := rfl
@[simp] theorem State.settleAll_ch (s : State) : (s.settleAll).ch = s.ch := rfl
@[simp] theorem State.settleAll_cur (s : State) : (s.settleAll).cur = s.cur := rfl
@[simp] theorem State.settleAll_ipc (s : State) : (s.settleAll).ipc = s.ipc := rfl
@[simp] theorem State.settleAll_bundles (s : State) : (s.settleAll).bundles = s.bundles := rfl
@[simp] theorem State.settleAll_mem (s : State) : (s.settleAll).mem = s.mem := rfl
@[simp] theorem State.settleAll_rs (s : State) : (s.settleAll).rs = s.rs := rfl
@[simp] theorem State.settleAll_cmds (s : State) : (s.settleAll).cmds = s.cmds := rfl
@[simp] theorem State.settleAll_eng (s : State) : (s.settleAll).eng = s.eng := rfl
@[simp] theorem State.settleAll_blocks (s : State) : (s.settleAll).blocks = s.blocks := rfl
@[simp] theorem State.settleAll_launches (s : State) : (s.settleAll).launches = s.launches := rfl
@[simp] theorem State.settleAll_hub (s : State) : (s.settleAll).hub = s.hub := rfl
@[simp] theorem State.settleAll_host (s : State) : (s.settleAll).host = s.host := rfl

@[simp] theorem State.noteChange_tick (s : State) (fk : Nat) : (s.noteChange fk).tick = s.tick := rfl
@[simp] theorem State.noteChange_turn (s : State) (fk : Nat) : (s.noteChange fk).turn = s.turn := rfl
@[simp] theorem State.noteChange_seq (s : State) (fk : Nat) : (s.noteChange fk).seq = s.seq := rfl
@[simp] theorem State.noteChange_free (s : State) (fk : Nat) : (s.noteChange fk).free = s.free := rfl
@[simp] theorem State.noteChange_agenda (s : State) (fk : Nat) : (s.noteChange fk).agenda = s.agenda := rfl
@[simp] theorem State.noteChange_ch (s : State) (fk : Nat) : (s.noteChange fk).ch = s.ch := rfl
@[simp] theorem State.noteChange_cur (s : State) (fk : Nat) : (s.noteChange fk).cur = s.cur := rfl
@[simp] theorem State.noteChange_ipc (s : State) (fk : Nat) : (s.noteChange fk).ipc = s.ipc := rfl
@[simp] theorem State.noteChange_mem (s : State) (fk : Nat) : (s.noteChange fk).mem = s.mem := rfl
@[simp] theorem State.noteChange_rs (s : State) (fk : Nat) : (s.noteChange fk).rs = s.rs := rfl
@[simp] theorem State.noteChange_ops (s : State) (fk : Nat) : (s.noteChange fk).ops = s.ops := rfl
@[simp] theorem State.noteChange_cmds (s : State) (fk : Nat) : (s.noteChange fk).cmds = s.cmds := rfl
@[simp] theorem State.noteChange_eng (s : State) (fk : Nat) : (s.noteChange fk).eng = s.eng := rfl
@[simp] theorem State.noteChange_blocks (s : State) (fk : Nat) : (s.noteChange fk).blocks = s.blocks := rfl
@[simp] theorem State.noteChange_launches (s : State) (fk : Nat) : (s.noteChange fk).launches = s.launches := rfl
@[simp] theorem State.noteChange_hub (s : State) (fk : Nat) : (s.noteChange fk).hub = s.hub := rfl
@[simp] theorem State.noteChange_host (s : State) (fk : Nat) : (s.noteChange fk).host = s.host := rfl

@[simp] theorem State.effect_tick (s : State) (bk : Nat) : (s.effect bk).tick = s.tick := rfl
@[simp] theorem State.effect_turn (s : State) (bk : Nat) : (s.effect bk).turn = s.turn := rfl
@[simp] theorem State.effect_seq (s : State) (bk : Nat) : (s.effect bk).seq = s.seq := rfl
@[simp] theorem State.effect_free (s : State) (bk : Nat) : (s.effect bk).free = s.free := rfl
@[simp] theorem State.effect_agenda (s : State) (bk : Nat) : (s.effect bk).agenda = s.agenda := rfl
@[simp] theorem State.effect_ch (s : State) (bk : Nat) : (s.effect bk).ch = s.ch := rfl
@[simp] theorem State.effect_cur (s : State) (bk : Nat) : (s.effect bk).cur = s.cur := rfl
@[simp] theorem State.effect_ipc (s : State) (bk : Nat) : (s.effect bk).ipc = s.ipc := rfl
@[simp] theorem State.effect_bundles (s : State) (bk : Nat) : (s.effect bk).bundles = s.bundles := rfl
@[simp] theorem State.effect_mem (s : State) (bk : Nat) : (s.effect bk).mem = s.mem := rfl
@[simp] theorem State.effect_rs (s : State) (bk : Nat) : (s.effect bk).rs = s.rs := rfl
@[simp] theorem State.effect_ops (s : State) (bk : Nat) : (s.effect bk).ops = s.ops := rfl
@[simp] theorem State.effect_cmds (s : State) (bk : Nat) : (s.effect bk).cmds = s.cmds := rfl
@[simp] theorem State.effect_eng (s : State) (bk : Nat) : (s.effect bk).eng = s.eng := rfl
@[simp] theorem State.effect_launches (s : State) (bk : Nat) : (s.effect bk).launches = s.launches := rfl
@[simp] theorem State.effect_hub (s : State) (bk : Nat) : (s.effect bk).hub = s.hub := rfl
@[simp] theorem State.effect_host (s : State) (bk : Nat) : (s.effect bk).host = s.host := rfl

@[simp] theorem State.updFib_tick (s : State) (fk : Nat) (f : Fibre → Fibre) : (s.updFib fk f).tick = s.tick := by
  unfold State.updFib; split <;> rfl
@[simp] theorem State.updFib_seq (s : State) (fk : Nat) (f : Fibre → Fibre) : (s.updFib fk f).seq = s.seq := by
  unfold State.updFib; split <;> rfl
@[simp] theorem State.updFib_free (s : State) (fk : Nat) (f : Fibre → Fibre) : (s.updFib fk f).free = s.free := by
  unfold State.updFib; split <;> rfl
@[simp] theorem State.updFib_agenda (s : State) (fk : Nat) (f : Fibre → Fibre) : (s.updFib fk f).agenda = s.agenda := by
  unfold State.updFib; split <;> rfl
@[simp] theorem State.updFib_ch (s : State) (fk : Nat) (f : Fibre → Fibre) : (s.updFib fk f).ch = s.ch := by
  unfold State.updFib; split <;> rfl
@[simp] theorem State.updFib_cur (s : State) (fk : Nat) (f : Fibre → Fibre) : (s.updFib fk f).cur = s.cur := by
  unfold State.updFib; split <;> rfl
@[simp] theorem State.updFib_ipc (s : State) (fk : Nat) (f : Fibre → Fibre) : (s.updFib fk f).ipc = s.ipc := by
  unfold State.updFib; split <;> rfl
@[simp] theorem State.updFib_bundles (s : State) (fk : Nat) (f : Fibre → Fibre) : (s.updFib fk f).bundles = s.bundles := by
  unfold State.updFib; split <;> rfl
@[simp] theorem State.updFib_mem (s : State) (fk : Nat) (f : Fibre → Fibre) : (s.updFib fk f).mem = s.mem := by
  unfold State.updFib; split <;> rfl
@[simp] theorem State.updFib_ops (s : State) (fk : Nat) (f : Fibre → Fibre) : (s.updFib fk f).ops = s.ops := by
  unfold State.updFib; split <;> rfl
@[simp] theorem State.updFib_cmds (s : State) (fk : Nat) (f : Fibre → Fibre) : (s.updFib fk f).cmds = s.cmds := by
  unfold State.updFib; split <;> rfl
@[simp] theorem State.updFib_eng (s : State) (fk : Nat) (f : Fibre → Fibre) : (s.updFib fk f).eng = s.eng := by
  unfold State.updFib; split <;> rfl
@[simp] theorem State.updFib_blocks (s : State) (fk : Nat) (f : Fibre → Fibre) : (s.updFib fk f).blocks = s.blocks := by
  unfold State.updFib; split <;> rfl
@[simp] theorem State.updFib_launches (s : State) (fk : Nat) (f : Fibre → Fibre) : (s.updFib fk f).launches = s.launches := by
  unfold State.updFib; split <;> rfl
@[simp] theorem State.updFib_hub (s : State) (fk : Nat) (f : Fibre → Fibre) : (s.updFib fk f).hub = s.hub := by
  unfold State.updFib; split <;> rfl
@[simp] theorem State.updFib_host (s : State) (fk : Nat) (f : Fibre → Fibre) : (s.updFib fk f).host = s.host := by
  unfold State.updFib; split <;> rfl

@[simp] theorem State.setStat_tick (s : State) (fk : Nat) (st : FStat) : (s.setStat fk st).tick = s.tick := State.updFib_tick s fk _
@[simp] theorem State.setStat_seq (s : State) (fk : Nat) (st : FStat) : (s.setStat fk st).seq = s.seq := State.updFib_seq s fk _
@[simp] theorem State.setStat_free (s : State) (fk : Nat) (st : FStat) : (s.setStat fk st).free = s.free := State.updFib_free s fk _
@[simp] theorem State.setStat_agenda (s : State) (fk : Nat) (st : FStat) : (s.setStat fk st).agenda = s.agenda := State.updFib_agenda s fk _
@[simp] theorem State.setStat_ch (s : State) (fk : Nat) (st : FStat) : (s.setStat fk st).ch = s.ch := State.updFib_ch s fk _
@[simp] theorem State.setStat_cur (s : State) (fk : Nat) (st : FStat) : (s.setStat fk st).cur = s.cur := State.updFib_cur s fk _
@[simp] theorem State.setStat_ipc (s : State) (fk : Nat) (st : FStat) : (s.setStat fk st).ipc = s.ipc := State.updFib_ipc s fk _
@[simp] theorem State.setStat_bundles (s : State) (fk : Nat) (st : FStat) : (s.setStat fk st).bundles = s.bundles := State.updFib_bundles s fk _
@[simp] theorem State.setStat_mem (s : State) (fk : Nat) (st : FStat) : (s.setStat fk st).mem = s.mem := State.updFib_mem s fk _
@[simp] theorem State.setStat_ops (s : State) (fk : Nat) (st : FStat) : (s.setStat fk st).ops = s.ops := State.updFib_ops s fk _
@[simp] theorem State.setStat_cmds (s : State) (fk : Nat) (st : FStat) : (s.setStat fk st).cmds = s.cmds := State.updFib_cmds s fk _
@[simp] theorem State.setStat_eng (s : State) (fk : Nat) (st : FStat) : (s.setStat fk st).eng = s.eng := State.updFib_eng s fk _
@[simp] theorem State.setStat_blocks (s : State) (fk : Nat) (st : FStat) : (s.setStat fk st).blocks = s.blocks := State.updFib_blocks s fk _
@[simp] theorem State.setStat_launches (s : State) (fk : Nat) (st : FStat) : (s.setStat fk st).launches = s.launches := State.updFib_launches s fk _
@[simp] theorem State.setStat_hub (s : State) (fk : Nat) (st : FStat) : (s.setStat fk st).hub = s.hub := State.updFib_hub s fk _
@[simp] theorem State.setStat_host (s : State) (fk : Nat) (st : FStat) : (s.setStat fk st).host = s.host := State.updFib_host s fk _

@[simp] theorem State.advance_tick (s : State) (fk : Nat) : (s.advance fk).tick = s.tick := State.updFib_tick s fk _
@[simp] theorem State.advance_seq (s : State) (fk : Nat) : (s.advance fk).seq = s.seq := State.updFib_seq s fk _
@[simp] theorem State.advance_free (s : State) (fk : Nat) : (s.advance fk).free = s.free := State.updFib_free s fk _
@[simp] theorem State.advance_agenda (s : State) (fk : Nat) : (s.advance fk).agenda = s.agenda := State.updFib_agenda s fk _
@[simp] theorem State.advance_ch (s : State) (fk : Nat) : (s.advance fk).ch = s.ch := State.updFib_ch s fk _
@[simp] theorem State.advance_cur (s : State) (fk : Nat) : (s.advance fk).cur = s.cur := State.updFib_cur s fk _
@[simp] theorem State.advance_ipc (s : State) (fk : Nat) : (s.advance fk).ipc = s.ipc := State.updFib_ipc s fk _
@[simp] theorem State.advance_bundles (s : State) (fk : Nat) : (s.advance fk).bundles = s.bundles := State.updFib_bundles s fk _
@[simp] theorem State.advance_mem (s : State) (fk : Nat) : (s.advance fk).mem = s.mem := State.updFib_mem s fk _
@[simp] theorem State.advance_ops (s : State) (fk : Nat) : (s.advance fk).ops = s.ops := State.updFib_ops s fk _
@[simp] theorem State.advance_cmds (s : State) (fk : Nat) : (s.advance fk).cmds = s.cmds := State.updFib_cmds s fk _
@[simp] theorem State.advance_eng (s : State) (fk : Nat) : (s.advance fk).eng = s.eng := State.updFib_eng s fk _
@[simp] theorem State.advance_blocks (s : State) (fk : Nat) : (s.advance fk).blocks = s.blocks := State.updFib_blocks s fk _
@[simp] theorem State.advance_launches (s : State) (fk : Nat) : (s.advance fk).launches = s.launches := State.updFib_launches s fk _
@[simp] theorem State.advance_hub (s : State) (fk : Nat) : (s.advance fk).hub = s.hub := State.updFib_hub s fk _
@[simp] theorem State.advance_host (s : State) (fk : Nat) : (s.advance fk).host = s.host := State.updFib_host s fk _

/-! ### The host's registers and the error records -/

@[simp] theorem State.updHost_tick (s : State) (f : HostSt → HostSt) : (s.updHost f).tick = s.tick := rfl
@[simp] theorem State.updHost_turn (s : State) (f : HostSt → HostSt) : (s.updHost f).turn = s.turn := rfl
@[simp] theorem State.updHost_seq (s : State) (f : HostSt → HostSt) : (s.updHost f).seq = s.seq := rfl
@[simp] theorem State.updHost_free (s : State) (f : HostSt → HostSt) : (s.updHost f).free = s.free := rfl
@[simp] theorem State.updHost_agenda (s : State) (f : HostSt → HostSt) : (s.updHost f).agenda = s.agenda := rfl
@[simp] theorem State.updHost_ch (s : State) (f : HostSt → HostSt) : (s.updHost f).ch = s.ch := rfl
@[simp] theorem State.updHost_cur (s : State) (f : HostSt → HostSt) : (s.updHost f).cur = s.cur := rfl
@[simp] theorem State.updHost_ipc (s : State) (f : HostSt → HostSt) : (s.updHost f).ipc = s.ipc := rfl
@[simp] theorem State.updHost_bundles (s : State) (f : HostSt → HostSt) : (s.updHost f).bundles = s.bundles := rfl
@[simp] theorem State.updHost_mem (s : State) (f : HostSt → HostSt) : (s.updHost f).mem = s.mem := rfl
@[simp] theorem State.updHost_rs (s : State) (f : HostSt → HostSt) : (s.updHost f).rs = s.rs := rfl
@[simp] theorem State.updHost_ops (s : State) (f : HostSt → HostSt) : (s.updHost f).ops = s.ops := rfl
@[simp] theorem State.updHost_cmds (s : State) (f : HostSt → HostSt) : (s.updHost f).cmds = s.cmds := rfl
@[simp] theorem State.updHost_eng (s : State) (f : HostSt → HostSt) : (s.updHost f).eng = s.eng := rfl
@[simp] theorem State.updHost_blocks (s : State) (f : HostSt → HostSt) : (s.updHost f).blocks = s.blocks := rfl
@[simp] theorem State.updHost_launches (s : State) (f : HostSt → HostSt) : (s.updHost f).launches = s.launches := rfl
@[simp] theorem State.updHost_hub (s : State) (f : HostSt → HostSt) : (s.updHost f).hub = s.hub := rfl

@[simp] theorem State.logError_tick (s : State) (unit rank src : Nat) (c : Option Nat) (addr synd : Nat) : (s.logError unit rank src c addr synd).tick = s.tick := rfl
@[simp] theorem State.logError_turn (s : State) (unit rank src : Nat) (c : Option Nat) (addr synd : Nat) : (s.logError unit rank src c addr synd).turn = s.turn := rfl
@[simp] theorem State.logError_seq (s : State) (unit rank src : Nat) (c : Option Nat) (addr synd : Nat) : (s.logError unit rank src c addr synd).seq = s.seq := rfl
@[simp] theorem State.logError_free (s : State) (unit rank src : Nat) (c : Option Nat) (addr synd : Nat) : (s.logError unit rank src c addr synd).free = s.free := rfl
@[simp] theorem State.logError_agenda (s : State) (unit rank src : Nat) (c : Option Nat) (addr synd : Nat) : (s.logError unit rank src c addr synd).agenda = s.agenda := rfl
@[simp] theorem State.logError_ch (s : State) (unit rank src : Nat) (c : Option Nat) (addr synd : Nat) : (s.logError unit rank src c addr synd).ch = s.ch := rfl
@[simp] theorem State.logError_cur (s : State) (unit rank src : Nat) (c : Option Nat) (addr synd : Nat) : (s.logError unit rank src c addr synd).cur = s.cur := rfl
@[simp] theorem State.logError_ipc (s : State) (unit rank src : Nat) (c : Option Nat) (addr synd : Nat) : (s.logError unit rank src c addr synd).ipc = s.ipc := rfl
@[simp] theorem State.logError_bundles (s : State) (unit rank src : Nat) (c : Option Nat) (addr synd : Nat) : (s.logError unit rank src c addr synd).bundles = s.bundles := rfl
@[simp] theorem State.logError_mem (s : State) (unit rank src : Nat) (c : Option Nat) (addr synd : Nat) : (s.logError unit rank src c addr synd).mem = s.mem := rfl
@[simp] theorem State.logError_rs (s : State) (unit rank src : Nat) (c : Option Nat) (addr synd : Nat) : (s.logError unit rank src c addr synd).rs = s.rs := rfl
@[simp] theorem State.logError_ops (s : State) (unit rank src : Nat) (c : Option Nat) (addr synd : Nat) : (s.logError unit rank src c addr synd).ops = s.ops := rfl
@[simp] theorem State.logError_cmds (s : State) (unit rank src : Nat) (c : Option Nat) (addr synd : Nat) : (s.logError unit rank src c addr synd).cmds = s.cmds := rfl
@[simp] theorem State.logError_eng (s : State) (unit rank src : Nat) (c : Option Nat) (addr synd : Nat) : (s.logError unit rank src c addr synd).eng = s.eng := rfl
@[simp] theorem State.logError_blocks (s : State) (unit rank src : Nat) (c : Option Nat) (addr synd : Nat) : (s.logError unit rank src c addr synd).blocks = s.blocks := rfl
@[simp] theorem State.logError_launches (s : State) (unit rank src : Nat) (c : Option Nat) (addr synd : Nat) : (s.logError unit rank src c addr synd).launches = s.launches := rfl
@[simp] theorem State.logError_hub (s : State) (unit rank src : Nat) (c : Option Nat) (addr synd : Nat) : (s.logError unit rank src c addr synd).hub = s.hub := rfl

@[simp] theorem State.hartGets_tick (s : State) (v : Nat) : (s.hartGets v).tick = s.tick := rfl
@[simp] theorem State.hartGets_turn (s : State) (v : Nat) : (s.hartGets v).turn = s.turn := rfl
@[simp] theorem State.hartGets_seq (s : State) (v : Nat) : (s.hartGets v).seq = s.seq := rfl
@[simp] theorem State.hartGets_free (s : State) (v : Nat) : (s.hartGets v).free = s.free := rfl
@[simp] theorem State.hartGets_agenda (s : State) (v : Nat) : (s.hartGets v).agenda = s.agenda := rfl
@[simp] theorem State.hartGets_ch (s : State) (v : Nat) : (s.hartGets v).ch = s.ch := rfl
@[simp] theorem State.hartGets_cur (s : State) (v : Nat) : (s.hartGets v).cur = s.cur := rfl
@[simp] theorem State.hartGets_ipc (s : State) (v : Nat) : (s.hartGets v).ipc = s.ipc := rfl
@[simp] theorem State.hartGets_bundles (s : State) (v : Nat) : (s.hartGets v).bundles = s.bundles := rfl
@[simp] theorem State.hartGets_mem (s : State) (v : Nat) : (s.hartGets v).mem = s.mem := rfl
@[simp] theorem State.hartGets_rs (s : State) (v : Nat) : (s.hartGets v).rs = s.rs := rfl
@[simp] theorem State.hartGets_ops (s : State) (v : Nat) : (s.hartGets v).ops = s.ops := rfl
@[simp] theorem State.hartGets_cmds (s : State) (v : Nat) : (s.hartGets v).cmds = s.cmds := rfl
@[simp] theorem State.hartGets_eng (s : State) (v : Nat) : (s.hartGets v).eng = s.eng := rfl
@[simp] theorem State.hartGets_blocks (s : State) (v : Nat) : (s.hartGets v).blocks = s.blocks := rfl
@[simp] theorem State.hartGets_launches (s : State) (v : Nat) : (s.hartGets v).launches = s.launches := rfl
@[simp] theorem State.hartGets_host (s : State) (v : Nat) : (s.hartGets v).host = s.host := rfl

/-- What a read of DRAM may do beside its answer: one error record. -/
theorem State.sense_cases (s : State) (c : Option Nat) (t : Tgt) :
    s.sense c t = s ∨ ∃ unit addr synd, s.sense c t = s.logError unit 3 6 c addr synd := by
  cases t with
  | mem pa mt =>
    by_cases h : sget 0 s.mem.dbad (pa / 128) = 0 ∨ sget false s.mem.zdir (pa / 128) = true ∨ sget false s.mem.dpoison (pa / 128) = true ∨
        (mt ≠ 2 ∧ (s.mem.tag (pa / 128)).isSome = true)
    · exact .inl (if_pos h)
    · exact .inr ⟨_, _, _, if_neg h⟩
  | _ => exact .inl rfl

@[simp] theorem State.sense_tick (s : State) (c : Option Nat) (t : Tgt) : (s.sense c t).tick = s.tick := by
  obtain h | ⟨_, _, _, h⟩ := s.sense_cases c t <;> simp [h]
@[simp] theorem State.sense_seq (s : State) (c : Option Nat) (t : Tgt) : (s.sense c t).seq = s.seq := by
  obtain h | ⟨_, _, _, h⟩ := s.sense_cases c t <;> simp [h]
@[simp] theorem State.sense_free (s : State) (c : Option Nat) (t : Tgt) : (s.sense c t).free = s.free := by
  obtain h | ⟨_, _, _, h⟩ := s.sense_cases c t <;> simp [h]
@[simp] theorem State.sense_agenda (s : State) (c : Option Nat) (t : Tgt) : (s.sense c t).agenda = s.agenda := by
  obtain h | ⟨_, _, _, h⟩ := s.sense_cases c t <;> simp [h]
@[simp] theorem State.sense_ch (s : State) (c : Option Nat) (t : Tgt) : (s.sense c t).ch = s.ch := by
  obtain h | ⟨_, _, _, h⟩ := s.sense_cases c t <;> simp [h]
@[simp] theorem State.sense_cur (s : State) (c : Option Nat) (t : Tgt) : (s.sense c t).cur = s.cur := by
  obtain h | ⟨_, _, _, h⟩ := s.sense_cases c t <;> simp [h]
@[simp] theorem State.sense_ipc (s : State) (c : Option Nat) (t : Tgt) : (s.sense c t).ipc = s.ipc := by
  obtain h | ⟨_, _, _, h⟩ := s.sense_cases c t <;> simp [h]
@[simp] theorem State.sense_bundles (s : State) (c : Option Nat) (t : Tgt) : (s.sense c t).bundles = s.bundles := by
  obtain h | ⟨_, _, _, h⟩ := s.sense_cases c t <;> simp [h]
@[simp] theorem State.sense_mem (s : State) (c : Option Nat) (t : Tgt) : (s.sense c t).mem = s.mem := by
  obtain h | ⟨_, _, _, h⟩ := s.sense_cases c t <;> simp [h]
@[simp] theorem State.sense_rs (s : State) (c : Option Nat) (t : Tgt) : (s.sense c t).rs = s.rs := by
  obtain h | ⟨_, _, _, h⟩ := s.sense_cases c t <;> simp [h]
@[simp] theorem State.sense_ops (s : State) (c : Option Nat) (t : Tgt) : (s.sense c t).ops = s.ops := by
  obtain h | ⟨_, _, _, h⟩ := s.sense_cases c t <;> simp [h]
@[simp] theorem State.sense_cmds (s : State) (c : Option Nat) (t : Tgt) : (s.sense c t).cmds = s.cmds := by
  obtain h | ⟨_, _, _, h⟩ := s.sense_cases c t <;> simp [h]
@[simp] theorem State.sense_eng (s : State) (c : Option Nat) (t : Tgt) : (s.sense c t).eng = s.eng := by
  obtain h | ⟨_, _, _, h⟩ := s.sense_cases c t <;> simp [h]
@[simp] theorem State.sense_blocks (s : State) (c : Option Nat) (t : Tgt) : (s.sense c t).blocks = s.blocks := by
  obtain h | ⟨_, _, _, h⟩ := s.sense_cases c t <;> simp [h]
@[simp] theorem State.sense_launches (s : State) (c : Option Nat) (t : Tgt) : (s.sense c t).launches = s.launches := by
  obtain h | ⟨_, _, _, h⟩ := s.sense_cases c t <;> simp [h]
@[simp] theorem State.sense_hub (s : State) (c : Option Nat) (t : Tgt) : (s.sense c t).hub = s.hub := by
  obtain h | ⟨_, _, _, h⟩ := s.sense_cases c t <;> simp [h]

/-! ### The register store -/

@[simp] theorem RegSt.putLane_vpoison (rs : RegSt) (rk l v : Nat) : (rs.putLane rk l v).vpoison = rs.vpoison := rfl
@[simp] theorem RegSt.putLane_fe (rs : RegSt) (rk l v : Nat) : (rs.putLane rk l v).fe = rs.fe := rfl
@[simp] theorem RegSt.putLane_uregs (rs : RegSt) (rk l v : Nat) : (rs.putLane rk l v).uregs = rs.uregs := rfl
@[simp] theorem RegSt.putLane_upoison (rs : RegSt) (rk l v : Nat) : (rs.putLane rk l v).upoison = rs.upoison := rfl
@[simp] theorem RegSt.putLane_fibres (rs : RegSt) (rk l v : Nat) : (rs.putLane rk l v).fibres = rs.fibres := rfl

@[simp] theorem RegSt.putPoison_vregs (rs : RegSt) (rk l : Nat) (b : Bool) : (rs.putPoison rk l b).vregs = rs.vregs := rfl
@[simp] theorem RegSt.putPoison_fe (rs : RegSt) (rk l : Nat) (b : Bool) : (rs.putPoison rk l b).fe = rs.fe := rfl
@[simp] theorem RegSt.putPoison_uregs (rs : RegSt) (rk l : Nat) (b : Bool) : (rs.putPoison rk l b).uregs = rs.uregs := rfl
@[simp] theorem RegSt.putPoison_upoison (rs : RegSt) (rk l : Nat) (b : Bool) : (rs.putPoison rk l b).upoison = rs.upoison := rfl
@[simp] theorem RegSt.putPoison_fibres (rs : RegSt) (rk l : Nat) (b : Bool) : (rs.putPoison rk l b).fibres = rs.fibres := rfl

@[simp] theorem RegSt.putFull_vregs (rs : RegSt) (rk j : Nat) (b : Bool) : (rs.putFull rk j b).vregs = rs.vregs := rfl
@[simp] theorem RegSt.putFull_vpoison (rs : RegSt) (rk j : Nat) (b : Bool) : (rs.putFull rk j b).vpoison = rs.vpoison := rfl
@[simp] theorem RegSt.putFull_uregs (rs : RegSt) (rk j : Nat) (b : Bool) : (rs.putFull rk j b).uregs = rs.uregs := rfl
@[simp] theorem RegSt.putFull_upoison (rs : RegSt) (rk j : Nat) (b : Bool) : (rs.putFull rk j b).upoison = rs.upoison := rfl
@[simp] theorem RegSt.putFull_fibres (rs : RegSt) (rk j : Nat) (b : Bool) : (rs.putFull rk j b).fibres = rs.fibres := rfl

@[simp] theorem RegSt.putU_vregs (rs : RegSt) (uk v : Nat) (p : Bool) : (rs.putU uk v p).vregs = rs.vregs := rfl
@[simp] theorem RegSt.putU_vpoison (rs : RegSt) (uk v : Nat) (p : Bool) : (rs.putU uk v p).vpoison = rs.vpoison := rfl
@[simp] theorem RegSt.putU_fe (rs : RegSt) (uk v : Nat) (p : Bool) : (rs.putU uk v p).fe = rs.fe := rfl
@[simp] theorem RegSt.putU_fibres (rs : RegSt) (uk v : Nat) (p : Bool) : (rs.putU uk v p).fibres = rs.fibres := rfl

@[simp] theorem RegSt.clearReg_uregs (rs : RegSt) (rk : Nat) : (rs.clearReg rk).uregs = rs.uregs := rfl
@[simp] theorem RegSt.clearReg_upoison (rs : RegSt) (rk : Nat) : (rs.clearReg rk).upoison = rs.upoison := rfl
@[simp] theorem RegSt.clearReg_fibres (rs : RegSt) (rk : Nat) : (rs.clearReg rk).fibres = rs.fibres := rfl

end Sys2Proof.Machine
end

