-- ==== Sys2Proof/Laws/Units.lean ====
section
/-!
SUPPORT. What one issuing fibre does: the unit it forms, its operands, and the result of a computing instruction.
-/
namespace Sys2Proof.Machine
set_option Elab.async false

/-! ### The unit of one fibre -/

@[simp] theorem units_single (g : Guard) (fk : Nat) : units g [fk] = [only fk] := by
  cases h : g.u <;> simp [units, unitsByGroup, only, h]

theorem Issues.guard {s : State} {g : Guard} {fk : Nat} {f : Fibre} (h : Issues s g fk f) : guardHolds s g fk = true := by
  simp [guardHolds, h.fib, h.holds]

/-- One issuing fibre: it stalls, takes its fault, or does what was planned. -/
theorem runPrep_issues {α : Type} {s : State} {g : Guard} {fk : Nat} {f : Fibre} (h : Issues s g fk f) (plan : State → WUnit → Plan α)
    (prep : List (WUnit × Plan α) → List (WUnit × Plan α)) (apply : State → WUnit → α → State)
    (hp : prep [(only fk, plan s (only fk))] = [(only fk, plan s (only fk))]) (hn : prep [] = []) :
    runPrep s g plan prep apply = match plan s (only fk) with
      | .stall => s
      | .fault c det => s.takeFault (fkBk fk) { code := c.code, pc := s.ipc, det := det, grp := fkG fk, lane := fkL fk }
      | .go a => apply s (only fk) a := by
  have hc : s.curSorted = [fk] := by simp [State.curSorted, h.cur, sortBy]
  unfold runPrep
  simp only [hc, List.filter_cons, h.guard, if_true, List.filter_nil, units_single, List.map_cons, List.map_nil]
  cases hpl : plan s (only fk) with
  | stall => simp [Plan.isStall, hn, sortBy, groupKey, only]
  | fault c det =>
    rw [hpl] at hp
    simp only [only] at hp
    simp [Plan.isStall, hp, sortBy, only]
  | go a =>
    rw [hpl] at hp
    simp only [only] at hp
    simp [Plan.isStall, hp, sortBy, only]

theorem runUnits_issues {α : Type} {s : State} {g : Guard} {fk : Nat} {f : Fibre} (h : Issues s g fk f) (plan : State → WUnit → Plan α)
    (apply : State → WUnit → α → State) :
    runUnits s g plan apply = match plan s (only fk) with
      | .stall => s
      | .fault c det => s.takeFault (fkBk fk) { code := c.code, pc := s.ipc, det := det, grp := fkG fk, lane := fkL fk }
      | .go a => apply s (only fk) a :=
  runPrep_issues h plan id apply rfl rfl

theorem runUnits_go {α : Type} {s : State} {g : Guard} {fk : Nat} {f : Fibre} (h : Issues s g fk f) {plan : State → WUnit → Plan α}
    {apply : State → WUnit → α → State} {a : α} (hp : plan s (only fk) = .go a) :
    runUnits s g plan apply = apply s (only fk) a := by rw [runUnits_issues h, hp]

@[simp] theorem advanceUnit_only (s : State) (fk : Nat) : advanceUnit s (only fk) = s.advance fk := rfl

@[simp] theorem only_bk (fk : Nat) : (only fk).bk = fkBk fk := rfl
@[simp] theorem only_g (fk : Nat) : (only fk).g = fkG fk := rfl
@[simp] theorem only_l (fk : Nat) : (only fk).l = fkL fk := rfl
@[simp] theorem only_rep (fk : Nat) : (only fk).rep = fk := rfl
@[simp] theorem only_mem (fk : Nat) : (only fk).mem = [fk] := rfl

/-! ### Operands -/

/-- What a free operand resolves to. -/
def resOf (s : State) (fk : Nat) (o : Opnd) (ind : Bool) : Res :=
  match o with
  | .v n => .v (regOf s fk n ind)
  | .s n => .s n
  | .sp x => .sp x

theorem checkReg_of_free {s : State} {fk r : Nat} {wide ind : Bool} (h : s.laneFree fk r = true)
    (h2 : (!wide || s.laneFree fk (r + 1)) = true) (h3 : (ind && wide && r % 2 == 1) = false) :
    checkReg (s.allot (fkBk fk) (fkG fk)) r wide ind = .v r := by
  cases wide <;> cases ind <;> simp_all [checkReg, State.laneFree] <;> omega

theorem resolve_of_free {s : State} {fk : Nat} {o : Opnd} {ind wide : Bool} (h : free s fk o ind wide = true) :
    resolve s fk o ind wide = resOf s fk o ind := by
  cases o with
  | s n => rfl
  | sp x => rfl
  | v n =>
    simp only [free, Bool.and_eq_true] at h
    obtain ⟨⟨h1, h2⟩, h3⟩ := h
    cases ind with
    | false => simpa [resolve, resOf, regOf] using checkReg_of_free (ind := false) h2 h3 (by simp)
    | true =>
      simp only [Bool.not_true, Bool.false_or, Bool.and_eq_true, Bool.not_eq_true'] at h1
      obtain ⟨⟨ha, hb⟩, hc⟩ := h1
      simp only [State.laneFree, Bool.and_eq_true, decide_eq_true_eq, Bool.not_eq_true'] at ha
      simp only [State.laneClean, Bool.not_eq_true'] at hb
      have hx : ¬ n ≥ s.allot (fkBk fk) (fkG fk) := by omega
      simp only [resolve, if_true, hx, if_false, ha.2, hb, resOf, regOf]
      simp only [regOf, if_true] at h2 h3 hc
      exact checkReg_of_free (ind := true) h2 h3 (by simpa using hc)

theorem busyRes_of_free {s : State} {fk : Nat} {o : Opnd} {ind wide : Bool} (h : free s fk o ind wide = true) :
    busyRes s fk wide (resOf s fk o ind) = false := by
  cases o with
  | s n => simpa [free, resOf, busyRes] using h
  | sp x => rfl
  | v n =>
    simp only [free, Bool.and_eq_true, State.laneFree] at h
    cases wide <;> simp_all [resOf, busyRes]

theorem firstBad_resOf {s : State} {fk : Nat} {o : Opnd} {ind : Bool} {rs : List Res} :
    firstBad (resOf s fk o ind :: rs) = firstBad rs := by cases o <;> rfl

theorem poisonRes_of_clean {s : State} {fk : Nat} {o : Opnd} {ind wide : Bool} (h : clean s fk o ind wide = true) :
    poisonRes s fk wide (resOf s fk o ind) = none := by
  cases o with
  | s n => simpa [clean, resOf, poisonRes] using h
  | sp x => rfl
  | v n => cases wide <;> simp_all [clean, resOf, poisonRes, State.laneClean]

theorem readRes_resOf (s : State) (fk : Nat) (o : Opnd) (ind wide : Bool) :
    readRes s fk wide (resOf s fk o ind) = value s fk o ind wide := by cases o <;> rfl

/-- Every source can be named, and those that are needed can be read. -/
def srcsReady (s : State) (fk : Nat) (srcs : List Src) (need : List Bool) : Prop :=
  ∀ p ∈ srcs.zip need, free s fk p.1.o p.1.ind p.1.wide = true ∧ (p.2 = true → clean s fk p.1.o p.1.ind p.1.wide = true)

theorem firstBad_srcs {s : State} {fk : Nat} {srcs : List Src} (h : ∀ x ∈ srcs, free s fk x.o x.ind x.wide = true) :
    (srcs.map fun x => resolve s fk x.o x.ind x.wide) = srcs.map (fun x => resOf s fk x.o x.ind) ∧
      firstBad (srcs.map fun x => resOf s fk x.o x.ind) = none := by
  induction srcs with
  | nil => simp [firstBad]
  | cons x xs ih =>
    have hx := h x (by simp)
    have := ih fun y hy => h y (by simp [hy])
    simp only [List.map_cons, resolve_of_free hx, this.1, firstBad_resOf, this.2, and_self]

/-- The plan of a unit whose operands are ready. -/
theorem planOperands_ready {s : State} {fk : Nat} {d : Option Dest} {srcs : List Src} {need : List Bool} {rd : Res}
    (hl : need.length = srcs.length) (hs : srcsReady s fk srcs need)
    (hd : (match d with | some d => d.resolve s fk | none => .sp .lane) = rd) (hrd : firstBad [rd] = none)
    (hb : busyRes s fk (match d with | some d => d.wide | none => false) rd = false) :
    planOperands s (only fk) d srcs need = .go (rd, srcs.map fun x => resOf s fk x.o x.ind) := by
  have hfree : ∀ x ∈ srcs, free s fk x.o x.ind x.wide = true := by
    intro x hx
    obtain ⟨i, hi, rfl⟩ := List.getElem_of_mem hx
    exact (hs (srcs[i], need[i]'(by omega)) (by
      rw [List.mem_iff_getElem]; exact ⟨i, by simp; omega, by simp⟩)).1
  have hz : ∀ p ∈ srcs.zip (srcs.map fun x => resOf s fk x.o x.ind), p.1 ∈ srcs ∧ p.2 = resOf s fk p.1.o p.1.ind := by
    intro p hp
    obtain ⟨i, hi, rfl⟩ := List.getElem_of_mem hp
    simp
  have hbusy : ((srcs.zip (srcs.map fun x => resOf s fk x.o x.ind)).any fun p => busyRes s fk p.1.wide p.2) = false := by
    rw [List.any_eq_false]
    intro p hp
    rw [(hz p hp).2, busyRes_of_free (hfree _ (hz p hp).1)]; simp
  have hpois : (((srcs.zip (srcs.map fun x => resOf s fk x.o x.ind)).zip need).findSome? fun p =>
      if p.2 then poisonRes s fk p.1.1.wide p.1.2 else none) = none := by
    rw [List.findSome?_eq_none_iff]
    intro p hp
    obtain ⟨i, hi, rfl⟩ := List.getElem_of_mem hp
    simp only [List.getElem_zip, List.getElem_map]
    split
    · next hn =>
      simp only [List.length_zip, List.length_map] at hi
      exact poisonRes_of_clean ((hs (srcs[i]'(by omega), need[i]'(by omega)) (by
        rw [List.mem_iff_getElem]; exact ⟨i, by simp; omega, by simp⟩)).2 hn)
    · rfl
  have hfb : firstBad (rd :: srcs.map fun x => resOf s fk x.o x.ind) = none := by
    have h2 := (firstBad_srcs hfree).2
    cases rd <;> simp_all [firstBad]
  subst hd
  cases d <;> simp only [planOperands, only_rep, (firstBad_srcs hfree).1, hfb, only_mem, List.any_cons, List.any_nil, Bool.or_false,
    hb, hbusy, hpois, Bool.false_eq_true, if_false]

theorem readSrcs_ready (s : State) (fk : Nat) (srcs : List Src) :
    readSrcs s (only fk) srcs (srcs.map fun x => resOf s fk x.o x.ind) = srcs.map fun x => value s fk x.o x.ind x.wide := by
  simp only [readSrcs, only_rep]
  induction srcs with
  | nil => rfl
  | cons x xs ih => simp_all [readRes_resOf]

theorem extendU_eq (ty : Ty) (r : Nat) (h : ty.wide = false ∨ ty.signed = false) :
    extendU ty r = if ty.signed then (BitVec.ofInt 64 (BitVec.ofNat 32 r).toInt).toNat else r := by
  have hsgn : sgn 32 r = (BitVec.ofNat 32 r).toInt := by
    simp only [sgn, BitVec.toInt_eq_toNat_cond, BitVec.toNat_ofNat]
    split <;> split <;> omega
  rcases h with h | h <;> simp [extendU, h, unsgn, hsgn, BitVec.toNat_ofInt]

/-- Writing a result to a free destination. -/
theorem writeRes_eq_put (s : State) (fk : Nat) (o : Opnd) (ind wide : Bool) (ty : Ty) (r : Nat) (hw : wide = false → ty.wide = false ∨ ty.signed = false) :
    writeRes s (only fk) s.ipc ty wide r (resOf s fk o ind) = put s fk o ind wide ty r := by
  cases o with
  | sp x => rfl
  | s n =>
    cases wide with
    | true => rfl
    | false => simp only [resOf, writeRes, put, only, WUnit.bk, WUnit.g, State.who, extendU_eq ty r (hw rfl)]
  | v n =>
    cases wide <;> simp [resOf, writeRes, put, only, State.who]

end Sys2Proof.Machine
end

