-- ==== Sys2Proof/Laws/Alu.lean ====
section
/-!
SUPPORT. What a computing instruction of one fibre gives when its operands are ready, by shape.
-/
namespace Sys2Proof.Machine
set_option Elab.async false

theorem srcsReady_all {s : State} {fk : Nat} {srcs : List Src} (h : ∀ x ∈ srcs, readable s fk x.o x.ind x.wide = true) :
    srcsReady s fk srcs (List.replicate srcs.length true) := by
  intro p hp
  have := h p.1 (List.of_mem_zip hp).1
  simp only [readable, Bool.and_eq_true] at this
  exact ⟨this.1, fun _ => this.2⟩

/-- A computing instruction whose destination is a register operand. -/
theorem runAlu_reg {s : State} {g : Guard} {fk : Nat} {f : Fibre} (h : Issues s g fk f) {o : Opnd} {ind wide : Bool} {ty : Ty}
    {srcs : List Src} {need : State → Nat → List Bool} {op : State → Nat → List Nat → Except (FClass × Nat) (Nat × Nat)} {r : Nat × Nat}
    (hd : free s fk o ind wide = true) (hn : (need s fk).length = srcs.length) (hs : srcsReady s fk srcs (need s fk))
    (hr : op s fk (srcs.map fun x => value s fk x.o x.ind x.wide) = .ok r) (hw : wide = false → ty.wide = false ∨ ty.signed = false) :
    runAlu s g (.reg o ind wide ty) srcs need op = gives s fk o ind wide ty r.1 r.2 := by
  have hp := planOperands_ready (d := some (.reg o ind wide ty)) hn hs (resolve_of_free hd)
    (by rw [firstBad_resOf]; rfl) (busyRes_of_free hd)
  rw [runAlu, runUnits_go h (a := (resOf s fk o ind, r))]
  · simp only [writeDest, advanceUnit_only, only_bk, only_g, only_rep, gives, ← writeRes_eq_put s fk o ind wide ty r.1 hw, State.who]
  · simp only [only_rep, hp, readSrcs_ready, hr]

/-- A computing instruction whose destination is a predicate. -/
theorem runAlu_pred {s : State} {g : Guard} {fk : Nat} {f : Fibre} (h : Issues s g fk f) {p : Nat}
    {srcs : List Src} {need : State → Nat → List Bool} {op : State → Nat → List Nat → Except (FClass × Nat) (Nat × Nat)} {r : Nat × Nat}
    (hn : (need s fk).length = srcs.length) (hs : srcsReady s fk srcs (need s fk))
    (hr : op s fk (srcs.map fun x => value s fk x.o x.ind x.wide) = .ok r) :
    runAlu s g (.pred p) srcs need op =
      ((s.setP (s.who fk) fk p (r.1 != 0)).orGsw (s.who fk) (fkBk fk) (fkG fk) r.2).advance fk := by
  have hp := planOperands_ready (d := some (.pred p)) (rd := .sp .lane) hn hs rfl rfl rfl
  rw [runAlu, runUnits_go h (a := (.sp .lane, r))]
  · rfl
  · simp only [only_rep, hp, readSrcs_ready, hr]

theorem runBin_ready {s : State} {f : Bin} {fk : Nat} {x : Fibre} (h : Issues s f.g fk x) {wd wa wb : Bool} {op : Nat → Nat → Nat × Nat}
    (hr : Bin.ready s fk f wd wa wb = true) (hw : wd = false → f.ty.wide = false ∨ f.ty.signed = false) :
    runBin s f wd wa wb op = gives s fk f.d f.id wd f.ty (op (value s fk f.a f.ia wa) (value s fk f.b f.ib wb)).1
      (op (value s fk f.a f.ia wa) (value s fk f.b f.ib wb)).2 := by
  simp only [Bin.ready, Bool.and_eq_true] at hr
  exact runAlu_reg h hr.1.1 rfl (srcsReady_all (srcs := [⟨f.a, f.ia, wa⟩, ⟨f.b, f.ib, wb⟩]) (by simp [hr.1.2, hr.2])) rfl hw

theorem runUn_ready {s : State} {f : Un} {fk : Nat} {x : Fibre} (h : Issues s f.g fk x) {wd wa : Bool} {op : Nat → Nat × Nat}
    (hr : Un.ready s fk f wd wa = true) (hw : wd = false → f.ty.wide = false ∨ f.ty.signed = false) :
    runUn s f wd wa op = gives s fk f.d f.id wd f.ty (op (value s fk f.a f.ia wa)).1 (op (value s fk f.a f.ia wa)).2 := by
  simp only [Un.ready, Bool.and_eq_true] at hr
  exact runAlu_reg h hr.1 rfl (srcsReady_all (srcs := [⟨f.a, f.ia, wa⟩]) (by simp [hr.2])) rfl hw

theorem runTri_ready {s : State} {f : Tri} {fk : Nat} {x : Fibre} (h : Issues s f.g fk x) {wd wa wb wc : Bool}
    {op : Nat → Nat → Nat → Nat × Nat} (hr : Tri.ready s fk f wd wa wb wc = true) (hw : wd = false → f.ty.wide = false ∨ f.ty.signed = false) :
    runTri s f wd wa wb wc op =
      gives s fk f.d false wd f.ty (op (value s fk f.a false wa) (value s fk f.b false wb) (value s fk f.c false wc)).1
      (op (value s fk f.a false wa) (value s fk f.b false wb) (value s fk f.c false wc)).2 := by
  simp only [Tri.ready, Bool.and_eq_true] at hr
  exact runAlu_reg h hr.1.1.1 rfl (srcsReady_all (srcs := [⟨f.a, false, wa⟩, ⟨f.b, false, wb⟩, ⟨f.c, false, wc⟩])
    (by simp [hr.1.1.2, hr.1.2, hr.2])) rfl hw

theorem runImm_ready {s : State} {f : Imm} {fk : Nat} {x : Fibre} (h : Issues s f.g fk x) {op : Nat → Nat → Nat × Nat} {b : Nat}
    (hr : Imm.ready s fk f = true) :
    runImm s f op b = gives s fk f.d f.id f.ty.wide f.ty (op (value s fk f.a f.ia f.ty.wide) b).1 (op (value s fk f.a f.ia f.ty.wide) b).2 := by
  simp only [Imm.ready, Bool.and_eq_true] at hr
  exact runAlu_reg h hr.1 rfl (srcsReady_all (srcs := [⟨f.a, f.ia, f.ty.wide⟩]) (by simp [hr.2])) rfl .inl

end Sys2Proof.Machine
end

