-- ==== Sys2Proof/Laws/Access.lean ====
section
/-!
SUPPORT. What issuing a memory instruction of one fibre does: its plan, its operation, and the state it leaves.
-/
namespace Sys2Proof.Machine
set_option Elab.async false

/-- `sgn` is the two's complement value. -/
theorem sgn_eq (w n : Nat) : sgn w n = (BitVec.ofNat w n).toInt := by
  simp only [sgn, BitVec.toInt_eq_toNat_cond, BitVec.toNat_ofNat]
  rcases Nat.eq_zero_or_pos w with rfl | hw
  · simp [Nat.mod_one]
  · have : 2 ^ w = 2 * 2 ^ (w - 1) := by rw [← Nat.pow_succ']; congr 1; omega
    push_cast
    split <;> split <;> first | rfl | omega

theorem unsgn_eq (w : Nat) (x : Int) : unsgn w x = (BitVec.ofInt w x).toNat := by
  simp [unsgn, BitVec.toNat_ofInt]

theorem addrOf_eq (s : State) (fk : Nat) (wide : Bool) (base : Opnd) (ofs sc n : Nat) :
    addrOf wide ofs sc n ((addrSrcs wide base sc).map fun x => value s fk x.o x.ind x.wide) = addr s fk wide base ofs sc n := by
  by_cases h : sc = 0 <;> simp [addrOf, addr, addrSrcs, h, sgn_eq, unsgn_eq]

theorem maskOfUnit_only (fk : Nat) : maskOfUnit (only fk) = 2 ^ fkL fk := by simp [maskOfUnit, only]

theorem mkLane_only (fk : Nat) (a : MemGo) (t : Tgt) (st : LStat) : mkLane (only fk) a t st = laneOf fk a.ptr t st a.src a.src2 := by
  simp [mkLane, laneOf, maskOfUnit_only]

/-- The plan of a memory instruction whose operands are ready and which may open its operation. -/
theorem planMem_ready {s : State} {fk : Nat} {i : MemI} (ho : Opens s fk i.cls) {wide scp : Bool} {base : Opnd} {ofs sc n : Nat}
    {d : Option Dest} {srcs : List Src} {val : List Nat → Nat × Nat} {check : Nat → Chk} {rd : Res}
    (ha : addrReady s fk wide base sc = true) (hs : ∀ x ∈ srcs, readable s fk x.o x.ind x.wide = true)
    (hd : (match d with | some d => d.resolve s fk | none => .sp .lane) = rd) (hrd : firstBad [rd] = none)
    (hb : busyRes s fk (match d with | some d => d.wide | none => false) rd = false) :
    planMem s (only fk) i base ofs sc n wide scp d srcs val check =
      if scp = true ∧ s.scopeOk fk i.scope = false then .fault .ac i.scope
      else (check (addr s fk wide base ofs sc n)).plan
        { rd := rd, src := (val (srcs.map fun x => value s fk x.o x.ind x.wide)).1,
          src2 := (val (srcs.map fun x => value s fk x.o x.ind x.wide)).2, ptr := addr s fk wide base ofs sc n, chk := .staged } := by
  have hall : ∀ x ∈ srcs ++ addrSrcs wide base sc, readable s fk x.o x.ind x.wide = true := by
    intro x hx
    rcases List.mem_append.1 hx with h | h
    · exact hs x h
    · simp only [addrReady, Bool.and_eq_true, Bool.or_eq_true, beq_iff_eq] at ha
      by_cases h0 : sc = 0
      · simp [addrSrcs, h0] at h; simp [h, ha.1]
      · simp [addrSrcs, h0] at h ha
        rcases h with h | h <;> simp [h, ha.1, ha.2]
  have hp := planOperands_ready (d := d) (by simp) (srcsReady_all hall) hd hrd hb
  have hmap : ((srcs ++ addrSrcs wide base sc).map fun _ => true) = List.replicate (srcs ++ addrSrcs wide base sc).length true := by
    simp [List.map_const']
  simp only [planMem]
  rw [hmap, hp]
  have hc : s.cntFull (only fk) i.cls = false := by
    have := ho.room
    simp only [State.cntFull, only_bk, only_g, Bool.and_eq_false_iff, bne_eq_false_iff_eq]
    by_cases e : i.cls = .none
    · exact .inl e
    · exact .inr (decide_eq_false (by have := this e; omega))
  have hacq := ho.acq
  simp only [hc, only_mem, List.any_cons, hacq, List.any_nil, Bool.or_self, Bool.false_eq_true, if_false, readSrcs_ready]
  rw [List.map_append, ← List.length_map (as := srcs) (f := fun x => value s fk x.o x.ind x.wide), List.drop_left, List.take_left, addrOf_eq]
  have hsc : s.badScope (only fk) i.scope = !(s.scopeOk fk i.scope) := by
    simp only [State.badScope, State.scopeOk, only_bk, only_g]
    by_cases h5 : 5 ≤ i.scope
    · simp [h5]
    · simp [h5, Nat.lt_of_not_le h5]
  rw [hsc]
  simp

theorem opFor_fresh {s : State} (i : MemI) (bk g : Nat) (h : ∀ o ∈ s.ops, o.id < s.seq) :
    s.opFor i s.seq bk g = (s.seq, { s with seq := s.seq + 1, ops := s.ops ++ [s.mkOp i bk g s.seq] }) := by
  have : (s.ops.find? fun o => decide (s.seq ≤ o.id) && o.bk == bk && o.g == g) = none := by
    rw [List.find?_eq_none]
    intro o ho
    have := h o ho
    simp; omega
  simp [State.opFor, this]
  rfl

theorem updFirst_append {α : Type} (p : α → Bool) (f : α → α) (l : List α) (a : α) (h : ∀ x ∈ l, p x = false) (ha : p a = true) :
    updFirst p f (l ++ [a]) = l ++ [f a] := by
  induction l with
  | nil => simp [updFirst, ha]
  | cons x xs ih => simp [updFirst, h x (by simp), ih fun y hy => h y (by simp [hy])]

/-- Opening an operation and giving it its lane. -/
theorem addLane_fresh {s : State} (i : MemI) (fk : Nat) (x : Lane) (h : ∀ o ∈ s.ops, o.id < s.seq) :
    ({ s with seq := s.seq + 1, ops := s.ops ++ [s.mkOp i (fkBk fk) (fkG fk) s.seq] } : State).addLane s.seq x = s.issued fk i x := by
  simp only [State.addLane, State.updOp]
  rw [updFirst_append]
  · simp [State.issued, State.mkOp]
  · intro o ho; have := h o ho; simp; omega
  · simp [State.mkOp]

/-- What a read of DRAM logs leaves everything but the host's registers alone. -/
theorem sense_eq (s : State) (c : Option Nat) (t : Tgt) : ∃ h, s.sense c t = { s with host := h } := by
  unfold State.sense
  split
  · dsimp only
    split
    · exact ⟨s.host, rfl⟩
    · exact ⟨_, rfl⟩
  · exact ⟨s.host, rfl⟩

/-- MakePresent changes memory, the host's registers and the count of free values. -/
theorem makePresent_eq (s : State) (c k off : Nat) : ∃ m h n, s.makePresent c k off = { s with mem := m, host := h, free := n } := by
  unfold State.makePresent
  split
  · exact ⟨_, _, _, rfl⟩
  · split
    · exact ⟨_, _, _, rfl⟩
    · split
      · exact ⟨_, _, _, rfl⟩
      · dsimp only
        split
        · rename_i pa mt _
          obtain ⟨h, e⟩ := sense_eq s (some c) (.mem pa mt)
          rw [e]
          split <;> exact ⟨_, _, _, rfl⟩
        · exact ⟨_, _, _, rfl⟩
        · exact ⟨_, _, _, rfl⟩

/-- So does bringing a target's line in. -/
theorem touch_eq (s : State) (c : Nat) (t : Tgt) : ∃ m h n, s.touch c t = { s with mem := m, host := h, free := n } := by
  unfold State.touch
  split
  · split
    · exact ⟨_, _, _, rfl⟩
    · exact makePresent_eq _ _ _ _
  · exact ⟨_, _, _, rfl⟩

@[simp] theorem makePresent_seq (s : State) (c k off : Nat) : (s.makePresent c k off).seq = s.seq := by
  obtain ⟨m, h, n, e⟩ := makePresent_eq s c k off; rw [e]
@[simp] theorem makePresent_ops (s : State) (c k off : Nat) : (s.makePresent c k off).ops = s.ops := by
  obtain ⟨m, h, n, e⟩ := makePresent_eq s c k off; rw [e]
@[simp] theorem makePresent_blocks (s : State) (c k off : Nat) : (s.makePresent c k off).blocks = s.blocks := by
  obtain ⟨m, h, n, e⟩ := makePresent_eq s c k off; rw [e]
@[simp] theorem makePresent_ipc (s : State) (c k off : Nat) : (s.makePresent c k off).ipc = s.ipc := by
  obtain ⟨m, h, n, e⟩ := makePresent_eq s c k off; rw [e]
@[simp] theorem touch_seq (s : State) (c : Nat) (t : Tgt) : (s.touch c t).seq = s.seq := by
  obtain ⟨m, h, n, e⟩ := touch_eq s c t; rw [e]
@[simp] theorem touch_ops (s : State) (c : Nat) (t : Tgt) : (s.touch c t).ops = s.ops := by
  obtain ⟨m, h, n, e⟩ := touch_eq s c t; rw [e]
@[simp] theorem touch_blocks (s : State) (c : Nat) (t : Tgt) : (s.touch c t).blocks = s.blocks := by
  obtain ⟨m, h, n, e⟩ := touch_eq s c t; rw [e]
@[simp] theorem touch_ipc (s : State) (c : Nat) (t : Tgt) : (s.touch c t).ipc = s.ipc := by
  obtain ⟨m, h, n, e⟩ := touch_eq s c t; rw [e]

/-- Opening an operation does not change what a read of DRAM logs, nor what MakePresent does. -/
theorem sense_open (s : State) (sq : Nat) (ops : List Op) (c : Option Nat) (t : Tgt) :
    ({ s with seq := sq, ops := ops } : State).sense c t = { s.sense c t with seq := sq, ops := ops } := by
  unfold State.sense
  cases t <;> try rfl
  dsimp only
  split <;> rfl

theorem makePresent_open (s : State) (c sq : Nat) (ops : List Op) (k off : Nat) :
    ({ s with seq := sq, ops := ops } : State).makePresent c k off = { s.makePresent c k off with seq := sq, ops := ops } := by
  unfold State.makePresent
  have h1 : ∀ q, ({ s with seq := sq, ops := ops } : State).leafCheck c q .load = s.leafCheck c q .load := fun _ => rfl
  simp only [h1, sense_open]
  cases sget none s.mem.regions k with
  | none => rfl
  | some r =>
    dsimp only
    split
    · rfl
    · split
      · rfl
      · cases s.leafCheck c (r.gbase + off / 128 * 128) .load with
        | ok t => cases t <;> try rfl
                  dsimp only
                  split <;> rfl
        | _ => rfl

theorem touch_open (s : State) (c sq : Nat) (ops : List Op) (t : Tgt) :
    ({ s with seq := sq, ops := ops } : State).touch c t = { s.touch c t with seq := sq, ops := ops } := by
  cases t <;> try rfl
  rename_i k off
  have h1 : ({ s with seq := sq, ops := ops } : State).linkDown (.region k off) = s.linkDown (.region k off) := rfl
  simp only [State.touch, h1, makePresent_open]
  split <;> rfl

theorem touch_issue {s : State} (i : MemI) (fk c : Nat) (t : Tgt) (x : Lane) (h : ∀ o ∈ s.ops, o.id < s.seq) :
    (({ s with seq := s.seq + 1, ops := s.ops ++ [s.mkOp i (fkBk fk) (fkG fk) s.seq] } : State).touch c t).addLane s.seq x
      = (s.touch c t).issued fk i x := by
  rw [touch_open, ← addLane_fresh (s := s.touch c t) i fk x (by simpa using h)]
  simp [State.mkOp, State.group, State.block?]

end Sys2Proof.Machine
end

