-- ==== Sys2Proof/Laws/Sparse.lean ====
section
/-!
SUPPORT. Sparse stores: a read after a write, and that every write keeps the canonical form; the same of memories.
-/
namespace Sys2Proof.Machine
set_option Elab.async false

variable {β : Type}

theorem sget_serase (d : β) (m : FMap β) (a b : Nat) : sget d (serase m a) b = if b = a then d else sget d m b := by
  induction m with
  | nil => simp [serase, sget]
  | cons p m ih =>
    obtain ⟨k, v⟩ := p
    by_cases h : a = k
    · subst h; by_cases h' : b = a <;> simp_all [serase, sget]
    · by_cases h' : b = k
      · subst h'; simp [serase, sget, h, Ne.symm h]
      · simp [serase, sget, h, h', ih]

theorem sget_sput (d : β) (m : FMap β) (a b : Nat) (v : β) :
    sget d (sput m a v) b = if b = a then v else sget d m b := by
  induction m with
  | nil => simp [sput, sget]
  | cons p m ih =>
    obtain ⟨k, w⟩ := p
    rcases lt_trichotomy a k with h | h | h
    · simp [sput, sget, h]
    · subst h; by_cases h' : b = a <;> simp [sput, sget, h']
    · have h1 : a ≠ k := by omega
      have h2 : ¬ a < k := by omega
      by_cases h' : b = k
      · subst h'; simp [sput, sget, h1, h2, Ne.symm h1]
      · simp [sput, sget, h1, h2, h', ih]

@[simp] theorem sget_sset [DecidableEq β] (d : β) (m : FMap β) (a b : Nat) (v : β) :
    sget d (sset d m a v) b = if b = a then v else sget d m b := by
  unfold sset
  split
  · simp_all [sget_serase]
  · exact sget_sput d m a b v

theorem sget_sset_self [DecidableEq β] (d : β) (m : FMap β) (a : Nat) (v : β) : sget d (sset d m a v) a = v := by simp

theorem sget_sset_of_ne [DecidableEq β] {d : β} {m : FMap β} {a b : Nat} {v : β} (h : b ≠ a) :
    sget d (sset d m a v) b = sget d m b := by simp [h]

/-! ### The canonical form -/

theorem swf_cons [DecidableEq β] (d : β) (k : Nat) (v : β) (m : FMap β) :
    swf d ((k, v) :: m) = true ↔ v ≠ d ∧ swf d m = true ∧ ∀ p ∈ m, k < p.1 := by
  induction m generalizing k v with
  | nil => simp [swf]
  | cons q m ih =>
    obtain ⟨k', v'⟩ := q
    have := ih k' v'
    simp only [swf, Bool.and_eq_true, decide_eq_true_eq, this, List.mem_cons, forall_eq_or_imp]
    constructor
    · rintro ⟨⟨h1, h2⟩, h3, h4, h5⟩
      exact ⟨h1, ⟨h3, h4, h5⟩, h2, fun p hp => h2.trans (h5 p hp)⟩
    · rintro ⟨h1, ⟨h3, h4, h5⟩, h2, -⟩
      exact ⟨⟨h1, h2⟩, h3, h4, h5⟩

theorem mem_serase {m : FMap β} {a : Nat} {p : Nat × β} (h : p ∈ serase m a) : p ∈ m := by
  induction m with
  | nil => simp [serase] at h
  | cons q m ih =>
    obtain ⟨k, v⟩ := q
    by_cases h' : a = k <;> simp_all [serase]
    rcases h with h | h <;> simp_all

theorem mem_sput {m : FMap β} {a : Nat} {v : β} {p : Nat × β} (h : p ∈ sput m a v) : p = (a, v) ∨ p ∈ m := by
  induction m with
  | nil => simp_all [sput]
  | cons q m ih =>
    obtain ⟨k, w⟩ := q
    simp only [sput] at h
    split at h
    · simpa using h
    · split at h
      · simp only [List.mem_cons] at h ⊢; tauto
      · simp only [List.mem_cons] at h ⊢
        rcases h with h | h
        · tauto
        · rcases ih h with h | h <;> tauto

theorem serase_wf [DecidableEq β] {d : β} {m : FMap β} (h : swf d m = true) (a : Nat) : swf d (serase m a) = true := by
  induction m with
  | nil => simp [serase, swf]
  | cons q m ih =>
    obtain ⟨k, v⟩ := q
    rw [swf_cons] at h
    by_cases h' : a = k
    · simp only [serase, h', if_true]; exact h' ▸ ih h.2.1
    · simp only [serase, h', if_false, swf_cons]
      exact ⟨h.1, ih h.2.1, fun p hp => h.2.2 p (mem_serase hp)⟩

theorem sput_wf [DecidableEq β] {d : β} {m : FMap β} (h : swf d m = true) (a : Nat) {v : β} (hv : v ≠ d) :
    swf d (sput m a v) = true := by
  induction m with
  | nil => simp [sput, swf, hv]
  | cons q m ih =>
    obtain ⟨k, w⟩ := q
    have h0 := (swf_cons d k w m).1 h
    simp only [sput]
    split
    · next hlt =>
      rw [swf_cons]
      refine ⟨hv, h, fun p hp => ?_⟩
      rcases List.mem_cons.1 hp with rfl | hp
      · exact hlt
      · exact hlt.trans (h0.2.2 p hp)
    · split
      · next heq => subst heq; exact (swf_cons d a v m).2 ⟨hv, h0.2⟩
      · next hlt hne =>
        rw [swf_cons]
        refine ⟨h0.1, ih h0.2.1, fun p hp => ?_⟩
        rcases mem_sput hp with rfl | hp
        · show k < a; omega
        · exact h0.2.2 p hp

/-- Every write keeps the canonical form. -/
theorem sset_wf [DecidableEq β] {d : β} {m : FMap β} (h : swf d m = true) (a : Nat) (v : β) : swf d (sset d m a v) = true := by
  unfold sset
  split
  · exact serase_wf h a
  · next hv => exact sput_wf h a hv

/-- In canonical form a store is its reading: equal reads, equal stores. -/
theorem swf_ext [DecidableEq β] {d : β} {m n : FMap β} (hm : swf d m = true) (hn : swf d n = true)
    (h : ∀ a, sget d m a = sget d n a) : m = n := by
  induction m generalizing n with
  | nil =>
    cases n with
    | nil => rfl
    | cons q n =>
      obtain ⟨k, v⟩ := q
      have h1 := ((swf_cons d k v n).1 hn).1
      have h2 := h k
      simp [sget] at h2
      exact absurd h2.symm h1
  | cons p m ih =>
    obtain ⟨k, v⟩ := p
    have hm' := (swf_cons d k v m).1 hm
    have low : ∀ {l : FMap β} {a : Nat}, (∀ p ∈ l, a < p.1) → sget d l a = d := by
      intro l a
      induction l with
      | nil => intro _; rfl
      | cons q l ihl =>
        obtain ⟨k', v'⟩ := q
        intro hl
        have := hl (k', v') (by simp)
        have hne : a ≠ k' := by simp at this; omega
        simp only [sget, hne, if_false]
        exact ihl fun p hp => hl p (by simp [hp])
    cases n with
    | nil =>
      have h2 := h k
      simp [sget] at h2
      exact absurd h2 hm'.1
    | cons q n =>
      obtain ⟨k', v'⟩ := q
      have hn' := (swf_cons d k' v' n).1 hn
      have hk : k = k' := by
        rcases lt_trichotomy k k' with hlt | he | hlt
        · have h2 := h k
          have : sget d ((k', v') :: n) k = d := low (by
            intro p hp; rcases List.mem_cons.1 hp with rfl | hp
            · exact hlt
            · exact hlt.trans (hn'.2.2 p hp))
          rw [this] at h2; simp [sget] at h2; exact absurd h2 hm'.1
        · exact he
        · have h2 := h k'
          have : sget d ((k, v) :: m) k' = d := low (by
            intro p hp; rcases List.mem_cons.1 hp with rfl | hp
            · exact hlt
            · exact hlt.trans (hm'.2.2 p hp))
          rw [this] at h2; simp [sget] at h2; exact absurd h2.symm hn'.1
      subst hk
      have hv : v = v' := by simpa [sget] using h k
      subst hv
      rw [ih hm'.2.1 hn'.2.1]
      intro a
      by_cases ha : a = k
      · subst ha; rw [low hm'.2.2, low hn'.2.2]
      · simpa [sget, ha] using h a

theorem skeep_wf [DecidableEq β] {d : β} {m : FMap β} (h : swf d m = true) (p : Nat → Bool) : swf d (skeep p m) = true := by
  have mem : ∀ {l : FMap β} {q}, q ∈ skeep p l → q ∈ l := by
    intro l
    induction l with
    | nil => intro q hq; simp [skeep] at hq
    | cons r l ih =>
      intro q hq
      obtain ⟨k, v⟩ := r
      simp only [skeep] at hq
      split at hq
      · rcases List.mem_cons.1 hq with rfl | hq
        · simp
        · exact List.mem_cons_of_mem _ (ih hq)
      · exact List.mem_cons_of_mem _ (ih hq)
  induction m with
  | nil => simp [skeep, swf]
  | cons q m ih =>
    obtain ⟨k, v⟩ := q
    have h0 := (swf_cons d k v m).1 h
    simp only [skeep]
    split
    · exact (swf_cons d k v _).2 ⟨h0.1, ih h0.2.1, fun p hp => h0.2.2 p (mem hp)⟩
    · exact ih h0.2.1

/-! ### Memories -/

@[simp] theorem mget_mset (m : Memory) (a b : Nat) (v : Byte) : mget (mset m a v) b = if b = a then v else mget m b := by
  simp [mget, mset]

theorem mset_wf {m : Memory} (h : m.wf) (a : Nat) (v : Byte) : (mset m a v).wf := sset_wf h a v

theorem mwrite_wf {m : Memory} (h : m.wf) (a n v : Nat) : (mwrite m a n v).wf := by
  induction n generalizing m a v with
  | zero => exact h
  | succ n ih => exact ih (mset_wf h _ _) _ _

theorem mwrites_wf {m : Memory} (h : m.wf) (a : Nat) (bs : List Byte) : (mwrites m a bs).wf := by
  induction bs generalizing m a with
  | nil => exact h
  | cons b bs ih => exact ih (mset_wf h _ _) _

/-- A write leaves every other address alone. -/
theorem mget_mwrite_of_out {m : Memory} {a n v b : Nat} (h : b < a ∨ a + n ≤ b) : mget (mwrite m a n v) b = mget m b := by
  induction n generalizing m a v with
  | zero => rfl
  | succ n ih =>
    rw [mwrite, ih (by omega), mget_mset, if_neg (by omega)]

/-- A read after a write to the same place gives the value written. -/
theorem mread_mwrite (m : Memory) (a n v : Nat) : mread (mwrite m a n v) a n = v % 256 ^ n := by
  induction n generalizing m a v with
  | zero => simp [mread, Nat.mod_one]
  | succ n ih =>
    rw [mread, mwrite, mget_mwrite_of_out (by omega), mget_mset, if_pos rfl, ih]
    simp only [BitVec.toNat_ofNat]
    rw [show (256 : Nat) ^ (n + 1) = 256 * 256 ^ n by ring, Nat.mod_mul]

end Sys2Proof.Machine
end

