-- ==== Sys2Proof/Laws/Memory.lean ====
section
/-!
SUPPORT. Memory: every operation keeps the canonical form of DRAM and of the home slices, and what a read gives after a write.
-/
namespace Sys2Proof.Machine
set_option Elab.async false

/-! ### Byte lists -/

theorem mputs_wf {m : Memory} (h : m.wf) (a : Nat) (bs : List Nat) : Memory.wf (mputs m a bs) := by
  induction bs generalizing m a with
  | nil => exact h
  | cons b bs ih => exact ih (mset_wf h _ _) _

theorem sdrop_wf {m : Memory} (h : m.wf) (lo n : Nat) : Memory.wf (sdrop m lo n) := skeep_wf h _

/-- A byte after a list of bytes is written: the list's own inside its range, the old one outside. -/
theorem mget_mputs (m : Memory) (a b : Nat) (bs : List Nat) :
    mget (mputs m a bs) b = if a ≤ b ∧ b < a + bs.length then BitVec.ofNat 8 (bs.getD (b - a) 0) else mget m b := by
  induction bs generalizing m a with
  | nil => rw [if_neg (by simp)]; rfl
  | cons x bs ih =>
    rw [mputs, ih, mget_mset]
    rcases lt_trichotomy b a with h | rfl | h
    · rw [if_neg (by omega), if_neg (by omega), if_neg (by omega)]
    · simp
    · obtain ⟨d, rfl⟩ : ∃ d, b = a + 1 + d := ⟨b - (a + 1), by omega⟩
      simp only [show a + 1 + d - (a + 1) = d by omega, show a + 1 + d - a = d + 1 by omega, List.getD_cons_succ, List.length_cons,
        show ¬(a + 1 + d = a) by omega, if_false]
      exact if_congr (by omega) rfl rfl

theorem sget_skeep {β : Type} (d : β) (p : Nat → Bool) (m : FMap β) (a : Nat) :
    sget d (skeep p m) a = if p a = true then sget d m a else d := by
  induction m with
  | nil => simp [skeep, sget]
  | cons q m ih =>
    obtain ⟨k, v⟩ := q
    by_cases hk : p k = true <;> by_cases ha : a = k <;> simp_all [skeep, sget]

/-- Dropping a range leaves it at what an unlisted byte reads as, and everything else as it was. -/
theorem mget_sdrop (m : Memory) (lo n a : Nat) : mget (sdrop m lo n) a = if lo ≤ a ∧ a < lo + n then 0 else mget m a := by
  simp only [mget, sdrop, sget_skeep]
  by_cases h : lo ≤ a ∧ a < lo + n <;> simp [h]

/-! ### The canonical form -/

/-- DRAM and the home slices are in canonical form. -/
def MemSt.wf (m : MemSt) : Prop := Memory.wf m.dram ∧ Memory.wf m.home

theorem MemSt.reset_wf : MemSt.reset.wf := ⟨by decide, by decide⟩

theorem MemSt.dramZero_wf {m : MemSt} (h : m.wf) (ln : Nat) : (m.dramZero ln).wf := ⟨sdrop_wf h.1 _ _, h.2⟩

theorem MemSt.dramPut_wf {m : MemSt} (h : m.wf) (pa : Nat) (bs : List Nat) : (m.dramPut pa bs).wf := by
  have all : ∀ (f : MemSt → Nat → MemSt), (∀ x ln, MemSt.wf x → (f x ln).wf) → ∀ (l : List Nat) (x : MemSt), x.wf → (l.foldl f x).wf := by
    intro f hf l
    induction l with
    | nil => exact fun _ hx => hx
    | cons y l ih => exact fun x hx => ih _ (hf _ _ hx)
  refine (fun k => ⟨mputs_wf k.1 _ _, k.2⟩ : ∀ {x : MemSt}, x.wf → MemSt.wf { x with dram := mputs x.dram pa bs }) (all _ ?_ _ _ h)
  intro x ln hx
  dsimp only
  split <;> split <;> first | exact ⟨sdrop_wf hx.1 _ _, hx.2⟩ | exact hx

theorem MemSt.fill_wf {m : MemSt} (h : m.wf) (ln : Nat) : (m.fill ln).wf := by
  unfold MemSt.fill
  split
  · exact h
  · exact ⟨h.1, mputs_wf (sdrop_wf h.2 _ _) _ _⟩

theorem MemSt.homePut_wf {m : MemSt} (h : m.wf) (pa : Nat) (bs : List Nat) : (m.homePut pa bs).wf := by
  have k := MemSt.fill_wf h (pa / 128)
  have put : ∀ z : Bool, Memory.wf (mputs (if z then sdrop (m.fill (pa / 128)).home (pa / 128 * 128) 128 else (m.fill (pa / 128)).home) pa bs) := by
    intro z
    cases z
    · exact mputs_wf k.2 _ _
    · exact mputs_wf (sdrop_wf k.2 _ _) _ _
  exact ⟨k.1, put _⟩

theorem MemSt.homeZero_wf {m : MemSt} (h : m.wf) (ln : Nat) : (m.homeZero ln).wf := ⟨h.1, sdrop_wf h.2 _ _⟩

theorem MemSt.homeStore_wf {m : MemSt} (h : m.wf) (nt : Bool) (pa : Nat) (bs : List Nat) : (m.homeStore nt pa bs).wf := by
  unfold MemSt.homeStore
  split
  · exact MemSt.dramPut_wf h _ _
  · exact MemSt.homePut_wf h _ _

theorem MemSt.writeBack_wf {m : MemSt} (h : m.wf) (ln : Nat) : (m.writeBack ln).wf := by
  unfold MemSt.writeBack
  split
  · exact h
  · rename_i t _
    have k : MemSt.wf { m with htag := sset none m.htag ln (some { t with dirty := false }) } := h
    dsimp only
    split
    · exact MemSt.dramZero_wf k _
    · split
      · exact h
      · exact MemSt.dramPut_wf k _ _

theorem MemSt.evict_wf {m : MemSt} (h : m.wf) (ln : Nat) (bad : Bool) : (m.evict ln bad).wf := by
  unfold MemSt.evict
  split
  · exact h
  · have done : ∀ {x : MemSt}, x.wf → MemSt.wf { x with htag := sset none x.htag ln none, home := sdrop x.home (ln * 128) 128 } :=
      fun k => ⟨k.1, sdrop_wf k.2 _ _⟩
    dsimp only
    split
    · exact done (MemSt.dramZero_wf h _)
    · split
      · exact done (show MemSt.wf { m.writeBack ln with dpoison := _ } from MemSt.writeBack_wf h ln)
      · exact done h

theorem MemSt.physPut_wf {m : MemSt} (h : m.wf) (nt : Nat → Bool) (pa : Nat) (bs : List Nat) : (m.physPut nt pa bs).wf := by
  unfold MemSt.physPut
  dsimp only
  generalize span _ _ = l
  induction l generalizing m with
  | nil => exact h
  | cons y l ih => exact ih (m := m.homeStore _ _ _) (MemSt.homeStore_wf h _ _ _)

/-! ### Reads after writes -/

theorem MemSt.tag_fill (m : MemSt) (ln x : Nat) : (m.fill ln).tag x =
    if x = ln ∧ m.tag ln = none then
      some { dirty := false, zero := (m.dramBytes (ln * 128) 128).all (· == 0) && !m.dramPois ln, poison := m.dramPois ln }
    else m.tag x := by
  unfold MemSt.fill
  cases h : m.tag ln with
  | some t => simp
  | none =>
    by_cases hx : x = ln
    · subst hx; simp [MemSt.tag]
    · simp [MemSt.tag, hx]

theorem span_getD (a n i : Nat) (f : Nat → Nat) (h : i < n) : ((span a n).map f).getD i 0 = f (a + i) := by
  induction n generalizing a i with
  | zero => omega
  | succ n ih =>
    cases i with
    | zero => simp [span]
    | succ i => rw [span, List.map_cons, List.getD_cons_succ, ih _ _ (by omega)]; congr 1; omega

theorem span_length (a n : Nat) : (span a n).length = n := by
  induction n generalizing a with
  | zero => rfl
  | succ n ih => simp [span, ih]

theorem mem_span {a n b : Nat} : b ∈ span a n ↔ a ≤ b ∧ b < a + n := by
  induction n generalizing a with
  | zero => simp [span]
  | succ n ih => simp only [span, List.mem_cons, ih]; omega

theorem MemSt.dramB_lt (m : MemSt) (b : Nat) : m.dramB b < 256 := by
  unfold MemSt.dramB
  split
  · omega
  · exact (mget m.dram b).isLt

/-- Holding a line changes no byte that anything reads. -/
theorem MemSt.homeB_fill (m : MemSt) (ln b : Nat) : (m.fill ln).homeB b = m.homeB b := by
  unfold MemSt.homeB
  rw [MemSt.tag_fill]
  by_cases hx : b / 128 = ln ∧ m.tag ln = none
  · obtain ⟨rfl, hn⟩ := hx
    have hin : b / 128 * 128 ≤ b ∧ b < b / 128 * 128 + 128 := by omega
    have hhome : mget (m.fill (b / 128)).home b = BitVec.ofNat 8 (m.dramB b) := by
      simp only [MemSt.fill, hn, mget_mputs, MemSt.dramBytes, List.length_map, span_length, hin.1, hin.2, and_self, if_true]
      rw [span_getD _ _ _ _ (by omega)]
      congr 2
      omega
    simp only [hn, and_self, if_true]
    by_cases hz : (m.dramBytes (b / 128 * 128) 128).all (· == 0) && !m.dramPois (b / 128)
    · rw [if_pos hz]
      have hall := List.all_eq_true.1 (Bool.and_eq_true_iff.1 hz).1
      have := hall (m.dramB b) (List.mem_map.2 ⟨b, mem_span.2 hin, rfl⟩)
      exact (by simpa using this : m.dramB b = 0).symm
    · rw [if_neg hz, hhome, BitVec.toNat_ofNat]
      exact Nat.mod_eq_of_lt (m.dramB_lt b)
  · rw [if_neg hx]
    cases ht : m.tag (b / 128) with
    | some t =>
      dsimp only
      split
      · rfl
      · cases hn : m.tag ln with
        | some u => simp [MemSt.fill, hn]
        | none =>
          have hne : b / 128 ≠ ln := fun h => by rw [← h, ht] at hn; cases hn
          simp only [MemSt.fill, hn, mget_mputs, mget_sdrop, MemSt.dramBytes, List.length_map, span_length]
          rw [if_neg (by omega), if_neg (by omega)]
    | none =>
      have : (m.fill ln).zdir = m.zdir ∧ (m.fill ln).dram = m.dram := by unfold MemSt.fill; split <;> exact ⟨rfl, rfl⟩
      simp [MemSt.dramB, this.1, this.2]

/-- A store of bytes within one line at its home: each byte stored reads as stored, and every other byte as before. -/
theorem MemSt.homeB_homePut (m : MemSt) (pa : Nat) (bs : List Nat) (b : Nat) (hline : pa % 128 + bs.length ≤ 128) :
    (m.homePut pa bs).homeB b = if pa ≤ b ∧ b < pa + bs.length then bs.getD (b - pa) 0 % 256 else m.homeB b := by
  rw [← MemSt.homeB_fill m (pa / 128) b]
  have hsome : ∃ t, (m.fill (pa / 128)).tag (pa / 128) = some t := by
    rw [MemSt.tag_fill]
    by_cases h : m.tag (pa / 128) = none
    · simp [h]
    · simpa [h] using Option.ne_none_iff_exists'.1 h
  obtain ⟨t, ht⟩ := hsome
  generalize hf : m.fill (pa / 128) = f at ht
  have htag : ∀ x, (m.homePut pa bs).tag x = if x = pa / 128 then
      some { dirty := true, zero := false, poison := f.homePois (pa / 128) && !(bs.length == 128) } else f.tag x := by
    intro x
    simp only [MemSt.homePut, hf, MemSt.tag, sget_sset]
  have hhome : (m.homePut pa bs).home = mputs (if t.zero = true then sdrop f.home (pa / 128 * 128) 128 else f.home) pa bs := by
    simp only [MemSt.homePut, hf, ht]
  have hd : (m.homePut pa bs).dramB b = f.dramB b := by simp only [MemSt.homePut, hf, MemSt.dramB]
  unfold MemSt.homeB
  rw [htag]
  by_cases hb : b / 128 = pa / 128
  · rw [if_pos hb, hb, ht]
    simp only [hhome, mget_mputs, Bool.false_eq_true, if_false]
    by_cases hin : pa ≤ b ∧ b < pa + bs.length
    · rw [if_pos hin, if_pos hin, BitVec.toNat_ofNat]
    · rw [if_neg hin, if_neg hin]
      split
      · rw [mget_sdrop, if_pos (by omega)]; rfl
      · rfl
  · have hout : ¬ (pa ≤ b ∧ b < pa + bs.length) := by omega
    have hin : mget (m.homePut pa bs).home b = mget f.home b := by
      rw [hhome, mget_mputs, if_neg hout]
      split
      · rw [mget_sdrop, if_neg (by omega)]
      · rfl
    rw [if_neg hb, if_neg hout, hin, hd]

/-- `stz` of a line at its home: the line reads as zeros, and every other byte as before. -/
theorem MemSt.homeB_homeZero (m : MemSt) (ln b : Nat) : (m.homeZero ln).homeB b = if b / 128 = ln then 0 else m.homeB b := by
  unfold MemSt.homeB
  by_cases h : b / 128 = ln
  · simp [MemSt.homeZero, MemSt.tag, h]
  · have ht : (m.homeZero ln).tag (b / 128) = m.tag (b / 128) := by simp [MemSt.homeZero, MemSt.tag, h]
    have hd : (m.homeZero ln).dramB b = m.dramB b := rfl
    rw [ht, if_neg h, hd]
    have hm : mget (m.homeZero ln).home b = mget m.home b := by
      simp only [MemSt.homeZero, mget_sdrop]
      rw [if_neg (by omega)]
    rw [hm]

end Sys2Proof.Machine
end

