-- ==== Sys2Proof/Laws/PerInstr.lean ====
section
/-!
SUPPORT. The word of every well-formed instruction lies below the unassigned opcodes and the header kinds (R8, R36): one lemma per constructor,
over one bound per word form.
-/
namespace Sys2Proof.Laws

/-! ### Fields -/

theorem ty_lt (t : Ty) : t.code < 14 := by cases t <;> decide
theorem rm_lt (r : RM) : r.code < 4 := by cases r <;> decide
theorem sp_lt (x : Special) : x.code < 2048 := by cases x <;> decide
theorem flag_le (b : Bool) : b.toNat ≤ 1 := by cases b <;> decide

theorem src_lt {o : Opnd} {w i : Bool} (h : o.src w i = true) : o.code < 2048 := by
  cases o <;> simp [Opnd.src, vok, sok, Opnd.code] at h ⊢ <;> first | exact sp_lt _ | omega

theorem dst_lt {o : Opnd} {u w i : Bool} (h : o.dst u w i = true) : o.code < 2048 := by
  cases o <;> simp [Opnd.dst, vok, sok, Opnd.code] at h ⊢ <;> omega

theorem base_lt {o : Opnd} {sc : Nat} {p : Bool} (h : baseOk o sc p = true) : o.code < 2048 ∧ sc < 5 := by
  cases o <;> simp [baseOk, vok, Opnd.code] at h ⊢ <;> omega

theorem guard_lt {g : Guard} {u : Bool} (h : g.wf u = true) : g.gp < 16 := by simp [Guard.wf] at h; exact h.1.1

theorem vok_lt {w : Bool} {n : Nat} (h : vok w n = true) : n < 1536 := by simp [vok] at h; exact h.1
theorem sok_lt {n : Nat} (h : sok n = true) : n < 96 := by simpa [sok] using h

/-! ### Forms -/

/-- A word with an assigned opcode and fields in their widths (R9). -/
theorem word_lt {opc d a b lo : Nat} {g : Guard} (ho : opc < 0xD0) (hg : g.gp < 16) (hd : d < 2048) (ha : a < 2048) (hb : b < 2048)
    (hl : lo < 131072) : word opc g d a b lo < 0xD0 * 2 ^ 56 := by
  have := flag_le g.gn
  have := flag_le g.u
  simp only [word]
  omega

/-- Bits [16:0] of V3 and VI. -/
theorem loV_lt {sub : Nat} (t : Ty) (id ia ib : Bool) (h : sub < 1024) : loV t.code id ia ib sub < 131072 := by
  have := ty_lt t
  have := flag_le id
  have := flag_le ia
  have := flag_le ib
  simp only [loV]
  omega

theorem bin_lt {f : Bin} {ty wd wa wb : Bool} {opc sub : Nat} (h : f.wf ty wd wa wb = true) (ho : opc < 0xD0) (hs : sub < 1024) :
    encBin opc f sub < 0xD0 * 2 ^ 56 := by
  simp only [Bin.wf, Bool.and_eq_true] at h
  exact word_lt ho (guard_lt h.1.1.1.1.1) (dst_lt h.1.1.2) (src_lt h.1.2) (src_lt h.2) (loV_lt _ _ _ _ hs)

theorem un_lt {f : Un} {ty wd wa : Bool} {opc sub : Nat} (h : f.wf ty wd wa = true) (ho : opc < 0xD0) (hs : sub < 1024) :
    encUn opc f sub < 0xD0 * 2 ^ 56 := by
  simp only [Un.wf, Bool.and_eq_true] at h
  exact word_lt ho (guard_lt h.1.1.1.1) (dst_lt h.1.2) (src_lt h.2) (by decide) (loV_lt _ _ _ _ hs)

theorem imm_lt {f : Imm} {ty : Bool} {opc : Nat} (h : f.wf ty = true) (ho : opc < 0xD0) : encImm opc f < 0xD0 * 2 ^ 56 := by
  simp only [Imm.wf, Bool.and_eq_true, decide_eq_true_eq] at h
  exact word_lt ho (guard_lt h.1.1.1.1.1) (dst_lt h.1.1.2) (src_lt h.1.2) (by simp only [hi8]; omega) (loV_lt _ _ _ _ (by decide))

theorem tri_lt {f : Tri} {ty wd wa wb wc : Bool} {opc : Nat} (h : f.wf ty wd wa wb wc = true) (ho : opc < 0xD0) :
    encTri opc f < 0xD0 * 2 ^ 56 := by
  simp only [Tri.wf, Bool.and_eq_true] at h
  have := src_lt h.2
  have := ty_lt f.ty
  have := rm_lt f.rm
  exact word_lt ho (guard_lt h.1.1.1.1.1) (dst_lt h.1.1.1.2) (src_lt h.1.1.2) (src_lt h.1.2) (by simp only [loC]; omega)

theorem lo_mem_lt {t : Ty} {sc p q : Nat} (h : sc < 32) (hp : p < 16) (hq : q < 16) : loM t.code sc p q < 131072 := by
  have := ty_lt t
  simp only [loM]
  omega

/-- QF codes fit their field. -/
theorem qfLd_lt {q : Nat} (h : qfLd q = true) : q < 16 := by simp [qfLd] at h; omega
theorem qfSt_lt {q : Nat} (h : qfSt q = true) : q < 16 := by simp [qfSt] at h; omega

theorem mem_lt {f : Mem} {u pr ty p q : Bool} {opc : Nat} (h : f.wf u pr ty p q = true) (ho : opc < 0xD0) (hd : f.d.code < 2048) (hp : f.pol < 16)
    (hq : f.qf < 16) : encMem opc f < 0xD0 * 2 ^ 56 := by
  simp only [Mem.wf, Bool.and_eq_true, decide_eq_true_eq] at h
  have hb := base_lt h.1.1.1.1.2
  exact word_lt ho (guard_lt h.1.1.1.1.1.1) hd hb.1 (by simp only [hi8]; omega) (lo_mem_lt h.1.1.2 hp hq)

theorem memA_lt {f : MemA} {p q : Bool} {opc : Nat} (h : f.wf p q = true) (ho : opc < 0xD0) (hp : f.pol < 16) (hq : f.qf < 16) :
    encMemA opc f < 0xD0 * 2 ^ 56 := by
  simp only [MemA.wf, Bool.and_eq_true, decide_eq_true_eq] at h
  have hb := base_lt h.1.1.1.1.2
  exact word_lt ho (guard_lt h.1.1.1.1.1) (by decide) hb.1 (by simp only [hi8]; omega) (lo_mem_lt h.1.1.2 hp hq)

theorem ld_lt {f : Mem} {pr : Bool} {n opc : Nat} (h : f.ldwf pr (decide (f.pol < n)) = true) (hn : n ≤ 16) (ho : opc < 0xD0) :
    encMem opc f < 0xD0 * 2 ^ 56 := by
  simp only [Mem.ldwf, Bool.and_eq_true] at h
  have hw := h.1
  simp only [Mem.wf, Bool.and_eq_true, decide_eq_true_eq] at hw
  exact mem_lt h.1 ho (dst_lt h.2) (by omega) (qfLd_lt hw.2)

theorem st_lt {f : Mem} {pr : Bool} {n opc : Nat} (h : f.stwf pr (decide (f.pol < n)) = true) (hn : n ≤ 16) (ho : opc < 0xD0) :
    encMem opc f < 0xD0 * 2 ^ 56 := by
  simp only [Mem.stwf, Bool.and_eq_true] at h
  have hw := h.1
  simp only [Mem.wf, Bool.and_eq_true, decide_eq_true_eq] at hw
  exact mem_lt h.1 ho (src_lt h.2) (by omega) (qfSt_lt hw.2)

/-- A transfer's word (R26). -/
theorem tgt_lt {opc d : Nat} {g : Guard} {t : Target} (h : t.wf = true) (ho : opc < 0xD0) (hg : g.gp < 16) (hd : d < 2048) :
    encC opc g d t < 0xD0 * 2 ^ 56 := by
  cases t <;> simp [Target.wf, sok, encC] at h ⊢
  · exact word_lt ho hg hd (by decide) (by simp only [hi8]; omega) (by decide)
  · exact word_lt ho hg hd (by omega) (by decide) (by decide)

namespace Coded
set_option Elab.async false

/-- A well-formed instruction's word has an opcode below 0xD0 (R36). -/
def Statement (i : Instr) : Prop := i.wf = true → encode i < 0xD0 * 2 ^ 56

theorem add (f : Bin) : Statement (.add f) := fun h => bin_lt h (by decide) (by decide)
theorem addi (f : Imm) : Statement (.addi f) := fun h => imm_lt h (by decide)
theorem sub (f : Bin) : Statement (.sub f) := fun h => bin_lt h (by decide) (by decide)
theorem adds (f : Bin) (dif : Bool) : Statement (.adds f dif) := fun h => bin_lt h (by decide) (by have := flag_le dif; omega)
theorem mul (f : Bin) : Statement (.mul f) := fun h => bin_lt h (by decide) (by decide)
theorem mulhi (f : Bin) : Statement (.mulhi f) := fun h => bin_lt h (by decide) (by decide)
theorem mulw (f : Bin) : Statement (.mulw f) := fun h => bin_lt h (by decide) (by decide)
theorem mad (f : Tri) : Statement (.mad f) := fun h => tri_lt h (by decide)
theorem div (f : Bin) : Statement (.div f) := fun h => bin_lt h (by decide) (by decide)
theorem rem (f : Bin) : Statement (.rem f) := fun h => bin_lt h (by decide) (by decide)
theorem min (f : Bin) : Statement (.min f) := fun h => bin_lt h (by decide) (by decide)
theorem max (f : Bin) : Statement (.max f) := fun h => bin_lt h (by decide) (by decide)
theorem abs (f : Un) : Statement (.abs f) := fun h => un_lt h (by decide) (by decide)
theorem and (f : Bin) : Statement (.and f) := fun h => bin_lt h (by decide) (by decide)
theorem or (f : Bin) : Statement (.or f) := fun h => bin_lt h (by decide) (by decide)
theorem xor (f : Bin) : Statement (.xor f) := fun h => bin_lt h (by decide) (by decide)
theorem not (f : Un) : Statement (.not f) := fun h => un_lt h (by decide) (by decide)
theorem andi (f : Imm) : Statement (.andi f) := fun h => imm_lt h (by decide)
theorem ori (f : Imm) : Statement (.ori f) := fun h => imm_lt h (by decide)
theorem xori (f : Imm) : Statement (.xori f) := fun h => imm_lt h (by decide)
theorem shl (f : Bin) : Statement (.shl f) := fun h => bin_lt h (by decide) (by decide)
theorem shr (f : Bin) : Statement (.shr f) := fun h => bin_lt h (by decide) (by decide)
theorem shli (f : Imm) : Statement (.shli f) := fun h => imm_lt h (by decide)
theorem shri (f : Imm) : Statement (.shri f) := fun h => imm_lt h (by decide)
theorem rot (f : Bin) (right : Bool) : Statement (.rot f right) := fun h => bin_lt h (by decide) (by have := flag_le right; omega)
theorem bfx (f : Tri) : Statement (.bfx f) := fun h => tri_lt h (by decide)
theorem bfi (f : Tri) : Statement (.bfi f) := fun h => tri_lt h (by decide)
theorem popc (f : Un) : Statement (.popc f) := fun h => un_lt h (by decide) (by decide)
theorem clz (f : Un) : Statement (.clz f) := fun h => un_lt h (by decide) (by decide)
theorem brev (f : Un) : Statement (.brev f) := fun h => un_lt h (by decide) (by decide)
theorem cmp (f : CmpF) : Statement (.cmp f) := fun h => by
  simp only [Instr.wf, ccOk, Bool.and_eq_true, decide_eq_true_eq] at h
  exact word_lt (by decide) (guard_lt h.1.1.1.1.1.1) (by omega) (src_lt h.1.2) (src_lt h.2) (loV_lt _ _ _ _ (by omega))
theorem cmpi (f : CmpI) : Statement (.cmpi f) := fun h => by
  have w := h
  simp [Instr.wf, ccOk] at w
  simp only [Instr.wf, Bool.and_eq_true] at h
  exact word_lt (by decide) (guard_lt h.1.1.1.1.1.1) (by omega) (src_lt h.1.2) (by simp only [hi8]; omega) (loV_lt _ _ _ _ (by omega))
theorem plog (f : PlogF) : Statement (.plog f) := fun h => by
  simp [Instr.wf, Guard.wf] at h
  exact word_lt (by decide) (by omega) (by omega) (by omega) (by omega) (by simp [loV]; omega)
theorem sel (f : SelF) : Statement (.sel f) := fun h => by
  have w := h
  simp [Instr.wf] at w
  have := ty_lt f.ty
  simp only [Instr.wf, Bool.and_eq_true] at h
  exact word_lt (by decide) (guard_lt h.1.1.1.1.1) (dst_lt h.1.1.1.2) (src_lt h.1.1.2) (src_lt h.1.2) (by simp only [loC]; omega)
theorem movi (f : Imm0) : Statement (.movi f) := fun h => by
  have w := h
  simp [Instr.wf] at w
  simp only [Instr.wf, Bool.and_eq_true] at h
  exact word_lt (by decide) (guard_lt h.1.1.1.1) (dst_lt h.1.2) (by decide) (by simp only [hi8]; omega) (loV_lt _ _ _ _ (by decide))
theorem lea (f : Bin) (k : Nat) : Statement (.lea f k) := fun h => bin_lt h (by decide) (by simp [Instr.wf, Bin.wf] at h; omega)
theorem ext (f : Un) (e : Nat) : Statement (.ext f e) := fun h => un_lt h (by decide) (by
  simp only [Instr.wf, Un.wf, Bool.and_eq_true] at h
  have := h.1.1.1.2
  revert this
  cases f.ty <;> simp [extOk] <;> omega)
theorem bsel (f : Bin) : Statement (.bsel f) := fun h => bin_lt h (by decide) (by decide)
theorem fadd (f : Bin) (rm : RM) : Statement (.fadd f rm) := fun h => bin_lt h (by decide) (by have := rm_lt rm; omega)
theorem fsub (f : Bin) (rm : RM) : Statement (.fsub f rm) := fun h => bin_lt h (by decide) (by have := rm_lt rm; omega)
theorem fmul (f : Bin) (rm : RM) : Statement (.fmul f rm) := fun h => bin_lt h (by decide) (by have := rm_lt rm; omega)
theorem fma (f : Tri) : Statement (.fma f) := fun h => tri_lt h (by decide)
theorem fmin (f : Bin) : Statement (.fmin f) := fun h => bin_lt h (by decide) (by decide)
theorem fmax (f : Bin) : Statement (.fmax f) := fun h => bin_lt h (by decide) (by decide)
theorem fabs (f : Un) : Statement (.fabs f) := fun h => un_lt h (by decide) (by decide)
theorem fneg (f : Un) : Statement (.fneg f) := fun h => un_lt h (by decide) (by decide)
theorem fdiv (f : Bin) (rm : RM) : Statement (.fdiv f rm) := fun h => bin_lt h (by decide) (by have := rm_lt rm; omega)
theorem fsqrt (f : Un) (rm : RM) : Statement (.fsqrt f rm) := fun h => un_lt h (by decide) (by have := rm_lt rm; omega)
theorem frcp (f : Un) : Statement (.frcp f) := fun h => un_lt h (by decide) (by decide)
theorem frsq (f : Un) : Statement (.frsq f) := fun h => un_lt h (by decide) (by decide)
theorem fexp2 (f : Un) : Statement (.fexp2 f) := fun h => un_lt h (by decide) (by decide)
theorem flog2 (f : Un) : Statement (.flog2 f) := fun h => un_lt h (by decide) (by decide)
theorem fcmp (f : CmpF) : Statement (.fcmp f) := fun h => by
  simp only [Instr.wf, Bool.and_eq_true, decide_eq_true_eq] at h
  exact word_lt (by decide) (guard_lt h.1.1.1.1.1.1) (by omega) (src_lt h.1.2) (src_lt h.2) (loV_lt _ _ _ _ (by omega))
theorem fclass (f : ClassF) : Statement (.fclass f) := fun h => by
  have w := h
  simp [Instr.wf] at w
  simp only [Instr.wf, Bool.and_eq_true] at h
  exact word_lt (by decide) (guard_lt h.1.1.1.1.1) (by omega) (src_lt h.2) (by decide) (loV_lt _ _ _ _ (by omega))
theorem frnd (f : Un) (rm : RM) : Statement (.frnd f rm) := fun h => un_lt h (by decide) (by have := rm_lt rm; omega)
theorem fdot2 (f : Tri) : Statement (.fdot2 f) := fun h => tri_lt h (by decide)
theorem fstatRd (f : Dst) : Statement (.fstatRd f) := fun h => by
  simp only [Instr.wf, Bool.and_eq_true] at h
  exact word_lt (by decide) (guard_lt h.1.1) (dst_lt h.2) (by decide) (by decide) (loV_lt _ _ _ _ (by decide))
theorem fstatClr (f : Un) : Statement (.fstatClr f) := fun h => un_lt h (by decide) (by decide)
theorem cvt (f : CvtF) : Statement (.cvt f) := fun h => by
  simp only [Instr.wf, CvtF.wf, Bool.and_eq_true] at h
  have := ty_lt f.sty
  have := rm_lt f.rm
  have := flag_le f.hi
  have := flag_le f.sat
  exact word_lt (by decide) (guard_lt h.1.1.1.1.1.1.1.1.1) (dst_lt h.1.1.1.1.2) (src_lt h.1.1.1.2) (by decide) (loV_lt _ _ _ _ (by omega))
theorem cvt2 (f : Bin) (rm : RM) : Statement (.cvt2 f rm) := fun h => bin_lt h (by decide) (by have := rm_lt rm; omega)
theorem qds8 (f : Bin) (k : Nat) : Statement (.qds8 f k) := fun h => bin_lt h (by decide) (by simp [Instr.wf, Bin.wf, Bin.plain] at h; omega)
theorem dqds8 (f : Bin) (k : Nat) (rm : RM) : Statement (.dqds8 f k rm) := fun h => bin_lt h (by decide) (by have := rm_lt rm; simp [Instr.wf, Bin.wf, Bin.plain] at h; omega)
theorem escale (f : Un) (k : Nat) : Statement (.escale f k) := fun h => un_lt h (by decide) (by simp [Instr.wf, Un.wf, Un.plain] at h; omega)
theorem rand (f : Bin) : Statement (.rand f) := fun h => bin_lt h (by decide) (by decide)
theorem allot (g : Guard) (m : Nat) : Statement (.allot g m) := fun h => by
  simp [Instr.wf, Guard.wf] at h
  exact word_lt (by decide) (by omega) (by omega) (by omega) (by simp only [hi8]; omega) (by omega)
theorem shrink (g : Guard) (m : Nat) : Statement (.shrink g m) := fun h => by
  simp [Instr.wf, Guard.wf] at h
  exact word_lt (by decide) (by omega) (by omega) (by omega) (by simp only [hi8]; omega) (by omega)
theorem ldw (f : Mem) : Statement (.ldw f) := fun h => by
  have w := h
  simp [Instr.wf, Mem.ldwf, Mem.wf, qfLd] at w
  simp only [Instr.wf, Mem.ldwf, Bool.and_eq_true] at h
  exact mem_lt h.1 (by decide) (dst_lt h.2) (by omega) (by omega)
theorem stw (f : Mem) : Statement (.stw f) := fun h => by
  have w := h
  simp [Instr.wf, Mem.stwf, Mem.wf, qfSt] at w
  simp only [Instr.wf, Mem.stwf, Bool.and_eq_true] at h
  exact mem_lt h.1 (by decide) (src_lt h.2) (by omega) (by omega)
theorem ldi (g : Guard) (d : Opnd) (a : Nat) (b : Opnd) (ty : Ty) : Statement (.ldi g d a b ty) := fun h => by
  have w := h
  simp [Instr.wf] at w
  simp only [Instr.wf, Opnd.isSrcV, Bool.and_eq_true] at h
  exact word_lt (by decide) (guard_lt h.1.1.1.1) (src_lt h.1.1.2.2) (by omega) (src_lt h.2) (loV_lt _ _ _ _ (by decide))
theorem sti (g : Guard) (d : Opnd) (a : Nat) (b : Opnd) (ty : Ty) : Statement (.sti g d a b ty) := fun h => by
  have w := h
  simp [Instr.wf] at w
  simp only [Instr.wf, Bool.and_eq_true] at h
  exact word_lt (by decide) (guard_lt h.1.1.1.1) (src_lt h.1.1.2) (by omega) (src_lt h.2) (loV_lt _ _ _ _ (by decide))
theorem mov (f : Un) : Statement (.mov f) := fun h => by
  simp only [Instr.wf, Bool.and_eq_true] at h
  exact word_lt (by decide) (guard_lt h.1.1.1.1) (dst_lt h.1.2) (src_lt h.2) (by decide) (loV_lt _ _ _ _ (by decide))
theorem perm (g : Guard) (d : Nat) (a : Nat) (b : Opnd) : Statement (.perm g d a b) := fun h => by
  simp only [Instr.wf, Bool.and_eq_true] at h
  have := vok_lt h.1.1.2
  have := vok_lt h.1.2
  exact word_lt (by decide) (guard_lt h.1.1.1) (by omega) (by omega) (src_lt h.2) (loV_lt _ _ _ _ (by decide))
theorem bcast (g : Guard) (d : Opnd) (a : Nat) (b : Opnd) (ty : Ty) : Statement (.bcast g d a b ty) := fun h => by
  simp only [Instr.wf, Bool.and_eq_true] at h
  have := vok_lt h.1.1.2
  exact word_lt (by decide) (guard_lt h.1.1.1.1.1) (dst_lt h.1.1.1.2) (by omega) (src_lt h.2) (loV_lt _ _ _ _ (by decide))
theorem shfl (g : Guard) (d : Nat) (a : Nat) (b : Opnd) (mode : Nat) : Statement (.shfl g d a b mode) := fun h => by
  have w := h
  simp [Instr.wf, vok] at w
  simp only [Instr.wf, Bool.and_eq_true] at h
  exact word_lt (by decide) (guard_lt h.1.1.1.1) (by omega) (by omega) (src_lt h.1.2) (loV_lt _ _ _ _ (by omega))
theorem vote (g : Guard) (d : Nat) (a : Nat) (mode : Nat) : Statement (.vote g d a mode) := fun h => by
  have w := h
  simp [Instr.wf, Guard.wf] at w
  refine word_lt (by decide) (by omega) ?_ (by omega) (by decide) (by omega)
  by_cases hm : mode = 2 <;> simp [hm, sok] at w ⊢ <;> omega
theorem redux (g : Guard) (d : Nat) (a : Nat) (op : Nat) (ty : Ty) (rm : RM) : Statement (.redux g d a op ty rm) := fun h => by
  have w := h
  simp [Instr.wf, sok, Guard.wf] at w
  simp only [Instr.wf, Bool.and_eq_true] at h
  have := vok_lt h.1.2
  have := rm_lt rm
  exact word_lt (by decide) (by omega) (by omega) (by omega) (by decide) (loV_lt _ _ _ _ (by omega))
theorem ld (f : Mem) : Statement (.ld f) := fun h => ld_lt h (by decide) (by decide)
theorem st (f : Mem) : Statement (.st f) := fun h => st_lt h (by decide) (by decide)
theorem stz (f : MemA) : Statement (.stz f) := fun h => by
  have w := h
  simp [Instr.wf, MemA.wf, qfSt] at w
  exact memA_lt h (by decide) (by omega) (by omega)
theorem prefetch (f : MemA) : Statement (.prefetch f) := fun h => by
  have w := h
  simp [Instr.wf, MemA.wf] at w
  exact memA_lt h (by decide) (by omega) (by omega)
theorem cwb (f : MemA) : Statement (.cwb f) := fun h => by
  have w := h
  simp [Instr.wf, MemA.wf] at w
  exact memA_lt h (by decide) (by omega) (by omega)
theorem ldt (f : Mem) : Statement (.ldt f) := fun h => ld_lt h (by decide) (by decide)
theorem stt (f : Mem) : Statement (.stt f) := fun h => st_lt h (by decide) (by decide)
theorem iinv (f : MemA) : Statement (.iinv f) := fun h => by
  have w := h
  simp [Instr.wf, MemA.wf] at w
  exact memA_lt h (by decide) (by omega) (by omega)
theorem ifence (g : Guard) : Statement (.ifence g) := fun h => by
  simp [Instr.wf, Guard.wf] at h
  exact word_lt (by decide) (by omega) (by omega) (by omega) (by omega) (by omega)
theorem atom (f : Mem) : Statement (.atom f) := fun h => by
  have w := h
  simp [Instr.wf, Mem.wf] at w
  simp only [Instr.wf, Bool.and_eq_true] at h
  exact mem_lt h.1 (by decide) (by revert h; cases f.d <;> simp [atomDst, Opnd.code] <;> omega) (by omega) (by omega)
theorem red (f : Mem) : Statement (.red f) := fun h => by
  have w := h
  simp [Instr.wf, Mem.wf] at w
  simp only [Instr.wf, Bool.and_eq_true] at h
  exact mem_lt h.1 (by decide) (src_lt h.2) (by omega) (by omega)
theorem fence (g : Guard) (scope : Nat) : Statement (.fence g scope) := fun h => by
  simp [Instr.wf, Guard.wf] at h
  exact word_lt (by decide) (by omega) (by decide) (by decide) (by decide) (by simp only [loM]; omega)
theorem wait (g : Guard) (ld : Nat) (st : Nat) (cp : Nat) (tl : Nat) : Statement (.wait g ld st cp tl) := fun h => by
  simp [Instr.wf, Guard.wf] at h
  exact word_lt (by decide) (by omega) (by omega) (by omega) (by omega) (by omega)
theorem rtake (f : Mem) : Statement (.rtake f) := fun h => by
  have w := h
  simp [Instr.wf, Mem.wf] at w
  simp only [Instr.wf, Bool.and_eq_true] at h
  exact mem_lt h.1 (by decide) (by simp [Opnd.isSrcV] at h; exact src_lt h.2.2) (by omega) (by omega)
theorem rhead (f : Mem) : Statement (.rhead f) := fun h => by
  have w := h
  simp [Instr.wf, Mem.wf] at w
  simp only [Instr.wf, Bool.and_eq_true] at h
  exact mem_lt h.1 (by decide) (by simp [Opnd.isSrcV] at h; exact src_lt h.2.2) (by omega) (by omega)
theorem tlset (f : Mem) : Statement (.tlset f) := fun h => by
  have w := h
  simp [Instr.wf, Mem.wf] at w
  simp only [Instr.wf, Bool.and_eq_true] at h
  exact mem_lt h.1 (by decide) (src_lt h.2) (by omega) (by omega)
theorem tladd (f : Mem) : Statement (.tladd f) := fun h => by
  have w := h
  simp [Instr.wf, Mem.wf] at w
  simp only [Instr.wf, Bool.and_eq_true] at h
  exact mem_lt h.1 (by decide) (src_lt h.2) (by omega) (by omega)
theorem tlwait (f : Mem) : Statement (.tlwait f) := fun h => by
  have w := h
  simp [Instr.wf, Mem.wf] at w
  simp only [Instr.wf, Bool.and_eq_true] at h
  exact mem_lt h.1 (by decide) (src_lt h.2) (by omega) (by omega)
theorem br (g : Guard) (t : Target) : Statement (.br g t) := fun h => by
  simp only [Instr.wf, Bool.and_eq_true] at h
  exact tgt_lt h.2 (by decide) (guard_lt h.1) (by decide)
theorem call (g : Guard) (t : Target) : Statement (.call g t) := fun h => by
  simp only [Instr.wf, Bool.and_eq_true] at h
  exact tgt_lt h.2 (by decide) (guard_lt h.1) (by decide)
theorem callInd (g : Guard) (a : Opnd) : Statement (.callInd g a) := fun h => by
  simp only [Instr.wf, Bool.and_eq_true] at h
  refine word_lt (by decide) (guard_lt h.1) (by decide) ?_ (by decide) (by decide)
  cases a <;> simp [codeReg, vok, sok, Opnd.code] at h ⊢ <;> omega
theorem ret (g : Guard) : Statement (.ret g) := fun h => by
  simp [Instr.wf, Guard.wf] at h
  exact word_lt (by decide) (by omega) (by omega) (by omega) (by omega) (by omega)
theorem jmpi (g : Guard) (a : Opnd) : Statement (.jmpi g a) := fun h => by
  simp only [Instr.wf, Bool.and_eq_true] at h
  refine word_lt (by decide) (guard_lt h.1) (by decide) ?_ (by decide) (by decide)
  cases a <;> simp [codeReg, vok, sok, Opnd.code] at h ⊢ <;> omega
theorem exit (g : Guard) : Statement (.exit g) := fun h => by
  simp [Instr.wf, Guard.wf] at h
  exact word_lt (by decide) (by omega) (by omega) (by omega) (by omega) (by omega)
theorem fspawn (g : Guard) (d : Nat) (t : Target) : Statement (.fspawn g d t) := fun h => by
  simp only [Instr.wf, Bool.and_eq_true] at h
  have := vok_lt h.1.2
  exact tgt_lt h.2 (by decide) (guard_lt h.1.1) (by omega)
theorem fend (g : Guard) : Statement (.fend g) := fun h => by
  simp [Instr.wf, Guard.wf] at h
  exact word_lt (by decide) (by omega) (by omega) (by omega) (by omega) (by omega)
theorem fsort (g : Guard) (d : Nat) (a : Nat) (b : Nat) : Statement (.fsort g d a b) := fun h => by
  simp [Instr.wf, Guard.wf, Guard.always, vok, sok] at h
  exact word_lt (by decide) (by omega) (by omega) (by omega) (by omega) (by omega)
theorem bar (g : Guard) : Statement (.bar g) := fun h => by
  simp [Instr.wf, Guard.wf] at h
  exact word_lt (by decide) (by omega) (by omega) (by omega) (by omega) (by omega)
theorem barCl (g : Guard) : Statement (.barCl g) := fun h => by
  simp [Instr.wf, Guard.wf] at h
  exact word_lt (by decide) (by omega) (by omega) (by omega) (by omega) (by omega)
theorem yield (g : Guard) : Statement (.yield g) := fun h => by
  simp [Instr.wf, Guard.wf] at h
  exact word_lt (by decide) (by omega) (by omega) (by omega) (by omega) (by omega)
theorem nop (g : Guard) : Statement (.nop g) := fun h => by
  simp [Instr.wf, Guard.wf] at h
  exact word_lt (by decide) (by omega) (by omega) (by omega) (by omega) (by omega)
theorem lfetch (f : Eng) : Statement (.lfetch f) := fun h => by
  simp [Instr.wf, Eng.wf, Guard.wf, sok] at h
  exact word_lt (by decide) (by omega) (by omega) (by omega) (by omega) (by omega)
theorem lcast (f : Eng) : Statement (.lcast f) := fun h => by
  simp [Instr.wf, Eng.wf, Guard.wf, sok] at h
  exact word_lt (by decide) (by omega) (by omega) (by omega) (by omega) (by omega)
theorem lput (f : Eng) : Statement (.lput f) := fun h => by
  simp [Instr.wf, Eng.wf, Guard.wf, sok] at h
  exact word_lt (by decide) (by omega) (by omega) (by omega) (by omega) (by omega)
theorem lcopy (f : Eng) : Statement (.lcopy f) := fun h => by
  simp [Instr.wf, Eng.wf, Guard.wf, sok] at h
  exact word_lt (by decide) (by omega) (by omega) (by omega) (by omega) (by omega)
theorem lpermit (f : Eng) : Statement (.lpermit f) := fun h => by
  simp [Instr.wf, Eng.wf, Guard.wf, sok] at h
  exact word_lt (by decide) (by omega) (by omega) (by omega) (by omega) (by omega)
theorem gmma (f : Eng) : Statement (.gmma f) := fun h => by
  simp [Instr.wf, Eng.wf, Guard.wf, sok] at h
  exact word_lt (by decide) (by omega) (by omega) (by omega) (by omega) (by omega)
theorem gdrain (f : Eng) : Statement (.gdrain f) := fun h => by
  simp [Instr.wf, Eng.wf, Guard.wf, sok] at h
  exact word_lt (by decide) (by omega) (by omega) (by omega) (by omega) (by omega)
theorem gload (f : Eng) : Statement (.gload f) := fun h => by
  simp [Instr.wf, Eng.wf, Guard.wf, sok] at h
  exact word_lt (by decide) (by omega) (by omega) (by omega) (by omega) (by omega)
theorem gzero (f : Eng) : Statement (.gzero f) := fun h => by
  simp [Instr.wf, Eng.wf, Guard.wf, sok] at h
  exact word_lt (by decide) (by omega) (by omega) (by omega) (by omega) (by omega)
theorem gsave (f : EngB) : Statement (.gsave f) := fun h => by
  simp [Instr.wf, EngB.wf, Guard.wf, sok] at h
  exact word_lt (by decide) (by omega) (by omega) (by omega) (by omega) (by omega)
theorem gresume (f : EngB) : Statement (.gresume f) := fun h => by
  simp [Instr.wf, EngB.wf, Guard.wf, sok] at h
  exact word_lt (by decide) (by omega) (by omega) (by omega) (by omega) (by omega)
theorem gstat (f : EngD) : Statement (.gstat f) := fun h => by
  simp [Instr.wf, EngD.wf, Guard.wf, sok] at h
  exact word_lt (by decide) (by omega) (by omega) (by omega) (by omega) (by omega)
theorem cload (f : EngB) : Statement (.cload f) := fun h => by
  simp [Instr.wf, EngB.wf, Guard.wf, sok] at h
  exact word_lt (by decide) (by omega) (by omega) (by omega) (by omega) (by omega)
theorem cstore (f : EngB) : Statement (.cstore f) := fun h => by
  simp [Instr.wf, EngB.wf, Guard.wf, sok] at h
  exact word_lt (by decide) (by omega) (by omega) (by omega) (by omega) (by omega)
theorem cseed (f : Eng) : Statement (.cseed f) := fun h => by
  simp [Instr.wf, Eng.wf, Guard.wf, sok] at h
  exact word_lt (by decide) (by omega) (by omega) (by omega) (by omega) (by omega)
theorem ctab (f : Eng) : Statement (.ctab f) := fun h => by
  simp [Instr.wf, Eng.wf, Guard.wf, sok] at h
  exact word_lt (by decide) (by omega) (by omega) (by omega) (by omega) (by omega)
theorem cinfer (g : Guard) (d : Nat) (a : Nat) (mask : Nat) : Statement (.cinfer g d a mask) := fun h => by
  simp [Instr.wf, Guard.wf, vok] at h
  exact word_lt (by decide) (by omega) (by omega) (by omega) (by omega) (by omega)
theorem cvote (g : Guard) (d : Nat) (a : Nat) (mask : Nat) : Statement (.cvote g d a mask) := fun h => by
  simp [Instr.wf, Guard.wf, vok] at h
  exact word_lt (by decide) (by omega) (by omega) (by omega) (by omega) (by omega)
theorem ctrain (g : Guard) (a : Nat) (b : Nat) (mask : Nat) (set : Nat) (sall : Bool) : Statement (.ctrain g a b mask set sall) := fun h => by
  have := flag_le sall
  simp [Instr.wf, Guard.wf, vok] at h
  exact word_lt (by decide) (by omega) (by decide) (by omega) (by omega) (by omega)
theorem cfb (g : Guard) (a : Nat) (b : Nat) (set : Nat) (k : Nat) (two : Bool) : Statement (.cfb g a b set k two) := fun h => by
  have := flag_le two
  simp [Instr.wf, Guard.wf, vok] at h
  exact word_lt (by decide) (by omega) (by decide) (by omega) (by omega) (by omega)
theorem ensure (g : Guard) (t : Target) (d : Nat) : Statement (.ensure g t d) := fun h => by
  simp only [Instr.wf, Bool.and_eq_true] at h
  have := sok_lt h.2
  exact tgt_lt h.1.2 (by decide) (guard_lt h.1.1.1) (by omega)
theorem accept (g : Guard) (a : Nat) : Statement (.accept g a) := fun h => by
  simp [Instr.wf, Guard.wf, Guard.always] at h
  exact word_lt (by decide) (by omega) (by omega) (by omega) (by omega) (by omega)
theorem elseby (g : Guard) (t : Target) : Statement (.elseby g t) := fun h => by
  simp only [Instr.wf, Bool.and_eq_true] at h
  exact tgt_lt h.2 (by decide) (guard_lt h.1.1) (by decide)
theorem elseerr (g : Guard) : Statement (.elseerr g) := fun h => by
  simp [Instr.wf, Guard.wf, Guard.always] at h
  exact word_lt (by decide) (by omega) (by omega) (by omega) (by omega) (by omega)
theorem jtest (g : Guard) : Statement (.jtest g) := fun h => by
  simp [Instr.wf, Guard.wf, Guard.always] at h
  exact word_lt (by decide) (by omega) (by omega) (by omega) (by omega) (by omega)
theorem cjoin (f : Eng) : Statement (.cjoin f) := fun h => by
  simp [Instr.wf, Eng.wf, Guard.wf, Guard.always, sok] at h
  exact word_lt (by decide) (by omega) (by omega) (by omega) (by omega) (by omega)
theorem frq (g : Guard) (d : Nat) : Statement (.frq g d) := fun h => by
  simp [Instr.wf, Guard.wf, vok] at h
  exact word_lt (by decide) (by omega) (by omega) (by omega) (by omega) (by omega)
theorem tkpost (f : Eng) : Statement (.tkpost f) := fun h => by
  simp [Instr.wf, Eng.wf, Guard.wf, sok] at h
  exact word_lt (by decide) (by omega) (by omega) (by omega) (by omega) (by omega)
theorem launch (g : Guard) (d : Option Nat) (a : Nat) : Statement (.launch g d a) := fun h => by
  simp only [Instr.wf, Bool.and_eq_true] at h
  have := sok_lt h.1.2
  refine word_lt (by decide) (guard_lt h.1.1) ?_ (by omega) (by decide) (by decide)
  cases d with
  | none => decide
  | some n => have := sok_lt h.2; show 1536 + n < 2048; omega
theorem dsync (g : Guard) : Statement (.dsync g) := fun h => by
  simp [Instr.wf, Guard.wf] at h
  exact word_lt (by decide) (by omega) (by omega) (by omega) (by omega) (by omega)
theorem await (f : Eng) : Statement (.await f) := fun h => by
  simp [Instr.wf, Eng.wf, Guard.wf, sok] at h
  exact word_lt (by decide) (by omega) (by omega) (by omega) (by omega) (by omega)
theorem msend (f : EngD) : Statement (.msend f) := fun h => by
  simp [Instr.wf, EngD.wf, Guard.wf, sok] at h
  exact word_lt (by decide) (by omega) (by omega) (by omega) (by omega) (by omega)
theorem mrecv (f : Eng) : Statement (.mrecv f) := fun h => by
  simp [Instr.wf, Eng.wf, Guard.wf, sok] at h
  exact word_lt (by decide) (by omega) (by omega) (by omega) (by omega) (by omega)
theorem mpoll (f : EngD) : Statement (.mpoll f) := fun h => by
  simp [Instr.wf, EngD.wf, Guard.wf, sok] at h
  exact word_lt (by decide) (by omega) (by omega) (by omega) (by omega) (by omega)
theorem pverInc (g : Guard) (d : Nat) : Statement (.pverInc g d) := fun h => by
  simp [Instr.wf, Guard.wf, sok] at h
  exact word_lt (by decide) (by omega) (by omega) (by omega) (by omega) (by omega)
theorem pverRd (g : Guard) (d : Nat) : Statement (.pverRd g d) := fun h => by
  simp [Instr.wf, Guard.wf, sok] at h
  exact word_lt (by decide) (by omega) (by omega) (by omega) (by omega) (by omega)
theorem trap (g : Guard) (imm : Nat) : Statement (.trap g imm) := fun h => by
  simp [Instr.wf, Guard.wf] at h
  exact word_lt (by decide) (by omega) (by omega) (by omega) (by simp only [hi8]; omega) (by omega)
theorem srd (g : Guard) (d : Nat) (sel : Nat) : Statement (.srd g d sel) := fun h => by
  simp [Instr.wf, Guard.wf, sok] at h
  exact word_lt (by decide) (by omega) (by omega) (by omega) (by omega) (by omega)
theorem swr (g : Guard) (a : Nat) (sel : Nat) : Statement (.swr g a sel) := fun h => by
  simp [Instr.wf, Guard.wf, sok] at h
  exact word_lt (by decide) (by omega) (by omega) (by omega) (by omega) (by omega)
theorem ctxq (g : Guard) (d : Nat) (a : Nat) (b : Nat) : Statement (.ctxq g d a b) := fun h => by
  simp [Instr.wf, Guard.wf, vok, sok] at h
  exact word_lt (by decide) (by omega) (by omega) (by omega) (by omega) (by omega)
theorem hostLaunch (ctx : Nat) : Statement (.hostLaunch ctx) := fun h => absurd h (by simp [Instr.wf])
theorem translationInvalidate (ctx : Nat) : Statement (.translationInvalidate ctx) := fun h => absurd h (by simp [Instr.wf])
theorem unpin (ctx : Nat) : Statement (.unpin ctx) := fun h => absurd h (by simp [Instr.wf])
theorem resume (ctx : Nat) : Statement (.resume ctx) := fun h => absurd h (by simp [Instr.wf])
theorem cancel (ctx : Nat) : Statement (.cancel ctx) := fun h => absurd h (by simp [Instr.wf])
theorem episodeStart (ctx : Nat) : Statement (.episodeStart ctx) := fun h => absurd h (by simp [Instr.wf])
theorem episodeKill (ctx : Nat) : Statement (.episodeKill ctx) := fun h => absurd h (by simp [Instr.wf])
theorem collective (ctx : Nat) : Statement (.collective ctx) := fun h => absurd h (by simp [Instr.wf])
theorem registerWrite (fn : Nat) (win : Win) (off : Nat) (val : Nat) : Statement (.registerWrite fn win off val) := fun h => absurd h (by simp [Instr.wf])
theorem erbStatusClear (unit : Nat) (val : Nat) : Statement (.erbStatusClear unit val) := fun h => absurd h (by simp [Instr.wf])
theorem dramcActstatClear (stack : Nat) (val : Nat) : Statement (.dramcActstatClear stack val) := fun h => absurd h (by simp [Instr.wf])
theorem evqLostClear (fn : Nat) (ctx : Nat) (q : Nat) (val : Nat) : Statement (.evqLostClear fn ctx q val) := fun h => absurd h (by simp [Instr.wf])
theorem onyxAlarmClear (val : Nat) : Statement (.onyxAlarmClear val) := fun h => absurd h (by simp [Instr.wf])
theorem tureenSlcfgWrite (slice : Nat) (val : Nat) : Statement (.tureenSlcfgWrite slice val) := fun h => absurd h (by simp [Instr.wf])
theorem coreDccfgWrite (core : Nat) (val : Nat) : Statement (.coreDccfgWrite core val) := fun h => absurd h (by simp [Instr.wf])
theorem berylEnvcfgWrite (val : Nat) : Statement (.berylEnvcfgWrite val) := fun h => absurd h (by simp [Instr.wf])
theorem cqTailWrite (fn : Nat) (ctx : Nat) (q : Nat) (val : Nat) : Statement (.cqTailWrite fn ctx q val) := fun h => absurd h (by simp [Instr.wf])
theorem attestation (nonce : Nat) : Statement (.attestation nonce) := fun h => absurd h (by simp [Instr.wf])
theorem imageLoad (kind : Nat) (ecdsaOk : Bool) (lmsOk : Bool) (hash : Nat) (codes : List Nat) : Statement (.imageLoad kind ecdsaOk lmsOk hash codes) := fun h => absurd h (by simp [Instr.wf])
theorem hostRead (fn : Nat) (ctx : Nat) (ptr : Nat) (n : Nat) : Statement (.hostRead fn ctx ptr n) := fun h => absurd h (by simp [Instr.wf])
theorem hostWrite (fn : Nat) (ctx : Nat) (ptr : Nat) (bytes : List Byte) : Statement (.hostWrite fn ctx ptr bytes) := fun h => absurd h (by simp [Instr.wf])
theorem peerWrite (port : Nat) (pa : Nat) (bytes : List Byte) : Statement (.peerWrite port pa bytes) := fun h => absurd h (by simp [Instr.wf])
theorem pageMapped (ctx : Nat) (va : Nat) : Statement (.pageMapped ctx va) := fun h => absurd h (by simp [Instr.wf])
theorem pageInvalid (ctx : Nat) (va : Nat) : Statement (.pageInvalid ctx va) := fun h => absurd h (by simp [Instr.wf])
theorem sideLogEntryFree (core : Nat) : Statement (.sideLogEntryFree core) := fun h => absurd h (by simp [Instr.wf])
theorem blockPlace (uid : Nat) (first : Nat) : Statement (.blockPlace uid first) := fun h => absurd h (by simp [Instr.wf])
theorem placementDone (uid : Nat) : Statement (.placementDone uid) := fun h => absurd h (by simp [Instr.wf])
theorem preempt (uid : Nat) : Statement (.preempt uid) := fun h => absurd h (by simp [Instr.wf])
theorem awaitSave (uid : Nat) : Statement (.awaitSave uid) := fun h => absurd h (by simp [Instr.wf])
theorem blockRetire (uid : Nat) : Statement (.blockRetire uid) := fun h => absurd h (by simp [Instr.wf])
theorem blockFreeze (uid : Nat) : Statement (.blockFreeze uid) := fun h => absurd h (by simp [Instr.wf])
theorem cpCancel (uid : Nat) : Statement (.cpCancel uid) := fun h => absurd h (by simp [Instr.wf])
theorem faultReportAfterIssue (uid : Nat) : Statement (.faultReportAfterIssue uid) := fun h => absurd h (by simp [Instr.wf])
theorem launchEnd (lid : Nat) : Statement (.launchEnd lid) := fun h => absurd h (by simp [Instr.wf])
theorem taskStart (uid : Nat) : Statement (.taskStart uid) := fun h => absurd h (by simp [Instr.wf])
theorem taskComplete (uid : Nat) : Statement (.taskComplete uid) := fun h => absurd h (by simp [Instr.wf])
theorem renameWriteback (uid : Nat) : Statement (.renameWriteback uid) := fun h => absurd h (by simp [Instr.wf])
theorem queueBalance (quad : Nat) (idx : Nat) : Statement (.queueBalance quad idx) := fun h => absurd h (by simp [Instr.wf])
theorem allotGrant (core : Nat) : Statement (.allotGrant core) := fun h => absurd h (by simp [Instr.wf])
theorem shrinkRelease (uid : Nat) (grp : Nat) : Statement (.shrinkRelease uid grp) := fun h => absurd h (by simp [Instr.wf])
theorem barrierTimeout (uid : Nat) : Statement (.barrierTimeout uid) := fun h => absurd h (by simp [Instr.wf])
theorem cycleLimitExpiry (uid : Nat) : Statement (.cycleLimitExpiry uid) := fun h => absurd h (by simp [Instr.wf])
theorem cycbudExpiry (uid : Nat) : Statement (.cycbudExpiry uid) := fun h => absurd h (by simp [Instr.wf])
theorem demotionEnd (k : Nat) : Statement (.demotionEnd k) := fun h => absurd h (by simp [Instr.wf])
theorem reconvergenceTimeout (k : Nat) : Statement (.reconvergenceTimeout k) := fun h => absurd h (by simp [Instr.wf])
theorem bundleMerge (k : Nat) (j : Nat) : Statement (.bundleMerge k j) := fun h => absurd h (by simp [Instr.wf])
theorem starvationPromotion (k : Nat) : Statement (.starvationPromotion k) := fun h => absurd h (by simp [Instr.wf])
theorem ladleDelivery (cmd : Nat) (core : Nat) : Statement (.ladleDelivery cmd core) := fun h => absurd h (by simp [Instr.wf])
theorem ladleComplete (cmd : Nat) : Statement (.ladleComplete cmd) := fun h => absurd h (by simp [Instr.wf])
theorem griddleOpStart (cmd : Nat) : Statement (.griddleOpStart cmd) := fun h => absurd h (by simp [Instr.wf])
theorem griddleOpComplete (cmd : Nat) : Statement (.griddleOpComplete cmd) := fun h => absurd h (by simp [Instr.wf])
theorem jasperOpApply (core : Nat) : Statement (.jasperOpApply core) := fun h => absurd h (by simp [Instr.wf])
theorem silentError (uid : Nat) (src : ErrSite) (addr : Nat) (synd : Nat) : Statement (.silentError uid src addr synd) := fun h => absurd h (by simp [Instr.wf])
theorem frameFail (uid : Nat) : Statement (.frameFail uid) := fun h => absurd h (by simp [Instr.wf])
theorem convVoteApply (uid : Nat) : Statement (.convVoteApply uid) := fun h => absurd h (by simp [Instr.wf])
theorem convNotice (uid : Nat) : Statement (.convNotice uid) := fun h => absurd h (by simp [Instr.wf])
theorem vtoExpiry (pa : Nat) : Statement (.vtoExpiry pa) := fun h => absurd h (by simp [Instr.wf])
theorem msendApply (op : Nat) : Statement (.msendApply op) := fun h => absurd h (by simp [Instr.wf])
theorem mrecvDelivery (op : Nat) (lane : Nat) : Statement (.mrecvDelivery op lane) := fun h => absurd h (by simp [Instr.wf])
theorem bmbTake (mbx : Nat) : Statement (.bmbTake mbx) := fun h => absurd h (by simp [Instr.wf])
theorem bmbGive (mbx : Nat) (val : Nat) (hdr : Nat) (payload : List (Nat × Byte)) : Statement (.bmbGive mbx val hdr payload) := fun h => absurd h (by simp [Instr.wf])
theorem episodeRecordWrite (mbx : Nat) (rec : Nat) : Statement (.episodeRecordWrite mbx rec) := fun h => absurd h (by simp [Instr.wf])
theorem episodeViolation (mbx : Nat) (src : Nat) (addr : Nat) (synd : Nat) : Statement (.episodeViolation mbx src addr synd) := fun h => absurd h (by simp [Instr.wf])
theorem watchdogExpiry (mbx : Nat) (cycles : Nat) : Statement (.watchdogExpiry mbx cycles) := fun h => absurd h (by simp [Instr.wf])
theorem episodeCycbudIdle (mbx : Nat) (cycles : Nat) : Statement (.episodeCycbudIdle mbx cycles) := fun h => absurd h (by simp [Instr.wf])
theorem episodeStop (mbx : Nat) : Statement (.episodeStop mbx) := fun h => absurd h (by simp [Instr.wf])
theorem rowAlert (stack : Nat) (bank : Nat) : Statement (.rowAlert stack bank) := fun h => absurd h (by simp [Instr.wf])
theorem backoffEnd (stack : Nat) (bank : Nat) (clocks : Nat) : Statement (.backoffEnd stack bank clocks) := fun h => absurd h (by simp [Instr.wf])
theorem flitReplay (port : Nat) (sq : Nat) (crc : Nat) : Statement (.flitReplay port sq crc) := fun h => absurd h (by simp [Instr.wf])
theorem linkRetrain (port : Nat) (ok : Bool) : Statement (.linkRetrain port ok) := fun h => absurd h (by simp [Instr.wf])
theorem verificationFailure : Statement (.verificationFailure) := fun h => absurd h (by simp [Instr.wf])
theorem glitch : Statement (.glitch) := fun h => absurd h (by simp [Instr.wf])
theorem tamperBreach : Statement (.tamperBreach) := fun h => absurd h (by simp [Instr.wf])
theorem functionReady (bit : Nat) (cores : Nat) : Statement (.functionReady bit cores) := fun h => absurd h (by simp [Instr.wf])
theorem stackTrainingFail (stack : Nat) : Statement (.stackTrainingFail stack) := fun h => absurd h (by simp [Instr.wf])
theorem deviceReset : Statement (.deviceReset) := fun h => absurd h (by simp [Instr.wf])
theorem thermalThrottle (die : Nat) (temp : Nat) : Statement (.thermalThrottle die temp) := fun h => absurd h (by simp [Instr.wf])
theorem accessPerformed (op : Nat) (lane : Nat) : Statement (.accessPerformed op lane) := fun h => absurd h (by simp [Instr.wf])
theorem loadReturned (op : Nat) (lane : Nat) : Statement (.loadReturned op lane) := fun h => absurd h (by simp [Instr.wf])
theorem writeCompletionTimePassed (op : Nat) : Statement (.writeCompletionTimePassed op) := fun h => absurd h (by simp [Instr.wf])
theorem policyVersionApply (op : Nat) : Statement (.policyVersionApply op) := fun h => absurd h (by simp [Instr.wf])
theorem peerRead (port : Nat) (pa : Nat) (n : Nat) : Statement (.peerRead port pa n) := fun h => absurd h (by simp [Instr.wf])
theorem collectiveComplete (id : Nat) (reachable : Bool) (contribs : List (List Byte)) : Statement (.collectiveComplete id reachable contribs) := fun h => absurd h (by simp [Instr.wf])
theorem contextCreation (ctx : Nat) : Statement (.contextCreation ctx) := fun h => absurd h (by simp [Instr.wf])

end Coded

end Sys2Proof.Laws
end

