-- ==== Sys2Proof/Laws/Registers.lean ====
section
/-!
SUPPORT. Registers, fibres, blocks and faults: what a read gives after a write, outside recovery frames, and everything that taking a fault
can do.
-/
namespace Sys2Proof.Machine
set_option Elab.async false

/-! ### Lists with one entry replaced -/

theorem find?_updFirst {α : Type} (p : α → Bool) (f : α → α) (l : List α) (hf : ∀ x, p (f x) = p x) :
    (updFirst p f l).find? p = (l.find? p).map f := by
  induction l with
  | nil => rfl
  | cons x l ih =>
    by_cases h : p x = true
    · simp [updFirst, h, hf]
    · simp [updFirst, h, ih]

theorem find?_updFirst_of_other {α : Type} (p q : α → Bool) (f : α → α) (l : List α) (hf : ∀ x, p x = true → q (f x) = q x)
    (hne : ∀ x, p x = true → q x = false) : (updFirst p f l).find? q = l.find? q := by
  induction l with
  | nil => rfl
  | cons x l ih =>
    by_cases h : p x = true
    · simp [updFirst, h, hf x h, hne x h]
    · by_cases hq : q x = true <;> simp [updFirst, h, hq, ih]

/-- A block after an update of a block. -/
theorem block?_updBlock (s : State) (bk k : Nat) (f : Block → Block) (hf : ∀ b, (f b).uid = b.uid) :
    (s.updBlock bk f).block? k = if k = bk then (s.block? bk).map f else s.block? k := by
  unfold State.block? State.updBlock
  by_cases h : k = bk
  · subst h; rw [if_pos rfl]; exact find?_updFirst _ _ _ (fun b => by simp [hf])
  · rw [if_neg h]
    refine find?_updFirst_of_other _ _ _ _ (fun b _ => by simp [hf]) (fun b hb => ?_)
    have := eq_of_beq hb
    simp only [beq_eq_false_iff_ne]
    omega

/-! ### Fibres -/

@[simp] theorem fib_putFib (s : State) (fk k : Nat) (x : Fibre) : (s.putFib fk x).fib k = if k = fk then some x else s.fib k := by
  simp [State.fib, State.putFib]

@[simp] theorem fib_dropFib (s : State) (fk k : Nat) : (s.dropFib fk).fib k = if k = fk then none else s.fib k := by
  simp [State.fib, State.dropFib]

@[simp] theorem fib_updFib (s : State) (fk k : Nat) (f : Fibre → Fibre) :
    (s.updFib fk f).fib k = if k = fk then (s.fib fk).map f else s.fib k := by
  unfold State.updFib
  cases h : s.fib fk with
  | some x => simp
  | none => by_cases hk : k = fk <;> simp [hk, h]

theorem fib_advance (s : State) (fk k : Nat) : (s.advance fk).fib k = if k = fk then (s.fib fk).map Fibre.adv else s.fib k :=
  fib_updFib s fk k Fibre.adv

/-- Updating a fibre changes nothing of the register store but fibres. -/
@[simp] theorem updFib_vregs (s : State) (fk : Nat) (f : Fibre → Fibre) : (s.updFib fk f).rs.vregs = s.rs.vregs := by
  unfold State.updFib; split <;> rfl
@[simp] theorem updFib_vpoison (s : State) (fk : Nat) (f : Fibre → Fibre) : (s.updFib fk f).rs.vpoison = s.rs.vpoison := by
  unfold State.updFib; split <;> rfl
@[simp] theorem updFib_fe (s : State) (fk : Nat) (f : Fibre → Fibre) : (s.updFib fk f).rs.fe = s.rs.fe := by
  unfold State.updFib; split <;> rfl
@[simp] theorem updFib_uregs (s : State) (fk : Nat) (f : Fibre → Fibre) : (s.updFib fk f).rs.uregs = s.rs.uregs := by
  unfold State.updFib; split <;> rfl
@[simp] theorem updFib_upoison (s : State) (fk : Nat) (f : Fibre → Fibre) : (s.updFib fk f).rs.upoison = s.rs.upoison := by
  unfold State.updFib; split <;> rfl

/-! ### Bits -/

theorem bit_eq (x i : Nat) : bit x i = x.testBit i := by
  rw [Nat.testBit_eq_decide_div_mod_eq]; rfl

theorem bit_setBit (x i j : Nat) (b : Bool) : bit (setBit x i b) j = if j = i then b else bit x j := by
  have hb : b2n b = b.toNat := by cases b <;> rfl
  have hn : setBit x i b = x % 2 ^ i + b.toNat * 2 ^ i + x / 2 ^ (i + 1) * 2 ^ (i + 1) := by
    have : b.toNat % 2 ^ 1 = b.toNat := by cases b <;> rfl
    simp only [setBit, setBits, hb, this]
  have hlow : x % 2 ^ i < 2 ^ i := Nat.mod_lt _ (Nat.two_pow_pos i)
  have hmid : x % 2 ^ i + b.toNat * 2 ^ i < 2 ^ (i + 1) := by
    rw [pow_succ]; cases b <;> simp <;> omega
  rw [bit_eq, bit_eq, hn]
  rcases Nat.lt_trichotomy j i with h | rfl | h
  · rw [if_neg (by omega)]
    have e : x % 2 ^ i + b.toNat * 2 ^ i + x / 2 ^ (i + 1) * 2 ^ (i + 1) = 2 ^ i * (b.toNat + x / 2 ^ (i + 1) * 2) + x % 2 ^ i := by ring
    rw [e, Nat.testBit_two_pow_mul_add _ hlow, if_pos h, Nat.testBit_mod_two_pow]; simp [h]
  · rw [if_pos rfl]
    have e : x % 2 ^ j + b.toNat * 2 ^ j + x / 2 ^ (j + 1) * 2 ^ (j + 1) = 2 ^ j * (b.toNat + x / 2 ^ (j + 1) * 2) + x % 2 ^ j := by ring
    rw [e, Nat.testBit_two_pow_mul_add _ hlow, if_neg (by omega), Nat.sub_self, Nat.testBit_zero]
    cases b <;> simp
  · rw [if_neg (by omega)]
    have e : x % 2 ^ i + b.toNat * 2 ^ i + x / 2 ^ (i + 1) * 2 ^ (i + 1) = 2 ^ (i + 1) * (x / 2 ^ (i + 1)) + (x % 2 ^ i + b.toNat * 2 ^ i) := by ring
    rw [e, Nat.testBit_two_pow_mul_add _ hmid, if_neg (by omega), Nat.testBit_div_two_pow]
    congr 1; omega

/-! ### Registers outside frames -/

theorem rkOf_inj {bk g r bk' g' r' : Nat} (hg : g < 128) (hg' : g' < 128) (hr : r < 1536) (hr' : r' < 1536) :
    rkOf bk g r = rkOf bk' g' r' ↔ bk = bk' ∧ g = g' ∧ r = r' := by unfold rkOf; omega

theorem ukOf_inj {bk g n bk' g' n' : Nat} (hg : g < 128) (hg' : g' < 128) (hn : n < 96) (hn' : n' < 96) :
    ukOf bk g n = ukOf bk' g' n' ↔ bk = bk' ∧ g = g' ∧ n = n' := by unfold ukOf; omega

/-- Outside every frame nothing is saved before a write (R315). -/
theorem record_frameless {s : State} {bk : Nat} {b : Block} (hb : s.block? bk = some b) (hf : b.frames = []) (g : Nat) (item : Item) :
    s.record bk g item = some s := by
  simp only [State.record, hb, hf]

theorem setVP_frameless {s : State} {bk : Nat} {b : Block} (hb : s.block? bk = some b) (hf : b.frames = []) (w : Who) (g r l v : Nat) (p : Bool) :
    s.setVP w bk g r l v p =
      ({ s with rs := (s.rs.putLane (rkOf bk g r) l v).putPoison (rkOf bk g r) l p } : State).updFib w.fk (Fibre.liveV r) := by
  simp only [State.setVP, record_frameless hb hf]

theorem setUP_frameless {s : State} {bk : Nat} {b : Block} (hb : s.block? bk = some b) (hf : b.frames = []) (w : Who) (g n v : Nat) (p : Bool) :
    s.setUP w bk g n v p = ({ s with rs := s.rs.putU (ukOf bk g n) v p } : State).updFib w.fk (Fibre.liveU n) := by
  simp only [State.setUP, record_frameless hb hf]

theorem setP_frameless {s : State} {fk : Nat} {b : Block} (hb : s.block? (fkBk fk) = some b) (hf : b.frames = []) (w : Who) (p : Nat) (v : Bool)
    (hp : p ≠ 15) : s.setP w fk p v = s.updFib fk fun f => f.setPred p v := by
  simp only [State.setP, record_frameless hb hf, hp, if_false]

theorem orGsw_frameless {s : State} {bk : Nat} {b : Block} (hb : s.block? bk = some b) (hf : b.frames = []) (w : Who) (g fl : Nat) (h : fl ≠ 0) :
    s.orGsw w bk g fl = s.updGroup bk g fun gr => { gr with gsw := gr.gsw ||| BitVec.ofNat 32 fl } := by
  simp only [State.orGsw, record_frameless hb hf, h, if_false]

@[simp] theorem setP_discarded (s : State) (w : Who) (fk : Nat) (v : Bool) : s.setP w fk 15 v = s := by simp [State.setP]
@[simp] theorem orGsw_zero (s : State) (w : Who) (bk g : Nat) : s.orGsw w bk g 0 = s := by simp [State.orGsw]

/-- A lane word after a write of a lane word. -/
theorem vraw_setVP {s : State} {bk : Nat} {b : Block} (hb : s.block? bk = some b) (hf : b.frames = []) (w : Who) (g r l v : Nat) (p : Bool)
    (k h q m : Nat) : (s.setVP w bk g r l v p).vraw k h q m =
      if rkOf k h q = rkOf bk g r ∧ m = l then v % 2 ^ 32 else s.vraw k h q m := by
  rw [setVP_frameless hb hf]
  simp only [State.vraw, updFib_vregs, RegSt.putPoison_vregs, RegSt.putLane, sget_sset]
  by_cases hk : rkOf k h q = rkOf bk g r <;> by_cases hm : m = l <;> simp [hk, hm]

/-- A poison mark after a write of a lane word. -/
theorem vpois_setVP {s : State} {bk : Nat} {b : Block} (hb : s.block? bk = some b) (hf : b.frames = []) (w : Who) (g r l v : Nat) (p : Bool)
    (k h q m : Nat) : (s.setVP w bk g r l v p).vpois k h q m =
      if rkOf k h q = rkOf bk g r ∧ m = l then p else s.vpois k h q m := by
  rw [setVP_frameless hb hf]
  simp only [State.vpois, updFib_vpoison, RegSt.putPoison, RegSt.putLane, sget_sset]
  by_cases hk : rkOf k h q = rkOf bk g r
  · by_cases hm : m = l <;> simp [hk, hm, bit_setBit]
  · simp [hk]

/-- A uniform register after a write of one. -/
theorem uraw_setUP {s : State} {bk : Nat} {b : Block} (hb : s.block? bk = some b) (hf : b.frames = []) (w : Who) (g n v : Nat) (p : Bool)
    (k h q : Nat) : (s.setUP w bk g n v p).uraw k h q = if ukOf k h q = ukOf bk g n then v % 2 ^ 64 else s.uraw k h q := by
  rw [setUP_frameless hb hf]
  simp only [State.uraw, updFib_uregs, RegSt.putU, sget_sset]
  by_cases hk : ukOf k h q = ukOf bk g n <;> simp [hk]

/-- Predicates after a write of one; p15 reads true (R14). -/
theorem pred_setPred (x : Fibre) (p q : Nat) (v : Bool) (hp : p < 15) (hq : q < 16) :
    (x.setPred p v).pred q = if q = p then v else x.pred q := by
  unfold Fibre.setPred Fibre.pred
  rw [if_neg (by omega)]
  by_cases h15 : q = 15
  · subst h15; rw [if_neg (by omega)]; simp
  · have hb := bit_setBit x.preds.toNat p q v
    rw [bit_eq, bit_eq] at hb
    rw [BitVec.getLsbD_ofNat, hb]
    simp [hq, BitVec.getLsbD, beq_eq_false_iff_ne.2 h15]

/-! ### Taking a fault -/

/-- Everything that taking a fault of a block may change: blocks, launches, votes still to be applied, and the count of free values. -/
structure FaultFrame (s t : State) : Prop where
  tick : t.tick = s.tick
  seq : t.seq = s.seq
  agenda : t.agenda = s.agenda
  ch : t.ch = s.ch
  cur : t.cur = s.cur
  ipc : t.ipc = s.ipc
  bundles : t.bundles = s.bundles
  mem : t.mem = s.mem
  rs : t.rs = s.rs
  ops : t.ops = s.ops
  cmds : t.cmds = s.cmds
  eng : t.eng = s.eng
  host : t.host = s.host
  others : ∃ v, t.hub = { s.hub with votes := v }

theorem FaultFrame.refl (s : State) : FaultFrame s s := ⟨rfl, rfl, rfl, rfl, rfl, rfl, rfl, rfl, rfl, rfl, rfl, rfl, rfl, _, rfl⟩

theorem FaultFrame.trans {s t u : State} (h : FaultFrame s t) (k : FaultFrame t u) : FaultFrame s u := by
  obtain ⟨v, hv⟩ := h.others
  obtain ⟨w, hw⟩ := k.others
  exact ⟨k.tick.trans h.tick, k.seq.trans h.seq, k.agenda.trans h.agenda, k.ch.trans h.ch, k.cur.trans h.cur, k.ipc.trans h.ipc,
    k.bundles.trans h.bundles, k.mem.trans h.mem, k.rs.trans h.rs, k.ops.trans h.ops, k.cmds.trans h.cmds, k.eng.trans h.eng,
    k.host.trans h.host, w, by rw [hw, hv]⟩

theorem named_frame (s : State) (r : FaultRec) : FaultFrame s (s.named r).2 := by
  unfold State.named
  split <;> exact ⟨rfl, rfl, rfl, rfl, rfl, rfl, rfl, rfl, rfl, rfl, rfl, rfl, rfl, _, rfl⟩

theorem startFreeze_frame (s : State) (bk : Nat) (r : FaultRec) : FaultFrame s (s.startFreeze bk r) := by
  unfold State.startFreeze
  split <;> exact ⟨rfl, rfl, rfl, rfl, rfl, rfl, rfl, rfl, rfl, rfl, rfl, rfl, rfl, _, rfl⟩

theorem failFrame_frame (s : State) (bk d : Nat) (r : FaultRec) : FaultFrame s (s.failFrame bk d r) := by
  unfold State.failFrame
  split <;> exact ⟨rfl, rfl, rfl, rfl, rfl, rfl, rfl, rfl, rfl, rfl, rfl, rfl, rfl, _, rfl⟩

theorem pend_frame (s : State) (bk : Nat) (r : FaultRec) (key : Nat) : FaultFrame s (s.pend bk r key) :=
  (named_frame s r).trans ⟨rfl, rfl, rfl, rfl, rfl, rfl, rfl, rfl, rfl, rfl, rfl, rfl, rfl, _, rfl⟩

theorem takeFault_frame (s : State) (bk : Nat) (r : FaultRec) : FaultFrame s (s.takeFault bk r) := by
  unfold State.takeFault
  split
  · exact .refl s
  · split
    · exact .refl s
    · split
      · exact pend_frame _ _ _ _
      · unfold State.raiseFault
        split
        · exact .refl s
        · dsimp only
          split
          · exact (named_frame s r).trans (startFreeze_frame _ _ _)
          · exact (named_frame s r).trans (failFrame_frame _ _ _ _)

/-- Outside every frame a fault of a running block stops it to freeze, with the fault as its record (R334). -/
theorem takeFault_freezes {s : State} {bk : Nat} {b : Block} (hb : s.block? bk = some b) (hr : b.running = true) (hf : b.frames = [])
    (he : s.entering bk = false) {r : FaultRec} (hd : r.det ≠ openDet) :
    (s.takeFault bk r).block? bk = some { b with mode := .freezing, fault := some r, stopAt := s.clockOf bk, reports := [] } := by
  have hu : b.uid = bk := by
    have := List.find?_some hb
    exact eq_of_beq this
  have hst : b.st = .resident ∧ b.mode = .run := by simpa [Block.running] using hr
  have hdeaf : s.deaf bk = false := by simp [State.deaf, hb, hst.1, hst.2, he]
  have hx : (s.takeFault bk r) = s.startFreeze bk r := by
    simp [State.takeFault, hb, hdeaf, hst.1, hst.2, State.raiseFault, hf, State.named, hd]
  rw [hx]
  have hk := block?_updBlock s bk bk (fun b => { b with mode := .freezing, fault := some r, stopAt := s.clockOf bk, reports := [] }) (fun _ => rfl)
  simp only [if_true, hb, Option.map_some] at hk
  simp only [State.startFreeze, hb]
  exact hk

end Sys2Proof.Machine
end

