-- ==== Sys2Proof/Tests/Base.lean ====
section
/-!
SUPPORT. The small states that tests and witnesses start from, and how facts about every fibre of a listed state are decided.
-/
namespace Sys2Proof.Tests
set_option Elab.async false
open Sys2Proof Sys2Proof.Machine

/-- Always: guard p15 (R10). -/
def on : Guard := { u := false, gn := false, gp := 15 }

/-- One block with one group of 48 chunks, its one fibre at an instruction word, and an identity mapping of the low 64 GiB. -/
def base : State := { State.reset.withFetchWord 64 0 with cur := [0], ipc := 0x10000, agenda := [], seq := 1 }

/-- Lane 0 of some vector registers, and some uniform registers. -/
def regs (vs us : List (Nat × Nat)) : State :=
  { base with rs := { base.rs with
      vregs := vs.map fun p => (p.1, [(0, BitVec.ofNat 32 p.2)]), uregs := us.map fun p => (p.1, BitVec.ofNat 64 p.2) } }

/-- Bytes in the home slices. -/
def State.withHome (s : State) (a : Nat) (bs : List Nat) : State :=
  { s with mem := { s.mem with home := mwrites s.mem.home a (bs.map (BitVec.ofNat 8)) } }

/-- The state with other fibres, and with another block. -/
def State.withFibs (s : State) (fs : List (Nat × Fibre)) : State :=
  { s with rs := { s.rs with fibres := fs.map fun p => (p.1, some p.2) } }
def State.withBlock (s : State) (b : Block) : State := { s with blocks := [b] }
def State.withLaunch (s : State) (l : Launch) : State := { s with launches := [l] }

def State.withDram (s : State) (a : Nat) (bs : List Nat) : State :=
  { s with mem := { s.mem with dram := mwrites s.mem.dram a (bs.map (BitVec.ofNat 8)) } }
def State.withRegion (s : State) (k : Nat) (r : Region) : State := { s with mem := { s.mem with regions := sset none s.mem.regions k (some r) } }

/-- A driver's region of 64 KiB at Tureen address 0, over global address 0x40000, not filled. -/
def region0 : Region :=
  { tbase := 0, size := 65536, gbase := 0x40000, sfirst := 0, scount := 1, fill := false, wb := true, fei := true, rd := true, w := true, lid := 0 }

/-- A frame opened at 0x10000 with one alternate, `accept` at 0x10018 and continuation at 0x10030. -/
def frame0 : Frame :=
  { test := 0x10010, lim := 100, k := 0, nalt := 1, gens := [1], repl := false, cause := 0, sil := none, conv := none, depths := [], heads := [], dead := some 100,
    left := 0, fpc := 0, fdet := 0, floc := 0, epc := 0x10000, eleft := 64, acc := 0x10018, cont := 0x10030, alts := [encode (.elseby { u := false, gn := false, gp := 15 } (.disp 4))], rlog := [] }

def st (f : FStat) : Fibre := { placedFibre with stat := f }

/-- Fibre 0 about to issue `i`, and fibre 1 arrived there. -/
def duo (i : Instr) : State := State.withFibs base [(0, placedFibre), (1, st (.coll i true))]

/-- The next state of an outcome. -/
def after (o : Host.Outcome State Fault Refusal) : State := match o with
  | .next t => t
  | _ => State.reset

/-- A property of every live fibre of a state is one of the listed ones. -/
theorem all_fib {s : State} {P : Nat → Fibre → Prop} [∀ k y, Decidable (P k y)]
    (h : (s.rs.fibres.all fun p => match p.2 with | some y => decide (P p.1 y) | none => true) = true) :
    ∀ k y, s.fib k = some y → P k y := by
  have key : ∀ (m : FMap (Option Fibre)) (k : Nat) (y : Fibre), sget none m k = some y → (k, some y) ∈ m := by
    intro m k y
    induction m with
    | nil => simp [sget]
    | cons p m ih =>
      obtain ⟨a, v⟩ := p
      simp only [sget]
      split
      · rintro rfl; subst_vars; simp
      · intro h; exact List.mem_cons_of_mem _ (ih h)
  intro k y hk
  have := List.all_eq_true.mp h _ (key _ _ _ hk)
  simpa using this

theorem issues_base : Issues base on 0 placedFibre := ⟨rfl, rfl, rfl⟩
theorem calm_base : Calm base 0 placedBlock := ⟨rfl, rfl, rfl, by decide⟩
theorem opens_base (c : Cnt) : Opens base 0 c :=
  ⟨by decide, by cases c <;> decide, by decide⟩

end Sys2Proof.Tests
end

