-- ==== Sys2Proof/Tests/Witness.lean ====
section
/-!
SUPPORT. For every statement of Certificates/Slice0/Obligations.lean, a state and operands that meet the hypotheses of its clauses.
-/
namespace Sys2Proof.Tests
set_option Elab.async false
open Sys2Proof Sys2Proof.Machine

def bin (t : Ty) : Bin := { g := on, d := .v 2, a := .v 4, b := .v 6, id := false, ia := false, ib := false, ty := t }
def un (t : Ty) : Un := { g := on, d := .v 2, a := .v 4, id := false, ia := false, ty := t }
def imm (t : Ty) (n : Nat) : Imm := { g := on, d := .v 2, a := .v 4, imm := n, id := false, ia := false, ty := t }
def tri (t : Ty) : Tri := { g := on, d := .v 2, a := .v 4, b := .v 6, c := .v 8, ty := t, rm := .near }
def cmpf (t : Ty) (cc : Nat) : CmpF := { g := on, p := 3, a := .v 4, b := .v 6, ia := false, ib := false, ty := t, cc := cc }

/-! ### Computing instructions -/

/-- Narrowest and widest type, the highest vector register pair of the allotment as D, and the last uniform register as A. -/
theorem witness_IntegerResults :
    Issues base on 0 placedFibre ∧ Bin.ready base 0 { bin .i8 with d := .v 1535, a := .s 95 } false false false = true ∧
      Bin.ready base 0 { bin .z64 with d := .v 1534 } true true true = true ∧ Bin.ready base 0 (bin .i32) true false false = true ∧
      Imm.ready base 0 (imm .i64 255) = true ∧ Tri.ready base 0 (tri .i16) false false false false = true ∧
      Tri.ready base 0 (tri .z64) true true true true = true ∧ Un.ready base 0 (un .i64) true true = true :=
  ⟨issues_base, by decide⟩

theorem witness_LogicResults :
    Issues base on 0 placedFibre ∧ Bin.ready base 0 (bin .b32) false false false = true ∧ Imm.ready base 0 (imm .z64 63) = true ∧
      Bin.ready base 0 (bin .z64) true true false = true ∧ Bin.ready base 0 (bin .b32) false false false = true ∧
      Un.ready base 0 (un .z64) true true = true ∧ Un.ready base 0 (un .z64) false true = true :=
  ⟨issues_base, by decide⟩

theorem witness_FieldResults :
    Issues base on 0 placedFibre ∧ Tri.ready base 0 (tri .i64) true true false false = true ∧ Tri.ready base 0 (tri .z64) true true true false = true ∧
      Bin.ready base 0 (bin .b32) false false false = true ∧ extOk .i8 3 = true ∧ extOk .z32 0 = true ∧ Un.ready base 0 (un .z32) true false = true ∧
      free base 0 (.v 1535) false false = true ∧ Bin.ready base 0 (bin .z64) true true false = true :=
  ⟨issues_base, by decide⟩

theorem witness_CompareAndSelectResults :
    Issues base on 0 placedFibre ∧ Ty.isBits .z64 = true ∧ readable base 0 (.v 4) false true = true ∧ readable base 0 (.v 6) false true = true ∧
      free base 0 (.v 2) false true = true ∧ free base 0 (.v 4) false true = true ∧ clean base 0 (.v 4) false true = true :=
  ⟨issues_base, by decide⟩

theorem witness_FloatResults :
    Issues base on 0 placedFibre ∧ Ty.isFph .bf16 = true ∧ Bin.ready base 0 (bin .f32) false false false = true ∧
      Un.ready base 0 (un .f32) false false = true ∧ Tri.ready base 0 (tri .f16) false false false false = true :=
  ⟨issues_base, by decide⟩

theorem witness_FloatClassAndStatusResults :
    Issues base on 0 placedFibre ∧ Calm base 0 placedBlock ∧ Un.ready base 0 (un .f16) false false = true ∧
      readable base 0 (.v 4) false false = true ∧ readable base 0 (.v 6) false false = true ∧ free base 0 (.v 2) false false = true :=
  ⟨issues_base, calm_base, by decide⟩

/-- The second form of `rand` is the one with the reserved stream id 0xFFFF. -/
theorem witness_ConversionResults :
    Issues base on 0 placedFibre ∧ free base 0 (.v 2) false true = true ∧ readable base 0 (.v 4) false true = true ∧
      Bin.ready base 0 (bin .ds8) false false false = true ∧ clean base 0 (.v 2) false false = true ∧
      Un.ready base 0 (un .e8) false false = true ∧ Bin.ready base 0 (bin .z64) true true false = true ∧
      value (regs [(6, 0xFFFF)] []) 0 (.v 6) false false % 65536 = 65535 :=
  ⟨issues_base, by decide⟩

theorem witness_MoveAndCrossLaneResults :
    Issues base on 0 placedFibre ∧ Un.ready base 0 (un .z64) true true = true ∧ free base 0 (.v 2) false false = true ∧
      readable base 0 (.v 6) false false = true ∧ base.wordReady 0 4 0 = true ∧ base.wordReady 0 4 63 = true ∧
      free base 0 (.s 95) false true = true ∧ base.wordReady 0 1535 63 = true :=
  ⟨issues_base, by decide⟩

/-! ### The register store -/

/-- A block whose group holds two chunks, in a state where its core has the given chunks listed as another block's. -/
def small : Block := { placedBlock with groups := [{ Group.none with chunks := [0, 1] }] }
def few : State := State.withBlock base small

theorem witness_RegisterStoreResults :
    Issues base on 0 placedFibre ∧ readable base 0 (.v 6) false false = true ∧ free base 0 (.v 2) false true = true ∧
      readable base 0 (.v 2) false true = true ∧ ¬ base.allot 0 0 ≤ 1535 ∧ base.waitBytes 0 (256 * 1535) 8 = false ∧ base.acqWait 0 = false ∧
      few.allot 0 0 ≤ 64 :=
  ⟨issues_base, by decide⟩

/-- The ways of `allot`: already that large; above the budget; granted at the last chunk number; queued. -/
theorem witness_RegisterStoreResults_allot :
    Calm few 0 small ∧ (few.group 0 0).chunks.length = 2 ∧ 32 * 48 ≤ 4 * (few.rcbOf 0).rsbud ∧
      48 - 2 ≤ Config.chunksPerCore - few.dcChunks 0 - few.reserveChunks 0 ∧ few.requests 0 = [] ∧ 48 - 2 - 0 ≤ few.freeCount 0 :=
  ⟨⟨rfl, rfl, rfl, by decide⟩, by decide⟩

def tight : State := State.withLaunch few { placedLaunch with rcb := { placedRcb with rsbud := 383 } }
def full : State := State.withBlock base { small with groups := small.groups ++ [{ Group.none with chunks := span 2 510 }] }
def kept : State := State.withLaunch few { placedLaunch with resc := 500 }

/-- Above the budget; too few chunks at present; more than the core has beside its recovery areas. -/
theorem witness_RegisterStoreResults_refused :
    4 * (tight.rcbOf 0).rsbud < 32 * 48 ∧ (full.requests 0 = [] ∧ full.freeCount 0 = 0) ∧
      Config.chunksPerCore - kept.dcChunks 0 - kept.reserveChunks 0 < 48 - 2 := by decide +kernel

/-- The fibre's `vote` or `redux` is the last of two to arrive, with one absent lane after it. -/
theorem last_duo (i : Instr) : LastToArrive (duo i) on 0 placedFibre placedBlock i :=
  ⟨rfl, rfl, rfl, rfl, rfl, rfl, by decide, by decide, all_fib (P := fun k y => fkBk k = fkBk 0 → k ≠ 0 →
    y.pc = base.ipc ∧ (y.stat = .coll i true ∨ y.stat = .coll i false)) (by simp [duo, State.withFibs, st]; decide)⟩

theorem oneGroup_duo (i : Instr) : OneGroup (duo i) 0 placedBlock :=
  ⟨rfl, by decide, all_fib (P := fun k _ => fkBk k = fkBk 0 → fkG k = fkG 0) (by simp [duo, State.withFibs]; decide)⟩

theorem witness_VoteAndReduxResults :
    (∀ m : Nat, LastToArrive (duo (.vote on 95 3 m)) on 0 placedFibre placedBlock (.vote on 95 3 m) ∧ OneGroup (duo (.vote on 95 3 m)) 0 placedBlock ∧
      (duo (.vote on 95 3 m)).busyU 0 0 95 = false) ∧
    (let i : Instr := .redux on 95 4 1 .z64 .near
     LastToArrive (duo i) on 0 placedFibre placedBlock i ∧ OneGroup (duo i) 0 placedBlock ∧ (duo i).busyU 0 0 95 = false ∧
       readable (duo i) 0 (.v 4) false true = true) :=
  ⟨fun _ => ⟨last_duo _, oneGroup_duo _, rfl⟩, last_duo _, oneGroup_duo _, rfl, by decide⟩

/-! ### Main memory, Tureen and store windows -/

def mem (t : Ty) : Mem := { g := on, d := .v 2, base := .s 1, ofs := 0, sc := 0, ty := t, scope := 3, pol := 0, qf := 0 }
def memT (t : Ty) : Mem := { mem t with base := .v 4, ofs := 255, sc := 1 }

/-- `base` with uniform register 1 holding an address. -/
def ptr (p : Nat) : State := regs [(4, 0x20000)] [(1, p)]
def tur (p : Nat) : State := State.withRegion (regs [(4, p)] []) 0 region0

theorem opens_ptr (c : Cnt) : Opens (ptr 0x20000) 0 c := ⟨by decide, by cases c <;> decide, by decide⟩

/-- Scope 5 is not set up; a pointer in order, one whose page is absent, one that is misaligned; the Tureen forms likewise. -/
theorem witness_LoadIssue :
    Issues (ptr 0x20000) on 0 placedFibre ∧ Opens (ptr 0x20000) 0 .ld ∧
      (free (ptr 0x20000) 0 (.v 2) false true = true ∧ addrReady (ptr 0x20000) 0 true (.s 1) 0 = true ∧
      (ptr 0x20000).scopeOk 0 5 = false ∧ (ptr 0x20000).scopeOk 0 3 = true ∧
      (ptr 0x20000).check 0 0x20000 8 8 .load false = .ok (.mem 0x20000 0) ∧
      (ptr 0x1000000000).check 0 0x1000000000 8 8 .load false = .absent .none ∧
      (ptr 0x20001).check 0 0x20001 4 4 .load false = .fault .ma 0x20001 ∧
      addrReady (tur 64) 0 false (.v 4) 1 = true ∧ (tur 64).checkT 0 65528 8 .load false false = .ok (.region 0 65528) ∧
      (tur 64).checkT 0 65536 8 .load false false = .fault .ac 65536 ∧
      (tur 64).winCheck 0 0xFF8 8 8 = none ∧ (tur 64).winCheck 0 0xFF9 8 8 ≠ none) :=
  ⟨⟨rfl, rfl, rfl⟩, opens_ptr .ld, by decide⟩

theorem witness_StoreIssue :
    Issues (ptr 0x20000) on 0 placedFibre ∧ Opens (ptr 0x20000) 0 .st ∧
      (readable (ptr 0x20000) 0 (.v 2) false true = true ∧ (ptr 0x20000).scopeOk 0 5 = false ∧
      (ptr 0x20000).check 0 0x20000 8 8 .store false = .ok (.mem 0x20000 0) ∧
      (ptr 0x1000000000).check 0 0x1000000000 8 8 .store false = .absent .none ∧ (ptr 0x1000000000).sideUsed 0 < Config.sideLogEntries ∧
      (tur 64).checkT 0 65528 8 .store false true = .ok (.region 0 65528) ∧ (tur 64).winCheck 0 0xFF8 8 8 = none) :=
  ⟨⟨rfl, rfl, rfl⟩, opens_ptr .st, by decide⟩

theorem witness_LineIssue :
    Issues (ptr 0x20000) on 0 placedFibre ∧ Opens (ptr 0x20000) 0 .st ∧
      (addrReady (ptr 0x20000) 0 true (.s 1) 0 = true ∧ (ptr 0x20000).scopeOk 0 7 = false ∧ (ptr 0x20000).scopeOk 0 4 = true ∧
      (ptr 0x20000).convOf 0 = none ∧ (ptr 0x20000).check 0 0x20000 128 128 .store false = .ok (.mem 0x20000 0) ∧
      (ptr 0x20000).checkLine 0 0x2007F .any = .ok (.mem 0x2007F 0) ∧ (tur 0).checkLine 0 0x40001 .any = .ok (.region 0 1) ∧
      (ptr 0x20000).checkLine 0 0x2007F .fetch = .ok (.mem 0x2007F 0)) :=
  ⟨⟨rfl, rfl, rfl⟩, opens_ptr .st, by decide⟩

/-! ### Atomics, rings and timelines -/

theorem witness_AtomicIssue :
    Issues (ptr 0x20000) on 0 placedFibre ∧ Opens (ptr 0x20000) 0 .ld ∧ Opens (ptr 0x20000) 0 .st ∧
      (addrReady (ptr 0x20000) 0 true (.s 1) 0 = true ∧ free (ptr 0x20000) 0 (.v 2) false true = true ∧
      readable (ptr 0x20000) 0 (.v 2) false true = true ∧ readable (ptr 0x20000) 0 (opndPlus (.v 2) 2) false true = true ∧
      (ptr 0x20000).scopeOk 0 3 = true ∧ (ptr 0x20000).check 0 0x20000 8 8 .atom false = .ok (.mem 0x20000 0) ∧
      (ptr 0x20004).check 0 0x20004 8 8 .atom false = .fault .ma 0x20004) :=
  ⟨⟨rfl, rfl, rfl⟩, opens_ptr .ld, opens_ptr .st, by decide⟩

theorem witness_RingAndTimelineIssue :
    Issues (ptr 0x20000) on 0 placedFibre ∧ Opens (ptr 0x20000) 0 .ld ∧ Opens (ptr 0x20000) 0 .st ∧
      (addrReady (ptr 0x20000) 0 true (.s 1) 0 = true ∧ (ptr 0x20000).scopeOk 0 0 = true ∧ free (ptr 0x20000) 0 (.v 2) false false = true ∧
      readable (ptr 0x20000) 0 (.v 2) false true = true ∧ (ptr 0x20000).acqWait 0 = false ∧
      (ptr 0x20000).check 0 0x20000 64 64 .atom false = .ok (.mem 0x20000 0) ∧ (ptr 0x20000).ownPending 0 (.mem 0x20000 0) 0x20000 8 = false) :=
  ⟨⟨rfl, rfl, rfl⟩, opens_ptr .ld, opens_ptr .st, by decide⟩

/-- A ring record of eight slots in the driver's region, and one whose LOG2N is out of range. -/
def ringed : State :=
  State.withRegion (State.withDram (ptr 0x20000) 0x20000 (natBytes 64 (3 * 2 ^ 64 + 0x1000 * 2 ^ 128))) 0 region0

theorem witness_RingAndTimelineIssue_record :
    Issues ringed on 0 placedFibre ∧ addrReady ringed 0 true (.s 1) 0 = true ∧ ringed.check 0 0x20000 64 64 .atom false = .ok (.mem 0x20000 0) ∧
      (let r := ringOf (ringed.ringAt (.mem 0x20000 0))
       ringed.linkDown (.mem 0x20000 0) = false ∧ r.resv = false ∧ r.log2n = 3 ∧ r.bound = false ∧ ringed.regionT 0 r.sbase ≠ none) ∧
      (ringed.launchOf 0).map Launch.rings = some [] ∧ 8 < (ringOf (9 * 2 ^ 64)).log2n :=
  ⟨⟨rfl, rfl, rfl⟩, by decide +kernel⟩

/-- A fence with nothing before it, and one after a store that is not performed. -/
theorem witness_WaitingForms :
    Issues base on 0 placedFibre ∧ base.scopeOk 0 6 = false ∧ base.scopeOk 0 4 = true ∧ (∀ o : Op, o ∉ base.ops) ∧
      (let o : Op := { base.mkOp (memI .st .st (mem .b32)) 0 0 1 with lanes := [laneOf 0 0x20000 (.mem 0x20000 0) .pending 0 15] }
       let s : State := { base with seq := 2, ops := [o] }
       Issues s on 0 placedFibre ∧ o ∈ s.ops ∧ o.bk = 0 ∧ o.g = 0 ∧ o.id < s.seq ∧ o.cls = .st) :=
  ⟨issues_base, by decide, by decide, by simp [base, State.withFetchWord, State.reset], ⟨rfl, rfl, rfl⟩, by simp, rfl, rfl, by decide, rfl⟩

/-! ### Control flow -/

/-- A header word of a kind, of one instruction word. -/
def header (k : Nat) : List Nat := (List.range 8).map fun i => k * 2 ^ 56 / 256 ^ i % 256

def deep : Fibre := { placedFibre with stack := List.replicate 68 0x10008 }

theorem witness_TransferResults :
    Issues base on 0 placedFibre ∧ placedFibre.stack.length < 68 ∧ placedFibre.stack = [] ∧ readable base 0 (.s 95) false true = true ∧
      readable base 0 (.v 4) false true = true ∧
      (let s := State.withFibs (State.withDram base 0x10008 (header 0xF1)) [(0, deep)]
       Issues s on 0 deep ∧ 68 ≤ deep.stack.length ∧ 0xF1 * 2 ^ 56 / 2 ^ 56 % 256 = 0xF1 ∧ s.fetchWord 0 0 0x10008 = .word (0xF1 * 2 ^ 56) ∧
         s.fetchWord 0 0 0x1000000000 = .absent ∧ ∃ l, deep.stack = 0x10008 :: l ∧ ¬(s.depth 0 ≠ 0 ∧ deep.stack.length ≤ s.depthFloor 0)) ∧
      (let s := State.withFibs (State.withBlock base { placedBlock with frames := [{ frame0 with depths := [(0, 68)] }] }) [(0, deep)]
       s.depth 0 ≠ 0 ∧ deep.stack.length ≤ s.depthFloor 0) :=
  ⟨issues_base, by decide, rfl, by decide, by decide, ⟨⟨rfl, rfl, rfl⟩, by decide, by decide, by decide, by decide, _, rfl, by decide⟩, by decide⟩

/-- A return whose refill meets a spill line that cannot be corrected: two addresses saved, one on chip. -/
theorem witness_TransferResults_lost :
    let x : Fibre := { placedFibre with stack := [0x10008, 0x10008], chip := 1, spoil := 1 }
    let s := State.withFibs base [(0, x)]
    Issues s on 0 x ∧ x.chip ≤ 1 ∧ x.spoil.testBit ((([0x10008] : List Nat).length - 1) / 16) = true ∧ ¬(s.depth 0 ≠ 0 ∧ x.stack.length ≤ s.depthFloor 0) :=
  ⟨⟨rfl, rfl, rfl⟩, by decide⟩

/-- `fspawn` with the group's other lanes free and with all of them taken; a frame open. -/
theorem witness_FibreLifeResults :
    (let s := State.withDram base 0x10030 (header 0xF1)
     Issues s on 0 placedFibre ∧ Calm s 0 placedBlock ∧ swf none s.rs.fibres = true ∧ s.wordReady 0 1535 0 = true ∧ s.busyReg 0 0 1535 = false ∧
       s.fetchWord 0 0 0x10030 = .word (0xF1 * 2 ^ 56) ∧ s.fib (fkOf 0 0 1) = none ∧ s.fib (fkOf 0 0 0) ≠ none) ∧
    (let s := State.withFibs base ((List.range 64).map fun l => (l, placedFibre))
     swf none s.rs.fibres = true ∧ ∀ l < 64, s.fib (fkOf 0 0 l) ≠ none) ∧
    (let s := State.withBlock base { placedBlock with frames := [frame0] }
     Issues s on 0 placedFibre ∧ s.block? (fkBk 0) = some { placedBlock with frames := [frame0] } ∧ swf none s.rs.fibres = true) :=
  ⟨⟨⟨rfl, rfl, rfl⟩, ⟨rfl, rfl, rfl, by decide⟩, by decide⟩, by decide +kernel, ⟨rfl, rfl, rfl⟩, rfl, by decide⟩

/-- Fibre 0 with a mate that is ready, or has arrived at the barrier. -/
def pair (f : FStat) : State := State.withFibs base [(0, placedFibre), (1, st f)]

theorem witness_BarrierAndSortResults :
    (∀ f, Issues (pair f) on 0 placedFibre ∧ Calm (pair f) 0 placedBlock) ∧
    (swf none (pair .ready).rs.fibres = true ∧ (0 : Nat) < Config.cores ∧ ((pair .ready).group 0 0).core ∈ placedBlock.cores ∧
      (∀ c ∈ placedBlock.cores, c < Config.cores) ∧ free (pair .ready) 0 (.v 2) false false = true ∧ readable (pair .ready) 0 (.v 4) false false = true ∧
      (pair .bar).winDone 1 = true ∧ (pair .bar).winDone 0 = true ∧ (pair .barCl).winDone 1 = true) ∧
    (∀ k y, (pair .ready).fib k = some y → fkBk k = 0 ∧ y.stat = .ready) ∧ (pair .ready).fib 1 = some (st .ready) ∧
    (∀ k y, (pair .bar).fib k = some y → k ≠ 0 → y.stat = .bar ∧ (pair .bar).winDone k = true) ∧
    (∀ k y, (pair .barCl).fib k = some y → k ≠ 0 → y.stat = .barCl ∧ (pair .barCl).winDone k = true) :=
  ⟨fun _ => ⟨⟨rfl, rfl, rfl⟩, ⟨rfl, rfl, rfl, by decide⟩⟩, by decide,
    all_fib (P := fun k y => fkBk k = 0 ∧ y.stat = .ready) (by decide), rfl,
    all_fib (P := fun k y => k ≠ 0 → y.stat = .bar ∧ (pair .bar).winDone k = true) (by decide),
    all_fib (P := fun k y => k ≠ 0 → y.stat = .barCl ∧ (pair .barCl).winDone k = true) (by decide)⟩

/-- `fsort v2, v4, s3` with the mask of s3 naming chunk 47, the last of the allotment. -/
def sorting : State := { duo (.fsort on 2 4 3) with rs := { (duo (.fsort on 2 4 3)).rs with uregs := [(3, BitVec.ofNat 64 (2 ^ 47))] } }

theorem witness_BarrierAndSortResults_sort :
    LastToArrive sorting on 0 placedFibre placedBlock (.fsort on 2 4 3) ∧ OneGroup sorting 0 placedBlock ∧
      ((sorting.group 0 0).core ∈ placedBlock.cores ∧ free sorting 0 (.v 2) false false = true ∧ readable sorting 0 (.v 4) false false = true ∧
        (sorting.ops = [] ∧ sorting.busyU 0 0 3 = false ∧ sorting.upois 0 0 3 = false) ∧ sorting.winDone 0 = true ∧ sorting.winDone 1 = true ∧
        (sorting.uraw 0 0 3).testBit 47 = true ∧ 32 * 47 < sorting.allot 0 0 ∧ (sorting.uraw 0 0 3).testBit (2 / 32) = false) :=
  ⟨⟨rfl, rfl, rfl, rfl, rfl, rfl, by decide, by decide, all_fib (P := fun k y => fkBk k = fkBk 0 → k ≠ 0 →
    y.pc = base.ipc ∧ (y.stat = .coll (.fsort on 2 4 3) true ∨ y.stat = .coll (.fsort on 2 4 3) false)) (by decide)⟩,
    ⟨rfl, by decide, all_fib (P := fun k _ => fkBk k = fkBk 0 → fkG k = fkG 0) (by decide)⟩, by decide⟩

/-! ### Recovery frames -/

/-- The last to arrive is the block's one fibre. -/
theorem last_one (b : Block) (i : Instr) (hu : b.uid = 0) (hr : b.running = true) (hn : 0 < b.ngrp) (hc : ∀ c ∈ b.cores, c < Config.cores) :
    LastToArrive (State.withBlock base b) on 0 placedFibre b i :=
  ⟨rfl, rfl, rfl, by simp [State.block?, State.withBlock, hu, fkBk], hr, by simp [State.withBlock]; decide, hn, hc,
    fun k y h hk hn => absurd (all_fib (s := base) (P := fun k _ => k = 0) (by decide) k y h) hn⟩

/-- Memory does not matter to it. -/
theorem last_mem {s : State} {g : Guard} {fk : Nat} {x : Fibre} {b : Block} {i : Instr} (h : LastToArrive s g fk x b i) (m : MemSt) :
    LastToArrive { s with mem := m } g fk x b i :=
  ⟨h.cur, h.fib, h.pc, h.block, h.runs, h.store, h.group, h.cores, h.others⟩

/-- A block with open frames. -/
def inside (fs : List Frame) : Block := { placedBlock with frames := fs }

theorem last_in (fs : List Frame) (i : Instr) : LastToArrive (State.withBlock base (inside fs)) on 0 placedFibre (inside fs) i :=
  last_one _ i rfl rfl Nat.zero_lt_one (by simp [inside]; decide)

/-- A test block at 0x10010: its header names the continuation four words on, and its three words are `accept`, one `elseby` and `elseerr`. -/
def tested (s : State) : State :=
  State.withDram (State.withDram s 0x10010 (natBytes 8 (0xF2 * 2 ^ 56 + 2 * 2 ^ 50 + 4 * 2 ^ 12))) 0x10018
    (natBytes 8 (encode (.accept on 1)) ++ natBytes 8 (encode (.elseby on (.disp 4))) ++ natBytes 8 (encode (.elseerr on)) ++ header 0xF0)

theorem last_tested (fs : List Frame) (i : Instr) : LastToArrive (tested (State.withBlock base (inside fs))) on 0 placedFibre (inside fs) i :=
  last_mem (last_in fs i) _

/-- At the nesting limit, and one below it, where the layout reads. -/
theorem witness_EnsureResults :
    LastToArrive (State.withBlock base (inside (List.replicate 8 frame0))) on 0 placedFibre (inside (List.replicate 8 frame0)) (.ensure on (.disp 2) 95) ∧
    (inside (List.replicate 8 frame0)).frames.length = 8 ∧
    (let s := tested (State.withBlock base (inside (List.replicate 7 frame0)))
     LastToArrive s on 0 placedFibre (inside (List.replicate 7 frame0)) (.ensure on (.disp 2) 95) ∧
       (inside (List.replicate 7 frame0)).frames.length < 8 ∧ s.busyU 0 0 95 = false ∧ s.upois 0 0 95 = false ∧
       s.layout 0 (s.group 0 0).core 0x10010 = .ok 0x10018 0x10030 [encode (.elseby on (.disp 4))] ∧ s.quiet 0 = true ∧
       ∀ y ∈ (inside (List.replicate 7 frame0)).groups, y.gen < 65536) :=
  ⟨last_in _ _, rfl, last_tested _ _, by decide, by decide, by decide, by decide, by decide, by decide⟩

/-- Outside every frame; elsewhere than its `accept`; with the predicate false and true; in a conversation; at depth 2. -/
theorem witness_AcceptResults :
    (∀ fs p, LastToArrive (tested (State.withBlock base (inside fs))) on 0 placedFibre (inside fs) (.accept on p)) ∧ (inside []).frames = [] ∧
      frame0.acc ≠ base.ipc ∧ ({ frame0 with acc := 0x10000 } : Frame).acc = base.ipc ∧
      (∀ fs, (tested (State.withBlock base (inside fs))).fib 0 = some placedFibre) ∧ placedFibre.pred 1 = false ∧ placedFibre.pred 15 = true ∧
      (let f : Frame := { frame0 with acc := 0x10000 }
       let s := tested (State.withBlock base (inside [f, frame0]))
       s.quiet 0 = true ∧ s.land 0 (s.group 0 0).core f.cont [0xF0] = .ok (0xF0 * 2 ^ 56)) ∧
      ({ frame0 with acc := 0x10000, conv := some (0x20000, 0x20000) } : Frame).conv = some (0x20000, 0x20000) :=
  ⟨fun fs p => last_tested fs (.accept on p), rfl, by decide, rfl, fun _ => rfl, rfl, rfl, by decide, rfl⟩

/-- A conversation object `w` at 0x20000, which uniform register 3 names, and a block with one frame open. -/
def object (w : Nat) : State := State.withDram (State.withBlock (regs [] [(3, 0x20000)]) (inside [frame0])) 0x20000 (natBytes 8 w)

theorem last_object (w : Nat) (i : Instr) : LastToArrive (object w) on 0 placedFibre (inside [frame0]) i :=
  last_mem (s := State.withBlock (regs [] [(3, 0x20000)]) (inside [frame0])) ⟨rfl, rfl, rfl, rfl, rfl, by decide, by decide, by decide,
    fun k y h _ hn => absurd (all_fib (s := base) (P := fun k _ => k = 0) (by decide) k y h) hn⟩ _

/-- An idle object of 16 members, and a failing one with 15 of them joined. -/
theorem witness_FrameQueryAndJoinResults :
    (let s := tested (State.withBlock base (inside [frame0]))
     Issues s on 0 placedFibre ∧ s.block? 0 = some (inside [frame0]) ∧ s.land 0 (s.group 0 0).core frame0.test [0xF2] = .ok (0xF2 * 2 ^ 56 + 2 * 2 ^ 50 + 4 * 2 ^ 12) ∧
       free s 0 (.v 2) false false = true ∧ frame0.cause < 16 ∧ frame0.k < 16) ∧
    (∀ w, LastToArrive (object w) on 0 placedFibre (inside [frame0]) (.cjoin ⟨on, 3⟩)) ∧
    (let s := object 16
     s.busyU 0 0 3 = false ∧ s.upois 0 0 3 = false ∧ s.uraw 0 0 3 = 0x20000 ∧
       s.check 0 0x20000 128 128 .atom false = .ok (.mem 0x20000 0) ∧ cResv (convObj s 0x20000) = false ∧ convObj s 0x20000 = 16) ∧
    (let w := convObj (object (16 + 2 * 2 ^ 8 + 15 * 2 ^ 32)) 0x20000
     cResv w = false ∧ w / 2 ^ 8 % 4 = 2 ∧ w / 2 ^ 32 % 256 ≠ w % 32 ∧ w % 32 ≤ 16) :=
  ⟨⟨⟨rfl, rfl, rfl⟩, rfl, by decide⟩, fun _ => last_object _ _, by decide +kernel, by decide +kernel⟩

/-! ### Engines: issue -/

/-- A record of `d` in register v1 of group 0, at window address 0x100, which uniform register 6 names; register 5 holds 0x20000. -/
def rec_ (d : Nat) : State :=
  { base with rs := { base.rs with
      vregs := [(1, (List.range 32).map fun l => (l, BitVec.ofNat 32 (d / 2 ^ (32 * l))))], uregs := [(5, 0x20000), (6, 0x100)] } }

theorem opens_rec (d : Nat) (c : Cnt) : Opens (rec_ d) 0 c := ⟨by simp [rec_, base, State.withFetchWord, State.reset], by cases c <;> simp [rec_, base, State.withFetchWord, State.cnt, State.reset, Config.counterMax] <;> decide, rfl⟩

theorem issues_rec (d : Nat) : Issues (rec_ d) on 0 placedFibre := ⟨rfl, rfl, rfl⟩

theorem record_rec (d : Nat) (n al : Nat) (hw : (rec_ d).winCheck 0 0x100 n al = none) (hm : (rec_ d).wpoisAt 0 0 0x100 n = none)
    (hq : (rec_ d).recBusy 0 0x100 n = false) : Record (rec_ d) 0 6 n al 0x100 := ⟨rfl, rfl, hw, hq, hm⟩

theorem witness_LadleIssue :
    Issues (rec_ 0) on 0 placedFibre ∧ Opens (rec_ 0) 0 .cp ∧ Record (rec_ 0) 0 6 64 64 0x100 ∧ Record (rec_ 0) 0 6 16 16 0x100 :=
  ⟨issues_rec 0, opens_rec 0 .cp, record_rec 0 64 64 (by decide) (by decide) (by decide), record_rec 0 16 16 (by decide) (by decide) (by decide)⟩

theorem witness_GriddleIssue :
    Issues (rec_ 0) on 0 placedFibre ∧ Opens (rec_ 0) 0 .tl ∧ Record (rec_ 0) 0 6 128 128 0x100 ∧ Record (rec_ 0) 0 6 16 16 0x100 ∧
      (rec_ 0).busyU 0 0 95 = false ∧ readable (rec_ 0) 0 (.s 5) false true = true ∧ value (rec_ 0) 0 (.s 5) false true % 128 = 0 ∧
      value (rec_ 0) 0 (.s 4) false true = 0 :=
  ⟨issues_rec 0, opens_rec 0 .tl, record_rec 0 128 128 (by decide) (by decide) (by decide), record_rec 0 16 16 (by decide) (by decide) (by decide),
    by decide, by decide, by decide, by decide⟩

/-- A block without the array, and the holder; the last register of the allotment as an operand. -/
theorem witness_JasperIssue :
    (Issues base on 0 placedFibre ∧ base.holdsJas 0 0 = false) ∧
    (let s : State := { rec_ 0 with eng := { EngSt.reset with jasHold := [(0, 1)] } }
     Issues s on 0 placedFibre ∧ s.holdsJas 0 (s.group 0 0).core = true ∧ s.ops = [] ∧ s.acqWait 0 = false ∧
      readable s 0 (.s 5) false true = true ∧ readable s 0 (.s 6) false false = true ∧ s.winCheck 0 0x100 16 16 = none ∧ s.recBusy 0 0x100 16 = false ∧
      s.winCheck 0 0x100 320 64 = none ∧ s.recBusy 0 0x100 320 = false ∧ (∀ l < 64, s.wordReady 0 1535 l = true) ∧ 1535 < s.allot 0 0 ∧
      (∀ l < 64, s.waitV 0 1535 l = false)) :=
  ⟨⟨issues_base, rfl⟩, ⟨rfl, rfl, rfl⟩, by decide⟩

/-! ### Tasks, launches, mailboxes and the system -/

/-- A sound descriptor of one chunk with no tiles; a malformed one; a table that is full is one of `Config.depEntries` incomplete tasks. -/
theorem witness_TaskIssue :
    Issues (rec_ (2 ^ 200)) on 0 placedFibre ∧ (rec_ (2 ^ 200)).block? 0 = some placedBlock ∧ (rec_ (2 ^ 200)).acqWait 0 = false ∧
      Record (rec_ (2 ^ 200)) 0 6 128 128 0x100 ∧ (∀ y ∈ (rec_ (2 ^ 200)).blocks, y.uid < (rec_ (2 ^ 200)).seq) ∧
      (let d := (rec_ (2 ^ 200)).wnum 0 0 0x100 128
       d = 2 ^ 200 ∧ taskBad d = false ∧ (rec_ (2 ^ 200)).tilesCheck 0 d = none ∧ (rec_ (2 ^ 200)).tableOf 0 = []) ∧
      taskBad ((rec_ 0).wnum 0 0 0x100 128) = true ∧ Record (rec_ 0) 0 6 16 16 0x100 :=
  ⟨issues_rec _, rfl, rfl, record_rec _ 128 128 (by decide) (by decide) (by decide), by decide, by decide +kernel, by decide +kernel,
    record_rec 0 16 16 (by decide) (by decide) (by decide)⟩

/-- A launch of one block of one group: image at 0x30000, no constants, template at 0x32000 with its own store budget and core count. -/
def launchDesc : Nat := 0x30000 + 0x32000 * 2 ^ 64 + 2 ^ 128 + 2 ^ 224 + 2 ^ 230 + 0x31000 * 2 ^ 256
def withImage (s : State) : State :=
  State.withDram (State.withDram s 0x30000 (header 0xF1)) 0x32000 (natBytes 72 (8 * 2 ^ 448 + 2 ^ 464 + 0x60 * 2 ^ 480))

def isOk {α : Type} (v : Vet α) (p : State → Bool) : Bool := match v with
  | .ok _ t => p t
  | _ => false
def isNo {α : Type} (v : Vet α) (p : State → Bool) : Bool := match v with
  | .no _ t => p t
  | _ => false
def isWait {α : Type} (v : Vet α) : Bool := match v with
  | .wait _ => true
  | _ => false
theorem ok_of {α : Type} {v : Vet α} {p : State → Bool} (h : isOk v p = true) : ∃ k t, v = .ok k t ∧ p t = true := by
  cases v <;> simp_all [isOk]
theorem no_of {α : Type} {v : Vet α} {p : State → Bool} (h : isNo v p = true) : ∃ c t, v = .no c t ∧ p t = true := by
  cases v <;> simp_all [isNo]
theorem wait_of {α : Type} {v : Vet α} (h : isWait v = true) : ∃ t, v = .wait t := by cases v <;> simp_all [isWait]

def launching : State := withImage (rec_ launchDesc)

/-- A launch that is accepted, one that waits for the page of its template, one that is refused; a command code other than launch. -/
theorem witness_LaunchAndSyncResults :
    Issues launching on 0 placedFibre ∧ Calm launching 0 placedBlock ∧ launching.launchOf 0 = some placedLaunch ∧ launching.acqWait 0 = false ∧
      Record launching 0 6 64 64 0x100 ∧ launching.busyU 0 0 95 = false ∧ launching.wnum 0 0 0x100 64 = launchDesc ∧
      (∃ k t, launching.accept 0 launchDesc (some (0, placedLaunch)) = .ok k t ∧ (t.blocks == launching.blocks && t.rs == launching.rs) = true) ∧
      (∃ t, launching.accept 0 (launchDesc + 2 ^ 106) (some (0, placedLaunch)) = .wait t) ∧
      (∃ c t, launching.accept 0 0 (some (0, placedLaunch)) = .no c t ∧ (t.blocks == launching.blocks && t.rs == launching.rs) = true) :=
  ⟨⟨rfl, rfl, rfl⟩, ⟨rfl, rfl, rfl, by decide⟩, rfl, rfl, ⟨by decide +kernel, by decide +kernel, by decide +kernel, by decide +kernel, by decide +kernel⟩,
    by decide, by decide +kernel, ok_of (by decide +kernel), wait_of (by decide +kernel), no_of (by decide +kernel)⟩

/-- A `dsync` with no child, and one with a child launch that is still listed. -/
theorem witness_LaunchAndSyncResults_sync :
    (LastToArrive (State.withBlock base placedBlock) on 0 placedFibre placedBlock (.dsync on) ∧ (∀ k ∈ placedBlock.kids, base.kidDone k = true) ∧
      (base.rcbOf 0).det = false ∧ ∀ y < placedBlock.ngrp, base.fenceReady 0 y base.seq = true) ∧
    (let b : Block := { placedBlock with kids := [{ idx := 0, isLaunch := true, ref := 0, folded := false }] }
     LastToArrive (State.withBlock base b) on 0 placedFibre b (.dsync on) ∧ ∃ k ∈ b.kids, (State.withBlock base b).kidDone k = false) :=
  ⟨⟨last_one _ _ rfl rfl (by decide) (by decide), by decide, rfl, by decide⟩, last_one _ _ rfl rfl (by decide) (by decide), by decide⟩

theorem witness_MailboxIssue :
    Issues (rec_ 0) on 0 placedFibre ∧ Opens (rec_ 0) 0 .st ∧ Opens (rec_ 0) 0 .ld ∧ Record (rec_ 0) 0 6 64 64 0x100 ∧ (rec_ 0).busyU 0 0 95 = false ∧
      readable (rec_ 0) 0 (.s 5) false true = true ∧ value (rec_ 0) 0 (.s 5) false true / 2 ^ 16 ≠ 0 ∧ ((rec_ 0).mbx 0).st = .free ∧
      (let s : State := { rec_ 0 with hub := { HubSt.reset with mbx := [(0, some { Mbx.reset with st := .idle })] } }
       (s.mbx 0).st ≠ .free ∧ (s.mbx 0).epi.toNat / 2 ^ 143 % 64 = s.ctxOf 0) :=
  ⟨issues_rec 0, opens_rec 0 .st, opens_rec 0 .ld, record_rec 0 64 64 (by decide) (by decide) (by decide), by decide, by decide, by decide, rfl, by decide⟩

/-- `ctxq` with the queue disabled, enabled, and full. -/
theorem witness_SystemResults :
    Issues base on 0 placedFibre ∧ base.block? 0 = some placedBlock ∧ base.busyU 0 0 95 = false ∧ readable base 0 (.s 95) false true = true ∧
      Calm base 0 placedBlock ∧ base.ops = [] ∧ base.launchOf 0 = some placedLaunch ∧ free base 0 (.v 2) false false = true ∧
      sget evqcfgReset (base.ctx 0).evqcfg 0 % 2 = 0 :=
  ⟨issues_base, rfl, rfl, by decide, calm_base, rfl, rfl, by decide, by decide⟩

/-! ### Memory: what accesses do when they are performed -/

/-- `base` with one operation of one lane under way. -/
def opOf (i : MemI) (x : Lane) : Op := { base.mkOp i 0 0 1 with lanes := [x] }
def under (o : Op) : State := { base with seq := 2, ops := [o] }

def stored : Op := opOf (memI .st .st (mem .b32)) (laneOf 0 0x2007C (.mem 0x2007C 0) .pending 0x11223344 15)
def storedT : Op := opOf (memI .stt .st (mem .z64)) (laneOf 0 65528 (.region 0 65528) .pending 1 255)
def storedW : Op := opOf (memI .stw .st (mem .b32)) (laneOf 0 0x5FFFC (.win 0 0 0x5FFFC) .pending 1 3)

theorem ready_one (s : State) (h : s.rs.fibres = base.rs.fibres) (bk : Nat) : s.allReady bk :=
  fun k y hk _ => (all_fib (s := base) (P := fun _ y => y.stat = .ready) (by decide)) k y (by simpa [State.fib, h] using hk)

/-- The last word of a line, the last bytes of a region, the last word of a window, with some bytes masked. -/
theorem witness_StoreEffects :
    (∀ o, (under o).block? 0 = some placedBlock ∧ placedBlock.running = true ∧ placedBlock.frames = [] ∧ (under o).allReady 0) ∧
      ((under stored).laneAt 1 0 = some (stored, stored.lanes.headD (engLane 0)) ∧ stored.kind.isStore = true ∧ stored.fset = false ∧
        (under stored).canPerform stored (stored.lanes.headD (engLane 0)) = true ∧ (under stored).renames 0 = [] ∧ 0x2007C % 128 + stored.n ≤ 128) ∧
      ((State.withRegion (under storedT) 0 region0).laneAt 1 0 = some (storedT, storedT.lanes.headD (engLane 0)) ∧
        (State.withRegion (under storedT) 0 region0).canPerform storedT (storedT.lanes.headD (engLane 0)) = true ∧ 65528 % 128 + storedT.n ≤ 128 ∧
        (State.withRegion (under storedT) 0 region0).linkDown (storedT.lanes.headD (engLane 0)).tgt = false) ∧
      ((under storedW).laneAt 1 0 = some (storedW, storedW.lanes.headD (engLane 0)) ∧
        (under storedW).canPerform storedW (storedW.lanes.headD (engLane 0)) = true ∧ storedW.n ≤ 8 ∧ 0x5FFFC + storedW.n ≤ 1536 * 256) :=
  ⟨fun _ => ⟨rfl, rfl, rfl, ready_one _ rfl 0⟩, by decide +kernel, by decide +kernel, by decide +kernel⟩

def loaded : Op := opOf (memI .ld .ld (mem .i8)) (laneOf 0 0x2007F (.mem 0x2007F 0) .pending 0 0)
def polled : Op := opOf (mbxI .mpoll .ld (.s 95)) (laneOf 0 0 .none .pending 0xFFFF 0)

theorem witness_LoadEffects :
    ((under loaded).laneAt 1 0 = some (loaded, loaded.lanes.headD (engLane 0)) ∧ loaded.kind.isLoad = true ∧
      (under loaded).canPerform loaded (loaded.lanes.headD (engLane 0)) = true ∧ loaded.n = loaded.ty.size ∧ loaded.fe = false ∧ loaded.d = .v 2 ∧
      (loaded.lanes.headD (engLane 0)).dl = 2 ^ fkL 0 ∧ (under loaded).renames 0 = [] ∧
      (under loaded).snapOf 0 = none ∧ (under loaded).mem.stages = [] ∧
      ∀ p ∈ (under loaded).ops, ∀ y ∈ p.lanes, p.kind.isStore = true → y.st = .done) ∧
    ((under polled).laneAt 1 0 = some (polled, polled.lanes.headD (engLane 0)) ∧ polled.kind = .mpoll ∧ polled.d = .s 95) :=
  ⟨by decide +kernel, by decide +kernel⟩

def atomed : Op := opOf (atomI .atom .ld { mem .i64 with pol := 7 } 8) (laneOf 0 0x20000 (.mem 0x20000 1) .pending 1 2)
def raised : Op := opOf (tlI .tladd (mem .z64)) (laneOf 0 0x20000 (.mem 0x20000 0) .pending (2 ^ 64 - 1) 255)

theorem witness_AtomicEffects :
    (∀ o, (∀ q y, (under o).fib q = some y → y.stat = .ready) ∧ (under o).allReady 0) ∧
    ((under atomed).laneAt 1 0 = some (atomed, atomed.lanes.headD (engLane 0)) ∧ (under atomed).canPerform atomed (atomed.lanes.headD (engLane 0)) = true ∧
      atomed.n = atomed.ty.size ∧ atomed.aux = 7 ∧ atomed.ty.isInt = true ∧ (under atomed).renames 0 = [] ∧ (under atomed).mem.stages = [] ∧
      ∀ p ∈ (under atomed).ops, p.id = 1 → p = atomed) ∧
    ((under raised).laneAt 1 0 = some (raised, raised.lanes.headD (engLane 0)) ∧ (under raised).canPerform raised (raised.lanes.headD (engLane 0)) = true ∧
      raised.n = 8 ∧ (raised.lanes.headD (engLane 0)).src < 2 ^ 64) :=
  ⟨fun _ => ⟨all_fib (s := base) (P := fun _ y => y.stat = .ready) (by decide), ready_one _ rfl 0⟩, by decide +kernel, by decide +kernel⟩

/-! ### Waits that end -/

def asking (n : Nat) : State := State.withFibs few [(0, st (.allot n 0))]

/-- The oldest request with and without chunks enough; a stalled `shrink`. -/
theorem witness_GrantAndLimitEffects :
    (Calm (asking 48) 0 small ∧ (asking 48).fib 0 = some (st (.allot 48 0)) ∧ (asking 48).requests 0 = [(0, 0, 48)] ∧ 48 ≤ (asking 48).freeCount 0 ∧
      (asking 2).requests 0 = [(0, 0, 2)] ∧ (State.withFibs full [(0, st (.allot 48 0))]).freeCount 0 < 46) ∧
    (let s := State.withFibs base [(0, st (.shrink 1 48))]
     (st (.shrink 1 48)).stat = .shrink 1 48 ∧ s.groupFibs 0 0 = [0] ∧ s.owedAbove 0 0 1 = false) :=
  ⟨⟨⟨rfl, rfl, rfl, by decide⟩, rfl, by decide, by decide, by decide, by decide +kernel⟩, by decide⟩

/-- A barrier whose timeout has come at the last tick and one whose has not; a frame's limit and a residence budget at their ticks. -/
theorem witness_GrantAndLimitEffects_limits :
    (let b : Block := { placedBlock with clFirst := [(keyBar, some 10)] }
     let s := State.withBlock (State.withFibs { base with tick := 10 } [(0, placedFibre), (1, st .bar)]) b
     s.block? 0 = some b ∧ b.running = true ∧ (0 < 10 ∧ 10 ≤ s.tick) ∧ s.arrived 0 keyBar = [1] ∧ s.fib 1 = some (st .bar) ∧ s.entering 0 = false ∧
       b.frames = [] ∧ (s.genFibs 0 keyBar).length * 2 ^ 32 + 1 < 2 ^ 64) ∧
    (let s := State.withBlock { base with tick := 100 } (inside [frame0])
     s.block? 0 = some (inside [frame0]) ∧ (inside [frame0]).running = true ∧ frame0.dead = some 100 ∧ 100 ≤ s.clockOf 0) ∧
    (let s := State.withLaunch { base with tick := 7 } { placedLaunch with rcb := { placedRcb with cycbud := 7 } }
     0 < (s.rcbOf 0).cycbud ∧ placedBlock.clDone = false ∧ (s.rcbOf 0).cycbud ≤ placedBlock.cyc + (s.clockOf 0 - placedBlock.since) ∧ placedBlock.frames = []) :=
  ⟨by decide, by decide, by decide⟩

def stuck : Op := opOf (memI .st .st (mem .b32)) (laneOf 0 0x1000000000 .none .sideFull 1 15)
def inc : Op := opOf (mbxI .pverInc .st (.s 95)) (laneOf 0 0 .none .pending 0 0)
def over_ : Op := { stored with fin := true, lanes := [{ stored.lanes.headD (engLane 0) with st := .done, wct := 5 }] }

theorem witness_RetireAndPageEffects :
    (let s := State.withFibs (under stuck) [(0, { st .sideFull with pc := base.ipc })]
     stuck.kind = .st ∧ stuck.fset = false ∧ (stuck.lanes.headD (engLane 0)).st = .sideFull ∧ (stuck.lanes.headD (engLane 0)).dl = 2 ^ fkL 0 ∧
       s.fib 0 = some { st .sideFull with pc := stuck.pc } ∧ s.check 0 0x1000000000 4 4 .store false = .absent .none ∧
       s.check 0 0x20000 4 4 .store false = .ok (.mem 0x20000 0)) ∧
    (over_.kind ≠ .ctxq ∧ over_.fin = true ∧ (under over_).allReady 0) ∧
    (inc.kind = .pverInc ∧ inc.d = .s 95 ∧ (under inc).allReady 0 ∧ (under inc).block? 0 = some placedBlock ∧ (under inc).launch? 0 = some placedLaunch) ∧
    (let s := State.withFibs base [(0, st (.page 0x20000)), (1, placedFibre)]
     s.ops = [] ∧ s.cmds = [] ∧ s.walk 0 (0x2FFFF % 2 ^ 56) = .leaf 0x2FFFF 0 (2 ^ 36) true true true ∧ swf none s.rs.fibres = true ∧
       ∀ k y, s.fib k = some y → y.stat = .ready ∨ ∃ q, y.stat = .page q) ∧
    (let s := State.withFibs { base with mem := { base.mem with preq := [(0, 0x20000)] } } [(0, st (.page 0x2FFFF))]
     (0, 0x2FFFF % 2 ^ 56 / 65536 * 65536) ∈ s.mem.preq ∧ s.rs.fibres = [(0, some (st (.page 0x2FFFF)))] ∧ Calm s 0 placedBlock ∧ s.ctxOf 0 = 0) :=
  ⟨by decide +kernel, ⟨by decide, rfl, ready_one _ rfl 0⟩, ⟨rfl, rfl, ready_one _ rfl 0, rfl, rfl⟩,
    ⟨rfl, rfl, by decide, by decide, fun k y h => (all_fib (s := State.withFibs base [(0, st (.page 0x20000)), (1, placedFibre)])
      (P := fun _ y => y.stat = .ready ∨ y.stat = .page 0x20000) (by decide) k y h).imp id fun h => ⟨_, h⟩⟩,
    by decide, rfl, ⟨rfl, rfl, rfl, by decide⟩, rfl⟩

/-! ### Mailboxes and episodes -/

def box (b : Mbx) (s : State) : State := { s with hub := { s.hub with mbx := [(0xFFFF, some b)] } }

/-- A send without a payload to the last mailbox, and a receive from it. -/
def sent : Op := opOf (mbxI .msend .st (.s 95)) (laneOf 0 0x20000 .none .pending (0xFFFF * 2 ^ 80) 0)
def recvd : Op := opOf (mbxI .mrecv .ld (.v 0)) { laneOf 0 0x20000 .none .pending (0xFFFF * 2 ^ 80 + 64 * 2 ^ 96) 0 with wct4 := 1 }
def idle : Mbx := { Mbx.reset with st := .idle, running := true }

/-- An idle mailbox, one bound to another launch (MB), a killed one, and one whose policy version changed, in BLOCK and in INTERRUPT mode. -/
theorem witness_MailboxEffects :
    (∀ b, (box b (under sent)).allReady 0 ∧ (box b (under sent)).block? 0 = some placedBlock ∧ (box b (under sent)).launch? 0 = some placedLaunch ∧
      readPieces (sent.asCmd (sent.lanes.headD (engLane 0)) 2) (pieces 16 0x20000 0) (box b (under sent)) = .ok [] (box b (under sent))) ∧
    ((sent.lanes.headD (engLane 0)).src / 2 ^ 65 % 2 ^ 15 = 0 ∧ (sent.lanes.headD (engLane 0)).src / 2 ^ 80 % 2 ^ 16 = 0xFFFF ∧
      ((box idle (under sent)).mbxNow 0xFFFF).st = .idle ∧ ((box { idle with bound := some 7 } (under sent)).mbxNow 0xFFFF).bound = some 7 ∧
      ((box { idle with kill := true } (under sent)).mbxNow 0xFFFF).kill = true ∧
      ((box { idle with ver := some 3, epi := 2 ^ 151 } (under sent)).mbxNow 0xFFFF).epi.toNat / 2 ^ 150 % 4 = 2) :=
  ⟨fun _ => ⟨ready_one _ rfl 0, rfl, rfl, rfl⟩, by decide +kernel⟩

theorem witness_MailboxEffects_delivery :
    (let s := State.withFibs (box { idle with st := .obs } (under recvd)) [(0, { st .lane with pc := base.ipc })]
     s.fib 0 = some { st .lane with pc := recvd.pc } ∧ recvd.fin = false ∧ (recvd.lanes.headD (engLane 0)).wct4 ≠ 0 ∧
       (recvd.lanes.headD (engLane 0)).dl = 2 ^ fkL 0 ∧ s.block? 0 = some placedBlock ∧ (s.mbxNow 0xFFFF).st = .obs ∧ s.winCheck 0 64 64 64 = none ∧
       (recvd.lanes.headD (engLane 0)).val = 0 ∧ (recvd.lanes.headD (engLane 0)).src / 2 ^ 65 % 2 ^ 15 = 0) ∧
    (∀ k y, (State.withFibs base [(0, st .lane)]).fib k = some y → k ≠ 0 → y.stat = .ready) :=
  ⟨by decide +kernel, all_fib (P := fun k y => k ≠ 0 → y.stat = .ready) (by decide)⟩

/-- A valid record of context 0: window of one page 2 GiB into a partition of 3 GiB at 0. -/
def epRec : Nat := 0x8000 * 2 ^ 16 + 2 ^ 75 + 2 ^ 149
def ask : Ask := { ctx := 0, d := epRec + 0xFFFF * 2 ^ 256, addr := 0x30000 }

theorem witness_EpisodeEffects :
    ((box { idle with st := .act } base).mbxNow 0xFFFF).st = .act ∧ ((box { idle with st := .run } base).mbxNow 0xFFFF).running = true ∧
      (base.mbxNow 0xFFFF).st = .free ∧ ((box idle base).mbxNow 0xFFFF).running = true ∧
      (let b := (box { idle with st := .run, epi := 2 ^ 184, cycles := 1 } base).mbxNow 0xFFFF
       b.epi.toNat / 2 ^ 184 % 2 ^ 40 ≠ 0 ∧ b.cycles ≤ 1 ∧ b.epi.toNat / 2 ^ 184 % 2 ^ 40 ≤ 1) ∧
      (let s := box { idle with st := .act, dead := some 4 } { base with tick := 5 }
       (s.mbx 0xFFFF).dead = some 4 ∧ 4 < s.tick) ∧
      ((box { idle with st := .ended } base).mbx 0xFFFF).st = .ended ∧
      (let s := box { idle with st := .obs, obs := 2 ^ 48 } base
       (s.mbx 0xFFFF).st = .obs ∧ (s.mbx 0xFFFF).obs.toNat / 2 ^ 48 % 2 = 1) ∧
      (let s : State := { base with hub := { HubSt.reset with asks := [ask] }, host := { base.host with envcfg := 3 } }
       s.hub.asks = [ask] ∧ ask.d / 2 ^ 256 % 2 ^ 16 = 0xFFFF ∧ ask.d % 2 ^ 256 = epRec ∧ ask.d / 2 ^ 448 % 2 ^ 64 = 0 ∧ (s.mbx 0xFFFF).st = .free ∧
         epRec / 2 ^ 149 % 2 = 1 ∧ epRec / 2 ^ 128 % 2 ^ 15 = 0 ∧ s.envPart = some (0, 3 * 2 ^ 30) ∧ epRec / 2 ^ 75 % 2 ^ 21 = 1 ∧
         0 + 2 ^ 31 ≤ epRec / 2 ^ 16 % 2 ^ 48 * 2 ^ 16) := by
  decide +kernel

/-- An episode on the last hart, one that waits for the first free hart, and one that waits while all 128 run; the last byte of its window, and the first
address beyond every range. -/
theorem witness_EpisodeEffects_harts :
    (let b : Mbx := { idle with st := .act, hart := some 127, epi := 0x8000 * 2 ^ 16 + 2 ^ 75 }
     let y := (box b base).mbxNow 0xFFFF
     y.running = true ∧ y.hart = some 127 ∧ 0xFFFF + 1 ≤ y.epi.toNat / 2 ^ 75 % 2 ^ 21 * 65536 ∧ 0x30000004000 ≤ 0x30000004000 ∧
       y.epi.toNat / 2 ^ 75 % 2 ^ 21 ≤ 2 ^ 20 ∧ (box b base).mem.homePois ((y.epi.toNat / 2 ^ 16 % 2 ^ 48 * 2 ^ 16 + 0xFFFF) / 128) = false) ∧
    (let y := (box { idle with st := .act } base).mbxNow 0xFFFF
     y.running = true ∧ y.hart = none ∧ ∀ p ∈ (box { idle with st := .act } base).hub.mbx, ∀ z, p.2 = some z → z.hart ≠ some 0) ∧
    (let full := (List.range 128).map fun h => (h, some { idle with hart := some h })
     ∀ k < 128, ∃ p ∈ full, p.2 = some { idle with hart := some k }) :=
  ⟨by decide +kernel, ⟨rfl, rfl, by simp [box, idle, Mbx.reset]⟩, fun k hk => ⟨(k, _), List.mem_map.mpr ⟨k, List.mem_range.mpr hk, rfl⟩, rfl⟩⟩

/-! ### Engines: execution -/

/-- A command that is alone: operation 1, command 2. -/
def cmd (k : CmdKind) (d : Nat) (st : CmdStat) : Cmd := { base.cmdOf (only 0) k with id := 2, op := 1, desc := BitVec.ofNat 1024 d, stat := st }
def engOp : Op := opOf (engI .cp) (engLane 0)
def alone (c : Cmd) : State := { base with seq := 3, ops := [engOp], cmds := [c] }

theorem alone_cmd (k : CmdKind) (d : Nat) (f : CmdStat) : Alone (alone (cmd k d f)) (cmd k d f) engOp placedBlock :=
  ⟨rfl, rfl, rfl, rfl, rfl, rfl, rfl, rfl, rfl, Nat.zero_lt_one, ready_one _ rfl 0, rfl⟩

/-- A fetch of 16 single bytes from 0x20000 to the last granule of the window; a put under FEW from an empty granule; parts done. -/
def fetchDesc : Nat := 0x20000 + 0x5FFF0 * 2 ^ 64 + 15 * 2 ^ 128 + 2 ^ 192 + 255 * 2 ^ 368

theorem witness_LadleEffects :
    (∀ k d f, Alone (alone (cmd k d f)) (cmd k d f) engOp placedBlock) ∧
    (let c := cmd .lfetch fetchDesc .queued
     let s := alone c
     let d := c.desc.toNat
     0 ∈ ldCores c.kind c.core d ∧ c.parts = [] ∧ c.prog = [] ∧ c.skip = [] ∧ s.ch.ahead = 0 ∧ ldMisaligned .lfetch d = false ∧ ldTureen d = false ∧
       ldDkind d = 0 ∧ ldRing d = 255 ∧ ldBytes d = 16 ∧ s.ldPartCheck c 0 c.bk = none ∧
       ∀ e < ldBytes d / ldEsz d, s.check (s.ctxOf c.bk) (ldElem d e) (ldEsz d) (ldEsz d) .load false = .ok (.mem (0x20000 + e) 0) ∧
          s.memUp (0x20000 + e) 0 = true ∧ s.mem.homePois ((0x20000 + e) / 128) = false) ∧
    (let c := cmd .lput (fetchDesc + 2 ^ 428) .queued
     let s := alone c
     let d := c.desc.toNat
     c.prog = [] ∧ c.parts = [] ∧ ldDkind d = 0 ∧ ldFew d = true ∧ 16 ≤ ldBytes d ∧ winOff (ldLaddr d) + 16 ≤ 256 * s.allot c.bk 0 ∧
       s.granFull c.bk 0 (winOff (ldLaddr d)) = false) :=
  ⟨alone_cmd, by decide +kernel, by decide +kernel⟩

theorem witness_LadleEffects_ends :
    (let c : Cmd := { cmd .lfetch fetchDesc .queued with parts := [0] }
     Alone (alone c) c engOp placedBlock ∧ c.parts = [c.core]) ∧
    (let c : Cmd := { cmd .lput fetchDesc .queued with parts := [0], wct := 5 }
     Alone (alone c) c engOp placedBlock ∧ Alone { alone c with tick := 6 } c engOp placedBlock ∧ (0 : Nat) < c.wct ∧ (alone c).tick ≤ c.wct) :=
  ⟨⟨⟨rfl, rfl, rfl, rfl, rfl, rfl, rfl, rfl, rfl, Nat.zero_lt_one, ready_one _ rfl 0, rfl⟩, rfl⟩,
    ⟨rfl, rfl, rfl, rfl, rfl, rfl, rfl, rfl, rfl, Nat.zero_lt_one, ready_one _ rfl 0, rfl⟩,
    ⟨rfl, rfl, rfl, rfl, rfl, rfl, rfl, rfl, rfl, Nat.zero_lt_one, ready_one _ rfl 0, rfl⟩, by decide, by decide⟩

end Sys2Proof.Tests
end

