-- ==== Sys2Proof/Tests/Witness2.lean ====
section
/-!
SUPPORT. States and operands that meet the hypotheses of the statements on engines' results, recovery, placement, the host and the board.
-/
namespace Sys2Proof.Tests
set_option Elab.async false
open Sys2Proof Sys2Proof.Machine

/-- A dense INT8 `gmma` of one row, column and element with A in v8 and B in slot 0. -/
def mmaDesc : Nat := 3 * 2 ^ 4 + 3 * 2 ^ 8 + 0x800 * 2 ^ 128
def banked (c : Cmd) (b : Bank) : State := { alone c with eng := { EngSt.reset with banks := [(0, some b)] } }

theorem alone_banked (k : CmdKind) (d : Nat) (f : CmdStat) (b : Bank) : Alone (banked (cmd k d f) b) (cmd k d f) engOp placedBlock :=
  ⟨rfl, rfl, rfl, rfl, rfl, rfl, rfl, rfl, rfl, Nat.zero_lt_one, ready_one _ rfl 0, rfl⟩

theorem witness_GriddleEffects :
    (∀ k d f b, Alone (banked (cmd k d f) b) (cmd k d f) engOp placedBlock) ∧
    (let c := cmd .gmma mmaDesc .running
     let s := banked c { Bank.reset with wmode := true }
     let d := c.desc.toNat
     emuFmt (gAfmt d) = false ∧ emuFmt (gBfmt d) = false ∧ gResume d = false ∧ gAcc d = false ∧ s.ch.ahead = 0 ∧ c.prog = [] ∧ c.b = 0 ∧ gOp d = 0 ∧
       gAfmt d = 3 ∧ gBfmt d = 3 ∧ gK d ≤ 32 ∧ gChk d = false ∧ gSca d = false ∧ gScb d = false ∧ gLken d = false ∧ gS24 d = false ∧ gAfe d = false ∧
       gRgen d = false ∧ gIen d = false ∧ (s.bankAt c).cells = [] ∧ (s.bankAt c).w = 0 ∧ (s.bankAt c).wmode = true ∧
       (∀ m < gM d, ∀ k < gK d, let r := winOff (gAbase d) / 256 + 2 * (k / 4) + m / 64
          r < s.allot c.bk (winGrp (gAbase d)) ∧ s.vpois c.bk (winGrp (gAbase d)) r (m % 64) = false)) ∧
    (let c := cmd .gdrain (5 * 2 ^ 12) .running
     let s := banked c Bank.reset
     gOfmt c.desc.toNat = 5 ∧ (s.bankAt c).bad = false ∧ ∀ m < gM c.desc.toNat, ∀ n < gN c.desc.toNat,
       winOff (gObase c.desc.toNat) / 256 + 2 * n + m / 64 < s.allot c.bk (winGrp (gObase c.desc.toNat))) ∧
    ((banked (cmd .gdrain (5 * 2 ^ 12) .running) { Bank.reset with bad := true }).bankAt (cmd .gdrain (5 * 2 ^ 12) .running)).bad = true :=
  ⟨alone_banked, by decide +kernel, by decide +kernel, by decide +kernel⟩

/-- A `gload` of the last 16 bytes of the window to slot 15; two commands on one bank. -/
theorem witness_GriddleEffects_load :
    (let d := 0x5FFF0 + 15 * 2 ^ 32 + 131056 * 2 ^ 36 + 16 * 2 ^ 64
     let c := cmd .gload d .running
     c.desc.toNat = d ∧ (alone c).slotTaken c.core 15 c.bk = false ∧ winOff (d % 2 ^ 32) + 16 = 256 * (alone c).allot c.bk (winGrp (d % 2 ^ 32)) ∧
       (alone c).wpois c.bk (winGrp (d % 2 ^ 32)) (winOff (d % 2 ^ 32)) 16 = false) ∧
    (let e := { cmd .gzero 0 .queued with id := 1 }
     let c := cmd .gmma mmaDesc .queued
     let s : State := { alone c with cmds := [e, c] }
     s.cmds = [e, c] ∧ e.id ≠ c.id ∧ e.core = c.core ∧ e.stat ≠ .done ∧ c.stat = .queued ∧ e.sub = c.sub) ∧
    ({ cmd .gstat 0 .running with du := some 95 } : Cmd).du = some 95 := by decide +kernel

/-- A counter record at the end of the window; a record that is sound; commands with every sample selected. -/
theorem witness_JasperEffects :
    (∀ k a b sub va vb, let c : Cmd := { cmd k 0 .queued with addr := a, b := b, sub := sub, va := va, vb := vb }
      Alone (alone c) c engOp placedBlock ∧ c.stat = .queued) ∧
    (let s := alone (cmd .cseed 0 .queued)
     winOff 0x5FFF0 + 16 ≤ 256 * s.allot 0 (winGrp 0x5FFF0) ∧ s.wpois 0 (winGrp 0x5FFF0) (winOff 0x5FFF0) 16 = false ∧
       winOff 0x5FE80 + 320 ≤ 256 * s.allot 0 (winGrp 0x5FE80) ∧ s.wpois 0 (winGrp 0x5FE80) (winOff 0x5FE80) 320 = false ∧ 1535 < s.allot 0 0 ∧ 15 < 16) ∧
    (let r := 512 * 2 ^ 272 + 256 * 2 ^ 256
     r / 2 ^ 288 % 2 ^ 224 = 0 ∧ r / 2 ^ 272 % 2 ^ 16 = 512 ∧ r / 2 ^ 256 % 2 ^ 16 = 256 ∧ ∀ n ∈ List.range 256, r / 2 ^ (512 + 8 * n + 6) % 4 = 0) :=
  ⟨fun _ _ _ _ _ _ => ⟨⟨rfl, rfl, rfl, rfl, rfl, rfl, rfl, rfl, rfl, Nat.zero_lt_one, ready_one _ rfl 0, rfl⟩, rfl⟩, by decide +kernel, by decide +kernel⟩

/-! ### Recovery, stops and limits -/

/-- A block whose one frame fails, in the given mode. -/
def failing (m : BMode) (f : Frame) : Block := { inside [f] with mode := m, failDepth := 1 }

/-- A record of the last register, owned by the frame's generation; an alternate left, none left, and a replay. -/
theorem witness_RecoveryEffects :
    (∀ m f, (State.withBlock base (failing m f)).block? 0 = some (failing m f) ∧ (failing m f).st = .resident ∧ (failing m f).frames = [f] ∧
      (failing m f).failDepth = 1) ∧ base.ops = [] ∧ base.cmds = [] ∧ frame0.conv = none ∧ frame0.rlog = [] ∧ swf none base.rs.fibres = true ∧
    (let r : Rec := { gen := 1, tagged := true, item := .vreg 1535, vals := List.replicate 64 7, poison := 0, held := [], bank := none, jas := none, off := 0, spill := none }
     let g : Group := { Group.none with chunks := span 0 48, recs := [r] }
     g.held = [] ∧ r.gen = frame0.gens.getD 0 0 ∧ r.vals.length = 64 ∧ r.item = .vreg 1535) ∧
    frame0.k < frame0.nalt ∧ decode (frame0.alts.getD frame0.k 0) = .ok (.elseby on (.disp 4)) ∧
    (let f : Frame := { frame0 with k := 1, cause := 8 }
     f.nalt ≤ f.k ∧ f.sil = none) :=
  ⟨fun _ _ => ⟨rfl, rfl, rfl, rfl⟩, rfl, rfl, rfl, rfl, by decide, ⟨rfl, rfl, rfl, rfl⟩, by decide, by decide, by decide, rfl⟩

def fault0 : FaultRec := ⟨4, 0x10000, 0x20000, 0, 0⟩

theorem witness_StopEffects :
    (∀ b : Block, b.uid = 0 → (State.withBlock base b).block? 0 = some b ∧ (State.withBlock base b).allReady 0) ∧
    (let b : Block := { inside [frame0] with reports := [(fault0, 65536 + 1)] }
     b.uid = 0 ∧ b.st = .resident ∧ b.mode = .run ∧ b.reports = [] ++ (fault0, 65536 + frame0.gens.getD fault0.grp 0) :: [] ∧ frame0.gens.getD 0 0 < 65536) ∧
    (let b : Block := { placedBlock with mode := .freezing, fault := some fault0 }
     b.uid = 0 ∧ b.mode = .freezing ∧ b.tickets = [] ∧ base.launch? b.lid = some placedLaunch ∧ placedLaunch.rings = [] ∧ placedLaunch.status = 0 ∧
       placedLaunch.halt = false ∧ b.fault = some fault0 ∧ ((State.withBlock base b).blocks.map Block.uid).Nodup) ∧
    (frame0.conv = none ∧ frame0.repl = false ∧ placedBlock.effects = false ∧ placedBlock.replayed = false ∧ placedBlock.reports = []) ∧
    (let e := cmd .lfetch fetchDesc .queued
     let s : State := { State.withBlock (alone e) { placedBlock with mode := .saving } with tick := 2048 }
     s.block? 0 = some { placedBlock with mode := .saving } ∧ placedBlock.stopAt + 2048 ≤ s.clockOf 0 ∧ s.cmds = [e] ∧ s.ops = [engOp] ∧ engOp.id = e.op ∧
       engOp.kind = .eng ∧ e.bk = 0 ∧ e.kind.ladle = true ∧ e.stat ≠ .done ∧ placedBlock.saved = none) :=
  ⟨fun b h => ⟨by simp [State.block?, State.withBlock, h], ready_one _ rfl 0⟩, by decide, by decide, by decide, by decide +kernel⟩

/-- The last word of the arrays and of the register store; a first silent error in a frame, and a second one; a record already held by the bank. -/
theorem witness_StopEffects_silent :
    0 ∈ placedBlock.cores ∧ (2 ^ 16 ≤ 2 ^ 16 + 2 ^ 18 - 8 ∧ (2 ^ 16 + 2 ^ 18 - 8) % 8 = 0) ∧ (2 ^ 22 - 8) % 8 = 0 ∧ base.cmds = [] ∧ ({ frame0 with repl := true } : Frame).conv = none ∧ sget none base.host.erb 0 = none ∧
      ({ placedBlock with effects := true } : Block).effects = true := by decide

/-- An object at 0x20000 with `w`, one vote under way, and block 0 in a conversation there. -/
def conv0 : Frame := { frame0 with conv := some (0x20000, 0x20000) }
def talk (w : Nat) (v : Vote) : State :=
  let s := State.withDram (State.withBlock base (inside [conv0])) 0x20000 (natBytes 128 w)
  { s with hub := { s.hub with votes := [(0, 0x20000, v)], convs := [(0x20000, some { Conv.none with members := [0], dead := some 7 })] } }

/-- Two members joined: Open with one vote and with none, Failing; a notice; VTO at its tick. -/
theorem witness_ConversationEffects :
    (let w := convObj (talk (2 + 2 ^ 8 + 2 * 2 ^ 32 + 2 ^ 48) .acc) 0x20000
     w / 2 ^ 8 % 4 = 1 ∧ w / 2 ^ 48 % 2 ^ 8 + 1 = w % 2 ^ 5 ∧ w / 2 ^ 32 % 2 ^ 8 = w % 2 ^ 5) ∧
    (let s := talk (2 + 2 ^ 8 + 2 ^ 32) .acc
     let w := convObj s 0x20000
     s.hub.votes = [(0, 0x20000, .acc)] ∧ w / 2 ^ 8 % 4 = 1 ∧ ¬(w / 2 ^ 48 % 2 ^ 8 + 1 = w % 2 ^ 5 ∧ w / 2 ^ 32 % 2 ^ 8 = w % 2 ^ 5) ∧ s.ops = [] ∧
       s.mem.stages = [] ∧ swf none s.rs.fibres = true ∧ 0 ∈ (s.conv 0x20000).members ∧ s.block? 0 = some (inside [conv0]) ∧
       (s.conv 0x20000).dead = some 7 ∧ s.tick < 7 ∧ 7 ≤ ({ s with tick := 7 } : State).tick) ∧
    (let s := talk (2 + 2 * 2 ^ 8 + 2 * 2 ^ 32) .ready
     let w := convObj s 0x20000
     w / 2 ^ 8 % 4 = 2 ∧ w / 2 ^ 48 % 2 ^ 8 + 1 < w % 2 ^ 5 ∧ conv0.conv ≠ none ∧ conv0.k < 16) ∧
    (let s : State := { talk 2 .acc with hub := { (talk 2 .acc).hub with votes := [], notices := [0] } }
     0 ∈ s.hub.notices ∧ s.block? 0 = some (inside [conv0]) ∧ (inside [conv0]).running = true ∧ conv0.conv = some (0x20000, 0x20000) ∧
       0 ∉ (s.conv 0x20000).ready ∧ s.hub.votes = []) := by decide +kernel

/-- The last acceptance with every member joined, one of them running and one saved. -/
theorem witness_ConversationEffects_accepted :
    let s := talk (1 + 2 ^ 8 + 2 ^ 32) .acc
    let w := convObj s 0x20000
    let b : Block := { inside [conv0] with st := .saved }
    s.hub.votes = [(0, 0x20000, .acc)] ∧ w / 2 ^ 8 % 4 = 1 ∧ w / 2 ^ 48 % 2 ^ 8 + 1 = w % 2 ^ 5 ∧ w / 2 ^ 32 % 2 ^ 8 = w % 2 ^ 5 ∧ s.ops = [] ∧
      s.mem.stages = [] ∧ swf none s.rs.fibres = true ∧ 0 ∈ (s.conv 0x20000).members ∧ s.block? 0 = some (inside [conv0]) ∧
      (inside [conv0]).st = .resident ∧ (inside [conv0]).mode ≠ .freezing ∧ ({ s with blocks := [b] } : State).block? 0 = some b ∧ b.st = .saved ∧
      b.mode ≠ .freezing := by decide +kernel

/-! ### The Whisk, placement and the ends of blocks and launches -/

theorem witness_BundleEffects :
    (let a : Bundle := { Bundle.form 0 [] [0] with demoted := some 0, recon := [⟨0x10030, 1⟩], hold := some 0 }
     ({ base with tick := 256, bundles := [a] } : State).bundles[0]? = some a ∧ 0 + 256 ≤ 256 ∧ 0 + 1024 ≤ 1024) ∧
    (let s : State := { pair .ready with bundles := [Bundle.form 0 [] [0], Bundle.form 0 [] [1]] }
     s.bundles[0]? = some (Bundle.form 0 [] [0]) ∧ s.bundles[1]? = some (Bundle.form 0 [] [1]) ∧ (Bundle.form 0 [] [0]).hold = none ∧
       (Bundle.form 0 [] [1]).hold = none ∧ (Bundle.form 0 [] [0]).fibs ≠ [] ∧ s.place 0 = s.place 1 ∧ (s.place 0).isSome = true ∧
       s.mayIssue 0 (Bundle.form 0 [] [0]) = true ∧ 1 ∉ s.ch.late ∧ s.seatOf (Bundle.form 0 [] [1]) = s.seatOf (Bundle.form 0 [] [0]) ∧
       ∀ x ∈ (Bundle.form 0 [] [1]).fibs, s.reported x = false) := by decide

/-- A launch with one block to place: core 0 has room, core 1 is not ready, and core 191 is of a quadrant without ready cores. -/
def next0 : Launch := { placedLaunch with next := 0, clus := 0, resc := 16 }
def placing (l : Launch) : State := State.withLaunch base l

theorem witness_PlacementEffects :
    (let s := placing next0
     s.launch? next0.lid = some next0 ∧ next0.owner = none ∧ next0.anc = [] ∧ next0.rcb.det = false ∧ next0.next < next0.grid ∧
       (∀ x ∈ s.blocks, x.uid < s.seq) ∧ 0 + 2 ^ next0.clus ≤ 192 ∧ s.host.hubReady.testBit (32 + 0 / 48) = true ∧ s.host.stopped = false ∧
       next0.halt = false ∧ (s.regionCores next0.lid ++ span 0 1).eraseDups.length ≤ next0.rcb.cores ∧
       (sget 0 s.host.coreRdy 0).testBit 0 = true ∧ (s.coreGroups 0).length + 1 ≤ 64 ∧ 1 * (next0.allotc + next0.resc) ≤ s.freeCount 0) ∧
    (sget 0 base.host.coreRdy 0).testBit 1 = false ∧ (sget 0 base.host.coreRdy 3).testBit 47 = false := by decide +kernel

def task0 : TaskRec :=
  { desc := 0, child := 0, poster := 9, quad := 0, core := 0, arr := 0, waits := [], olds := [], ready := true, done := false, ren := [], bufset := [], rq := 0 }

/-- A saved block that wakes, and a task at the head of its queue, with a core for each; a core out of range. -/
theorem witness_PlacementEffects_waiting :
    (let b : Block := { placedBlock with st := .saved, saved := some ⟨true, [], [], [], [], [], []⟩ }
     let s := State.withLaunch (State.withBlock base b) next0
     s.block? 0 = some b ∧ s.launch? b.lid = some next0 ∧ s.placeOk b next0 0 = true ∧ s.placeOk b next0 192 = false ∧ b.st = .saved ∧ s.wakes b = true) ∧
    (let b : Block := { placedBlock with st := .pending, task := some task0 }
     let s := State.withLaunch (State.withBlock base b) next0
     s.block? 0 = some b ∧ s.placeOk b next0 0 = true ∧ b.st = .pending ∧ b.task ≠ none ∧ s.queueHead 0 = some 0) := by decide +kernel

/-- A block that has been placed: new, with 96 constants, and restored, with a command to issue again. -/
theorem witness_PlacementEffects_done :
    (let b : Block := { placedBlock with st := .placing, uid := 5 }
     let l := { next0 with consts := List.replicate 96 7 }
     let s := State.withLaunch (State.withBlock base b) l
     s.block? 5 = some b ∧ s.launch? b.lid = some l ∧ b.mode = .run ∧ b.fault = none ∧ s.host.stopped = false ∧ l.halt = false ∧ b.frames = [] ∧
       b.saved = none ∧ b.ngrp ≤ 128 ∧ l.consts.length ≤ 96) ∧
    (∀ k, fkBk k = 5 → base.fib k = none) ∧
    (let v : Saved := ⟨true, [], [], [], [], [cmd .lfetch fetchDesc .queued], []⟩
     let b : Block := { placedBlock with st := .placing, saved := some v }
     b.saved = some v ∧ v.back = true ∧ v.permits = [] ∧ base.cmds = []) ∧ base.allReady 0 :=
  ⟨by decide +kernel, fun k hk => by
      cases h : base.fib k with
      | none => rfl
      | some y =>
        have h0 := all_fib (s := base) (P := fun k _ => k = 0) (by decide) k y h
        subst h0; exact absurd hk (by decide),
    ⟨rfl, rfl, rfl, rfl⟩, ready_one _ rfl 0⟩

/-- A launch of higher priority whose 64 groups core 0, the one that is ready, has no room for. -/
def greedy : Launch := { next0 with lid := 2 ^ 64 + 1, grpm1 := 63, rcb := { placedRcb with prio := 7 } }
def crowded : State := { base with launches := [placedLaunch, greedy] }

/-- A launch of higher priority asks for room and none does; a block that has stopped to be saved; a block whose fibres all await. -/
theorem witness_SaveEffects :
    (crowded.block? 0 = some placedBlock ∧ crowded.launch? 0 = some placedLaunch ∧ placedBlock.st = .resident ∧ crowded.ops = [] ∧ crowded.cmds = [] ∧
      (∀ x ∈ crowded.blocks, x = placedBlock ∨ x.st = .retired) ∧ (∀ gr ∈ placedBlock.groups, gr.chunks.length ≤ 48) ∧
      placedBlock.cores.length ≤ placedLaunch.rcb.cores ∧ placedLaunch.rcb.prio < greedy.rcb.prio ∧ crowded.hasNext greedy = true ∧
      (∀ c < 192, crowded.placeOk (crowded.nextBlock greedy) greedy c = false) ∧ crowded.siteOk (crowded.nextBlock greedy) greedy 0 = true) ∧
    (∀ q ∈ base.launches, q.rcb.prio ≤ placedLaunch.rcb.prio) ∧ ({ placedBlock with mode := .saving } : Block).mode = .saving ∧
    (let s := State.withFibs base [(0, st (.timeline (.mem 0x20000 0) 1 0 true))]
     s.blockFibs 0 = [0] ∧ s.fib 0 = some (st (.timeline (.mem 0x20000 0) 1 0 true))) := by decide +kernel

theorem witness_RetirementEffects :
    (base.launch? placedBlock.lid = some placedLaunch ∧ placedLaunch.rcb.det = false ∧ placedBlock.task = none ∧ placedLaunch.rings = [] ∧
      (State.withFibs base []).blockFibs 0 = [] ∧ placedBlock.running = true ∧ placedBlock.tickets = [] ∧ placedBlock.reports = [] ∧
      base.fib 0 = some placedFibre ∧ ({ placedBlock with st := .frozen } : Block).st = .frozen) ∧
    (let s := State.withBlock base { placedBlock with st := .retired }
     ¬((placedLaunch.halt = false ∧ placedLaunch.next < placedLaunch.grid) ∨ ∃ x ∈ s.blocks, x.lid = placedLaunch.lid ∧ x.st ≠ .retired) ∧
       placedLaunch.merged = false ∧ s.mem.stages = [] ∧ placedLaunch.owner = none ∧ placedLaunch.outs = [] ∧ placedLaunch.done = 0 ∧ s.mem.regions = []) :=
  ⟨by decide, by decide⟩

def tasked (k : TaskRec) (st : BState) : State := State.withBlock base { placedBlock with st := st, task := some k }

/-- A task that may start and one that waits; one that is complete; one with a renamed byte; two queues that differ by nine. -/
theorem witness_TaskEffects :
    (let s := tasked { task0 with ready := false } .pending
     s.block? 0 = some { placedBlock with st := .pending, task := some { task0 with ready := false } } ∧ (s.rcbOf 0).det = false ∧
       (sget 0 s.host.coreRdy 0).testBit (0 % 48) = true ∧ (s.queueOf 0).length < 64) ∧
    (let s := tasked { task0 with waits := [0] } .pending
     s.taskDone 0 = false) ∧
    (let k : TaskRec := { task0 with desc := 0x20000 * 2 ^ 128 }
     let s := tasked k .retired
     k.done = false ∧ k.ren = [] ∧ (∀ p ∈ s.rs.fibres, ∀ y, p.2 = some y → y.stat = .ready) ∧ k.desc.toNat / 2 ^ 128 % 2 ^ 64 = 0x20000 ∧
       s.check (s.ctxOf 0) 0x20000 8 8 .atom false = .ok (.mem 0x20000 0) ∧ s.memUp 0x20000 0 = true) ∧
    (let k : TaskRec := { task0 with ren := [(0x20000, 16, 0x30000)], bufset := [(0x20000, true)] }
     let s := tasked k .retired
     k.ren ≠ [] ∧ k.bufset = [(0x20000, true)] ∧ s.check (s.ctxOf 0) 0x20000 1 1 .store false = .ok (.mem 0x20000 0) ∧ s.memUp 0x20000 0 = true) ∧
    (let s : State := { base with
        blocks := (List.range 9).map fun i => { placedBlock with uid := i, st := .pending, task := some task0 }, host := { base.host with coreRdy := [(0, 3)] } }
     (s.blocks.map Block.uid).Nodup ∧ s.clockOn 0 % 4096 = 0 ∧ s.coreReady 0 = true ∧ s.coreReady 1 = true ∧ (s.queueOf 1).length + 8 < (s.queueOf 0).length) :=
  ⟨by decide +kernel, by decide +kernel, ⟨rfl, rfl, by simp [tasked, State.withBlock, base, State.withFetchWord, placedFibre], by decide +kernel, by decide +kernel, by decide +kernel⟩,
    by decide +kernel, by decide +kernel⟩

/-- Operands that can be read and written; a frame that its `accept` ends; the victim of a launch that asks for room, and no other block of its launch; a block whose
fibres all await. -/
theorem witness_FormsComplete :
    (Issues base on 0 placedFibre ∧ free base 0 (.v 2) false true = true ∧ readable base 0 (.v 4) false true = true ∧
      Bin.ready base 0 (bin .ds8) false false false = true ∧ clean base 0 (.v 2) false false = true ∧ Un.ready base 0 (un .e8) false false = true ∧
      Bin.ready base 0 (bin .z64) true true false = true ∧ value base 0 (.v 6) false false % 65536 ≠ 65535 ∧
      value (regs [(6, 255)] []) 0 (.v 6) false false % 256 = 255) ∧
    (let f : Frame := { frame0 with acc := 0x10000 }
     let s := tested (State.withBlock base (inside [f]))
     LastToArrive s on 0 placedFibre (inside [f]) (.accept on 15) ∧ f.acc = s.ipc ∧ f.conv = none ∧ s.quiet 0 = true ∧
       s.land 0 (s.group 0 0).core f.cont [0xF0] = .ok (0xF0 * 2 ^ 56) ∧ placedFibre.pred 15 = true) ∧
    ((∀ y ∈ crowded.blocks, y.lid = placedBlock.lid → y = placedBlock) ∧ (∀ y ∈ crowded.blocks, y.st = .resident → y.mode ≠ .saving → y = placedBlock) ∧
      greedy ∈ crowded.launches ∧ crowded.hasNext greedy = true ∧ (∀ c < 192, crowded.placeOk (crowded.nextBlock greedy) greedy c = false) ∧
      crowded.siteOk (crowded.nextBlock greedy) greedy 0 = true ∧
      (State.withFibs base [(0, st (.timeline (.mem 0x20000 0) 1 0 true))]).blockFibs 0 = [0]) :=
  ⟨⟨issues_base, by decide⟩, ⟨last_tested _ _, rfl, rfl, by decide, by decide, rfl⟩, by decide +kernel⟩

/-- A send of 16 bytes from plain memory, and a delivery of 16 bytes to it. -/
theorem witness_FormsComplete_mail :
    (let x := laneOf 0 0x20000 .none .pending (0xFFFF * 2 ^ 80 + 16 * 2 ^ 65) 0
     let s := box idle (under (opOf (mbxI .msend .st (.s 95)) x))
     s.launch? 0 = some placedLaunch ∧ placedLaunch.rcb.det = false ∧ (s.mbxNow 0xFFFF).st = .idle ∧ (s.mbxNow 0xFFFF).bound = none ∧
       (s.mbxNow 0xFFFF).ver = none ∧ (s.mbxNow 0xFFFF).kill = false ∧ x.src / 2 ^ 65 % 2 ^ 15 = 16 ∧
       s.check 0 0x20000 16 1 .load false = .ok (.mem 0x20000 0) ∧ s.memUp 0x20000 0 = true ∧ s.mem.stages = [] ∧
       s.mem.dramPois (0x20000 / 128) = false ∧ s.mem.homePois (0x20000 / 128) = false) ∧
    (let x : Lane := { laneOf 0 0x20000 .none .pending (0xFFFF * 2 ^ 80 + 64 * 2 ^ 96 + 16 * 2 ^ 65) 0 with wct4 := 1 }
     let b : Mbx := { idle with st := .obs, obs := 16 * 2 ^ 25 }
     let s : State := { State.withFibs (box b (under (opOf (mbxI .mrecv .ld (.v 0)) x))) [(0, { st .lane with pc := base.ipc })] with tick := 1 }
     (s.mbxNow 0xFFFF).st = .obs ∧ s.winCheck 0 64 64 64 = none ∧ min ((s.mbxNow 0xFFFF).obs.toNat / 2 ^ 25 % 2 ^ 15) (x.src / 2 ^ 65 % 2 ^ 15) = 16 ∧
       s.check (s.ctxOf 0) 0x20000 16 1 .store false = .ok (.mem 0x20000 0) ∧ s.memUp 0x20000 0 = true ∧ 0 < s.tick) := by decide +kernel

/-! ### The host -/

/-- Command queue 7 of context 0 with one entry `d`, at 0x40000. -/
def queued (d : Nat) (s : State) : State :=
  let s := State.withDram s 0x40000 (natBytes 64 d)
  { s with host := { s.host with ctxs := [(0, { (s.ctx 0) with cqcfg := [(7, 0x40041)], cqptr := [(7, 2 ^ 32)] })] } }

/-- The state in which the entry has been read. -/
def hasRead (d : Nat) (s : State) : State := ((queued d s).headAdvance 0 7).updCtx 0 fun x => { x with cmd := some (d, 0x40000) }

theorem heads_queued (s : State) (d : Nat) (hn : (s.ctx 0).cmd = none) (h : (queued d s).pends 0 7) (hc : s.host.hubReady.testBit 38 = true) (ho : s.host.hubReady.testBit 37 = true)
    (hr : s.host.stopped = false) (hu : (queued d s).memUp 0x40000 0 = true) (he : (queued d s).mem.homeNum 0x40000 64 = d)
    (hq : d / 2 ^ 448 % 2 ^ 64 = 0) (ha : 0x40000 = sget cqcfgReset ((queued d s).ctx 0).cqcfg 7 / 2 ^ 12 * 2 ^ 12 +
      64 * (sget 0 ((queued d s).ctx 0).cqptr 7 % 2 ^ 32 % cqLen (sget cqcfgReset ((queued d s).ctx 0).cqcfg 7))) : Heads (queued d s) 0 d 0x40000 (hasRead d s) :=
  ⟨hc, ho, hr, .inr ⟨7, by decide, hn, h, fun q _ _ => by omega, ha, hu, he, rfl⟩, hq⟩

theorem witness_HostLaunchResults :
    (∀ p < 8, ¬ base.pends 0 p) ∧ Heads (queued launchDesc (withImage base)) 0 launchDesc 0x40000 (hasRead launchDesc (withImage base)) ∧ launchDesc / 2 ^ 392 % 2 ^ 8 = 0 ∧
      (∃ k t, (queued launchDesc (withImage base)).accept 0 launchDesc none = .ok k t ∧ (t.launches.length == 2) = true) ∧
      (∃ t, (queued launchDesc base).accept 0 (launchDesc + 2 ^ 106) none = .wait t) ∧
      (∃ c t, base.accept 0 0 none = .no c t ∧ true = true) ∧ Heads (queued (255 * 2 ^ 392) base) 0 (255 * 2 ^ 392) 0x40000 (hasRead (255 * 2 ^ 392) base) :=
  ⟨by simp only [State.pends]; decide,
    heads_queued _ _ rfl (by simp only [State.pends]; decide +kernel) (by decide) (by decide) rfl (by decide +kernel) (by decide +kernel) (by decide +kernel) (by decide +kernel),
    by decide +kernel, ok_of (by decide +kernel), wait_of (by decide +kernel), no_of (by decide +kernel),
    heads_queued _ _ rfl (by simp only [State.pends]; decide +kernel) (by decide) (by decide) rfl (by decide +kernel) (by decide +kernel) (by decide +kernel) (by decide +kernel)⟩

theorem heads_code (s : State) (d : Nat) (hn : (s.ctx 0).cmd = none) (h : ((queued d s).pends 0 7 ∧ (queued d s).memUp 0x40000 0 = true ∧ (queued d s).mem.homeNum 0x40000 64 = d ∧
      d / 2 ^ 448 % 2 ^ 64 = 0) ∧ s.host.hubReady.testBit 38 = true ∧ s.host.hubReady.testBit 37 = true ∧ s.host.stopped = false ∧
      0x40000 = sget cqcfgReset ((queued d s).ctx 0).cqcfg 7 / 2 ^ 12 * 2 ^ 12 +
        64 * (sget 0 ((queued d s).ctx 0).cqptr 7 % 2 ^ 32 % cqLen (sget cqcfgReset ((queued d s).ctx 0).cqcfg 7))) : Heads (queued d s) 0 d 0x40000 (hasRead d s) :=
  heads_queued s d hn h.1.1 h.2.1 h.2.2.1 h.2.2.2.1 h.1.2.1 h.1.2.2.1 h.1.2.2.2 h.2.2.2.2

/-- A region table at 0x50000 whose last entry describes one region. -/
def region63 : Region :=
  { tbase := 0xFFFF0000, size := 65536, gbase := 0x40000, sfirst := 191, scount := 1, fill := false, wb := true, fei := true, rd := true, w := true, lid := 0 }
def tabled : State :=
  State.withDram { base with host := { base.host with ctxs := [(0, { (base.ctx 0) with trgbase := 0x50000 })], slcfg := [(191, 1)] } } (0x50000 + 32 * 63) (natBytes 32 region63.word)

/-- A region with a pinned line. -/
def pinned : State :=
  { State.withRegion base 0 region0 with mem := { (State.withRegion base 0 region0).mem with tlines := [(0, some ⟨true, false, true, false⟩)] } }

theorem witness_HostCommandResults_region :
    Heads (queued (2 ^ 392) tabled) 0 (2 ^ 392) 0x40000 (hasRead (2 ^ 392) tabled) ∧
    (let s := queued (2 ^ 392) tabled
     s.regionsOf 0 = [] ∧ (∀ j, j < 64 → entryRegion (s.mem.homeNum ((s.ctx 0).trgbase + 32 * j) 32) = if j = 63 then some region63 else none) ∧
       s.waysOk region63 = true) ∧
    Heads (queued (2 * 2 ^ 392) pinned) 0 (2 * 2 ^ 392) 0x40000 (hasRead (2 * 2 ^ 392) pinned) ∧ (queued (2 * 2 ^ 392) pinned).pinnedLines (regKey 0 0) = [0] ∧
    Heads (queued (2 * 2 ^ 392 + 2 ^ 64) pinned) 0 (2 * 2 ^ 392 + 2 ^ 64) 0x40000 (hasRead (2 * 2 ^ 392 + 2 ^ 64) pinned) ∧ Heads (queued (2 * 2 ^ 392 + 2 ^ 391) base) 0 (2 * 2 ^ 392 + 2 ^ 391) 0x40000 (hasRead (2 * 2 ^ 392 + 2 ^ 391) base) :=
  ⟨heads_code _ _ rfl (by simp only [State.pends]; decide +kernel), by decide +kernel, heads_code _ _ rfl (by simp only [State.pends]; decide +kernel),
    by decide +kernel, heads_code _ _ rfl (by simp only [State.pends]; decide +kernel), heads_code _ _ rfl (by simp only [State.pends]; decide +kernel)⟩

theorem pinned_done : ∃ t, wbAll 0 (regKey 0 0) true ((queued (2 * 2 ^ 392) pinned).pinnedLines (regKey 0 0)) (queued (2 * 2 ^ 392) pinned) = .done t := by
  have h : (match wbAll 0 (regKey 0 0) true ((queued (2 * 2 ^ 392) pinned).pinnedLines (regKey 0 0)) (queued (2 * 2 ^ 392) pinned) with
    | .done _ => true
    | .wait _ => false) = true := by decide +kernel
  revert h
  cases wbAll 0 (regKey 0 0) true ((queued (2 * 2 ^ 392) pinned).pinnedLines (regKey 0 0)) (queued (2 * 2 ^ 392) pinned) <;> simp

def held0 : Block := { placedBlock with st := .saved, held := true }

theorem witness_HostCommandResults_blocks :
    Heads (queued (3 * 2 ^ 392) (State.withBlock base held0)) 0 (3 * 2 ^ 392) 0x40000 (hasRead (3 * 2 ^ 392) (State.withBlock base held0)) ∧
    ((queued (3 * 2 ^ 392) (State.withBlock base held0)).block? held0.uid = some held0 ∧ held0.lid = launchKey 0 0 ∧ held0.idx = 0 ∧ held0.st = .saved ∧
      held0.held = true) ∧
    Heads (queued (4 * 2 ^ 392) base) 0 (4 * 2 ^ 392) 0x40000 (hasRead (4 * 2 ^ 392) base) ∧ (queued (4 * 2 ^ 392) base).launch? (launchKey 0 0) = some placedLaunch ∧
    Heads (queued (4 * 2 ^ 392 + 9) base) 0 (4 * 2 ^ 392 + 9) 0x40000 (hasRead (4 * 2 ^ 392 + 9) base) ∧ (queued (4 * 2 ^ 392 + 9) base).launch? (launchKey 0 9) = none ∧
    Heads (queued (5 * 2 ^ 392 + epRec) base) 0 (5 * 2 ^ 392 + epRec) 0x40000 (hasRead (5 * 2 ^ 392 + epRec) base) ∧ (5 * 2 ^ 392 + epRec) / 2 ^ 143 % 2 ^ 6 = 0 ∧
    Heads (queued (6 * 2 ^ 392 + 0xFFFF * 2 ^ 256) (box { idle with st := .act } base)) 0 (6 * 2 ^ 392 + 0xFFFF * 2 ^ 256) 0x40000 (hasRead (6 * 2 ^ 392 + 0xFFFF * 2 ^ 256) (box { idle with st := .act } base)) ∧
    ((queued (6 * 2 ^ 392 + 0xFFFF * 2 ^ 256) (box { idle with st := .act } base)).mbxNow 0xFFFF).st = .act :=
  ⟨heads_code _ _ rfl (by simp only [State.pends]; decide +kernel), by decide +kernel, heads_code _ _ rfl (by simp only [State.pends]; decide +kernel), by decide +kernel,
    heads_code _ _ rfl (by simp only [State.pends]; decide +kernel), by decide +kernel, heads_code _ _ rfl (by simp only [State.pends]; decide +kernel), by decide +kernel,
    heads_code _ _ rfl (by simp only [State.pends]; decide +kernel), by decide +kernel⟩

def gotOk (g : Got) : Bool := match g with
  | .ok _ _ => true
  | _ => false
def gotBad (g : Got) : Bool := match g with
  | .bad _ => true
  | _ => false
theorem got_ok {g : Got} (h : gotOk g = true) : ∃ bs u, g = .ok bs u := by cases g <;> simp_all [gotOk]
theorem got_bad {g : Got} (h : gotBad g = true) : ∃ u, g = .bad u := by cases g <;> simp_all [gotBad]

/-- A gather over one rank, over a list of ranks that cannot be read, and over two ranks of which one has no route. -/
def gather (n ids : Nat) : Nat := 7 * 2 ^ 392 + 2 + (n - 1) * 2 ^ 16 + 16 * 2 ^ 192 + 0x20000 * 2 ^ 64 + ids * 2 ^ 256

theorem witness_HostCommandResults_collective :
    (∀ n ∈ [1, 2], Heads (queued (gather n 0x30000) base) 0 (gather n 0x30000) 0x40000 (hasRead (gather n 0x30000) base)) ∧
    (∃ ids u, (queued (gather 1 0x30000) base).readCtx 0 0x30000 1 = .ok ids u) ∧ (∃ own v, (queued (gather 1 0x30000) base).readCtx 0 0x20000 16 = .ok own v) ∧
    (∃ u, (queued (gather 1 (2 ^ 56)) base).readCtx 0 (2 ^ 56) 1 = .bad u) ∧ base.unreachable 0 = true ∧ coOwn (gather 1 0x30000) = 16 := by
  refine ⟨fun n hn => ?_, got_ok (by decide +kernel), got_ok (by decide +kernel), got_bad (by decide +kernel), by decide +kernel, by decide +kernel⟩
  simp only [List.mem_cons, List.not_mem_nil, or_false] at hn
  rcases hn with rfl | rfl <;> exact heads_code _ _ rfl (by simp only [State.pends]; decide +kernel)

/-- Context 63 assigned to function 32; a bank with a record; a slice of a region; a core with groups; a valid episode. -/
theorem witness_RegisterResults :
    (let s : State := { base with host := { base.host with ctxmap := [(63, 0x100 + 32)] } }
     63 < 64 ∧ 32 ≤ 32 ∧ sget 0 s.host.ctxmap 63 / 2 ^ 8 % 2 = 1 ∧ sget 0 s.host.ctxmap 63 % 2 ^ 6 = 32 ∧ ∀ l ∈ s.launches, l.ctx ≠ 63) ∧
    (let e : Erb := ⟨true, 1, 2, 3, false, 0, 0, 0, 0⟩
     sget none ({ base.host with erb := [(413, some e)] } : HostSt).erb 413 = some e) ∧ 2 ^ 63 / 2 ^ 63 % 2 = 1 ∧
    (let s := State.withRegion base 0 region0
     ∃ p ∈ s.mem.regions, p.2 = some region0 ∧ region0.sfirst ≤ 0 ∧ 0 < region0.sfirst + region0.scount) ∧
    base.coreGroups 0 ≠ [] ∧ base.coreGroups 191 = [] ∧
    (let b : Mbx := { idle with epi := 2 ^ 149 }
     b.st ≠ .free ∧ b.epi.toNat / 2 ^ 149 % 2 = 1) ∧ ∃ l ∈ base.launches, l.ctx = 0 :=
  ⟨by decide +kernel, by decide +kernel, by decide +kernel, ⟨(0, some region0), by decide, rfl, by decide, by decide⟩, by decide +kernel, by decide +kernel,
    by decide +kernel, by decide +kernel⟩

/-- A clear in the tick of a record that the bank took then, and in a later one; 24 ways given to the Tureen. -/
theorem witness_RegisterResults_clear :
    (let e : Erb := ⟨true, 1, 2, 3, false, 0, 0, 0, 0⟩
     let h : HostSt := { base.host with erb := [(413, some e)], erbNew := [(413, some (base.tick, e))] }
     2 ^ 63 / 2 ^ 63 % 2 = 1 ∧ sget none h.erb 413 = some e ∧ sget none h.erbNew 413 = some (base.tick, e) ∧ base.tick ≠ base.tick + 1) ∧
    24 ≤ 31 % 32 ∧ swf none base.mem.htag = true ∧ swf false base.mem.zdir = true ∧ Memory.wf base.mem.home := by decide +kernel

def owned : State := { base with host := { base.host with ctxmap := [(0, 0x100 + 32)] } }

/-- The last bytes of a line; an address below no leaf; a port that is up at the top of DRAM; a gather by one rank that completes. -/
theorem witness_HostAccessResults :
    (0 < 64 ∧ sget 0 owned.host.ctxmap 0 / 2 ^ 8 % 2 = 1 ∧ sget 0 owned.host.ctxmap 0 % 2 ^ 6 = 32 ∧ 0x2007F % 128 + 1 ≤ 128 ∧
      owned.boundsCheck 0 0x2007F 1 1 .load = none ∧ owned.leafCheck 0 0x2007F .load = .ok (.mem 0x2007F 0) ∧
      owned.leafCheck 0 0x2007F .store = .ok (.mem 0x2007F 0) ∧ owned.memUp 0x2007F 0 = true ∧ owned.leafCheck 0 0x1000000000 .load = .absent .none ∧
      owned.boundsCheck 0 (2 ^ 56) 1 1 .load = some .ac) ∧
    (base.host.hubReady.testBit 15 = true ∧ 0xBFD0000000 - 1 + 1 ≤ 0xBFD0000000 ∧ base.memUp (0xBFD0000000 - 1) 0 = true ∧ (0xBFD0000000 - 1) % 128 + 1 ≤ 128 ∧
      State.reset.host.hubReady.testBit 0 = false) ∧
    (let d := 2 + 16 * 2 ^ 192 + 0x20070 * 2 ^ 128
     let k : Coll := { id := 0, ctx := 0, d := d, addr := 0, own := List.replicate 16 9, wct := none }
     k.d / 2 ^ 448 % 2 ^ 64 = 0 ∧ coResult k.d (k.inputs []) = List.replicate 16 9 ∧ base.check 0 0x20070 16 1 .store false = .ok (.mem 0x20070 0)) ∧
    (let d := 2 ^ 4 + 2 ^ 16 + 2 ^ 192
     d % 2 ^ 4 = 0 ∧ d / 2 ^ 16 % 2 ^ 8 + 1 = 2 ∧ d / 2 ^ 4 % 2 ^ 4 ≠ 0) := by decide +kernel

/-- A line of DRAM that cannot be corrected, with no tag at home and no record in its stack's bank. -/
theorem witness_HostAccessResults_bad :
    let s : State := { owned with mem := { owned.mem with dbad := [(0x2007F / 128, 5)] } }
    sget 0 s.mem.dbad (0x2007F / 128) ≠ 0 ∧ sget false s.mem.zdir (0x2007F / 128) = false ∧ sget false s.mem.dpoison (0x2007F / 128) = false ∧
      s.mem.tag (0x2007F / 128) = none ∧ s.boundsCheck 0 0x2007F 1 1 .load = none ∧ s.leafCheck 0 0x2007F .load = .ok (.mem 0x2007F 0) ∧
      s.memUp 0x2007F 0 = true ∧ sget none s.host.erb (384 + 0x2007F / 4096 % 12) = none := by decide +kernel

theorem witness_SecurityResults :
    (base.launch? placedLaunch.lid = some placedLaunch ∧ (base.blocks.map Block.uid).Nodup ∧ ∃ l ∈ base.launches, l.lid = placedBlock.lid) ∧
      base.host.verFails < 2 ∧ 2 ≤ ({ base.host with verFails := 2 } : HostSt).verFails ∧ base.host.erased = false := by decide

/-- Every live fibre ready; an open back-off; eight replays; a stack that failed; an access under way. -/
theorem witness_BoardResults :
    (∀ p ∈ base.rs.fibres, ∀ y, p.2 = some y → y.stat = .ready) ∧
    (let h : HostSt := { base.host with backoff := [(11, true)], links := [(15, 8)], trainFail := [(11, true)] }
     sget false h.backoff (0 * 16 + 11) = true ∧ 8 ≤ sget 0 h.links 15 ∧ sget false h.trainFail (27 - 16) = true) ∧
    (State.reset.host.hubReady.testBit 27 = false ∧ sget false State.reset.host.trainFail 11 = false) ∧
    (let o := opOf (memI .ld .ld (mem .b32)) (laneOf 0 0xB000 (.mem 0xB000 0) .pending 0 0)
     (under o).ops = [o] ∧ o.lanes = [laneOf 0 0xB000 (.mem 0xB000 0) .pending 0 0] ∧ (under o).block? 0 = some placedBlock ∧ 0xB000 / 4096 % 12 = 11) ∧
    (let r : State := { base with host := { base.host with route := [(0, 0x100 + 15)] } }
     r.routeOf 0 = some 15) ∧
    (let h : HostSt := { base.host with linkSq := [(15, 8)] }
     sget 0 h.linkSq 15 = 7 + 1 ∧ sget 0 h.linkSq 15 ≠ 8 + 1 ∧ sget false h.backoff (0 * 16 + 11) = false) :=
  ⟨by simp [base, State.withFetchWord, placedFibre], by decide, by decide, by decide, by decide, by decide⟩

/-! ### Words, steps, faults and headers -/

/-- No well-formed instruction has an opcode from 0xD0 on. -/
theorem coded_every (i : Instr) : Laws.Coded.Statement i := match i with
  | .add a => Laws.Coded.add a | .addi a => Laws.Coded.addi a | .sub a => Laws.Coded.sub a | .adds a b => Laws.Coded.adds a b
  | .mul a => Laws.Coded.mul a | .mulhi a => Laws.Coded.mulhi a | .mulw a => Laws.Coded.mulw a | .mad a => Laws.Coded.mad a
  | .div a => Laws.Coded.div a | .rem a => Laws.Coded.rem a | .min a => Laws.Coded.min a | .max a => Laws.Coded.max a
  | .abs a => Laws.Coded.abs a | .and a => Laws.Coded.and a | .or a => Laws.Coded.or a | .xor a => Laws.Coded.xor a
  | .not a => Laws.Coded.not a | .andi a => Laws.Coded.andi a | .ori a => Laws.Coded.ori a | .xori a => Laws.Coded.xori a
  | .shl a => Laws.Coded.shl a | .shr a => Laws.Coded.shr a | .shli a => Laws.Coded.shli a | .shri a => Laws.Coded.shri a
  | .rot a b => Laws.Coded.rot a b | .bfx a => Laws.Coded.bfx a | .bfi a => Laws.Coded.bfi a | .popc a => Laws.Coded.popc a
  | .clz a => Laws.Coded.clz a | .brev a => Laws.Coded.brev a | .cmp a => Laws.Coded.cmp a | .cmpi a => Laws.Coded.cmpi a
  | .plog a => Laws.Coded.plog a | .sel a => Laws.Coded.sel a | .movi a => Laws.Coded.movi a | .lea a b => Laws.Coded.lea a b
  | .ext a b => Laws.Coded.ext a b | .bsel a => Laws.Coded.bsel a | .fadd a b => Laws.Coded.fadd a b | .fsub a b => Laws.Coded.fsub a b
  | .fmul a b => Laws.Coded.fmul a b | .fma a => Laws.Coded.fma a | .fmin a => Laws.Coded.fmin a | .fmax a => Laws.Coded.fmax a
  | .fabs a => Laws.Coded.fabs a | .fneg a => Laws.Coded.fneg a | .fdiv a b => Laws.Coded.fdiv a b | .fsqrt a b => Laws.Coded.fsqrt a b
  | .frcp a => Laws.Coded.frcp a | .frsq a => Laws.Coded.frsq a | .fexp2 a => Laws.Coded.fexp2 a | .flog2 a => Laws.Coded.flog2 a
  | .fcmp a => Laws.Coded.fcmp a | .fclass a => Laws.Coded.fclass a | .frnd a b => Laws.Coded.frnd a b | .fdot2 a => Laws.Coded.fdot2 a
  | .fstatRd a => Laws.Coded.fstatRd a | .fstatClr a => Laws.Coded.fstatClr a | .cvt a => Laws.Coded.cvt a
  | .cvt2 a b => Laws.Coded.cvt2 a b | .qds8 a b => Laws.Coded.qds8 a b | .dqds8 a b c => Laws.Coded.dqds8 a b c
  | .escale a b => Laws.Coded.escale a b | .rand a => Laws.Coded.rand a | .allot a b => Laws.Coded.allot a b
  | .shrink a b => Laws.Coded.shrink a b | .ldw a => Laws.Coded.ldw a | .stw a => Laws.Coded.stw a
  | .ldi a b c d e => Laws.Coded.ldi a b c d e | .sti a b c d e => Laws.Coded.sti a b c d e | .mov a => Laws.Coded.mov a
  | .perm a b c d => Laws.Coded.perm a b c d | .bcast a b c d e => Laws.Coded.bcast a b c d e | .shfl a b c d e => Laws.Coded.shfl a b c d e
  | .vote a b c d => Laws.Coded.vote a b c d | .redux a b c d e f => Laws.Coded.redux a b c d e f | .ld a => Laws.Coded.ld a
  | .st a => Laws.Coded.st a | .stz a => Laws.Coded.stz a | .prefetch a => Laws.Coded.prefetch a | .cwb a => Laws.Coded.cwb a
  | .ldt a => Laws.Coded.ldt a | .stt a => Laws.Coded.stt a | .iinv a => Laws.Coded.iinv a | .ifence a => Laws.Coded.ifence a
  | .atom a => Laws.Coded.atom a | .red a => Laws.Coded.red a | .fence a b => Laws.Coded.fence a b
  | .wait a b c d e => Laws.Coded.wait a b c d e | .rtake a => Laws.Coded.rtake a | .rhead a => Laws.Coded.rhead a
  | .tlset a => Laws.Coded.tlset a | .tladd a => Laws.Coded.tladd a | .tlwait a => Laws.Coded.tlwait a | .br a b => Laws.Coded.br a b
  | .call a b => Laws.Coded.call a b | .callInd a b => Laws.Coded.callInd a b | .ret a => Laws.Coded.ret a
  | .jmpi a b => Laws.Coded.jmpi a b | .exit a => Laws.Coded.exit a | .fspawn a b c => Laws.Coded.fspawn a b c
  | .fend a => Laws.Coded.fend a | .fsort a b c d => Laws.Coded.fsort a b c d | .bar a => Laws.Coded.bar a | .barCl a => Laws.Coded.barCl a
  | .yield a => Laws.Coded.yield a | .nop a => Laws.Coded.nop a | .lfetch a => Laws.Coded.lfetch a | .lcast a => Laws.Coded.lcast a
  | .lput a => Laws.Coded.lput a | .lcopy a => Laws.Coded.lcopy a | .lpermit a => Laws.Coded.lpermit a | .gmma a => Laws.Coded.gmma a
  | .gdrain a => Laws.Coded.gdrain a | .gload a => Laws.Coded.gload a | .gzero a => Laws.Coded.gzero a | .gsave a => Laws.Coded.gsave a
  | .gresume a => Laws.Coded.gresume a | .gstat a => Laws.Coded.gstat a | .cload a => Laws.Coded.cload a | .cstore a => Laws.Coded.cstore a
  | .cseed a => Laws.Coded.cseed a | .ctab a => Laws.Coded.ctab a | .cinfer a b c d => Laws.Coded.cinfer a b c d
  | .cvote a b c d => Laws.Coded.cvote a b c d | .ctrain a b c d e f => Laws.Coded.ctrain a b c d e f
  | .cfb a b c d e f => Laws.Coded.cfb a b c d e f | .ensure a b c => Laws.Coded.ensure a b c | .accept a b => Laws.Coded.accept a b
  | .elseby a b => Laws.Coded.elseby a b | .elseerr a => Laws.Coded.elseerr a | .jtest a => Laws.Coded.jtest a
  | .cjoin a => Laws.Coded.cjoin a | .frq a b => Laws.Coded.frq a b | .tkpost a => Laws.Coded.tkpost a
  | .launch a b c => Laws.Coded.launch a b c | .dsync a => Laws.Coded.dsync a | .await a => Laws.Coded.await a
  | .msend a => Laws.Coded.msend a | .mrecv a => Laws.Coded.mrecv a | .mpoll a => Laws.Coded.mpoll a
  | .pverInc a b => Laws.Coded.pverInc a b | .pverRd a b => Laws.Coded.pverRd a b | .trap a b => Laws.Coded.trap a b
  | .srd a b c => Laws.Coded.srd a b c | .swr a b c => Laws.Coded.swr a b c | .ctxq a b c d => Laws.Coded.ctxq a b c d
  | .hostLaunch a => Laws.Coded.hostLaunch a | .translationInvalidate a => Laws.Coded.translationInvalidate a
  | .unpin a => Laws.Coded.unpin a | .resume a => Laws.Coded.resume a | .cancel a => Laws.Coded.cancel a
  | .episodeStart a => Laws.Coded.episodeStart a | .episodeKill a => Laws.Coded.episodeKill a | .collective a => Laws.Coded.collective a
  | .registerWrite a b c d => Laws.Coded.registerWrite a b c d | .erbStatusClear a b => Laws.Coded.erbStatusClear a b
  | .dramcActstatClear a b => Laws.Coded.dramcActstatClear a b | .evqLostClear a b c d => Laws.Coded.evqLostClear a b c d
  | .onyxAlarmClear a => Laws.Coded.onyxAlarmClear a | .tureenSlcfgWrite a b => Laws.Coded.tureenSlcfgWrite a b
  | .coreDccfgWrite a b => Laws.Coded.coreDccfgWrite a b | .berylEnvcfgWrite a => Laws.Coded.berylEnvcfgWrite a
  | .cqTailWrite a b c d => Laws.Coded.cqTailWrite a b c d | .attestation a => Laws.Coded.attestation a
  | .imageLoad a b c d e => Laws.Coded.imageLoad a b c d e | .hostRead a b c d => Laws.Coded.hostRead a b c d
  | .hostWrite a b c d => Laws.Coded.hostWrite a b c d | .peerWrite a b c => Laws.Coded.peerWrite a b c
  | .pageMapped a b => Laws.Coded.pageMapped a b | .pageInvalid a b => Laws.Coded.pageInvalid a b
  | .sideLogEntryFree a => Laws.Coded.sideLogEntryFree a | .blockPlace a b => Laws.Coded.blockPlace a b
  | .placementDone a => Laws.Coded.placementDone a | .preempt a => Laws.Coded.preempt a | .awaitSave a => Laws.Coded.awaitSave a
  | .blockRetire a => Laws.Coded.blockRetire a | .blockFreeze a => Laws.Coded.blockFreeze a | .cpCancel a => Laws.Coded.cpCancel a
  | .faultReportAfterIssue a => Laws.Coded.faultReportAfterIssue a | .launchEnd a => Laws.Coded.launchEnd a
  | .taskStart a => Laws.Coded.taskStart a | .taskComplete a => Laws.Coded.taskComplete a
  | .renameWriteback a => Laws.Coded.renameWriteback a | .queueBalance a b => Laws.Coded.queueBalance a b
  | .allotGrant a => Laws.Coded.allotGrant a | .shrinkRelease a b => Laws.Coded.shrinkRelease a b
  | .barrierTimeout a => Laws.Coded.barrierTimeout a | .cycleLimitExpiry a => Laws.Coded.cycleLimitExpiry a
  | .cycbudExpiry a => Laws.Coded.cycbudExpiry a | .demotionEnd a => Laws.Coded.demotionEnd a
  | .reconvergenceTimeout a => Laws.Coded.reconvergenceTimeout a | .bundleMerge a b => Laws.Coded.bundleMerge a b
  | .starvationPromotion a => Laws.Coded.starvationPromotion a | .ladleDelivery a b => Laws.Coded.ladleDelivery a b
  | .ladleComplete a => Laws.Coded.ladleComplete a | .griddleOpStart a => Laws.Coded.griddleOpStart a
  | .griddleOpComplete a => Laws.Coded.griddleOpComplete a | .jasperOpApply a => Laws.Coded.jasperOpApply a
  | .silentError a b c d => Laws.Coded.silentError a b c d | .frameFail a => Laws.Coded.frameFail a
  | .convVoteApply a => Laws.Coded.convVoteApply a | .convNotice a => Laws.Coded.convNotice a | .vtoExpiry a => Laws.Coded.vtoExpiry a
  | .msendApply a => Laws.Coded.msendApply a | .mrecvDelivery a b => Laws.Coded.mrecvDelivery a b | .bmbTake a => Laws.Coded.bmbTake a
  | .bmbGive a b c d => Laws.Coded.bmbGive a b c d | .episodeRecordWrite a b => Laws.Coded.episodeRecordWrite a b
  | .episodeViolation a b c d => Laws.Coded.episodeViolation a b c d | .watchdogExpiry a b => Laws.Coded.watchdogExpiry a b
  | .episodeCycbudIdle a b => Laws.Coded.episodeCycbudIdle a b | .episodeStop a => Laws.Coded.episodeStop a
  | .rowAlert a b => Laws.Coded.rowAlert a b | .backoffEnd a b c => Laws.Coded.backoffEnd a b c
  | .flitReplay a b c => Laws.Coded.flitReplay a b c | .linkRetrain a b => Laws.Coded.linkRetrain a b
  | .verificationFailure => Laws.Coded.verificationFailure | .glitch => Laws.Coded.glitch | .tamperBreach => Laws.Coded.tamperBreach
  | .functionReady a b => Laws.Coded.functionReady a b | .stackTrainingFail a => Laws.Coded.stackTrainingFail a
  | .deviceReset => Laws.Coded.deviceReset | .thermalThrottle a b => Laws.Coded.thermalThrottle a b
  | .accessPerformed a b => Laws.Coded.accessPerformed a b | .loadReturned a b => Laws.Coded.loadReturned a b
  | .writeCompletionTimePassed a => Laws.Coded.writeCompletionTimePassed a | .policyVersionApply a => Laws.Coded.policyVersionApply a
  | .peerRead a b c => Laws.Coded.peerRead a b c | .collectiveComplete a b c => Laws.Coded.collectiveComplete a b c
  | .contextCreation a => Laws.Coded.contextCreation a

theorem witness_EncodingRoundTrip :
    Instr.wf (.nop on) = true ∧ 0xF0 ≤ (0xF0 * 2 ^ 56) / 2 ^ 56 ∧ 0xD0 * 2 ^ 56 / 2 ^ 56 < 0xF0 ∧
      (∀ i : Instr, i.wf = true → encode i ≠ 0xD0 * 2 ^ 56) ∧ decode (encode (.nop on)) = .ok (.nop on) :=
  ⟨by decide, by decide, by decide, fun i h e => by have := coded_every i h; omega, by decide⟩

/-- A bundle that issues a word, one at a header, and one that is held. -/
theorem witness_StepRunsTheWord :
    (let s := State.reset.withFetchWord 64 (encode (.nop on))
     let e : Entry := { dt := 0, old := false, drop := false, ahead := 0, late := [], mis := [], act := .issue 0 }
     s.agenda = [e] ∧ (s.start e).bundles[0]? = some (Bundle.form 0 [] [0]) ∧ (s.start e).fib 0 = some placedFibre ∧ (Bundle.form 0 [] [0]).hold = none ∧
       (s.start e).reported 0 = false ∧ (s.start e).mayIssue 0 (Bundle.form 0 [] [0]) = true ∧ placedFibre.atHeader = false ∧ (s.start e).wordAt 0 = .word (encode (.nop on)) ∧ placedFibre.ahead = []) ∧
    ({ placedFibre with left := 0 } : Fibre).atHeader = true ∧ ({ Bundle.form 0 [] [0] with hold := some 0 } : Bundle).hold ≠ none := by decide

theorem witness_StepKeepsBundles :
    State.reset.bundlesOk ∧ ∃ t, step State.reset = .next t :=
  ⟨⟨by simp [State.reset], by simp [State.reset]⟩, _, rfl⟩

/-- A fault outside a frame and inside one; operands above the allotment, owed, and marked; a header with the largest live counts. -/
theorem witness_FaultAndHeaderResults :
    (base.fib 0 = some placedFibre ∧ base.block? 0 = some placedBlock ∧ fault0.det < 2 ^ 64) ∧
    (¬ (64 < few.allot 0 0) ∧ free few 0 (.v 63) false false = true ∧
      (let s : State := { base with rs := { base.rs with vpoison := [(4, 1)] } }
       free s 0 (.v 4) false false = true ∧ clean s 0 (.v 4) false false = false)) ∧
    (let w := 0xF0 * 2 ^ 56 + 63 * 2 ^ 50 + 1536 * 2 ^ 39 + 96 * 2 ^ 32
     let x : Fibre := { placedFibre with left := 0 }
     let s := State.withFibs (State.withDram base 0x10000 (natBytes 8 w)) [(0, x)]
     Calm s 0 placedBlock ∧ s.fib 0 = some x ∧ x.pc % 8 = 0 ∧ s.fetchWord 0 0 x.pc = .word w ∧ w < 2 ^ 64 ∧ w / 2 ^ 56 ∈ [0xF0, 0xF2] ∧
       w / 2 ^ 12 % 2 ^ 20 = 0 ∧ ¬(1536 < w / 2 ^ 39 % 2 ^ 11 ∨ 96 < w / 2 ^ 32 % 2 ^ 7 ∨ w % 2 ^ 10 ≠ 0) ∧ w / 2 ^ 39 % 2 ^ 11 ≤ s.allot 0 0) :=
  ⟨by decide, by decide, ⟨rfl, rfl, rfl, by decide⟩, by decide, by decide, by decide, by decide, by decide, by decide, by decide, by decide⟩

end Sys2Proof.Tests
end

