-- ==== Sys2Proof/Tests/Slice0.lean ====
section
/-!
SUPPORT. Tests. Each check of WellFormed refuses an ill-formed term; words that the spec writes out decode to their instructions; and one step
of an instruction gives the result of a table or worked example of the spec, or of a calculation by hand from its rule. The rule or example is
named in each group's comment.
-/
namespace Sys2Proof.Tests
set_option Elab.async false
open Sys2Proof Sys2Proof.Machine

/-! ### Ill-formed instructions -/

def addF : Bin := bin .i32

/-- Guard and U (R10, R11): a predicate number above 15, a negated p15, U on a form without it. -/
theorem test_wf_guard :
    Instr.wf (.add addF) = true ∧ Instr.wf (.add { addF with g := ⟨false, false, 16⟩ }) = false ∧ Instr.wf (.add { addF with g := ⟨false, true, 15⟩ }) = false ∧
      Instr.wf (.nop ⟨true, false, 15⟩) = false ∧ Instr.wf (.add { addF with g := ⟨true, false, 15⟩, d := .s 9 }) = true := by decide

/-- Operands (R12, R13, R15, R16): out of range, odd pair, a uniform D without U, a special as D, an indirect scalar, an indirect flag under U. -/
theorem test_wf_operands :
    Instr.wf (.add { addF with a := .v 1536 }) = false ∧ Instr.wf (.add { addF with b := .s 96 }) = false ∧
      Instr.wf (.add { addF with ty := .i64, a := .v 5 }) = false ∧ Instr.wf (.add { addF with d := .s 3 }) = false ∧
      Instr.wf (.add { addF with d := .sp .lane }) = false ∧ Instr.wf (.add { addF with a := .s 3, ia := true }) = false ∧
      Instr.wf (.add { addF with g := ⟨true, false, 15⟩, ia := true }) = false ∧ Instr.wf (.add { addF with ty := .i64, a := .v 5, ia := true }) = true := by decide

/-- Types and immediates (R153, R165, R178, R179). -/
theorem test_wf_types :
    Instr.wf (.add { addF with ty := .f32 }) = false ∧ Instr.wf (.abs { un .z32 with ty := .z32 }) = false ∧ Instr.wf (.addi (imm .i32 256)) = false ∧
      Instr.wf (.shli (imm .i32 32)) = false ∧ Instr.wf (.cmp (cmpf .b32 2)) = false ∧ Instr.wf (.cmp (cmpf .i32 6)) = false ∧
      Instr.wf (.mad { tri .i32 with rm := .up }) = false ∧ Instr.wf (.ext (un .i16) 2) = false ∧ Instr.wf (.lea (bin .z64) 4) = false ∧
      Instr.wf (.cvt { g := on, d := .v 2, a := .v 4, id := false, ia := false, dty := .i32, sty := .i32, sat := false, hi := false, rm := .near }) = false ∧
      Instr.wf (.cvt { g := on, d := .v 2, a := .v 4, id := false, ia := false, dty := .i32, sty := .f32, sat := true, hi := false, rm := .near }) = false ∧
      Instr.wf (.cvt { g := on, d := .v 2, a := .v 4, id := false, ia := false, dty := .f32, sty := .i8, sat := false, hi := false, rm := .near }) = false ∧
      Instr.wf (.qds8 (bin .ds8) 4) = false ∧ Instr.wf (.fcmp (cmpf .f32 8)) = false := by decide

/-- Format M (R20 to R23, R76, R248): odd base pair, an index past the last register, SC, SCOPE, POL, QF, types of atomics and their D. -/
theorem test_wf_memory :
    Instr.wf (.ld (mem .i32)) = true ∧ Instr.wf (.ld { mem .i32 with base := .v 3 }) = false ∧ Instr.wf (.ld { mem .i32 with base := .v 1534, sc := 1 }) = false ∧
      Instr.wf (.ld { mem .i32 with base := .s 95, sc := 1 }) = false ∧ Instr.wf (.ld { mem .i32 with sc := 5 }) = false ∧
      Instr.wf (.ld { mem .i32 with scope := 32 }) = false ∧ Instr.wf (.ld { mem .i32 with pol := 5 }) = false ∧ Instr.wf (.ld { mem .i32 with qf := 2 }) = false ∧
      Instr.wf (.st { mem .i32 with qf := 4 }) = false ∧ Instr.wf (.ldw { mem .i32 with pol := 1 }) = false ∧ Instr.wf (.atom { mem .f32 with pol := 0 }) = false ∧
      Instr.wf (.atom { mem .z64 with pol := 7 }) = false ∧ Instr.wf (.atom { mem .z64 with pol := 7, d := .v 4 }) = true ∧
      Instr.wf (.red { mem .i32 with pol := 7 }) = false ∧ Instr.wf (.ld { mem .i32 with base := .sp .lane }) = false := by decide

/-- The other forms: targets, unguarded forms, counts, masks and selectors (R26, R106, R126, R221, R272, R303, R310, R349). -/
theorem test_wf_others :
    Instr.wf (.br on (.disp 128)) = false ∧ Instr.wf (.call on (.far 96)) = false ∧ Instr.wf (.fsort ⟨false, false, 3⟩ 2 4 3) = false ∧
      Instr.wf (.accept ⟨false, false, 3⟩ 1) = false ∧ Instr.wf (.accept on 16) = false ∧ Instr.wf (.allot on 0) = false ∧ Instr.wf (.allot on 49) = false ∧
      Instr.wf (.vote on 16 0 0) = false ∧ Instr.wf (.vote on 95 0 2) = true ∧ Instr.wf (.vote on 0 0 3) = false ∧ Instr.wf (.redux on 3 4 3 .f32 .near) = false ∧
      Instr.wf (.redux on 3 4 0 .i32 .up) = false ∧ Instr.wf (.cinfer on 2 4 0) = false ∧ Instr.wf (.wait on 16 15 15 15) = false ∧
      Instr.wf (.launch on (some 96) 3) = false ∧ Instr.wf (.srd on 3 7) = false ∧ Instr.wf (.swr on 3 5) = false ∧ Instr.wf (.trap on 256) = false ∧
      Instr.wf (.deviceReset) = false ∧ Instr.wf (.shfl on 2 4 (.v 6) 3) = false ∧ Instr.wf (.bcast on (.v 2) false.toNat (.v 6) .b32) = false := by decide

/-! ### Words the spec writes out -/

/-- The opening example of the instruction words: `p3? add.i32 v4, v5, v6`; and `add.i32.u s10, s1, s2` from its fields. -/
theorem test_decode_add :
    decode 0x000C0200500C4000 = .ok (.add { g := ⟨false, false, 3⟩, d := .v 4, a := .v 5, b := .v 6, id := false, ia := false, ib := false, ty := .i32 }) ∧
      decode (1 * 2 ^ 55 + 15 * 2 ^ 50 + 1546 * 2 ^ 39 + 1537 * 2 ^ 28 + 1538 * 2 ^ 17 + 2 * 2 ^ 13) =
        .ok (.add { g := ⟨true, false, 15⟩, d := .s 10, a := .s 1, b := .s 2, id := false, ia := false, ib := false, ty := .i32 }) := by decide

theorem test_decode_vector :
    decode 0x5E3C018070016800 = .ok (.mov { g := on, d := .v 3, a := .v 7, id := false, ia := true, ty := .b32 }) ∧
      decode 0x5EBF056060016000 = .ok (.mov { g := ⟨true, false, 15⟩, d := .s 10, a := .s 6, id := false, ia := false, ty := .b32 }) ∧
      decode 0x633F060090014000 = .ok (.redux on 12 9 0 .f32 .near) ∧
      decode 0x233C05602028E003 = .ok (.lea { g := on, d := .v 10, a := .s 2, b := .v 20, id := false, ia := false, ib := false, ty := .z64 } 3) ∧
      decode 0x3F3C0080800141F0 = .ok (.fclass { g := on, p := 1, a := .v 8, ia := false, ty := .f32, mask := 0x7C }) ∧
      decode 0x173C05660040C000 = .ok (.shri { g := on, d := .v 10, a := .sp .lane, imm := 4, id := false, ia := false, ty := .z32 }) := by decide

/-- The word of `st.t.b32.fset [v22 + 0], v23` is put together by R20 (notes/assumptions/9.md). -/
theorem test_decode_memory :
    decode 0x690806008FE4A100 =
        .ok (.st { g := ⟨false, false, 2⟩, d := .v 12, base := .v 8, ofs := 0xFE, sc := 2, ty := .z16, scope := 1, pol := 0, qf := 0 }) ∧
      decode 0x6E3C0B8160016308 = .ok (.stt { g := on, d := .v 23, base := .v 22, ofs := 0, sc := 0, ty := .b32, scope := 3, pol := 0, qf := 8 }) ∧
      decode 0x6A3C006040016300 = .ok (.stz { g := on, base := .s 4, ofs := 0, sc := 0, scope := 3, pol := 0, qf := 0 }) ∧
      decode 0x6F3C006040016300 = .ok (.iinv { g := on, base := .s 4, ofs := 0, sc := 0, scope := 3, pol := 0, qf := 0 }) ∧
      decode 0x683C0280A010C031 = .ok (.ld { g := on, d := .v 5, base := .v 10, ofs := 1, sc := 0, ty := .z32, scope := 0, pol := 3, qf := 1 }) ∧
      decode 0x583C000001000000 = .ok (.allot on 16) ∧ decode 0x593C000000200000 = .ok (.shrink on 2) ∧ decode 0x703C000000000000 = .ok (.ifence on) := by decide

theorem test_decode_ordering :
    decode 0x803C02602000C300 = .ok (.atom { g := on, d := .v 4, base := .s 2, ofs := 0, sc := 0, ty := .z32, scope := 3, pol := 0, qf := 0 }) ∧
      decode 0x803C02600000C061 = .ok (.atom { g := on, d := .v 4, base := .s 0, ofs := 0, sc := 0, ty := .z32, scope := 0, pol := 6, qf := 1 }) ∧
      decode 0x823C000000000100 = .ok (.fence on 1) ∧
      decode 0x883F04014000E300 = .ok (.tlwait { g := on, d := .s 8, base := .v 20, ofs := 0, sc := 0, ty := .z64, scope := 3, pol := 0, qf := 0 }) := by decide

theorem test_decode_control :
    decode 0x9044000000900000 = .ok (.br ⟨false, true, 1⟩ (.disp 9)) ∧ decode 0x913C006030010000 = .ok (.call on (.far 3)) ∧
      decode 0x923C000140000000 = .ok (.callInd on (.v 20)) ∧ decode 0x9A3C000000000000 = .ok (.bar on) ∧
      decode 0x9C08000000000000 = .ok (.yield ⟨false, false, 2⟩) ∧ decode 0x993C0F01FC080000 = .ok (.fsort on 30 31 4) := by decide

theorem test_decode_engines :
    decode 0xA83C006060000000 = .ok (.gmma ⟨on, 6⟩) ∧ decode 0xB33C006050000000 = .ok (.ctab ⟨on, 5⟩) ∧ decode 0xB43C0A00A0000001 = .ok (.cinfer on 20 10 1) ∧
      decode 0xB63C0000A0160041 = .ok (.ctrain on 10 11 1 0 true) ∧ decode 0xB308006030000000 = .ok (.ctab ⟨⟨false, false, 2⟩, 3⟩) ∧
      decode 0xB00800601C080000 = .ok (.cload ⟨⟨false, false, 2⟩, 1, 4⟩) := by decide

theorem test_decode_recovery_and_tasks :
    decode 0xB83F028001700000 = .ok (.ensure on (.disp 0x17) 5) ∧ decode 0xB93C000010000000 = .ok (.accept on 1) ∧ decode 0xBB3C000000000000 = .ok (.elseerr on) ∧
      decode 0xBD3C006030000000 = .ok (.cjoin ⟨on, 3⟩) ∧ decode 0xC03C006060000000 = .ok (.tkpost ⟨on, 6⟩) ∧ decode 0xC13F04E060000000 = .ok (.launch on (some 9) 6) ∧
      decode 0xC23C000000000000 = .ok (.dsync on) ∧ decode 0xC33C006070000000 = .ok (.await ⟨on, 7⟩) := by decide

/-- Refused at decode: an odd pair, a reserved type code, the reserved displacement, an operand field above the specials (R13, R15, R24, R26). -/
theorem test_decode_refuses :
    decode (15 * 2 ^ 50 + 4 * 2 ^ 39 + 5 * 2 ^ 28 + 6 * 2 ^ 17 + 3 * 2 ^ 13) = .illegal ∧ decode (15 * 2 ^ 50 + 4 * 2 ^ 39 + 14 * 2 ^ 13) = .illegal ∧
      decode (0x90 * 2 ^ 56 + 15 * 2 ^ 50 + 128 * 2 ^ 20) = .illegal ∧ decode (15 * 2 ^ 50 + 4 * 2 ^ 39 + 1644 * 2 ^ 28 + 2 * 2 ^ 13) = .illegal := by decide

/-! ### Results of one instruction -/

/-- Lane 0 of a vector register, and the status word, after one instruction. -/
def out (i : Instr) (s : State) (d : Nat) : Nat := (after (exec i s)).vraw 0 0 d 0
def flags (i : Instr) (s : State) : Nat := ((after (exec i s)).group 0 0).gsw.toNat
def two (a b : Nat) : State := regs [(4, a), (6, b)] []

/-- R155: sums wrap; `adds` clamps and sets SAT. -/
theorem test_add : out (.add (bin .i32)) (two 0x7FFFFFFF 1) 2 = 0x80000000 ∧ flags (.add (bin .i32)) (two 0x7FFFFFFF 1) = 0 := by decide
theorem test_adds : out (.adds (bin .i32) false) (two 0x7FFFFFFF 1) 2 = 0x7FFFFFFF ∧ flags (.adds (bin .i32) false) (two 0x7FFFFFFF 1) = 64 ∧
    out (.adds (bin .z32) true) (two 3 5) 2 = 0 := by decide
theorem test_sub : out (.sub (bin .z32)) (two 0 1) 2 = 0xFFFFFFFF := by decide
theorem test_mul : out (.mul (bin .i32)) (two 0xFFFFFFFF 2) 2 = 0xFFFFFFFE ∧ out (.mulhi (bin .i32)) (two 0xFFFFFFFF 2) 2 = 0xFFFFFFFF ∧
    out (.mulhi (bin .z32)) (two 0xFFFFFFFF 2) 2 = 1 := by decide
theorem test_mulw : out (.mulw (bin .i32)) (two 0xFFFFFFFF 2) 3 = 0xFFFFFFFF := by decide
theorem test_mad : out (.mad (tri .z32)) (regs [(4, 7), (6, 9), (8, 5)] []) 2 = 68 := by decide
theorem test_min_max : out (.min (bin .i32)) (two 0xFFFFFFFF 1) 2 = 0xFFFFFFFF ∧ out (.max (bin .z32)) (two 0xFFFFFFFF 1) 2 = 0xFFFFFFFF := by decide
theorem test_abs : out (.abs (un .i32)) (two 0x80000000 0) 2 = 0x80000000 ∧ out (.abs (un .i32)) (two 0xFFFFFFFB 0) 2 = 5 := by decide
theorem test_addi : out (.addi (imm .i32 255)) (two 7 0) 2 = 6 ∧ out (.addi (imm .z32 255)) (two 7 0) 2 = 262 := by decide

/-- R156's table. -/
theorem test_div : out (.div (bin .i32)) (two 7 0) 2 = 0xFFFFFFFF ∧ out (.div (bin .i32)) (two 0x80000000 0xFFFFFFFF) 2 = 0x80000000 ∧
    out (.div (bin .i32)) (two 0xFFFFFFF9 2) 2 = 0xFFFFFFFD := by decide
theorem test_rem : out (.rem (bin .z32)) (two 7 0) 2 = 7 ∧ out (.rem (bin .i32)) (two 0x80000000 0xFFFFFFFF) 2 = 0 ∧
    out (.rem (bin .i32)) (two 0xFFFFFFF9 2) 2 = 0xFFFFFFFF := by decide

/-- R158: counts of the width and above; counts of a zero source. -/
theorem test_shift : out (.shl (bin .z32)) (two 1 32) 2 = 0 ∧ out (.shr (bin .i32)) (two 0x80000000 40) 2 = 0xFFFFFFFF ∧
    out (.shr (bin .z32)) (two 0x80000000 31) 2 = 1 := by decide
theorem test_rot : out (.rot (bin .b32) false) (two 0x80000001 33) 2 = 3 ∧ out (.rot (bin .b32) true) (two 0x80000001 1) 2 = 0xC0000000 := by decide
theorem test_count : out (.clz (un .b32)) (two 0 0) 2 = 32 ∧ out (.popc (un .b32)) (two 0xF0F0 0) 2 = 8 ∧ out (.brev (un .b32)) (two 1 0) 2 = 0x80000000 := by decide
theorem test_not : out (.not (un .b32)) (two 0xFFFF0000 0) 2 = 0xFFFF ∧ out (.xor (bin .b32)) (two 0xFF 0xF) 2 = 0xF0 := by decide

/-- R159 to R164, with the example of R161. -/
theorem test_bfx : out (.bfx (tri .i32)) (regs [(4, 0xF0), (6, 4), (8, 4)] []) 2 = 0xFFFFFFFF ∧ out (.bfx (tri .z32)) (regs [(4, 0xF0), (6, 4), (8, 4)] []) 2 = 15 := by
  decide
theorem test_bfi : out (.bfi (tri .b32)) (regs [(4, 5), (6, 0xFFFFFFFF), (8, 0x308)] []) 2 = 0xFFFFFDFF := by decide
theorem test_bsel : out (.bsel (bin .b32)) (two 0xC0003F80 0x01000302) 2 = 0x3F80C000 := by decide
theorem test_ext : out (.ext (un .i8) 3) (two 0x80000000 0) 2 = 0xFFFFFF80 ∧ out (.ext (un .z16) 1) (two 0x80000000 0) 2 = 0x8000 := by decide
theorem test_movi : out (.movi { g := on, d := .v 2, imm := 0x80, id := false, ty := .i32 }) base 2 = 0xFFFFFF80 := by decide
theorem test_lea : out (.lea (bin .z64) 3) (regs [(4, 8), (5, 0x03000000), (6, 0xFFFFFFFE)] []) 3 = 0x03FFFFFF := by decide

/-- R165 to R168. -/
theorem test_cmp : (after (exec (.cmp (cmpf .i32 2)) (two 0xFFFFFFFF 1))).predOf 0 3 = true ∧
    (after (exec (.cmp (cmpf .z32 2)) (two 0xFFFFFFFF 1))).predOf 0 3 = false := by decide
theorem test_plog : (after (exec (.plog { g := on, p := 3, pa := 15, pb := 1, tt := 4 }) base)).predOf 0 3 = true := by decide
theorem test_sel : out (.sel { g := on, d := .v 2, a := .v 4, b := .v 6, p := 1, ty := .b32 }) (two 7 9) 2 = 9 := by decide

/-- The example of R170: the fused product keeps what the product rounds away. -/
theorem test_fma : out (.fma (tri .f32)) (regs [(4, 0x3F800001), (6, 0x3F7FFFFE), (8, 0xBF800000)] []) 2 = 0xA8800000 ∧
    flags (.fma (tri .f32)) (regs [(4, 0x3F800001), (6, 0x3F7FFFFE), (8, 0xBF800000)] []) = 0 := by decide
theorem test_fmul : out (.fmul (bin .f32) .near) (two 0x3F800001 0x3F7FFFFE) 2 = 0x3F800000 ∧ flags (.fmul (bin .f32) .near) (two 0x3F800001 0x3F7FFFFE) = 16 := by
  decide
theorem test_fadd : out (.fadd (bin .f32) .near) (two 0x3F800000 0xBF800000) 2 = 0 ∧ out (.fadd (bin .f32) .near) (two 0x7F800000 0xFF800000) 2 = 0x7FC00000 ∧
    flags (.fadd (bin .f32) .near) (two 0x7F800000 0xFF800000) = 1 := by decide
theorem test_fdiv : out (.fdiv (bin .f32) .near) (two 0x3F800000 0) 2 = 0x7F800000 ∧ flags (.fdiv (bin .f32) .near) (two 0x3F800000 0) = 2 := by decide
theorem test_fsqrt : out (.fsqrt (un .f32) .near) (two 0x40800000 0) 2 = 0x40000000 := by decide +kernel
theorem test_fsub : out (.fsub (bin .f32) .down) (two 0x3F800000 0x3F800000) 2 = 0x80000000 := by decide
theorem test_fneg : out (.fneg (un .f32)) (two 0x7F800001 0) 2 = 0xFF800001 ∧ flags (.fneg (un .f32)) (two 0x7F800001 0) = 0 := by decide
theorem test_fclass : (after (exec (.fclass { g := on, p := 1, a := .v 4, ia := false, ty := .f32, mask := 0x7C }) (two 0x80000000 0))).predOf 0 1 = true := by decide

/-- The example of R139: bits [7:0] of A are cleared in the status word, and D receives what it was. -/
def flagged : State := State.withBlock (two 0x10 0) { placedBlock with groups := [{ Group.none with chunks := span 0 48, gsw := 0x11 }] }
theorem test_fstat : out (.fstatClr (un .b32)) flagged 2 = 0x11 ∧ flags (.fstatClr (un .b32)) flagged = 1 := by decide

/-- The table of conversions of R179, and those of R132's examples. -/
def conv (d s : Ty) (rm : RM) : Instr := .cvt { g := on, d := .v 2, a := .v 4, id := false, ia := false, dty := d, sty := s, sat := false, hi := false, rm := rm }
theorem test_cvt_to_int : out (conv .i32 .f32 .near) (two 0x40200000 0) 2 = 2 ∧ out (conv .i32 .f32 .up) (two 0x40200000 0) 2 = 3 ∧
    flags (conv .z32 .f32 .near) (two 0xBECCCCCD 0) = 16 ∧ flags (conv .z32 .f32 .near) (two 0xBFC00000 0) = 1 ∧
    out (conv .i32 .f32 .near) (two 0x4F800000 0) 2 = 0x7FFFFFFF ∧ out (conv .z32 .f32 .near) (two 0x4F800000 0) 2 = 0xFFFFFFFF ∧
    out (conv .i32 .f32 .near) (two 0x7FC00000 0) 2 = 0 := by decide
theorem test_cvt_from_int : out (conv .f32 .i32 .near) (two 0x01000001 0) 2 = 0x4B800000 ∧ out (conv .f32 .i32 .up) (two 0x01000001 0) 2 = 0x4B800001 ∧
    out (conv .bf16 .f32 .near) (two 0x3F808000 0) 2 % 65536 = 0x3F80 ∧ out (conv .bf16 .f32 .up) (two 0x3F808000 0) 2 % 65536 = 0x3F81 ∧
    out (conv .f16 .f32 .near) (two 0x4788B800 0) 2 % 65536 = 0x7C00 ∧ out (conv .f16 .f32 .zero) (two 0x4788B800 0) 2 % 65536 = 0x7BFF := by decide
theorem test_cvt2 : out (.cvt2 (bin .bf16) .near) (two 0x3F800000 0xC0000000) 2 = 0xC0003F80 := by decide

/-- The example of R183: the scale of 6.0, and lanes of 5.0 and 0.3 quantised and widened again. -/
theorem test_escale : out (.escale (un .e8) 0) (two 0x40C00000 0) 2 = 0x81 := by decide
theorem test_qds8 : out (.qds8 (bin .ds8) 1) (two 0x40A00000 0x81) 2 = 0x200 ∧ out (.qds8 (bin .ds8) 1) (two 0x3E99999A 0x81) 2 = 0x4600 ∧
    flags (.qds8 (bin .ds8) 1) (two 0x3E99999A 0x81) = 16 := by decide +kernel
theorem test_dqds8 : out (.dqds8 (bin .ds8) 1 .near) (two 0x200 0x81) 2 = 0x40A00000 ∧ out (.dqds8 (bin .ds8) 1 .near) (two 0x4600 0x81) 2 = 0x3EA00000 := by decide

/-! ### The register store and cross-lane forms -/

/-- The example of R128: the fixed tree over four lanes. -/
def reducing : State :=
  { base with rs := { base.rs with
      vregs := [(9, [(0, 0x3F800000), (1, 0x33800000), (2, 0x33800000), (3, 0x33800000)])]
      fibres := [(0, some placedFibre), (1, some (st (.coll (.redux on 12 9 0 .f32 .near) true))), (2, some (st (.coll (.redux on 12 9 0 .f32 .near) true))),
        (3, some (st (.coll (.redux on 12 9 0 .f32 .near) true)))] } }
theorem test_redux : (after (exec (.redux on 12 9 0 .f32 .near) reducing)).uraw 0 0 12 = 0x3F800001 := by decide +kernel

/-- R127: the ballot of two fibres, of which lane 1's predicate holds. -/
def voting : State := State.withFibs base [(0, placedFibre), (1, { st (.coll (.vote on 7 2 2) true) with preds := 4 })]
theorem test_vote : (after (exec (.vote on 7 2 2) voting)).uraw 0 0 7 = 2 := by decide +kernel

/-- R122: `sti` writes the element at 256·A + s·i; R108: `allot` zeroes what enters; R126: `perm` reads another lane. -/
theorem test_sti : (after (exec (.sti on (.v 4) 8 (.v 6) .i32) (two 7 65))).vraw 0 0 9 1 = 7 := by decide
theorem test_allot : (after (exec (.allot on 3) few)).allot 0 0 = 96 := by decide
theorem test_perm : out (.perm on 2 4 (.v 6)) { two 0 3 with rs := { (two 0 3).rs with vregs := [(4, [(3, 9)]), (6, [(0, 3)])] } } 2 = 9 := by decide

/-! ### Memory -/

/-- R77: a store performed writes its bytes little-endian; R76: a load of an i8 is sign-extended. -/
theorem test_store_performed : (after (exec (.accessPerformed 1 0) (under stored))).mem.homeB 0x2007C = 0x44 ∧
    (after (exec (.accessPerformed 1 0) (under stored))).mem.homeB 0x2007F = 0x11 := by decide +kernel
theorem test_load_returned : (after (exec (.loadReturned 1 0) (State.withDram (under loaded) 0x2007F [0x80]))).vraw 0 0 2 0 = 0xFFFFFF80 := by decide +kernel

/-- R249: a compare-and-swap that finds another value leaves memory and returns it. -/
theorem test_cas : (after (exec (.accessPerformed 1 0) (State.withDram (under atomed) 0x20000 [5]))).vraw 0 0 2 0 = 5 ∧
    (after (exec (.accessPerformed 1 0) (State.withDram (under atomed) 0x20000 [5]))).mem.homeNum 0x20000 8 = 5 := by decide +kernel

/-- R237's example: a store at tick 210 with one holder whose lease ends at 612. -/
theorem test_wct : wctOf 210 (Lease.horizon ⟨[(7, 612)], 0⟩ 0 (fun _ => true) true) = 616 := by decide

/-- R71: a misaligned pointer is MA; an address outside the bounds entry is AC. -/
theorem test_load_misaligned : ((after (exec (.ld (mem .i32)) (ptr 0x20001))).block? 0).bind (·.fault) = some ⟨6, 0x10000, 0x20001, 0, 0⟩ := by decide

/-! ### Control flow -/

/-- R268: `br` to a plain header stands at it; to a call header it is HD. -/
def headed (k : Nat) : State := State.withDram base 0x10040 (header k)
theorem test_br : ((after (exec (.br on (.disp 8)) (headed 0xF0))).fib 0).map Fibre.pc = some 0x10040 ∧
    ((after (exec (.br on (.disp 8)) (headed 0xF1))).block? 0).bind (·.fault) = some ⟨2, 0x10000, 0x10040, 0, 0⟩ := by decide
theorem test_call : ((after (exec (.call on (.disp 8)) (headed 0xF1))).fib 0).map Fibre.stack = some [0x10008] := by decide
theorem test_ret_empty : ((after (exec (.ret on) base)).block? 0).bind (·.fault) = some ⟨2, 0x10000, 0x10000, 0, 0⟩ := by decide
theorem test_fspawn : ((after (exec (.fspawn on 12 (.disp 8)) (headed 0xF1))).fib 1).map Fibre.pc = some 0x10040 ∧
    (after (exec (.fspawn on 12 (.disp 8)) (headed 0xF1))).vraw 0 0 12 0 = 1 := by decide

/-- The example of R272, for its first group: keys 2, 0, 2 and 1 of lanes 0 to 3. -/
def sortable : State :=
  { base with rs := { base.rs with
      vregs := [(31, [(0, 2), (2, 2), (3, 1)])]
      fibres := [(0, some placedFibre), (1, some (st (.coll (.fsort on 30 31 4) true))), (2, some (st (.coll (.fsort on 30 31 4) true))),
        (3, some (st (.coll (.fsort on 30 31 4) true)))] } }
theorem test_fsort : (List.range 4).map ((after (exec (.fsort on 30 31 4) sortable)).vraw 0 0 30) = [1, 3, 0, 2] := by decide +kernel

/-! ### Recovery, system and engines -/

/-- R312: `ensure` opens a frame; R316, R317: `accept` with the predicate false fails it, with cause 0. -/
theorem test_ensure : ((after (exec (.ensure on (.disp 2) 95) (tested (State.withBlock base (inside []))))).block? 0).map (fun b => (b.frames.length, (b.frames.headD frame0).cont)) =
    some (1, 0x10030) := by decide +kernel
theorem test_accept_false : ((after (exec (.accept on 1) (State.withBlock base (inside [{ frame0 with acc := 0x10000 }])))).block? 0).map (fun b => (b.mode, (b.frames.headD frame0).cause)) =
    some (.failing, 0) := by decide +kernel
/-- R348: `trap`; R334: the launch notes the first fault. -/
theorem test_trap : ((after (exec (.trap on 9) base)).block? 0).bind (·.fault) = some ⟨14, 0x10000, 9, 0, 0⟩ ∧
    ((after (exec (.trap on 9) base)).launch? 0).bind (·.fault) = some ⟨14, 0x10000, 9, 0, 0⟩ := by decide

/-- R192's example: INT8 A = [[1, 2], [3, 4]] in v8 and v9, B = [[5, 6], [7, 8]] in slot 0, W = 0, with the injection of R199 corrected. -/
def intDesc : Nat := 3 * 2 ^ 4 + 3 * 2 ^ 8 + 2 ^ 16 + 2 ^ 24 + 2 ^ 32 + 2 ^ 50 + 0x800 * 2 ^ 128
def intMma : State :=
  { banked (cmd .gmma intDesc .running) { Bank.reset with wmode := true } with
    rs := { base.rs with vregs := [(8, [(0, 0x0201), (1, 0x0403)])] }
    eng := { EngSt.reset with banks := [(0, some { Bank.reset with wmode := true })], lid := [(0, 5), (1, 7), (1024, 6), (1025, 8)] } }
theorem test_gmma : let t := after (exec (.griddleOpComplete 2) intMma)
    [0, 1, 128, 129].map (fun k => ((t.bankAt (cmd .gmma intDesc .running)).cell k).1) = [19, 22, 43, 50] := by decide +kernel

/-- The examples of R141: a cell I = 3 under W = -2 drains to FP32, BF16 and INT32. -/
theorem test_drain : (drainCell 2 (-2) (3, 0)).1 % 2 ^ 32 = 0x3F400000 ∧ (drainCell 5 (-2) (3, 0)).1 % 2 ^ 32 = 1 ∧ (drainCell 2 0 (-1, 0)).1 % 2 ^ 32 = 0xBF800000 := by
  decide +kernel

/-- R57: a queued `gzero` may take the present first granule of its record, whose bit 48 names bank 1. -/
theorem test_reread : (((({ alone (cmd .gzero 0 .queued) with rs := { base.rs with vregs := [(0, [(1, 0x10000)])] } } : State).mishap (.reread 2 0 1)).cmd? 2).map
    fun c => (c.sub, c.desc.toNat)) = some (1, 2 ^ 48) := by decide +kernel

/-! ### Events -/

/-- R280: the tail of a command queue is written by its owner alone. -/
theorem test_tail_foreign : (after (exec (.cqTailWrite 1 0 0 (2 ^ 32)) base)).host.reply = .unsupported := by decide
/-- R343: a banked record's VALID is cleared by writing 1 to bit 63. -/
theorem test_erb_clear : (sget none (after (exec (.erbStatusClear 5 (2 ^ 63)) { base with host := { base.host with erb := [(5, some ⟨true, 1, 2, 3, false, 0, 0, 0, 0⟩)] } })).host.erb 5).map
    Erb.valid = some false := by decide
/-- R346: after a reset the alarm stays and the launches are gone. -/
theorem test_reset : (after (exec .deviceReset { base with host := { base.host with alarm := 7 } })).host.alarm = 7 ∧ (after (exec .deviceReset base)).launches = [] := by decide
/-- R72: PAGE_MAPPED makes a parked fibre ready. -/
theorem test_page_mapped : ((after (exec (.pageMapped 0 0x20000) (State.withFibs base [(0, st (.page 0x20000))]))).fib 0).map Fibre.stat = some .ready := by decide +kernel

/-- A step runs the placed word, and the fibre goes on. -/
theorem test_step : ((after (step (State.reset.withFetchWord 64 0x9D3C000000000000))).fib 0).map Fibre.pc = some 0x10008 := by decide +kernel

end Sys2Proof.Tests
end

