-- ==== Sys2Proof/Tests/Witness3.lean ====
section
/-!
SUPPORT. Memory that an engine's command reads and writes, in states that meet the hypotheses of the statements on the Ladle, the Griddle and the clause
array.
-/
namespace Sys2Proof.Tests
set_option Elab.async false
open Sys2Proof Sys2Proof.Machine

/-- The page tables that map the low 64 GiB stand at 0 and at 0x2000. -/
structure Low (s : State) : Prop where
  host : s.host = base.host
  old : s.ch.old = false
  regions : s.mem.regions = []
  root : ∀ i < 8, s.mem.homeB i = (natBytes 8 0x2001).getD i 0
  leaf : ∀ i < 8, s.mem.homeB (0x2000 + i) = (natBytes 8 0x1F).getD i 0

theorem Low.root_num {s : State} (h : Low s) : s.mem.homeNum 0 8 = 0x2001 := by
  have e : (span 0 8).map s.mem.homeB = natBytes 8 0x2001 := by
    simp only [span, List.map, h.root 0 (by decide), h.root 1 (by decide), h.root 2 (by decide), h.root 3 (by decide), h.root 4 (by decide), h.root 5 (by decide),
      h.root 6 (by decide), h.root 7 (by decide)]
    rfl
  simp only [MemSt.homeNum, MemSt.homeBytes, e]; decide

theorem Low.leaf_num {s : State} (h : Low s) : s.mem.homeNum 0x2000 8 = 0x1F := by
  have e : (span 0x2000 8).map s.mem.homeB = natBytes 8 0x1F := by
    have f := h.leaf
    simp only [span, List.map]
    rw [f 0 (by decide), f 1 (by decide), f 2 (by decide), f 3 (by decide), f 4 (by decide), f 5 (by decide), f 6 (by decide), f 7 (by decide)]
    rfl
  simp only [MemSt.homeNum, MemSt.homeBytes, e]; decide

/-- An access inside a line of the low 64 GiB is one to the same physical address. -/
theorem Low.check_eq {s : State} (h : Low s) (p n : Nat) (kind : Kind) (hk : kind = .load ∨ kind = .store) (hp : p + 128 ≤ 2 ^ 36) (hn : 0 < n ∧ n ≤ 128)
    (ha : p % n = 0) : s.check 0 p n n kind false = .ok (.mem p 0) := by
  have hr : p / 2 ^ 56 = 0 := by omega
  have hv : p % 2 ^ 56 = p := by omega
  have hb : s.bounds 0 0 = some { base := 0, limit := 2 ^ 56 - 1, rd := true, w := true, x := true, ds := true } := by simp [State.bounds]
  have hh : s.entryHold 0 p = none := by simp only [State.entryHold, hr, if_true]
  have hg : s.regionG 0 p = none := by simp [State.regionG, State.regionsOf, h.regions]
  have hu : ∀ a, s.memUp a 0 = base.memUp a 0 := fun a => by simp [State.memUp, State.stackUp, State.slicesUp, h.host]
  have hf : s.stackFailed = base.stackFailed := by funext a; simp [State.stackFailed, h.host]
  have hw : s.walk 0 p = .leaf p 0 (2 ^ 36) true true true := by
    have i1 : p / 2 ^ 46 % 1024 = 0 := by omega
    have i2 : p / 2 ^ 36 % 1024 = 0 := by omega
    have hp0 : (s.ctx 0).ptroot = 0 := by simp only [State.ctx, h.host]; decide
    have u1 : base.memUp 0 0 = true := by decide
    have u2 : base.memUp 0x2000 0 = true := by decide
    have d1 : base.stackFailed 0 = false := by decide
    have d2 : base.stackFailed 0x2000 = false := by decide
    have t1 : s.tableNum 0 0 8 = 0x2001 := by simp [State.tableNum, h.old, h.root_num]
    have t2 : s.tableNum 0 0x2000 8 = 0x1F := by simp [State.tableNum, h.old, h.leaf_num]
    have hm : p % 2 ^ 36 = p := by omega
    simp only [State.walk, hf, hp0, walkFrom, i1, i2]
    norm_num [t1, t2, hu, u1, u2, d1, d2, Config.dramTop, bit, bits]
    rw [if_neg (by simp)]
    congr 1
  have he : s.inEnv p = false := by
    have : s.envPart = none := by simp only [State.envPart, h.host]; decide
    simp [State.inEnv, this]
  have hsf : s.stackFailed p = false := by rw [hf]; rfl
  have hd : ¬ (p ≥ Config.dramTop) := by simp only [Config.dramTop]; omega
  have hbc : s.boundsCheck 0 p n n kind = none := by
    rcases hk with rfl | rfl <;> simp only [State.boundsCheck, hr, hv, ha, hb, Kind.allowed] <;> norm_num <;> omega
  have hlc : s.leafCheck 0 p kind = .ok (.mem p 0) := by
    rcases hk with rfl | rfl <;> simp only [State.leafCheck, hv, hw] <;> simp [he, hsf, hd, Kind.allowed]
  simp only [State.check, hh, hbc, hv, hg, hlc]
  simp

/-- It is so whatever the bytes of `l` hold, where they are none of the page tables'. -/
theorem Low.maps {s : State} (h : Low s) {l : List (Nat × List Nat)} (hl : ∀ x ∈ l, 0x10000 ≤ x.1) (p n : Nat) (kind : Kind) (hk : kind = .load ∨ kind = .store)
    (hp : p + 128 ≤ 2 ^ 36) (hn : 0 < n ∧ n ≤ 128) (ha : p % n = 0) (hq : p % 128 + n ≤ 128) : Maps s l 0 p n kind p 0 := by
  have hc : ∀ a < 0x10000, ¬ covers l a := by rintro a ha ⟨x, hx, h1, -⟩; have := hl x hx; omega
  have hm : ∀ m : MemSt, m.regions = s.mem.regions → (∀ a, ¬ covers l a → m.homeB a = s.mem.homeB a) → Low { s with mem := m } := fun m hr hm =>
    { host := h.host, old := h.old, regions := hr.trans h.regions
      root := fun i hi => (hm i (hc i (by omega))).trans (h.root i hi)
      leaf := fun i hi => (hm _ (hc _ (by omega))).trans (h.leaf i hi) }
  refine ⟨by omega, ?_, hq, fun m h1 h2 => (hm m h1 h2).check_eq p n kind hk hp hn ha⟩
  have h1 : s.stackUp p = true := by
    have : stackOf p < 12 := Nat.mod_lt _ (by decide)
    simp only [State.stackUp, h.host]; revert this; generalize stackOf p = k; intro hk
    interval_cases k <;> decide
  have h2 : s.slicesUp (stackOf p / 3) = true := by
    have : stackOf p / 3 < 4 := Nat.div_lt_of_lt_mul (Nat.mod_lt _ (by decide))
    simp only [State.slicesUp, h.host]; revert this; generalize stackOf p / 3 = k; intro hk
    interval_cases k <;> decide
  simp [State.memUp, h1, h2]

theorem low_alone (c : Cmd) : Low (alone c) := ⟨rfl, rfl, rfl, (by decide : ∀ i < 8, base.mem.homeB i = _), (by decide : ∀ i < 8, base.mem.homeB (0x2000 + i) = _)⟩

/-- A block outside a deterministic region, with nothing staged. -/
theorem plain_alone (c : Cmd) : Plain (alone c) 0 := ⟨rfl, fun _ => rfl, rfl, by simp [alone, base, State.withFetchWord, State.reset, MemSt.reset]⟩

/-- A block of two groups on two cores, and a command of its first group. -/
def twoCores : Block := { placedBlock with cores := [0, 1], ngrp := 2, groups := [{ Group.none with chunks := span 0 48 }, { Group.none with core := 1, chunks := span 0 48 }] }
def alone2 (c : Cmd) : State := State.withBlock (alone c) twoCores

/-- A multicast of the fetch to both cores, with the window's granule 1 as its completion granule: the part of the second core. -/
def castDesc : Nat := fetchDesc + 3 * 2 ^ 320 + 16 * 2 ^ 384

theorem witness_LadleEffects_cast :
    let c := cmd .lcast castDesc .queued
    let s := alone2 c
    Alone s c engOp twoCores ∧ Plain s c.bk ∧
    (let d := c.desc.toNat
     1 ∈ ldCores c.kind c.core d ∧ 1 ∉ c.parts ∧ c.prog = [] ∧ c.skip = [] ∧ s.ch.ahead = 0 ∧ ldMisaligned c.kind d = false ∧ ldTureen d = false ∧
       ldDkind d = 0 ∧ ldRing d = 255 ∧ s.ldPartCheck c 1 c.bk = none ∧ s.ldGroup c.kind c.bk 1 (winGrp (ldLaddr d)) = 1 ∧ ldCgran d ≠ 0 ∧
       ∀ e < ldBytes d / ldEsz d, s.check (s.ctxOf c.bk) (ldElem d e) (ldEsz d) (ldEsz d) .load false = .ok (.mem (0x20000 + e) 0) ∧
          s.memUp (0x20000 + e) 0 = true ∧ s.mem.homePois ((0x20000 + e) / 128) = false) :=
  ⟨⟨rfl, rfl, rfl, rfl, rfl, rfl, rfl, rfl, rfl, by decide, ready_one _ rfl 0, rfl⟩,
    ⟨rfl, fun _ => rfl, rfl, by simp [alone2, State.withBlock, alone, base, State.withFetchWord, State.reset, MemSt.reset]⟩, by decide +kernel⟩

/-- A put of sixteen single bytes of the window's last granule, with FEW and the granule full, to the last bytes of a line. -/
def putDesc : Nat := fetchDesc + 0x70 + 2 ^ 428
def filled (c : Cmd) : State := { alone c with rs := { base.rs with fe := [(rkOf 0 0 1535, 2 ^ 15)] } }

theorem witness_LadleEffects_put :
    let c := cmd .lput putDesc .queued
    let s := filled c
    let d := c.desc.toNat
    Alone s c engOp placedBlock ∧ Plain s c.bk ∧
    (c.prog = [] ∧ c.parts = [] ∧ s.ch.ahead = 0 ∧ ldMisaligned .lput d = false ∧ ldTureen d = false ∧ ldDkind d = 0 ∧ ldLaddr d < 2 ^ 26 ∧
      winGrp (ldLaddr d) < placedBlock.ngrp ∧ winOff (ldLaddr d) + ldBytes d ≤ 256 * s.allot c.bk (winGrp (ldLaddr d)) ∧
      s.wpois c.bk (winGrp (ldLaddr d)) (winOff (ldLaddr d)) (ldBytes d) = false ∧ ldFew d = true ∧ ldBytes d = 16 ∧ ldEsz d = 1 ∧ s.ctxOf c.bk = 0 ∧
      ∀ j < ldBytes d / 16, s.granFull c.bk (winGrp (ldLaddr d)) (winOff (ldLaddr d) + 16 * j) = true) ∧
    ∀ f : Nat → List Nat, ∀ e < 16, Maps s ((List.range 16).map fun e => (0x20070 + e, f e)) 0 (ldElem d e) 1 .store (0x20070 + e) 0 := by
  have hl : ∀ e < 16, ldElem (cmd .lput putDesc .queued).desc.toNat e = 0x20070 + e := by decide +kernel
  refine ⟨⟨rfl, rfl, rfl, rfl, rfl, rfl, rfl, rfl, rfl, by decide, ready_one _ rfl 0, rfl⟩,
    ⟨rfl, fun _ => rfl, rfl, by simp [filled, alone, base, State.withFetchWord, State.reset, MemSt.reset]⟩, by decide +kernel, fun f e he => ?_⟩
  rw [hl e he]
  have low : Low (filled (cmd .lput putDesc .queued)) :=
    ⟨rfl, rfl, rfl, (by decide : ∀ i < 8, base.mem.homeB i = _), (by decide : ∀ i < 8, base.mem.homeB (0x2000 + i) = _)⟩
  exact low.maps (by simp only [List.mem_map, List.mem_range]; rintro x ⟨e, -, rfl⟩; show _ ≤ 0x20070 + e; omega) _ 1 .store (.inr rfl) (by omega)
    (by omega) (by omega) (by omega)

/-- A copy of two granules, in elements of eight bytes, to the granules next to them in the same line. -/
def copyDesc : Nat := 0x20000 + 0x20020 * 2 ^ 64 + 31 * 2 ^ 128 + 3 * 2 ^ 423 + 255 * 2 ^ 368

theorem witness_LadleEffects_copy :
    let c := cmd .lcopy copyDesc .queued
    let s := alone c
    let d := c.desc.toNat
    (c.prog = [] ∧ c.parts = [] ∧ s.ch.ahead = 0 ∧ ldMisaligned .lcopy d = false ∧ ldTureen d = false ∧ ldDkind d = 0 ∧ ldLen d / 16 = 2 ∧ ldEsz d = 8 ∧
      ldLen d / ldEsz d = 4 ∧ s.ctxOf c.bk = 0 ∧ ldLaddr d = 0x20020 ∧ ldGaddr d = 0x20000) ∧
    (∀ k, sget false s.mem.zdir k = true → sget false s.mem.dpoison k = false ∧ sget 0 s.mem.dbad k = 0) ∧
    ∀ f : Nat → List Nat, (∀ j, (f j).length = 16) →
      let l := (List.range 2).map fun j => (0x20020 + 16 * j, f j)
      (∀ e < 4, Maps s l 0 (0x20000 + 8 * e) 8 .load (0x20000 + 8 * e) 0 ∧ s.mem.homePois ((0x20000 + 8 * e) / 128) = false ∧ ∀ i < 8, ¬ covers l (0x20000 + 8 * e + i)) ∧
      ∀ j < 2, Maps s l 0 (0x20020 + 16 * j) 16 .store (0x20020 + 16 * j) 0 := by
  refine ⟨by decide +kernel, fun k h => by simp [alone, base, State.withFetchWord, State.reset, MemSt.reset, sget] at h, fun f hf => ?_⟩
  have hl : ∀ x ∈ (List.range 2).map fun j => (0x20020 + 16 * j, f j), 0x20020 ≤ x.1 := by
    simp only [List.mem_map, List.mem_range]; rintro x ⟨j, -, rfl⟩; show _ ≤ 0x20020 + 16 * j; omega
  have hm := fun p n k hk h1 h2 h3 h4 => (low_alone (cmd .lcopy copyDesc .queued)).maps (fun x hx => le_trans (by decide) (hl x hx)) p n k hk h1 h2 h3 h4
  refine ⟨fun e he => ⟨hm _ 8 .load (.inl rfl) (by omega) (by omega) (by omega) (by omega), by interval_cases e <;> decide, fun i hi => ?_⟩,
    fun j hj => hm _ 16 .store (.inr rfl) (by omega) (by omega) (by omega) (by omega)⟩
  rintro ⟨x, hx, h1, -⟩
  have := hl x hx; omega

/-! ### The Griddle and the clause array -/

/-- Any command that is alone. -/
theorem alone_any (c : Cmd) (h : c.op = 1 ∧ c.bk = 0 ∧ c.fk = 0 ∧ c.g = 0 ∧ c.fill = none) : Alone (alone c) c engOp placedBlock := by
  obtain ⟨h1, h2, h3, h4, h5⟩ := h
  refine ⟨rfl, rfl, by rw [h1]; rfl, rfl, by rw [h2]; rfl, by rw [h3]; rfl, by rw [h2]; rfl, rfl, rfl, by rw [h4]; decide, ?_, h5⟩
  rw [h2]; exact ready_one _ rfl 0

/-- BF16 1.0 in A and in B under a fixed window of -14, subtracted; a drain to FP16; a code that no image defines, and one that a record does not ask for. -/
def bfDesc : Nat := 1 + 0x800 * 2 ^ 128 + 2 ^ 50
def bfMma : State :=
  { alone (cmd .gmma bfDesc .running) with
    rs := { base.rs with vregs := [(8, [(0, 0x3F80)])] }
    eng := { EngSt.reset with banks := [(0, some { Bank.reset with wmode := true, w := -14 })], lid := [(0, 0x80), (1, 0x3F)] } }

theorem witness_GriddleEffects_formats :
    (let c := cmd .gmma bfDesc .running
     let d := c.desc.toNat
     Alone bfMma c engOp placedBlock ∧ c.prog = [] ∧ c.b = 0 ∧ gOp d = 1 ∧ gM d = 1 ∧ gN d = 1 ∧ gK d = 1 ∧ gChk d = false ∧ gLken d = false ∧ gS24 d = false ∧
      gAfe d = false ∧ gRgen d = false ∧ gIen d = false ∧ (bfMma.bankAt c).wmode = true ∧ (bfMma.bankAt c).w = -14 ∧ bfMma.gA c d 0 0 = .fin 128 (-7) ∧
      (bfMma.gB c d 0 0 0).1 = .fin 128 (-7) ∧ ((bfMma.bankAt c).cell 0).1.natAbs + (-(128 * 128 : Int) * (2 ^ 0 : Nat)).natAbs < 2 ^ 79) ∧
    (let c := cmd .gdrain (2 ^ 12) .running
     let d := c.desc.toNat
     let s := alone c
     gOfmt d = 1 ∧ (s.bankAt c).bad = false ∧ gResv d = false ∧ gOp d ≤ 1 ∧ gM d = 1 ∧ gN d = 1 ∧ winOff (gObase d) / 256 < s.allot c.bk (winGrp (gObase d))) ∧
    (let d := (cmd .gzero (14 * 2 ^ 12) .queued).desc.toNat
     ([gAfmt d, gBfmt d, gOfmt d].find? fun x => emuFmt x && !(base.host.silivo.contains x)) = some 14) ∧
    (let d := (cmd .gdrain 0 .queued).desc.toNat
     emuFmt (gAfmt d) = false ∧ emuFmt (gBfmt d) = false ∧ emuFmt (gOfmt d) = false) :=
  ⟨⟨⟨rfl, rfl, rfl, rfl, rfl, rfl, rfl, rfl, rfl, Nat.zero_lt_one, ready_one _ rfl 0, rfl⟩, by decide +kernel⟩, by decide +kernel, by decide +kernel, by decide +kernel⟩

/-- A command with a global pointer. -/
def at_ (k : CmdKind) (st : CmdStat) : Cmd := { cmd k 0 st with addr := 0x100000, b := 2, sub := 0 }

theorem maps_at (k : CmdKind) (st : CmdStat) (n : Nat) (f : Nat → List Nat) (hn : n ≤ 4160) (i : Nat) (hi : i < n) (kind : Kind) (hk : kind = .load ∨ kind = .store) :
    Maps (alone (at_ k st)) ((List.range n).map fun i => (0x100000 + 128 * i, f i)) 0 (0x100000 + 128 * i) 128 kind (0x100000 + 128 * i) 0 :=
  (low_alone _).maps (by simp only [List.mem_map, List.mem_range]; rintro x ⟨j, -, rfl⟩; show _ ≤ 0x100000 + 128 * j; omega) _ 128 kind hk (by omega) (by omega)
    (by omega) (by omega)

/-- No die reads a tick above 2 before the first step. -/
theorem tick_early (q : Nat) : base.tickOn q ≤ 5 := by
  have h : base.tickOn q = 0 + (Config.tickSkew q).val - (Config.tickSkew 8).val := rfl
  have := (Config.tickSkew q).isLt
  omega

theorem witness_GriddleEffects_save :
    (let c := at_ .gsave .running
     Alone (alone c) c engOp placedBlock ∧ Plain (alone c) c.bk ∧ c.prog = [] ∧ (alone c).ch.ahead = 0 ∧ (alone c).ctxOf c.bk = 0 ∧
       ∀ i < 4160, Maps (alone c) ((List.range 4160).map fun i => (0x100000 + 128 * i, natBytes 128 (((alone c).bankAt c).areaLine i))) 0 (c.addr + 128 * i) 128
         .store (0x100000 + 128 * i) 0) ∧
    (let c := { at_ .gsave .running with prog := [(0, 4160)], wct := 5 }
     Alone (alone c) c engOp placedBlock ∧ c.chunks = 4160 ∧ 0 < c.wct ∧ (alone c).tickOn (quadOf c.core) ≤ 5) ∧
    ({ at_ .gsave .running with prog := [(0, 4160)] } : Cmd).wct = 0 :=
  ⟨⟨alone_any _ ⟨rfl, rfl, rfl, rfl, rfl⟩, plain_alone _, rfl, rfl, rfl, fun i hi => maps_at _ _ _ _ le_rfl i hi _ (.inr rfl)⟩,
    ⟨alone_any _ ⟨rfl, rfl, rfl, rfl, rfl⟩, rfl, by decide, tick_early _⟩, rfl⟩

/-- Clauses 254 and 255 loaded from, and stored to, the lines at 0x100000. -/
theorem witness_JasperEffects_clauses :
    (∀ k, k = CmdKind.cload ∨ k = .cstore → let c : Cmd := { at_ k .queued with sub := 254 }
      Alone (alone c) c engOp placedBlock ∧ Plain (alone c) c.bk ∧ c.prog = [] ∧ c.sub + c.b = 256 ∧ (alone c).ctxOf c.bk = 0 ∧
        (∀ n l, ((alone c).jasAt c.core).cell n l < 256) ∧ (∀ i < 16, (alone c).mem.homePois ((0x100000 + 128 * i) / 128) = false) ∧
        ∀ f : Nat → List Nat, ∀ i < 16, Maps (alone c) ((List.range 16).map fun i => (0x100000 + 128 * i, f i)) 0 (c.addr + 128 * i) 128 .store (0x100000 + 128 * i) 0 ∧
          Maps (alone c) [] 0 (c.addr + 128 * i) 128 .load (0x100000 + 128 * i) 0) ∧
    ({ at_ .cstore .queued with prog := [(0, 16)] } : Cmd).chunks = 16 := by
  refine ⟨fun k _ => ⟨alone_any _ ⟨rfl, rfl, rfl, rfl, rfl⟩, plain_alone _, rfl, rfl, rfl, fun _ _ => Nat.zero_lt_of_lt (show 0 < 256 by decide), by intro i hi; rfl, fun f i hi => ⟨?_, ?_⟩⟩, rfl⟩
  · exact (low_alone _).maps (by simp only [List.mem_map, List.mem_range]; rintro x ⟨j, -, rfl⟩; show _ ≤ 0x100000 + 128 * j; omega) _ 128 .store (.inr rfl)
      (by show 0x100000 + 128 * i + 128 ≤ _; omega) (by omega) (by show (0x100000 + 128 * i) % 128 = 0; omega) (by show (0x100000 + 128 * i) % 128 + 128 ≤ 128; omega)
  · exact (low_alone _).maps (by simp) _ 128 .load (.inl rfl) (by show 0x100000 + 128 * i + 128 ≤ _; omega) (by omega) (by show (0x100000 + 128 * i) % 128 = 0; omega)
      (by show (0x100000 + 128 * i) % 128 + 128 ≤ 128; omega)

/-- The area of a bank as reset leaves it: the layout version in its header, zeros else. -/
def areaAt : State := let s := alone (at_ .gresume .running)
  { s with mem := { s.mem with dram := mset s.mem.dram 0x100007 1 } }

theorem areaLine_reset (i : Nat) (hi : 0 < i) : Bank.reset.areaLine i = 0 := by
  have h0 : ∀ w (f : Nat → Nat), (∀ j, f j = 0) → ∀ l : List Nat, l.foldl (fun acc j => acc + f j * 2 ^ (8 * w * j)) 0 = 0 := by
    intro w f hf l
    induction l with
    | nil => rfl
    | cons a l ih => simp [hf a, ih]
  unfold Bank.areaLine
  simp only [Nat.pos_iff_ne_zero.mp hi, if_false]
  split
  · rfl
  · split
    · exact h0 _ _ (fun j => by simp [Bank.reset, sget, unsgn]) _
    · split
      · exact h0 _ _ (fun j => by simp [Bank.reset, sget, unsgn]) _
      · split
        · rfl
        · exact h0 _ _ (fun j => by simp [Bank.reset, Bank.cell, Bank.entry, sget, unsgn]) _

theorem homeB_area (a : Nat) (h : 0x10000 ≤ a) : areaAt.mem.homeB a = if a = 0x100007 then 1 else 0 := by
  have hd : areaAt.mem.dram = [(0, 1), (1, 0x20), (0x2000, 0x1F), (0x100007, 1)] := by decide
  have h2 : areaAt.mem.homeB a = (mget areaAt.mem.dram a).toNat := rfl
  rw [h2, hd]
  by_cases h' : a = 0x100007
  · subst h'; rfl
  · have h3 : a ≠ 0 ∧ a ≠ 1 ∧ a ≠ 0x2000 := by omega
    simp [mget, sget, h', h3]

theorem witness_GriddleEffects_resume :
    let c := at_ .gresume .running
    let z := Bank.reset
    Alone areaAt c engOp placedBlock ∧ Plain areaAt c.bk ∧ areaAt.ctxOf c.bk = 0 ∧ (-2 ^ 15 ≤ z.w ∧ z.w < 2 ^ 15) ∧ z.kdone < 2 ^ 14 ∧
      (∀ k, z.cell k = (0, 0) ∧ z.entry k = 0 ∧ sget (0, 0) z.crow k = (0, 0) ∧ sget (0, 0) z.ccol k = (0, 0)) ∧
      ∀ i < 4160, Maps areaAt [] 0 (c.addr + 128 * i) 128 .load (0x100000 + 128 * i) 0 ∧ areaAt.mem.homePois ((0x100000 + 128 * i) / 128) = false ∧
        (List.range 128).map (fun k => areaAt.mem.homeB (0x100000 + 128 * i + k)) = natBytes 128 (z.areaLine i) := by
  have low : Low areaAt := ⟨rfl, rfl, rfl, by decide, by decide⟩
  refine ⟨⟨rfl, rfl, rfl, rfl, rfl, rfl, rfl, rfl, rfl, Nat.zero_lt_one, ready_one _ rfl 0, rfl⟩,
    ⟨rfl, fun _ => rfl, rfl, by simp [areaAt, alone, base, State.withFetchWord, State.reset, MemSt.reset]⟩, rfl, by decide, by decide, fun _ => ⟨rfl, rfl, rfl, rfl⟩, fun i hi => ⟨?_, rfl, ?_⟩⟩
  · exact low.maps (by simp) _ 128 .load (.inl rfl) (by show 0x100000 + 128 * i + 128 ≤ _; omega) (by omega) (by show (0x100000 + 128 * i) % 128 = 0; omega)
      (by show (0x100000 + 128 * i) % 128 + 128 ≤ 128; omega)
  · by_cases h0 : i = 0
    · subst h0; decide +kernel
    · rw [areaLine_reset i (by omega)]
      have : ∀ k ∈ List.range 128, areaAt.mem.homeB (0x100000 + 128 * i + k) = 0 := by
        intro k hk; rw [homeB_area _ (by omega), if_neg (by have := List.mem_range.mp hk; omega)]
      rw [List.map_congr_left this]; decide

end Sys2Proof.Tests
end

