-- ==== Sys2Proof/Tests/Witness4.lean ====
section
/-!
SUPPORT. Further clauses of the statements, each with a state and operands that meet its premises at the edge of their range.
-/
namespace Sys2Proof.Tests
set_option Elab.async false
open Sys2Proof Sys2Proof.Machine

/-! ### The pop of a frame with stores staged -/

def stage0 (p : Nat) (red : Option (Nat × Ty)) : Stg :=
  { bk := 0, g := 0, depth := 1, pc := 0x10008, fk := 0, ptr := p, n := 4, data := 0xFFFFFFFF, mask := 15, red := red, scope := 3, pol := 0, inh := false,
    orig := [], sq := 1, old := false }
def popping (ys : List Stg) : State :=
  let s := tested (State.withBlock base (inside [{ frame0 with acc := 0x10000 }]))
  { s with mem := { s.mem with stages := ys } }

/-- A lone store to the last word of a line, a lone reduction, and a store whose page is absent, before another. -/
theorem witness_AcceptResults_staged :
    (∀ ys, LastToArrive (popping ys) on 0 placedFibre (inside [{ frame0 with acc := 0x10000 }]) (.accept on 15)) ∧
    (let y := stage0 0x2007C none
     let s := popping [y]
     (s.rcbOf 0).det = false ∧ (s.mem.stages.filter fun y => y.bk == 0 && !y.inh) = [y] ∧ y.mask ≠ 0 ∧ s.check (s.ctxOf 0) y.ptr y.n 1 .store false = .ok (.mem 0x2007C 0) ∧
       s.memUp 0x2007C 0 = true ∧ 0x2007C % 128 + y.n ≤ 128 ∧ s.renames 0 = []) ∧
    (let y := stage0 0x2007C (some (0, .z32))
     y.red = some (0, .z32) ∧ y.n = Ty.z32.size ∧ (popping [y]).mem.stages = [y]) ∧
    (let y := stage0 0x1000000000 none
     (popping [y, stage0 0x20000 none]).check 0 y.ptr y.n 1 .store false = .absent .none) :=
  ⟨fun _ => last_mem (last_tested _ _) _, by decide +kernel, by decide +kernel, by decide +kernel⟩

/-! ### Episodes, conversations, the board and faults -/

/-- The cluster is ready and the episode's hart does not wait; one that waits; the last places of a violation's address. -/
theorem witness_EpisodeEffects_wakes :
    (let b := (box { idle with st := .act } base).mbxNow 0xFFFF
     base.host.hubReady.testBit 36 = true ∧ b.running = true ∧ b.asleep = false) ∧
    ((box { idle with st := .act, asleep := true } base).mbxNow 0xFFFF).asleep = true ∧
    0xBFD0000000 - 1 < 0xBFD0000000 ∧ 2 ^ 24 - 8 < 2 ^ 24 ∧ (2 ^ 24 - 8) % 8 = 0 := by decide +kernel

/-- The last READY of two members: with EXH, with REPL alone, with neither; a member that votes and one that is saved; VTO of a failing object that
not every member has joined. -/
theorem witness_ConversationEffects_last :
    (let s := talk (2 + 2 * 2 ^ 8 + 2 ^ 10 + 2 * 2 ^ 32 + 2 ^ 48) .ready
     let w := convObj s 0x20000
     w / 2 ^ 8 % 4 = 2 ∧ w % 2 ^ 5 ≤ w / 2 ^ 48 % 2 ^ 8 + 1 ∧ s.block? 0 = some (inside [conv0]) ∧ conv0.conv ≠ none ∧ (s.conv 0x20000).members.Nodup ∧
       swf none s.rs.fibres = true ∧ conv0.repl = false ∧ w / 2 ^ 10 % 2 = 1 ∧ w / 2 ^ 11 % 2 = 0) ∧
    (let w := convObj (talk (2 + 2 * 2 ^ 8 + 2 ^ 11 + 2 * 2 ^ 32 + 2 ^ 48) .ready) 0x20000
     w / 2 ^ 11 % 2 = 1 ∧ w / 2 ^ 12 % 2 = 0 ∧ conv0.k < conv0.nalt) ∧
    (let b : Block := { inside [conv0] with mode := .voting }
     b.mode = .voting ∧ b.st = .resident ∧ b.frames = [conv0] ∧ ({ b with st := .saved } : Block).st = .saved) ∧
    (let s := talk (2 + 2 * 2 ^ 8 + 2 ^ 32) .ready
     let w := convObj s 0x20000
     (s.conv 0x20000).dead = some 7 ∧ 7 ≤ ({ s with tick := 7 } : State).tick ∧ w / 2 ^ 8 % 4 = 2 ∧ w / 2 ^ 32 % 2 ^ 8 < w % 2 ^ 5) := by decide +kernel

/-- A port that is gone, the newest record that fits after one that does not verify, no record that fits, and a write that is sent and not acknowledged. -/
theorem witness_BoardResults_gone :
    ({ base.host with gone := 2 ^ 15 } : HostSt).gone.testBit 15 = true ∧
    (let r : CfgRec := { cores := 1, sku := 0, keys := 0, counter := 3, hash := 0, ecdsa := true, lms := true }
     let bad : CfgRec := { r with lms := false }
     [r, bad] = [] ++ r :: [bad] ∧ (r.ecdsa = true ∧ r.lms = true ∧ 3 ≤ r.counter) ∧ (∀ x ∈ [bad], ¬ (x.ecdsa = true ∧ x.lms = true ∧ 3 ≤ x.counter)) ∧
       ∀ x ∈ base.host.flash, x.lms = false) ∧
    (let o : Op := opOf (memI .st .st (mem .b32)) { laneOf 0 0x20000 (.out 0 4) .done 0 15 with wct := 9 }
     o.kind.stores = true ∧ 0 < 9 ∧ (under o).block? 0 = some placedBlock ∧ (under o).tickOf o ≤ 9) ∧
    base.lagOn 3 ≤ 16 * base.tick :=
  ⟨by decide, by decide +kernel, ⟨rfl, by decide, rfl, Nat.le_trans (tick_early 0) (by decide)⟩, by decide⟩

/-- A second fault of a launch, of a block that no conversation abandoned. -/
theorem witness_FaultAndHeaderResults_second :
    let s := State.withLaunch base { placedLaunch with fault := some fault0 }
    s.launch? placedBlock.lid = some { placedLaunch with fault := some fault0 } ∧ placedBlock.tag = none ∧ placedBlock.mode = .run := by decide

/-- Two reports, the older one of a later core: that of the lowest core is the one taken. -/
theorem witness_StopEffects_order :
    let b : Block := { placedBlock with ngrp := 2, groups := [{ Group.none with core := 0 }, { Group.none with core := 1 }] }
    let late : FaultRec := { fault0 with grp := 1 }
    b.reports = [] ∧ (∀ x ∈ [(late, 65536)], (b.group fault0.grp).core < (b.group x.1.grp).core) ∧ fault0.grp = 0 := by decide

end Sys2Proof.Tests
end

section
/-!
PROOFS. Instruction words (R8 to R28, R34 to R36): the decoder reads back of a well-formed instruction's word what the encoder put there, form by form,
and accepts no other word.
-/
namespace Sys2Proof.Proofs
open Sys2Proof Sys2Proof.Machine Sys2Proof.Laws

/-! ### Fields of a word -/

/-- The fields that the decoder reads from a word (R9). -/
structure Fields (w opc : Nat) (g : Guard) (d a b lo : Nat) : Prop where
  opc : fOpc w = opc
  guard : fGuard w = g
  d : fD w = d
  a : fA w = a
  b : fB w = b
  lo : fLo w = lo

theorem fields_word {opc d a b lo : Nat} {g : Guard} (hg : g.gp < 16) (hd : d < 2048) (ha : a < 2048) (hb : b < 2048)
    (hl : lo < 131072) : Fields (word opc g d a b lo) opc g d a b lo := by
  obtain ⟨u, gn, gp⟩ := g
  have hn := flag_le gn
  have hu := flag_le u
  have hw : word opc ⟨u, gn, gp⟩ d a b lo =
      lo + b * 2 ^ 17 + a * 2 ^ 28 + d * 2 ^ 39 + gp * 2 ^ 50 + gn.toNat * 2 ^ 54 + u.toNat * 2 ^ 55 + opc * 2 ^ 56 := rfl
  dsimp only at hg
  constructor
  · simp only [fOpc, hw]; omega
  · simp only [fGuard, fU, fGn, fGp, Guard.mk.injEq]
    refine ⟨?_, ?_, ?_⟩
    · rw [show word opc ⟨u, gn, gp⟩ d a b lo / 2 ^ 55 % 2 = u.toNat by omega]; cases u <;> rfl
    · rw [show word opc ⟨u, gn, gp⟩ d a b lo / 2 ^ 54 % 2 = gn.toNat by omega]; cases gn <;> rfl
    · omega
  · simp only [fD, hw]; omega
  · simp only [fA, hw]; omega
  · simp only [fB, hw]; omega
  · simp only [fLo, hw]; omega

/-! ### What the decoder reads back of a field (R9, R13, R24, R25) -/

theorem opnd_v {n : Nat} (h : n < 1536) : opnd n = .v n := if_pos h

theorem opnd_s {n : Nat} (h : n < 96) : opnd (1536 + n) = .s n := by
  rw [opnd, if_neg (by omega), if_pos (by omega), Nat.add_sub_cancel_left]

theorem opnd_sp (x : Special) : opnd x.code = .sp x := by cases x <;> rfl

theorem opnd_src {o : Opnd} {w i : Bool} (h : o.src w i = true) : opnd o.code = o := by
  cases o with
  | v n => exact opnd_v (vok_lt h)
  | s n =>
    simp only [Opnd.src, Bool.and_eq_true] at h
    exact opnd_s (sok_lt h.1)
  | sp x => exact opnd_sp x

theorem opnd_dst {o : Opnd} {u w i : Bool} (h : o.dst u w i = true) : opnd o.code = o := by
  cases o with
  | v n => exact opnd_v (vok_lt h)
  | s n =>
    simp only [Opnd.dst, Bool.and_eq_true] at h
    obtain ⟨⟨hn, -⟩, -⟩ := h
    exact opnd_s (sok_lt hn)
  | sp x => cases h

theorem opnd_base {o : Opnd} {sc : Nat} {p : Bool} (h : baseOk o sc p = true) : opnd o.code = o := by
  cases o with
  | v n => simp only [baseOk, Bool.and_eq_true] at h; exact opnd_v (vok_lt h.2.1)
  | s n => simp only [baseOk, Bool.and_eq_true, decide_eq_true_eq] at h; exact opnd_s (by omega)
  | sp x => simp [baseOk] at h

@[simp] theorem tyOf_code (t : Ty) : tyOf t.code = t := by cases t <;> rfl
@[simp] theorem rmOf_code (r : RM) : rmOf r.code = r := by cases r <;> rfl

/-- A flag bit that stands alone at the low end of a field. -/
theorem flag_eq (b : Bool) : (b.toNat == 1) = b := by cases b <;> rfl

/-- Bits [16:0] of formats V3 and VI, read back (R17, R18). -/
theorem loV_fields {ty sub : Nat} (id ia ib : Bool) (h : sub < 1024) :
    let lo := loV ty id ia ib sub
    lo / 8192 = ty ∧ (lo / 4096 % 2 == 1) = id ∧ (lo / 2048 % 2 == 1) = ia ∧ (lo / 1024 % 2 == 1) = ib ∧ lo % 1024 = sub := by
  have h1 := flag_le id
  have h2 := flag_le ia
  have h3 := flag_le ib
  intro lo
  have hlo : lo = sub + ib.toNat * 1024 + ia.toNat * 2048 + id.toNat * 4096 + ty * 8192 := rfl
  refine ⟨by omega, ?_, ?_, ?_, by omega⟩
  · rw [show lo / 4096 % 2 = id.toNat by omega, flag_eq]
  · rw [show lo / 2048 % 2 = ia.toNat by omega, flag_eq]
  · rw [show lo / 1024 % 2 = ib.toNat by omega, flag_eq]

/-- Bits [16:0] of format V4, read back (R19). -/
theorem loC_fields (c : Nat) (ty : Ty) {rm : Nat} (h : rm < 4) :
    let lo := loC c ty.code rm
    lo / 64 = c ∧ tyOf (lo / 4 % 16) = ty ∧ lo % 4 = rm := by
  have ht := ty_lt ty
  intro lo
  have hlo : lo = rm + ty.code * 4 + c * 64 := rfl
  refine ⟨by omega, ?_, by omega⟩
  rw [show lo / 4 % 16 = ty.code by omega, tyOf_code]

/-- Bits [16:0] of format M, read back (R20). -/
theorem loM_fields {ty scope pol qf : Nat} (hs : scope < 32) (hp : pol < 16) (hq : qf < 16) :
    let lo := loM ty scope pol qf
    lo / 8192 = ty ∧ lo / 256 % 32 = scope ∧ lo / 16 % 16 = pol ∧ lo % 16 = qf := by
  simp only [loM]
  omega

/-- Bits [27:17] of formats VI, M and C, read back. -/
theorem hi8_fields {x k : Nat} (h : k < 8) : hi8 x k / 8 = x ∧ hi8 x k % 8 = k := by
  simp only [hi8]
  omega

theorem hi8_lt {x k : Nat} (hx : x < 256) (hk : k < 8) : hi8 x k < 2048 := by
  simp only [hi8]
  omega

theorem fRm_eq (w : Nat) : fRm w = rmOf (fSub w % 4) := by
  rw [fRm, fSub, Nat.mod_mod_of_dvd _ (by decide)]

theorem fVar_eq (w : Nat) : fVar w = fSub w / 4 := rfl

/-! ### What the decoder reads back of a form (R17 to R28) -/

/-- What an opcode names, for the word whose fields are read. -/
def rawAt (w opc : Nat) : Option Instr :=
  if opc < 0x30 then rawInt w opc
  else if opc < 0x58 then rawFloat w opc
  else if opc < 0xA0 then rawMemCtl w opc
  else rawSys w opc

theorem raw_eq_rawAt (w : Nat) : raw w = rawAt w (fOpc w) := rfl

/-- No opcode from 0xD0 on is assigned (R36). -/
theorem rawSys_unassigned {w opc : Nat} (h : 0xD0 ≤ opc) : rawSys w opc = none := by
  unfold rawSys
  split
  all_goals try omega
  rfl

theorem fOpc_lt_of_raw {w : Nat} {i : Instr} (h : raw w = some i) : fOpc w < 0xD0 := by
  by_contra ho
  rw [raw, if_neg (by omega), if_neg (by omega), if_neg (by omega), rawSys_unassigned (by omega)] at h
  cases h

section
variable {i : Instr} {g : Guard} {opc : Nat}

/-- An instruction whose word has the fields that its opcode's form reads. -/
theorem raw_word {d a b lo : Nat} (he : encode i = word opc g d a b lo) (hg : g.gp < 16) (hd : d < 2048) (ha : a < 2048) (hb : b < 2048)
    (hl : lo < 131072) (hr : ∀ w, Fields w opc g d a b lo → rawAt w opc = some i) : raw (encode i) = some i := by
  have hw := fields_word (opc := opc) hg hd ha hb hl
  rw [he, raw_eq_rawAt, hw.opc]
  exact hr _ hw

theorem raw_bin {f : Bin} {sub : Nat} {tys wd wa wb : Bool} (h : f.wf tys wd wa wb = true) (hs : sub < 1024) (he : encode i = encBin opc f sub)
    (hr : ∀ w, rawBin w = f → fSub w = sub → rawAt w opc = some i) : raw (encode i) = some i := by
  simp only [Bin.wf, Bool.and_eq_true] at h
  obtain ⟨⟨⟨⟨⟨hg, -⟩, -⟩, hd⟩, ha⟩, hb⟩ := h
  refine raw_word he (guard_lt hg) (dst_lt hd) (src_lt ha) (src_lt hb) (loV_lt _ _ _ _ hs) fun w hw => ?_
  obtain ⟨h1, h2, h3, h4, h5⟩ := loV_fields (ty := f.ty.code) f.id f.ia f.ib hs
  refine hr w ?_ (by rw [fSub, hw.lo, h5])
  simp only [rawBin, hw.guard, hw.d, hw.a, hw.b, hw.lo, h1, h2, h3, h4, opnd_dst hd, opnd_src ha, opnd_src hb, tyOf_code]

/-- One source; `u` says whether D may be a uniform register, which for `mov` it may whatever U is. -/
theorem raw_un {f : Un} {sub : Nat} {tys wd wa u : Bool}
    (h : (f.g.wf true && tys && noInd f.g f.id f.ia false && f.d.dst u wd f.id && f.a.src wa f.ia) = true) (hs : sub < 1024) (he : encode i = encUn opc f sub) (hr : ∀ w, rawUn w = f → fSub w = sub → rawAt w opc = some i) :
    raw (encode i) = some i := by
  simp only [Bool.and_eq_true] at h
  obtain ⟨⟨⟨⟨hg, -⟩, -⟩, hd⟩, ha⟩ := h
  refine raw_word he (guard_lt hg) (dst_lt hd) (src_lt ha) (by decide) (loV_lt _ _ _ _ hs) fun w hw => ?_
  obtain ⟨h1, h2, h3, -, h5⟩ := loV_fields (ty := f.ty.code) f.id f.ia false hs
  refine hr w ?_ (by rw [fSub, hw.lo, h5])
  simp only [rawUn, hw.guard, hw.d, hw.a, hw.lo, h1, h2, h3, opnd_dst hd, opnd_src ha, tyOf_code]

theorem raw_imm {f : Imm} {tys : Bool} (h : f.wf tys = true) (he : encode i = encImm opc f)
    (hr : ∀ w, rawImm w = f → rawAt w opc = some i) : raw (encode i) = some i := by
  simp only [Imm.wf, Bool.and_eq_true, decide_eq_true_eq] at h
  obtain ⟨⟨⟨⟨⟨hg, -⟩, -⟩, hd⟩, ha⟩, hi⟩ := h
  refine raw_word he (guard_lt hg) (dst_lt hd) (src_lt ha) (hi8_lt hi (by decide)) (loV_lt _ _ _ _ (by decide)) fun w hw => hr w ?_
  obtain ⟨h1, h2, h3, -, -⟩ := loV_fields (ty := f.ty.code) (sub := 0) f.id f.ia false (by decide)
  simp only [rawImm, hw.guard, hw.d, hw.a, hw.b, hw.lo, h1, h2, h3, (hi8_fields (k := 0) (by decide)).1, opnd_dst hd, opnd_src ha, tyOf_code]

theorem raw_tri {f : Tri} {tys wd wa wb wc : Bool} (h : f.wf tys wd wa wb wc = true) (he : encode i = encTri opc f)
    (hr : ∀ w, rawTri w = f → rawAt w opc = some i) : raw (encode i) = some i := by
  simp only [Tri.wf, Bool.and_eq_true] at h
  obtain ⟨⟨⟨⟨⟨hg, -⟩, hd⟩, ha⟩, hb⟩, hc⟩ := h
  have hlo : loC f.c.code f.ty.code f.rm.code < 131072 := by
    have := src_lt hc
    have := ty_lt f.ty
    have := rm_lt f.rm
    simp only [loC]; omega
  refine raw_word he (guard_lt hg) (dst_lt hd) (src_lt ha) (src_lt hb) hlo fun w hw => hr w ?_
  obtain ⟨h1, h2, h3⟩ := loC_fields f.c.code f.ty (rm_lt f.rm)
  simp only [rawTri, hw.guard, hw.d, hw.a, hw.b, hw.lo, h1, h2, h3, rmOf_code, opnd_dst hd, opnd_src ha, opnd_src hb, opnd_src hc]

/-- Compares of two operands; `cc` stands in SUB or in SUB[9:2]. -/
theorem raw_cmp {f : CmpF} {sub : Nat} {wa wb : Bool} (hg : f.g.wf true = true) (hp : f.p < 16) (ha : f.a.src wa f.ia = true)
    (hb : f.b.src wb f.ib = true) (hs : sub < 1024) (he : encode i = encCmp opc f sub)
    (hr : ∀ w, rawCmp w f.cc = f → fSub w = sub → rawAt w opc = some i) : raw (encode i) = some i := by
  refine raw_word he (guard_lt hg) (by omega) (src_lt ha) (src_lt hb) (loV_lt _ _ _ _ hs) fun w hw => ?_
  obtain ⟨h1, -, h3, h4, h5⟩ := loV_fields (ty := f.ty.code) false f.ia f.ib hs
  refine hr w ?_ (by rw [fSub, hw.lo, h5])
  simp only [rawCmp, hw.guard, hw.d, hw.a, hw.b, hw.lo, h1, h3, h4, opnd_src ha, opnd_src hb, tyOf_code]

theorem raw_mem {f : Mem} {u pr ty p q : Bool} (h : f.wf u pr ty p q = true) (hd : opnd f.d.code = f.d) (hdl : f.d.code < 2048) (hp : f.pol < 16)
    (hq : f.qf < 16) (he : encode i = encMem opc f) (hr : ∀ w, rawMem w = f → rawAt w opc = some i) : raw (encode i) = some i := by
  simp only [Mem.wf, Bool.and_eq_true, decide_eq_true_eq] at h
  obtain ⟨⟨⟨⟨⟨⟨hg, -⟩, hb⟩, ho⟩, hs⟩, -⟩, -⟩ := h
  obtain ⟨hbl, hsc⟩ := base_lt hb
  refine raw_word he (guard_lt hg) hdl hbl (hi8_lt ho (by omega)) (lo_mem_lt hs hp hq) fun w hw => hr w ?_
  obtain ⟨h1, h2, h3, h4⟩ := loM_fields (ty := f.ty.code) hs hp hq
  obtain ⟨h5, h6⟩ := hi8_fields (x := f.ofs) (k := f.sc) (by omega)
  simp only [rawMem, hw.guard, hw.d, hw.a, hw.b, hw.lo, h1, h2, h3, h4, h5, h6, hd, opnd_base hb, tyOf_code]

theorem raw_load {f : Mem} {pr pol : Bool} (h : f.ldwf pr pol = true) (hp : f.pol < 16) (he : encode i = encMem opc f)
    (hr : ∀ w, rawMem w = f → rawAt w opc = some i) : raw (encode i) = some i := by
  simp only [Mem.ldwf, Bool.and_eq_true] at h
  have hm := h.1
  simp only [Mem.wf, Bool.and_eq_true] at hm
  exact raw_mem h.1 (opnd_dst h.2) (dst_lt h.2) hp (qfLd_lt hm.2) he hr

theorem raw_store {f : Mem} {pr pol : Bool} (h : f.stwf pr pol = true) (hp : f.pol < 16) (he : encode i = encMem opc f)
    (hr : ∀ w, rawMem w = f → rawAt w opc = some i) : raw (encode i) = some i := by
  simp only [Mem.stwf, Bool.and_eq_true] at h
  have hm := h.1
  simp only [Mem.wf, Bool.and_eq_true] at hm
  exact raw_mem h.1 (opnd_src h.2) (src_lt h.2) hp (qfSt_lt hm.2) he hr

theorem raw_memA {f : MemA} {p q : Bool} (h : f.wf p q = true) (hp : f.pol < 16) (hq : f.qf < 16) (he : encode i = encMemA opc f)
    (hr : ∀ w, rawMemA w = f → rawAt w opc = some i) : raw (encode i) = some i := by
  simp only [MemA.wf, Bool.and_eq_true, decide_eq_true_eq] at h
  obtain ⟨⟨⟨⟨⟨hg, hb⟩, ho⟩, hs⟩, -⟩, -⟩ := h
  obtain ⟨hbl, hsc⟩ := base_lt hb
  refine raw_word he (guard_lt hg) (by decide) hbl (hi8_lt ho (by omega)) (lo_mem_lt hs hp hq) fun w hw => hr w ?_
  obtain ⟨-, h2, h3, h4⟩ := loM_fields (ty := Ty.b32.code) hs hp hq
  obtain ⟨h5, h6⟩ := hi8_fields (x := f.ofs) (k := f.sc) (by omega)
  simp only [rawMemA, hw.guard, hw.a, hw.b, hw.lo, h2, h3, h4, h5, h6, opnd_base hb]

/-- A transfer or a recovery form with a target (R26). -/
theorem raw_target {t : Target} {d : Nat} (h : t.wf = true) (hg : g.gp < 16) (hd : d < 2048) (he : encode i = encC opc g d t)
    (hr : ∀ w, rawTarget w = t → fGuard w = g → fD w = d → rawAt w opc = some i) : raw (encode i) = some i := by
  cases t with
  | disp x =>
    simp only [Target.wf, Bool.and_eq_true, decide_eq_true_eq] at h
    refine raw_word he hg hd (by decide) (hi8_lt h.1 (by decide)) (by decide) fun w hw => hr w ?_ hw.guard hw.d
    simp [rawTarget, hw.lo, hw.b, hi8_fields]
  | far r =>
    have hs := sok_lt h
    refine raw_word he hg hd (by omega) (by decide) (by decide) fun w hw => hr w ?_ hw.guard hw.d
    simp [rawTarget, hw.lo, hw.a]

/-- Engine forms (R28): the uniform registers that D, A and B name. -/
theorem raw_eng {f : Eng} (h : f.wf = true) (he : encode i = enc3 opc f.g 0 (1536 + f.a) 0 0)
    (hr : ∀ w, rawEng w = f → rawAt w opc = some i) : raw (encode i) = some i := by
  simp only [Eng.wf, Bool.and_eq_true] at h
  have ha := sok_lt h.2
  refine raw_word he (guard_lt h.1) (by decide) (by omega) (by decide) (by decide) fun w hw => hr w ?_
  simp only [rawEng, hw.guard, hw.a, Nat.add_sub_cancel_left]

theorem raw_engD {f : EngD} (h : f.wf = true) (he : encode i = enc3 opc f.g (1536 + f.d) (1536 + f.a) 0 0)
    (hr : ∀ w, rawEngD w = f → rawAt w opc = some i) : raw (encode i) = some i := by
  simp only [EngD.wf, Bool.and_eq_true] at h
  obtain ⟨⟨hg, ha⟩, hd⟩ := h
  have ha' := sok_lt ha
  have hd' := sok_lt hd
  refine raw_word he (guard_lt hg) (by omega) (by omega) (by decide) (by decide) fun w hw => hr w ?_
  simp only [rawEngD, hw.guard, hw.a, hw.d, Nat.add_sub_cancel_left]

theorem raw_engB {f : EngB} (h : f.wf = true) (he : encode i = enc3 opc f.g 0 (1536 + f.a) (1536 + f.b) 0)
    (hr : ∀ w, rawEngB w = f → rawAt w opc = some i) : raw (encode i) = some i := by
  simp only [EngB.wf, Bool.and_eq_true] at h
  obtain ⟨⟨hg, ha⟩, hb⟩ := h
  have ha' := sok_lt ha
  have hb' := sok_lt hb
  refine raw_word he (guard_lt hg) (by decide) (by omega) (by omega) (by decide) fun w hw => hr w ?_
  simp only [rawEngB, hw.guard, hw.a, hw.b, Nat.add_sub_cancel_left]

end

/-! ### Forms with a layout of their own -/

theorem raw_cmpi {f : CmpI} (h : (Instr.cmpi f).wf = true) : raw (encode (.cmpi f)) = some (.cmpi f) := by
  simp only [Instr.wf, ccOk, Bool.and_eq_true, decide_eq_true_eq] at h
  obtain ⟨⟨⟨⟨⟨⟨hg, -⟩, hc, -⟩, -⟩, hp⟩, ha⟩, hi⟩ := h
  have hs : f.cc < 1024 := by omega
  refine raw_word rfl (guard_lt hg) (by omega) (src_lt ha) (hi8_lt hi (by decide)) (loV_lt _ _ _ _ hs) fun w hw => ?_
  obtain ⟨h1, -, h3, -, h5⟩ := loV_fields (ty := f.ty.code) false f.ia false hs
  simp [rawAt, rawInt, fSub, fTy, hw.guard, hw.d, hw.a, hw.b, hw.lo, h1, h3, h5, hi8_fields, opnd_src ha]

theorem raw_plog {f : PlogF} (h : (Instr.plog f).wf = true) : raw (encode (.plog f)) = some (.plog f) := by
  simp only [Instr.wf, Bool.and_eq_true, decide_eq_true_eq] at h
  obtain ⟨⟨⟨⟨hg, hp⟩, hpa⟩, hpb⟩, ht⟩ := h
  have hs : f.tt < 1024 := by omega
  refine raw_word rfl (guard_lt hg) (by omega) (by omega) (by omega) (loV_lt .i8 _ _ _ hs) fun w hw => ?_
  obtain ⟨-, -, -, -, h5⟩ := loV_fields (ty := 0) false false false hs
  simp [rawAt, rawInt, fSub, hw.guard, hw.d, hw.a, hw.b, hw.lo, h5]

theorem raw_sel {f : SelF} (h : (Instr.sel f).wf = true) : raw (encode (.sel f)) = some (.sel f) := by
  simp only [Instr.wf, Bool.and_eq_true, decide_eq_true_eq] at h
  obtain ⟨⟨⟨⟨⟨hg, -⟩, hd⟩, ha⟩, hb⟩, hp⟩ := h
  have hlo : loC f.p f.ty.code 0 < 131072 := by
    have := ty_lt f.ty
    simp only [loC]; omega
  refine raw_word rfl (guard_lt hg) (dst_lt hd) (src_lt ha) (src_lt hb) hlo fun w hw => ?_
  obtain ⟨h1, h2, -⟩ := loC_fields f.p f.ty (rm := 0) (by decide)
  simp [rawAt, rawInt, hw.guard, hw.d, hw.a, hw.b, hw.lo, h1, h2, opnd_dst hd, opnd_src ha, opnd_src hb]

theorem raw_movi {f : Imm0} (h : (Instr.movi f).wf = true) : raw (encode (.movi f)) = some (.movi f) := by
  simp only [Instr.wf, Bool.and_eq_true, decide_eq_true_eq] at h
  obtain ⟨⟨⟨⟨hg, -⟩, -⟩, hd⟩, hi⟩ := h
  refine raw_word rfl (guard_lt hg) (dst_lt hd) (by decide) (hi8_lt hi (by decide)) (loV_lt _ _ _ _ (by decide)) fun w hw => ?_
  obtain ⟨h1, h2, -, -, -⟩ := loV_fields (ty := f.ty.code) (sub := 0) f.id false false (by decide)
  simp [rawAt, rawInt, fTy, hw.guard, hw.d, hw.b, hw.lo, h1, h2, hi8_fields, opnd_dst hd]

theorem raw_fclass {f : ClassF} (h : (Instr.fclass f).wf = true) : raw (encode (.fclass f)) = some (.fclass f) := by
  simp only [Instr.wf, Bool.and_eq_true, decide_eq_true_eq] at h
  obtain ⟨⟨⟨⟨⟨hg, -⟩, hm⟩, -⟩, hp⟩, ha⟩ := h
  have hs : f.mask * 4 < 1024 := by omega
  refine raw_word rfl (guard_lt hg) (by omega) (src_lt ha) (by decide) (loV_lt _ _ _ _ hs) fun w hw => ?_
  obtain ⟨h1, -, h3, -, h5⟩ := loV_fields (ty := f.ty.code) false f.ia false hs
  simp [rawAt, rawFloat, fVar, fTy, hw.guard, hw.d, hw.a, hw.lo, h1, h3, h5, opnd_src ha]

theorem raw_fstatRd {f : Dst} (h : (Instr.fstatRd f).wf = true) : raw (encode (.fstatRd f)) = some (.fstatRd f) := by
  simp only [Instr.wf, Bool.and_eq_true] at h
  obtain ⟨⟨hg, -⟩, hd⟩ := h
  refine raw_word rfl (guard_lt hg) (dst_lt hd) (by decide) (by decide) (loV_lt _ _ _ _ (by decide)) fun w hw => ?_
  obtain ⟨-, h2, -, -, h5⟩ := loV_fields (ty := Ty.b32.code) (sub := 0) f.id false false (by decide)
  simp [rawAt, rawFloat, fVar, hw.guard, hw.d, hw.lo, h2, h5, opnd_dst hd]

theorem raw_cvt {f : CvtF} (h : (Instr.cvt f).wf = true) : raw (encode (.cvt f)) = some (.cvt f) := by
  simp only [Instr.wf, CvtF.wf, Bool.and_eq_true] at h
  obtain ⟨⟨⟨⟨⟨⟨⟨⟨⟨hg, -⟩, -⟩, -⟩, -⟩, hd⟩, ha⟩, -⟩, -⟩, -⟩ := h
  have ht := ty_lt f.sty
  have hr := rm_lt f.rm
  have hh := flag_le f.hi
  have hsat := flag_le f.sat
  obtain ⟨sub, hsub⟩ : ∃ n, n = f.rm.code + f.hi.toNat * 4 + f.sat.toNat * 8 + f.sty.code * 64 := ⟨_, rfl⟩
  have hs : sub < 1024 := by omega
  refine raw_word (lo := loV f.dty.code f.id f.ia false sub) (by rw [hsub]; rfl) (guard_lt hg) (dst_lt hd) (src_lt ha) (by decide)
    (loV_lt _ _ _ _ hs) fun w hw => ?_
  obtain ⟨h1, h2, h3, -, h5⟩ := loV_fields (ty := f.dty.code) f.id f.ia false hs
  have hlo := hw.lo
  generalize loV f.dty.code f.id f.ia false sub = lo at *
  have e1 : lo / 64 % 16 = f.sty.code := by omega
  have e2 : lo / 8 % 2 = f.sat.toNat := by omega
  have e3 : lo / 4 % 2 = f.hi.toNat := by omega
  have e4 : lo % 4 = f.rm.code := by omega
  show some (Instr.cvt _) = _
  simp only [fRm, fTy, hlo, e1, e2, e3, e4, h1, h2, h3, flag_eq, rmOf_code, tyOf_code, hw.guard, hw.d, hw.a, opnd_dst hd, opnd_src ha]

/-- Forms with nothing but a guard. -/
theorem raw_bare {i : Instr} {g : Guard} {opc : Nat} (hg : g.gp < 16) (he : encode i = enc3 opc g 0 0 0 0)
    (hr : ∀ w, fGuard w = g → rawAt w opc = some i) : raw (encode i) = some i :=
  raw_word he hg (by decide) (by decide) (by decide) (by decide) fun w hw => hr w hw.guard

/-- `allot`, `shrink` and `trap`: an 8-bit immediate. -/
theorem raw_imm8 {i : Instr} {g : Guard} {opc m : Nat} (hg : g.gp < 16) (hm : m < 256) (he : encode i = enc3 opc g 0 0 (hi8 m 0) 0)
    (hr : ∀ w, fGuard w = g → fB w / 8 = m → rawAt w opc = some i) : raw (encode i) = some i :=
  raw_word he hg (by decide) (by decide) (hi8_lt hm (by decide)) (by decide) fun w hw =>
    hr w hw.guard (by rw [hw.b, (hi8_fields (by decide)).1])

/-- `callInd` and `jmpi`: a register that holds a code address. -/
theorem raw_codeReg {i : Instr} {g : Guard} {opc : Nat} {a : Opnd} (hg : g.gp < 16) (ha : codeReg a = true) (he : encode i = enc3 opc g 0 a.code 0 0)
    (hr : ∀ w, fGuard w = g → opnd (fA w) = a → rawAt w opc = some i) : raw (encode i) = some i := by
  have hsrc : a.src true false = true := by
    cases a with
    | v n => exact ha
    | s n => simpa [Opnd.src, codeReg] using ha
    | sp x => cases ha
  exact raw_word he hg (by decide) (src_lt hsrc) (by decide) (by decide) fun w hw => hr w hw.guard (by rw [hw.a, opnd_src hsrc])

/-- `ldi`, `sti` and `bcast`: format V3 with a register number in A and no SUB. -/
theorem raw_elem {i : Instr} {g : Guard} {opc a : Nat} {d b : Opnd} {ty : Ty} (hg : g.gp < 16) (hd : opnd d.code = d) (hdl : d.code < 2048)
    (ha : a < 1536) (hb : b.src false false = true) (he : encode i = word opc g d.code a b.code (loV ty.code false false false 0))
    (hr : ∀ w, fGuard w = g → opnd (fD w) = d → fA w = a → opnd (fB w) = b → fTy w = ty → rawAt w opc = some i) : raw (encode i) = some i := by
  refine raw_word he hg hdl (by omega) (src_lt hb) (loV_lt _ _ _ _ (by decide)) fun w hw => ?_
  obtain ⟨h1, -, -, -, -⟩ := loV_fields (ty := ty.code) (sub := 0) false false false (by decide)
  exact hr w hw.guard (by rw [hw.d, hd]) hw.a (by rw [hw.b, opnd_src hb]) (by rw [fTy, hw.lo, h1, tyOf_code])

/-- `perm` and `shfl`: register numbers in D and A, and a mode in SUB. -/
theorem raw_lanes {i : Instr} {g : Guard} {opc d a mode : Nat} {b : Opnd} (hg : g.gp < 16) (hd : vok false d = true) (ha : vok false a = true)
    (hb : b.src false false = true) (hm : mode < 1024) (he : encode i = word opc g d a b.code (loV Ty.b32.code false false false mode))
    (hr : ∀ w, fGuard w = g → fD w = d → fA w = a → opnd (fB w) = b → fSub w = mode → rawAt w opc = some i) : raw (encode i) = some i := by
  have hd' := vok_lt hd
  have ha' := vok_lt ha
  refine raw_word he hg (by omega) (by omega) (src_lt hb) (loV_lt _ _ _ _ hm) fun w hw => ?_
  obtain ⟨-, -, -, -, h5⟩ := loV_fields (ty := Ty.b32.code) false false false hm
  exact hr w hw.guard hw.d hw.a (by rw [hw.b, opnd_src hb]) (by rw [fSub, hw.lo, h5])

/-- Formats V3, C and E with numbers in D, A and B, and SUB alone below them. -/
theorem raw_sub {i : Instr} {g : Guard} {opc d a b sub : Nat} (hg : g.gp < 16) (hd : d < 2048) (ha : a < 2048) (hb : b < 2048) (hs : sub < 1024)
    (he : encode i = enc3 opc g d a b sub)
    (hr : ∀ w, fGuard w = g → fD w = d → fA w = a → fB w = b → fSub w = sub → rawAt w opc = some i) : raw (encode i) = some i :=
  raw_word he hg hd ha hb (by omega) fun w hw => hr w hw.guard hw.d hw.a hw.b (by rw [fSub, hw.lo, Nat.mod_eq_of_lt hs])

theorem raw_vote {g : Guard} {d a mode : Nat} (h : (Instr.vote g d a mode).wf = true) :
    raw (encode (.vote g d a mode)) = some (.vote g d a mode) := by
  simp only [Instr.wf, Bool.and_eq_true, decide_eq_true_eq] at h
  obtain ⟨⟨⟨hg, hm⟩, ha⟩, hd⟩ := h
  by_cases h2 : mode = 2
  · subst h2
    have hd' := sok_lt hd
    exact raw_sub (d := 1536 + d) (guard_lt hg) (by omega) (by omega) (by decide) (by decide) rfl fun w h1 h2 h3 _ h5 => by
      show some (Instr.vote _ _ _ _) = _
      simp [h1, h2, h3, h5]
  · have hb : (mode == 2) = false := by simpa using h2
    simp only [hb, Bool.false_eq_true, if_false, decide_eq_true_eq] at hd
    have he : encode (.vote g d a mode) = enc3 0x62 g d a 0 mode := by simp only [encode, hb]; rfl
    exact raw_sub (guard_lt hg) (by omega) (by omega) (by decide) (by omega) he fun w h1 h2 h3 _ h5 => by
      show some (Instr.vote _ _ _ _) = _
      simp [h1, h2, h3, h5, hb]

theorem raw_redux {g : Guard} {d a op : Nat} {ty : Ty} {rm : RM} (h : (Instr.redux g d a op ty rm).wf = true) :
    raw (encode (.redux g d a op ty rm)) = some (.redux g d a op ty rm) := by
  simp only [Instr.wf, Bool.and_eq_true, decide_eq_true_eq] at h
  obtain ⟨⟨⟨⟨⟨hg, ho⟩, -⟩, hd⟩, ha⟩, -⟩ := h
  have hd' := sok_lt hd
  have ha' := vok_lt ha
  have hr := rm_lt rm
  have hs : op * 4 + rm.code < 1024 := by omega
  refine raw_word rfl (guard_lt hg) (by omega) (by omega) (by decide) (loV_lt _ _ _ _ hs) fun w hw => ?_
  obtain ⟨h1, -, -, -, h5⟩ := loV_fields (ty := ty.code) false false false hs
  have hsub : fSub w = op * 4 + rm.code := by rw [fSub, hw.lo, h5]
  have hv : (op * 4 + rm.code) / 4 = op := by omega
  have hm : (op * 4 + rm.code) % 4 = rm.code := by omega
  show some (Instr.redux _ _ _ _ _ _) = _
  simp only [fRm_eq, fVar_eq, fTy, hsub, hv, hm, rmOf_code, tyOf_code, hw.guard, hw.d, hw.a, hw.lo, h1, Nat.add_sub_cancel_left]

theorem raw_fence {g : Guard} {scope : Nat} (h : (Instr.fence g scope).wf = true) : raw (encode (.fence g scope)) = some (.fence g scope) := by
  simp only [Instr.wf, Bool.and_eq_true, decide_eq_true_eq] at h
  obtain ⟨hg, hs⟩ := h
  refine raw_word rfl (guard_lt hg) (by decide) (by decide) (by decide) (lo_mem_lt (t := .i8) hs (by decide) (by decide)) fun w hw => ?_
  obtain ⟨-, h2, -, -⟩ := loM_fields (ty := 0) (pol := 0) (qf := 0) hs (by decide) (by decide)
  show some (Instr.fence _ _) = _
  rw [hw.guard, hw.lo, h2]

theorem raw_wait {g : Guard} {l1 l2 l3 l4 : Nat} (h : (Instr.wait g l1 l2 l3 l4).wf = true) :
    raw (encode (.wait g l1 l2 l3 l4)) = some (.wait g l1 l2 l3 l4) := by
  simp only [Instr.wf, Bool.and_eq_true, decide_eq_true_eq] at h
  obtain ⟨⟨⟨⟨hg, h1⟩, h2⟩, h3⟩, h4⟩ := h
  refine raw_word rfl (guard_lt hg) (by decide) (by decide) (by omega) (by omega) fun w hw => ?_
  have e1 : fB w / 128 = l1 := by rw [hw.b]; omega
  have e2 : fB w / 8 % 16 = l2 := by rw [hw.b]; omega
  have e3 : fB w % 8 * 2 + fLo w / 65536 = l3 := by rw [hw.b, hw.lo]; omega
  have e4 : fLo w / 4096 % 16 = l4 := by rw [hw.lo]; omega
  show some (Instr.wait _ _ _ _ _) = _
  rw [hw.guard, e1, e2, e3, e4]

theorem raw_launch {g : Guard} {d : Option Nat} {a : Nat} (h : (Instr.launch g d a).wf = true) : raw (encode (.launch g d a)) = some (.launch g d a) := by
  simp only [Instr.wf, Bool.and_eq_true] at h
  obtain ⟨⟨hg, ha⟩, hd⟩ := h
  have ha' := sok_lt ha
  cases d with
  | none =>
    exact raw_sub (d := 0) (guard_lt hg) (by decide) (by omega) (by decide) (by decide) rfl fun w h1 h2 h3 _ _ => by
      show some (Instr.launch _ _ _) = _
      simp [h1, h2, h3]
  | some n =>
    have hn := sok_lt hd
    exact raw_sub (d := 1536 + n) (guard_lt hg) (by omega) (by omega) (by decide) (by decide) rfl fun w h1 h2 h3 _ _ => by
      show some (Instr.launch _ _ _) = _
      simp [h1, h2, h3]

theorem raw_ctrain {g : Guard} {a b mask set : Nat} {sall : Bool} (h : (Instr.ctrain g a b mask set sall).wf = true) :
    raw (encode (.ctrain g a b mask set sall)) = some (.ctrain g a b mask set sall) := by
  simp only [Instr.wf, Bool.and_eq_true, decide_eq_true_eq] at h
  obtain ⟨⟨⟨⟨⟨hg, ha⟩, hb⟩, -⟩, hm⟩, hs⟩ := h
  have ha' := vok_lt ha
  have hb' := vok_lt hb
  have hf := flag_le sall
  refine raw_sub (guard_lt hg) (by decide) (by omega) (by omega) (by omega) rfl fun w h1 _ h3 h4 h5 => ?_
  have e1 : fSub w % 16 = mask := by omega
  have e2 : fSub w / 16 % 4 = set := by omega
  have e3 : fSub w / 64 = sall.toNat := by omega
  show some (Instr.ctrain _ _ _ _ _ _) = _
  rw [h1, h3, h4, e1, e2, e3, flag_eq]

theorem raw_cfb {g : Guard} {a b set k : Nat} {two : Bool} (h : (Instr.cfb g a b set k two).wf = true) :
    raw (encode (.cfb g a b set k two)) = some (.cfb g a b set k two) := by
  simp only [Instr.wf, Bool.and_eq_true, decide_eq_true_eq] at h
  obtain ⟨⟨⟨⟨hg, ha⟩, hb⟩, hs⟩, hk⟩ := h
  have ha' := vok_lt ha
  have hb' := vok_lt hb
  have hf := flag_le two
  refine raw_sub (guard_lt hg) (by decide) (by omega) (by omega) (by omega) rfl fun w h1 _ h3 h4 h5 => ?_
  have e1 : fSub w / 8 = set := by omega
  have e2 : fSub w / 2 % 4 = k := by omega
  have e3 : fSub w % 2 = two.toNat := by omega
  show some (Instr.cfb _ _ _ _ _ _) = _
  rw [h1, h3, h4, e1, e2, e3, flag_eq]

/-! ### Every instruction -/

/-- SUB of `ext` selects one of at most four elements (R162). -/
theorem lt_of_extOk {t : Ty} {e : Nat} (h : extOk t e = true) : e < 4 := by
  cases t <;> simp [extOk] at h <;> omega

/-- The destination of `atom` is a vector register (R247). -/
theorem src_of_atomDst {o : Opnd} {op : Nat} {t : Ty} (h : atomDst o op t = true) : o.src false false = true := by
  cases o with
  | v n => simp only [atomDst, Bool.and_eq_true] at h; simpa [Opnd.src, vok] using h.1
  | s n => cases h
  | sp x => cases h

/-- The fields of a well-formed instruction's word, under its opcode, name that instruction. -/
theorem raw_encode (i : Instr) (h : i.wf = true) : raw (encode i) = some i := by
  cases i with
  | add f | sub f | mul f | mulhi f | mulw f | div f | rem f | min f | max f | and f | or f | xor f | shl f | shr f | bsel f
  | fmin f | fmax f | rand f => exact raw_bin h (by decide) rfl fun w hf _ => by rw [← hf]; rfl
  | adds f x | rot f x =>
    have hx := flag_le x
    exact raw_bin h (by omega) rfl fun w hf hs => by rw [← hf, ← flag_eq x, ← hs]; rfl
  | lea f k =>
    have hk : k < 1024 := by simp only [Instr.wf, Bin.wf, Bool.and_eq_true, decide_eq_true_eq] at h; omega
    exact raw_bin h hk rfl fun w hf hs => by rw [← hf, ← hs]; rfl
  | fadd f rm | fsub f rm | fmul f rm | fdiv f rm | cvt2 f rm =>
    have hr := rm_lt rm
    exact raw_bin h (by omega) rfl fun w hf hs => by
      have hm : fRm w = rm := by rw [fRm_eq, hs, Nat.mod_eq_of_lt hr, rmOf_code]
      rw [← hf, ← hm]; rfl
  | qds8 f k =>
    have hk : k < 4 := by simp only [Instr.wf, Bin.plain, Bin.wf, Bool.and_eq_true, decide_eq_true_eq] at h; omega
    exact raw_bin h (by omega) rfl fun w hf hs => by
      have hv : fVar w = k := by rw [fVar_eq, hs]; omega
      rw [← hf, ← hv]; rfl
  | dqds8 f k rm =>
    have hr := rm_lt rm
    have hk : k < 4 := by simp only [Instr.wf, Bin.plain, Bin.wf, Bool.and_eq_true, decide_eq_true_eq] at h; omega
    exact raw_bin h (by omega) rfl fun w hf hs => by
      have hv : fVar w = k := by rw [fVar_eq, hs]; omega
      have hm : fRm w = rm := by rw [fRm_eq, hs, show (k * 4 + rm.code) % 4 = rm.code by omega, rmOf_code]
      rw [← hf, ← hv, ← hm]; rfl
  | abs f | not f | popc f | clz f | brev f | fabs f | fneg f | frcp f | frsq f | fexp2 f | flog2 f | mov f =>
    exact raw_un h (by decide) rfl fun w hf _ => by rw [← hf]; rfl
  | fsqrt f rm | frnd f rm =>
    have hr := rm_lt rm
    exact raw_un h (by omega) rfl fun w hf hs => by
      have hm : fRm w = rm := by rw [fRm_eq, hs, Nat.mod_eq_of_lt hr, rmOf_code]
      rw [← hf, ← hm]; rfl
  | ext f e =>
    have he : e < 4 := by
      simp only [Instr.wf, Un.wf, Bool.and_eq_true] at h
      obtain ⟨⟨⟨⟨-, ht⟩, -⟩, -⟩, -⟩ := h
      exact lt_of_extOk ht
    exact raw_un h (by omega) rfl fun w hf hs => by rw [← hf, ← hs]; rfl
  | escale f k =>
    have hk : k < 4 := by simp only [Instr.wf, Un.plain, Un.wf, Bool.and_eq_true, decide_eq_true_eq] at h; omega
    exact raw_un h (by omega) rfl fun w hf hs => by
      have hv : fVar w = k := by rw [fVar_eq, hs]; omega
      rw [← hf, ← hv]; rfl
  | fstatClr f =>
    exact raw_un h (by decide) rfl fun w hf hs => by
      have hv : fVar w = 1 := by rw [fVar_eq, hs]
      show (if fVar w == 1 then some (Instr.fstatClr (rawUn w)) else _) = _
      rw [hv, hf]; rfl
  | addi f | andi f | ori f | xori f | shli f | shri f => exact raw_imm h rfl fun w hf => by rw [← hf]; rfl
  | mad f | bfx f | bfi f | fma f | fdot2 f => exact raw_tri h rfl fun w hf => by rw [← hf]; rfl
  | cmp f =>
    simp only [Instr.wf, ccOk, Bool.and_eq_true, decide_eq_true_eq] at h
    obtain ⟨⟨⟨⟨⟨⟨hg, -⟩, hc, -⟩, -⟩, hp⟩, ha⟩, hb⟩ := h
    exact raw_cmp hg hp ha hb (by omega) rfl fun w hf hs => by rw [← hf, ← hs]; rfl
  | fcmp f =>
    simp only [Instr.wf, Bool.and_eq_true, decide_eq_true_eq] at h
    obtain ⟨⟨⟨⟨⟨⟨hg, -⟩, hc⟩, -⟩, hp⟩, ha⟩, hb⟩ := h
    exact raw_cmp hg hp ha hb (by omega) rfl fun w hf hs => by
      have hv : fVar w = f.cc := by rw [fVar_eq, hs]; omega
      show some (Instr.fcmp (rawCmp w (fVar w))) = _
      rw [hv, hf]
  | cmpi f => exact raw_cmpi h
  | plog f => exact raw_plog h
  | sel f => exact raw_sel h
  | movi f => exact raw_movi h
  | fclass f => exact raw_fclass h
  | fstatRd f => exact raw_fstatRd h
  | cvt f => exact raw_cvt h
  | ldw f | ld f | ldt f => exact raw_load h (by simp [Instr.wf, Mem.ldwf, Mem.wf] at h; omega) rfl fun w hf => by rw [← hf]; rfl
  | stw f | st f | stt f => exact raw_store h (by simp [Instr.wf, Mem.stwf, Mem.wf] at h; omega) rfl fun w hf => by rw [← hf]; rfl
  | stz f =>
    simp only [Instr.wf] at h
    exact raw_memA h (by simp [MemA.wf] at h; omega) (qfSt_lt (Bool.and_eq_true_iff.1 h).2) rfl fun w hf => by rw [← hf]; rfl
  | prefetch f | cwb f | iinv f =>
    exact raw_memA h (by simp [Instr.wf, MemA.wf] at h; omega) (by simp [Instr.wf, MemA.wf] at h; omega) rfl fun w hf => by rw [← hf]; rfl
  | atom f =>
    simp only [Instr.wf, Bool.and_eq_true] at h
    obtain ⟨hm, hd⟩ := h
    obtain ⟨hp, hq⟩ : f.pol < 16 ∧ f.qf < 16 := by simp [Mem.wf] at hm; omega
    have hv := src_of_atomDst hd
    exact raw_mem hm (opnd_src hv) (src_lt hv) hp hq rfl fun w hf => by rw [← hf]; rfl
  | red f =>
    simp only [Instr.wf, Bool.and_eq_true] at h
    obtain ⟨hm, hd⟩ := h
    obtain ⟨hp, hq⟩ : f.pol < 16 ∧ f.qf < 16 := by simp [Mem.wf] at hm; omega
    exact raw_mem hm (opnd_src hd) (src_lt hd) hp hq rfl fun w hf => by rw [← hf]; rfl
  | rtake f | rhead f =>
    simp only [Instr.wf, Opnd.isSrcV, Bool.and_eq_true] at h
    obtain ⟨hm, -, hd⟩ := h
    obtain ⟨hp, hq⟩ : f.pol < 16 ∧ f.qf < 16 := by simp [Mem.wf] at hm; omega
    exact raw_mem hm (opnd_src hd) (src_lt hd) hp hq rfl fun w hf => by rw [← hf]; rfl
  | tlset f | tladd f | tlwait f =>
    simp only [Instr.wf, Bool.and_eq_true] at h
    obtain ⟨hm, hd⟩ := h
    obtain ⟨hp, hq⟩ : f.pol < 16 ∧ f.qf < 16 := by simp [Mem.wf] at hm; omega
    exact raw_mem hm (opnd_src hd) (src_lt hd) hp hq rfl fun w hf => by rw [← hf]; rfl
  | allot g m | shrink g m =>
    simp only [Instr.wf, Bool.and_eq_true, decide_eq_true_eq] at h
    obtain ⟨⟨hg, -⟩, hm⟩ := h
    exact raw_imm8 (guard_lt hg) (by omega) rfl fun w hg hm => by rw [← hg, ← hm]; rfl
  | trap g m =>
    simp only [Instr.wf, Bool.and_eq_true, decide_eq_true_eq] at h
    exact raw_imm8 (guard_lt h.1) h.2 rfl fun w hg hm => by rw [← hg, ← hm]; rfl
  | ldi g d a b ty =>
    simp only [Instr.wf, Opnd.isSrcV, Bool.and_eq_true, decide_eq_true_eq] at h
    obtain ⟨⟨⟨⟨hg, -⟩, -, hd⟩, ha⟩, hb⟩ := h
    exact raw_elem (guard_lt hg) (opnd_src hd) (src_lt hd) ha hb rfl fun w h1 h2 h3 h4 h5 => by rw [← h1, ← h2, ← h3, ← h4, ← h5]; rfl
  | sti g d a b ty =>
    simp only [Instr.wf, Bool.and_eq_true, decide_eq_true_eq] at h
    obtain ⟨⟨⟨⟨hg, -⟩, hd⟩, ha⟩, hb⟩ := h
    exact raw_elem (guard_lt hg) (opnd_src hd) (src_lt hd) ha hb rfl fun w h1 h2 h3 h4 h5 => by rw [← h1, ← h2, ← h3, ← h4, ← h5]; rfl
  | bcast g d a b ty =>
    simp only [Instr.wf, Bool.and_eq_true] at h
    obtain ⟨⟨⟨⟨⟨hg, -⟩, hd⟩, ha⟩, -⟩, hb⟩ := h
    exact raw_elem (guard_lt hg) (opnd_dst hd) (dst_lt hd) (vok_lt ha) hb rfl fun w h1 h2 h3 h4 h5 => by
      rw [← h1, ← h2, ← h3, ← h4, ← h5]; rfl
  | perm g d a b =>
    simp only [Instr.wf, Bool.and_eq_true] at h
    obtain ⟨⟨⟨hg, hd⟩, ha⟩, hb⟩ := h
    exact raw_lanes (guard_lt hg) hd ha hb (by decide) rfl fun w h1 h2 h3 h4 _ => by rw [← h1, ← h2, ← h3, ← h4]; rfl
  | shfl g d a b mode =>
    simp only [Instr.wf, Bool.and_eq_true, decide_eq_true_eq] at h
    obtain ⟨⟨⟨⟨hg, hd⟩, ha⟩, hb⟩, hm⟩ := h
    exact raw_lanes (guard_lt hg) hd ha hb (by omega) rfl fun w h1 h2 h3 h4 h5 => by rw [← h1, ← h2, ← h3, ← h4, ← h5]; rfl
  | vote g d a mode => exact raw_vote h
  | redux g d a op ty rm => exact raw_redux h
  | fence g scope => exact raw_fence h
  | wait g l1 l2 l3 l4 => exact raw_wait h
  | launch g d a => exact raw_launch h
  | ctrain g a b mask set sall => exact raw_ctrain h
  | cfb g a b set k two => exact raw_cfb h
  | ifence g | ret g | exit g | fend g | bar g | barCl g | yield g | nop g | dsync g =>
    exact raw_bare (guard_lt h) rfl fun w hg => by rw [← hg]; rfl
  | elseerr g | jtest g => exact raw_bare (guard_lt (Bool.and_eq_true_iff.1 h).1) rfl fun w hg => by rw [← hg]; rfl
  | br g t | call g t =>
    simp only [Instr.wf, Bool.and_eq_true] at h
    exact raw_target h.2 (guard_lt h.1) (by decide) rfl fun w h1 h2 _ => by rw [← h1, ← h2]; rfl
  | elseby g t =>
    simp only [Instr.wf, Bool.and_eq_true] at h
    obtain ⟨⟨hg, -⟩, ht⟩ := h
    exact raw_target ht (guard_lt hg) (by decide) rfl fun w h1 h2 _ => by rw [← h1, ← h2]; rfl
  | fspawn g d t =>
    simp only [Instr.wf, Bool.and_eq_true] at h
    obtain ⟨⟨hg, hd⟩, ht⟩ := h
    have hd' := vok_lt hd
    exact raw_target ht (guard_lt hg) (by omega) rfl fun w h1 h2 h3 => by rw [← h1, ← h2, ← h3]; rfl
  | ensure g t d =>
    simp only [Instr.wf, Bool.and_eq_true] at h
    obtain ⟨⟨⟨hg, -⟩, ht⟩, hd⟩ := h
    have hd' := sok_lt hd
    exact raw_target ht (guard_lt hg) (by omega) rfl fun w h1 h2 h3 => by
      rw [← h1, ← h2, ← Nat.add_sub_cancel_left (n := 1536) (m := d), ← h3]; rfl
  | callInd g a | jmpi g a =>
    simp only [Instr.wf, Bool.and_eq_true] at h
    exact raw_codeReg (guard_lt h.1) h.2 rfl fun w h1 h2 => by rw [← h1, ← h2]; rfl
  | lfetch f | lcast f | lput f | lcopy f | lpermit f | gmma f | gdrain f | gload f | gzero f | cseed f | ctab f | tkpost f | await f | mrecv f =>
    exact raw_eng h rfl fun w hf => by rw [← hf]; rfl
  | cjoin f => exact raw_eng (Bool.and_eq_true_iff.1 h).1 rfl fun w hf => by rw [← hf]; rfl
  | gstat f | msend f | mpoll f => exact raw_engD h rfl fun w hf => by rw [← hf]; rfl
  | gsave f | gresume f | cload f | cstore f => exact raw_engB h rfl fun w hf => by rw [← hf]; rfl
  | fsort g d a b =>
    simp only [Instr.wf, Bool.and_eq_true] at h
    obtain ⟨⟨⟨⟨hg, -⟩, hd⟩, ha⟩, hb⟩ := h
    have hd' := vok_lt hd
    have ha' := vok_lt ha
    have hb' := sok_lt hb
    exact raw_sub (guard_lt hg) (by omega) (by omega) (by omega) (by decide) rfl fun w h1 h2 h3 h4 _ => by
      rw [← h1, ← h2, ← h3, ← Nat.add_sub_cancel_left (n := 1536) (m := b), ← h4]; rfl
  | cinfer g d a mask | cvote g d a mask =>
    simp only [Instr.wf, Bool.and_eq_true, decide_eq_true_eq] at h
    obtain ⟨⟨⟨⟨hg, hd⟩, ha⟩, -⟩, hm⟩ := h
    have hd' := vok_lt hd
    have ha' := vok_lt ha
    exact raw_sub (guard_lt hg) (by omega) (by omega) (by decide) (by omega) rfl fun w h1 h2 h3 _ h5 => by
      rw [← h1, ← h2, ← h3, ← h5]; rfl
  | accept g a =>
    simp only [Instr.wf, Bool.and_eq_true, decide_eq_true_eq] at h
    obtain ⟨⟨hg, -⟩, ha⟩ := h
    exact raw_sub (guard_lt hg) (by decide) (by omega) (by decide) (by decide) rfl fun w h1 _ h3 _ _ => by rw [← h1, ← h3]; rfl
  | frq g d =>
    simp only [Instr.wf, Bool.and_eq_true] at h
    have hd := vok_lt h.2
    exact raw_sub (guard_lt h.1) (by omega) (by decide) (by decide) (by decide) rfl fun w h1 h2 _ _ _ => by rw [← h1, ← h2]; rfl
  | pverInc g d | pverRd g d =>
    simp only [Instr.wf, Bool.and_eq_true] at h
    have hd := sok_lt h.2
    exact raw_sub (guard_lt h.1) (by omega) (by decide) (by decide) (by decide) rfl fun w h1 h2 _ _ h5 => by
      show some (if fSub w == 0 then Instr.pverInc (fGuard w) (fD w - 1536) else .pverRd (fGuard w) (fD w - 1536)) = _
      rw [h1, h2, h5, Nat.add_sub_cancel_left]; rfl
  | srd g d r =>
    simp only [Instr.wf, Bool.and_eq_true, decide_eq_true_eq] at h
    obtain ⟨⟨hg, hd⟩, hr⟩ := h
    have hd' := sok_lt hd
    exact raw_sub (guard_lt hg) (by omega) (by decide) (by decide) (by omega) rfl fun w h1 h2 _ _ h5 => by
      rw [← h1, ← Nat.add_sub_cancel_left (n := 1536) (m := d), ← h2, ← h5]; rfl
  | swr g a r =>
    simp only [Instr.wf, Bool.and_eq_true, beq_iff_eq] at h
    obtain ⟨⟨hg, ha⟩, hr⟩ := h
    have ha' := sok_lt ha
    exact raw_sub (guard_lt hg) (by decide) (by omega) (by decide) (by omega) rfl fun w h1 _ h3 _ h5 => by
      rw [← h1, ← Nat.add_sub_cancel_left (n := 1536) (m := a), ← h3, ← h5]; rfl
  | ctxq g d a b =>
    simp only [Instr.wf, Bool.and_eq_true] at h
    obtain ⟨⟨⟨hg, hd⟩, ha⟩, hb⟩ := h
    have hd' := vok_lt hd
    have ha' := sok_lt ha
    have hb' := sok_lt hb
    exact raw_sub (guard_lt hg) (by omega) (by omega) (by omega) (by decide) rfl fun w h1 h2 h3 h4 _ => by
      rw [← h1, ← h2, ← Nat.add_sub_cancel_left (n := 1536) (m := a), ← h3, ← Nat.add_sub_cancel_left (n := 1536) (m := b), ← h4]; rfl
  | _ => cases h

/-- A well-formed instruction's word decodes to it. -/
theorem decode_encode {i : Instr} (h : i.wf = true) : encode i < 2 ^ 64 ∧ decode (encode i) = .ok i := by
  have hr := raw_encode i h
  have ho := fOpc_lt_of_raw hr
  refine ⟨by simp only [fOpc] at ho; omega, ?_⟩
  rw [decode, if_neg (by omega), hr]
  simp [h]

/-- A word that decodes is the word of its instruction. -/
theorem encode_of_decode {w : Nat} {i : Instr} (h : decode w = .ok i) : i.wf = true ∧ encode i = w := by
  unfold decode at h
  split at h
  · cases h
  · split at h
    · cases h
    · split at h
      · next hw =>
        cases h
        simpa using hw
      · cases h

theorem decode_header {w : Nat} (h : 0xF0 ≤ w / 2 ^ 56) : decode w = .header := if_pos h

theorem decode_illegal {w : Nat} (ho : w / 2 ^ 56 < 0xF0) (h : ∀ i : Instr, i.wf = true → encode i ≠ w) : decode w = .illegal := by
  cases hd : decode w with
  | ok i =>
    obtain ⟨hw, he⟩ := encode_of_decode hd
    exact absurd he (h i hw)
  | illegal => rfl
  | header =>
    unfold decode at hd
    rw [if_neg (by simp only [fOpc]; omega)] at hd
    split at hd
    · cases hd
    · split at hd <;> cases hd

/-- Settles O55: each form's fields are read back from where the encoder put them, and the decoder accepts nothing else. -/
theorem encodingRoundTrip : Obligations.EncodingRoundTrip :=
  ⟨fun _ h => decode_encode h, fun _ _ h => encode_of_decode h, fun _ h => decode_header h, fun _ ho h => decode_illegal ho h⟩

/-! ### Words assembled in the spec -/

/-- Settles O56: each word is decoded by evaluation. -/
theorem decodingSanity : Obligations.DecodingSanity := by
  unfold Obligations.DecodingSanity
  decide

end Sys2Proof.Proofs
end

section
/-!
PROOFS. The issue of loads (R71, R72, R77, R88, R90, R115): one lemma says what a load does with the answer of its check, whatever its space.
-/
namespace Sys2Proof.Proofs
open Sys2Proof Sys2Proof.Machine Sys2Proof.Laws

/-! ### A unit that stalls or faults -/

theorem runUnits_stall {α : Type} {s : State} {g : Guard} {fk : Nat} {f : Fibre} (h : Issues s g fk f) {plan : State → WUnit → Plan α}
    {apply : State → WUnit → α → State} (hp : plan s (only fk) = .stall) : runUnits s g plan apply = s := by
  rw [runUnits_issues h, hp]

theorem runUnits_fault {α : Type} {s : State} {g : Guard} {fk : Nat} {f : Fibre} (h : Issues s g fk f) {plan : State → WUnit → Plan α}
    {apply : State → WUnit → α → State} {c : FClass} {d : Nat} (hp : plan s (only fk) = .fault c d) :
    runUnits s g plan apply = s.faulted fk c d := by
  rw [runUnits_issues h, hp]
  rfl

/-! ### A load of one fibre -/

/-- A load that has passed its check opens its operation and goes on, or waits for its granule (R77). -/
def loads (s : State) (fk : Nat) (k : OpKind) (f : Mem) (p : Nat) (t : Tgt) : State :=
  let u := (s.touch (s.ctxOf (fkBk fk)) t).issued fk (memI k .ld f) (laneOf fk p t .pending 0 0)
  if f.qf.testBit 2 then u.setStat fk .lane else u.advance fk

/-- A load on a page that is not present parks and asks for the page (R72). -/
def loadParks (s : State) (fk : Nat) (k : OpKind) (f : Mem) (p q : Nat) (t : Tgt) : State :=
  ((s.issued fk (memI k .ld f) (laneOf fk p t .page 0 0)).setStat fk (.page p)).request (s.ctxOf (fkBk fk)) q

/-- What a load does with the result of its check. -/
def loadGives (s : State) (fk : Nat) (k : OpKind) (f : Mem) (p : Nat) : Chk → State
  | .ok t => loads s fk k f p t
  | .absent t => loadParks s fk k f p (s.globalPtr k.tureen t p) t
  | .fault c d => s.faulted fk c d
  | _ => s

section
variable {s : State} {fk : Nat} {x : Fibre} {f : Mem} {k : OpKind} {wide scp : Bool} {check : WUnit → Nat → Chk}

theorem applyLoad_ok (ho : Opens s fk .ld) (hk : k.isLoad = true) (rd : Res) (p : Nat) (t : Tgt) :
    applyLoad (memI k .ld f) s.seq s (only fk) { rd := rd, src := 0, src2 := 0, ptr := p, chk := .ok t } = loads s fk k f p t := by
  have he : ∀ u : State, (if (memI k .ld f).kind.isLoad && bit (memI k .ld f).qf 2 then parkUnit u (only fk) .lane else advanceUnit u (only fk)) =
      if f.qf.testBit 2 then u.setStat fk .lane else u.advance fk := by
    intro u
    simp only [memI, hk, bit_eq, Bool.true_and, advanceUnit_only]
    rfl
  simp only [applyLoad, only_bk, only_g, opFor_fresh _ _ _ ho.fresh, mkLane_only, he]
  unfold loads
  rw [← touch_issue _ _ _ _ _ ho.fresh]
  rfl

theorem applyLoad_absent (ho : Opens s fk .ld) (rd : Res) (p : Nat) (t : Tgt) :
    applyLoad (memI k .ld f) s.seq s (only fk) { rd := rd, src := 0, src2 := 0, ptr := p, chk := .absent t } =
      loadParks s fk k f p (s.globalPtr k.tureen t p) t := by
  simp only [applyLoad, only_bk, only_g, opFor_fresh _ _ _ ho.fresh, mkLane_only, addLane_fresh _ _ _ ho.fresh]
  rfl

/-- A load whose operands are ready: a scope entry it may not name is its fault, then its check decides (R71, R244). -/
theorem runLoad_ready (h : Issues s f.g fk x) (ho : Opens s fk .ld) (hd : free s fk f.d false f.ty.wide = true)
    (ha : addrReady s fk wide f.base f.sc = true) (hk : k.isLoad = true)
    (hn : ∀ p, check (only fk) p ≠ .staged) :
    let p := addr s fk wide f.base f.ofs f.sc f.ty.size
    runLoad s k f wide scp check = if scp = true ∧ s.scopeOk fk f.scope = false then s.faulted fk .ac f.scope
      else loadGives s fk k f p (check (only fk) p) := by
  intro p
  have hp := planMem_ready (s := s) (fk := fk) (i := memI k .ld f) (scp := scp) (ofs := f.ofs) (n := f.ty.size)
    (d := some (.reg f.d false f.ty.wide f.ty)) (srcs := []) (val := fun _ => (0, 0)) (check := check (only fk)) ho ha (by simp)
    (resolve_of_free hd) (by rw [firstBad_resOf]; rfl) (busyRes_of_free hd)
  change _ = if scp = true ∧ s.scopeOk fk f.scope = false then _ else _ at hp
  by_cases hs : scp = true ∧ s.scopeOk fk f.scope = false
  · rw [if_pos hs] at hp ⊢
    exact runUnits_fault h hp
  · rw [if_neg hs] at hp ⊢
    change _ = (check (only fk) p).plan _ at hp
    cases hc : check (only fk) p with
    | staged => exact absurd hc (hn p)
    | fault fc d => rw [hc] at hp; exact runUnits_fault h hp
    | wait => rw [hc] at hp; exact runUnits_stall h hp
    | absent t => rw [hc] at hp; exact (runUnits_go h hp).trans (applyLoad_absent ho _ p t)
    | ok t => rw [hc] at hp; exact (runUnits_go h hp).trans (applyLoad_ok ho hk _ p t)
end

/-! ### The checks of loads -/

section
variable {s : State} {c p n : Nat} {kind : Kind}

theorem fillCheck_ne_staged (k off : Nat) (r : Region) (det : Nat) : s.fillCheck c k off r det ≠ .staged := by
  unfold State.fillCheck
  dsimp only
  repeat' split
  all_goals simp

theorem leafCheck_ne_staged : s.leafCheck c p kind ≠ .staged := by
  unfold State.leafCheck
  repeat' split
  all_goals simp

theorem entryHold_ne_staged : s.entryHold c p ≠ some .staged := by
  unfold State.entryHold
  dsimp only
  repeat' split
  all_goals simp

/-- Nothing is staged for an access whose stores are not (R71). -/
theorem check_ne_staged (align : Nat) : s.check c p n align kind false ≠ .staged := by
  unfold State.check
  simp only [Bool.false_and, Bool.false_eq_true, if_false]
  split
  · next e he => intro hx; exact entryHold_ne_staged (hx ▸ he)
  · split
    · simp
    · split
      · split
        · simp
        · exact fillCheck_ne_staged _ _ _ _
      · exact leafCheck_ne_staged

theorem ite_ne {α : Type} {a b y : α} {q : Prop} [Decidable q] (ha : a ≠ y) (hb : b ≠ y) : (if q then a else b) ≠ y := by
  split
  · exact ha
  · exact hb

/-- Nor for a load by Tureen address (R90). -/
theorem checkT_load_ne_staged (staging feq : Bool) : s.checkT c p n .load staging feq ≠ .staged := by
  have hk : ∀ ds : Bool, ¬ (staging && ds && Kind.load == Kind.store) = true := fun ds => by
    rw [show (Kind.load == Kind.store) = false from rfl, Bool.and_false]; exact Bool.false_ne_true
  unfold State.checkT
  split
  · simp
  · split
    · simp
    · dsimp only
      rw [if_neg (hk _)]
      exact ite_ne (by simp) (ite_ne (by simp) (fillCheck_ne_staged _ _ _ _))

theorem winChk_fault {fk : Nat} {fc : FClass} {d : Nat} (h : s.winCheck (fkBk fk) p n n = some (fc, d)) :
    s.winChk (only fk) n p = .fault fc d := by
  simp only [State.winChk, only_bk, h]

theorem winChk_inside {fk : Nat} (h : s.winCheck (fkBk fk) p n n = none) :
    s.winChk (only fk) n p = if winGrp p = fkG fk ∧ s.owedIn (fkBk fk) (fkG fk) (winOff p) n = true then .wait
      else .ok (.win (fkBk fk) (winGrp p) (winOff p)) := by
  rw [State.winChk, only_bk, h]
  rfl

theorem winChk_ne_staged (u : WUnit) : s.winChk u n p ≠ .staged := by
  unfold State.winChk
  repeat' split
  all_goals simp
end

/-- A region through whose DS entry a block's stores are staged: its lines give no granules to that block's loads (R88). -/
def lends (s : State) (bk : Nat) : Tgt → Bool
  | .region k _ => match sget none s.mem.regions k with
    | some r => s.staging bk && s.dsOf (s.ctxOf bk) r.gbase
    | none => false
  | _ => false

section
variable (s : State) (bk p : Nat) (fe : Bool)

theorem feqLoad_ok (t : Tgt) :
    s.feqLoad bk fe p (.ok t) = if fe && (!t.granular || lends s bk t) then .fault .ac p else .ok t := by
  have hf : s.feqLoad bk fe p (.ok t) = match feqCheck fe p (.ok t) with
      | .ok t => if fe && lends s bk t then .fault .ac p else .ok t
      | .absent t => if fe && lends s bk t then .fault .ac p else .absent t
      | c => c := rfl
  rw [hf]
  cases fe <;> cases hg : t.granular <;> simp [feqCheck, hg]

theorem feqLoad_absent (t : Tgt) : s.feqLoad bk fe p (.absent t) = if fe && lends s bk t then .fault .ac p else .absent t := rfl

theorem feqLoad_ne_staged {c : Chk} (h : c ≠ .staged) : s.feqLoad bk fe p c ≠ .staged := by
  cases c with
  | staged => exact absurd rfl h
  | ok t => rw [feqLoad_ok]; split <;> simp
  | absent t => rw [feqLoad_absent]; split <;> simp
  | fault c d => simp [State.feqLoad, feqCheck]
  | wait => simp [State.feqLoad, feqCheck]
end

section
variable {s : State} {fk : Nat} {x : Fibre} {f : Mem}

theorem exec_ld (h : Issues s f.g fk x) (ho : Opens s fk .ld) (hd : free s fk f.d false f.ty.wide = true)
    (ha : addrReady s fk true f.base f.sc = true) :
    let p := addr s fk true f.base f.ofs f.sc f.ty.size
    exec (.ld f) s = .next (if s.scopeOk fk f.scope = false then s.faulted fk .ac f.scope else loadGives s fk .ld f p
      (s.feqLoad (fkBk fk) (f.qf.testBit 2) p (s.check (s.ctxOf (fkBk fk)) p f.ty.size f.ty.size .load false))) := by
  have hr := runLoad_ready (k := .ld) (scp := true) (check := fun u p =>
    s.feqLoad u.bk (bit f.qf 2) p (s.check (s.ctxOf u.bk) p f.ty.size f.ty.size .load false)) h ho hd ha rfl
    fun p => feqLoad_ne_staged _ _ _ _ (check_ne_staged _)
  simp only [true_and] at hr
  simp only [← bit_eq, exec, execLd, hr, only_bk]

theorem exec_ldt (h : Issues s f.g fk x) (ho : Opens s fk .ld) (hd : free s fk f.d false f.ty.wide = true)
    (ha : addrReady s fk false f.base f.sc = true) :
    let p := addr s fk false f.base f.ofs f.sc f.ty.size
    exec (.ldt f) s = .next (if s.scopeOk fk f.scope = false then s.faulted fk .ac f.scope else loadGives s fk .ldt f p
      (s.checkT (s.ctxOf (fkBk fk)) p f.ty.size .load (s.staging (fkBk fk)) (f.qf.testBit 2))) := by
  have hr := runLoad_ready (k := .ldt) (scp := true) (check := fun u p =>
    s.checkT (s.ctxOf u.bk) p f.ty.size .load (s.staging u.bk) (bit f.qf 2)) h ho hd ha rfl fun p => checkT_load_ne_staged _ _
  simp only [true_and] at hr
  simp only [← bit_eq, exec, execLdt, hr, only_bk]

theorem exec_ldw (h : Issues s f.g fk x) (ho : Opens s fk .ld) (hd : free s fk f.d false f.ty.wide = true)
    (ha : addrReady s fk false f.base f.sc = true) :
    let p := addr s fk false f.base f.ofs f.sc f.ty.size
    exec (.ldw f) s = .next (loadGives s fk .ldw f p (s.winChk (only fk) f.ty.size p)) := by
  have hr := runLoad_ready (k := .ldw) (scp := false) (check := fun u p => s.winChk u f.ty.size p) h ho hd ha rfl
    fun p => winChk_ne_staged _
  simp only [Bool.false_eq_true, false_and, if_false] at hr
  simp only [exec, execLdw, hr]
end

/-- Settles O11: the operands are ready, so the plan of the load is what its check answers, and each answer has its effect. -/
theorem loadIssue : Obligations.LoadIssue := by
  intro s fk x f h ho hd bk c fe lent i done park
  have hlent : lent = lends s bk := by
    funext t
    cases t <;> rfl
  refine ⟨fun ha => ?_, fun ha => ?_⟩
  · intro p
    have he := exec_ld h ho hd ha
    refine ⟨fun hs => by rw [he, if_pos hs], fun hs => ?_⟩
    rw [he, if_neg (by simp [hs]), hlent]
    cases hc : s.check c p f.ty.size f.ty.size .load false with
    | staged => exact absurd hc (check_ne_staged _)
    | fault fc d => rfl
    | wait => rfl
    | ok t =>
      rw [feqLoad_ok]
      dsimp only
      split <;> rfl
    | absent t =>
      rw [feqLoad_absent]
      dsimp only
      split <;> rfl
  · intro p
    have he := exec_ldt h ho hd ha
    refine ⟨fun hs => by rw [he, if_pos hs], fun hs => ?_, ?_⟩
    · rw [he, if_neg (by simp [hs])]
      cases hc : s.checkT c p f.ty.size .load (s.staging bk) fe with
      | staged => exact absurd hc (checkT_load_ne_staged _ _)
      | fault fc d => rfl
      | wait => rfl
      | ok t => rfl
      | absent t => rfl
    · rw [exec_ldw h ho hd ha]
      cases hw : s.winCheck bk p f.ty.size f.ty.size with
      | some e => rw [winChk_fault hw]; rfl
      | none =>
        rw [winChk_inside hw]
        dsimp only
        split <;> rfl
end Sys2Proof.Proofs
end

section
/-!
PROOFS. Transfers (R26, R266, R268, R324): the landing of a checked target, the plans of `br`, `jmpi` and the calls, and the cases of `ret`.
-/
namespace Sys2Proof.Proofs
open Sys2Proof Sys2Proof.Machine Sys2Proof.Laws

/-! ### Landing at a target (R268) -/

/-- Where a transfer to `a` leaves its fibre: at the header of the kind asked for, as `ok` makes it, or with the target's own fault, or parked. -/
def landing (s : State) (fk a kind : Nat) (ok : Fibre → Fibre) : Host.Outcome State Fault Refusal :=
  if a % 8 ≠ 0 then .next (s.faulted fk .hd a)
  else match s.fetchWord (fkBk fk) (s.group (fkBk fk) (fkG fk)).core a with
    | .fault fc d => .next (s.faulted fk fc d)
    | .absent => .next ((s.setStat fk (.page a)).request (s.ctxOf (fkBk fk)) a)
    | .wait => .next s
    | .word w => if w / 2 ^ 56 % 256 = kind then .next (s.updFib fk fun y => { ok y with pc := a, left := 68, stat := .ready, ahead := [] })
        else .next (s.faulted fk .hd a)

/-- The checks of a transfer's target, for the issuing fibre. -/
def landOf (s : State) (fk a kind : Nat) : Land := s.land (fkBk fk) (s.group (fkBk fk) (fkG fk)).core a [kind]

section
variable {s : State} {fk a kind : Nat} {ok : Fibre → Fibre}

theorem contains_hdKind (w : Nat) : ([kind].contains (hdKind w) = true) = (w / 2 ^ 56 % 256 = kind) := by
  rw [List.contains_cons, List.contains_nil, Bool.or_false, beq_iff_eq, hdKind]

theorem landing_eq : landing s fk a kind ok = .next (match landOf s fk a kind with
      | .fault c d => s.faulted fk c d
      | .wait => s
      | .absent => s.parkFetch fk a
      | .ok _ => s.updFib fk fun y => (ok y).goto a) := by
  unfold landing landOf State.land
  by_cases ha : a % 8 ≠ 0
  · rw [if_pos ha, if_pos ha]
  · rw [if_neg ha, if_neg ha]
    cases s.fetchWord (fkBk fk) (s.group (fkBk fk) (fkG fk)).core a with
    | fault fc d => rfl
    | absent => rfl
    | wait => rfl
    | word w =>
      dsimp only
      by_cases hk : w / 2 ^ 56 % 256 = kind
      · rw [if_pos hk, if_pos (by rwa [contains_hdKind])]
        rfl
      · rw [if_neg hk, if_neg (by rwa [contains_hdKind])]

/-- A target with a page that is absent, or with a header of its kind, has no fault of its own. -/
theorem landOf_present (ha : a % 8 = 0)
    (hf : s.fetchWord (fkBk fk) (s.group (fkBk fk) (fkG fk)).core a = .absent ∨
      ∃ w, s.fetchWord (fkBk fk) (s.group (fkBk fk) (fkG fk)).core a = .word w ∧ w / 2 ^ 56 % 256 = kind) :
    landOf s fk a kind = .absent ∨ ∃ w, landOf s fk a kind = .ok w := by
  unfold landOf State.land
  rw [if_neg (by simp [ha])]
  obtain hf | ⟨w, hf, hk⟩ := hf
  · exact .inl (by rw [hf])
  · refine .inr ⟨w, ?_⟩
    rw [hf]
    exact if_pos (by rwa [contains_hdKind])

/-- The address that a transfer names: displaced from its PC, or in a uniform register (R26). -/
def targetOf (s : State) (fk : Nat) : Target → Nat
  | .disp d => (BitVec.ofInt 64 (s.ipc + 8 * (BitVec.ofNat 8 d).toInt)).toNat
  | .far r => value s fk (.s r) false true

/-- The plan of a transfer whose target is known. -/
def landPlan (a : Nat) : Land → Plan (Nat × Bool)
  | .fault c d => .fault c d
  | .wait => .stall
  | .absent => .go (a, false)
  | .ok _ => .go (a, true)

/-- A transfer that is planned from its target alone. -/
theorem runUnits_landing {g : Guard} {x : Fibre} {plan : State → WUnit → Plan (Nat × Bool)} (h : Issues s g fk x)
    (hp : plan s (only fk) = landPlan a (landOf s fk a kind)) :
    Host.Outcome.next (runUnits s g plan fun st u a => gotoOr st u.rep a ok) = landing s fk a kind ok := by
  rw [landing_eq]
  congr 1
  cases hl : landOf s fk a kind with
  | fault c d => exact runUnits_fault h (hp.trans (by rw [hl]; rfl))
  | wait => exact runUnits_stall h (hp.trans (by rw [hl]; rfl))
  | absent => exact runUnits_go h (hp.trans (by rw [hl]; rfl))
  | ok w => exact runUnits_go h (hp.trans (by rw [hl]; rfl))

theorem planTarget_ready {t : Target} (ht : ∀ r, t = .far r → readable s fk (.s r) false true = true) :
    planTarget s (only fk) t [kind] = landPlan (targetOf s fk t) (landOf s fk (targetOf s fk t) kind) := by
  cases t with
  | disp d =>
    have ha : dispTo s.ipc d = targetOf s fk (.disp d) := by rw [dispTo, unsgn_eq, sgn_eq]; rfl
    simp only [planTarget, ha]
    rfl
  | far r =>
    have hr := ht r rfl
    simp only [readable, free, clean, Bool.and_eq_true, Bool.not_eq_true'] at hr
    simp only [planTarget, only_bk, only_g, hr.1, hr.2, Bool.false_eq_true, if_false]
    rfl

theorem planInd_ready {o : Opnd} (ho : readable s fk o false true = true) :
    let a := value s fk o false true
    planInd s (only fk) o [kind] = landPlan a (landOf s fk a kind) := by
  intro a
  have hp := planOperands_ready (s := s) (fk := fk) (d := none) (srcs := [⟨o, false, true⟩]) (need := [true]) (rd := .sp .lane) rfl
    (srcsReady_all (by simpa using ho)) rfl rfl rfl
  simp only [planInd, hp, readSrcs_ready]
  rfl

/-- A call with room on its stack is planned from its target alone. -/
theorem planCall_of_lt {p : Plan (Nat × Bool)} {t : Nat} (h : s.depthOf fk < 68) : planCall s (only fk) p t = p := by
  cases p with
  | go a => exact if_neg (by simp only [only_rep]; omega)
  | stall => rfl
  | fault c d => rfl

/-- A call at a full stack is AC behind the target's own faults. -/
theorem planCall_full (h : 68 ≤ s.depthOf fk) (ha : a % 8 = 0)
    (hf : s.fetchWord (fkBk fk) (s.group (fkBk fk) (fkG fk)).core a = .absent ∨
      ∃ w, s.fetchWord (fkBk fk) (s.group (fkBk fk) (fkG fk)).core a = .word w ∧ w / 2 ^ 56 % 256 = kind) :
    planCall s (only fk) (landPlan a (landOf s fk a kind)) (landPlan a (landOf s fk a kind)).val = .fault .ac a := by
  obtain hl | ⟨w, hl⟩ := landOf_present ha hf <;> rw [hl] <;> exact if_pos h

theorem depthOf_eq {x : Fibre} (h : s.fib fk = some x) : s.depthOf fk = x.stack.length := by
  rw [State.depthOf, h]

end

/-! ### ret (R266, R268, R324) -/

/-- How a `ret` is planned. -/
def retPlan (s : State) (u : WUnit) : Plan (Nat × Nat) :=
  match s.fib u.rep with
  | none => .stall
  | some f => match f.stack with
    | [] => .fault .hd s.ipc
    | t :: _ =>
      if s.depthOf u.rep ≤ s.depthFloor u.rep && s.depth u.bk ≠ 0 then .fault .il openDet
      else if f.badRefill then .fault .pz openDet
      else match s.land u.bk (s.group u.bk u.g).core t [0xF0] with
        | .fault c det => .fault c det
        | .wait => .stall
        | .absent => .go (t, 1)
        | .ok _ => .go (t, 0)

/-- What a planned `ret` does. -/
def retGo (st : State) (u : WUnit) (a : Nat × Nat) : State :=
  if a.2 = 0 then st.updFib u.rep fun f => (popRet f).goto a.1 else st.parkFetch u.rep a.1

section
variable {s : State} {g : Guard} {fk : Nat} {x : Fibre}

theorem exec_ret (h : Issues s g fk x) :
    exec (.ret g) s = .next (runUnits (if s.badRet fk then s.logSpill fk else s) g retPlan retGo) := by
  have hc : s.curSorted = [fk] := by simp [State.curSorted, h.cur, sortBy]
  have hl : ((s.curSorted.filter (guardHolds s g)).filter s.badRet).foldl State.logSpill s = if s.badRet fk then s.logSpill fk else s := by
    rw [hc]
    simp only [List.filter_cons, h.guard, if_true, List.filter_nil]
    cases s.badRet fk <;> rfl
  rw [← hl]
  rfl

/-- The fibre still issues once a spill line has been logged. -/
theorem issues_logSpill (h : Issues s g fk x) : Issues (s.logSpill fk) g fk x := ⟨h.cur, h.fib, h.holds⟩

/-- The refill that an emptied on-chip part of the stack needs meets a line that cannot be corrected (R266). -/
theorem badRefill_iff {t : Nat} {l : List Nat} (hs : x.stack = t :: l) :
    x.badRefill = true ↔ x.chip ≤ 1 ∧ l ≠ [] ∧ x.spoil.testBit ((l.length - 1) / 16) = true := by
  have hlen : x.stack.length = l.length + 1 := by rw [hs, List.length_cons]
  have hl : l ≠ [] ↔ 1 ≤ l.length := List.length_pos_iff.symm
  unfold Fibre.badRefill Fibre.refills
  rw [hlen, hl]
  by_cases hc : x.chip ≤ 1 ∧ 2 ≤ l.length + 1
  · rw [if_pos hc, Option.any_some, bit_eq, show l.length + 1 - 2 = l.length - 1 by omega]
    exact ⟨fun hb => ⟨hc.1, by omega, hb⟩, fun hb => hb.2.2⟩
  · rw [if_neg hc]
    simp only [Option.any_none, Bool.false_eq_true, false_iff]
    omega

/-- The stack of a `ret` inside a frame stands where it stood at `ensure` (R324). -/
def atFloor (s : State) (fk : Nat) (x : Fibre) : Prop := s.depth (fkBk fk) ≠ 0 ∧ x.stack.length ≤ s.depthFloor fk

theorem badRet_iff (h : s.fib fk = some x) : s.badRet fk = true ↔ ¬ atFloor s fk x ∧ x.badRefill = true := by
  rw [State.badRet, depthOf_eq h, h, Option.any_some, atFloor]
  simp only [Bool.and_eq_true, Bool.not_eq_true', Bool.and_eq_false_iff, decide_eq_false_iff_not, bne_eq_false_iff_eq]
  refine and_congr_left fun _ => ?_
  rw [not_and_or, not_not, or_comm]

theorem atFloor_iff : (decide (x.stack.length ≤ s.depthFloor fk) && decide (s.depth (fkBk fk) ≠ 0)) = true ↔ atFloor s fk x := by
  rw [Bool.and_eq_true, decide_eq_true_eq, decide_eq_true_eq, atFloor, and_comm]

section
variable {t : Nat} {l : List Nat} (h : s.fib fk = some x) (hs : x.stack = t :: l)
include h hs

theorem retPlan_eq : retPlan s (only fk) = if s.depthOf fk ≤ s.depthFloor fk && s.depth (fkBk fk) ≠ 0 then .fault .il openDet
    else if x.badRefill then .fault .pz openDet
    else match landOf s fk t 0xF0 with
      | .fault c det => .fault c det
      | .wait => .stall
      | .absent => .go (t, 1)
      | .ok _ => .go (t, 0) := by
  simp only [retPlan, only_rep, h, hs]
  rfl

theorem retPlan_atFloor (hf : atFloor s fk x) : retPlan s (only fk) = .fault .il openDet := by
  rw [retPlan_eq h hs, depthOf_eq h]
  exact if_pos (atFloor_iff.2 hf)

theorem retPlan_lost (hf : ¬ atFloor s fk x) (hb : x.badRefill = true) : retPlan s (only fk) = .fault .pz openDet := by
  rw [retPlan_eq h hs, depthOf_eq h, if_neg (mt atFloor_iff.1 hf)]
  exact if_pos hb

end

/-- A `ret` that pops its return address and goes there. -/
theorem ret_landing {t : Nat} {l : List Nat} (h : Issues s g fk x) (hs : x.stack = t :: l) (hf : ¬ atFloor s fk x) (hb : ¬ x.badRefill = true) :
    Host.Outcome.next (runUnits s g retPlan retGo) = landing s fk t 0xF0 popRet := by
  have hp := retPlan_eq h.fib hs
  rw [depthOf_eq h.fib, if_neg (mt atFloor_iff.1 hf), if_neg hb] at hp
  rw [landing_eq]
  congr 1
  cases hl : landOf s fk t 0xF0 with
  | fault c d => exact runUnits_fault h (hp.trans (by rw [hl]))
  | wait => exact runUnits_stall h (hp.trans (by rw [hl]))
  | absent => exact runUnits_go h (hp.trans (by rw [hl]))
  | ok w => exact runUnits_go h (hp.trans (by rw [hl]))

/-- Only the fibre that lands is changed: what pops its stack is what pops this one. -/
theorem landing_congr {a kind : Nat} {ok ok' : Fibre → Fibre} (h : s.fib fk = some x) (he : ok x = ok' x) :
    landing s fk a kind ok = landing s fk a kind ok' := by
  have hu : (s.updFib fk fun y => (ok y).goto a) = s.updFib fk fun y => (ok' y).goto a := by
    simp only [State.updFib, h, he]
  rw [landing_eq, landing_eq, hu]

/-- What the spill line's record says (R266, R395). -/
theorem logSpill_erb (hc : (s.group (fkBk fk) (fkG fk)).core < 192) (he : sget none s.host.erb (s.group (fkBk fk) (fkG fk)).core = none) :
    ∃ ad sy, ad % 128 = 0 ∧ sget none (s.logSpill fk).host.erb (s.group (fkBk fk) (fkG fk)).core =
      some ⟨true, 3, 10, 0, true, s.ctxOf (fkBk fk), ad, sy, s.tickDie ((s.group (fkBk fk) (fkG fk)).core / 48)⟩ := by
  refine ⟨(Config.openDetail s.free).toNat % Config.dramTop / 128 * 128, (Config.openDetail (s.free + 1)).toNat, Nat.mul_mod_left _ _, ?_⟩
  simp only [State.logSpill, State.logError, sget_sset_self, he, Option.getD_none, unitDie, if_pos hc]
  rfl
end

/-- Settles O17: a transfer is planned from its target, whose checks give its landing; `ret` looks at its stack, its frame and its refill first. -/
theorem transferResults : Obligations.TransferResults := by
  intro s fk x g h bk core land full
  have hland : land = landing s fk := rfl
  have hdep := depthOf_eq h.fib
  refine ⟨fun t ht => ?_, fun o ho => ?_, ?_, ?_⟩
  · intro a
    have ha : targetOf s fk t = a := by cases t <;> rfl
    have hp : ∀ kind, planTarget s (only fk) t [kind] = landPlan a (landOf s fk a kind) := fun _ => ha ▸ planTarget_ready ht
    refine ⟨?_, ?_, ?_⟩
    · exact runUnits_landing h (hp _)
    · intro hl
      exact runUnits_landing h ((planCall_of_lt (by omega)).trans (hp _))
    · intro hl ha hf
      refine congrArg Host.Outcome.next (runUnits_fault h ?_)
      dsimp only
      rw [hp]
      exact planCall_full (by omega) ha hf
  · intro a
    have hp := fun kind => planInd_ready (kind := kind) ho
    refine ⟨?_, ?_, ?_⟩
    · exact runUnits_landing h (hp _)
    · intro hl
      exact runUnits_landing h ((planCall_of_lt (by omega)).trans (hp _))
    · intro hl ha hf
      refine congrArg Host.Outcome.next (runUnits_fault h ?_)
      dsimp only
      rw [hp]
      exact planCall_full (by omega) ha hf
  · intro hs
    have hb : ¬ s.badRet fk = true := by
      rw [badRet_iff h.fib]
      simp [Fibre.badRefill, Fibre.refills, hs]
    rw [exec_ret h, if_neg hb]
    refine congrArg Host.Outcome.next (runUnits_fault h ?_)
    simp only [retPlan, only_rep, h.fib, hs]
  · intro t l hs inFrame
    have hbad := badRefill_iff hs
    refine ⟨fun hin => ?_, ?_⟩
    · rw [exec_ret h, if_neg (fun hb => ((badRet_iff h.fib).1 hb).1 hin)]
      exact congrArg Host.Outcome.next (runUnits_fault h (retPlan_atFloor h.fib hs hin))
    intro lost
    refine ⟨fun hin hlost => ⟨?_, fun hc he => ?_⟩, fun hin hlost => ?_⟩
    · rw [exec_ret h, if_pos ((badRet_iff h.fib).2 ⟨hin, hbad.2 hlost⟩)]
      exact congrArg Host.Outcome.next (runUnits_fault (issues_logSpill h) (retPlan_lost h.fib hs hin (hbad.2 hlost)))
    · exact logSpill_erb hc he
    · have hb : ¬ x.badRefill = true := fun hb => hlost (hbad.1 hb)
      rw [exec_ret h, if_neg (fun hb' => hb ((badRet_iff h.fib).1 hb').2), ret_landing h hs hin hb]
      exact landing_congr h.fib (by simp only [popRet, hs, List.tail_cons, List.length_cons, Nat.add_sub_cancel])

end Sys2Proof.Proofs
end

section
/-!
PROOFS. Faults, operand checks and headers (R16, R31, R32, R34, R35, R63, R118, R318, R332 to R334).
-/
namespace Sys2Proof.Proofs
open Sys2Proof Sys2Proof.Machine Sys2Proof.Laws

/-! ### What taking a fault does (R318, R320, R332 to R334) -/

theorem mem_of_sget {β : Type} {d v : β} {m : FMap β} {a : Nat} (h : sget d m a = v) (hv : v ≠ d) : (a, v) ∈ m := by
  induction m with
  | nil => exact absurd h.symm hv
  | cons p m ih =>
    by_cases ha : a = p.1
    · rw [sget, if_pos ha] at h
      rw [ha, ← h]
      exact List.mem_cons_self
    · rw [sget, if_neg ha] at h
      exact List.mem_cons_of_mem _ (ih h)

theorem mem_blockFibs {s : State} {fk : Nat} {x : Fibre} (h : s.fib fk = some x) : fk ∈ s.blockFibs (fkBk fk) :=
  List.mem_map.2 ⟨(fk, some x), List.mem_filter.2 ⟨mem_of_sget h (by simp), by simp⟩, rfl⟩

/-- A block with a fibre that can issue is not entering a frame (R320). -/
theorem entering_of_ready {s : State} {fk : Nat} {x : Fibre} (h : s.fib fk = some x) (hr : x.stat = .ready) : s.entering (fkBk fk) = false := by
  refine Bool.and_eq_false_iff.2 (.inr (List.all_eq_false.2 ⟨fk, mem_blockFibs h, ?_⟩))
  simp [h, hr]

section
variable {s : State} {bk : Nat} {b : Block} (hb : s.block? bk = some b)
include hb

theorem block?_updBlock_self {f : Block → Block} (hf : ∀ b, (f b).uid = b.uid) : (s.updBlock bk f).block? bk = some (f b) := by
  rw [block?_updBlock _ _ _ _ hf, if_pos rfl, hb, Option.map_some]

theorem takeFault_running (hr : b.running = true) (he : s.entering bk = false) (r : FaultRec) : s.takeFault bk r = s.raiseFault bk r := by
  obtain ⟨hst, hm⟩ : b.st = .resident ∧ b.mode = .run := by simpa [Block.running] using hr
  have hdeaf : s.deaf bk = false := by simp [State.deaf, hb, hst, hm, he]
  simp [State.takeFault, hb, hdeaf, hst, hm]

theorem takeFault_frameless (hr : b.running = true) (he : s.entering bk = false) (hf : b.frames = []) (r : FaultRec) :
    s.takeFault bk r = (s.named r).2.startFreeze bk (s.named r).1 := by
  rw [takeFault_running hb hr he]
  simp [State.raiseFault, hb, hf]

theorem takeFault_framed (hr : b.running = true) (he : s.entering bk = false) {f : Frame} {fs : List Frame} (hf : b.frames = f :: fs)
    (r : FaultRec) : s.takeFault bk r = (s.named r).2.failFrame bk (fs.length + 1) (s.named r).1 := by
  rw [takeFault_running hb hr he]
  simp [State.raiseFault, hb, hf]

theorem takeFault_deaf (h : s.deaf bk = true) (r : FaultRec) : s.takeFault bk r = s := by
  simp [State.takeFault, hb, h]

theorem takeFault_saving (hst : b.st = .resident) (hm : b.mode = .saving) (he : s.entering bk = false) (r : FaultRec) :
    s.takeFault bk r = s.pend bk r (b.frameKey r.grp) := by
  have hdeaf : s.deaf bk = false := by simp [State.deaf, hb, hst, hm, he]
  simp [State.takeFault, hb, hdeaf, hst, hm]

/-- The block as it stops to freeze (R334). -/
theorem startFreeze_block? (r : FaultRec) :
    (s.startFreeze bk r).block? bk = some { b with mode := .freezing, fault := some r, stopAt := s.clockOf bk, reports := [] } := by
  simp only [State.startFreeze, hb]
  exact block?_updBlock_self hb fun _ => rfl

theorem startFreeze_launch? (r : FaultRec) {l : Launch} (hl : s.launch? b.lid = some l) :
    (s.startFreeze bk r).launch? b.lid = some (l.recordFault r b) := by
  have hlid : ∀ l : Launch, (l.recordFault r b).lid = l.lid := fun l => by unfold Launch.recordFault; split <;> rfl
  have hk : ∀ u : State, u.launches = s.launches → (u.updLaunch b.lid (Launch.recordFault r b)).launch? b.lid = some (l.recordFault r b) := by
    intro u hu
    have h1 : u.launch? b.lid = some l := by rw [State.launch?, hu]; exact hl
    exact (find?_updFirst _ _ _ fun l => by rw [hlid]).trans (by rw [← State.launch?, h1]; rfl)
  simp only [State.startFreeze, hb]
  exact hk _ rfl

/-- The innermost frame fails: its conversation is told, its limit stops (R318, R320, R329). -/
theorem failFrame_votes {f : Frame} {fs : List Frame} (hf : b.frames = f :: fs) (r : FaultRec) :
    (s.failFrame bk (fs.length + 1) r).hub.votes = s.hub.votes ++ (match f.conv with | some c => [(bk, c.2, Vote.fail)] | none => []) := by
  have hn : b.frames.length - (fs.length + 1) = 0 := by rw [hf, List.length_cons, Nat.sub_self]
  simp only [State.failFrame, hb, hn]
  show s.hub.votes ++ failVotes bk .fail (b.frames.take 1) = _
  rw [hf, List.take_succ_cons, List.take_zero, failVotes, List.filterMap_cons, List.filterMap_nil]
  cases f.conv <;> rfl

theorem failFrame_block? {f : Frame} {fs : List Frame} (hf : b.frames = f :: fs) (r : FaultRec) :
    (s.failFrame bk (fs.length + 1) r).block? bk = some { b with
      mode := .failing, failDepth := fs.length + 1, stopAt := s.clockOf bk, reports := []
      frames := { f with cause := r.code, fpc := r.pc, fdet := r.det, floc := r.grp * 64 + r.lane, sil := none, dead := none } :: fs } := by
  have hn : b.frames.length - (fs.length + 1) = 0 := by rw [hf, List.length_cons, Nat.sub_self]
  simp only [State.failFrame, hb, hn]
  rw [block?_updBlock_self (b := b)]
  · rw [hf]
    rfl
  · exact hb
  · exact fun _ => rfl

end

theorem named_of_det {s : State} {r : FaultRec} (h : r.det < 2 ^ 64) : s.named r = (r, s) := if_neg (Nat.ne_of_lt h)

theorem recordFault_first {l : Launch} (h : l.fault = none) (r : FaultRec) (b : Block) :
    l.recordFault r b = { l with fault := some r, fblock := b.idx, ftag := b.tag } := by
  simp [Launch.recordFault, Launch.takes, h]

theorem recordFault_later {l : Launch} {b : Block} (h : l.fault ≠ none) (ht : b.tag = none ∨ l.ftag = none) (r : FaultRec) :
    l.recordFault r b = l := by
  have hn : l.fault.isNone = false := by rwa [Option.isNone_eq_false_iff, Option.isSome_iff_ne_none]
  obtain ht | ht := ht
  · cases hl : l.ftag <;> simp [Launch.recordFault, Launch.takes, hn, ht, hl]
  · simp [Launch.recordFault, Launch.takes, hn, ht]

section
variable {s : State} {bk : Nat} {b : Block} {r : FaultRec} (hb : s.block? bk = some b) (he : s.entering bk = false) (hd : r.det < 2 ^ 64)
include hb he hd

/-- Outside every frame the block stops to freeze, and its fault is the launch's when it is the first (R302, R334). -/
theorem takeFault_outside (hrun : b.running = true) (hf : b.frames = []) :
    (s.takeFault bk r).rs = s.rs ∧ (s.takeFault bk r).mem = s.mem ∧
      (s.takeFault bk r).block? bk = some { b with mode := .freezing, fault := some r, stopAt := s.clockOf bk, reports := [] } ∧
      ∀ l, s.launch? b.lid = some l →
        (l.fault = none → (s.takeFault bk r).launch? b.lid = some { l with fault := some r, fblock := b.idx, ftag := b.tag }) ∧
        (l.fault ≠ none → b.tag = none ∨ l.ftag = none → (s.takeFault bk r).launch? b.lid = some l) := by
  have hfr := takeFault_frame s bk r
  refine ⟨hfr.rs, hfr.mem, ?_, fun l hl => ?_⟩ <;> rw [takeFault_frameless hb hrun he hf, named_of_det hd]
  · exact startFreeze_block? hb r
  · rw [startFreeze_launch? hb r hl]
    exact ⟨fun h => by rw [recordFault_first h], fun h ht => by rw [recordFault_later h ht]⟩

/-- Inside a frame the innermost one fails (R318). -/
theorem takeFault_inside (hrun : b.running = true) {f : Frame} {fs : List Frame} (hf : b.frames = f :: fs) :
    (s.takeFault bk r).rs = s.rs ∧ (s.takeFault bk r).mem = s.mem ∧
      (s.takeFault bk r).hub.votes = s.hub.votes ++ (match f.conv with | some c => [(bk, c.2, Vote.fail)] | none => []) ∧
      (s.takeFault bk r).block? bk = some { b with
        mode := .failing, failDepth := fs.length + 1, stopAt := s.clockOf bk, reports := []
        frames := { f with cause := r.code, fpc := r.pc, fdet := r.det, floc := r.grp * 64 + r.lane, sil := none, dead := none } :: fs } := by
  have hfr := takeFault_frame s bk r
  refine ⟨hfr.rs, hfr.mem, ?_⟩
  rw [takeFault_framed hb hrun he hf, named_of_det hd]
  exact ⟨failFrame_votes hb hf r, failFrame_block? hb hf r⟩

/-- A block that stops to be saved keeps its fault for later (R338). -/
theorem takeFault_kept (hst : b.st = .resident) (hm : b.mode = .saving) :
    (s.takeFault bk r).block? bk = some { b with reports := b.reports ++ [(r, b.frameKey r.grp)] } := by
  rw [takeFault_saving hb hst hm he, State.pend, named_of_det hd]
  exact block?_updBlock_self hb fun _ => rfl

end

theorem deaf_of_stopped {s : State} {bk : Nat} {b : Block} (hb : s.block? bk = some b)
    (h : b.st = .frozen ∨ b.st = .retired ∨ b.mode = .failing ∨ b.mode = .replaying ∨ b.mode = .freezing) : s.deaf bk = true := by
  obtain h | h | h | h | h := h <;> simp [State.deaf, hb, h]

/-! ### Operands of the narrow two-source forms (R16, R63, R118) -/

/-- The register that a fault of an operand names: 1536 + n for uniform n. -/
def regName : Opnd → Nat
  | .v n => n
  | .s n => 1536 + n
  | .sp _ => 0

/-- A vector operand lies in the allotment (R16). -/
def Fits (s : State) (fk : Nat) (o : Opnd) : Prop := ∀ n, o = .v n → n < 1536 ∧ n < s.allot (fkBk fk) (fkG fk)

section
variable {s : State} {fk : Nat} {o : Opnd}

theorem resolve_of_not_fits (h : ¬ Fits s fk o) : resolve s fk o false false = .bad .al (regName o) := by
  unfold Fits at h
  push Not at h
  obtain ⟨n, rfl, hn⟩ := h
  show checkReg (s.allot (fkBk fk) (fkG fk)) n false false = .bad .al n
  simp only [checkReg, Bool.false_eq_true, if_false]
  rw [if_pos (by omega)]
  simp

theorem resolve_of_fits (h : Fits s fk o) : resolve s fk o false false = resOf s fk o false := by
  cases o with
  | v n =>
    obtain ⟨h1, h2⟩ := h n rfl
    show checkReg (s.allot (fkBk fk) (fkG fk)) n false false = .v n
    simp only [checkReg, Bool.false_eq_true, if_false, Bool.false_and]
    rw [if_neg (by omega)]
  | s n => rfl
  | sp x => rfl

/-- An operand in the allotment is free exactly when nothing outstanding will write it (R118). -/
theorem busyRes_of_fits (h : Fits s fk o) : busyRes s fk false (resOf s fk o false) = !free s fk o false false := by
  cases o with
  | v n =>
    obtain ⟨h1, h2⟩ := h n rfl
    simp [busyRes, resOf, regOf, free, State.laneFree, h1, h2]
  | s n => simp [busyRes, resOf, free]
  | sp x => rfl

theorem poisonRes_narrow (s : State) (fk : Nat) (o : Opnd) :
    poisonRes s fk false (resOf s fk o false) = if clean s fk o false false then none else some (regName o) := by
  cases o with
  | v n => cases h : s.vpois (fkBk fk) (fkG fk) n (fkL fk) <;> simp [poisonRes, resOf, regOf, clean, State.laneClean, regName, h]
  | s n => cases h : s.upois (fkBk fk) (fkG fk) n <;> simp [poisonRes, resOf, clean, regName, h]
  | sp x => rfl
end

/-- The plan of two narrow sources and their destination, in the order of R35. -/
theorem planOperands_narrow (s : State) (fk : Nat) (d a b : Opnd) (ty : Ty) :
    let plan := planOperands s (only fk) (some (.reg d false false ty)) [⟨a, false, false⟩, ⟨b, false, false⟩] [true, true]
    let ok := fun (o : Opnd) => free s fk o false false = true
    let pure_ := fun (o : Opnd) => clean s fk o false false = true
    (¬ Fits s fk d → plan = .fault .al (regName d)) ∧ (Fits s fk d → ¬ Fits s fk a → plan = .fault .al (regName a)) ∧
      (Fits s fk d → Fits s fk a → ¬ Fits s fk b → plan = .fault .al (regName b)) ∧
      (Fits s fk d → Fits s fk a → Fits s fk b → 
        (¬ (ok d ∧ ok a ∧ ok b) → plan = .stall) ∧
        (ok d → ok a → ok b → (¬ pure_ a → plan = .fault .pz (regName a)) ∧ (pure_ a → ¬ pure_ b → plan = .fault .pz (regName b)))) := by
  intro plan ok pure_
  have hplan : plan = planOperands s (only fk) (some (.reg d false false ty)) [⟨a, false, false⟩, ⟨b, false, false⟩] [true, true] := rfl
  simp only [planOperands, only_rep, only_mem, Dest.resolve, List.map_cons, List.map_nil] at hplan
  refine ⟨fun hd => ?_, fun hd ha => ?_, fun hd ha hb => ?_, fun hd ha hb => ?_⟩
  · rw [hplan, resolve_of_not_fits hd]
    rfl
  · rw [hplan, resolve_of_fits hd, resolve_of_not_fits ha, firstBad_resOf]
    rfl
  · rw [hplan, resolve_of_fits hd, resolve_of_fits ha, resolve_of_not_fits hb, firstBad_resOf, firstBad_resOf]
    rfl
  · rw [resolve_of_fits hd, resolve_of_fits ha, resolve_of_fits hb, firstBad_resOf, firstBad_resOf, firstBad_resOf] at hplan
    simp only [firstBad, Dest.wide, List.zip_cons_cons, List.zip_nil_right, List.any_cons, List.any_nil, Bool.or_false, busyRes_of_fits hd,
      busyRes_of_fits ha, busyRes_of_fits hb, List.findSome?_cons, List.findSome?_nil, if_true, poisonRes_narrow] at hplan
    refine ⟨fun hok => ?_, fun h1 h2 h3 => ⟨fun ha => ?_, fun ha hb => ?_⟩⟩
    · rw [hplan, if_pos]
      simp only [ok] at hok
      simp only [Bool.or_eq_true, Bool.not_eq_true']
      by_contra hc
      simp at hc
      exact hok ⟨hc.1, hc.2⟩
    · rw [hplan]
      simp_all [ok, pure_]
    · rw [hplan]
      simp_all [ok, pure_]

/-! ### The narrow two-source forms -/

/-- A fibre whose guard fails goes on to its next word (R10). -/
theorem runUnits_unguarded {α : Type} {s : State} {g : Guard} {fk : Nat} (hc : s.cur = [fk]) (hg : guardHolds s g fk = false)
    (plan : State → WUnit → Plan α) (apply : State → WUnit → α → State) : runUnits s g plan apply = s.advance fk := by
  have hs : s.curSorted = [fk] := by simp [State.curSorted, hc, sortBy]
  have hu : units g [] = [] := by cases h : g.u <;> simp [units, unitsByGroup, h]
  simp [runUnits, runPrep, hs, hg, hu, sortBy]

section
variable {s : State} {g : Guard} {fk : Nat} {x : Fibre} {d : Dest} {srcs : List Src} {need : State → Nat → List Bool}
  {op : State → Nat → List Nat → Except (FClass × Nat) (Nat × Nat)} (h : Issues s g fk x)
include h

theorem runAlu_stall (hp : planOperands s (only fk) (some d) srcs (need s fk) = .stall) : runAlu s g d srcs need op = s :=
  runUnits_stall h (by simp only [only_rep, hp])

theorem runAlu_fault {c : FClass} {det : Nat} (hp : planOperands s (only fk) (some d) srcs (need s fk) = .fault c det) :
    runAlu s g d srcs need op = s.faulted fk c det :=
  runUnits_fault h (by simp only [only_rep, hp])

end

/-- The forms that take both operands and their result at TY's width. -/
theorem exec_binTy {c : Bin → Instr} (hc : c ∈ ([.add, .sub, .min, .max, .and, .or, .xor] : List (Bin → Instr))) :
    ∃ op, ∀ f s, exec (c f) s = .next (binTy s f op) := by
  simp only [List.mem_cons, List.not_mem_nil, or_false] at hc
  obtain rfl | rfl | rfl | rfl | rfl | rfl | rfl := hc <;> exact ⟨_, fun _ _ => rfl⟩

/-- A narrow form without indirect operands. -/
theorem binTy_narrow {s : State} {f : Bin} (hw : f.ty.wide = false) (hd : f.id = false) (ha : f.ia = false) (hb : f.ib = false)
    (op : Ty → Nat → Nat → Nat × Nat) : binTy s f op = runAlu s f.g (.reg f.d false false f.ty) [⟨f.a, false, false⟩, ⟨f.b, false, false⟩] (needAll 2)
      fun _ _ xs => .ok (op f.ty (xs.getD 0 0) (xs.getD 1 0)) := by
  rw [binTy, runBin, hw, hd, ha, hb]

/-- Operand faults, the scoreboard and poison of a narrow two-source form, in their order (R16, R35, R63, R118). -/
theorem exec_narrow {s : State} {fk : Nat} {x : Fibre} {c : Bin → Instr} (hc : c ∈ ([.add, .sub, .min, .max, .and, .or, .xor] : List (Bin → Instr)))
    {f : Bin} (h : Issues s f.g fk x) (hw : f.ty.wide = false) (hid : f.id = false) (hia : f.ia = false) (hib : f.ib = false) :
    let ok := fun (o : Opnd) => free s fk o false false = true
    let pure_ := fun (o : Opnd) => clean s fk o false false = true
    let runs := exec (c f) s
    (¬ Fits s fk f.d → runs = .next (s.faulted fk .al (regName f.d))) ∧
      (Fits s fk f.d → ¬ Fits s fk f.a → runs = .next (s.faulted fk .al (regName f.a))) ∧
      (Fits s fk f.d → Fits s fk f.a → ¬ Fits s fk f.b → runs = .next (s.faulted fk .al (regName f.b))) ∧
      (Fits s fk f.d → Fits s fk f.a → Fits s fk f.b →
        (¬ (ok f.d ∧ ok f.a ∧ ok f.b) → runs = .next s) ∧
        (ok f.d → ok f.a → ok f.b → (¬ pure_ f.a → runs = .next (s.faulted fk .pz (regName f.a))) ∧
          (pure_ f.a → ¬ pure_ f.b → runs = .next (s.faulted fk .pz (regName f.b))))) := by
  obtain ⟨op, hop⟩ := exec_binTy hc
  obtain ⟨p1, p2, p3, p4⟩ := planOperands_narrow s fk f.d f.a f.b f.ty
  rw [hop, binTy_narrow hw hid hia hib]
  refine ⟨fun hd => ?_, fun hd ha => ?_, fun hd ha hb => ?_, fun hd ha hb => ⟨fun hok => ?_, fun h1 h2 h3 => ⟨fun hp => ?_, fun hp hq => ?_⟩⟩⟩ <;>
    refine congrArg Host.Outcome.next ?_
  · exact runAlu_fault h (p1 hd)
  · exact runAlu_fault h (p2 hd ha)
  · exact runAlu_fault h (p3 hd ha hb)
  · exact runAlu_stall h ((p4 hd ha hb).1 hok)
  · exact runAlu_fault h (((p4 hd ha hb).2 h1 h2 h3).1 hp)
  · exact runAlu_fault h (((p4 hd ha hb).2 h1 h2 h3).2 hp hq)

/-! ### Entering a header (R31, R32, R34, R268) -/

theorem fillIcache_rs (s : State) (bk core p : Nat) : (s.fillIcache bk core p).rs = s.rs := by
  unfold State.fillIcache
  split
  · dsimp only
    split
    · rfl
    · exact State.sense_rs _ _ _
  · rfl

theorem fillIcache_blocks (s : State) (bk core p : Nat) : (s.fillIcache bk core p).blocks = s.blocks := by
  unfold State.fillIcache
  split
  · dsimp only
    split
    · rfl
    · exact State.sense_blocks _ _ _
  · rfl

/-- Any fault of a running block outside every frame stops it to freeze, also one whose rule names no detail (R334). -/
theorem takeFault_stops {s : State} {bk : Nat} {b : Block} (hb : s.block? bk = some b) (hr : b.running = true) (hf : b.frames = [])
    (he : s.entering bk = false) (r : FaultRec) :
    ∃ c q, (s.takeFault bk r).block? bk = some c ∧ c.mode = .freezing ∧ c.fault = some q ∧ q.code = r.code ∧ q.pc = r.pc := by
  have hn : (s.named r).1.code = r.code ∧ (s.named r).1.pc = r.pc := by
    unfold State.named
    split <;> exact ⟨rfl, rfl⟩
  have hb' : (s.named r).2.block? bk = some b := by
    unfold State.named
    split <;> exact hb
  rw [takeFault_frameless hb hr he hf]
  exact ⟨_, _, startFreeze_block? hb' _, rfl, rfl, hn⟩

section
variable {s : State} {fk : Nat} {x : Fibre}

/-- A fibre at a word that it may not enter takes its fault there. -/
theorem enterOne_fault (hx : s.fib fk = some x) {c : FClass} {d : Nat}
    (hl : s.land (fkBk fk) (s.group (fkBk fk) (fkG fk)).core x.pc (kindsOf x.left) = .fault c d) : s.enterOne fk = s.fetchFault fk c x.pc d := by
  unfold State.enterOne
  simp only [hx, hl]
  rfl

/-- A fibre at a header of a kind that it may enter, without a reconvergence target. -/
theorem enterOne_ok (hx : s.fib fk = some x) {w : Nat}
    (hl : s.land (fkBk fk) (s.group (fkBk fk) (fkG fk)).core x.pc (kindsOf x.left) = .ok w) (hr : hdRecon w x.pc = none) :
    s.enterOne fk =
      let t := s.fillIcache (fkBk fk) (s.group (fkBk fk) (fkG fk)).core x.pc
      if 1536 < hdLivev w ∨ 96 < hdLives w ∨ bits w 0 10 ≠ 0 then t.openFault (fkBk fk) fk .hd x.pc
      else if s.allot (fkBk fk) (fkG fk) < hdLivev w then s.fetchFault fk .al x.pc (hdLivev w - 1)
      else t.putFib fk { x with pc := x.pc + 8, left := hdLen w, stat := .ready, ahead := [], rcv := none, livev := hdLivev w, lives := hdLives w } := by
  have ha : (s.fillIcache (fkBk fk) (s.group (fkBk fk) (fkG fk)).core x.pc).allot (fkBk fk) (fkG fk) = s.allot (fkBk fk) (fkG fk) := by
    simp only [State.allot, State.group, State.block?, fillIcache_blocks]
  unfold State.enterOne
  simp only [hx, hl, hr, Option.any_none, Bool.or_false, Bool.false_eq_true, if_false, ha, Bool.or_eq_true, decide_eq_true_eq, or_assoc, gt_iff_lt]
  rfl

/-- The kind of a 64-bit header word is its opcode. -/
theorem hdKind_eq {w : Nat} (h : w < 2 ^ 64) : hdKind w = w / 2 ^ 56 := by
  unfold hdKind
  omega

end

/-- The order of the checks at a header (R31, R32, R34). -/
theorem enterOne_results {s : State} {fk : Nat} {x : Fibre} {b : Block} {w : Nat} (hc : Calm s fk b) (hx : s.fib fk = some x) (hr : x.stat = .ready)
    (hpc : x.pc < 2 ^ 64) :
    let t := s.enterOne fk
    let fails := fun (code det : Nat) => ∃ c, t.block? (fkBk fk) = some c ∧ c.mode = .freezing ∧ c.fault = some ⟨code, x.pc, det, fkG fk, fkL fk⟩
    (x.pc % 8 ≠ 0 → fails 2 x.pc) ∧
     (x.pc % 8 = 0 → s.fetchWord (fkBk fk) (s.group (fkBk fk) (fkG fk)).core x.pc = .word w → w < 2 ^ 64 →
       (w / 2 ^ 56 ∉ kindsOf x.left → fails 2 x.pc) ∧
       (w / 2 ^ 56 ∈ kindsOf x.left → w / 2 ^ 12 % 2 ^ 20 = 0 →
         (1536 < hdLivev w ∨ 96 < hdLives w ∨ w % 2 ^ 10 ≠ 0 →
           ∃ c r, t.block? (fkBk fk) = some c ∧ c.mode = .freezing ∧ c.fault = some r ∧ r.code = 2 ∧ r.pc = x.pc) ∧
         (¬ (1536 < hdLivev w ∨ 96 < hdLives w ∨ w % 2 ^ 10 ≠ 0) → s.allot (fkBk fk) (fkG fk) < hdLivev w → fails 3 (hdLivev w - 1)) ∧
         (¬ (1536 < hdLivev w ∨ 96 < hdLives w ∨ w % 2 ^ 10 ≠ 0) → hdLivev w ≤ s.allot (fkBk fk) (fkG fk) →
           t.block? (fkBk fk) = some b ∧ t.fib fk = some { x with
             pc := x.pc + 8, left := w / 2 ^ 50 % 2 ^ 6 + 1, ahead := [], rcv := none, livev := hdLivev w, lives := hdLives w }))) := by
  have he := entering_of_ready hx hr
  have hfault : ∀ (c : FClass) (d : Nat), d < 2 ^ 64 → s.enterOne fk = s.fetchFault fk c x.pc d →
      ∃ q, (s.enterOne fk).block? (fkBk fk) = some q ∧ q.mode = .freezing ∧ q.fault = some ⟨c.code, x.pc, d, fkG fk, fkL fk⟩ := fun c d hd h =>
    ⟨_, by rw [h]; exact takeFault_freezes hc.block hc.runs hc.frames he (Nat.ne_of_lt hd), rfl, rfl⟩
  refine ⟨fun ha => hfault .hd _ hpc (enterOne_fault hx (if_pos ha)), fun ha hw hlt => ?_⟩
  have hland : s.land (fkBk fk) (s.group (fkBk fk) (fkG fk)).core x.pc (kindsOf x.left) =
      if (kindsOf x.left).contains (w / 2 ^ 56) then .ok w else .fault .hd x.pc := by
    rw [State.land, if_neg (by simp [ha]), hw, ← hdKind_eq hlt]
  refine ⟨fun hk => hfault .hd _ hpc (enterOne_fault hx ?_), fun hk hrc => ?_⟩
  · rw [hland, if_neg (by rwa [List.contains_iff_mem])]
  · rw [if_pos (by rwa [List.contains_iff_mem])] at hland
    have hok := enterOne_ok hx hland (if_pos hrc)
    have hlow : bits w 0 10 = w % 2 ^ 10 := by rw [bits, Nat.pow_zero, Nat.div_one]
    rw [hlow] at hok
    refine ⟨fun hbad => ?_, fun hgood hal => ?_, fun hgood hal => ?_⟩
    · rw [if_pos hbad] at hok
      rw [hok]
      refine takeFault_stops (b := b) ?_ hc.runs hc.frames (entering_of_ready (x := x) ?_ hr) _
      · rw [State.block?, fillIcache_blocks]; exact hc.block
      · rw [State.fib, fillIcache_rs]; exact hx
    · rw [if_neg hgood, if_pos hal] at hok
      exact hfault .al _ (by simp only [hdLivev, bits]; omega) hok
    · rw [if_neg hgood, if_neg (by omega)] at hok
      rw [hok]
      constructor
      · rw [State.block?, State.putFib_blocks, fillIcache_blocks]; exact hc.block
      · rw [fib_putFib, if_pos rfl, ← hr]; rfl

/-- Settles O60: the four ways of taking a fault, the operand checks of the narrow forms, and the checks at a header. -/
theorem faultAndHeaderResults : Obligations.FaultAndHeaderResults := by
  refine ⟨fun s fk x b hx hr hb => ⟨fun r hd => ?_, fun c hc f hcur hw hid hia hib => ?_⟩, fun s fk x b w hc hx hr => ?_⟩
  · have he := entering_of_ready hx hr
    exact ⟨takeFault_outside hb he hd, fun f fs hrun hf => takeFault_inside hb he hd hrun hf, fun h => takeFault_deaf hb (deaf_of_stopped hb h) r,
      takeFault_kept hb he hd⟩
  · intro fits ok pure_ name runs
    refine ⟨fun hg => ?_, fun hg => ?_⟩
    · obtain ⟨op, hop⟩ := exec_binTy hc
      rw [show runs = _ from hop f s, binTy_narrow hw hid hia hib, runAlu, runUnits_unguarded hcur (by simpa [guardHolds, hx] using hg)]
    · have hn : name = regName := by funext o; cases o <;> rfl
      rw [hn]
      exact exec_narrow hc ⟨hcur, hx, hg⟩ hw hid hia hib
  · intro bk t kinds fails hpc
    have hk : kinds = kindsOf x.left := rfl
    rw [hk]
    exact enterOne_results hc hx hr hpc

end Sys2Proof.Proofs
end

section
/-!
PROOFS. The step that issues a bundle (R35, R261, R277, R332, R333): which bundle may issue, what its issue does by the words its fibres find, and what
fetching leaves alone.
-/
namespace Sys2Proof.Proofs
open Sys2Proof Sys2Proof.Machine Sys2Proof.Laws

/-! ### The state in which a word acts (R277) -/

/-- What fetching may leave alone: registers, blocks and the bytes of memory. -/
structure FetchFrame (s t : State) : Prop where
  vregs : t.rs.vregs = s.rs.vregs
  uregs : t.rs.uregs = s.rs.uregs
  blocks : t.blocks = s.blocks
  dram : t.mem.dram = s.mem.dram
  home : t.mem.home = s.mem.home

theorem FetchFrame.refl (s : State) : FetchFrame s s := ⟨rfl, rfl, rfl, rfl, rfl⟩

theorem FetchFrame.trans {s t u : State} (h : FetchFrame s t) (k : FetchFrame t u) : FetchFrame s u :=
  ⟨k.vregs.trans h.vregs, k.uregs.trans h.uregs, k.blocks.trans h.blocks, k.dram.trans h.dram, k.home.trans h.home⟩

theorem FetchFrame.foldl {α : Type} {f : State → α → State} (h : ∀ s a, FetchFrame s (f s a)) (l : List α) (s : State) :
    FetchFrame s (l.foldl f s) := by
  induction l generalizing s with
  | nil => exact .refl s
  | cons a l ih => exact (h s a).trans (ih _)

theorem putFib_fetch (s : State) (fk : Nat) (x : Fibre) : FetchFrame s (s.putFib fk x) := ⟨rfl, rfl, rfl, rfl, rfl⟩

theorem updFib_fetch (s : State) (fk : Nat) (f : Fibre → Fibre) : FetchFrame s (s.updFib fk f) := by
  unfold State.updFib
  split
  · exact putFib_fetch _ _ _
  · exact .refl s

theorem fillIcache_fetch (s : State) (bk core p : Nat) : FetchFrame s (s.fillIcache bk core p) := by
  refine ⟨by rw [fillIcache_rs], by rw [fillIcache_rs], fillIcache_blocks s bk core p, ?_, ?_⟩ <;>
  · unfold State.fillIcache
    split
    · dsimp only
      split
      · rfl
      · simp only [State.sense_mem]
    · rfl

theorem fillFor_fetch (s : State) (fk : Nat) (f : Fibre) (p : Nat) : FetchFrame s (s.fillFor fk f p) := by
  unfold State.fillFor
  split
  · exact .refl s
  · exact fillIcache_fetch _ _ _ _

theorem lookAhead_fetch (s : State) (fk : Nat) : FetchFrame s (s.lookAhead fk) := by
  unfold State.lookAhead
  split
  · exact .refl s
  · dsimp only
    split
    · exact .foldl (fun _ _ => fillFor_fetch _ _ _ _) _ _
    · exact (FetchFrame.foldl (fun _ _ => fillFor_fetch _ _ _ _) _ _).trans (putFib_fetch _ _ _)

theorem noteIssue_fetch (s : State) (k : Nat) (fibs : List Nat) : FetchFrame s (s.noteIssue k fibs) := by
  unfold State.noteIssue
  refine FetchFrame.trans ?_ (.foldl (fun _ _ => updFib_fetch _ _ _) _ _)
  exact ⟨rfl, rfl, rfl, rfl, rfl⟩

theorem atIssue_fetch (s : State) (k pc : Nat) (cur : List Nat) : FetchFrame s (s.atIssue k pc cur) := by
  have h1 : FetchFrame s (cur.foldl State.lookAhead (s.noteIssue k cur)) :=
    (noteIssue_fetch s k cur).trans (.foldl (fun _ _ => lookAhead_fetch _ _) _ _)
  unfold State.atIssue
  refine h1.trans ?_
  dsimp only
  cases cur with
  | nil => exact ⟨rfl, rfl, rfl, rfl, rfl⟩
  | cons fk fks =>
    dsimp only
    split
    · exact (fillFor_fetch _ _ _ _).trans ⟨rfl, rfl, rfl, rfl, rfl⟩
    · exact ⟨rfl, rfl, rfl, rfl, rfl⟩

/-! ### Which bundle may issue (R261, R332, R333) -/

section
variable {u : State} {k : Nat} {b : Bundle}

theorem unheld_iff : u.unheld b = true ↔ b.hold = none ∧ ∀ x ∈ b.fibs, u.reported x = false := by
  simp [State.unheld]

theorem mayIssue_false (h : b.hold ≠ none ∨ (∃ x ∈ b.fibs, u.reported x = true) ∨ (u.seatOf b).1 < u.turn) : u.mayIssue k b = false := by
  have hm : u.mayIssue k b = true → u.unheld b = true ∧ u.turn ≤ (u.seatOf b).1 := by
    intro hm
    simp only [State.mayIssue, Bool.and_eq_true, decide_eq_true_eq] at hm
    exact hm.1
  by_contra hc
  obtain ⟨hu, ht⟩ := hm (by simpa using hc)
  obtain ⟨hh, hr⟩ := unheld_iff.1 hu
  obtain h | ⟨x, hx, h⟩ | h := h
  · exact h hh
  · simp [hr x hx] at h
  · omega

theorem mayIssue_true (hh : b.hold = none) (hr : ∀ x ∈ b.fibs, u.reported x = false) (ht : u.turn ≤ (u.seatOf b).1)
    (hb : ∀ j x, u.bundles[j]? = some x → j ≠ k → j ∉ u.ch.late → u.seatOf x = u.seatOf b → u.bundleRank b ≤ u.bundleRank x) :
    u.mayIssue k b = true := by
  simp only [State.mayIssue, Bool.and_eq_true, decide_eq_true_eq, List.all_eq_true]
  refine ⟨⟨unheld_iff.2 ⟨hh, hr⟩, ht⟩, fun j _ => ?_⟩
  cases hj : u.bundles[j]? with
  | none => simp
  | some x =>
    by_cases hk : j = k
    · simp [hk]
    · by_cases hl : j ∈ u.ch.late
      · simp [hl]
      · by_cases hs : u.seatOf x = u.seatOf b
        · have := hb j x hj hk hl hs
          simp [this]
        · simp [hs]
end

/-! ### What an issue does -/

theorem heldWord_none {u : State} {x : Nat} (h : ∀ w, u.wordAt x ≠ .word w) : u.heldWord x = none := by
  unfold State.heldWord
  split
  · next w hw => exact absurd hw (h w)
  · rfl

section
variable {u : State} {k : Nat} {b : Bundle} (hb : u.bundles[k]? = some b)
include hb

theorem issue_waits (h : u.mayIssue k b = false) : issue k u = .next u := by
  unfold issue
  rw [hb]
  dsimp only
  split
  · rfl
  · simp [h]

variable {f : Fibre} (hf : u.fib (b.fibs.headD 0) = some f) (hm : u.mayIssue k b = true)
include hf hm

theorem issue_eq : issue k u =
    if f.atHeader then .next ((sortBy id b.fibs).foldl State.enterOne (u.noteIssue k b.fibs))
    else match b.fibs.findSome? u.heldWord with
      | none => .next ((sortBy id b.fibs).foldl (fun t x => t.fetchOne x f.pc) u)
      | some w => onNext (fun t => t.watch (u.atIssue k f.pc (b.fibs.filter fun x => u.wordAt x == .word w)) k)
          (execWord w (u.atIssue k f.pc (b.fibs.filter fun x => u.wordAt x == .word w))) := by
  unfold issue
  rw [hb]
  dsimp only
  rw [hf]
  dsimp only
  rw [hm]
  rfl

theorem issue_enters (ha : f.atHeader = true) : issue k u = .next ((sortBy id b.fibs).foldl State.enterOne (u.noteIssue k b.fibs)) := by
  rw [issue_eq hb hf hm, if_pos ha]

theorem issue_wordless (ha : f.atHeader = false) (hn : ∀ x ∈ b.fibs, ∀ w, u.wordAt x ≠ .word w) :
    issue k u = .next ((sortBy id b.fibs).foldl (fun t x => t.fetchOne x f.pc) u) := by
  have hw : b.fibs.findSome? u.heldWord = none := List.findSome?_eq_none_iff.2 fun x hx => heldWord_none (hn x hx)
  rw [issue_eq hb hf hm, if_neg (by simp [ha]), hw]

theorem issue_word (ha : f.atHeader = false) {first rest : List Nat} {x w : Nat} (hx : b.fibs = first ++ x :: rest)
    (hn : ∀ y ∈ first, ∀ z, u.wordAt y ≠ .word z) (hw : u.wordAt x = .word w) :
    issue k u = onNext (fun t => t.watch (u.atIssue k f.pc (b.fibs.filter fun x => u.wordAt x == .word w)) k)
      (execWord w (u.atIssue k f.pc (b.fibs.filter fun x => u.wordAt x == .word w))) := by
  have hfirst : first.findSome? u.heldWord = none := List.findSome?_eq_none_iff.2 fun y hy => heldWord_none (hn y hy)
  have hs : b.fibs.findSome? u.heldWord = some w := by
    rw [hx, List.findSome?_append, hfirst, List.findSome?_cons, State.heldWord, hw]
    rfl
  rw [issue_eq hb hf hm, if_neg (by simp [ha]), hs]

end

theorem onNext_onNext (f g : State → State) (o : Host.Outcome State Fault Refusal) : onNext f (onNext g o) = onNext (fun t => f (g t)) o := by
  cases o <;> rfl

theorem wordAt_eq {u : State} {x : Nat} {f : Fibre} (h : u.fib x = some f) : u.wordAt x = u.wordFor x f f.pc := by
  rw [State.wordAt, h]

/-- A step does what the head of the agenda names. -/
theorem step_entry {s : State} {e : Entry} {es : List Entry} (h : s.agenda = e :: es) :
    step s = onNext State.finish (execAct e.act (({ s with agenda := es } : State).start e)) := by
  rw [step, h]

/-- Settles O57: the agenda's head is run; what a bundle's issue does is read off its fibres' words. -/
theorem stepRunsTheWord : Obligations.StepRunsTheWord := by
  intro s e es hag u
  have hstep := step_entry hag
  refine ⟨fun hm => ?_, fun i hi => by rw [hstep, hi]; rfl, fun k b hk hb => ?_⟩
  · simp only [u, State.start, hm, List.foldl_nil]
    exact ⟨trivial, trivial, trivial, trivial, trivial, trivial, trivial, trivial⟩
  · intro fk
    have hissue : step s = onNext State.finish (issue k u) := by rw [hstep, hk]; rfl
    refine ⟨fun h => by rw [hissue, issue_waits hb h]; rfl, mayIssue_false, fun hh hr ht ho hm => ?_, fun f hf hm => ⟨fun ha => ?_, fun ha => ?_⟩⟩
    · have hlate : u.ch.late = e.late := by simp only [u, State.start, hm, List.foldl_nil]
      exact mayIssue_true hh hr ht (by rwa [hlate])
    · rw [hissue, issue_enters hb hf hm ha]
      rfl
    · refine ⟨fun hah => ?_, fun hn => by rw [hissue, issue_wordless hb hf hm ha hn]; rfl, fun t x => ?_, ?_⟩
      · rw [wordAt_eq hf, State.wordFor, hah]
        rfl
      · exact ⟨fun h => by rw [State.fetchOne, h], fun h => by rw [State.fetchOne, h], fun fc d h => by rw [State.fetchOne, h]⟩
      · intro w first rest x hx hn hw cur v flt
        have hword : step s = onNext State.finish (onNext (fun t => t.watch v k) (execWord w v)) := by
          rw [hissue, issue_word hb hf hm ha hx hn hw]
        rw [onNext_onNext] at hword
        have hfr := atIssue_fetch u k f.pc cur
        refine ⟨rfl, rfl, hfr.vregs, hfr.uregs, hfr.blocks, hfr.dram, hfr.home, fun i hi => ?_, fun hi => ?_, fun hi => ?_⟩
        · exact hword.trans (by rw [execWord, hi])
        · exact hword.trans (by rw [execWord, hi]; rfl)
        · exact hword.trans (by rw [execWord, hi]; rfl)

end Sys2Proof.Proofs
end

section
/-!
PROOFS. Reset (R65, R280, R336, R343, R346, R378 to R380): no bundle is formed and every sparse store is empty.
-/
namespace Sys2Proof.Proofs
open Sys2Proof Sys2Proof.Machine Sys2Proof.Laws

theorem reset_bundlesOk : State.reset.bundlesOk := ⟨by simp [State.reset], by simp [State.reset]⟩

/-- Settles O59: an empty store reads as its default everywhere. -/
theorem resetValues : Obligations.ResetValues :=
  ⟨reset_bundlesOk, rfl, rfl, rfl, rfl, rfl, fun _ => rfl, fun _ => ⟨rfl, rfl⟩, fun _ => ⟨rfl, fun _ => ⟨rfl, rfl, rfl, rfl⟩⟩, rfl, rfl, rfl, rfl,
    fun _ => rfl, fun _ _ _ _ => rfl, fun _ _ _ => rfl, rfl, rfl, fun _ => ⟨rfl, rfl⟩⟩

end Sys2Proof.Proofs
end

section
/-!
PROOFS. The issue of stores and of the line instructions (R71, R73, R77 to R80, R90, R115, R234, R278): one lemma says what a store does with the answer of its
check, whatever its space, and one what line maintenance does.
-/
namespace Sys2Proof.Proofs
open Sys2Proof Sys2Proof.Machine Sys2Proof.Laws

/-! ### What issuing leaves of the operations -/

/-- The state with other operations under way. -/
def withOps (s : State) (l : List Op) : State := { s with ops := l }

theorem addLane_eq (s : State) (id : Nat) (x : Lane) : s.addLane id x = withOps s (s.addLane id x).ops := rfl

theorem settleFin_idem (o : Op) : o.settleFin.settleFin = o.settleFin := by
  unfold Op.settleFin
  by_cases h : (o.lanes.all fun x => x.st.isDone) = true <;> simp [h]

theorem map_updFirst {α β : Type} {p : α → Bool} {f : α → α} {g : α → β} (h : ∀ x, g (f x) = g x) (l : List α) :
    (updFirst p f l).map g = l.map g := by
  induction l with
  | nil => rfl
  | cons x xs ih =>
    unfold updFirst
    split
    · simp [h]
    · simp [ih]

/-- Settling one operation before all are settled makes no difference. -/
theorem settleAll_updOp (s : State) (id : Nat) : (s.updOp id Op.settleFin).settleAll = s.settleAll := by
  unfold State.settleAll State.updOp
  rw [map_updFirst settleFin_idem]

theorem advance_updOp (s : State) (id fk : Nat) (f : Op → Op) : (s.updOp id f).advance fk = (s.advance fk).updOp id f := by
  unfold State.advance State.updFib
  rw [show (s.updOp id f).fib fk = s.fib fk from rfl]
  cases s.fib fk <;> rfl

theorem readTgt_withOps (s : State) (l : List Op) (t : Tgt) (n : Nat) : ((withOps s l).readTgt t n).1 = (s.readTgt t n).1 := by
  cases t with
  | mem pa mt => simp only [State.readTgt]; split <;> rfl
  | _ => rfl

theorem viewAt_withOps (s : State) (l : List Op) (fk p n : Nat) : (withOps s l).viewAt fk p n = s.viewAt fk p n := by
  have hc : (withOps s l).check ((withOps s l).ctxOf (fkBk fk)) p n 1 .any false = s.check (s.ctxOf (fkBk fk)) p n 1 .any false := rfl
  simp only [State.viewAt, hc]
  cases s.check (s.ctxOf (fkBk fk)) p n 1 .any false with
  | ok t =>
    have h := readTgt_withOps { s with mem := (s.snapOf (fkBk fk)).getD s.mem } l t n
    exact congrArg (fun bs => some ((s.overTask (fkBk fk) fk s.seq p (t.key.toList ++ [(1, p % 2 ^ 56)]) (bs.map fun b => (b, false))).map (·.1))) h
  | _ => rfl

theorem stageAt_withOps (s : State) (l : List Op) (pc fk p n data mask scope pol : Nat) (red : Option (Nat × Ty)) :
    (withOps s l).stageAt pc fk p n data mask scope pol red = withOps (s.stageAt pc fk p n data mask scope pol red) l := by
  unfold State.stageAt
  rw [viewAt_withOps]
  simp only [apply_ite fun t => withOps t l]
  rfl

theorem stageAt_ops (s : State) (pc fk p n data mask scope pol : Nat) (red : Option (Nat × Ty)) :
    (s.stageAt pc fk p n data mask scope pol red).ops = s.ops :=
  (congrArg State.ops (stageAt_withOps s s.ops pc fk p n data mask scope pol red) :)

theorem stageAt_addLane (s : State) (id : Nat) (x : Lane) (pc fk p n data mask scope pol : Nat) (red : Option (Nat × Ty)) :
    (s.stageAt pc fk p n data mask scope pol red).addLane id x = (s.addLane id x).stageAt pc fk p n data mask scope pol red := by
  rw [addLane_eq s, stageAt_withOps, addLane_eq]
  unfold State.addLane State.updOp
  simp only [stageAt_ops]

theorem touch_withOps (s : State) (l : List Op) (c : Nat) (t : Tgt) : (withOps s l).touch c t = withOps (s.touch c t) l := by
  refine (touch_open s c s.seq l t).trans ?_
  conv_lhs => rw [← touch_seq s c t]
  rfl

theorem touch_addLane (s : State) (c id : Nat) (t : Tgt) (x : Lane) : (s.touch c t).addLane id x = (s.addLane id x).touch c t := by
  rw [addLane_eq s, touch_withOps, addLane_eq]
  unfold State.addLane State.updOp
  simp only [touch_ops]

/-! ### A store of one fibre -/

/-- A store whose target is present opens its operation and goes on (R77). -/
def storeOpens (s : State) (fk : Nat) (i : MemI) (p : Nat) (t : Tgt) (v mask : Nat) : State :=
  ((s.touch (s.ctxOf (fkBk fk)) t).issued fk i (laneOf fk p t .pending v mask)).advance fk

/-- A store on a page that is not present takes a side-log entry and goes on, or parks when its core has none (R73). -/
def storeLogs (s : State) (fk : Nat) (i : MemI) (p q : Nat) (t : Tgt) (v mask : Nat) : State :=
  if s.sideUsed (s.group (fkBk fk) (fkG fk)).core < Config.sideLogEntries then
    (({ s.issued fk i (laneOf fk p t (.side (s.seq + 1)) v mask) with seq := s.seq + 2 } : State).request (s.ctxOf (fkBk fk)) q).advance fk
  else (s.issued fk i (laneOf fk p t .sideFull v mask)).setStat fk .sideFull

/-- The region line of an `st.t` is made present before its bytes are staged (R71). -/
def stageLine (k : OpKind) (c p : Nat) (s : State) : State :=
  match s.regionT c p with
  | some (j, r) => if k = .stt then s.touch c (.region j (p - r.tbase)) else s
  | none => s

theorem stageLine_of_ne {k : OpKind} (hk : k ≠ .stt) (c p : Nat) (s : State) : stageLine k c p s = s := by
  unfold stageLine
  split
  · exact if_neg hk
  · rfl

/-- The global pointer at which a store is staged: that which a Tureen address mirrors (R71). -/
def stagePtr (s : State) (k : OpKind) (c p : Nat) : Nat := if k = .stt then s.mirror c p else p

/-- A staged store is complete when it is in the stage buffer (R71, R234). -/
def storeStages (s : State) (fk : Nat) (i : MemI) (p v mask : Nat) : State :=
  let c := s.ctxOf (fkBk fk)
  ((stageLine i.kind c p (s.issued fk i (laneOf fk p .none .done v mask))).stageAt s.ipc fk (stagePtr s i.kind c p) i.n v mask i.scope i.pol none).advance fk

/-- What a store does with the result of its check. -/
def storeGives (s : State) (fk : Nat) (i : MemI) (p v mask : Nat) : Chk → State
  | .ok t => storeOpens s fk i p t v mask
  | .absent t => storeLogs s fk i p (s.globalPtr i.kind.tureen t p) t v mask
  | .staged => storeStages s fk i p v mask
  | .fault c d => s.faulted fk c d
  | .wait => s

section
variable {s : State} {fk : Nat} {c : Cnt} (ho : Opens s fk c) (i : MemI) (rd : Res) (v mask p : Nat)

/-- The state with the instruction's operation opened, before its lane. -/
def opened (s : State) (fk : Nat) (i : MemI) : State := { s with seq := s.seq + 1, ops := s.ops ++ [s.mkOp i (fkBk fk) (fkG fk) s.seq] }

include ho

theorem opFor_opened : s.opFor i s.seq (fkBk fk) (fkG fk) = (s.seq, opened s fk i) := opFor_fresh i _ _ ho.fresh

theorem applyStore_ok (t : Tgt) : applyStore i s.seq none s (only fk) { rd := rd, src := v, src2 := mask, ptr := p, chk := .ok t } =
    storeOpens s fk i p t v mask := by
  simp only [applyStore, only_bk, only_g, opFor_fresh _ _ _ ho.fresh, mkLane_only, advanceUnit_only]
  unfold storeOpens
  rw [← touch_issue _ _ _ _ _ ho.fresh]
  rfl

omit ho in
/-- An operation without lanes takes no side-log entry. -/
theorem sideUsed_opened (core : Nat) : (opened s fk i).sideUsed core = s.sideUsed core := by
  unfold State.sideUsed opened
  rw [List.filter_append, List.foldl_append, List.filter_singleton]
  cases (s.mkOp i (fkBk fk) (fkG fk) s.seq).core == core <;> rfl

theorem applyStore_absent (t : Tgt) : applyStore i s.seq none s (only fk) { rd := rd, src := v, src2 := mask, ptr := p, chk := .absent t } =
    storeLogs s fk i p (s.globalPtr i.kind.tureen t p) t v mask := by
  simp only [applyStore, only_bk, only_g, opFor_fresh _ _ _ ho.fresh, mkLane_only, advanceUnit_only]
  unfold storeLogs
  have hused := sideUsed_opened (s := s) (fk := fk) i (s.group (fkBk fk) (fkG fk)).core
  refine if_congr (by rw [← hused]; rfl) ?_ ?_
  · rw [← addLane_fresh i fk _ ho.fresh]
    rfl
  · rw [← addLane_fresh i fk _ ho.fresh]
    rfl

omit ho in
theorem stageLine_addLane (k : OpKind) (c p id : Nat) (x : Lane) : (stageLine k c p s).addLane id x = stageLine k c p (s.addLane id x) := by
  unfold stageLine
  rw [show (s.addLane id x).regionT c p = s.regionT c p from rfl]
  cases s.regionT c p with
  | none => rfl
  | some r =>
    dsimp only
    split
    · exact touch_addLane _ _ _ _ _
    · rfl

theorem applyStore_staged : (applyStore i s.seq none s (only fk) { rd := rd, src := v, src2 := mask, ptr := p, chk := .staged }).settleAll =
    (storeStages s fk i p v mask).settleAll := by
  have hopen : (opened s fk i).addLane s.seq (laneOf fk p .none .done v mask) = s.issued fk i (laneOf fk p .none .done v mask) :=
    addLane_fresh i fk _ ho.fresh
  have hstages : storeStages s fk i p v mask = (((stageLine i.kind (s.ctxOf (fkBk fk)) p (opened s fk i)).stageAt s.ipc fk
      (stagePtr s i.kind (s.ctxOf (fkBk fk)) p) i.n v mask i.scope i.pol none).addLane s.seq (laneOf fk p .none .done v mask)).advance fk := by
    rw [stageAt_addLane, stageLine_addLane, hopen]
    rfl
  have hctx : (opened s fk i).ctxOf (fkBk fk) = s.ctxOf (fkBk fk) := rfl
  have hreg : ∀ c, (opened s fk i).regionT c p = s.regionT c p := fun _ => rfl
  simp only [applyStore, only_bk, only_g, opFor_opened ho, mkLane_only, advanceUnit_only, only_rep]
  rw [advance_updOp, settleAll_updOp, hstages]
  unfold stageLine stagePtr State.mirror
  simp only [hctx, hreg]
  split
  · next hk =>
    simp only [hk, if_true]
    cases s.regionT (s.ctxOf (fkBk fk)) p <;> rfl
  · next hk =>
    simp only [show ¬ i.kind = .stt from hk, if_false]
    cases s.regionT (s.ctxOf (fkBk fk)) p <;> rfl

/-- Each answer of the check has its effect (R71, R73, R234). -/
theorem applyStore_gives {chk : Chk} (hf : ∀ c d, chk ≠ .fault c d) (hw : chk ≠ .wait) :
    (applyStore i s.seq none s (only fk) { rd := rd, src := v, src2 := mask, ptr := p, chk := chk }).settleAll =
      (storeGives s fk i p v mask chk).settleAll := by
  cases chk with
  | ok t => rw [applyStore_ok ho]; rfl
  | absent t => rw [applyStore_absent ho]; rfl
  | staged => exact applyStore_staged ho i rd v mask p
  | fault c d => exact absurd rfl (hf c d)
  | wait => exact absurd rfl hw

end

section
variable {s : State} {fk : Nat} {x : Fibre} {g : Guard} {i : MemI} {rd : Res} {v mask p : Nat} {plan : State → WUnit → Plan MemGo}
  {prep : List (WUnit × Plan MemGo) → List (WUnit × Plan MemGo)} {apply : State → WUnit → MemGo → State}

theorem runPrep_fault (h : Issues s g fk x) {c : FClass} {d : Nat} (hp : plan s (only fk) = .fault c d)
    (hprep : ∀ pl, prep [(only fk, pl)] = [(only fk, pl)]) (hnil : prep [] = []) : runPrep s g plan prep apply = s.faulted fk c d := by
  rw [runPrep_issues h plan prep apply (hprep _) hnil, hp]
  rfl

/-- A store whose plan is what its check answers. -/
theorem runPrep_store (h : Issues s g fk x) (ho : Opens s fk i.cls) {chk : Chk}
    (hp : plan s (only fk) = chk.plan { rd := rd, src := v, src2 := mask, ptr := p, chk := .staged })
    (hprep : ∀ pl, prep [(only fk, pl)] = [(only fk, pl)]) (hnil : prep [] = [])
    (happ : ∀ a, a.ptr = p → apply s (only fk) a = applyStore i s.seq none s (only fk) a) :
    (runPrep s g plan prep apply).settleAll = (storeGives s fk i p v mask chk).settleAll := by
  rw [runPrep_issues h plan prep apply (hprep _) hnil, hp]
  cases chk with
  | fault c d => rfl
  | wait => rfl
  | ok t => exact (congrArg State.settleAll (happ _ rfl)).trans (applyStore_gives ho i rd v mask p (by simp) (by simp))
  | absent t => exact (congrArg State.settleAll (happ _ rfl)).trans (applyStore_gives ho i rd v mask p (by simp) (by simp))
  | staged => exact (congrArg State.settleAll (happ _ rfl)).trans (applyStore_gives ho i rd v mask p (by simp) (by simp))

end

/-- A lane alone keeps its bytes (R77). -/
theorem maskUnits_one (n : Nat) (u : WUnit) (pl : Plan MemGo) : maskUnits n [(u, pl)] = [(u, pl)] := by
  cases pl with
  | go a =>
    have hw : ∀ (b : MemGo) (i : Nat), (winByte n [(u, .go a)] u b i).2 = false := by simp [winByte]
    have hs : ∀ (l : List Nat) (b : MemGo), l.foldl (fun (m : MemGo) i =>
        let w := winByte n [(u, .go a)] u a i
        if w.2 && bit m.src2 i then { m with src := setBits m.src (8 * i) 8 w.1, src2 := m.src2 - 2 ^ i } else m) b = b := by
      intro l
      induction l with
      | nil => exact fun _ => rfl
      | cons i l ih => intro b; rw [List.foldl_cons]; simpa only [hw, Bool.false_and, Bool.false_eq_true, if_false] using ih b
    simp only [maskUnits, List.map_cons, List.map_nil, hs]
  | _ => rfl

theorem maskLines_one (u : WUnit) (pl : Plan MemGo) : maskLines [(u, pl)] = [(u, pl)] := by
  cases pl <;> simp [maskLines]

section
variable {s : State} {fk : Nat} {x : Fibre} {f : Mem} {k : OpKind} {wide scp : Bool} {check : WUnit → Nat → Chk}

/-- The source value and the byte mask of a store (R77). -/
def storeVal (s : State) (fk : Nat) (f : Mem) : Nat := value s fk f.d false f.ty.wide % 2 ^ (8 * f.ty.size)

/-- A store whose operands are ready: a scope entry it may not name is its fault, then its check decides (R71, R244). -/
theorem runStore_ready (h : Issues s f.g fk x) (ho : Opens s fk .st) (hd : readable s fk f.d false f.ty.wide = true)
    (ha : addrReady s fk wide f.base f.sc = true) :
    let p := addr s fk wide f.base f.ofs f.sc f.ty.size
    runStore s k f wide scp check = (storeGives s fk (memI k .st f) p (storeVal s fk f) (2 ^ f.ty.size - 1)
      (if scp = true ∧ s.scopeOk fk f.scope = false then .fault .ac f.scope else check (only fk) p)).settleAll := by
  intro p
  refine runPrep_store (i := memI k .st f) (rd := .sp .lane) h ho ?_ (maskUnits_one _ _) rfl fun _ _ => rfl
  have hp := planMem_ready (s := s) (fk := fk) (i := memI k .st f) (scp := scp) (ofs := f.ofs) (n := f.ty.size) (d := none)
    (srcs := [⟨f.d, false, f.ty.wide⟩]) (val := fun xs => (xs.getD 0 0 % 2 ^ (8 * f.ty.size), fullMask f.ty.size)) (check := check (only fk)) ho ha
    (by simpa using hd) rfl rfl rfl
  refine hp.trans ?_
  by_cases hs : scp = true ∧ s.scopeOk fk f.scope = false
  · rw [if_pos hs, if_pos (show scp = true ∧ s.scopeOk fk (memI k .st f).scope = false from hs)]
    rfl
  · rw [if_neg hs, if_neg (show ¬ (scp = true ∧ s.scopeOk fk (memI k .st f).scope = false) from hs)]
    rfl

variable (h : Issues s f.g fk x) (ho : Opens s fk .st) (hd : readable s fk f.d false f.ty.wide = true)
include h ho hd

theorem exec_st (ha : addrReady s fk true f.base f.sc = true) :
    let p := addr s fk true f.base f.ofs f.sc f.ty.size
    exec (.st f) s = .next (storeGives s fk (memI .st .st f) p (storeVal s fk f) (2 ^ f.ty.size - 1)
      (if s.scopeOk fk f.scope = false then .fault .ac f.scope else s.redCheck (fkBk fk) p f.ty.size none
        (feqCheck (f.qf.testBit 3) p (s.check (s.ctxOf (fkBk fk)) p f.ty.size f.ty.size .store (s.stagesAt (fkBk fk) p))) p)).settleAll := by
  have hr := runStore_ready (k := .st) (scp := true) (check := fun u p => s.redCheck u.bk p f.ty.size none (feqCheck (bit f.qf 3) p
    (s.check (s.ctxOf u.bk) p f.ty.size f.ty.size .store (s.stagesAt u.bk p))) p) h ho hd ha
  simp only [true_and] at hr
  simp only [← bit_eq, exec, execSt, hr, only_bk]

theorem exec_stt (ha : addrReady s fk false f.base f.sc = true) :
    let p := addr s fk false f.base f.ofs f.sc f.ty.size
    let q := s.mirror (s.ctxOf (fkBk fk)) p
    exec (.stt f) s = .next (storeGives s fk (memI .stt .st f) p (storeVal s fk f) (2 ^ f.ty.size - 1)
      (if s.scopeOk fk f.scope = false then .fault .ac f.scope else s.redCheck (fkBk fk) q f.ty.size none
        (s.checkT (s.ctxOf (fkBk fk)) p f.ty.size .store (s.stagesAt (fkBk fk) q) (f.qf.testBit 3)) p)).settleAll := by
  have hr := runStore_ready (k := .stt) (scp := true) (check := fun u p =>
    s.redCheck u.bk (s.mirror (s.ctxOf u.bk) p) f.ty.size none
      (s.checkT (s.ctxOf u.bk) p f.ty.size .store (s.stagesAt u.bk (s.mirror (s.ctxOf u.bk) p)) (bit f.qf 3)) p) h ho hd ha
  simp only [true_and] at hr
  simp only [← bit_eq, exec, execStt, hr, only_bk]

theorem exec_stw (ha : addrReady s fk false f.base f.sc = true) :
    let p := addr s fk false f.base f.ofs f.sc f.ty.size
    exec (.stw f) s = .next (storeGives s fk (memI .stw .st f) p (storeVal s fk f) (2 ^ f.ty.size - 1) (s.winChk (only fk) f.ty.size p)).settleAll := by
  have hr := runStore_ready (k := .stw) (scp := false) (check := fun u p => s.winChk u f.ty.size p) h ho hd ha
  simp only [Bool.false_eq_true, false_and, if_false] at hr
  simp only [exec, execStw, hr]
end

/-! ### The checks of stores -/

section
variable {s : State} {bk p q n det : Nat} {fset : Bool}

/-- A byte of [q, q + n) lies in a RED range (R300). -/
def MeetsRed (s : State) (bk q n : Nat) : Prop := ∃ j < n, s.redRange bk (q + j) ≠ none

theorem meetsRed_iff : ((span 0 n).any fun i => match s.redRange bk (q + i) with
    | some op => (none : Option Nat) != some op
    | none => false) = true ↔ MeetsRed s bk q n := by
  simp only [List.any_eq_true, mem_span, MeetsRed]
  constructor
  · rintro ⟨i, hi, h⟩
    refine ⟨i, by omega, fun hn => ?_⟩
    simp [hn] at h
  · rintro ⟨i, hi, h⟩
    obtain ⟨op, ho⟩ := Option.ne_none_iff_exists'.1 h
    exact ⟨i, by omega, by simp [ho]⟩

theorem redCheck_staged_meets (h : MeetsRed s bk q n) : s.redCheck bk q n none .staged det = .fault .ac det := if_pos (meetsRed_iff.2 h)

theorem redCheck_staged_free (h : ¬ MeetsRed s bk q n) : s.redCheck bk q n none .staged det = .staged := if_neg (mt meetsRed_iff.1 h)

/-- `.fset` and a RED range forbid staging (R88, R300). -/
theorem stagedCheck_forbidden (h : fset = true ∨ MeetsRed s bk q n) :
    s.redCheck bk q n none (feqCheck fset det .staged) det = .fault .ac det := by
  cases fset with
  | true => rfl
  | false => exact redCheck_staged_meets (by simpa using h)

theorem stagedCheck_allowed (h : ¬ (fset = true ∨ MeetsRed s bk q n)) :
    s.redCheck bk q n none (feqCheck fset det .staged) det = .staged := by
  obtain ⟨hf, hm⟩ := not_or.1 h
  rw [Bool.not_eq_true] at hf
  subst hf
  exact redCheck_staged_free hm

theorem okCheck (t : Tgt) : s.redCheck bk q n none (feqCheck fset det (.ok t)) det =
    if fset = true ∧ t.granular = false then .fault .ac det else .ok t := by
  cases fset <;> cases hg : t.granular <;> simp [feqCheck, State.redCheck, hg]

/-- A Tureen store with `.fset` is not staged (R88). -/
theorem checkT_fset_ne_staged (c : Nat) (staging : Bool) : s.checkT c p n .store staging true ≠ .staged := by
  unfold State.checkT
  split
  · simp
  · split
    · simp
    · next r _ =>
      refine ite_ne (by simp) ?_
      change (if (true && staging && s.dsOf c r.gbase) = true then _ else if (staging && s.dsOf c r.gbase && Kind.store == Kind.store) = true then _ else _) ≠ _
      cases hs : (staging && s.dsOf c r.gbase) with
      | true => simp only [Bool.true_and, hs, if_true]; simp
      | false => simpa only [Bool.true_and, hs, Bool.false_and, Bool.false_eq_true, if_false] using fillCheck_ne_staged _ _ _ _

end

/-- Settles O12: the operands are ready, so the plan of the store is what its check answers, and each answer has its effect. -/
theorem storeIssue : Obligations.StoreIssue := by
  intro s fk x f h ho hd bk c n v mask fset i flt done staged log
  have hred : ∀ q, (∃ j < n, s.redRange bk (q + j) ≠ none) = MeetsRed s bk q n := fun _ => rfl
  have hlog : ∀ k p q t, log k p q t = .next (storeLogs s fk (i k) p q t v mask).settleAll := by
    intro k p q t
    simp only [log, storeLogs]
    split <;> rfl
  have hstaged : ∀ k p, ¬ (fset = true ∨ MeetsRed s bk (stagePtr s k c p) n) → staged k p (stagePtr s k c p) =
      .next (storeStages s fk (i k) p v mask).settleAll := by
    intro k p hok
    simp only [staged]
    rw [if_neg (by rwa [hred])]
    rfl
  have hbad : ∀ k p q, (fset = true ∨ MeetsRed s bk q n) → staged k p q = flt .ac p := fun k p q hb => if_pos (by rwa [hred])
  refine ⟨fun ha => ?_, fun ha => ?_⟩
  · intro p
    have he := exec_st h ho hd ha
    refine ⟨fun hs => by rw [he, if_pos hs]; rfl, fun hs => ?_⟩
    rw [he, if_neg (by simp [hs])]
    cases hc : s.check c p n n .store (s.stagesAt bk p) with
    | ok t =>
      rw [okCheck]
      dsimp only
      split <;> rfl
    | staged =>
      dsimp only
      by_cases hb : fset = true ∨ MeetsRed s bk p n
      · rw [hbad _ _ _ hb, stagedCheck_forbidden hb]; rfl
      · rw [stagedCheck_allowed hb]; exact (hstaged .st p hb).symm
    | absent t => exact (hlog .st p p t).symm
    | fault fc d => rfl
    | wait => rfl
  · intro p q
    have he := exec_stt h ho hd ha
    have hq : s.mirror (s.ctxOf (fkBk fk)) (addr s fk false f.base f.ofs f.sc f.ty.size) = q := rfl
    refine ⟨fun hs => by rw [he, if_pos hs]; rfl, fun hs => ?_, ?_⟩
    · rw [he, if_neg (by simp [hs]), hq]
      cases hc : s.checkT c p n .store (s.stagesAt bk q) fset with
      | ok t => rfl
      | staged =>
        have hf : fset = false := by
          cases hf : fset with
          | true => exact absurd (hf ▸ hc) (checkT_fset_ne_staged _ _)
          | false => rfl
        dsimp only
        by_cases hb : fset = true ∨ MeetsRed s bk q n
        · rw [hbad _ _ _ hb, redCheck_staged_meets (by simpa [hf] using hb)]; rfl
        · rw [redCheck_staged_free (not_or.1 hb).2]; exact (hstaged .stt p hb).symm
      | absent t => exact (hlog .stt p _ t).symm
      | fault fc d => rfl
      | wait => rfl
    · rw [exec_stw h ho hd ha]
      cases hw : s.winCheck bk p n n with
      | some e => rw [winChk_fault hw]; rfl
      | none =>
        rw [winChk_inside hw]
        dsimp only
        split <;> rfl

/-! ### Zeroing a line (R78) -/

section
variable {s : State} {fk : Nat} {x : Fibre} {f : MemA}

/-- Outside a conversation no byte lies in its ranges (R328). -/
theorem convMask_outside {bk : Nat} (hc : s.convOf bk = none) (p n : Nat) : s.convMask bk p n = 0 := by
  have hr : ∀ q, s.inRange bk q = false := fun q => by simp [State.inRange, hc]
  unfold State.convMask
  simp only [hr, Bool.false_eq_true, if_false]
  exact List.foldl_fixed _

/-- The check of a `stz` (R78): that of a store of its line, but where the line lies partly in the ranges of a conversation (R328). -/
def stzCheck (s : State) (bk : Nat) (f : MemA) (p : Nat) : Chk :=
  let part := s.staging bk && s.dsAt (s.ctxOf bk) p && decide (s.convMask bk p 128 ≠ 0)
  let c := feqCheck (f.qf.testBit 3) p (s.check (s.ctxOf bk) p 128 128 .store (s.staging bk && !part))
  if part then s.partCheck bk p (s.convMask bk p 128) (f.qf.testBit 3) c else s.redCheck bk p 128 none c p

theorem stzCheck_outside {bk : Nat} (hc : s.convOf bk = none) (p : Nat) : stzCheck s bk f p = s.redCheck bk p 128 none
    (feqCheck (f.qf.testBit 3) p (s.check (s.ctxOf bk) p 128 128 .store (s.staging bk))) p := by
  simp [stzCheck, convMask_outside hc]

/-- The plan of a `stz` whose operands are ready. -/
theorem planStz_ready (ho : Opens s fk .st) (ha : addrReady s fk true f.base f.sc = true) :
    planMem s (only fk) (memIA .stz 128 f) f.base f.ofs f.sc 4 true true none [] (fun _ => (0, fullMask 128)) (stzCheck s (fkBk fk) f) =
      (if s.scopeOk fk f.scope = false then Chk.fault .ac f.scope else stzCheck s (fkBk fk) f (addr s fk true f.base f.ofs f.sc 4)).plan
        { rd := .sp .lane, src := 0, src2 := 2 ^ 128 - 1, ptr := addr s fk true f.base f.ofs f.sc 4, chk := .staged } := by
  have hp := planMem_ready (s := s) (fk := fk) (i := memIA .stz 128 f) (scp := true) (ofs := f.ofs) (n := 4) (d := none) (srcs := [])
    (val := fun _ => (0, fullMask 128)) (check := stzCheck s (fkBk fk) f) ho ha (by simp) rfl rfl rfl
  simp only [true_and, show (memIA .stz 128 f).scope = f.scope from rfl] at hp
  rw [hp]
  split <;> rfl

section
variable (h : Issues s f.g fk x) (ho : Opens s fk .st) (ha : addrReady s fk true f.base f.sc = true)
include h ho ha

theorem exec_stz_badScope (hs : s.scopeOk fk f.scope = false) : exec (.stz f) s = .next (s.faulted fk .ac f.scope).settleAll := by
  have hp := planStz_ready ho ha
  rw [if_pos hs] at hp
  simp only [exec, execStz, bit_eq]
  exact congrArg (fun t : State => Host.Outcome.next t.settleAll) (runPrep_fault h hp (maskLines_one _) rfl)

theorem exec_stz (hc : s.convOf (fkBk fk) = none) (hs : s.scopeOk fk f.scope = true) :
    let p := addr s fk true f.base f.ofs f.sc 4
    exec (.stz f) s = .next (storeGives s fk (memIA .stz 128 f) p 0 (2 ^ 128 - 1) (s.redCheck (fkBk fk) p 128 none
        (feqCheck (f.qf.testBit 3) p (s.check (s.ctxOf (fkBk fk)) p 128 128 .store (s.staging (fkBk fk)))) p)).settleAll := by
  intro p
  have hp := planStz_ready ho ha
  rw [if_neg (by simp [hs]), stzCheck_outside hc] at hp
  simp only [exec, execStz, bit_eq]
  refine congrArg Host.Outcome.next (runPrep_store (i := memIA .stz 128 f) (rd := .sp .lane) h ho hp (maskLines_one _) rfl fun a _ => ?_)
  simp [convMask_outside hc]

end
end

/-! ### Line maintenance (R80, R278) -/

/-- What line maintenance does with the result of its check: it acts on the line of a target that it acts on, and completes at once elsewhere. -/
def lineGives (s : State) (fk : Nat) (i : MemI) (acts : Tgt → Bool) (p : Nat) : Chk → State
  | .ok t => (s.issued fk i (if acts t then laneOf fk (p / 128 * 128) (t.down 128) .pending 0 0 else laneOf fk p t .done 0 0)).advance fk
  | .fault c d => s.faulted fk c d
  | .wait => s
  | _ => (s.issued fk i (laneOf fk p .none .done 0 0)).advance fk

section
variable {s : State} {fk : Nat} {x : Fibre} {f : MemA} {i : MemI} {acts : Tgt → Bool} {check : State → WUnit → Nat → Chk}

theorem applyLine_gives (ho : Opens s fk i.cls) (rd : Res) (p : Nat) {chk : Chk} (hf : ∀ c d, chk ≠ .fault c d) (hw : chk ≠ .wait) :
    applyLine i s.seq acts s (only fk) { rd := rd, src := 0, src2 := 0, ptr := p, chk := chk } = lineGives s fk i acts p chk := by
  simp only [applyLine, only_bk, only_g, opFor_fresh _ _ _ ho.fresh, mkLane_only, addLane_fresh _ _ _ ho.fresh, advanceUnit_only]
  cases chk with
  | ok t => simp only [lineGives]; split <;> rfl
  | fault c d => exact absurd rfl (hf c d)
  | wait => exact absurd rfl hw
  | _ => rfl

theorem runLine_ready (h : Issues s f.g fk x) (ho : Opens s fk i.cls) (ha : addrReady s fk true f.base f.sc = true) :
    let p := addr s fk true f.base f.ofs f.sc 4
    runUnits s f.g (fun s u => planMem s u i f.base f.ofs f.sc 4 true true none [] (fun _ => (0, 0)) (check s u)) (applyLine i s.seq acts) =
      lineGives s fk i acts p (if s.scopeOk fk i.scope = false then .fault .ac i.scope else check s (only fk) p) := by
  intro p
  have hp := planMem_ready (s := s) (fk := fk) (i := i) (scp := true) (ofs := f.ofs) (n := 4) (d := none) (srcs := []) (val := fun _ => (0, 0))
    (check := check s (only fk)) ho ha (by simp) rfl rfl rfl
  simp only [true_and] at hp
  by_cases hs : s.scopeOk fk i.scope = false
  · rw [if_pos hs] at hp ⊢
    exact runUnits_fault h hp
  · rw [if_neg hs] at hp ⊢
    cases hc : check s (only fk) p with
    | fault c d => rw [hc] at hp; exact runUnits_fault h hp
    | wait => rw [hc] at hp; exact runUnits_stall h hp
    | ok t => rw [hc] at hp; exact (runUnits_go h hp).trans (applyLine_gives ho _ p (by simp) (by simp))
    | absent t => rw [hc] at hp; exact (runUnits_go h hp).trans (applyLine_gives ho _ p (by simp) (by simp))
    | staged => rw [hc] at hp; exact (runUnits_go h hp).trans (applyLine_gives ho _ p (by simp) (by simp))

/-- The targets on whose line `cwb` acts (R80), and `iinv` (R278). -/
def cwbActs : Tgt → Bool
  | .mem _ mt => mt != 2
  | .region _ _ => true
  | _ => false
def iinvActs : Tgt → Bool
  | .mem _ _ => true
  | _ => false

variable (h : Issues s f.g fk x) (ho : Opens s fk .st) (ha : addrReady s fk true f.base f.sc = true)
include h ho ha

theorem exec_cwb : let p := addr s fk true f.base f.ofs f.sc 4
    exec (.cwb f) s = .next (lineGives s fk (memIA .cwb 128 f) cwbActs p
      (if s.scopeOk fk f.scope = false then .fault .ac f.scope else s.checkLine (s.ctxOf (fkBk fk)) p .any)).settleAll :=
  congrArg (fun t : State => Host.Outcome.next t.settleAll)
    (runLine_ready (i := memIA .cwb 128 f) (acts := cwbActs) (check := fun s u p => s.checkLine (s.ctxOf u.bk) p .any) h ho ha)

theorem exec_iinv : let p := addr s fk true f.base f.ofs f.sc 4
    exec (.iinv f) s = .next (lineGives s fk (memIA .iinv 128 f) iinvActs p
      (if s.scopeOk fk f.scope = false then .fault .ac f.scope else s.checkLine (s.ctxOf (fkBk fk)) p .fetch)).settleAll :=
  congrArg (fun t : State => Host.Outcome.next t.settleAll)
    (runLine_ready (i := memIA .iinv 128 f) (acts := iinvActs) (check := fun s u p => s.checkLine (s.ctxOf u.bk) p .fetch) h ho ha)

end

/-- Settles O13: `stz` is a store of a line, and line maintenance does what its check answers. -/
theorem lineIssue : Obligations.LineIssue := by
  intro s fk x f h
  refine ⟨congrArg Host.Outcome.next (runUnits_go h rfl), fun ho ha => ?_⟩
  intro bk c p flt go
  have hcwb := exec_cwb h ho ha
  have hiinv := exec_iinv h ho ha
  refine ⟨fun hs => ⟨exec_stz_badScope h ho ha hs, by rw [hcwb, if_pos hs]; rfl, by rw [hiinv, if_pos hs]; rfl⟩, fun hs => ⟨fun hconv => ?_, ?_, ?_⟩⟩
  · intro i mask fset
    rw [exec_stz h ho ha hconv hs]
    cases hc : s.check c p 128 128 .store (s.staging bk) with
    | ok t =>
      rw [okCheck]
      dsimp only
      split <;> rfl
    | staged =>
      have hred : (∃ j ∈ List.range 128, s.redRange bk (p + j) ≠ none) ↔ MeetsRed s bk p 128 := by simp [MeetsRed, List.mem_range]
      dsimp only
      by_cases hb : fset = true ∨ MeetsRed s bk p 128
      · rw [if_pos (by rwa [hred]), stagedCheck_forbidden hb]; rfl
      · rw [if_neg (by rwa [hred]), stagedCheck_allowed hb]
        simp only [storeGives, storeStages, stageLine_of_ne (k := (memIA .stz 128 f).kind) (by simp [memIA])]
        rfl
    | absent t =>
      simp only [storeGives, State.redCheck, feqCheck, storeLogs]
      split <;> rfl
    | fault fc d => rfl
    | wait => rfl
  · rw [hcwb, if_neg (by simp [hs])]
    cases s.checkLine c p .any with
    | ok t =>
      cases t with
      | mem pa mt =>
        by_cases hmt : mt = 2
        · subst hmt; rfl
        · have hacts : cwbActs (.mem pa mt) = true := by simpa [cwbActs] using hmt
          simp only [lineGives, hacts, if_true, if_neg hmt]
          rfl
      | _ => rfl
    | _ => rfl
  · rw [hiinv, if_neg (by simp [hs])]
    cases s.checkLine c p .fetch with
    | ok t => cases t <;> rfl
    | _ => rfl

end Sys2Proof.Proofs
end

section
/-!
PROOFS. Reads of memory after the writes that reach it (R60 to R63, R81, R82): DRAM under its zero directory, the home slices above it, evictions. Beside
`Laws/Memory.lean`, which holds the reads after a store at a home slice.
-/
namespace Sys2Proof.Proofs
open Sys2Proof Sys2Proof.Machine Sys2Proof.Laws

/-! ### DRAM (R61, R63) -/

/-- A line of DRAM as a write to it finds it: its directory bit is clear, and a line to be written whole is not poisoned (R61, R63). -/
def dramOpen (whole : Nat → Bool) (m : MemSt) (ln : Nat) : MemSt :=
  let m := if whole ln then { m with dpoison := sset false m.dpoison ln false, dbad := sset 0 m.dbad ln 0 } else m
  let m := if sget false m.zdir ln then { m with dram := sdrop m.dram (ln * 128) 128 } else m
  { m with zdir := sset false m.zdir ln false }

/-- The lines of a write, and those that it writes whole. -/
def putLines (pa n : Nat) : List Nat := span (pa / 128) ((pa + n + 127) / 128 - pa / 128)
def putWhole (pa n ln : Nat) : Bool := decide (pa ≤ ln * 128) && decide (ln * 128 + 128 ≤ pa + n)

theorem dramPut_def (m : MemSt) (pa : Nat) (bs : List Nat) : m.dramPut pa bs =
    { (putLines pa bs.length).foldl (dramOpen (putWhole pa bs.length)) m with
      dram := mputs ((putLines pa bs.length).foldl (dramOpen (putWhole pa bs.length)) m).dram pa bs } := rfl

/-- Two memories that differ in DRAM alone. -/
def SameAbove (m n : MemSt) : Prop :=
  n = { m with dram := n.dram, dpoison := n.dpoison, dbad := n.dbad, zdir := n.zdir }

theorem SameAbove.refl (m : MemSt) : SameAbove m m := rfl

theorem SameAbove.trans {m n k : MemSt} (h : SameAbove m n) (h' : SameAbove n k) : SameAbove m k := by
  unfold SameAbove at *
  rw [h']
  rw [h]

theorem dramOpen_above (whole : Nat → Bool) (m : MemSt) (ln : Nat) : SameAbove m (dramOpen whole m ln) := by
  unfold dramOpen SameAbove
  dsimp only
  split <;> split <;> rfl

theorem dramOpen_zdir (whole : Nat → Bool) (m : MemSt) (ln x : Nat) :
    sget false (dramOpen whole m ln).zdir x = if x = ln then false else sget false m.zdir x := by
  unfold dramOpen
  dsimp only
  split <;> split <;> simp

theorem dramOpen_dramB (whole : Nat → Bool) (m : MemSt) (ln b : Nat) : (dramOpen whole m ln).dramB b = m.dramB b := by
  unfold MemSt.dramB
  rw [dramOpen_zdir]
  by_cases hb : b / 128 = ln
  · have hin : b / 128 * 128 ≤ b ∧ b < b / 128 * 128 + 128 := by omega
    subst hb
    simp only [if_true, Bool.false_eq_true, if_false]
    unfold dramOpen
    dsimp only
    cases hz : sget false m.zdir (b / 128) <;> split <;> simp [hz, mget_sdrop, hin]
  · rw [if_neg hb]
    have hd : mget (dramOpen whole m ln).dram b = mget m.dram b := by
      unfold dramOpen
      dsimp only
      split <;> split <;> simp [mget_sdrop] <;> omega
    rw [hd]

theorem foldl_dramOpen (whole : Nat → Bool) (l : List Nat) (m : MemSt) : SameAbove m (l.foldl (dramOpen whole) m) ∧
    (∀ x, sget false (l.foldl (dramOpen whole) m).zdir x = if x ∈ l then false else sget false m.zdir x) ∧
    ∀ b, (l.foldl (dramOpen whole) m).dramB b = m.dramB b := by
  induction l generalizing m with
  | nil => exact ⟨rfl, fun _ => rfl, fun _ => rfl⟩
  | cons y l ih =>
    obtain ⟨h1, h2, h3⟩ := ih (dramOpen whole m y)
    refine ⟨(dramOpen_above whole m y).trans h1, fun x => ?_, fun b => (h3 b).trans (dramOpen_dramB _ _ _ _)⟩
    rw [List.foldl_cons, h2, dramOpen_zdir]
    by_cases hx : x ∈ l <;> by_cases hy : x = y <;> simp [hx, hy]

theorem mem_putLines {pa n b : Nat} (h : pa ≤ b ∧ b < pa + n) : b / 128 ∈ putLines pa n := by
  unfold putLines
  rw [mem_span]
  omega

theorem dramPut_above (m : MemSt) (pa : Nat) (bs : List Nat) : SameAbove m (m.dramPut pa bs) := by
  obtain ⟨h, -, -⟩ := foldl_dramOpen (putWhole pa bs.length) (putLines pa bs.length) m
  exact h.trans (by rw [dramPut_def]; rfl)

/-- Bytes written to DRAM read as written, and every other byte as before (R61). -/
theorem dramB_dramPut (m : MemSt) (pa : Nat) (bs : List Nat) (b : Nat) :
    (m.dramPut pa bs).dramB b = if pa ≤ b ∧ b < pa + bs.length then bs.getD (b - pa) 0 % 256 else m.dramB b := by
  obtain ⟨-, hz, hb⟩ := foldl_dramOpen (putWhole pa bs.length) (putLines pa bs.length) m
  rw [dramPut_def]
  generalize (putLines pa bs.length).foldl (dramOpen (putWhole pa bs.length)) m = k at hz hb
  have hget : (({ k with dram := mputs k.dram pa bs } : MemSt)).dramB b = if sget false k.zdir (b / 128) then 0 else (mget (mputs k.dram pa bs) b).toNat := rfl
  rw [hget, mget_mputs]
  by_cases hin : pa ≤ b ∧ b < pa + bs.length
  · rw [if_pos hin, if_pos hin, hz, if_pos (mem_putLines hin), if_neg (by simp), BitVec.toNat_ofNat]
  · rw [if_neg hin, if_neg hin, ← hb b]
    rfl

/-- A line whose directory bit is set reads as zeros (R61). -/
theorem dramB_dramZero (m : MemSt) (ln b : Nat) : (m.dramZero ln).dramB b = if b / 128 = ln then 0 else m.dramB b := by
  unfold MemSt.dramB MemSt.dramZero
  by_cases h : b / 128 = ln
  · simp [h]
  · simp only [sget_sset, if_neg h, mget_sdrop]
    rw [if_neg (c := ln * 128 ≤ b ∧ b < ln * 128 + 128) (by omega)]

theorem dramZero_above (m : MemSt) (ln : Nat) : SameAbove m (m.dramZero ln) := rfl

/-! ### The home slices above it (R60) -/

section
variable {m n : MemSt}

theorem SameAbove.tag (h : SameAbove m n) (ln : Nat) : n.tag ln = m.tag ln := by unfold SameAbove at h; rw [h]; rfl
theorem SameAbove.home (h : SameAbove m n) : n.home = m.home := by unfold SameAbove at h; rw [h]
theorem SameAbove.htag (h : SameAbove m n) : n.htag = m.htag := by unfold SameAbove at h; rw [h]
theorem SameAbove.copies (h : SameAbove m n) : n.copies = m.copies := by unfold SameAbove at h; rw [h]

/-- What reads as before in DRAM reads as before above it. -/
theorem SameAbove.homeB (h : SameAbove m n) {b : Nat} (hb : m.tag (b / 128) = none → n.dramB b = m.dramB b) : n.homeB b = m.homeB b := by
  unfold MemSt.homeB
  rw [h.tag, h.home]
  cases ht : m.tag (b / 128) with
  | some t => rfl
  | none => exact hb ht

end

/-- A store within one line at a home slice, allocated there or not (R22, R82): each byte stored reads as stored, and every other byte as before. -/
theorem homeB_homeStore (m : MemSt) (nt : Bool) (pa : Nat) (bs : List Nat) (b : Nat) (hline : pa % 128 + bs.length ≤ 128) :
    (m.homeStore nt pa bs).homeB b = if pa ≤ b ∧ b < pa + bs.length then bs.getD (b - pa) 0 % 256 else m.homeB b := by
  unfold MemSt.homeStore
  split
  · next h =>
    have habove := dramPut_above m pa bs
    by_cases hin : pa ≤ b ∧ b < pa + bs.length
    · have htag : m.tag (b / 128) = none := by
        simp only [Bool.and_eq_true, Option.isNone_iff_eq_none] at h
        rw [show b / 128 = pa / 128 by omega]
        exact h.2
      rw [if_pos hin]
      unfold MemSt.homeB
      rw [habove.tag, htag]
      dsimp only
      rw [dramB_dramPut, if_pos hin]
    · rw [if_neg hin]
      exact habove.homeB fun _ => by rw [dramB_dramPut, if_neg hin]
  · exact MemSt.homeB_homePut m pa bs b hline

/-! ### Evictions (R60) -/

/-- The memory without a line at its home slice. -/
def dropLine (m : MemSt) (ln : Nat) : MemSt := { m with htag := sset none m.htag ln none, home := sdrop m.home (ln * 128) 128 }

theorem tag_dropLine (m : MemSt) (ln x : Nat) : (dropLine m ln).tag x = if x = ln then none else m.tag x := by
  simp [dropLine, MemSt.tag]

theorem homeB_dropLine (m : MemSt) (ln b : Nat) : (dropLine m ln).homeB b = if b / 128 = ln then m.dramB b else m.homeB b := by
  unfold MemSt.homeB
  rw [tag_dropLine]
  by_cases h : b / 128 = ln
  · rw [if_pos h, if_pos h]; rfl
  · have hm : mget (dropLine m ln).home b = mget m.home b := by
      simp only [dropLine, mget_sdrop]
      rw [if_neg (by omega)]
    rw [if_neg h, if_neg h, hm]
    rfl

/-- What an eviction writes to DRAM, and the line that then leaves its slice. -/
theorem evict_eq (m : MemSt) (ln : Nat) (bad : Bool) {t : LineTag} (h : m.tag ln = some t) : m.evict ln bad = dropLine
    (if t.zero then m.dramZero ln else if t.dirty then { m.writeBack ln with dpoison := sset false (m.writeBack ln).dpoison ln (t.poison || bad) } else m) ln := by
  simp only [MemSt.evict, h]
  split
  · rfl
  · split <;> rfl

/-- The bytes that a write-back of a dirty line with data writes. -/
theorem writeBack_dirty (m : MemSt) (ln : Nat) {t : LineTag} (h : m.tag ln = some t) (hz : t.zero = false) (hd : t.dirty = true) :
    ∃ k, m.writeBack ln = { k with dpoison := sset false k.dpoison ln t.poison } ∧
      k = ({ m with htag := sset none m.htag ln (some { t with dirty := false }) } : MemSt).dramPut (ln * 128)
        ((span (ln * 128) 128).map fun a => (mget m.home a).toNat) := by
  refine ⟨_, ?_, rfl⟩
  simp only [MemSt.writeBack, h, hz, hd]
  rfl

theorem tag_evict (m : MemSt) (ln x : Nat) (bad : Bool) : (m.evict ln bad).tag x = if x = ln then none else m.tag x := by
  cases ht : m.tag ln with
  | none =>
    have : m.evict ln bad = m := by simp [MemSt.evict, ht]
    rw [this]
    split
    · next h => rw [h, ht]
    · rfl
  | some t =>
    rw [evict_eq m ln bad ht, tag_dropLine]
    by_cases hx : x = ln
    · rw [if_pos hx, if_pos hx]
    · rw [if_neg hx, if_neg hx]
      cases hz : t.zero with
      | true => rfl
      | false =>
        cases hd : t.dirty with
        | false => rfl
        | true =>
          obtain ⟨k, hk, hk'⟩ := writeBack_dirty m ln ht hz hd
          have htag : k.tag x = m.tag x := by
            rw [hk', (dramPut_above _ _ _).tag]
            simp [MemSt.tag, hx]
          simp only [Bool.false_eq_true, if_false, if_true, hk]
          exact htag

/-- A line that leaves its home slice is written to DRAM when it is dirty, and its directory bit is set when it is zero-tagged: every byte reads as before
unless it lies in a clean line. -/
theorem homeB_evict (m : MemSt) (ln b : Nat) (bad : Bool) (hd : ∀ t, m.tag ln = some t → b / 128 = ln → t.dirty = true) :
    (m.evict ln bad).homeB b = m.homeB b := by
  cases ht : m.tag ln with
  | none => simp [MemSt.evict, ht]
  | some t =>
    rw [evict_eq m ln bad ht, homeB_dropLine]
    by_cases hb : b / 128 = ln
    · rw [if_pos hb]
      have hread : m.homeB b = if t.zero then 0 else (mget m.home b).toNat := by simp only [MemSt.homeB, hb, ht]
      rw [hread]
      cases hz : t.zero with
      | true =>
        simp only [if_true]
        rw [dramB_dramZero, if_pos hb]
      | false =>
        obtain ⟨k, hk, hk'⟩ := writeBack_dirty m ln ht hz (hd t ht hb)
        have hbyte : k.dramB b = (mget m.home b).toNat := by
          rw [hk', dramB_dramPut, List.length_map, span_length, if_pos (by omega), span_getD _ _ _ _ (by omega),
            Nat.add_sub_cancel' (by omega : ln * 128 ≤ b), Nat.mod_eq_of_lt (BitVec.isLt _)]
        simp only [Bool.false_eq_true, if_false, hd t ht hb, if_true, hk]
        exact hbyte
    · rw [if_neg hb]
      cases hz : t.zero with
      | true => exact (dramZero_above m ln).homeB fun _ => by rw [dramB_dramZero, if_neg hb]
      | false =>
        cases hd' : t.dirty with
        | false => rfl
        | true =>
          obtain ⟨k, hk, hk'⟩ := writeBack_dirty m ln ht hz hd'
          have hout : k.homeB b = m.homeB b := by
            rw [hk']
            refine ((dramPut_above _ _ _).homeB fun _ => ?_).trans ?_
            · rw [dramB_dramPut, List.length_map, span_length, if_neg (by omega)]
            · simp [MemSt.homeB, MemSt.tag, MemSt.dramB, hb]
          simp only [Bool.false_eq_true, if_false, if_true, hk]
          exact hout

end Sys2Proof.Proofs
end

section
/-!
PROOFS. Writes of host-visible registers (R65, R82, R105, R280, R336, R343, R344, R346, R352, R371 to R373): what each register takes, and which register an
offset names.
-/
namespace Sys2Proof.Proofs
open Sys2Proof Sys2Proof.Machine Sys2Proof.Laws

/-! ### Fields -/

theorem bit_true_iff (v n : Nat) : bit v n = true ↔ v / 2 ^ n % 2 = 1 := decide_eq_true_iff

theorem b2n_bit (v n : Nat) : b2n (bit v n) = v / 2 ^ n % 2 := by
  unfold b2n bit
  by_cases h : v / 2 ^ n % 2 = 1
  · simp [h]
  · simp only [h, decide_false, Bool.false_eq_true, if_false]; omega

/-! ### Error records, activation counts and the alarm -/

section
variable (s : State) (val : Nat)

theorem clearErb_idle {u : Nat} (h : ¬ val / 2 ^ 63 % 2 = 1) : s.clearErb u val = s := if_neg (mt (bit_true_iff _ _).1 h)

/-- Clearing a bank leaves the records of the tick of the write (R344). -/
theorem clearErb_results {u : Nat} {e : Erb} (h : val / 2 ^ 63 % 2 = 1) (he : sget none s.host.erb u = some e) :
    let to_ := fun (x : Erb) => s.clearErb u val = { s with host := { s.host with erb := sset none s.host.erb u (some x) } }
    let cleared : Erb := { e with valid := false, ovf := 0 }
    (sget none s.host.erbNew u = none → to_ cleared) ∧
      ∀ k x, sget none s.host.erbNew u = some (k, x) → (k = s.tick → to_ x) ∧ (k ≠ s.tick → to_ cleared) := by
  have hb : bit val 63 = true := (bit_true_iff _ _).2 h
  refine ⟨fun hn => ?_, fun k x hn => ⟨fun hk => ?_, fun hk => ?_⟩⟩ <;> simp only [State.clearErb, hb, if_true, State.updHost, he, hn]
  · simp [hk]
  · simp [hk]

theorem clearActstat_results (n : Nat) : ∃ v, s.clearActstat n val = { s with host := { s.host with actstat := sset 0 s.host.actstat n v } } ∧
    v % 2 ^ 32 = (if val / 2 ^ 0 % 2 = 1 then 0 else sget 0 s.host.actstat n % 2 ^ 32) ∧
    v / 2 ^ 32 % 2 ^ 32 = if val / 2 ^ 32 % 2 = 1 then 0 else sget 0 s.host.actstat n / 2 ^ 32 % 2 ^ 32 := by
  refine ⟨_, rfl, ?_, ?_⟩ <;> simp only [bit_true_iff] <;> split <;> split <;> simp only [setBits] <;> omega

theorem clearAlarm_eq : s.clearAlarm val =
    if val / 2 ^ 0 % 2 = 1 ∧ s.host.alarm % 2 ^ 2 ≠ 3 then { s with host := { s.host with alarm := 0 } } else s := by
  have hb : (bit val 0 && bits s.host.alarm 0 2 != 3) = true ↔ val / 2 ^ 0 % 2 = 1 ∧ s.host.alarm % 2 ^ 2 ≠ 3 := by
    simp [bit_true_iff, bits]
  unfold State.clearAlarm State.updHost
  simp only [hb]
  split <;> rfl

/-! ### Beryl's configuration (R352) -/

/-- An episode record is valid. -/
def EpisodeValid (s : State) : Prop := ∃ p ∈ s.hub.mbx, ∃ b, p.2 = some b ∧ b.st ≠ .free ∧ b.epi.toNat / 2 ^ 149 % 2 = 1

theorem episodeValid_iff : (s.hub.mbx.any fun p => match p.2 with
    | some b => b.st != .free && epValid b.epi.toNat
    | none => false) = true ↔ EpisodeValid s := by
  rw [List.any_eq_true]
  refine exists_congr fun p => and_congr_right fun _ => ?_
  cases p.2 with
  | none => simp
  | some b => simp [epValid, bit_true_iff]

theorem putEnvcfg_locked (h : EpisodeValid s) : s.putEnvcfg val = s := if_pos ((episodeValid_iff s).2 h)

theorem putEnvcfg_free (h : ¬ EpisodeValid s) : ∃ v, s.putEnvcfg val = { s with host := { s.host with envcfg := v } } ∧
    v % 2 ^ 7 = val % 2 ^ 7 ∧ v / 2 ^ 7 % 2 ^ 23 = 0 ∧ v / 2 ^ 30 = val % 2 ^ 64 / 2 ^ 30 := by
  refine ⟨_, if_neg (mt (episodeValid_iff s).1 h), ?_, ?_, ?_⟩ <;> simp only [setBits] <;> omega

/-! ### The slices (R82) -/

/-- A region names the slice, or there is no such slice. -/
def SliceNamed (s : State) (n : Nat) : Prop := 192 ≤ n ∨ ∃ p ∈ s.mem.regions, ∃ r, p.2 = some r ∧ r.sfirst ≤ n ∧ n < r.sfirst + r.scount

theorem sliceNamed_iff (n : Nat) : ((s.mem.regions.any fun p => match p.2 with
    | some r => decide (r.sfirst ≤ n) && decide (n < r.sfirst + r.scount)
    | none => false) || decide (192 ≤ n)) = true ↔ SliceNamed s n := by
  rw [Bool.or_eq_true, or_comm, decide_eq_true_eq, List.any_eq_true]
  refine or_congr_right (exists_congr fun p => and_congr_right fun _ => ?_)
  cases p.2 with
  | none => simp
  | some b => simp

/-- The lines that a slice holds. -/
def heldLines (m : MemSt) (n : Nat) : List Nat := (m.htag.map (·.1)).filter fun ln => homeOf (ln * 128) == n

theorem mem_heldLines {m : MemSt} {n ln : Nat} {t : LineTag} (h : m.tag ln = some t) (hn : homeOf (ln * 128) = n) : ln ∈ heldLines m n := by
  have hmem : ∀ l : FMap (Option LineTag), sget none l ln = some t → ln ∈ l.map (·.1) := by
    intro l
    induction l with
    | nil => intro h; cases h
    | cons p l ih =>
      intro h
      obtain ⟨k, v⟩ := p
      by_cases hk : ln = k
      · simp [hk]
      · simp only [sget, if_neg hk] at h
        exact List.mem_cons_of_mem _ (ih h)
  unfold heldLines
  rw [List.mem_filter]
  exact ⟨hmem _ h, by simpa using hn⟩

theorem homeOf_heldLines {m : MemSt} {n ln : Nat} (h : ln ∈ heldLines m n) : homeOf (ln * 128) = n := by
  unfold heldLines at h
  rw [List.mem_filter] at h
  simpa using h.2

theorem foldl_evict (l : List Nat) (m : MemSt) :
    (∀ x, (l.foldl (fun m ln => m.evict ln false) m).tag x = if x ∈ l then none else m.tag x) ∧
      ∀ b, (b / 128 ∈ l → ∀ t, m.tag (b / 128) = some t → t.dirty = true) → (l.foldl (fun m ln => m.evict ln false) m).homeB b = m.homeB b := by
  induction l generalizing m with
  | nil => exact ⟨fun _ => rfl, fun _ _ => rfl⟩
  | cons y l ih =>
    obtain ⟨h1, h2⟩ := ih (m.evict y false)
    refine ⟨fun x => ?_, fun b hb => ?_⟩
    · rw [List.foldl_cons, h1, tag_evict]
      by_cases hx : x ∈ l <;> by_cases hy : x = y <;> simp [hx, hy]
    · rw [List.foldl_cons, h2 b fun hl t ht => ?_, homeB_evict m y b false fun t ht hy => hb (by simp [hy]) t (by rwa [hy])]
      rw [tag_evict] at ht
      by_cases hy : b / 128 = y
      · simp [hy] at ht
      · rw [if_neg hy] at ht
        exact hb (by simp [hl]) t ht

theorem putSlcfg_named {n : Nat} (h : SliceNamed s n) : s.putSlcfg n val = s := if_pos ((sliceNamed_iff s n).2 h)

theorem putSlcfg_free {n : Nat} (h : ¬ SliceNamed s n) : s.putSlcfg n val =
    { s with
      mem := (if 24 ≤ val % 32 then heldLines s.mem n else []).foldl (fun m ln => m.evict ln false) s.mem
      host := { s.host with slcfg := sset 0 s.host.slcfg n (val % 32) } } := if_neg (mt (sliceNamed_iff s n).1 h)

end

/-! ### The management window by offset (R372) -/

section
variable (s : State) (val : Nat)

theorem mgmtWrite_erb {u : Nat} (h : u < 414) : s.mgmtWrite (32 * u) val = s.clearErb u val := by
  rw [State.mgmtWrite, if_neg (by omega), if_pos (by omega), if_pos (by omega), Nat.mul_div_cancel_left _ (by decide)]

theorem mgmtWrite_alarm : s.mgmtWrite 0x4040 val = s.clearAlarm val := rfl

theorem mgmtWrite_envcfg : s.mgmtWrite 0x4048 val = s.putEnvcfg val := rfl

theorem mgmtWrite_ctxmap {n : Nat} (h : n < 64) : s.mgmtWrite (0x4100 + 8 * n) val =
    { s with host := { s.host with ctxmap := sset 0 s.host.ctxmap n (val % 2 ^ 6 + val / 2 ^ 8 % 2 * 256) } } := by
  rw [State.mgmtWrite, if_neg (by omega), if_neg (by omega), if_neg (by omega), if_neg (by omega), if_pos (by omega), State.updHost,
    show (0x4100 + 8 * n - 0x4100) / 8 = n by omega, b2n_bit, bits, Nat.pow_zero, Nat.div_one]

theorem mgmtWrite_route {n : Nat} (h : n < 256) : s.mgmtWrite (0x4400 + 8 * n) val =
    { s with host := { s.host with route := sset 0 s.host.route n (val % 2 ^ 4 + val / 2 ^ 8 % 2 * 256) } } := by
  rw [State.mgmtWrite, if_neg (by omega), if_neg (by omega), if_neg (by omega), if_neg (by omega), if_neg (by omega), if_pos (by omega),
    State.updHost, show (0x4400 + 8 * n - 0x4400) / 8 = n by omega, b2n_bit, bits, Nat.pow_zero, Nat.div_one]

theorem mgmtWrite_actcfg {n : Nat} (h : n < 12) : s.mgmtWrite (0x5000 + 16 * n) val =
    { s with host := { s.host with actcfg := sset actcfgReset s.host.actcfg n (val / 2 ^ 4 % 2 ^ 16 * 16) } } := by
  rw [State.mgmtWrite, if_neg (by omega), if_neg (by omega), if_neg (by omega), if_neg (by omega), if_neg (by omega), if_neg (by omega),
    if_pos (by omega), if_pos (by omega), show (0x5000 + 16 * n - 0x5000) / 16 = n by omega]
  rfl

theorem mgmtWrite_actstat {n : Nat} (h : n < 12) : s.mgmtWrite (0x5008 + 16 * n) val = s.clearActstat n val := by
  rw [State.mgmtWrite, if_neg (by omega), if_neg (by omega), if_neg (by omega), if_neg (by omega), if_neg (by omega), if_neg (by omega),
    if_pos (by omega), if_neg (by omega), show (0x5008 + 16 * n - 0x5000) / 16 = n by omega]

theorem mgmtWrite_slcfg {n : Nat} (h : n < 192) : s.mgmtWrite (0x5400 + 8 * n) val = s.putSlcfg n val := by
  rw [State.mgmtWrite, if_neg (by omega), if_neg (by omega), if_neg (by omega), if_neg (by omega), if_neg (by omega), if_neg (by omega),
    if_neg (by omega), if_pos (by omega), show (0x5400 + 8 * n - 0x5400) / 8 = n by omega]

/-- An offset that is not aligned to its register, or beyond the last, changes nothing. -/
theorem mgmtWrite_none {off : Nat} (h : off % 8 ≠ 0 ∨ (off < 0x33C0 ∧ off % 32 ≠ 0) ∨ 0x5A00 ≤ off) : s.mgmtWrite off val = s := by
  unfold State.mgmtWrite
  by_cases h8 : off % 8 ≠ 0
  · rw [if_pos h8]
  · rw [if_neg h8]
    by_cases hlo : off < 0x33C0
    · rw [if_pos hlo, if_neg (by omega)]
    · rw [if_neg hlo, if_neg (by omega), if_neg (by omega), if_neg (by omega), if_neg (by omega), if_neg (by omega), if_neg (by omega)]

end

/-! ### A context window by offset (R280, R336, R372) -/

section
variable (s : State) (c val : Nat)

theorem putTail_mod (q : Nat) : s.putTail c q (val % 2 ^ 64) = s.putTail c q val := by
  have h : bits (val % 2 ^ 64) 32 32 = bits val 32 32 := by simp only [bits]; omega
  rw [State.putTail, State.putTail, h]

theorem putEvqcfg_mod (q : Nat) : s.putEvqcfg c q (val % 2 ^ 64) = s.putEvqcfg c q val := by
  have h : bit (val % 2 ^ 64) 2 = bit val 2 := by simp only [bit]; congr 2; omega
  simp only [State.putEvqcfg, h, Nat.mod_mod]

theorem ctxWrite_cqcfg {q : Nat} (h : q < 8) : s.ctxWrite c (0x100 + 16 * q) val = s.updCtx c fun x =>
    { x with cqcfg := sset cqcfgReset x.cqcfg q (setBits (setBits (val % 2 ^ 64) 8 4 0) 1 3 0) } := by
  simp only [State.ctxWrite]
  rw [if_neg (by omega), if_neg (by omega), if_neg (by omega), if_neg (by omega), if_neg (by omega), if_neg (by omega), if_neg (by omega),
    if_neg (by omega), if_pos (by omega), if_pos (by omega), show (0x100 + 16 * q - 0x100) / 16 = q by omega]

theorem ctxWrite_cqptr {q : Nat} (h : q < 8) : s.ctxWrite c (0x108 + 16 * q) val = s.putTail c q val := by
  simp only [State.ctxWrite]
  rw [if_neg (by omega), if_neg (by omega), if_neg (by omega), if_neg (by omega), if_neg (by omega), if_neg (by omega), if_neg (by omega),
    if_neg (by omega), if_pos (by omega), if_neg (by omega), show (0x108 + 16 * q - 0x100) / 16 = q by omega, putTail_mod]

theorem ctxWrite_evqcfg {q : Nat} (h : q < 8) : s.ctxWrite c (0x200 + 16 * q) val = s.putEvqcfg c q val := by
  simp only [State.ctxWrite]
  rw [if_neg (by omega), if_neg (by omega), if_neg (by omega), if_neg (by omega), if_neg (by omega), if_neg (by omega), if_neg (by omega),
    if_neg (by omega), if_neg (by omega), if_pos (by omega), if_pos (by omega), show (0x200 + 16 * q - 0x200) / 16 = q by omega, putEvqcfg_mod]

theorem ctxWrite_evqptr {q : Nat} (h : q < 8) : s.ctxWrite c (0x208 + 16 * q) val = s.updCtx c fun x =>
    { x with evqptr := sset 0 x.evqptr q (setBits (sget 0 x.evqptr q) 32 32 (bits (val % 2 ^ 64) 32 32)) } := by
  simp only [State.ctxWrite]
  rw [if_neg (by omega), if_neg (by omega), if_neg (by omega), if_neg (by omega), if_neg (by omega), if_neg (by omega), if_neg (by omega),
    if_neg (by omega), if_neg (by omega), if_pos (by omega), if_neg (by omega), show (0x208 + 16 * q - 0x200) / 16 = q by omega]

/-- A context belongs to a function that it is assigned to (R371). -/
theorem owns_iff (fn : Nat) : s.owns fn c = true ↔
    c < 64 ∧ fn ≤ 32 ∧ sget 0 s.host.ctxmap c / 2 ^ 8 % 2 = 1 ∧ sget 0 s.host.ctxmap c % 2 ^ 6 = fn := by
  simp [State.owns, bit_true_iff, bits, and_assoc]

theorem viaCtx_owner {fn : Nat} (h : s.owns fn c = true) (f : State → State) : s.viaCtx fn c f = f s := if_pos h
theorem viaCtx_stranger {fn : Nat} (h : ¬ s.owns fn c = true) (f : State → State) : s.viaCtx fn c f = s.answer .unsupported := if_neg h

end

/-- What an owner's writes leave of a context window, with the fields of each register (R280, R336, R372, R373). -/
theorem ctxWrite_results (s : State) (c val : Nat) :
    let x := s.ctx c
    let v := val % 2 ^ 64
    let has := fun (n : Nat) => val / 2 ^ n % 2 = 1
    let to_ := fun (y : Ctx) => ({ s with host := { s.host with ctxs := sset Ctx.reset s.host.ctxs c y } } : State)
    (∃ n, s.ctxWrite c 0x30 val = to_ { x with lring := n } ∧ n % 2 = v % 2 ∧ n / 2 % 2 ^ 7 = 0 ∧ n / 2 ^ 8 = v / 2 ^ 8) ∧
    ∀ q < 8, (∃ n, s.ctxWrite c (0x100 + 16 * q) val = to_ { x with cqcfg := sset cqcfgReset x.cqcfg q n } ∧ n % 2 = v % 2 ∧ n / 2 % 2 ^ 3 = 0 ∧
        n / 2 ^ 4 % 2 ^ 4 = v / 2 ^ 4 % 2 ^ 4 ∧ n / 2 ^ 8 % 2 ^ 4 = 0 ∧ n / 2 ^ 12 = v / 2 ^ 12) ∧
      (∃ n, s.putTail c q val = to_ { x with cqptr := sset 0 x.cqptr q n } ∧ n % 2 ^ 32 = sget 0 x.cqptr q % 2 ^ 32 ∧
        n / 2 ^ 32 % 2 ^ 32 = val / 2 ^ 32 % 2 ^ 32) ∧
      (∃ n, s.putEvqcfg c q val = to_ { x with evqcfg := sset evqcfgReset x.evqcfg q n } ∧ n % 2 = v % 2 ∧ n / 2 % 2 = 0 ∧
        n / 2 ^ 2 % 2 ^ 6 = (if has 2 then 0 else sget evqcfgReset x.evqcfg q / 2 ^ 2 % 2 ^ 6) ∧ n / 2 ^ 8 = v / 2 ^ 8) ∧
      ∃ n, s.ctxWrite c (0x208 + 16 * q) val = to_ { x with evqptr := sset 0 x.evqptr q n } ∧ n % 2 ^ 32 = sget 0 x.evqptr q % 2 ^ 32 ∧
        n / 2 ^ 32 % 2 ^ 32 = val / 2 ^ 32 % 2 ^ 32 := by
  intro x v has to_
  refine ⟨⟨_, rfl, ?_⟩, fun q hq => ⟨⟨_, ctxWrite_cqcfg s c val hq, ?_⟩, ⟨_, rfl, ?_⟩, ⟨_, rfl, ?_⟩, _, ctxWrite_evqptr s c val hq, ?_⟩⟩
  · simp only [setBits, v]; omega
  · simp only [setBits, v]; omega
  · simp only [setBits, bits, x]; omega
  · by_cases h2 : has 2
    · simp only [setBits, bits, v, if_pos h2, (bit_true_iff val 2).2 h2, if_true]; omega
    · simp only [setBits, bits, v, if_neg h2, if_neg (mt (bit_true_iff val 2).1 h2), x]; omega
  · simp only [setBits, bits, x]; omega

section
variable (s : State) (val : Nat)

/-- What a write of a slice's configuration leaves (R82). -/
theorem slcfgWrite_results (n : Nat) :
    let after : HostSt := { s.host with slcfg := sset 0 s.host.slcfg n (val % 32) }
    let runs := exec (.tureenSlcfgWrite n val) s
    (SliceNamed s n → runs = .next s) ∧ (¬ SliceNamed s n → val % 32 < 24 → runs = .next { s with host := after }) ∧
      (¬ SliceNamed s n → 24 ≤ val % 32 → ∃ t, runs = .next t ∧ t.host = after ∧ t.rs = s.rs ∧ t.blocks = s.blocks ∧
        (∀ ln, t.mem.tag ln = if homeOf (ln * 128) = n then none else s.mem.tag ln) ∧
        ∀ a, (homeOf (a / 128 * 128) = n → ∀ tg, s.mem.tag (a / 128) = some tg → tg.dirty = true) → t.mem.homeB a = s.mem.homeB a) := by
  intro after runs
  have hruns : runs = .next (s.putSlcfg n val) := rfl
  refine ⟨fun h => by rw [hruns, putSlcfg_named s val h], fun h hv => ?_, fun h hv => ?_⟩
  · rw [hruns, putSlcfg_free s val h, if_neg (by omega)]
    rfl
  · obtain ⟨htag, hread⟩ := foldl_evict (heldLines s.mem n) s.mem
    have hput := putSlcfg_free s val h
    rw [if_pos hv] at hput
    refine ⟨s.putSlcfg n val, hruns, ?_⟩
    rw [hput]
    refine ⟨rfl, rfl, rfl, fun ln => (htag ln).trans ?_, fun a ha => hread a fun hin => ha (homeOf_heldLines hin)⟩
    by_cases hn : homeOf (ln * 128) = n
    · rw [if_pos hn]
      cases ht : s.mem.tag ln with
      | none => exact ite_self none
      | some t => exact if_pos (mem_heldLines ht hn)
    · rw [if_neg hn, if_neg fun hin => hn (homeOf_heldLines hin)]

/-- What a write of a core's carve leaves (R105). -/
theorem dccfgWrite_results (n : Nat) : (192 ≤ n ∨ s.coreGroups n ≠ [] → exec (.coreDccfgWrite n val) s = .next s) ∧
    (n < 192 → s.coreGroups n = [] → exec (.coreDccfgWrite n val) s = .next { s with
      mem := { s.mem with copies := s.mem.copies.filter fun c => c.core != n }
      host := { s.host with dccfg := sset 0 s.host.dccfg n (val % 4) } }) := by
  have hc : (!(s.coreGroups n).isEmpty || decide (Config.cores ≤ n)) = true ↔ 192 ≤ n ∨ s.coreGroups n ≠ [] := by
    rw [Bool.or_eq_true, or_comm, decide_eq_true_eq, Bool.not_eq_true', List.isEmpty_eq_false_iff]
    rfl
  refine ⟨fun h => congrArg Host.Outcome.next (if_pos (hc.2 h)), fun h hn => congrArg Host.Outcome.next (if_neg (mt hc.1 ?_))⟩
  rintro (h' | h')
  · omega
  · exact h' hn

/-- The creation of a context (R302, R373). -/
theorem contextCreation_results (c : Nat) :
    (c < 64 → (∀ l ∈ s.launches, l.ctx ≠ c) →
      exec (.contextCreation c) s = .next (s.updCtx c fun x => { x with made := true, nextLid := 1, lrcnt := 0 })) ∧
    (64 ≤ c ∨ (∃ l ∈ s.launches, l.ctx = c) → exec (.contextCreation c) s = .next s) := by
  have hc : (decide (64 ≤ c) || s.launches.any fun l => l.ctx == c) = true ↔ 64 ≤ c ∨ ∃ l ∈ s.launches, l.ctx = c := by simp
  refine ⟨fun h hn => congrArg Host.Outcome.next (if_neg (mt hc.1 ?_)), fun h => congrArg Host.Outcome.next (if_pos (hc.2 h))⟩
  rintro (h' | ⟨l, hl, hx⟩)
  · omega
  · exact hn l hl hx

end

/-- Settles O50: each register by its offset, and each function's windows. -/
theorem registerResults : Obligations.RegisterResults := by
  intro s val h host mgmt refused has
  have hm : ∀ {off t}, s.mgmtWrite off val = t → mgmt off = .next t := fun e => congrArg Host.Outcome.next e
  refine ⟨fun fn off hf => congrArg Host.Outcome.next (if_neg hf), fun u hu => hm (mgmtWrite_erb s val hu), hm rfl, hm rfl,
    fun n hn => ?_, fun n hn => hm (mgmtWrite_slcfg s val hn), fun n hn => hm (mgmtWrite_ctxmap s val hn),
    fun n hn => hm (mgmtWrite_route s val hn), fun n hn => hm (mgmtWrite_actcfg s val hn), fun off ho => hm (mgmtWrite_none s val ho),
    fun u => ⟨fun h63 => congrArg Host.Outcome.next (clearErb_idle s val h63), fun e h63 he => ?_⟩, fun n hn => ?_,
    fun n hn => congrArg Host.Outcome.next (if_neg (Nat.not_lt.2 hn)), ?_, fun n => ?_, dccfgWrite_results s val, ?_, fun c => ?_⟩
  · rw [hm (mgmtWrite_actstat s val hn)]
    exact congrArg Host.Outcome.next (if_pos hn).symm
  · obtain ⟨h1, h2⟩ := clearErb_results s val h63 he
    exact ⟨fun hn => congrArg Host.Outcome.next (h1 hn), fun k x hn =>
      ⟨fun hk => congrArg Host.Outcome.next ((h2 k x hn).1 hk), fun hk => congrArg Host.Outcome.next ((h2 k x hn).2 hk)⟩⟩
  · obtain ⟨v, hv, hlo, hhi⟩ := clearActstat_results s val n
    exact ⟨v, congrArg Host.Outcome.next ((if_pos hn).trans hv), hlo, hhi⟩
  · refine (congrArg Host.Outcome.next (clearAlarm_eq s val)).trans ?_
    rw [apply_ite Host.Outcome.next]
  · obtain ⟨h1, h2, h3⟩ := slcfgWrite_results s val n
    refine ⟨h1, h2, fun hn hv => ?_⟩
    obtain ⟨t, ht, hhost, hrs, hblocks, hmem⟩ := h3 hn hv
    exact ⟨t, ht, hhost, hrs, hblocks, fun _ _ _ _ => hmem⟩
  · refine ⟨fun hv => congrArg Host.Outcome.next (putEnvcfg_locked s val hv), fun hv => ?_⟩
    obtain ⟨v, hput, hfields⟩ := putEnvcfg_free s val hv
    exact ⟨v, congrArg Host.Outcome.next hput, hfields⟩
  · intro x mine to_ v
    obtain ⟨hmake, hkeep⟩ := contextCreation_results s c
    refine ⟨hmake, hkeep, fun fn hn => ?_, fun fn hf => ?_⟩
    · have hs := fun f => viaCtx_stranger s c (mt (owns_iff s c fn).1 hn) f
      exact ⟨fun off => congrArg Host.Outcome.next (hs _), fun q => ⟨congrArg Host.Outcome.next (hs _), congrArg Host.Outcome.next (hs _)⟩⟩
    · have hs := fun f => viaCtx_owner s c ((owns_iff s c fn).2 hf) f
      intro write
      have hw : ∀ {off t}, s.ctxWrite c off val = t → write off = .next t := fun e => congrArg Host.Outcome.next ((hs _).trans e)
      have htail : ∀ q < 8, exec (.cqTailWrite fn c q val) s = .next (s.putTail c q val) := fun q hq =>
        congrArg Host.Outcome.next ((hs _).trans (if_pos hq))
      have hlost : ∀ q < 8, exec (.evqLostClear fn c q val) s = .next (s.putEvqcfg c q val) := fun q hq =>
        congrArg Host.Outcome.next ((hs _).trans (if_pos hq))
      obtain ⟨⟨n, hring, hringf⟩, hq⟩ := ctxWrite_results s c val
      refine ⟨hw rfl, hw rfl, hw rfl, hw rfl, hw rfl, hw rfl, ⟨n, hw hring, hringf⟩, hw rfl, fun q hlt => ?_, fun q hge => ?_⟩
      · obtain ⟨⟨n1, h1, f1⟩, ⟨n2, h2, f2⟩, ⟨n3, h3, f3⟩, n4, h4, f4⟩ := hq q hlt
        refine ⟨⟨n1, hw h1, f1⟩, ?_, ?_, ⟨n2, ?_, f2⟩, ⟨n3, ?_, f3⟩, n4, hw h4, f4⟩
        · rw [htail q hlt, hw (ctxWrite_cqptr s c val hlt)]
        · rw [hlost q hlt, hw (ctxWrite_evqcfg s c val hlt)]
        · rw [htail q hlt, h2]
        · rw [hlost q hlt, h3]
      · have hno := Nat.not_lt.2 hge
        exact ⟨congrArg Host.Outcome.next ((hs _).trans (if_neg hno)), congrArg Host.Outcome.next ((hs _).trans (if_neg hno))⟩

end Sys2Proof.Proofs
end

section
/-!
PROOFS. Blocks that nothing completes in (R126, R273): where no fibre has arrived at a barrier or a collective, settling a block changes nothing.
-/
namespace Sys2Proof.Proofs
open Sys2Proof Sys2Proof.Machine Sys2Proof.Laws

/-- The fibre has not arrived at a barrier or at a collective instruction. -/
def Unarrived (y : Fibre) : Prop := y.stat ≠ .bar ∧ y.stat ≠ .barCl ∧ ∀ i held, y.stat ≠ .coll i held

/-- No fibre of the block has arrived anywhere. -/
def Idle (s : State) (bk : Nat) : Prop := ∀ k y, s.fib k = some y → fkBk k = bk → Unarrived y

theorem unarrived_ready {y : Fibre} (h : y.stat = .ready) : Unarrived y := by simp [Unarrived, h]

theorem unarrived_page {y : Fibre} {q : Nat} (h : y.stat = .page q) : Unarrived y := by simp [Unarrived, h]

theorem idle_of_allReady {s : State} {bk : Nat} (h : s.allReady bk) : Idle s bk := fun k y hk hb => unarrived_ready (h k y hk hb)

theorem keyOfStat_unarrived {y : Fibre} (h : Unarrived y) (core g pc : Nat) : keyOfStat core g pc y.stat = none := by
  obtain ⟨hbar, hcl, hcoll⟩ := h
  unfold keyOfStat
  split
  case h_1 e => exact absurd e hbar
  case h_2 e => exact absurd e hcl
  case h_7 => rfl
  all_goals exact absurd (by assumption) (hcoll _ _)

theorem foldl_id {α β : Type} {f : α → β → α} {a : α} (h : ∀ b, f a b = a) (l : List β) : l.foldl f a = a := by
  induction l with
  | nil => rfl
  | cons b l ih => rw [List.foldl_cons, h, ih]

section
variable {s : State} {bk : Nat}

theorem blockFibs_bk {fk : Nat} (h : fk ∈ s.blockFibs bk) : fkBk fk = bk := by
  simp only [State.blockFibs, List.mem_map, List.mem_filter, Bool.and_eq_true, beq_iff_eq] at h
  obtain ⟨p, ⟨-, hp, -⟩, rfl⟩ := h
  exact hp

theorem genFibs_subset (key : Nat) : s.genFibs bk key ⊆ s.blockFibs bk := by
  unfold State.genFibs State.coreFibs State.groupFibs
  intro fk h
  dsimp only at h
  split at h
  · exact List.mem_of_mem_filter h
  · split at h
    · exact h
    · split at h
      · exact List.mem_of_mem_filter h
      · split at h
        · exact List.mem_of_mem_filter h
        · exact h

theorem arrived_idle (h : Idle s bk) (key : Nat) : s.arrived bk key = [] := by
  unfold State.arrived
  refine List.filter_eq_nil_iff.2 fun fk hfk => ?_
  cases hy : s.fib fk with
  | none => simp
  | some y => simp [keyOfStat_unarrived (h fk y hy (blockFibs_bk (genFibs_subset key hfk)))]

theorem settleBar_idle (h : Idle s bk) (key : Nat) : s.settleBar bk key = s := by
  refine if_neg fun hr => ?_
  simp only [State.barReady, arrived_idle h, List.length_nil, Bool.and_eq_true, Bool.not_eq_true', beq_iff_eq] at hr
  obtain ⟨⟨hne, hlen⟩, -⟩ := hr
  simp [List.eq_nil_of_length_eq_zero hlen.symm] at hne

theorem collective_idle (h : Idle s bk) {fs : List Nat} (hfs : fs ⊆ s.blockFibs bk) : s.collective fs = none := by
  unfold State.collective
  cases fs with
  | nil => rfl
  | cons fk fs =>
    cases hy : s.fib fk with
    | none => simp only [hy]
    | some y =>
      obtain ⟨-, -, hcoll⟩ := h fk y hy (blockFibs_bk (hfs (.head _)))
      simp only [hy]

theorem settleGroup_idle (h : Idle s bk) (g : Nat) : s.settleGroup bk g = s := by
  simp only [State.settleGroup, collective_idle h (fs := s.groupFibs bk g) fun _ => List.mem_of_mem_filter]

theorem settleSort_idle (h : Idle s bk) (core : Nat) : s.settleSort bk core = s := by
  simp only [State.settleSort, collective_idle h (fs := s.coreFibs bk core) fun _ => List.mem_of_mem_filter]

theorem settleBlock_idle (h : Idle s bk) : s.settleBlock bk = s := by
  simp only [State.settleBlock, collective_idle h (List.Subset.refl _)]

theorem settle_idle (h : Idle s bk) : s.settle bk = s := by
  unfold State.settle
  cases s.block? bk with
  | none => rfl
  | some b =>
    dsimp only
    split
    · rfl
    · have hbars := foldl_id (f := fun (s : State) c => s.settleBar bk (keyBarCl c)) (a := s) (fun c => settleBar_idle h (keyBarCl c)) b.cores
      have hgroups := foldl_id (f := fun (s : State) g => s.settleGroup bk g) (a := s) (settleGroup_idle h) (span 0 b.ngrp)
      have hsorts := foldl_id (f := fun (s : State) c => s.settleSort bk c) (a := s) (settleSort_idle h) b.cores
      rw [settleBar_idle h, hbars, hgroups, hsorts, settleBlock_idle h]

end

/-- Without operations nothing retires, and where no fibre has arrived nothing completes. -/
theorem settleRunning_idle {s : State} (ho : s.ops = []) (h : ∀ bk, Idle s bk) : s.settleRunning = s := by
  have hsweep : s.sweep = s := by unfold State.sweep; rw [ho]; cases s; cases ho; rfl
  unfold State.settleRunning
  rw [hsweep, foldl_id fun bk => settle_idle (h bk)]

/-! ### Operations -/

/-- What retires of a single complete operation: it stays while the tick has not passed its write completion times (R241). -/
theorem sweep_one {s : State} {o : Op} {x : Lane} (ho : s.ops = [o]) (hx : o.lanes = [x]) (hf : o.fin = true) :
    s.sweep = { s with ops := if o.kind.stores = true ∧ (s.tickOf o ≤ x.wct ∨ s.tickOf o ≤ x.wct4) then [o] else [] } := by
  have hw : o.maxWct = x.wct := by simp [Op.maxWct, hx]
  have hw4 : o.maxWct4 = x.wct4 := by simp [Op.maxWct4, hx]
  have hkeep : sweepOps (fun core => s.tickOn (quadOf core)) [o] =
      if o.kind.stores = true ∧ (s.tickOf o ≤ x.wct ∨ s.tickOf o ≤ x.wct4) then [o] else [] := by
    simp only [sweepOps, List.filter_cons, List.filter_nil, hw, hw4, hf, State.tickOf]
    cases o.kind.stores
    · simp
    · by_cases hwct : s.tickOn (quadOf o.core) ≤ x.wct <;> simp [hwct]
  rw [State.sweep, ho, hkeep]

end Sys2Proof.Proofs
end

section
/-!
PROOFS. What waits for a page or for a side-log entry (R72, R73, R97), the retirement of operations (R241) and the policy version (R370).
-/
namespace Sys2Proof.Proofs
open Sys2Proof Sys2Proof.Machine Sys2Proof.Laws

/-! ### One operation of one lane -/

/-- A lane that acts for its own fibre. -/
theorem fibres_one {x : Lane} (h : x.dl = 2 ^ fkL x.fk) : x.fibres = [x.fk] := by
  have hone : ∀ k < 64, (span 0 64).filter (fun l => decide (k = l)) = [k] := by decide
  have hbits : (fun l => bit x.dl l) = fun l => decide (fkL x.fk = l) := by
    funext l
    rw [h, bit_eq, Nat.testBit_two_pow]
  unfold Lane.fibres
  rw [hbits, hone (fkL x.fk) (Nat.mod_lt _ (by decide)), List.map_singleton]
  congr 1
  simp only [fkOf, fkBk, fkG, fkL]
  omega

section
variable {s : State} {o : Op} {x : Lane}

theorem lanesIn_none (ho : s.ops = []) (p : Op → Lane → Bool) : s.lanesIn p = [] := by
  unfold State.lanesIn
  rw [ho]
  rfl

variable (ho : s.ops = [o]) (hx : o.lanes = [x])
include ho

theorem op?_one : s.op? o.id = some o := by simp [State.op?, ho]

theorem updOp_one (f : Op → Op) : s.updOp o.id f = { s with ops := [f o] } := by simp [State.updOp, ho, updFirst]

include hx

theorem lanesIn_one (p : Op → Lane → Bool) : s.lanesIn p = if p o x then [(o, 0, x)] else [] := by
  unfold State.lanesIn
  simp only [ho, hx, List.flatMap_cons, List.flatMap_nil, List.append_nil, List.mapIdx_cons, List.mapIdx_nil, List.filter_cons, List.filter_nil]

theorem setLane_one (f : Lane → Lane) : s.setLane o.id 0 f = { s with ops := [{ o with lanes := [f x] }] } := by
  rw [State.setLane, updOp_one ho]
  simp [Op.updLane, hx]

end

/-! ### A store without a side-log entry (R73) -/

section
variable {s : State} {o : Op} {x : Lane}

theorem exec_sideLogEntryFree (ho : s.ops = [o]) (hx : o.lanes = [x]) (hst : x.st = .sideFull) :
    exec (.sideLogEntryFree o.core) s = .next (s.retryStore o 0 x) := by
  refine congrArg Host.Outcome.next ?_
  rw [lanesIn_one ho hx, if_pos (by simp [hst])]
  rfl

theorem sideUsed_sideFull (ho : s.ops = [o]) (hx : o.lanes = [x]) (hst : x.st = .sideFull) : s.sideUsed o.core = 0 := by
  have hside : LStat.isSide .sideFull = false := rfl
  simp [State.sideUsed, ho, hx, hst, hside]

theorem recheck_store (hk : o.kind = .st) (hset : o.fset = false) : s.recheck o x = s.check (s.ctxOf o.bk) x.ptr o.n o.n .store false := by
  simp only [State.recheck, hk, hset]
  cases s.check (s.ctxOf o.bk) x.ptr o.n o.n .store false <;> rfl

theorem laneFibs_parked {y : Fibre} (hdl : x.dl = 2 ^ fkL x.fk) (hy : s.fib x.fk = some y) (hys : y.stat = .sideFull) (hpc : y.pc = o.pc) :
    s.laneFibs o x = [x.fk] := by
  simp [State.laneFibs, fibres_one hdl, hy, hys, hpc]

variable (hl : s.laneFibs o x = [x.fk]) {t : Tgt}
include hl

theorem retryStore_ok (h : s.recheck o x = .ok t) :
    s.retryStore o 0 x = ((s.touch (s.ctxOf o.bk) t).setLane o.id 0 fun x => { x with tgt := t, st := .pending }).advance x.fk := by
  unfold State.retryStore
  rw [h, hl]
  rfl

theorem retryStore_absent (h : s.recheck o x = .absent t) (hroom : s.sideUsed o.core < Config.sideLogEntries) : s.retryStore o 0 x =
    ({ (s.setLane o.id 0 fun x => { x with tgt := t, st := .side s.seq }).request (s.ctxOf o.bk) (s.globalPtr o.kind.tureen t x.ptr) with
      seq := s.seq + 1 } : State).advance x.fk := by
  unfold State.retryStore
  rw [h, hl]
  exact if_pos hroom

end

theorem mem_request (s : State) (c p : Nat) : (c, p % 2 ^ 56 / 65536 * 65536) ∈ (s.request c p).mem.preq := by
  unfold State.request
  dsimp only
  split
  · next h => simpa using h
  · simp

theorem sideEntry (s : State) (o : Op) (x : Lane) (ho : s.ops = [o]) (hx : o.lanes = [x]) :
    ∀ y, o.kind = .st → o.fset = false → x.st = .sideFull → x.dl = 2 ^ fkL x.fk → s.fib x.fk = some y → y.stat = .sideFull → y.pc = o.pc →
      let chk := s.check (s.ctxOf o.bk) x.ptr o.n o.n .store false
      let va := x.ptr % 2 ^ 56 / 65536 * 65536
      (∀ tg, chk = .absent tg → ∃ t, exec (.sideLogEntryFree o.core) s = .next t ∧ t.fib x.fk = some y.adv ∧
        t.ops = [{ o with lanes := [{ x with tgt := tg, st := .side s.seq }] }] ∧ (s.ctxOf o.bk, va) ∈ t.mem.preq ∧ t.rs.vregs = s.rs.vregs) ∧
      (∀ pa mt, chk = .ok (.mem pa mt) → ∃ t, exec (.sideLogEntryFree o.core) s = .next t ∧ t.fib x.fk = some y.adv ∧
        t.ops = [{ o with lanes := [{ x with tgt := .mem pa mt, st := .pending }] }] ∧ t.mem = s.mem) := by
  intro y hk hset hst hdl hy hys hpc
  have hl := laneFibs_parked hdl hy hys hpc
  rw [exec_sideLogEntryFree ho hx hst]
  refine ⟨fun tg hc => ⟨_, rfl, ?_⟩, fun pa mt hc => ⟨_, rfl, ?_⟩⟩
  · have hroom : s.sideUsed o.core < Config.sideLogEntries := by rw [sideUsed_sideFull ho hx hst]; decide
    have hptr : s.globalPtr o.kind.tureen tg x.ptr = x.ptr := by rw [hk]; rfl
    rw [retryStore_absent hl ((recheck_store hk hset).trans hc) hroom, hptr, setLane_one ho hx]
    refine ⟨?_, State.advance_ops _ _, ?_, updFib_vregs _ _ _⟩
    · rw [fib_advance, if_pos rfl]
      exact congrArg (Option.map Fibre.adv) hy
    · rw [State.advance_mem]
      exact mem_request _ _ _
  · rw [retryStore_ok hl ((recheck_store hk hset).trans hc), show s.touch (s.ctxOf o.bk) (.mem pa mt) = s from rfl, setLane_one ho hx]
    refine ⟨?_, State.advance_ops _ _, State.advance_mem _ _⟩
    rw [fib_advance, if_pos rfl]
    exact congrArg (Option.map Fibre.adv) hy

/-! ### Retirement (R241) -/

theorem exec_writeCompletionTimePassed {s : State} {o : Op} {x : Lane} (ho : s.ops = [o]) (hx : o.lanes = [x]) (hk : o.kind ≠ .ctxq)
    (hf : o.fin = true) (hr : s.allReady o.bk) : exec (.writeCompletionTimePassed o.id) s =
      .next { s with ops := if o.kind.stores = true ∧ (s.tickOf o ≤ x.wct ∨ s.tickOf o ≤ x.wct4) then [o] else [] } := by
  refine congrArg Host.Outcome.next ?_
  have hrun : s.ctxqRun o.id = s := by
    simp only [State.ctxqRun, op?_one ho]
    exact if_pos hk
  rw [op?_one ho]
  dsimp only
  rw [hrun, State.afterAccess, sweep_one ho hx hf]
  exact settle_idle fun k y hy hb => unarrived_ready (hr k y hy hb)

end Sys2Proof.Proofs
end

section
/-!
PROOFS. The policy version (R370): what the completion of a lane leaves as it was, and an increment that is applied.
-/
namespace Sys2Proof.Proofs
open Sys2Proof Sys2Proof.Machine Sys2Proof.Laws

/-! ### Completing a lane lets fibres go on, and no fibre arrive -/

/-- Every fibre of `t` stands as in `s` or has not arrived anywhere. -/
def Loosens (s t : State) : Prop := ∀ k y, t.fib k = some y → Unarrived y ∨ ∃ z, s.fib k = some z ∧ y.stat = z.stat

theorem Loosens.refl (s : State) : Loosens s s := fun _ y h => .inr ⟨y, h, rfl⟩

theorem Loosens.idle {s t : State} {bk : Nat} (h : Loosens s t) (hs : Idle s bk) : Idle t bk := by
  intro k y hk hb
  rcases h k y hk with hu | ⟨z, hz, he⟩
  · exact hu
  · have hu := hs k z hz hb
    unfold Unarrived at hu ⊢
    rwa [he]

theorem Loosens.trans {s t u : State} (h : Loosens s t) (h' : Loosens t u) : Loosens s u := by
  intro k y hk
  rcases h' k y hk with hu | ⟨z, hz, he⟩
  · exact .inl hu
  · rcases h k z hz with hu | ⟨w, hw, he'⟩
    · left
      unfold Unarrived at hu ⊢
      rwa [he]
    · exact .inr ⟨w, hw, he.trans he'⟩

theorem loosens_advance (s : State) (fk : Nat) : Loosens s (s.advance fk) := by
  intro k y hk
  rw [fib_advance] at hk
  split at hk
  · cases hf : s.fib fk with
    | none => simp [hf] at hk
    | some z =>
      simp only [hf, Option.map_some, Option.some.injEq] at hk
      exact .inl (unarrived_ready (by rw [← hk]; rfl))
  · exact .inr ⟨y, hk, rfl⟩

theorem loosens_updFib (s : State) (fk : Nat) (f : Fibre → Fibre) (hf : ∀ y, (f y).stat = y.stat) : Loosens s (s.updFib fk f) := by
  intro k y hk
  rw [fib_updFib] at hk
  split at hk
  · next e =>
    cases hz : s.fib fk with
    | none => simp [hz] at hk
    | some z =>
      simp only [hz, Option.map_some, Option.some.injEq] at hk
      exact .inr ⟨z, e ▸ hz, by rw [← hk, hf]⟩
  · exact .inr ⟨y, hk, rfl⟩

/-- A state that differs from another in operations and fibres alone. -/
def OnlyLanes (s t : State) : Prop := ∃ ops fs, t = { s with ops := ops, rs := { s.rs with fibres := fs } }

theorem OnlyLanes.advance {s t : State} (h : OnlyLanes s t) (fk : Nat) : OnlyLanes s (t.advance fk) := by
  obtain ⟨ops, fs, rfl⟩ := h
  unfold State.advance State.updFib
  split
  · exact ⟨_, _, rfl⟩
  · exact ⟨_, _, rfl⟩

/-- The completion of a lane changes its operation, and fibres that wait for it go on. -/
theorem doneLane_frame (s : State) (id k : Nat) (f : Lane → Lane) : OnlyLanes s (s.doneLane id k f) ∧ Loosens s (s.doneLane id k f) := by
  have hsame : OnlyLanes s s := ⟨s.ops, s.rs.fibres, rfl⟩
  unfold State.doneLane
  cases s.op? id with
  | none => exact ⟨hsame, .refl s⟩
  | some o =>
    cases hx : o.lanes[k]? with
    | none => simp only [hx]; exact ⟨hsame, .refl s⟩
    | some x =>
      simp only [hx]
      refine List.foldlRecOn (span 0 64) _ (motive := fun t => OnlyLanes s t ∧ Loosens s t)
        ⟨⟨_, s.rs.fibres, rfl⟩, .refl s⟩ fun t ht l _ => ?_
      split
      · split
        · split
          · exact ⟨ht.1.advance _, ht.2.trans (loosens_advance t _)⟩
          · exact ht
        · exact ht
      · exact ht

/-! ### A uniform result that arrives (R265) -/

theorem writeBackD_uniform {s : State} {o : Op} {b : Block} {r : Nat} (hb : s.block? o.bk = some b) (hf : b.frames = []) (hd : o.d = .s r) (x : Lane)
    (v : Nat) (p : Bool) : ∃ bs, s.writeBackD o x true v p =
      { ({ s with rs := s.rs.putU (ukOf o.bk o.g r) v p } : State).updFib x.fk (Fibre.liveU r) with bundles := bs } := by
  have hput : s.putBackD o x true v p = ({ s with rs := s.rs.putU (ukOf o.bk o.g r) v p } : State).updFib x.fk (Fibre.liveU r) := by
    simp only [State.putBackD, hd, if_true]
    exact setUP_frameless hb hf _ _ _ _ _
  unfold State.writeBackD
  rw [hput]
  dsimp only
  split
  · exact ⟨_, rfl⟩
  · exact ⟨_, rfl⟩

/-! ### An increment (R370) -/

theorem sc4Ready_first {s : State} {o : Op} (ho : s.ops = [o]) : s.sc4Ready o = true := by
  have hb : s.before o.id = [] := by simp [State.before, ho]
  simp [State.sc4Ready, hb]

theorem turnLanes_one {s : State} {o : Op} {x : Lane} (ho : s.ops = [o]) (hx : o.lanes = [x]) (hst : x.st = .pending) : s.turnLanes o = [(o, 0, x)] := by
  have hp : x.st.isDone = false := by rw [hst]; rfl
  simp [State.turnLanes, lanesIn_one ho hx, hp, sortBy, sc4Ready_first ho]

def raisePver (l : Launch) : Launch := { l with pver := l.pver + 1 }

/-- The version after an increment, and the report of one past 2^64 − 1. -/
def pverAfter (s : State) (o : Op) (x : Lane) (l : Launch) : State :=
  if l.pver + 1 < 2 ^ 64 then (s.updLaunch l.lid raisePver).effect o.bk
  else s.reportFault o.bk { code := FClass.ac.code, pc := o.pc, det := 2 ^ 64 - 1, grp := fkG x.fk, lane := fkL x.fk } o.frame

theorem exec_policyVersionApply {s : State} {o : Op} {x : Lane} {l : Launch} (ho : s.ops = [o]) (hx : o.lanes = [x]) (hk : o.kind = .pverInc)
    (hst : x.st = .pending) (hl : s.launchOf o.bk = some l) : exec (.policyVersionApply o.id) s = .next
      ((((pverAfter s o x l).writeBackD o x true ((((pverAfter s o x l).launchOf o.bk).map Launch.pver).getD 0) false).doneLane o.id 0 fun x => x).afterAccess
        o.bk) := by
  refine congrArg Host.Outcome.next ?_
  have hlane : s.pverLane o 0 x =
      ((pverAfter s o x l).writeBackD o x true ((((pverAfter s o x l).launchOf o.bk).map Launch.pver).getD 0) false).doneLane o.id 0 fun x => x := by
    unfold State.pverLane
    rw [hl]
    dsimp only
    generalize hu : (if l.pver + 1 < 2 ^ 64 then _ else _ : State) = u
    have hafter : pverAfter s o x l = u := hu
    rw [hafter]
    cases u.launchOf o.bk <;> rfl
  rw [op?_one ho]
  dsimp only
  rw [if_neg (not_not.2 hk), turnLanes_one ho hx hst]
  simp only [List.foldl_cons, List.foldl_nil, hlane]

theorem launchOf_eq {s : State} {bk : Nat} {b : Block} (hb : s.block? bk = some b) : s.launchOf bk = s.launch? b.lid := by
  simp only [State.launchOf, hb]

theorem launch?_updLaunch (s : State) (lid : Nat) (f : Launch → Launch) (hf : ∀ l, (f l).lid = l.lid) :
    (s.updLaunch lid f).launch? lid = (s.launch? lid).map f :=
  find?_updFirst _ _ _ fun l => by simp [hf]

theorem lid_of_launch? {s : State} {lid : Nat} {l : Launch} (h : s.launch? lid = some l) : l.lid = lid := by
  simpa using List.find?_some h

/-- A block in which no fibre has arrived anywhere is not entering a frame (R320). -/
theorem entering_idle {s : State} {bk : Nat} (hs : Idle s bk) : s.entering bk = false := by
  unfold State.entering
  cases hfs : s.blockFibs bk with
  | nil => rfl
  | cons fk fs =>
    have hfk : fkBk fk = bk := blockFibs_bk (hfs ▸ List.mem_cons_self)
    simp only [List.isEmpty_cons, Bool.not_false, Bool.true_and, List.all_cons]
    cases hy : s.fib fk with
    | none => rfl
    | some y =>
      obtain ⟨-, -, hcoll⟩ := hs fk y hy hfk
      dsimp only
      rw [Bool.and_eq_false_iff]
      left
      split
      · next e => exact absurd e (hcoll _ _)
      · rfl

theorem running_not_deaf {s : State} {bk : Nat} {b : Block} (hb : s.block? bk = some b) (hr : b.running = true) (hs : Idle s bk) : s.deaf bk = false := by
  obtain ⟨hst, hm⟩ : b.st = .resident ∧ b.mode = .run := by simpa [Block.running] using hr
  simp [State.deaf, hb, hst, hm, entering_idle hs]

/-- What an increment leaves, before its register is written. -/
theorem pverAfter_eq {s : State} {o : Op} {b : Block} {l : Launch} (x : Lane) (hs : Idle s o.bk) (hb : s.block? o.bk = some b) (hr : b.running = true)
    (hl : s.launch? b.lid = some l) : (pverAfter s o x l).rs = s.rs ∧ ∃ c, (pverAfter s o x l).block? o.bk = some c ∧ c.frames = b.frames ∧ c.lid = b.lid ∧
      (l.pver + 1 < 2 ^ 64 → (pverAfter s o x l).launch? b.lid = some (raisePver l) ∧ c.reports = b.reports) ∧
      (2 ^ 64 ≤ l.pver + 1 → (pverAfter s o x l).launch? b.lid = some l ∧
        c.reports = b.reports ++ [(⟨4, o.pc, 2 ^ 64 - 1, fkG x.fk, fkL x.fk⟩, o.frame)]) := by
  have hlid := lid_of_launch? hl
  by_cases hlt : l.pver + 1 < 2 ^ 64
  · rw [pverAfter, if_pos hlt]
    have hb' : (s.updLaunch l.lid raisePver).block? o.bk = some b := hb
    have hlaunch : (s.updLaunch l.lid raisePver).launch? b.lid = some (raisePver l) := by
      rw [hlid, launch?_updLaunch s b.lid raisePver fun _ => rfl, hl, Option.map_some]
    refine ⟨rfl, _, block?_updBlock_self hb' fun b => by split <;> rfl, ?_, ?_, fun _ => ⟨hlaunch, ?_⟩, fun h => absurd hlt (by omega)⟩
    all_goals split <;> rfl
  · rw [pverAfter, if_neg hlt, State.reportFault, running_not_deaf hb hr hs, if_neg Bool.false_ne_true, State.pend,
      named_of_det (Nat.sub_lt (by decide) (by decide))]
    exact ⟨rfl, _, block?_updBlock_self hb fun _ => rfl, rfl, rfl, fun h => absurd h hlt, fun _ => ⟨hl, rfl⟩⟩

/-- What a uniform result and the completion of its lane leave. -/
theorem uniformReturn {u : State} {o : Op} {c : Block} {r : Nat} (x : Lane) (v : Nat) (hi : Idle u o.bk) (hc : u.block? o.bk = some c) (hf : c.frames = [])
    (hd : o.d = .s r) : let t := ((u.writeBackD o x true v false).doneLane o.id 0 fun x => x).afterAccess o.bk
    t.blocks = u.blocks ∧ t.launches = u.launches ∧ t.uraw o.bk o.g r = v % 2 ^ 64 := by
  obtain ⟨bs, hw⟩ := writeBackD_uniform hc hf hd x v false
  have hloose : Loosens u (u.writeBackD o x true v false) := by
    rw [hw]
    exact loosens_updFib ({ u with rs := u.rs.putU (ukOf o.bk o.g r) v false } : State) x.fk (Fibre.liveU r) fun _ => rfl
  have hraw : (u.writeBackD o x true v false).uraw o.bk o.g r = v % 2 ^ 64 := by
    rw [hw]
    simp [State.uraw, RegSt.putU]
  have hblocks : (u.writeBackD o x true v false).blocks = u.blocks := by rw [hw]; exact State.updFib_blocks _ _ _
  have hlaunches : (u.writeBackD o x true v false).launches = u.launches := by rw [hw]; exact State.updFib_launches _ _ _
  obtain ⟨⟨ops, fs, hd⟩, hdone⟩ := doneLane_frame (u.writeBackD o x true v false) o.id 0 fun x => x
  have hidle : Idle ((u.writeBackD o x true v false).doneLane o.id 0 fun x => x).sweep o.bk := (hloose.trans hdone).idle hi
  intro t
  have ht : t = ((u.writeBackD o x true v false).doneLane o.id 0 fun x => x).sweep := settle_idle hidle
  rw [ht]
  rw [hd] at *
  exact ⟨hblocks, hlaunches, hraw⟩

theorem policyVersion (s : State) (o : Op) (x : Lane) (ho : s.ops = [o]) (hx : o.lanes = [x]) :
    ∀ r b l, o.kind = .pverInc → o.d = .s r → x.st = .pending → s.allReady o.bk → s.block? o.bk = some b → b.running = true → b.frames = [] →
      s.launch? b.lid = some l →
      ∃ t c, exec (.policyVersionApply o.id) s = .next t ∧ t.block? o.bk = some c ∧
        (l.pver + 1 < 2 ^ 64 → (t.launch? b.lid).map Launch.pver = some (l.pver + 1) ∧ t.uraw o.bk o.g r = l.pver + 1 ∧ c.reports = b.reports) ∧
        (2 ^ 64 ≤ l.pver + 1 → (t.launch? b.lid).map Launch.pver = some l.pver ∧ t.uraw o.bk o.g r = l.pver % 2 ^ 64 ∧
          c.reports = b.reports ++ [(⟨4, o.pc, 2 ^ 64 - 1, fkG x.fk, fkL x.fk⟩, o.frame)]) := by
  intro r b l hk hd hst hready hb hr hf hl
  have hi := idle_of_allReady hready
  obtain ⟨hrs, c, hc, hcf, hclid, hlow, hhigh⟩ := pverAfter_eq x hi hb hr hl
  have hi' : Idle (pverAfter s o x l) o.bk := fun k y hk hbk => hi k y (by rwa [State.fib, hrs] at hk) hbk
  obtain ⟨hblocks, hlaunches, hraw⟩ := uniformReturn x ((((pverAfter s o x l).launchOf o.bk).map Launch.pver).getD 0) hi' hc (hcf.trans hf) hd
  have hexec := exec_policyVersionApply ho hx hk hst ((launchOf_eq hb).trans hl)
  generalize State.afterAccess _ o.bk = t at hexec hblocks hlaunches hraw
  rw [launchOf_eq hc, hclid] at hraw
  refine ⟨t, c, hexec, ?_, fun h => ?_, fun h => ?_⟩
  · rw [State.block?, hblocks]
    exact hc
  · obtain ⟨hl', hrep⟩ := hlow h
    rw [hl'] at hraw
    refine ⟨?_, hraw.trans (Nat.mod_eq_of_lt h), hrep⟩
    rw [State.launch?, hlaunches, ← State.launch?, hl']
    rfl
  · obtain ⟨hl', hrep⟩ := hhigh h
    rw [hl'] at hraw
    refine ⟨?_, hraw, hrep⟩
    rw [State.launch?, hlaunches, ← State.launch?, hl']
    rfl

end Sys2Proof.Proofs
end

section
/-!
PROOFS. Pages that arrive and pages that are refused (R72, R73), with no operation under way.
-/
namespace Sys2Proof.Proofs
open Sys2Proof Sys2Proof.Machine Sys2Proof.Laws

/-! ### Without operations there is nothing to replay, to commit or to issue again -/

section
variable {s : State} (ho : s.ops = [])
include ho

theorem sweep_none : s.sweep = s := by
  unfold State.sweep
  rw [ho]
  cases s
  cases ho
  rfl

theorem replayRange_none (c lo n : Nat) : s.replayRange c lo n = s := by
  simp only [State.replayRange, State.sideOf, State.sideLanes, State.begun, lanesIn_none ho, sortBy, List.foldl_nil]

theorem commitRun_none (bk : Nat) : s.commitRun bk = s := by
  have h : s.commitRun bk = s.sweep := by
    unfold State.commitRun
    rw [ho]
    rfl
  rw [h, sweep_none ho]

theorem commitAll_none (c : Nat) : s.commitAll c = s := foldl_id (f := fun (s : State) (b : Block) => s.commitRun b.uid) (fun b => commitRun_none ho b.uid) _

theorem arriveRecv_none : s.arriveRecv = s := by
  unfold State.arriveRecv
  rw [lanesIn_none ho]
  rfl

theorem mailPage_none (c : Nat) : s.mailPage c = s := by
  unfold State.mailPage
  rw [lanesIn_none ho]
  change ((s.lanesIn _).foldl _ s).arriveRecv = s
  rw [lanesIn_none ho]
  exact arriveRecv_none ho

end

/-! ### What was parked on a page resumes (R72) -/

/-- A fibre parked on a page of the range of its context is ready again. -/
def resumed (s : State) (c lo n k : Nat) (y : Fibre) : Fibre :=
  match y.stat with
  | .page q => if s.ctxOf (fkBk k) = c ∧ inVa lo n q = true then { y with stat := .ready } else y
  | _ => y

theorem resumed_unarrived {s : State} {c lo n k : Nat} {y : Fibre} (h : Unarrived y) : Unarrived (resumed s c lo n k y) := by
  unfold resumed
  split
  · split
    · exact unarrived_ready rfl
    · exact h
  · exact h

/-- A state that differs from another in fibres alone. -/
def OnlyFibres (s t : State) : Prop := ∃ fs, t = { s with rs := { s.rs with fibres := fs } }

theorem OnlyFibres.setStat {s t : State} (h : OnlyFibres s t) (k : Nat) (st : FStat) : OnlyFibres s (t.setStat k st) := by
  obtain ⟨fs, rfl⟩ := h
  unfold State.setStat State.updFib
  split
  · exact ⟨_, rfl⟩
  · exact ⟨_, rfl⟩

/-- One step of the pass over the fibres, with no operation under way. -/
def resumeOne (s : State) (c lo n : Nat) (t : State) (p : Nat × Option Fibre) : State :=
  match p.2 with
  | some f => match f.stat with
    | .page q => if s.ctxOf (fkBk p.1) = c ∧ inVa lo n q = true then t.setStat p.1 .ready else t
    | _ => t
  | none => t

theorem resumeOne_fibres {s t : State} (h : OnlyFibres s t) (c lo n : Nat) (p : Nat × Option Fibre) : OnlyFibres s (resumeOne s c lo n t p) := by
  unfold resumeOne
  split
  · split
    · split
      · exact h.setStat _ _
      · exact h
    · exact h
  · exact h

theorem resumeOne_fib {s t : State} (c lo n : Nat) {p : Nat × Option Fibre} (hp : t.fib p.1 = p.2) (k : Nat) :
    (resumeOne s c lo n t p).fib k = if k = p.1 then p.2.map (resumed s c lo n k) else t.fib k := by
  obtain ⟨j, v⟩ := p
  by_cases hk : k = j
  · subst hk
    rw [if_pos rfl]
    cases v with
    | none => exact hp
    | some f =>
      unfold resumeOne resumed
      dsimp only [Option.map_some]
      cases f.stat
      case page q =>
        dsimp only
        split
        · simp [State.setStat, show t.fib k = some f from hp]
        · exact hp
      all_goals exact hp
  · rw [if_neg hk]
    unfold resumeOne
    split
    · split
      · split
        · simp [State.setStat, hk]
        · rfl
      · rfl
    · rfl

/-- A list of fibres of one state, each key once. -/
theorem foldl_resumeOne {s : State} (c lo n : Nat) (l : List (Nat × Option Fibre)) (hl : (l.map Prod.fst).Nodup) (t : State) (ht : OnlyFibres s t)
    (hlt : ∀ p ∈ l, t.fib p.1 = p.2) : OnlyFibres s (l.foldl (resumeOne s c lo n) t) ∧
      ∀ k, (l.foldl (resumeOne s c lo n) t).fib k = if k ∈ l.map Prod.fst then (t.fib k).map (resumed s c lo n k) else t.fib k := by
  induction l generalizing t with
  | nil => exact ⟨ht, fun _ => rfl⟩
  | cons p l ih =>
    obtain ⟨hp, hl⟩ := List.nodup_cons.1 hl
    have hstep := resumeOne_fib (s := s) c lo n (hlt p (.head _))
    obtain ⟨h1, h2⟩ := ih hl (resumeOne s c lo n t p) (resumeOne_fibres ht c lo n p) fun q hq => by
      have hne : q.1 ≠ p.1 := fun e => hp (e ▸ List.mem_map_of_mem hq)
      rw [hstep, if_neg hne]
      exact hlt q (.tail _ hq)
    refine ⟨h1, fun k => ?_⟩
    rw [List.foldl_cons, h2, hstep]
    by_cases hk : k = p.1
    · subst hk
      simp [hp, hlt p (.head _)]
    · simp only [List.map_cons, List.mem_cons, hk, false_or, if_false]

/-! ### Keys of a canonical map -/

theorem nodup_keys {β : Type} [DecidableEq β] {d : β} {m : FMap β} (h : swf d m = true) : (m.map Prod.fst).Nodup := by
  induction m with
  | nil => exact .nil
  | cons p m ih =>
    obtain ⟨-, hm, hlt⟩ := (swf_cons d p.1 p.2 m).1 h
    refine List.nodup_cons.2 ⟨fun hp => ?_, ih hm⟩
    obtain ⟨q, hq, he⟩ := List.mem_map.1 hp
    exact absurd (hlt q hq) (by omega)

theorem sget_of_mem {β : Type} [DecidableEq β] {d : β} {m : FMap β} (h : swf d m = true) {p : Nat × β} (hp : p ∈ m) : sget d m p.1 = p.2 := by
  induction m with
  | nil => cases hp
  | cons q m ih =>
    obtain ⟨-, hm, hlt⟩ := (swf_cons d q.1 q.2 m).1 h
    rcases List.mem_cons.1 hp with rfl | hp
    · exact if_pos rfl
    · exact (if_neg (by have := hlt p hp; omega)).trans (ih hm hp)

theorem sget_of_key {β : Type} [DecidableEq β] (d : β) {m : FMap β} {k : Nat} (h : k ∉ m.map Prod.fst) : sget d m k = d := by
  by_contra hv
  exact h (List.mem_map.2 ⟨_, mem_of_sget rfl hv, rfl⟩)

/-- A pass over fibres that acts as `resumeOne` on the states it meets. -/
theorem foldl_eq_resumeOne {s : State} {c lo n : Nat} {f : State → Nat × Option Fibre → State}
    (hf : ∀ t p, OnlyFibres s t → f t p = resumeOne s c lo n t p) (l : List (Nat × Option Fibre)) {t : State} (ht : OnlyFibres s t) :
    l.foldl f t = l.foldl (resumeOne s c lo n) t := by
  induction l generalizing t with
  | nil => rfl
  | cons p l ih => rw [List.foldl_cons, List.foldl_cons, hf t p ht, ih (resumeOne_fibres ht c lo n p)]

/-- With no operation under way, resuming a range makes ready the fibres that are parked on its pages. -/
theorem resumeRange_none {s : State} (ho : s.ops = []) (hwf : swf none s.rs.fibres = true) (c lo n : Nat) :
    OnlyFibres s (s.resumeRange c lo n) ∧ ∀ k, (s.resumeRange c lo n).fib k = (s.fib k).map (resumed s c lo n k) := by
  have hself : OnlyFibres s s := ⟨s.rs.fibres, rfl⟩
  have heq : s.resumeRange c lo n = s.rs.fibres.foldl (resumeOne s c lo n) s := by
    unfold State.resumeRange
    rw [lanesIn_none ho]
    refine foldl_eq_resumeOne ?_ _ hself
    rintro t ⟨k, v⟩ ⟨fs, rfl⟩
    cases v with
    | none => rfl
    | some f =>
      have hr : ∀ core, ({ s with rs := { s.rs with fibres := fs } } : State).replaying core c lo n = false := fun core => by
        rw [State.replaying, lanesIn_none (s := { s with rs := { s.rs with fibres := fs } }) ho]
        rfl
      unfold resumeOne
      dsimp only
      cases f.stat
      case page q =>
        have hall : ∀ p, s.ops.all p = true := fun p => by rw [ho]; rfl
        simp only [hr, hall, Bool.not_false, and_true]
        rfl
      all_goals rfl
  obtain ⟨hfib, hk⟩ := foldl_resumeOne c lo n s.rs.fibres (nodup_keys hwf) s hself fun p hp => sget_of_mem hwf hp
  rw [heq]
  refine ⟨hfib, fun k => ?_⟩
  rw [hk]
  split
  · rfl
  · next hno =>
    have hnone : s.fib k = none := sget_of_key none hno
    rw [hnone]
    rfl

/-! ### PAGE_MAPPED -/

/-- The requests that a new leaf answers are gone. -/
def answered (s : State) (c lo n : Nat) : State := { s with mem := s.mem.answer c lo n }

/-- Commands no longer wait for a page of the range. -/
def unpaged (s : State) (lo n : Nat) : State := { s with cmds := s.cmds.map (Cmd.unpage lo n) }

theorem unpaged_none {s : State} (h : s.cmds = []) (lo n : Nat) : unpaged s lo n = s := by
  unfold unpaged
  rw [h]
  cases s
  cases h
  rfl

theorem exec_pageMapped_absent {s : State} {ctx va : Nat} (h : ∀ pa mt size rd w x, s.walk ctx (va % 2 ^ 56) ≠ .leaf pa mt size rd w x) :
    exec (.pageMapped ctx va) s = .next s := by
  refine congrArg Host.Outcome.next ?_
  split
  · next e => exact absurd e (h _ _ _ _ _ _)
  · rfl

theorem exec_pageMapped_leaf {s : State} {ctx va pa mt size : Nat} {rd w x : Bool} (hw : s.walk ctx (va % 2 ^ 56) = .leaf pa mt size rd w x)
    (ho : s.ops = []) (hc : s.cmds = []) (hwf : swf none s.rs.fibres = true) (hi : ∀ bk, Idle s bk) : exec (.pageMapped ctx va) s =
      .next ((answered s ctx (va % 2 ^ 56 / size * size) size).resumeRange ctx (va % 2 ^ 56 / size * size) size) := by
  refine congrArg Host.Outcome.next ?_
  rw [hw]
  dsimp only
  generalize va % 2 ^ 56 / size * size = lo
  have ho' : (answered s ctx lo size).ops = [] := ho
  change (unpaged ((((answered s ctx lo size).replayRange ctx lo size).commitAll ctx).resumeRange ctx lo size) lo size).settleRunning = _
  rw [replayRange_none ho', commitAll_none ho']
  obtain ⟨⟨fs, heq⟩, hfib⟩ := resumeRange_none ho' hwf ctx lo size
  rw [unpaged_none (by rw [heq]; exact hc)]
  refine settleRunning_idle (by rw [heq]; exact ho') fun bk k y hk hb => ?_
  rw [hfib] at hk
  obtain ⟨z, hz, rfl⟩ := Option.map_eq_some_iff.1 hk
  exact resumed_unarrived (hi bk k z hz hb)

/-! ### PAGE_INVALID -/

theorem exec_pageInvalid_unasked {s : State} {ctx va : Nat} (h : (ctx, va % 2 ^ 56 / 65536 * 65536) ∉ s.mem.preq) :
    exec (.pageInvalid ctx va) s = .next s := by
  refine congrArg Host.Outcome.next (if_pos ?_)
  simpa using h

/-- The range is refused, and the verdict is out. -/
def refused (s : State) (c lo : Nat) : State :=
  { s with mem := { s.mem.answer c lo 65536 with inval := (s.mem.answer c lo 65536).inval ++ [(c, lo)], verdict := some (c, lo) } }

theorem invalidFib_parked {s : State} {c lo fk q : Nat} {x : Fibre} (ho : s.ops = []) (hx : s.fib fk = some x) (hs : x.stat = .page q)
    (hc : s.ctxOf (fkBk fk) = c) (hq : inVa lo 65536 q = true) : s.invalidFib c lo fk = s.takeFault (fkBk fk) ⟨4, x.pc, q, fkG fk, fkL fk⟩ := by
  unfold State.invalidFib
  simp only [hx, hs, lanesIn_none ho, hc, hq, ne_eq, not_true, if_false, if_true, List.isEmpty_nil]
  rfl

/-- The fibres of a refused range have been seen to: side-logged stores, committed writes, write-backs, commands and mailbox operations follow. -/
def verdictRest (ctx lo : Nat) (v : State) : State :=
  let v := ((v.sideOf ctx lo 65536).foldl State.invalidSide v).commitAll ctx
  let v := (v.lanesIn fun o x => o.kind == .cwb && x.st == .pending && v.ctxOf o.bk == ctx && !x.tgt.isWin).foldl
    (fun s y => s.performLane y.1 y.2.1 y.2.2) v
  let v := ((v.cmds.foldl (fun s c => s.invalidCmd ctx lo c) v).mailPage ctx).settleRunning
  { v with mem := { v.mem with verdict := none } }

theorem exec_pageInvalid_asked {s : State} {ctx va : Nat} (h : (ctx, va % 2 ^ 56 / 65536 * 65536) ∈ s.mem.preq) : exec (.pageInvalid ctx va) s =
    .next (verdictRest ctx (va % 2 ^ 56 / 65536 * 65536) (((refused s ctx (va % 2 ^ 56 / 65536 * 65536)).rs.fibres.map Prod.fst).foldl
      (fun s fk => s.invalidFib ctx (va % 2 ^ 56 / 65536 * 65536) fk) (refused s ctx (va % 2 ^ 56 / 65536 * 65536)))) := by
  have hc : s.mem.preq.contains (ctx, va % 2 ^ 56 / 65536 * 65536) = true := by simpa using h
  rw [show exec (.pageInvalid ctx va) s = execPageInvalid ctx va s from rfl]
  simp only [execPageInvalid, verdictRest, refused, hc, Bool.not_true, Bool.false_eq_true, if_false]

theorem verdictRest_none {u : State} (ho : u.ops = []) (hc : u.cmds = []) (hi : ∀ bk, Idle u bk) (ctx lo : Nat) :
    verdictRest ctx lo u = { u with mem := { u.mem with verdict := none } } := by
  have hside : u.sideOf ctx lo 65536 = [] := by rw [State.sideOf, State.sideLanes, lanesIn_none ho]; rfl
  unfold verdictRest
  rw [hside, List.foldl_nil, commitAll_none ho]
  have hcmds : u.cmds.foldl (fun s c => s.invalidCmd ctx lo c) u = u := by rw [hc]; rfl
  dsimp only
  rw [lanesIn_none ho, List.foldl_nil, hcmds, mailPage_none ho, settleRunning_idle ho hi]

/-- After the fault of the one parked fibre nothing else happens to a state without operations or commands. -/
theorem exec_pageInvalid_parked {s : State} {ctx va fk q : Nat} {x : Fibre} (ho : s.ops = []) (hcmds : s.cmds = []) (hfibs : s.rs.fibres = [(fk, some x)])
    (hreq : (ctx, va % 2 ^ 56 / 65536 * 65536) ∈ s.mem.preq) (hs : x.stat = .page q) (hc : s.ctxOf (fkBk fk) = ctx)
    (hq : inVa (va % 2 ^ 56 / 65536 * 65536) 65536 q = true) (hi : ∀ bk, Idle s bk) :
    let u := (refused s ctx (va % 2 ^ 56 / 65536 * 65536)).takeFault (fkBk fk) ⟨4, x.pc, q, fkG fk, fkL fk⟩
    exec (.pageInvalid ctx va) s = .next { u with mem := { u.mem with verdict := none } } := by
  generalize hlo : va % 2 ^ 56 / 65536 * 65536 = lo at *
  intro u
  have hx : (refused s ctx lo).fib fk = some x := by simp [State.fib, refused, hfibs, sget]
  have hframe : FaultFrame (refused s ctx lo) u := takeFault_frame _ _ _
  have hou : u.ops = [] := hframe.ops.trans ho
  have hcu : u.cmds = [] := hframe.cmds.trans hcmds
  have hiu : ∀ bk, Idle u bk := fun bk k y hk hb => hi bk k y (by rwa [State.fib, hframe.rs] at hk) hb
  have hfault : ((refused s ctx lo).rs.fibres.map Prod.fst).foldl (fun s fk => s.invalidFib ctx lo fk) (refused s ctx lo) = u := by
    rw [show (refused s ctx lo).rs.fibres = [(fk, some x)] from hfibs]
    exact invalidFib_parked ho hx hs hc hq
  rw [exec_pageInvalid_asked (by rw [hlo]; exact hreq), hlo, hfault, verdictRest_none hou hcu hiu]

theorem inVa_iff (lo n p : Nat) : inVa lo n p = true ↔ lo ≤ p % 2 ^ 56 ∧ p % 2 ^ 56 < lo + n := by simp [inVa]

theorem pageArrives (s : State) (ctx va : Nat) (ho : s.ops = []) (hc : s.cmds = []) : ∀ pa mt size rd w x,
    s.walk ctx (va % 2 ^ 56) = .leaf pa mt size rd w x → swf none s.rs.fibres = true →
      (∀ k y, s.fib k = some y → y.stat = .ready ∨ ∃ q, y.stat = .page q) →
      let lo := va % 2 ^ 56 / size * size
      let named := fun (p : Nat) => decide (lo ≤ p % 2 ^ 56) && decide (p % 2 ^ 56 < lo + size)
      ∃ t, exec (.pageMapped ctx va) s = .next t ∧
        (∀ k, t.fib k = (s.fib k).map fun y => match y.stat with
          | .page q => if s.ctxOf (fkBk k) = ctx ∧ named q = true then { y with stat := .ready } else y
          | _ => y) ∧
        t.mem.preq = (s.mem.preq.filter fun r => !(r.1 == ctx && named r.2)) ∧ t.rs.vregs = s.rs.vregs := by
  intro pa mt size rd w x hw hwf hstat lo named
  have hi : ∀ bk, Idle s bk := fun bk k y hk _ => (hstat k y hk).elim unarrived_ready fun ⟨_, hq⟩ => unarrived_page hq
  obtain ⟨⟨fs, heq⟩, hfib⟩ := resumeRange_none (s := answered s ctx lo size) ho hwf ctx lo size
  refine ⟨_, exec_pageMapped_leaf hw ho hc hwf hi, hfib, ?_, ?_⟩
  · rw [heq]; rfl
  · rw [heq]; rfl

theorem pageRefused (s : State) (ctx va : Nat) (ho : s.ops = []) (hcmds : s.cmds = []) : let lo := va % 2 ^ 56 / 65536 * 65536
    ∀ fk x b q, (ctx, lo) ∈ s.mem.preq → s.rs.fibres = [(fk, some x)] → Calm s fk b → s.ctxOf (fkBk fk) = ctx → x.stat = .page q →
       lo ≤ q % 2 ^ 56 → q % 2 ^ 56 < lo + 65536 → q < 2 ^ 64 →
       ∃ t c, exec (.pageInvalid ctx va) s = .next t ∧ t.block? (fkBk fk) = some c ∧ c.mode = .freezing ∧
         c.fault = some ⟨4, x.pc, q, fkG fk, fkL fk⟩ ∧ (ctx, lo) ∈ t.mem.inval ∧ (ctx, lo) ∉ t.mem.preq := by
  intro lo fk x b q hreq hfibs hcalm hc hs hlow hhigh hq
  have hi : ∀ bk, Idle s bk := by
    intro bk k y hk _
    obtain ⟨rfl, rfl⟩ : k = fk ∧ x = y := by simpa [State.fib, hfibs, sget, eq_comm] using hk
    exact unarrived_page hs
  have hexec := exec_pageInvalid_parked ho hcmds hfibs hreq hs hc ((inVa_iff _ _ _).2 ⟨hlow, hhigh⟩) hi
  obtain ⟨-, hmem, hblock, -⟩ := takeFault_outside (s := refused s ctx lo) (r := ⟨4, x.pc, q, fkG fk, fkL fk⟩) hcalm.block
    (entering_idle (s := refused s ctx lo) (hi (fkBk fk))) hq hcalm.runs hcalm.frames
  refine ⟨_, _, hexec, hblock, rfl, rfl, ?_, ?_⟩
  · rw [hmem]
    exact List.mem_append_right _ (.head _)
  · rw [hmem]
    have hin : inVa lo 65536 lo = true := (inVa_iff _ _ _).2 (by omega)
    simp [refused, MemSt.answer, hin]

/-- Settles O34, from what each event does to a state with one operation, or with none, in which no fibre has arrived at a collective. -/
theorem retireAndPageEffects : Obligations.RetireAndPageEffects := by
  unfold Obligations.RetireAndPageEffects
  refine ⟨fun s o x ho hx => ⟨sideEntry s o x ho hx, fun hk hf hr => exec_writeCompletionTimePassed ho hx hk hf hr, policyVersion s o x ho hx⟩,
    fun s ctx va ho hc => ⟨exec_pageMapped_absent, pageArrives s ctx va ho hc, exec_pageInvalid_unasked, pageRefused s ctx va ho hc⟩⟩

end Sys2Proof.Proofs
end

section
/-!
PROOFS. Host and peer accesses and collectives (R375, R376, R396): the statement asks that the write of a collective's result leaves every register and
fibre as it was, which fails where a fibre waits at a timeline that the result reaches (R258, R307).
-/
namespace Sys2Proof.Proofs
open Sys2Proof Sys2Proof.Machine Sys2Proof.Tests

/-- A gather by one rank: 16 bytes, all of value 9, to 0x20070. -/
def gatherOne : Coll :=
  { id := 0, ctx := 0, d := 2 + 16 * 2 ^ 192 + 0x20070 * 2 ^ 128, addr := 0, own := List.replicate 16 9, wct := none }

/-- The gather under way, and a fibre that waits until the timeline at the gather's destination is 1. -/
def gathering : State :=
  State.withFibs { base with host := { base.host with colls := [gatherOne] } } [(0, st (.timeline (.mem 0x20070 0) 1 0 false))]

theorem gathering_result : coResult gatherOne.d (gatherOne.inputs []) = List.replicate 16 9 := by decide +kernel

theorem gathering_check : gathering.check 0 0x20070 16 1 .store false = .ok (.mem 0x20070 0) ∧ gathering.memUp 0x20070 0 = true := by decide +kernel

/-- The result reaches the threshold, and the fibre goes on. -/
theorem gathering_wakes : (after (exec (.collectiveComplete 0 true []) gathering)).fib 0 ≠ gathering.fib 0 := by decide +kernel

/-- Refutes O51: a collective's result that is written to a timeline lets the fibres go on that wait there (R258, R307), so the fibres, which are part of
`rs`, do not stay as they were. -/
theorem not_hostAccessResults : ¬ Obligations.HostAccessResults := by
  unfold Obligations.HostAccessResults
  intro h
  obtain ⟨-, -, hwrite, -⟩ := h.2 gathering gatherOne [] rfl (by decide +kernel)
  simp only [gathering_result] at hwrite
  obtain ⟨t, w, ht, -, hrs, -⟩ := hwrite 0x20070 0 rfl (by decide) (by decide) gathering_check.1 gathering_check.2 (by decide)
  refine gathering_wakes ?_
  have hid : gatherOne.id = 0 := rfl
  rw [← hid, ht]
  unfold State.fib
  rw [← hrs]
  rfl

end Sys2Proof.Proofs
end

section
/-!
PROOFS. Performing stores (R77): the statement gives every store lane its write completion times, and a lane that gave up all its bytes to a later lane of
its instruction only completes, without any.
-/
namespace Sys2Proof.Proofs
open Sys2Proof Sys2Proof.Machine Sys2Proof.Tests

/-- A store of a word in scope 4 by three lanes: lane 0 has given up all its bytes to lane 1, which is done; lane 2 is still to be performed elsewhere. -/
def yieldedLane : Lane := laneOf 0 0x2007C (.mem 0x2007C 0) .pending 0x11223344 0
def winnerLane : Lane := { laneOf 1 0x2007C (.mem 0x2007C 0) .done 0x55667788 15 with wct := 104, wct4 := 104 }
def otherLane : Lane := laneOf 2 0x30000 (.mem 0x30000 0) .pending 1 15
def yieldedOp : Op := { opOf (memI .st .st (mem .b32)) yieldedLane with scope := 4, lanes := [yieldedLane, winnerLane, otherLane] }

/-- The store under way at tick 10, with a lease of its line that runs to tick 100. -/
def yielding : State :=
  { under yieldedOp with tick := 10, mem := { base.mem with leases := [(0x2007C / 128, { holders := [], ovf := 100 })] } }

theorem yielding_ready : yielding.laneAt 1 0 = some (yieldedOp, yieldedLane) ∧ yielding.canPerform yieldedOp yieldedLane = true ∧
    yielding.renames yieldedOp.bk = [] := by decide +kernel

/-- The write completion time of a store at its target. -/
theorem yielding_wct : (yielding.wcts yieldedOp.core (yielding.scopeFor yieldedOp.bk yieldedOp.core yieldedOp.scope) (yieldedOp.scope == 0)
    yieldedLane.tgt).1 = max (yielding.tickHome 0x2007C) 104 := rfl

theorem yielding_tick : yielding.tickOf yieldedOp ≤ 12 := by
  have h := (Config.tickSkew (quadOf yieldedOp.core)).isLt
  have : yielding.tickOf yieldedOp = 10 + (Config.tickSkew (quadOf yieldedOp.core)).val - (Config.tickSkew 8).val := rfl
  omega

/-- The lane is done without a write completion time. -/
theorem yielding_done : ((after (exec (.accessPerformed 1 0) yielding)).laneAt 1 0).map (·.2.wct) = some 0 := by decide +kernel

/-- Refutes O30: a store lane whose mask is empty is done without the write completion times of a write at its target. -/
theorem not_storeEffects : ¬ Obligations.StoreEffects := by
  unfold Obligations.StoreEffects
  intro h
  obtain ⟨hlane, hperform, hren⟩ := yielding_ready
  obtain ⟨hmem, -, -⟩ := h yielding 1 0 yieldedOp yieldedLane placedBlock hlane rfl hperform rfl rfl rfl hren rfl rfl (ready_one _ rfl 0)
  obtain ⟨t, ht, -, -, -, -, hdone⟩ := hmem 0x2007C 0 rfl (by decide)
  have hkept := congrArg (Option.map Lane.wct) (hdone (by decide) (by decide) (by rw [yielding_wct]; exact le_trans yielding_tick (by omega)))
  have hzero := yielding_done
  rw [ht] at hzero
  rw [Option.map_map, show t.laneAt 1 0 = (after (.next t)).laneAt 1 0 from rfl, show Lane.wct ∘ (fun p : Op × Lane => p.2) = (·.2.wct) from rfl, hzero,
    yielding_wct] at hkept
  have : 0 = max (yielding.tickHome 0x2007C) 104 := Option.some.inj hkept
  omega

end Sys2Proof.Proofs
end

section
/-!
PROOFS. Returning loads (R77): the statement names the destination by the operation's group, and the value goes to the group of the lane's fibre.
-/
namespace Sys2Proof.Proofs
open Sys2Proof Sys2Proof.Machine Sys2Proof.Tests

/-- A load of a byte by an operation of group 0 whose one lane names a fibre of group 1. -/
def strayLane : Lane := laneOf (fkOf 0 1 0) 0x2007F (.mem 0x2007F 0) .pending 0 0
def strayOp : Op := opOf (memI .ld .ld (mem .i8)) strayLane
def straying : State := State.withDram (under strayOp) 0x2007F [5]

theorem straying_ready : straying.laneAt 1 0 = some (strayOp, strayLane) ∧ straying.canPerform strayOp strayLane = true ∧
    straying.renames strayOp.bk = [] ∧ straying.snapOf strayOp.bk = none := by decide +kernel

/-- The register of group 0 stays zero. -/
theorem straying_writes : (after (exec (.loadReturned 1 0) straying)).vraw 0 0 2 0 = 0 := by decide +kernel

/-- Refutes O31: of an operation with a lane of another group, D is written in the lane's group, and the register that the statement names stays. -/
theorem not_loadEffects : ¬ Obligations.LoadEffects := by
  unfold Obligations.LoadEffects
  intro h
  obtain ⟨hlane, hperform, hren, hsnap⟩ := straying_ready
  obtain ⟨hmem, -⟩ := h straying 1 0 strayOp strayLane placedBlock hlane rfl rfl rfl (ready_one _ rfl 0)
  obtain ⟨t, ht, hd, -⟩ := hmem 0x2007F 0 2 rfl hperform rfl rfl rfl rfl (by decide) hren hsnap (by decide) (by decide)
  have hzero := straying_writes
  rw [ht] at hzero
  rw [show t.vraw strayOp.bk strayOp.g 2 (fkL strayLane.fk) = (after (.next t)).vraw 0 0 2 0 from rfl, hzero] at hd
  revert hd
  decide +kernel

end Sys2Proof.Proofs
end

section
/-!
PROOFS. Cancellation (R374): the statement leaves a launch's frozen blocks as they were, and where the launch has an ordered ring a frozen block takes the
ticket that it owes once the blocks before it have left (R256).
-/
namespace Sys2Proof.Proofs
open Sys2Proof Sys2Proof.Machine Sys2Proof.Tests

/-- A launch with an ordered ring at 0x20000, whose next ticket is that of block 0: that block is saved, and block 1 has frozen without a ticket. -/
def ringLaunch : Launch := { placedLaunch with rings := [.mem 0x20000 0] }
def savedFirst : Block := { placedBlock with st := .saved }
def frozenSecond : Block := { placedBlock with uid := 1, idx := 1, st := .frozen }

/-- Context 0 at the command that cancels the launch, its entry read. -/
def cancelling : State :=
  let s := State.withDram base 0x20000 (natBytes 64 (2 ^ 71 + 2 ^ 72))
  let s : State := { s with blocks := [savedFirst, frozenSecond], launches := [ringLaunch] }
  s.updCtx 0 fun x => { x with cmd := some (4 * 2 ^ 392, 0x40000) }

theorem cancelling_heads : Heads cancelling 0 (4 * 2 ^ 392) 0x40000 cancelling where
  cc := by decide +kernel
  onyx := by decide +kernel
  runs := rfl
  has := .inl ⟨rfl, rfl⟩
  quiet := by decide +kernel

theorem cancelling_launch : cancelling.launch? (launchKey 0 (4 * 2 ^ 392 % 2 ^ 64)) = some ringLaunch := by decide +kernel

/-- The frozen block takes and voids the second ticket. -/
theorem cancelling_voids : ((after (exec (.cancel 0) cancelling)).block? 1).map Block.tickets = some [(.mem 0x20000 0, 1)] := by decide +kernel

/-- Refutes O49: cancelling a launch with a saved block and an ordered ring gives a frozen block after it its voided ticket (R256), so that block does not
stay as it was. -/
theorem not_hostCommandResults : ¬ Obligations.HostCommandResults := by
  unfold Obligations.HostCommandResults
  intro h
  obtain ⟨-, -, -, hcancel, -⟩ := h cancelling 0 (4 * 2 ^ 392) 0x40000 cancelling cancelling_heads
  obtain ⟨t, ht, -, hblocks⟩ := (hcancel (by decide +kernel)).2 ringLaunch (by decide +kernel) cancelling_launch (by decide)
  obtain ⟨b, hb, -, hkept⟩ := hblocks frozenSecond (.tail _ (.head _))
  obtain ⟨-, -, -, hsame⟩ := hkept (by decide +kernel)
  have hvoid := cancelling_voids
  rw [ht, show (after (.next (t.updCtx 0 fun x => { x with cmd := none }))).block? 1 = t.block? frozenSecond.uid from rfl, hb, hsame (.inl rfl)] at hvoid
  exact absurd hvoid (by decide)

end Sys2Proof.Proofs
end

section
/-!
PROOFS. The issue of engine commands and of the Ladle's (R91, R94, R98 to R102, R112, R118, R394): the plan of a record that can be read, the command that
enters its queue, and the checks of a descriptor in order.
-/
namespace Sys2Proof.Proofs
open Sys2Proof Sys2Proof.Machine Sys2Proof.Laws

/-! ### The record of an engine instruction (R112, R394) -/

section
variable {s : State} {fk : Nat}

theorem cntFull_only {k : Cnt} (ho : Opens s fk k) : s.cntFull (only fk) k = false := by
  simp only [State.cntFull, only_bk, only_g, Bool.and_eq_false_iff, bne_eq_false_iff_eq, decide_eq_false_iff_not, ge_iff_le, Nat.not_le]
  exact (Decidable.em (k = .none)).imp_right ho.room

theorem planOperands_uniform {a : Nat} (ha : readable s fk (.s a) false false = true) :
    planOperands s (only fk) none [⟨.s a, false, false⟩] [true] = .go (.sp .lane, [.s a]) :=
  planOperands_ready (d := none) rfl (srcsReady_all (srcs := [⟨.s a, false, false⟩]) (by simpa using ha)) rfl rfl rfl

theorem planRec_record {k : Cnt} {a n al w : Nat} (ho : Opens s fk k) (hr : Record s fk a n al w) : planRec s (only fk) k a n al = .go w := by
  have hw : (readSrcs s (only fk) [⟨.s a, false, false⟩] [.s a]).getD 0 0 = w := hr.addr
  simp only [planRec, planOperands_uniform hr.reg, hw, cntFull_only ho, ho.acq, only_rep, only_bk, hr.window, hr.quiet, hr.marks, Bool.or_self,
    Bool.false_eq_true, if_false]

/-! ### The command that enters its queue (R91, R242) -/

theorem engIssue_queued {k : Cnt} (ho : Opens s fk k) (c : Cmd) : s.engIssue k s.seq (only fk) c = s.queued fk k c := by
  have hlane := addLane_fresh (engI k) fk (engLane fk) ho.fresh
  simp only [State.engIssue, only_bk, only_g, only_rep, opFor_fresh (engI k) _ _ ho.fresh, hlane, advanceUnit_only]
  rfl

/-- One fibre at an engine instruction: it stays, takes its fault, or its command enters the queue, where there is room. -/
theorem runEng_issues {g : Guard} {x : Fibre} {k : Cnt} (h : Issues s g fk x) (ho : Opens s fk k) (limit : Nat) (p : CmdKind → Bool)
    (plan : State → WUnit → Plan Cmd) :
    runEng s g k limit p plan = match plan s (only fk) with
      | .stall => s
      | .fault c det => s.faulted fk c det
      | .go c => if s.queueRoom c.core limit p || !(p c.kind) then s.queued fk k c else s := by
  rw [runEng, runUnits_issues h]
  cases plan s (only fk) with
  | stall => rfl
  | fault c det => rfl
  | go c => simp only [engIssue_queued ho]

end

/-! ### The checks of a tile descriptor (R94) -/

section
variable {s : State} {fk : Nat} {x : Fibre} {f : Eng}

theorem badScope_only (n : Nat) : s.badScope (only fk) n = !(s.scopeOk fk n) := by
  simp only [State.badScope, State.scopeOk, only_bk, only_g, Bool.not_or, ← decide_not, Nat.not_lt]

/-- The command of a Ladle instruction other than `lpermit`, whose descriptor `d` stands at window address `w`. -/
def ladleCmd (s : State) (fk : Nat) (k : CmdKind) (w d : Nat) : Cmd :=
  { s.cmdOf (only fk) k with addr := w, desc := BitVec.ofNat 1024 d, dst := s.ldDst (only fk) k (s.group (fkBk fk) (fkG fk)).core d }

/-- A command that has passed its checks: it stays while its lanes are owed or its queue is full, and enters the queue else. -/
def ladleEnters (s : State) (fk : Nat) (k : CmdKind) (w d : Nat) : State :=
  let core := (s.group (fkBk fk) (fkG fk)).core
  if s.dstBusy (only fk) (s.ldDst (only fk) k core d) then s
  else if s.queueRoom core Config.ladleQueue CmdKind.ladle then s.queued fk .cp (ladleCmd s fk k w d) else s

/-- What a Ladle instruction other than `lpermit` does with a record that can be read. -/
theorem runLadle_record (h : Issues s f.g fk x) (ho : Opens s fk .cp) {w : Nat} (hr : Record s fk f.a 64 64 w) {k : CmdKind} (hk : k.ladle = true) :
    let d := s.wnum (fkBk fk) (winGrp w) (winOff w) 64
    runLadle s f k = match s.ldCheck (only fk) k d with
      | some (c, det) => s.faulted fk c det
      | none => ladleEnters s fk k w d := by
  dsimp only
  generalize hd : s.wnum (fkBk fk) (winGrp w) (winOff w) 64 = d
  simp only [runLadle, runEng_issues h ho, planRec_record ho hr, Plan.bind, only_bk, only_g, hd]
  cases s.ldCheck (only fk) k d with
  | some r => rfl
  | none =>
    have hcmd : (s.cmdOf (only fk) k).kind = k := rfl
    unfold ladleEnters
    by_cases hb : s.dstBusy (only fk) (s.ldDst (only fk) k (s.group (fkBk fk) (fkG fk)).core d) = true
    · simp only [hb, if_true]
    · simp only [hb, hcmd, hk, Bool.not_true, Bool.or_false, Bool.false_eq_true, if_false]
      rfl

/-- The same, check by check (R94). -/
theorem runLadle_checks (h : Issues s f.g fk x) (ho : Opens s fk .cp) {w : Nat} (hr : Record s fk f.a 64 64 w) {k : CmdKind} (hk : k.ladle = true) :
    let d := s.wnum (fkBk fk) (winGrp w) (winOff w) 64
    let flt := fun (fc : FClass) (det : Nat) => (.next (s.faulted fk fc det) : Host.Outcome State Fault Refusal)
    .next (runLadle s f k) =
      if ldIll k d = true then flt .il openDet
      else if ldMisaligned k d = true then flt .ma openDet
      else if s.ldBadCore (only fk) k (s.group (fkBk fk) (fkG fk)).core d = true then flt .ac openDet
      else match s.ldRanges (only fk) k d with
        | some (fc, n) => flt fc n
        | none => if (k = .lput ∨ k = .lcopy) ∧ s.scopeOk fk (ldScope d) = false then flt .ac (ldScope d) else .next (ladleEnters s fk k w d) := by
  dsimp only
  rw [runLadle_record h ho hr hk]
  generalize s.wnum (fkBk fk) (winGrp w) (winOff w) 64 = d
  simp only [State.ldCheck, badScope_only, only_bk, only_g, Bool.not_eq_true']
  cases ldIll k d with
  | true => rfl
  | false => cases ldMisaligned k d with
    | true => rfl
    | false => cases s.ldBadCore (only fk) k (s.group (fkBk fk) (fkG fk)).core d with
      | true => rfl
      | false => cases s.ldRanges (only fk) k d with
        | some r => rfl
        | none =>
          by_cases hs : (k = .lput ∨ k = .lcopy) ∧ s.scopeOk fk (ldScope d) = false
          · simp only [hs, and_self, if_true, Bool.false_eq_true, if_false]
          · simp only [hs, if_false, Bool.false_eq_true]

theorem next_ladleEnters (k : CmdKind) (w d : Nat) : (.next (ladleEnters s fk k w d) : Host.Outcome State Fault Refusal) =
    let core := (s.group (fkBk fk) (fkG fk)).core
    if s.dstBusy (only fk) (s.ldDst (only fk) k core d) then .next s
    else .next (if s.queueRoom core Config.ladleQueue CmdKind.ladle then s.queued fk .cp (ladleCmd s fk k w d) else s) := apply_ite _ _ _ _

/-- The permit record's reserved fields (R102). -/
theorem permitCheck_eq (r : Nat) : permitCheck r = if r / 2 ^ 96 % 2 ^ 32 ≠ 0 ∨ r / 2 ^ 5 % 2 ^ 59 ≠ 0 then some (.il, openDet) else none := rfl

theorem exec_lpermit_record (h : Issues s f.g fk x) (ho : Opens s fk .cp) {w : Nat} (hr : Record s fk f.a 16 16 w) :
    let r := s.wnum (fkBk fk) (winGrp w) (winOff w) 16
    exec (.lpermit f) s = .next (match permitCheck r with
      | some (c, det) => s.faulted fk c det
      | none => s.queued fk .cp { s.cmdOf (only fk) .lpermit with addr := w, desc := BitVec.ofNat 1024 r }) := by
  dsimp only
  rw [show exec (.lpermit f) s = execLpermit f s from rfl, execLpermit, runEng_issues h ho]
  simp only [planRec_record ho hr, Plan.bind, only_bk]
  cases permitCheck (s.wnum (fkBk fk) (winGrp w) (winOff w) 16) with
  | some r => rfl
  | none =>
    have hroom : CmdKind.ladle (s.cmdOf (only fk) .lpermit).kind = false := rfl
    simp only [hroom, Bool.not_false, Bool.or_true, if_true]

end

/-- Settles O23: the record is planned, then checked in the order of `ldCheck`; a command that passes finds its lanes and its queue entry. -/
theorem ladleIssue : Obligations.LadleIssue := by
  unfold Obligations.LadleIssue
  intro s fk x f h ho
  refine ⟨fun w hr => ?_, fun w hr => ?_⟩
  · have hgo := fun (k : CmdKind) (hk : k.ladle = true) => runLadle_checks h ho hr hk
    simp only [next_ladleEnters] at hgo
    exact ⟨hgo .lfetch rfl, hgo .lcast rfl, hgo .lput rfl, hgo .lcopy rfl⟩
  · rw [exec_lpermit_record h ho hr, permitCheck_eq]
    dsimp only
    split_ifs <;> rfl

end Sys2Proof.Proofs
end

section
/-!
PROOFS. Memory that engines move, as its homes hold it (R60 to R63, R81, R82): what a read at a home leaves, what a store of less than a line does to poison,
and what the check of an access reads of the state (R66 to R71).
-/
namespace Sys2Proof.Proofs
open Sys2Proof Sys2Proof.Machine Sys2Proof.Laws

/-! ### Poison at the homes (R62, R63) -/

theorem fill_frame (m : MemSt) (ln : Nat) : m.fill ln = { m with home := (m.fill ln).home, htag := (m.fill ln).htag } := by
  unfold MemSt.fill
  split <;> rfl

/-- Poison of a line of DRAM is read off its directory bit, its marker and its codeword. -/
theorem dramPois_congr {m n : MemSt} (hz : n.zdir = m.zdir) (hp : n.dpoison = m.dpoison) (hb : n.dbad = m.dbad) (ln : Nat) :
    n.dramPois ln = m.dramPois ln := by simp only [MemSt.dramPois, hz, hp, hb]

/-- Holding a line changes no line's poison. -/
theorem homePois_fill (m : MemSt) (ln x : Nat) : (m.fill ln).homePois x = m.homePois x := by
  have hd : (m.fill ln).dramPois x = m.dramPois x := by rw [fill_frame]; rfl
  unfold MemSt.homePois
  rw [MemSt.tag_fill]
  by_cases hx : x = ln ∧ m.tag ln = none
  · obtain ⟨rfl, hn⟩ := hx
    simp [hn]
  · rw [if_neg hx, hd]

/-- A line whose directory bit is set is not poisoned under it (R61). -/
def DirClean (m : MemSt) : Prop := ∀ k, sget false m.zdir k = true → sget false m.dpoison k = false ∧ sget 0 m.dbad k = 0

/-- `n` is clean under its directory, and poisons no line that `m` does not, where `m` is clean. -/
def Cleaner (m n : MemSt) : Prop := DirClean m → DirClean n ∧ ∀ ln, m.homePois ln = false → n.homePois ln = false

theorem Cleaner.refl (m : MemSt) : Cleaner m m := fun h => ⟨h, fun _ => id⟩

theorem Cleaner.trans {m n k : MemSt} (h : Cleaner m n) (h' : Cleaner n k) : Cleaner m k := fun hm =>
  ⟨(h' (h hm).1).1, fun ln hl => (h' (h hm).1).2 ln ((h hm).2 ln hl)⟩

theorem dramOpen_marks (whole : Nat → Bool) (m : MemSt) (ln x : Nat) :
    sget false (dramOpen whole m ln).dpoison x = (if whole ln = true ∧ x = ln then false else sget false m.dpoison x) ∧
    sget 0 (dramOpen whole m ln).dbad x = if whole ln = true ∧ x = ln then 0 else sget 0 m.dbad x := by
  cases hz : sget false m.zdir ln <;> by_cases hw : whole ln = true <;> simp [dramOpen, hz, hw]

theorem dramOpen_clean (whole : Nat → Bool) {m : MemSt} (h : DirClean m) (ln : Nat) :
    DirClean (dramOpen whole m ln) ∧ ∀ x, m.dramPois x = false → (dramOpen whole m ln).dramPois x = false := by
  refine ⟨fun x hx => ?_, fun x hx => ?_⟩
  · rw [dramOpen_zdir] at hx
    obtain ⟨hp, hb⟩ := dramOpen_marks whole m ln x
    by_cases hxl : x = ln
    · simp [hxl] at hx
    · rw [if_neg hxl] at hx
      simpa [hp, hb, hxl] using h x hx
  · obtain ⟨hp, hb⟩ := dramOpen_marks whole m ln x
    have hclean := h x
    unfold MemSt.dramPois at hx ⊢
    rw [hp, hb, dramOpen_zdir]
    by_cases hw : whole ln = true ∧ x = ln
    · simp [hw]
    · rw [if_neg hw, if_neg hw]
      cases hz : sget false m.zdir x
      · simpa [hz] using hx
      · simp [hclean hz]

theorem foldl_dramOpen_clean (whole : Nat → Bool) (l : List Nat) {m : MemSt} (h : DirClean m) :
    DirClean (l.foldl (dramOpen whole) m) ∧ ∀ x, m.dramPois x = false → (l.foldl (dramOpen whole) m).dramPois x = false := by
  induction l generalizing m with
  | nil => exact ⟨h, fun _ => id⟩
  | cons y l ih =>
    obtain ⟨hc, hp⟩ := dramOpen_clean whole h y
    exact ⟨(ih hc).1, fun x hx => (ih hc).2 x (hp x hx)⟩

theorem dramPut_cleaner (m : MemSt) (pa : Nat) (bs : List Nat) : Cleaner m (m.dramPut pa bs) := by
  intro h
  obtain ⟨hc, hp⟩ := foldl_dramOpen_clean (putWhole pa bs.length) (putLines pa bs.length) h
  have habove := dramPut_above m pa bs
  refine ⟨hc, fun ln hl => ?_⟩
  unfold MemSt.homePois at hl ⊢
  rw [habove.tag]
  cases ht : m.tag ln with
  | some t => simpa [ht] using hl
  | none => exact hp ln (by simpa [ht] using hl)

theorem homePut_frame (m : MemSt) (pa : Nat) (bs : List Nat) :
    m.homePut pa bs = { m with home := (m.homePut pa bs).home, htag := (m.homePut pa bs).htag } := by
  unfold MemSt.homePut
  dsimp only
  rw [fill_frame]

theorem homePut_cleaner (m : MemSt) (pa : Nat) (bs : List Nat) : Cleaner m (m.homePut pa bs) := by
  intro h
  have hz : (m.homePut pa bs).zdir = m.zdir := by rw [homePut_frame]
  have hp : (m.homePut pa bs).dpoison = m.dpoison := by rw [homePut_frame]
  have hb : (m.homePut pa bs).dbad = m.dbad := by rw [homePut_frame]
  refine ⟨fun k hk => by rw [hp, hb]; exact h k (hz ▸ hk), fun ln hl => ?_⟩
  have hfl : (m.fill (pa / 128)).homePois ln = false := (homePois_fill m _ ln).trans hl
  have htag : (m.homePut pa bs).tag ln = if ln = pa / 128 then
      some { dirty := true, zero := false, poison := (m.fill (pa / 128)).homePois (pa / 128) && !(bs.length == 128) } else (m.fill (pa / 128)).tag ln := by
    simp only [MemSt.homePut, MemSt.tag, sget_sset]
  unfold MemSt.homePois
  rw [htag, dramPois_congr hz hp hb]
  by_cases hln : ln = pa / 128
  · rw [if_pos hln]
    simp [show (m.fill (pa / 128)).homePois (pa / 128) = false from hln ▸ hfl]
  · rw [if_neg hln]
    unfold MemSt.homePois at hfl
    rwa [show (m.fill (pa / 128)).dramPois ln = m.dramPois ln by rw [fill_frame]; rfl] at hfl

/-- A store at a home, allocated there or not, poisons nothing. -/
theorem homeStore_cleaner (m : MemSt) (nt : Bool) (pa : Nat) (bs : List Nat) : Cleaner m (m.homeStore nt pa bs) := by
  unfold MemSt.homeStore
  split
  · exact dramPut_cleaner m pa bs
  · exact homePut_cleaner m pa bs

theorem homeStore_frame (m : MemSt) (nt : Bool) (pa : Nat) (bs : List Nat) :
    (m.homeStore nt pa bs).regions = m.regions ∧ (m.homeStore nt pa bs).stages = m.stages := by
  unfold MemSt.homeStore
  split
  · have h := dramPut_above m pa bs
    unfold SameAbove at h
    rw [h]
    exact ⟨rfl, rfl⟩
  · rw [homePut_frame]
    exact ⟨rfl, rfl⟩

/-! ### Memory that reads as before -/

/-- `n` holds what `m` holds, more of it in its slices. -/
structure ReadsAs (m n : MemSt) : Prop where
  frame : n = { m with home := n.home, htag := n.htag, copies := n.copies }
  homeB : ∀ a, n.homeB a = m.homeB a
  homePois : ∀ ln, n.homePois ln = m.homePois ln

theorem ReadsAs.refl (m : MemSt) : ReadsAs m m := ⟨rfl, fun _ => rfl, fun _ => rfl⟩

theorem ReadsAs.trans {m n k : MemSt} (h : ReadsAs m n) (h' : ReadsAs n k) : ReadsAs m k :=
  ⟨by rw [h'.frame, h.frame], fun a => (h'.homeB a).trans (h.homeB a), fun ln => (h'.homePois ln).trans (h.homePois ln)⟩

theorem ReadsAs.dram {m n : MemSt} (h : ReadsAs m n) : n.dram = m.dram := by rw [h.frame]
theorem ReadsAs.regions {m n : MemSt} (h : ReadsAs m n) : n.regions = m.regions := by rw [h.frame]
theorem ReadsAs.stages {m n : MemSt} (h : ReadsAs m n) : n.stages = m.stages := by rw [h.frame]

theorem readsAs_copies (m : MemSt) (cs : List Copy) : ReadsAs m { m with copies := cs } := ⟨rfl, fun _ => rfl, fun _ => rfl⟩

theorem readsAs_fill (m : MemSt) (ln : Nat) : ReadsAs m (m.fill ln) := ⟨by rw [fill_frame], MemSt.homeB_fill m ln, homePois_fill m ln⟩

theorem ReadsAs.cleaner {m n : MemSt} (h : ReadsAs m n) : Cleaner m n := fun hm =>
  ⟨by rw [DirClean, h.frame]; exact hm, fun ln hl => (h.homePois ln).trans hl⟩

/-! ### What the check of an access reads (R66 to R71) -/

/-- The host's registers but for the error records and the interrupt that they raise. -/
def SameHost (h k : HostSt) : Prop := k = { h with erb := k.erb, erbNew := k.erbNew, irq := k.irq }

theorem SameHost.trans {h k l : HostSt} (a : SameHost h k) (b : SameHost k l) : SameHost h l := by
  unfold SameHost at *
  rw [b, a]

theorem sense_host (s : State) (c : Option Nat) (t : Tgt) : SameHost s.host (s.sense c t).host := by
  obtain h | ⟨_, _, _, h⟩ := s.sense_cases c t <;> rw [h] <;> rfl

/-- Two states in which every access of a context finds the same tables. -/
structure SameTables (s t : State) : Prop where
  ch : t.ch = s.ch
  host : SameHost s.host t.host
  regions : t.mem.regions = s.mem.regions
  tlines : t.mem.tlines = s.mem.tlines
  verdict : t.mem.verdict = s.mem.verdict
  homeB : ∀ a, t.mem.homeB a = s.mem.homeB a

namespace SameTables
variable {s t : State} (h : SameTables s t)
include h

theorem ctx (c : Nat) : t.ctx c = s.ctx c := by unfold State.ctx; rw [h.host]
theorem tableNum (c pa n : Nat) : t.tableNum c pa n = s.tableNum c pa n := by
  have hb : t.mem.homeB = s.mem.homeB := funext h.homeB
  simp only [State.tableNum, h.ch, h.ctx, MemSt.homeNum, MemSt.homeBytes, hb]
theorem bounds (c rid : Nat) : t.bounds c rid = s.bounds c rid := by
  have he : t.tableNum c (t.entryAt c rid) 16 = s.tableNum c (s.entryAt c rid) 16 := by simp only [h.tableNum, State.entryAt, h.ctx]
  unfold State.bounds
  rw [he]
theorem stackFailed (pa : Nat) : t.stackFailed pa = s.stackFailed pa := by unfold State.stackFailed; rw [h.host]
theorem memUp (pa mt : Nat) : t.memUp pa mt = s.memUp pa mt := by unfold State.memUp State.stackUp State.slicesUp; rw [h.host]
theorem routeOf (a : Nat) : t.routeOf a = s.routeOf a := by unfold State.routeOf; rw [h.host]
theorem inEnv (pa : Nat) : t.inEnv pa = s.inEnv pa := by unfold State.inEnv State.envPart; rw [h.host]
theorem walk (c va : Nat) : t.walk c va = s.walk c va := by
  simp only [State.walk, h.tableNum, h.memUp, h.ctx, funext h.stackFailed]
theorem leafCheck (c p : Nat) (kind : Kind) : t.leafCheck c p kind = s.leafCheck c p kind := by
  simp only [State.leafCheck, h.walk, h.verdict, h.stackFailed, h.inEnv, h.routeOf]
theorem boundsCheck (c p n align : Nat) (kind : Kind) : t.boundsCheck c p n align kind = s.boundsCheck c p n align kind := by
  simp only [State.boundsCheck, h.bounds]
theorem entryHold (c p : Nat) : t.entryHold c p = s.entryHold c p := by
  simp only [State.entryHold, State.entryAt, h.ctx, h.stackFailed, h.memUp] <;> rfl
theorem regionG (c va : Nat) : t.regionG c va = s.regionG c va := by
  simp only [State.regionG, State.regionsOf, h.regions]
theorem fillCheck (c k off : Nat) (r : Region) (det : Nat) : t.fillCheck c k off r det = s.fillCheck c k off r det := by
  simp only [State.fillCheck, MemSt.tline, h.tlines, h.boundsCheck, h.leafCheck, h.memUp] <;> rfl

theorem check (c p n align : Nat) (kind : Kind) (staging : Bool) : t.check c p n align kind staging = s.check c p n align kind staging := by
  simp only [State.check, h.entryHold, h.boundsCheck, h.bounds, h.regionG, h.fillCheck, h.leafCheck]

end SameTables

end Sys2Proof.Proofs
end

section
/-!
PROOFS. Windows that engines write (R96, R108, R112, R113, R115): a byte after bytes are put, a full bit after a granule is set, a range inside an allotment.
-/
namespace Sys2Proof.Proofs
open Sys2Proof Sys2Proof.Machine Sys2Proof.Laws

/-! ### Bytes of a window (R115) -/

/-- Byte `off` of a group's window in a register store. -/
def regByte (rs : RegSt) (bk g off : Nat) : Nat :=
  (sget 0 (sget [] rs.vregs (rkOf bk g (off / 256))) (off % 256 / 4)).toNat / 256 ^ (off % 4) % 256

theorem wget_eq (s : State) (bk g off : Nat) : s.wget bk g off = regByte s.rs bk g off := rfl

theorem wget_lt (s : State) (bk g off : Nat) : s.wget bk g off < 256 := Nat.mod_lt _ (by decide)

theorem rkOf_same {bk g r q : Nat} : rkOf bk g r = rkOf bk g q ↔ r = q := by unfold rkOf; omega

/-- A word with one byte replaced, byte by byte. -/
theorem byte_setBits {i j : Nat} (hi : i < 4) (hj : j < 4) (old : Word) (v : Nat) :
    (BitVec.ofNat 32 (setBits old.toNat (8 * i) 8 v)).toNat / 256 ^ j % 256 = if j = i then v % 256 else old.toNat / 256 ^ j % 256 := by
  have hold := old.isLt
  rw [BitVec.toNat_ofNat]
  unfold setBits
  interval_cases i <;> interval_cases j <;> simp <;> omega

theorem regByte_putBytes (rs : RegSt) (bk g off a : Nat) (bs : List Nat) : regByte (rs.putBytes bk g off bs) bk g a =
    if off ≤ a ∧ a < off + bs.length then bs.getD (a - off) 0 % 256 else regByte rs bk g a := by
  induction bs generalizing rs off with
  | nil => rw [if_neg (by simp)]; rfl
  | cons x bs ih =>
    rw [RegSt.putBytes, ih]
    have hput : regByte (rs.putLane (rkOf bk g (off / 256)) (off % 256 / 4)
        (setBits (sget 0 (sget [] rs.vregs (rkOf bk g (off / 256))) (off % 256 / 4)).toNat (8 * (off % 4)) 8 x)) bk g a =
        if a = off then x % 256 else regByte rs bk g a := by
      unfold regByte RegSt.putLane
      simp only [sget_sset, rkOf_same]
      by_cases hr : a / 256 = off / 256
      · by_cases hl : a % 256 / 4 = off % 256 / 4
        · simp only [hr, hl, if_true, sget_sset]
          rw [byte_setBits (Nat.mod_lt _ (by decide)) (Nat.mod_lt _ (by decide))]
          exact if_congr (by omega) rfl rfl
        · rw [if_pos hr, if_neg (show ¬ a = off by rintro rfl; exact hl rfl)]
          simp only [sget_sset, hl, if_false, hr]
      · rw [if_neg hr, if_neg (show ¬ a = off by rintro rfl; exact hr rfl)]
    rw [hput]
    rcases lt_trichotomy a off with h | rfl | h
    · rw [if_neg (by omega), if_neg (by omega), if_neg (by omega)]
    · simp
    · obtain ⟨d, rfl⟩ : ∃ d, a = off + 1 + d := ⟨a - (off + 1), by omega⟩
      simp only [show off + 1 + d - (off + 1) = d by omega, show off + 1 + d - off = d + 1 by omega, List.getD_cons_succ, List.length_cons,
        show ¬(off + 1 + d = off) by omega, if_false]
      exact if_congr (by omega) rfl rfl

theorem putBytes_frame (rs : RegSt) (bk g off : Nat) (bs : List Nat) : rs.putBytes bk g off bs = { rs with vregs := (rs.putBytes bk g off bs).vregs } := by
  induction bs generalizing rs off with
  | nil => rfl
  | cons x bs ih => rw [RegSt.putBytes, ih]; rfl

theorem clearMarks_frame (rs : RegSt) (bk g off n : Nat) : rs.clearMarks bk g off n = { rs with vpoison := (rs.clearMarks bk g off n).vpoison } := by
  unfold RegSt.clearMarks
  generalize span _ _ = l
  induction l generalizing rs with
  | nil => rfl
  | cons y l ih => rw [List.foldl_cons, ih]; rfl

/-! ### Writing a window outside frames (R315) -/

theorem recordRegs_frameless {s : State} {bk : Nat} {b : Block} (hb : s.block? bk = some b) (hf : b.frames = []) (g : Nat) (l : List Nat) :
    s.recordRegs bk g l = some s := by
  induction l with
  | nil => rfl
  | cons r l ih => simp only [State.recordRegs, record_frameless hb hf, ih]

theorem updFib_frame (s : State) (fk : Nat) (f : Fibre → Fibre) :
    s.updFib fk f = { s with rs := { s.rs with fibres := (s.updFib fk f).rs.fibres } } := by
  unfold State.updFib
  split <;> rfl

/-- Bytes written into a window change its registers, its marks, and what its fibre counts as live. -/
theorem wput_frameless {s : State} {bk : Nat} {b : Block} (hb : s.block? bk = some b) (hf : b.frames = []) (w : Who) (g off : Nat) (bs : List Nat) :
    ∃ vp fs, s.wput w bk g off bs = { s with rs := { s.rs with vregs := (s.rs.putBytes bk g off bs).vregs, vpoison := vp, fibres := fs } } ∧
      Loosens s (s.wput w bk g off bs) := by
  unfold State.wput
  rw [recordRegs_frameless hb hf]
  dsimp only
  rw [clearMarks_frame, putBytes_frame]
  generalize ((RegSt.clearMarks _ bk g off bs.length).vpoison) = vp
  generalize hu : ({ s with rs := { s.rs with vregs := (s.rs.putBytes bk g off bs).vregs, vpoison := vp } } : State) = u
  have hsame : Loosens s u := fun k y hk => .inr ⟨y, by rw [← hu] at hk; exact hk, rfl⟩
  split
  · exact ⟨vp, (u.updFib w.fk (Fibre.liveV ((off + bs.length - 1) / 256))).rs.fibres, (updFib_frame u w.fk _).trans (by rw [← hu]),
      hsame.trans (loosens_updFib u _ _ fun _ => rfl)⟩
  · exact ⟨vp, s.rs.fibres, hu.symm, hsame⟩

/-! ### Full bits of granules (R113) -/

theorem vfull_putFull (s : State) (rk i bk g r j : Nat) (v : Bool) : ({ s with rs := s.rs.putFull rk i v } : State).vfull bk g r j =
    if rkOf bk g r = rk ∧ j = i then v else s.vfull bk g r j := by
  simp only [State.vfull, RegSt.putFull, sget_sset]
  by_cases hk : rkOf bk g r = rk
  · by_cases hj : j = i <;> simp [hk, hj, bit_setBit]
  · simp [hk]

/-- One granule's bit is set or cleared. -/
theorem setFulls_one {off : Nat} (h : off % 16 = 0) (s : State) (bk g : Nat) (v : Bool) :
    s.setFulls bk g off 1 v = { s with rs := s.rs.putFull (rkOf bk g (off / 256)) (off % 256 / 16) v } := by
  have hn : (off + 1 + 15) / 16 - off / 16 = 1 := by omega
  have hr : off / 16 / 16 = off / 256 := by omega
  have hj : off / 16 % 16 = off % 256 / 16 := by omega
  simp only [State.setFulls, hn, span, List.foldl_cons, List.foldl_nil, hr, hj]

theorem granFull_setFulls {off a : Nat} (h : off % 16 = 0) (ha : a % 16 = 0) (s : State) (bk g : Nat) (v : Bool) :
    (s.setFulls bk g off 1 v).granFull bk g a = if a = off then v else s.granFull bk g a := by
  rw [setFulls_one h, State.granFull, vfull_putFull]
  exact if_congr (by rw [rkOf_same]; omega) rfl rfl

/-- A granule that is full stays so while others are filled, whosever they are. -/
theorem granFull_fill {off : Nat} (h : off % 16 = 0) (s : State) (bk g bk' g' a : Nat) (hf : s.granFull bk' g' a = true) :
    (s.setFulls bk g off 1 true).granFull bk' g' a = true := by
  rw [setFulls_one h, State.granFull, vfull_putFull]
  split
  · rfl
  · exact hf

theorem setFulls_frame {off : Nat} (h : off % 16 = 0) (s : State) (bk g : Nat) (v : Bool) :
    s.setFulls bk g off 1 v = { s with rs := { s.rs with fe := (s.setFulls bk g off 1 v).rs.fe } } := by
  rw [setFulls_one h]; rfl

/-! ### Ranges of a window (R108, R112) -/

/-- What the check of a window address assures of its range. -/
theorem winCheck_none {s : State} {bk hi g off n : Nat} (hoff : off < 2 ^ 19) (hn : 0 < n)
    (h : s.winCheck bk (hi * 2 ^ 26 + winAddr g off) n 16 = none) : off % 16 = 0 ∧ s.winHolds bk g off n = true := by
  have hw : winAddr g off = g * 2 ^ 19 + off := rfl
  unfold State.winCheck at h
  cases hb : s.block? bk with
  | none => simp [hb] at h
  | some b =>
    simp only [hb] at h
    split at h
    · cases h
    · next hr =>
      split at h
      · cases h
      · next ha =>
        have hg : winGrp (hi * 2 ^ 26 + winAddr g off) = g := by unfold winGrp; omega
        have ho : winOff (hi * 2 ^ 26 + winAddr g off) = off := by unfold winOff; omega
        rw [hg, ho] at hr
        have hallot : s.allot bk g = (b.group g).allot := by simp only [State.allot, State.group, hb]
        refine ⟨by omega, ?_⟩
        simp only [State.winHolds, hallot, decide_eq_true_eq]
        omega

end Sys2Proof.Proofs
end

section
/-!
PROOFS. An engine's command at work outside frames (R97, R100, R235, R237): the states it leads to, a read and a write of memory at the home, and what waits
meanwhile.
-/
namespace Sys2Proof.Proofs
open Sys2Proof Sys2Proof.Machine Sys2Proof.Laws

/-! ### States that a command leads to -/

/-- What the work of a command of block `bk`, which is `b` in `s`, leaves as it was: everything that its accesses and its places are found by. -/
structure Carries (s : State) (bk : Nat) (b : Block) (t : State) : Prop where
  ch : t.ch = s.ch
  ops : t.ops = s.ops
  launches : t.launches = s.launches
  block : ∃ e, t.block? bk = some { b with effects := e }
  host : SameHost s.host t.host
  regions : t.mem.regions = s.mem.regions
  stages : ∀ y ∈ t.mem.stages, y.bk ≠ bk
  idle : Idle t bk

namespace Carries
variable {s t : State} {bk : Nat} {b : Block}

theorem start (hb : s.block? bk = some b) (hs : ∀ y ∈ s.mem.stages, y.bk ≠ bk) (hi : Idle s bk) : Carries s bk b s :=
  ⟨rfl, rfl, rfl, ⟨b.effects, hb⟩, rfl, rfl, hs, hi⟩

section
variable (h : Carries s bk b t)
include h

/-- Updates that leave blocks, launches, operations and choices alone. -/
theorem step {u : State} (hch : u.ch = t.ch) (hops : u.ops = t.ops) (hl : u.launches = t.launches) (hbl : u.blocks = t.blocks)
    (hh : SameHost t.host u.host) (hr : u.mem.regions = t.mem.regions) (hs : u.mem.stages = t.mem.stages) (hi : Loosens t u) : Carries s bk b u := by
  obtain ⟨e, he⟩ := h.block
  exact ⟨hch.trans h.ch, hops.trans h.ops, hl.trans h.launches, ⟨e, by rw [State.block?, hbl]; exact he⟩, h.host.trans hh, hr.trans h.regions,
    by rw [hs]; exact h.stages, hi.idle h.idle⟩

theorem updCmd (id : Nat) (f : Cmd → Cmd) : Carries s bk b (t.updCmd id f) := h.step rfl rfl rfl rfl rfl rfl rfl (fun _ y hy => .inr ⟨y, hy, rfl⟩)

theorem effect : Carries s bk b (t.effect bk) := by
  obtain ⟨e, he⟩ := h.block
  have hb : (t.effect bk).block? bk = some { b with effects := true } := by
    rw [State.effect, block?_updBlock_self he fun b => by split <;> rfl]
    cases e <;> rfl
  exact ⟨h.ch, h.ops, h.launches, ⟨true, hb⟩, h.host, h.regions, h.stages, h.idle⟩

theorem launchOf (hb : s.block? bk = some b) : t.launchOf bk = s.launchOf bk := by
  obtain ⟨e, he⟩ := h.block
  rw [launchOf_eq he, launchOf_eq hb, State.launch?, h.launches]
  rfl

theorem ctxOf (hb : s.block? bk = some b) : t.ctxOf bk = s.ctxOf bk := by simp only [State.ctxOf, h.launchOf hb]

theorem rcbOf (hb : s.block? bk = some b) : t.rcbOf bk = s.rcbOf bk := by simp only [State.rcbOf, h.launchOf hb]

theorem allot (hb : s.block? bk = some b) (g : Nat) : t.allot bk g = s.allot bk g := by
  obtain ⟨e, he⟩ := h.block
  simp only [State.allot, State.group, he, hb]
  rfl

theorem ldGroup (hb : s.block? bk = some b) (k : CmdKind) (core g : Nat) : t.ldGroup k bk core g = s.ldGroup k bk core g := by
  obtain ⟨e, he⟩ := h.block
  simp only [State.ldGroup, State.memberOf, he, hb]
  rfl

theorem memUp (pa mt : Nat) : t.memUp pa mt = s.memUp pa mt := by
  unfold State.memUp State.stackUp State.slicesUp; rw [h.host]

/-- The same tables, where memory reads as it did. -/
theorem tables (hm : ReadsAs s.mem t.mem) : SameTables s t :=
  ⟨h.ch, h.host, h.regions, by rw [hm.frame], by rw [hm.frame], hm.homeB⟩

/-- The tables that the bytes of `t` hold. -/
theorem tables_of_mem : SameTables { s with mem := t.mem } t := ⟨h.ch, h.host, rfl, rfl, rfl, fun _ => rfl⟩

end
end Carries

/-! ### What waits on memory (R258) -/

theorem loosens_setReady (s : State) (fk : Nat) : Loosens s (s.setStat fk .ready) := by
  intro k y hk
  rw [State.setStat, fib_updFib] at hk
  split at hk
  · cases hf : s.fib fk with
    | none => simp [hf] at hk
    | some z =>
      simp only [hf, Option.map_some, Option.some.injEq] at hk
      exact .inl (unarrived_ready (by rw [← hk]))
  · exact .inr ⟨y, hk, rfl⟩

/-- Fibres and the cores' copies of lines. -/
def OnlyWaiters (s t : State) : Prop :=
  t = { s with rs := { s.rs with fibres := t.rs.fibres }, mem := { s.mem with copies := t.mem.copies } }

theorem OnlyWaiters.trans {s t u : State} (h : OnlyWaiters s t) (h' : OnlyWaiters t u) : OnlyWaiters s u := by
  unfold OnlyWaiters at *
  rw [h', h]

theorem onlyWaiters_updFib (s : State) (fk : Nat) (f : Fibre → Fibre) : OnlyWaiters s (s.updFib fk f) := by
  unfold OnlyWaiters
  rw [updFib_frame]

theorem refreshCopy_copies (s : State) (core : Nat) (t : Tgt) :
    s.refreshCopy core t = { s with mem := { s.mem with copies := (s.refreshCopy core t).mem.copies } } := by
  unfold State.refreshCopy
  split
  · split <;> rfl
  · rfl

/-- Fibres whose timelines the memory at home has reached go on, and nothing else happens. -/
theorem wake_frame (s : State) : OnlyWaiters s s.wake ∧ Loosens s s.wake := by
  unfold State.wake
  refine List.foldlRecOn s.rs.fibres _ (motive := fun t => OnlyWaiters s t ∧ Loosens s t) ⟨rfl, .refl s⟩ fun t ⟨ht, hl⟩ p _ => ?_
  split
  · split
    · split
      · split
        · split
          · exact ⟨ht.trans (onlyWaiters_updFib t _ _), hl.trans (loosens_setReady t _)⟩
          · refine ⟨ht.trans (.trans ?_ (onlyWaiters_updFib _ _ _)), hl.trans (.trans ?_ (loosens_advance _ _))⟩
            · unfold OnlyWaiters
              rw [refreshCopy_copies]
            · intro k y hy
              rw [refreshCopy_copies] at hy
              exact .inr ⟨y, hy, rfl⟩
        · exact ⟨ht, hl⟩
      · exact ⟨ht, hl⟩
    · exact ⟨ht, hl⟩
  · exact ⟨ht, hl⟩

theorem Carries.wake {s t : State} {bk : Nat} {b : Block} (h : Carries s bk b t) : Carries s bk b t.wake := by
  obtain ⟨hw, hl⟩ := wake_frame t
  unfold OnlyWaiters at hw
  exact h.step (by rw [hw]) (by rw [hw]) (by rw [hw]) (by rw [hw]) (by rw [hw]; rfl) (by rw [hw]) (by rw [hw]) hl

/-! ### Reading memory at the home (R97, R235) -/

/-- A command of the same operation: progress, standing and times apart. -/
def SameCmd (c c' : Cmd) : Prop := c' = { c with stat := c'.stat, prog := c'.prog, dst := c'.dst, wct := c'.wct }

theorem SameCmd.refl (c : Cmd) : SameCmd c c := rfl

theorem SameCmd.trans {c d e : Cmd} (h : SameCmd c d) (h' : SameCmd d e) : SameCmd c e := by
  unfold SameCmd at *
  rw [h', h]

theorem SameCmd.symm {c c' : Cmd} (h : SameCmd c c') : SameCmd c' c := by
  unfold SameCmd at h ⊢
  rw [h]

theorem SameCmd.fields {c c' : Cmd} (h : SameCmd c c') : c'.id = c.id ∧ c'.bk = c.bk ∧ c'.kind = c.kind ∧ c'.desc = c.desc ∧ c'.parts = c.parts := by
  unfold SameCmd at h
  rw [h]
  exact ⟨rfl, rfl, rfl, rfl, rfl⟩

/-- Where nothing of a block is staged or renamed, its reads are those of memory (R75, R295, R298). -/
theorem overTask_plain {s : State} {bk : Nat} (hr : s.renames bk = []) (hs : ∀ y ∈ s.mem.stages, y.bk ≠ bk) (fk id p : Nat) (ks : List (Nat × Nat))
    (bs : List (Nat × Bool)) : s.overTask bk fk id p ks bs = bs := by
  have hseen : s.seen bk = [] := by
    refine List.filter_eq_nil_iff.2 fun y hy => ?_
    simp [hs y hy]
  unfold State.renames at hr
  unfold State.overTask
  rw [hseen]
  cases hb : s.block? bk with
  | none => rfl
  | some b =>
    cases ht : b.task with
    | none => simp [ht]
    | some k =>
      simp only [hb, ht] at hr
      simp [ht, hr]

/-- What an engine's read of memory leaves: the line held at its home, and the core's copy of it refreshed. -/
def engRead (t : State) (c : Cmd) (pa mt : Nat) : State :=
  ((t.sense (some (t.ctxOf c.bk)) (.mem pa mt)).fillHome pa).refreshCopy c.core (.mem pa mt)

theorem fillHome_frame (s : State) (pa : Nat) : ∃ m, s.fillHome pa = { s with mem := m } ∧ ReadsAs s.mem m := by
  unfold State.fillHome
  split
  · exact ⟨s.mem, rfl, .refl _⟩
  · exact ⟨_, rfl, readsAs_fill _ _⟩

/-- A read changes what is held where, and logs. -/
theorem engRead_frame (t : State) (c : Cmd) (pa mt : Nat) :
    ∃ m h, engRead t c pa mt = { t with mem := m, host := h } ∧ ReadsAs t.mem m ∧ SameHost t.host h := by
  have hh := sense_host t (some (t.ctxOf c.bk)) (.mem pa mt)
  obtain ⟨h, hs⟩ := sense_eq t (some (t.ctxOf c.bk)) (.mem pa mt)
  unfold engRead
  rw [hs] at hh ⊢
  obtain ⟨m, hf, hm⟩ := fillHome_frame { t with host := h } pa
  rw [hf, refreshCopy_copies]
  exact ⟨_, h, rfl, hm.trans (readsAs_copies m _), hh⟩

theorem Carries.engRead {s t : State} {bk : Nat} {b : Block} (h : Carries s bk b t) (c : Cmd) (pa mt : Nat) : Carries s bk b (engRead t c pa mt) := by
  obtain ⟨m, k, he, hm, hh⟩ := engRead_frame t c pa mt
  rw [he]
  exact h.step rfl rfl rfl rfl hh hm.regions hm.stages fun _ y hy => .inr ⟨y, hy, rfl⟩

/-- A load of a command from memory that is not poisoned gives the bytes at the home. -/
theorem engLoad_mem {t : State} {c : Cmd} {p n pa mt : Nat} (hchk : t.check (t.ctxOf c.bk) p n n .load false = .ok (.mem pa mt)) (hmt : mt ≤ 1)
    (hup : t.memUp pa mt = true) (hpois : t.mem.homePois (pa / 128) = false) (hsnap : t.snapOf c.bk = none) (hown : t.ownStore c p n = false)
    (hren : t.renames c.bk = []) (hst : ∀ y ∈ t.mem.stages, y.bk ≠ c.bk) :
    t.engLoad c false p n = .ok (t.mem.homeBytes pa n) (engRead t c pa mt) := by
  have hmt2 : mt ≠ 2 := by omega
  have hread : (t.sense (some (t.ctxOf c.bk)) (.mem pa mt)).readTgt (.mem pa mt) n =
      (t.mem.homeBytes pa n, false, (t.sense (some (t.ctxOf c.bk)) (.mem pa mt)).fillHome pa) := by
    simp only [State.readTgt, hmt2, if_false, State.sense_mem, hpois]
  obtain ⟨m, k, he, hm, -⟩ := engRead_frame t c pa mt
  have hover : ∀ ks bs, (engRead t c pa mt).overTask c.bk c.fk c.op p ks bs = bs := fun ks bs => by
    rw [he]
    refine overTask_plain (s := { t with mem := m, host := k }) hren ?_ _ _ _ _ _
    rw [show ({ t with mem := m, host := k } : State).mem.stages = t.mem.stages from hm.stages]
    exact hst
  have htouch : t.touch (t.ctxOf c.bk) (.mem pa mt) = t := rfl
  unfold engRead at hover
  unfold State.engLoad State.engLoadA
  simp only [Bool.false_eq_true, if_false, hchk, State.globalPtr, State.tgtUp, hup, hown, State.linkDown, htouch, hsnap, hread, Bool.not_true, Bool.or_self, hover]
  simp [engRead, Function.comp_def]

/-! ### Writing memory at the home (R100, R237) -/

theorem length_natBytes (n v : Nat) : (natBytes n v).length = n := by
  unfold natBytes byteNats
  rw [List.length_map]
  induction n generalizing v with
  | zero => rfl
  | succ n ih => rw [bytesOf, List.length_cons, ih]

/-- The bytes of the number that bytes form are those bytes. -/
theorem natBytes_ofNats (bs : List Nat) (h : ∀ v ∈ bs, v < 256) : natBytes bs.length (ofNats bs) = bs := by
  unfold natBytes byteNats ofNats
  induction bs with
  | nil => rfl
  | cons v bs ih =>
    have hv := h v (.head _)
    simp only [List.map_cons, ofBytes, List.length_cons, bytesOf, BitVec.toNat_ofNat, List.cons.injEq]
    refine ⟨by omega, ?_⟩
    rw [show (v % 2 ^ 8 + 256 * ofBytes (bs.map fun b => BitVec.ofNat 8 b)) / 256 = ofBytes (bs.map fun b => BitVec.ofNat 8 b) by omega]
    exact ih fun w hw => h w (.tail _ hw)

/-- Bytes that a mask names one after another are one run. -/
theorem runsOf_run {mask i : Nat} {bs : List Nat} (hne : bs ≠ []) (h : ∀ k < bs.length, bit mask (i + k) = true) : runsOf mask i bs = [(i, bs)] := by
  induction bs generalizing i with
  | nil => exact absurd rfl hne
  | cons b bs ih =>
    have hi : bit mask i = true := h 0 (Nat.succ_pos _)
    rw [runsOf, if_pos hi]
    cases bs with
    | nil => rfl
    | cons v bs =>
      rw [ih (by simp) fun k hk => by have := h (k + 1) (Nat.succ_lt_succ hk); rwa [show i + (k + 1) = i + 1 + k by omega] at this]
      simp

/-- A store of all its bytes, fewer than a line, is one write of its target. -/
theorem writeMasked_whole (s : State) (w : Who) (core : Nat) (nt : Bool) (pa mt : Nat) {n : Nat} (data : Nat) (hn : 0 < n) (hn' : n < 128) :
    s.writeMasked w core nt (.mem pa mt) n data (fullMask n) = s.writeTgt core nt (.mem pa mt) (natBytes n data) := by
  have hlen := length_natBytes n data
  have hne : natBytes n data ≠ [] := fun e => by rw [e] at hlen; exact hn.ne hlen
  have hrun : runsOf (fullMask n) 0 (natBytes n data) = [(0, natBytes n data)] := runsOf_run hne fun k hk => by
    rw [hlen] at hk
    rw [bit_eq, fullMask, Nat.testBit_two_pow_sub_one]
    simpa using hk
  unfold State.writeMasked
  rw [if_neg (by omega), hrun]
  rfl

/-- Where nothing of a block is staged, a store that it performs at once changes no view of it. -/
theorem ownView_plain {s : State} {o : Op} (hs : ∀ y ∈ s.mem.stages, y.bk ≠ o.bk) (hn : s.snapOf o.bk = none) (x : Lane) (p n data mask : Nat) :
    ∃ st, s.ownView o x p n data mask = { s with mem := { s.mem with stages := st } } ∧ ∀ y ∈ st, y ∈ s.mem.stages := by
  have hmap : (s.mem.stages.map fun g => if g.bk = o.bk then g.trim x.fk o.id p n mask else g) = s.mem.stages :=
    (List.map_congr_left fun y hy => if_neg (hs y hy)).trans (List.map_id _)
  unfold State.ownView
  rw [hmap, hn]
  exact ⟨_, rfl, fun y hy => List.mem_of_mem_filter hy⟩

/-- A write of a block without renamed tiles at memory within a line is a store at its home (R237, R295). -/
theorem gwrite_plain {s : State} {bk : Nat} (hr : s.renames bk = []) (w : Who) (core : Nat) {pa mt n : Nat} (hmt : mt ≤ 1) (q data : Nat) (hn : 0 < n) (hn' : n < 128) :
    ∃ nt cs, s.gwrite w bk core false (.mem pa mt) q n data (fullMask n) = { s with mem := { s.mem.homeStore nt pa (natBytes n data) with copies := cs } } := by
  have hren : s.renMask bk q n = 0 := by simp [State.renMask, hr]
  have hmt2 : mt ≠ 2 := by omega
  simp only [State.gwrite, Tgt.isWin, Bool.false_eq_true, if_false, hren, Nat.zero_and, if_true, writeMasked_whole s w core false pa mt data hn hn']
  exact ⟨_, _, if_neg hmt2⟩

/-- The bytes `bs` stand at `pa`, and the command's registers and entry are as before. -/
structure Wrote (t : State) (pa : Nat) (bs : List Nat) (u : State) : Prop where
  mem : ∃ nt cs st, u.mem = { t.mem.homeStore nt pa bs with copies := cs, stages := st }
  regs : u.rs = { t.rs with fibres := u.rs.fibres }
  cmds : u.cmds = t.cmds

section
variable {s t : State} {bk : Nat} {b : Block} (h : Carries s bk b t) (hb : s.block? bk = some b) (hf : b.frames = []) (hp : Plain s bk)
include h hb

omit hb in
theorem Carries.sense (c : Option Nat) (tg : Tgt) : ∃ k, t.sense c tg = { t with host := k } ∧ Carries s bk b { t with host := k } := by
  obtain ⟨k, hk⟩ := sense_eq t c tg
  have hh := sense_host t c tg
  rw [hk] at hh
  exact ⟨k, hk, h.step rfl rfl rfl rfl hh rfl rfl fun _ y hy => .inr ⟨y, hy, rfl⟩⟩

theorem Carries.snapOf (hp : Plain s bk) : t.snapOf bk = none := by
  have hd := hp.det
  simp only [State.rcbOf] at hd
  simp only [State.snapOf, h.launchOf hb]
  cases hl : s.launchOf bk with
  | none => rfl
  | some l => simp [hl] at hd; simp [hd]

theorem Carries.renames (hp : Plain s bk) : t.renames bk = [] := by
  obtain ⟨e, he⟩ := h.block
  have hr := hp.ren
  simp only [State.renames, hb] at hr
  simp only [State.renames, he, hr]

theorem Carries.staging (hf : b.frames = []) (hp : Plain s bk) (p : Nat) : t.stagesAt bk p = false := by
  obtain ⟨e, he⟩ := h.block
  simp [State.stagesAt, State.staging, h.rcbOf hb, hp.det, he, hf]

include hf hp

/-- A store of a command at memory outside frames is performed at its home (R100). -/
theorem storeAt_mem {c : Cmd} (hbk : c.bk = bk) {pa mt n : Nat} (hmt : mt ≤ 1) (q data scope : Nat) (hn : 0 < n) (hn' : n < 128) :
    ∃ w u, t.storeAt c (.mem pa mt) q n data scope = some (w, u) ∧ Carries s bk b u ∧ Wrote t pa (natBytes n data) u := by
  subst hbk
  obtain ⟨e, he⟩ := h.block
  have hlog : t.logConv c.bk q n (fullMask n) (.mem pa mt) = some t := by simp [State.logConv, he, hf]
  obtain ⟨k, hsense, hcv⟩ := h.sense (some (t.ctxOf c.bk)) (.mem pa mt)
  obtain ⟨nt, cs, hg⟩ := gwrite_plain (hcv.renames hb hp) { pc := c.pc, fk := c.fk } c.core (pa := pa) hmt q data hn hn'
  generalize hx : ({ t with host := k, mem := { t.mem.homeStore nt pa (natBytes n data) with copies := cs } } : State) = x at hg
  have hcx : Carries s c.bk b x := by
    obtain ⟨hr, hs⟩ := homeStore_frame t.mem nt pa (natBytes n data)
    rw [← hx]
    exact hcv.step rfl rfl rfl rfl rfl hr hs fun _ y hy => .inr ⟨y, hy, rfl⟩
  have hce := hcx.effect
  obtain ⟨st, hown, hst⟩ := ownView_plain (o := { (x.effect c.bk).putFor c q n data scope (.mem pa mt) .done with id := c.op }) hce.stages (hce.snapOf hb hp)
    { engLane c.fk with ptr := q, tgt := .mem pa mt } q n data (fullMask n)
  generalize hz : ({ x.effect c.bk with mem := { (x.effect c.bk).mem with stages := st } } : State) = z at hown
  have hcz : Carries s c.bk b z := by
    rw [← hz]
    exact ⟨hce.ch, hce.ops, hce.launches, hce.block, hce.host, hce.regions, fun y hy => hce.stages y (hst y hy), hce.idle⟩
  obtain ⟨hw, -⟩ := wake_frame z
  unfold OnlyWaiters at hw
  refine ⟨(z.wcts c.core (z.scopeFor c.bk c.core scope) (scope == 0) (.mem pa mt)).1, z.wake, ?_, hcz.wake, ⟨nt, z.wake.mem.copies, st, ?_⟩, ?_, ?_⟩
  · have htouch : t.touch (t.ctxOf c.bk) (.mem pa mt) = t := rfl
    simp only [State.storeAt, htouch, hlog, show ¬ n = 128 by omega, if_false, hsense, hg, hown]
    rfl
  all_goals rw [hw, ← hz, ← hx]; rfl

/-- A store of a command at memory that its tables map takes effect at once (R100). -/
theorem engStore_mem {c : Cmd} (hbk : c.bk = bk) {p pa mt n : Nat} (hchk : t.check (t.ctxOf c.bk) p n n .store false = .ok (.mem pa mt)) (hmt : mt ≤ 1)
    (hup : t.memUp pa mt = true) (hown : t.ownStore c p n = false) (data scope : Nat) (hn : 0 < n) (hn' : n < 128) :
    ∃ w u, t.engStore c false p n data scope = .ok [] (u.updCmd c.id fun c => { c with wct := max c.wct w }) ∧ Carries s bk b u ∧ Wrote t pa (natBytes n data) u := by
  obtain ⟨w, u, hs, hu, hwrote⟩ := storeAt_mem h hb hf hp hbk hmt (pa := pa) p data scope hn hn'
  refine ⟨w, u, ?_, hu, hwrote⟩
  have hst : t.stagesAt c.bk p = false := hbk ▸ h.staging hb hf hp p
  unfold State.engStore
  simp only [Bool.false_eq_true, if_false, hst, hchk]
  simp only [State.redCheck, State.tgtUp, hup, hown, State.linkDown, hs, Bool.not_true, Bool.or_self, Bool.false_eq_true, if_false]

end

namespace Wrote
variable {t u : State} {pa : Nat} {bs : List Nat} (h : Wrote t pa bs u)
include h

theorem homeB (hline : pa % 128 + bs.length ≤ 128) (a : Nat) :
    u.mem.homeB a = if pa ≤ a ∧ a < pa + bs.length then bs.getD (a - pa) 0 % 256 else t.mem.homeB a := by
  obtain ⟨nt, cs, st, hm⟩ := h.mem
  rw [← homeB_homeStore t.mem nt pa bs a hline, hm]
  rfl

theorem cleaner : Cleaner t.mem u.mem := by
  obtain ⟨nt, cs, st, hm⟩ := h.mem
  rw [hm]
  exact homeStore_cleaner t.mem nt pa bs

end Wrote

/-! ### Bytes written one string after another -/

theorem laid_append (old : Nat → Nat) (l : List (Nat × List Nat)) (x : Nat × List Nat) (a : Nat) :
    laid old (l ++ [x]) a = if x.1 ≤ a ∧ a < x.1 + x.2.length then x.2.getD (a - x.1) 0 else laid old l a := by
  simp only [laid, List.foldl_append, List.foldl_cons, List.foldl_nil]

theorem laid_outside (old : Nat → Nat) (l : List (Nat × List Nat)) {a : Nat} (h : ¬ covers l a) : laid old l a = old a := by
  induction l using List.reverseRecOn with
  | nil => rfl
  | append_singleton l x ih =>
    have hx : ¬ (x.1 ≤ a ∧ a < x.1 + x.2.length) := fun hc => h ⟨x, by simp, hc⟩
    have hl : ¬ covers l a := fun ⟨y, hy, hc⟩ => h ⟨y, by simp [hy], hc⟩
    rw [laid_append, if_neg hx, ih hl]

/-! ### A walk's bytes, element by element (R93) -/

theorem span_append (a m n : Nat) : span a (m + n) = span a m ++ span (a + m) n := by
  induction m generalizing a with
  | zero => simp [span]
  | succ m ih => rw [show m + 1 + n = m + n + 1 by omega, span, span, ih, show a + 1 + m = a + (m + 1) by omega, List.cons_append]

theorem span_map_range {β : Type} (a n : Nat) (f : Nat → β) : (span a n).map f = (List.range n).map fun i => f (a + i) := by
  induction n with
  | zero => rfl
  | succ n ih => rw [span_append, List.map_append, ih, List.range_succ, List.map_append]; simp [span]

/-- Bytes `f` from `b * y` on, as those of the elements of `b` bytes from `y` on. -/
theorem span_elements {β : Type} (b y n : Nat) (f : Nat → β) :
    (span (b * y) (b * n)).map f = (span y n).flatMap fun e => (List.range b).map fun i => f (b * e + i) := by
  induction n generalizing y with
  | zero => rfl
  | succ n ih =>
    rw [show b * (n + 1) = b + b * n by ring, span_append, List.map_append, span_map_range, show b * y + b = b * (y + 1) by ring, ih, span, List.flatMap_cons]

end Sys2Proof.Proofs
end

section
/-!
PROOFS. A part of `lfetch` or `lcast` that comes to registers (R92 to R96, R99): the elements of a granule are read, the granule is written whole and filled,
granule after granule, and then the completion granule is filled.
-/
namespace Sys2Proof.Proofs
open Sys2Proof Sys2Proof.Machine Sys2Proof.Laws

/-! ### Element sizes and alignment (R92 to R94) -/

theorem ldEsz_cases (d : Nat) : ldEsz d = 1 ∨ ldEsz d = 2 ∨ ldEsz d = 4 ∨ ldEsz d = 8 := by
  have h : bits d 423 2 < 4 := Nat.mod_lt _ (by decide)
  unfold ldEsz
  interval_cases bits d 423 2 <;> simp

theorem ldEsz_granule (d : Nat) : ldEsz d * (16 / ldEsz d) = 16 := by
  rcases ldEsz_cases d with h | h | h | h <;> rw [h]

theorem ldEsz_pos (d : Nat) : 0 < ldEsz d := by rcases ldEsz_cases d with h | h | h | h <;> omega

/-- The elements of a granule lie in the walk that has the granule. -/
theorem element_lt {d n j e : Nat} (hj : j < n / 16) (he : e < j * (16 / ldEsz d) + 16 / ldEsz d) : e < n / ldEsz d := by
  rcases ldEsz_cases d with h | h | h | h <;> rw [h] at he ⊢ <;> omega

theorem ldMisaligned_laddr {k : CmdKind} {d : Nat} (h : ldMisaligned k d = false) : ldLaddr d % 16 = 0 := by
  simp only [ldMisaligned, Bool.or_eq_false_iff, decide_eq_false_iff_not, ne_eq, Decidable.not_not] at h
  obtain ⟨⟨⟨-, hl⟩, -⟩, -⟩ := h
  exact hl

theorem ldMisaligned_bytes {k : CmdKind} {d : Nat} (hk : k ≠ .lcopy) (h : ldMisaligned k d = false) : ldBytes d % 16 = 0 := by
  simp only [ldMisaligned, hk, if_false, Bool.or_eq_false_iff, decide_eq_false_iff_not, ne_eq, Decidable.not_not] at h
  exact h.2.2

theorem winOff_aligned {w : Nat} (h : w % 16 = 0) : winOff w % 16 = 0 := by unfold winOff; omega

/-! ### The elements of a granule (R93, R97) -/

/-- Reads of `n` bytes at pointers, one after another. -/
def loadAll (c : Cmd) (tu : Bool) (n : Nat) : List Nat → State → EAcc
  | [], s => .ok [] s
  | p :: ps, s => match s.engLoad c tu p n with
    | .ok bs s => match loadAll c tu n ps s with
      | .ok cs s => .ok (bs ++ cs) s
      | x => x
    | x => x

theorem ldGather_eq (c : Cmd) (d : Nat) (es : List Nat) (s : State) :
    s.ldGather c d es = loadAll c (ldTureen d) (ldEsz d) (es.map (ldElem d)) s := by
  induction es generalizing s with
  | nil => rfl
  | cons e es ih =>
    simp only [State.ldGather, List.map_cons, loadAll]
    cases s.engLoad c (ldTureen d) (ldElem d e) (ldEsz d) with
    | ok bs s => simp only [ih] <;> rfl
    | wait s => rfl
    | fail f det s => rfl

theorem copySrc_eq (c : Cmd) (d j : Nat) (es : List Nat) (s : State) :
    s.copySrc c d j es = loadAll c (ldTureen d) (ldEsz d) (es.map fun e => ldGaddr d + 16 * j + e * ldEsz d) s := by
  induction es generalizing s with
  | nil => rfl
  | cons e es ih =>
    simp only [State.copySrc, List.map_cons, loadAll]
    cases s.engLoad c (ldTureen d) (ldGaddr d + 16 * j + e * ldEsz d) (ldEsz d) with
    | ok bs s => simp only [ih] <;> rfl
    | wait s => rfl
    | fail f det s => rfl

theorem homeBytes_congr {m n : MemSt} (h : ∀ a, n.homeB a = m.homeB a) (pa k : Nat) : n.homeBytes pa k = m.homeBytes pa k := by
  simp only [MemSt.homeBytes, funext h]

section
variable {s t : State} {c : Cmd} {b : Block}

/-- The pointers and places `l` of a command's reads: each is memory, whatever the reads leave. -/
def Readable (s t : State) (c : Cmd) (b : Block) (n : Nat) (l : List (Nat × Nat)) : Prop :=
  ∀ x ∈ l, ∃ mt, mt ≤ 1 ∧ s.memUp x.2 mt = true ∧ t.mem.homePois (x.2 / 128) = false ∧
    ∀ u, Carries s c.bk b u → ReadsAs t.mem u.mem → u.check (s.ctxOf c.bk) x.1 n n .load false = .ok (.mem x.2 mt)

theorem loadAll_mem (h : Carries s c.bk b t) (hb : s.block? c.bk = some b) (hp : Plain s c.bk) (hops : ∀ o ∈ s.ops, ¬ o.id < c.op) {n : Nat}
    {l : List (Nat × Nat)} (hl : Readable s t c b n l) : ∃ u, loadAll c false n (l.map (·.1)) t = .ok (l.flatMap fun x => t.mem.homeBytes x.2 n) u ∧
      Carries s c.bk b u ∧ ReadsAs t.mem u.mem ∧ u.rs = t.rs ∧ u.cmds = t.cmds := by
  induction l generalizing t with
  | nil => exact ⟨t, rfl, h, .refl _, rfl, rfl⟩
  | cons x l ih =>
    obtain ⟨mt, hmt, hup, hpois, hchk⟩ := hl x (.head _)
    have hown : t.ownStore c x.1 n = false := by
      unfold State.ownStore
      rw [h.ops, List.any_eq_false]
      intro o ho
      simp [hops o ho]
    have hload := engLoad_mem (c := c) ((h.ctxOf hb).symm ▸ hchk t h (.refl _)) hmt ((h.memUp _ _).trans hup) hpois (h.snapOf hb hp) hown (h.renames hb hp) h.stages
    obtain ⟨m, k, he, hm, -⟩ := engRead_frame t c x.2 mt
    have hu := h.engRead c x.2 mt
    rw [he] at hload hu
    obtain ⟨u, hall, hc, hr, hrs, hcmds⟩ := ih hu fun y hy => by
      obtain ⟨mt, hmt, hup, hpois, hchk⟩ := hl y (.tail _ hy)
      exact ⟨mt, hmt, hup, (hm.homePois _).trans hpois, fun v hv hrv => hchk v hv (hm.trans hrv)⟩
    refine ⟨u, ?_, hc, hm.trans hr, hrs, hcmds⟩
    simp only [List.map_cons, loadAll, hload, hall, List.flatMap_cons, homeBytes_congr hm.homeB]

end

/-- Bytes of elements that stand at `p`, in their order. -/
theorem elements_bytes (m : MemSt) (p : Nat → Nat) {k : Nat} (hk : 0 < k) (y n : Nat) :
    (span y n).flatMap (fun e => m.homeBytes (p e) k) = (span (k * y) (k * n)).map fun i => m.homeB (p (i / k) + i % k) := by
  rw [span_elements]
  congr 1
  funext e
  rw [MemSt.homeBytes, span_map_range]
  refine List.map_congr_left fun i hi => ?_
  have hi := List.mem_range.1 hi
  rw [Nat.mul_add_div hk, Nat.div_eq_of_lt hi, Nat.mul_add_mod, Nat.mod_eq_of_lt hi, Nat.add_zero]

/-! ### A granule that is written (R96) -/

/-- No lane waits for a granule. -/
def NoWaiters (s : State) : Prop := ∀ o ∈ s.ops, ∀ x ∈ o.lanes, x.st = .pending

theorem serve_none {s : State} (h : NoWaiters s) (t : Tgt) : s.serve t = s := by
  have hw : s.waiters t = [] := by
    unfold State.waiters
    rw [List.flatMap_eq_nil_iff.2 fun o ho => ?_]
    · rfl
    rw [List.flatten_eq_nil_iff]
    intro l hl
    obtain ⟨k, hk, rfl⟩ := List.mem_mapIdx.1 hl
    rw [h o ho _ (List.getElem_mem hk)]
  rw [State.serve, hw]
  rfl

theorem fillAt_win {s : State} (h : NoWaiters s) (bk g : Nat) {off : Nat} (ho : off % 16 = 0) :
    s.fillAt (.win bk g off) 16 = s.setFulls bk g off 1 true := by
  have hdown : ((Tgt.win bk g off).down 16).add (16 * 0) = .win bk g off := by
    simp only [Tgt.down, Tgt.add, Tgt.win.injEq, true_and]
    omega
  have hq : NoWaiters (s.setFulls bk g off 1 true) := by rw [setFulls_frame ho]; exact h
  simp only [State.fillAt, Tgt.granular, if_true, span, List.foldl_cons, List.foldl_nil, hdown, State.setFullAt, serve_none hq]

section
variable {s t : State} {c : Cmd} {b : Block} {g off : Nat} {bs : List Nat}

theorem Carries.setFulls {bk : Nat} (h : Carries s bk b t) (ho : off % 16 = 0) (k : Nat) (v : Bool) : Carries s bk b (t.setFulls k g off 1 v) := by
  rw [setFulls_frame ho]
  exact h.step rfl rfl rfl rfl rfl rfl rfl fun _ y hy => .inr ⟨y, hy, rfl⟩

/-- What the delivery of a granule inside the allotment does, step by step. -/
theorem putGranule_win (hskip : c.skip = []) (hc : ∀ e ∈ t.cmds, ¬ e.id < c.id) (hq : NoWaiters t) (hb : t.block? c.bk = some b) (hf : b.frames = [])
    (ho : off % 16 = 0) (hl : bs.length = 16) (hw : t.winHolds c.bk g off 16 = true) :
    t.putGranule c (.win c.bk g off) bs = (((t.wput { pc := c.pc, fk := c.fk } c.bk g off bs).effect c.bk).setFulls c.bk g off 1 true).wake := by
  have htouch : t.touch (t.ctxOf c.bk) (.win c.bk g off) = t := rfl
  obtain ⟨vp, fs, hput, -⟩ := wput_frameless hb hf { pc := c.pc, fk := c.fk } g off bs
  have hmark : ∀ f : Cmd → Cmd, (∀ e ∈ t.cmds, f e = e) → ({ t.wput { pc := c.pc, fk := c.fk } c.bk g off bs with
      cmds := (t.wput { pc := c.pc, fk := c.fk } c.bk g off bs).cmds.map f } : State) = t.wput { pc := c.pc, fk := c.fk } c.bk g off bs := by
    intro f hfix
    rw [hput]
    dsimp only
    rw [List.map_congr_left hfix, List.map_id']
  unfold State.putGranule
  simp only [hskip, List.any_nil, Bool.false_eq_true, if_false, htouch, State.winDeliver, hl, hw, if_true, Bool.not_true]
  rw [hmark _ fun e he => by simp [hc e he]]
  have hnone : NoWaiters ((t.wput { pc := c.pc, fk := c.fk } c.bk g off bs).effect c.bk) := by rw [hput]; exact hq
  simp only [Tgt.granular, if_true, fillAt_win hnone c.bk g ho]

end

end Sys2Proof.Proofs
end

section
/-!
PROOFS. The granules of a part, one after another (R93, R95, R96): what each of them leaves, and what the part has left when its last one is written and its
completion granule is filled.
-/
namespace Sys2Proof.Proofs
open Sys2Proof Sys2Proof.Machine Sys2Proof.Laws

/-! ### The one command under way -/

theorem cmd?_one {s : State} {c : Cmd} (h : s.cmds = [c]) : s.cmd? c.id = some c := by simp [State.cmd?, h]

theorem cmds_updCmd_one {s : State} {c : Cmd} (h : s.cmds = [c]) (f : Cmd → Cmd) : (s.updCmd c.id f).cmds = [f c] := by
  simp [State.updCmd, h, updFirst]

theorem SameCmd.setProgress (c : Cmd) (core n rb : Nat) : SameCmd c (c.setProgress core n rb) := rfl

/-! ### A granule inside the allotment (R96, R113) -/

theorem homeB_lt (m : MemSt) (a : Nat) : m.homeB a < 256 := by
  unfold MemSt.homeB MemSt.dramB
  split
  · split
    · decide
    · exact BitVec.isLt _
  · split
    · decide
    · exact BitVec.isLt _

/-- The bytes `bs` stand in the granule at `off`, which is full, and no other byte of its group has changed and no other granule emptied. -/
structure Delivered (t : State) (bk g off : Nat) (bs : List Nat) (u : State) : Prop where
  reads : ReadsAs t.mem u.mem
  cmds : u.cmds = t.cmds
  bytes : ∀ a, u.wget bk g a = if off ≤ a ∧ a < off + bs.length then bs.getD (a - off) 0 % 256 else t.wget bk g a
  full : u.granFull bk g off = true
  kept : ∀ bk' g' a, t.granFull bk' g' a = true → u.granFull bk' g' a = true

theorem putGranule_delivered {s t : State} {c : Cmd} {b : Block} {g off : Nat} {bs : List Nat} (h : Carries s c.bk b t) (hf : b.frames = [])
    (hskip : c.skip = []) (hc : t.cmds = [c]) (hq : NoWaiters s) (ho : off % 16 = 0) (hl : bs.length = 16) (hw : t.winHolds c.bk g off 16 = true) :
    Carries s c.bk b (t.putGranule c (.win c.bk g off) bs) ∧ Delivered t c.bk g off bs (t.putGranule c (.win c.bk g off) bs) := by
  obtain ⟨e, he⟩ := h.block
  have hf' : ({ b with effects := e } : Block).frames = [] := hf
  have hqt : NoWaiters t := by unfold NoWaiters; rw [h.ops]; exact hq
  rw [putGranule_win hskip (by simp [hc]) hqt he hf' ho hl hw]
  obtain ⟨vp, fs, hput, hloose⟩ := wput_frameless he hf' { pc := c.pc, fk := c.fk } g off bs
  generalize hx : t.wput { pc := c.pc, fk := c.fk } c.bk g off bs = x at hput hloose
  have hcx : Carries s c.bk b x := h.step (by rw [hput]) (by rw [hput]) (by rw [hput]) (by rw [hput]) (by rw [hput]; rfl) (by rw [hput]) (by rw [hput]) hloose
  generalize hy : (x.effect c.bk).setFulls c.bk g off 1 true = y
  have hframe : y = { x.effect c.bk with rs := { x.rs with fe := y.rs.fe } } := by rw [← hy, setFulls_frame ho]; rfl
  obtain ⟨hw, -⟩ := wake_frame y
  unfold OnlyWaiters at hw
  refine ⟨hy ▸ (hcx.effect.setFulls ho c.bk true).wake, ⟨?_, ?_, fun a => ?_, ?_, fun bk' g' a ha => ?_⟩⟩
  · rw [hw, hframe, hput]; exact readsAs_copies _ _
  · rw [hw, hframe, hput]; rfl
  · have hrs : y.wake.wget c.bk g a = regByte (t.rs.putBytes c.bk g off bs) c.bk g a := by rw [hw, hframe, hput]; rfl
    rw [hrs, regByte_putBytes, wget_eq]
  · have hg : y.wake.granFull c.bk g off = y.granFull c.bk g off := by rw [hw]; rfl
    rw [hg, ← hy, granFull_setFulls ho ho, if_pos rfl]
  · have hg : y.wake.granFull bk' g' a = y.granFull bk' g' a := by rw [hw]; rfl
    rw [hg, ← hy]
    refine granFull_fill ho _ _ _ _ _ _ ?_
    rw [hput]
    exact ha

/-- The bytes of granule `j` of a walk, whose elements stand at `p`. -/
theorem granule_bytes (m : MemSt) (p : Nat → Nat) (d j : Nat) : (span (j * (16 / ldEsz d)) (16 / ldEsz d)).flatMap (fun e => m.homeBytes (p e) (ldEsz d)) =
    (span (16 * j) 16).map fun i => m.homeB (p (i / ldEsz d) + i % ldEsz d) := by
  have hsz := ldEsz_granule d
  have hstart : ldEsz d * (j * (16 / ldEsz d)) = 16 * j := by rw [Nat.mul_left_comm, hsz, Nat.mul_comm]
  rw [elements_bytes m p (ldEsz_pos d), hsz, hstart]

/-! ### A part that comes to registers (R95, R96) -/

/-- A part of `c` for `core`, whose granules stand in group `gk` of the command's own block: its places and its elements' are found in `s`. -/
structure Part (s : State) (c : Cmd) (core : Nat) (b : Block) (gk : Nat) (p : Nat → Nat) : Prop where
  block : s.block? c.bk = some b
  frames : b.frames = []
  plain : Plain s c.bk
  skip : c.skip = []
  first : ∀ o ∈ s.ops, ¬ o.id < c.op
  quiet : NoWaiters s
  dkind : ldDkind c.desc.toNat = 0
  tureen : ldTureen c.desc.toNat = false
  group : s.ldGroup c.kind c.bk core (winGrp (ldLaddr c.desc.toNat)) = gk
  aligned : winOff (ldLaddr c.desc.toNat) % 16 = 0
  holds : ∀ j < ldBytes c.desc.toNat / 16, s.winHolds c.bk gk (winOff (ldLaddr c.desc.toNat) + 16 * j) 16 = true
  source : ∀ e < ldBytes c.desc.toNat / ldEsz c.desc.toNat, ∃ mt, mt ≤ 1 ∧
    s.check (s.ctxOf c.bk) (ldElem c.desc.toNat e) (ldEsz c.desc.toNat) (ldEsz c.desc.toNat) .load false = .ok (.mem (p e) mt) ∧
    s.memUp (p e) mt = true ∧ s.mem.homePois (p e / 128) = false
  last : ldCgran c.desc.toNat ≠ 0 → winOff (ldCgran c.desc.toNat) % 16 = 0 ∧
    s.winHolds c.bk (s.ldGroup c.kind c.bk core (winGrp (ldCgran c.desc.toNat))) (winOff (ldCgran c.desc.toNat)) 16 = true

/-- The first `j` granules of the part are written, and memory reads as before. -/
structure Delivering (s : State) (c : Cmd) (b : Block) (gk : Nat) (p : Nat → Nat) (j : Nat) (t : State) : Prop where
  carries : Carries s c.bk b t
  reads : ReadsAs s.mem t.mem
  cmds : t.cmds = [c]
  bytes : ∀ i < 16 * j, t.wget c.bk gk (winOff (ldLaddr c.desc.toNat) + i) =
    s.mem.homeB (p (i / ldEsz c.desc.toNat) + i % ldEsz c.desc.toNat)
  full : ∀ i < j, t.granFull c.bk gk (winOff (ldLaddr c.desc.toNat) + 16 * i) = true

section
variable {s t : State} {c : Cmd} {core : Nat} {b : Block} {gk : Nat} {p : Nat → Nat}

theorem Carries.winHolds (h : Carries s c.bk b t) (hb : s.block? c.bk = some b) (g off n : Nat) : t.winHolds c.bk g off n = s.winHolds c.bk g off n := by
  simp only [State.winHolds, h.allot hb]

/-- The same part, and the same granules, of the command further on. -/
theorem Part.same {c' : Cmd} (h : Part s c core b gk p) (hc : SameCmd c c') : Part s c' core b gk p := by
  unfold SameCmd at hc
  rw [hc]
  exact ⟨h.block, h.frames, h.plain, h.skip, h.first, h.quiet, h.dkind, h.tureen, h.group, h.aligned, h.holds, h.source, h.last⟩

theorem Delivering.same {c' : Cmd} {j : Nat} (h : Delivering s c b gk p j t) (hc : SameCmd c c') {u : State} (hu : u = { t with cmds := [c'] }) :
    Delivering s c' b gk p j u := by
  unfold SameCmd at hc
  rw [hu, hc]
  exact ⟨h.carries.step rfl rfl rfl rfl rfl rfl rfl fun _ y hy => .inr ⟨y, hy, rfl⟩, h.reads, rfl, h.bytes, h.full⟩

variable (hpart : Part s c core b gk p)
include hpart

/-- The elements of granule `j`, as they stood in memory. -/
theorem ldGather_part {j : Nat} (hj : j < ldBytes c.desc.toNat / 16) (h : Carries s c.bk b t) (hr : ReadsAs s.mem t.mem) :
    let d := c.desc.toNat
    ∃ u, t.ldGather c d (span (j * (16 / ldEsz d)) (16 / ldEsz d)) =
        .ok ((span (16 * j) 16).map fun i => s.mem.homeB (p (i / ldEsz d) + i % ldEsz d)) u ∧
      Carries s c.bk b u ∧ ReadsAs t.mem u.mem ∧ u.rs = t.rs ∧ u.cmds = t.cmds := by
  intro d
  let es := span (j * (16 / ldEsz d)) (16 / ldEsz d)
  have hread : Readable s t c b (ldEsz d) (es.map fun e => (ldElem d e, p e)) := by
    intro x hx
    obtain ⟨e, he, rfl⟩ := List.mem_map.1 hx
    obtain ⟨mt, hmt, hchk, hup, hpois⟩ := hpart.source e (element_lt hj (mem_span.1 he).2)
    exact ⟨mt, hmt, hup, (hr.homePois _).trans hpois, fun u hu hru => ((hu.tables (hr.trans hru)).check ..).trans hchk⟩
  obtain ⟨u, hall, hu⟩ := loadAll_mem h hpart.block hpart.plain hpart.first hread
  refine ⟨u, ?_, hu⟩
  rw [List.map_map, List.flatMap_map] at hall
  rw [ldGather_eq, hpart.tureen, ← granule_bytes s.mem]
  simp only [homeBytes_congr hr.homeB] at hall
  exact hall

/-- One round of the delivery writes one granule. -/
theorem ladleLoop_granule {j : Nat} (h : Delivering s c b gk p j t) (hj : j < ldBytes c.desc.toNat / 16) (fuel : Nat) :
    ∃ u, ladleLoop c.id core c.bk (fuel + 1) j t = ladleLoop c.id core c.bk fuel (j + 1) u ∧
      Delivering s (c.setProgress core (j + 2) c.bk) b gk p (j + 1) u := by
  have hk := hpart.dkind
  have htgt : ∀ u : State, Carries s c.bk b u → u.ldTarget c core c.bk (16 * j) = .win c.bk gk (winOff (ldLaddr c.desc.toNat) + 16 * j) := fun u hu => by
    have hg := (hu.ldGroup hpart.block c.kind core (winGrp (ldLaddr c.desc.toNat))).trans hpart.group
    simp only [State.ldTarget, hk, hg]
  obtain ⟨u, hget, hu, hru, hrs, hcmds⟩ := ldGather_part hpart hj h.carries h.reads
  have hfetch : t.ldFetch c core c.bk j = .ok ((span (16 * j) 16).map fun i => s.mem.homeB (p (i / ldEsz c.desc.toNat) + i % ldEsz c.desc.toNat)) u := by
    simp only [State.ldFetch, htgt t h.carries, State.ldReady, hget]
  generalize hbs : ((span (16 * j) 16).map fun i => s.mem.homeB (p (i / ldEsz c.desc.toNat) + i % ldEsz c.desc.toNat)) = bs at hfetch
  have hlen : bs.length = 16 := by rw [← hbs, List.length_map, span_length]
  have haligned := hpart.aligned
  obtain ⟨hv, hdel⟩ := putGranule_delivered hu hpart.frames hpart.skip (hcmds.trans h.cmds) hpart.quiet (off := winOff (ldLaddr c.desc.toNat) + 16 * j) (g := gk)
    (by omega) hlen ((hu.winHolds hpart.block ..).trans (hpart.holds j hj))
  generalize hw : u.putGranule c (.win c.bk gk (winOff (ldLaddr c.desc.toNat) + 16 * j)) bs = w at hv hdel
  refine ⟨w.updCmd c.id (Cmd.setProgress core (j + 2) c.bk), ?_, ?_⟩
  · rw [ladleLoop]
    simp only [cmd?_one h.cmds, Nat.not_le.2 hj, hk, hfetch, htgt u hu, hw, if_false, Nat.zero_ne_one, false_and]
  · have hnext : Delivering s c b gk p (j + 1) w := by
      refine ⟨hv, h.reads.trans (hru.trans hdel.reads), hdel.cmds.trans (hcmds.trans h.cmds), fun i hi => ?_, fun i hi => ?_⟩
      · rw [hdel.bytes, hlen]
        by_cases hin : 16 * j ≤ i
        · rw [if_pos (by omega), ← hbs, show winOff (ldLaddr c.desc.toNat) + i - (winOff (ldLaddr c.desc.toNat) + 16 * j) = i - 16 * j by omega,
            span_getD _ _ _ _ (by omega), show 16 * j + (i - 16 * j) = i by omega, Nat.mod_eq_of_lt (homeB_lt _ _)]
        · rw [if_neg (by omega), wget_eq, hrs, ← wget_eq, h.bytes i (by omega)]
      · by_cases he : i = j
        · exact he ▸ hdel.full
        · refine hdel.kept _ _ _ ?_
          rw [State.granFull, State.vfull, hrs]
          exact h.full i (by omega)
    have hcw : w.cmds = [c] := hnext.cmds
    exact hnext.same (.setProgress c core (j + 2) c.bk) (by rw [← cmds_updCmd_one hcw]; rfl)

/-- The completion granule, where the part has one, is filled. -/
theorem fillCgran_part {j : Nat} (h : Delivering s c b gk p j t) : Delivering s c b gk p j (t.fillCgran c core c.bk) ∧ (ldCgran c.desc.toNat ≠ 0 →
    (t.fillCgran c core c.bk).granFull c.bk (s.ldGroup c.kind c.bk core (winGrp (ldCgran c.desc.toNat))) (winOff (ldCgran c.desc.toNat)) = true) := by
  have hgroup := h.carries.ldGroup hpart.block c.kind core (winGrp (ldCgran c.desc.toNat))
  by_cases hz : ldCgran c.desc.toNat = 0
  · simp only [State.fillCgran, hz, if_true]
    exact ⟨h, fun hne => absurd rfl hne⟩
  · obtain ⟨ho, hw⟩ := hpart.last hz
    have hq : NoWaiters t := by unfold NoWaiters; rw [h.carries.ops]; exact hpart.quiet
    have hfill : t.fillCgran c core c.bk =
        t.setFulls c.bk (s.ldGroup c.kind c.bk core (winGrp (ldCgran c.desc.toNat))) (winOff (ldCgran c.desc.toNat)) 1 true := by
      simp only [State.fillCgran, hz, if_false, hgroup, h.carries.winHolds hpart.block, hw, if_true, fillAt_win hq _ _ ho]
    rw [hfill]
    refine ⟨⟨h.carries.setFulls ho _ _, ?_, ?_, ?_, fun i hi => granFull_fill ho _ _ _ _ _ _ (h.full i hi)⟩, fun _ => ?_⟩
    · rw [setFulls_frame ho]; exact h.reads
    · rw [setFulls_frame ho]; exact h.cmds
    · rw [setFulls_frame ho]; exact h.bytes
    · rw [granFull_setFulls ho ho, if_pos rfl]

/-- The rounds that are left write the granules that are left, and the part ends. -/
theorem ladleLoop_part {n j : Nat} (hn : j + n = ldBytes c.desc.toNat / 16) (h : Delivering s c b gk p j t) :
    ∃ c' u, SameCmd c c' ∧ ladleLoop c.id core c.bk (n + 1) j t = u.updCmd c'.id (Cmd.endPart core) ∧
      Delivering s c' b gk p (ldBytes c.desc.toNat / 16) u ∧ (ldCgran c.desc.toNat ≠ 0 →
        u.granFull c.bk (s.ldGroup c.kind c.bk core (winGrp (ldCgran c.desc.toNat))) (winOff (ldCgran c.desc.toNat)) = true) := by
  induction n generalizing c j t with
  | zero =>
    have hj : j = ldBytes c.desc.toNat / 16 := hn
    refine ⟨c, t.fillCgran c core c.bk, .refl c, ?_, hj ▸ fillCgran_part hpart h⟩
    rw [ladleLoop]
    simp only [cmd?_one h.cmds, hj, Nat.le_refl, if_true]
  | succ n ih =>
    obtain ⟨u, hloop, hu⟩ := ladleLoop_granule hpart h (by omega) (n + 1)
    obtain ⟨c', v, hc', hrest, hv⟩ := ih (hpart.same (.setProgress c core (j + 2) c.bk)) (by simpa [Cmd.setProgress] using (by omega : j + 1 + n = _)) hu
    exact ⟨c', v, (SameCmd.setProgress c core (j + 2) c.bk).trans hc', hloop.trans hrest, hv⟩

end

/-! ### A command alone -/

section
variable {s : State} {c : Cmd} {o : Op} {b : Block} (h : Alone s c o b)
include h

theorem onCore_alone : s.onCore c.bk = true := by
  have hr := h.runs
  simp only [Block.running, Bool.and_eq_true] at hr
  simp [State.onCore, h.block, hr.1]

theorem cmdLive_alone : s.cmdLive c = true := by simp [State.cmdLive, h.own, onCore_alone h]

theorem takesUp_alone : s.takesUp c = true := by simp [State.takesUp, h.cmds]

theorem atHome_alone : s.atHome c.bk = true := by
  have hr := h.runs
  simp only [Block.running, Bool.and_eq_true, beq_iff_eq] at hr
  simp [State.atHome, onCore_alone h, h.block, hr.2]

theorem quiet_alone : NoWaiters s := by
  intro o' ho x hx
  rw [h.ops, List.mem_singleton] at ho
  rw [ho, h.lanes, List.mem_singleton] at hx
  rw [hx]
  rfl

theorem first_alone : ∀ o' ∈ s.ops, ¬ o'.id < c.op := by
  rw [h.ops]
  simp [h.op]

theorem carries_alone (hp : Plain s c.bk) : Carries s c.bk b s := .start h.block hp.stages (idle_of_allReady h.ready)

theorem cmd?_alone : s.cmd? c.id = some c := cmd?_one h.cmds

/-- Its delivery event moves the part of the core. -/
theorem exec_ladleDelivery_part {k : Nat} (ha : c.awaits k = true) :
    exec (.ladleDelivery c.id k) s = .next ((s.deliverPart c k).settle c.bk) := by
  rw [show exec (.ladleDelivery c.id k) s = execLadleDelivery c.id k s from rfl, execLadleDelivery]
  simp only [cmd?_alone h, cmdLive_alone h, takesUp_alone h, ha, Bool.not_true, Bool.or_self, Bool.false_eq_true, if_false, if_true]

/-- What the check of a part's places assures (R95). -/
theorem part_alone {k : Nat} {p : Nat → Nat} (hskip : c.skip = []) (hp : Plain s c.bk)
    (hmis : ldMisaligned c.kind c.desc.toNat = false) (htur : ldTureen c.desc.toNat = false) (hdk : ldDkind c.desc.toNat = 0)
    (hchk : s.ldPartCheck c k c.bk = none) (hsrc : ∀ e < ldBytes c.desc.toNat / ldEsz c.desc.toNat, ∃ mt, mt ≤ 1 ∧
      s.check (s.ctxOf c.bk) (ldElem c.desc.toNat e) (ldEsz c.desc.toNat) (ldEsz c.desc.toNat) .load false = .ok (.mem (p e) mt) ∧
      s.memUp (p e) mt = true ∧ s.mem.homePois (p e / 128) = false) :
    Part s c k b (s.ldGroup c.kind c.bk k (winGrp (ldLaddr c.desc.toNat))) p := by
  have hoff : ∀ w, winOff w < 2 ^ 19 := fun w => Nat.mod_lt _ (by decide)
  simp only [State.ldPartCheck, hdk, if_true] at hchk
  refine ⟨h.block, h.frames, hp, hskip, first_alone h, quiet_alone h, hdk, htur, rfl, winOff_aligned (ldMisaligned_laddr hmis), fun j hj => ?_, hsrc, fun hne => ?_⟩
  · have hreg : s.winCheck c.bk (ldLaddr c.desc.toNat / 2 ^ 26 * 2 ^ 26 + winAddr (s.ldGroup c.kind c.bk k (winGrp (ldLaddr c.desc.toNat)))
        (winOff (ldLaddr c.desc.toNat))) (ldBytes c.desc.toNat) 16 = none := by
      split at hchk
      · cases hchk
      · next hn => exact Option.map_eq_none_iff.1 hn
    obtain ⟨-, hw⟩ := winCheck_none (hoff _) (by omega) hreg
    simp only [State.winHolds, decide_eq_true_eq] at hw ⊢
    omega
  · have hcg : s.winCheck c.bk (ldCgran c.desc.toNat / 2 ^ 26 * 2 ^ 26 + winAddr (s.ldGroup c.kind c.bk k (winGrp (ldCgran c.desc.toNat)))
        (winOff (ldCgran c.desc.toNat))) 16 16 = none := by
      split at hchk
      · cases hchk
      · rw [if_pos hne] at hchk
        exact Option.map_eq_none_iff.1 hchk
    exact winCheck_none (hoff _) (by decide) hcg

/-- The part of a core leaves its granules written and full, its completion granule full, and is done. -/
theorem ladleDelivery_delivers {k : Nat} {p : Nat → Nat} (hcore : k ∈ ldCores c.kind c.core c.desc.toNat) (hk : c.kind = .lfetch ∨ c.kind = .lcast)
    (hstat : c.stat = .queued) (hparts : c.parts = []) (hprog : c.prog = []) (hahead : s.ch.ahead = 0) (hring : ldRing c.desc.toNat = 255) {gk : Nat}
    (hchk : s.ldPartCheck c k c.bk = none) (hpart : Part s c k b gk p) :
    ∃ t, exec (.ladleDelivery c.id k) s = .next t ∧ ReadsAs s.mem t.mem ∧ (t.cmd? c.id).map Cmd.parts = some [k] ∧
      (∀ i < 16 * (ldBytes c.desc.toNat / 16), t.wget c.bk gk (winOff (ldLaddr c.desc.toNat) + i) =
        s.mem.homeB (p (i / ldEsz c.desc.toNat) + i % ldEsz c.desc.toNat)) ∧
      (∀ j < ldBytes c.desc.toNat / 16, t.granFull c.bk gk (winOff (ldLaddr c.desc.toNat) + 16 * j) = true) ∧
      (ldCgran c.desc.toNat ≠ 0 → t.granFull c.bk (s.ldGroup c.kind c.bk k (winGrp (ldCgran c.desc.toNat))) (winOff (ldCgran c.desc.toNat)) = true) := by
  have hawaits : c.awaits k = true := by
    rcases hk with hk | hk <;> simp [Cmd.awaits, hk, hstat, hparts, h.own, hk ▸ hcore]
  have h0 : Delivering s c b gk p 0 s := ⟨carries_alone h hpart.plain, .refl _, h.cmds, fun i hi => absurd hi (by omega), fun i hi => absurd hi (by omega)⟩
  have hstart := h0.same (.setProgress c k 1 c.bk) (u := s.updCmd c.id (Cmd.setProgress k 1 c.bk)) (by rw [← cmds_updCmd_one h.cmds]; rfl)
  obtain ⟨c', u, hc', hloop, hu, hlast⟩ := ladleLoop_part (n := ldBytes c.desc.toNat / 16) (hpart.same (.setProgress c k 1 c.bk)) (Nat.zero_add _) hstart
  obtain ⟨hid, hbk, -, hdesc, hcparts⟩ := ((SameCmd.setProgress c k 1 c.bk).trans hc').fields
  have hbegun : (fun c' : Cmd => { Cmd.setProgress k 1 c.bk c' with dst := c'.dst ++ [] }) = Cmd.setProgress k 1 c.bk := funext fun c' => by
    rw [List.append_nil]; rfl
  have hdeliver : s.deliverPart c k = ladleLoop c.id k c.bk (ldBytes c.desc.toNat / 16 + 1) 0 (s.updCmd c.id (Cmd.setProgress k 1 c.bk)) := by
    have hnew : c.progress k = 0 := by rw [Cmd.progress, hprog]; rfl
    have hdst : s.ringDst c k c.bk = [] := if_neg fun hc => hc.1 hring
    simp only [State.deliverPart, hnew, ne_eq, not_true, if_false, h.own, hring, if_true, atHome_alone h, State.startPart, hchk, hdst, hbegun, State.chunkOf, hahead]
  have hdone : (u.updCmd c'.id (Cmd.endPart k)).cmd? c'.id = some (c'.endPart k) := cmd?_one (cmds_updCmd_one hu.cmds (Cmd.endPart k))
  have hidle : Idle (u.updCmd c'.id (Cmd.endPart k)) c.bk := hbk ▸ (hu.carries.updCmd c'.id (Cmd.endPart k)).idle
  refine ⟨u.updCmd c'.id (Cmd.endPart k), ?_, hu.reads, ?_, ?_, ?_, hlast⟩
  · rw [exec_ladleDelivery_part h hawaits, hdeliver, show ladleLoop c.id k c.bk _ 0 _ = _ from hloop, settle_idle hidle]
  · simp [← hid, hdone, Cmd.endPart, hcparts, hparts]
  · have hbytes := hu.bytes
    rwa [hdesc, hbk] at hbytes
  · have hfull := hu.full
    rwa [hdesc, hbk] at hfull

end

end Sys2Proof.Proofs
end

section
/-!
PROOFS. A Ladle command alone that completes, one that waits at an empty granule, and the permits of `lpermit` (R99, R100, R102).
-/
namespace Sys2Proof.Proofs
open Sys2Proof Sys2Proof.Machine Sys2Proof.Laws

/-! ### Completion (R99, R100) -/

/-- The only command completes: its operation, whose kind makes no write to wait for, retires. -/
theorem finishCmd_one {t : State} {c : Cmd} {o : Op} {x : Lane} (hc : t.cmds = [c]) (hf : c.fill = none) (ho : t.ops = [o]) (hop : o.id = c.op)
    (hk : o.kind = .eng) (hl : o.lanes = [x]) : t.finishCmd c.id = { t with cmds := [], ops := [] } := by
  let o' : Op := { o with fin := true, lanes := o.lanes.map fun x => { x with st := .done } }
  have hups : ({ t with cmds := [] } : State).updOp c.op (fun o => { o with fin := true, lanes := o.lanes.map fun x => { x with st := .done } }) =
      { t with cmds := [], ops := [o'] } := by
    simp [State.updOp, ho, updFirst, hop, o']
  have hsweep := sweep_one (s := { t with cmds := [], ops := [o'] }) (o := o') (x := { x with st := .done }) rfl (by simp [o', hl]) rfl
  rw [if_neg (by simp [o', hk, OpKind.stores])] at hsweep
  rw [State.finishCmd, cmd?_one hc]
  dsimp only
  rw [hc, List.filter_singleton]
  simp only [bne_self_eq_false, Bool.false_eq_true, if_false, hf, Option.isSome_none, List.any_nil, Bool.or_self, cond_false, hups, hsweep]

section
variable {s : State} {c : Cmd} {o : Op} {b : Block} (h : Alone s c o b)
include h

/-- A command that completes leaves its queue and its counter, and nothing else happens. -/
theorem finish_settle_alone {t : State} (hcmds : t.cmds = s.cmds) (hops : t.ops = s.ops) (hrs : t.rs = s.rs) :
    (t.finishCmd c.id).settle c.bk = { t with cmds := [], ops := [] } := by
  rw [finishCmd_one (hcmds.trans h.cmds) h.own (hops.trans h.ops) h.op h.kind h.lanes]
  refine settle_idle fun k y hk hbk => idle_of_allReady h.ready k y ?_ hbk
  simpa only [State.fib, hrs] using hk

/-- `lfetch` and `lcast` complete once the part of each core is done. -/
theorem ladleComplete_parts (hk : c.kind = .lfetch ∨ c.kind = .lcast) : let cores := ldCores c.kind c.core c.desc.toNat
    ((∃ k ∈ cores, k ∉ c.parts) → exec (.ladleComplete c.id) s = .next s) ∧
    ((∀ k ∈ cores, k ∈ c.parts) → ∃ t, exec (.ladleComplete c.id) s = .next t ∧ t.cmds = [] ∧ t.ops = []) := by
  intro cores
  have hexec : exec (.ladleComplete c.id) s = .next (if cores.all c.parts.contains then (s.finishCmd c.id).settle c.bk else s) := by
    rw [show exec (.ladleComplete c.id) s = execLadleComplete c.id s from rfl, execLadleComplete]
    rcases hk with hk | hk <;> simp only [cmd?_alone h, hk, h.own, Option.isSome_none, Bool.false_eq_true, if_false, cores]
  have hall : cores.all c.parts.contains = true ↔ ∀ k ∈ cores, k ∈ c.parts := by simp
  rw [hexec]
  refine ⟨fun ⟨k, hk, hn⟩ => ?_, fun hd => ?_⟩
  · rw [if_neg fun hd => hn (hall.1 hd k hk)]
  · rw [if_pos (hall.2 hd), finish_settle_alone h rfl rfl rfl]
    exact ⟨_, rfl, rfl, rfl⟩

/-- `lput` and `lcopy` complete once their writes are. -/
theorem ladleComplete_writes (hk : c.kind = .lput ∨ c.kind = .lcopy) (hparts : c.parts = [0]) : let now := s.tickOn (quadOf c.core)
    (c.wct < now ∨ c.wct = 0 → ∃ t, exec (.ladleComplete c.id) s = .next t ∧ t.cmds = [] ∧ t.ops = []) ∧
    (now ≤ c.wct → 0 < c.wct → exec (.ladleComplete c.id) s = .next s) := by
  intro now
  have hexec : exec (.ladleComplete c.id) s = .next (if !c.parts.isEmpty && s.putsDone c then (s.finishCmd c.id).settle c.bk else s) := by
    rw [show exec (.ladleComplete c.id) s = execLadleComplete c.id s from rfl, execLadleComplete]
    rcases hk with hk | hk <;> simp only [cmd?_alone h, hk]
  have hdone : (!c.parts.isEmpty && s.putsDone c) = true ↔ c.wct = 0 ∨ c.wct < now := by
    simp [hparts, State.putsDone, h.ops, h.kind, now]
  rw [hexec]
  refine ⟨fun hd => ?_, fun hle hpos => ?_⟩
  · rw [if_pos (hdone.2 hd.symm), finish_settle_alone h rfl rfl rfl]
    exact ⟨_, rfl, rfl, rfl⟩
  · rw [if_neg fun hd => ?_]
    have := hdone.1 hd
    omega

end

/-! ### Permits (R102) -/

/-- Grants of stages of a ring change the permits alone. -/
theorem foldl_setPermit_frame (s : State) (core ring : Nat) (f : Nat → Bool) (v : Option (Nat × Nat)) (l : List Nat) :
    l.foldl (fun s k => if f k then s.setPermit core ring k v else s) s =
      { s with eng := (l.foldl (fun s k => if f k then s.setPermit core ring k v else s) s).eng } := by
  induction l generalizing s with
  | nil => rfl
  | cons k l ih =>
    rw [List.foldl_cons, ih]
    cases f k <;> rfl

theorem permit_setPermit (s : State) (core ring j k : Nat) (v : Option (Nat × Nat)) :
    (s.setPermit core ring j v).permit core ring k = if k = j then v else s.permit core ring k := by
  have hkey : permKey core ring k = permKey core ring j ↔ k = j := by unfold permKey; omega
  simp only [State.permit, State.setPermit, sget_sset, hkey]

theorem permit_foldl (s : State) (core ring k : Nat) (f : Nat → Bool) (v : Option (Nat × Nat)) (l : List Nat) :
    (l.foldl (fun s k => if f k then s.setPermit core ring k v else s) s).permit core ring k =
      if k ∈ l ∧ f k = true then v else s.permit core ring k := by
  induction l generalizing s with
  | nil => simp
  | cons j l ih =>
    rw [List.foldl_cons, ih]
    by_cases hk : k ∈ l ∧ f k = true
    · simp [hk]
    · rw [if_neg hk]
      by_cases hj : k = j
      · subst hj
        cases hf : f k <;> simp [permit_setPermit]
      · have hrest : ¬(k ∈ j :: l ∧ f k = true) := fun ⟨hin, hf⟩ => hk ⟨(List.mem_cons.1 hin).resolve_left hj, hf⟩
        rw [if_neg hrest]
        cases f j <;> simp [permit_setPermit, hj]

/-- The bits of a mask of 32, in the word at bit 64 of a record. -/
theorem bit_bits_mask (d : Nat) {k : Nat} (hk : k < 32) : bit (bits d 64 32) k = (d / 2 ^ 64).testBit k := by
  rw [bit_eq, bits, Nat.testBit_mod_two_pow]
  simp [hk]

/-- `lpermit` grants the stages of its mask to its group. -/
theorem ladleComplete_permits {s : State} {c : Cmd} {o : Op} {b : Block} (h : Alone s c o b) (hk : c.kind = .lpermit) :
    let d := c.desc.toNat
    ∃ t, exec (.ladleComplete c.id) s = .next t ∧ (t.cmds = [] ∧ t.ops = []) ∧
      ∀ k < 32, t.permit c.core (d % 32) k = if (d / 2 ^ 64).testBit k then some (c.bk, c.g) else s.permit c.core (d % 32) k := by
  intro d
  have hring : bits d 0 5 = d % 32 := by simp [bits]
  have hframe : s.applyPermit c = { s.effect c.bk with eng := (s.applyPermit c).eng } := foldl_setPermit_frame _ _ _ _ _ _
  have hfin := finish_settle_alone h (t := s.applyPermit c) (by rw [hframe]; rfl) (by rw [hframe]; rfl) (by rw [hframe]; rfl)
  have hexec : exec (.ladleComplete c.id) s = .next { s.applyPermit c with cmds := [], ops := [] } := by
    rw [show exec (.ladleComplete c.id) s = execLadleComplete c.id s from rfl, execLadleComplete]
    simp only [cmd?_alone h, hk, cmdLive_alone h, if_true, hfin]
  refine ⟨_, hexec, ⟨rfl, rfl⟩, fun k hlt => ?_⟩
  have hgrant := permit_foldl (s.effect c.bk) c.core (bits d 0 5) k (bit (bits d 64 32)) (some (c.bk, c.g)) (span 0 32)
  rw [bit_bits_mask d hlt] at hgrant
  have hin : k ∈ span 0 32 := mem_span.2 ⟨Nat.zero_le _, by omega⟩
  simp only [hin, true_and] at hgrant
  rw [← hring]
  exact hgrant

/-! ### An empty granule under FEW (R100) -/

/-- The first granule of an `lput` is not read while it is empty. -/
theorem putChunk_empty {t : State} {c : Cmd} {b : Block} (hk : c.kind = .lput) (hb : t.block? c.bk = some b) : let d := c.desc.toNat
    ldDkind d = 0 → ldFew d = true → ldLaddr d < 2 ^ 26 → winGrp (ldLaddr d) < b.ngrp →
      winOff (ldLaddr d) + 16 ≤ 256 * t.allot c.bk (winGrp (ldLaddr d)) → t.granFull c.bk (winGrp (ldLaddr d)) (winOff (ldLaddr d)) = false →
      t.putChunk c 0 = .wait t := by
  intro d hdk hfew hla hg hallot hempty
  have hgroup : t.hasGroup c.bk (winGrp (ldLaddr d)) = true := by simp [State.hasGroup, hb, hg]
  have hholds : t.winHolds c.bk (winGrp (ldLaddr d)) (winOff (ldLaddr d)) 16 = true := by simpa [State.winHolds] using hallot
  have hlocal : t.ldLocal c 0 = .wait t := by
    simp only [State.ldLocal, d] at *
    simp only [hdk, hfew, Nat.not_le.2 hla, hgroup, hholds, hempty, Nat.mul_zero, Nat.add_zero, if_true, decide_false, Bool.not_true, Bool.not_false,
      Bool.or_self, Bool.and_self, Bool.false_eq_true, if_false]
  simp only [State.putChunk, hk, if_true, hlocal]

/-- A command whose first chunk waits stays as it is. -/
theorem putLoop_waits {t : State} {c : Cmd} (hc : t.cmds = [c]) (hmore : 0 < (if c.kind = .lput then ldBytes c.desc.toNat else ldLen c.desc.toNat) / 16)
    (hchunk : t.putChunk c 0 = .wait t) (fuel : Nat) : putLoop c.id fuel 0 t = t := by
  cases fuel with
  | zero => rfl
  | succ fuel =>
    rw [putLoop]
    simp only [cmd?_one hc, Nat.not_le.2 hmore, if_false, hchunk]

section
variable {s : State} {c : Cmd} {o : Op} {b : Block} (h : Alone s c o b)
include h

/-- The delivery event of an `lput` or `lcopy` moves its granules from where it stands. -/
theorem exec_ladleDelivery_put (hk : c.kind = .lput ∨ c.kind = .lcopy) (hparts : c.parts = []) (hprog : c.prog = []) (core : Nat) :
    let n := (if c.kind = .lput then ldBytes c.desc.toNat else ldLen c.desc.toNat) / 16
    exec (.ladleDelivery c.id core) s =
      .next ((putLoop c.id (s.chunkOf n) 0 (s.updCmd c.id fun c => { c with stat := .running })).settle c.bk) := by
  intro n
  have hawaits : c.awaits core = false := by rcases hk with hk | hk <;> simp [Cmd.awaits, hk]
  have hnew : c.progress 0 = 0 := by rw [Cmd.progress, hprog]; rfl
  rw [show exec (.ladleDelivery c.id core) s = execLadleDelivery c.id core s from rfl, execLadleDelivery]
  simp only [cmd?_alone h, cmdLive_alone h, takesUp_alone h, hawaits, hk, Bool.not_true, Bool.or_self, Bool.false_eq_true, if_false, if_true, State.putPart, hparts,
    List.isEmpty_nil, hnew, n]

/-- Under FEW an `lput` waits while its first granule is empty. -/
theorem ladleDelivery_waits (hk : c.kind = .lput) (hprog : c.prog = []) (hparts : c.parts = []) : let d := c.desc.toNat
    ldDkind d = 0 → ldFew d = true → 16 ≤ ldBytes d → ldLaddr d < 2 ^ 26 → winGrp (ldLaddr d) < b.ngrp →
      winOff (ldLaddr d) + 16 ≤ 256 * s.allot c.bk (winGrp (ldLaddr d)) → s.granFull c.bk (winGrp (ldLaddr d)) (winOff (ldLaddr d)) = false →
      exec (.ladleDelivery c.id c.core) s = .next (s.updCmd c.id fun c => { c with stat := .running }) := by
  intro d hdk hfew hn hla hg hallot hempty
  let u := s.updCmd c.id fun c => { c with stat := .running }
  let c1 : Cmd := { c with stat := .running }
  have hchunk : u.putChunk c1 0 = .wait u := putChunk_empty (c := c1) hk h.block hdk hfew hla hg hallot hempty
  have hmore : 0 < (if c1.kind = .lput then ldBytes c1.desc.toNat else ldLen c1.desc.toNat) / 16 := by
    rw [if_pos (show c1.kind = .lput from hk)]
    exact Nat.div_pos hn (by decide)
  have hstay := putLoop_waits (t := u) (c := c1) (cmds_updCmd_one h.cmds _) hmore hchunk
  have hidle : u.settle c.bk = u := settle_idle (idle_of_allReady h.ready)
  rw [exec_ladleDelivery_put h (.inl hk) hparts hprog]
  exact congrArg Host.Outcome.next ((congrArg (State.settle · c.bk) (hstay _)).trans hidle)

end

end Sys2Proof.Proofs
end

section
/-!
PROOFS. Byte strings that a Ladle command leaves in memory one after another (R100, R101): what the first `k` of them have left, a store of the next one, and
the elements of a granule.
-/
namespace Sys2Proof.Proofs
open Sys2Proof Sys2Proof.Machine Sys2Proof.Laws

/-- The first `k` byte strings of `F`. -/
def strings (F : Nat → Nat × List Nat) (k : Nat) : List (Nat × List Nat) := (List.range k).map F

theorem covers_strings {F : Nat → Nat × List Nat} {k n : Nat} (hk : k ≤ n) {a : Nat} (h : covers (strings F k) a) : covers (strings F n) a := by
  obtain ⟨x, hx, hc⟩ := h
  obtain ⟨e, he, rfl⟩ := List.mem_map.1 hx
  have he := List.mem_range.1 he
  exact ⟨F e, List.mem_map.2 ⟨e, List.mem_range.2 (by omega), rfl⟩, hc⟩

/-- A command of block `b` that works on memory as it is: outside frames, with nothing staged or renamed, and under no other operation (R71, R295). -/
structure Works (s : State) (c : Cmd) (b : Block) : Prop where
  block : s.block? c.bk = some b
  frames : b.frames = []
  plain : Plain s c.bk
  first : ∀ o ∈ s.ops, ¬ o.id < c.op

/-- The first `k` byte strings of `F` are written, and every other byte and the registers are as before. -/
structure Storing (s : State) (c : Cmd) (b : Block) (F : Nat → Nat × List Nat) (k : Nat) (t : State) : Prop where
  carries : Carries s c.bk b t
  cleaner : Cleaner s.mem t.mem
  bytes : ∀ a, t.mem.homeB a = laid s.mem.homeB (strings F k) a
  regs : t.rs = { s.rs with fibres := t.rs.fibres, fe := t.rs.fe }
  cmds : ∃ c', t.cmds = [c'] ∧ SameCmd c c'

/-- Before the first chunk nothing is written. -/
theorem Storing.begin {s : State} {c c' : Cmd} {b : Block} (h : Carries s c.bk b s) (hsame : SameCmd c c') (F : Nat → Nat × List Nat) :
    Storing s c b F 0 { s with cmds := [c'] } :=
  ⟨h.step rfl rfl rfl rfl rfl rfl rfl fun _ y hy => .inr ⟨y, hy, rfl⟩, .refl _, fun _ => rfl, rfl, c', rfl, hsame⟩

section
variable {s t : State} {c : Cmd} {b : Block} {F : Nat → Nat × List Nat} {k n : Nat}

theorem Works.same {c' : Cmd} (h : Works s c b) (hc : SameCmd c c') : Works s c' b := by
  unfold SameCmd at hc
  rw [hc]
  exact ⟨h.block, h.frames, h.plain, h.first⟩

/-- Accesses that no byte string disturbs find their tables (R68). -/
theorem check_strings (h : Carries s c.bk b t) (hm : ∀ a, t.mem.homeB a = laid s.mem.homeB (strings F k) a) (hk : k ≤ n) {ctx p w pa mt : Nat} {kind : Kind}
    (hmap : Maps s (strings F n) ctx p w kind pa mt) : t.check ctx p w w kind false = .ok (.mem pa mt) := by
  rw [h.tables_of_mem.check]
  refine hmap.check t.mem h.regions fun a ha => ?_
  rw [hm a, laid_outside _ _ fun hc => ha (covers_strings hk hc)]

namespace Storing

theorem same {c' : Cmd} (h : Storing s c b F k t) (hc : SameCmd c c') : Storing s c' b F k t := by
  obtain ⟨d, hd, hcd⟩ := h.cmds
  have hbk : c'.bk = c.bk := hc.fields.2.1
  exact ⟨hbk ▸ h.carries, h.cleaner, h.bytes, h.regs, d, hd, hc.symm.trans hcd⟩

theorem vregs (h : Storing s c b F k t) : t.rs.vregs = s.rs.vregs := by rw [h.regs]

theorem uregs (h : Storing s c b F k t) : t.rs.uregs = s.rs.uregs := by rw [h.regs]

theorem wget (h : Storing s c b F k t) (bk g off : Nat) : t.wget bk g off = s.wget bk g off := by rw [wget_eq, h.regs]; rfl

theorem wpois (h : Storing s c b F k t) (bk g off w : Nat) : t.wpois bk g off w = s.wpois bk g off w := by unfold State.wpois State.vpois; rw [h.regs]

/-- Reads, and updates of commands and of full bits, keep what is written. -/
theorem keeps (h : Storing s c b F k t) {u : State} (hu : Carries s c.bk b u) (hm : ReadsAs t.mem u.mem)
    (hrs : u.rs = { t.rs with fe := u.rs.fe }) (hc : ∃ c', u.cmds = [c'] ∧ SameCmd c c') : Storing s c b F k u :=
  ⟨hu, h.cleaner.trans hm.cleaner, fun a => (hm.homeB a).trans (h.bytes a), by rw [hrs, h.regs], hc⟩

theorem updCmd (h : Storing s c b F k t) (f : Cmd → Cmd) (hf : ∀ e, SameCmd e (f e)) : Storing s c b F k (t.updCmd c.id f) := by
  obtain ⟨d, hd, hcd⟩ := h.cmds
  have hid : d.id = c.id := hcd.fields.1
  exact h.keeps (h.carries.updCmd _ _) (.refl _) rfl ⟨f d, hid ▸ cmds_updCmd_one hd f, hcd.trans (hf d)⟩

/-- A store of the next byte string. -/
theorem store (h : Storing s c b F k t) (hw : Works s c b) (hk : k < n) {p m mt : Nat} (hmap : Maps s (strings F n) (s.ctxOf c.bk) p m .store (F k).1 mt)
    (hlen : (F k).2.length = m) (hbytes : ∀ v ∈ (F k).2, v < 256) (hm : 0 < m) (hm' : m < 128) (scope : Nat) :
    ∃ u, t.engStore c false p m (ofNats (F k).2) scope = .ok [] u ∧ Storing s c b F (k + 1) u ∧ u.rs.fe = t.rs.fe := by
  have hchk : t.check (t.ctxOf c.bk) p m m .store false = .ok (.mem (F k).1 mt) := by
    rw [h.carries.ctxOf hw.block]
    exact check_strings h.carries h.bytes hk.le hmap
  have hown : t.ownStore c p m = false := by
    unfold State.ownStore
    rw [h.carries.ops, List.any_eq_false]
    intro o ho
    simp [hw.first o ho]
  obtain ⟨w, u, hs, hu, hwrote⟩ := engStore_mem h.carries hw.block hw.frames hw.plain rfl hchk hmap.type ((h.carries.memUp ..).trans hmap.up) hown
    (ofNats (F k).2) scope hm hm'
  have hdata : natBytes m (ofNats (F k).2) = (F k).2 := hlen ▸ natBytes_ofNats _ hbytes
  rw [hdata] at hwrote
  obtain ⟨d, hd, hcd⟩ := h.cmds
  have hstored : Storing s c b F (k + 1) u := by
    refine ⟨hu, h.cleaner.trans hwrote.cleaner, fun a => ?_, by rw [hwrote.regs, h.regs], d, hwrote.cmds.trans hd, hcd⟩
    rw [hwrote.homeB (hlen ▸ hmap.line), strings, List.range_succ, List.map_append, List.map_singleton, laid_append]
    by_cases hin : (F k).1 ≤ a ∧ a < (F k).1 + (F k).2.length
    · have hlt : a - (F k).1 < (F k).2.length := by omega
      rw [if_pos hin, if_pos hin, List.getD_eq_getElem _ _ hlt, Nat.mod_eq_of_lt (hbytes _ (List.getElem_mem hlt))]
    · rw [if_neg hin, if_neg hin]
      exact h.bytes a
  exact ⟨_, hs, hstored.updCmd _ fun e => rfl, (congrArg RegSt.fe hwrote.regs :)⟩

/-- The elements of a granule, each at its place. -/
theorem scatter (h : Storing s c b F k t) (hw : Works s c b) {d scope m : Nat} (htur : ldTureen d = false) (hk : k + m ≤ n)
    (hmap : ∀ e < n, ∃ mt, Maps s (strings F n) (s.ctxOf c.bk) (ldElem d e) (ldEsz d) .store (F e).1 mt)
    (hlen : ∀ e, (F e).2.length = ldEsz d) (hbytes : ∀ e, ∀ v ∈ (F e).2, v < 256) :
    ∃ u, t.ldScatter c d scope (span k m) ((span k m).flatMap fun e => (F e).2) = .ok [] u ∧ Storing s c b F (k + m) u ∧ u.rs.fe = t.rs.fe := by
  induction m generalizing k t with
  | zero => exact ⟨t, rfl, h, rfl⟩
  | succ m ih =>
    obtain ⟨mt, hmt⟩ := hmap k (by omega)
    have hesz : 0 < ldEsz d ∧ ldEsz d < 128 := by rcases ldEsz_cases d with he | he | he | he <;> omega
    obtain ⟨u, hs, hu, hfe⟩ := h.store hw (by omega) hmt (hlen k) (hbytes k) hesz.1 hesz.2 scope
    obtain ⟨v, hsc, hv, hfe'⟩ := ih hu (by omega)
    refine ⟨v, ?_, by rwa [show k + (m + 1) = k + 1 + m by omega], hfe'.trans hfe⟩
    simp only [span, List.flatMap_cons, State.ldScatter, htur, List.take_left' (hlen k), List.drop_left' (hlen k), hs, hsc]

end Storing

/-! ### The chunks of a command, one after another (R100, R101) -/

/-- Rounds that keep an invariant move the chunks that are left, and the command's only part ends. -/
theorem putLoop_all {cid : Nat} (I : Cmd → Nat → State → Prop)
    (hI : ∀ c j t, I c j t → t.cmds = [c] ∧ c.id = cid ∧ (if c.kind = .lput then ldBytes c.desc.toNat else ldLen c.desc.toNat) / 16 = n)
    (hstep : ∀ c j t, I c j t → j < n → ∃ c' bs u, t.putChunk c j = .ok bs u ∧ I c' (j + 1) (u.updCmd cid (Cmd.setProgress 0 (j + 1) 0))) {m j : Nat} {c : Cmd}
    (hm : j + m = n) (h : I c j t) : ∃ c' u, putLoop cid (m + 1) j t = u.updCmd cid (Cmd.endPart 0) ∧ I c' n u := by
  induction m generalizing c j t with
  | zero =>
    obtain ⟨hc, rfl, hn⟩ := hI c j t h
    have hj : j = n := hm
    refine ⟨c, t, ?_, hj ▸ h⟩
    rw [putLoop]
    simp only [cmd?_one hc, hn, hj, Nat.le_refl, if_true]
  | succ m ih =>
    obtain ⟨hc, rfl, hn⟩ := hI c j t h
    obtain ⟨d, bs, u, hchunk, hu⟩ := hstep c j t h (by omega)
    obtain ⟨c', v, hloop, hv⟩ := ih (by omega) hu
    refine ⟨c', v, ?_, hv⟩
    rw [putLoop]
    simp only [cmd?_one hc, hn, Nat.not_le.2 (show j < n by omega), if_false, hchunk, hloop]

end

end Sys2Proof.Proofs
end

section
/-!
PROOFS. `lput` from registers (R100): a granule is read, emptied under FEW, and its elements are stored, granule after granule.
-/
namespace Sys2Proof.Proofs
open Sys2Proof Sys2Proof.Machine Sys2Proof.Laws

/-- Element `e` of an `lput`: the place it goes to and its bytes in the window. -/
def putString (s : State) (c : Cmd) (p : Nat → Nat) (e : Nat) : Nat × List Nat :=
  let d := c.desc.toNat
  (p e, (List.range (ldEsz d)).map fun i => s.wget c.bk (winGrp (ldLaddr d)) (winOff (ldLaddr d) + ldEsz d * e + i))

/-- An `lput` from registers whose places are in its block's window, unpoisoned, and full under FEW, and whose elements go to memory at `p`. -/
structure Put (s : State) (c : Cmd) (b : Block) (p : Nat → Nat) : Prop where
  works : Works s c b
  kind : c.kind = .lput
  tureen : ldTureen c.desc.toNat = false
  dkind : ldDkind c.desc.toNat = 0
  window : ldLaddr c.desc.toNat < 2 ^ 26
  group : winGrp (ldLaddr c.desc.toNat) < b.ngrp
  whole : ldBytes c.desc.toNat % 16 = 0
  aligned : winOff (ldLaddr c.desc.toNat) % 16 = 0
  holds : winOff (ldLaddr c.desc.toNat) + ldBytes c.desc.toNat ≤ 256 * s.allot c.bk (winGrp (ldLaddr c.desc.toNat))
  sound : s.wpois c.bk (winGrp (ldLaddr c.desc.toNat)) (winOff (ldLaddr c.desc.toNat)) (ldBytes c.desc.toNat) = false
  full : ldFew c.desc.toNat = true → ∀ j < ldBytes c.desc.toNat / 16,
    s.granFull c.bk (winGrp (ldLaddr c.desc.toNat)) (winOff (ldLaddr c.desc.toNat) + 16 * j) = true
  maps : ∀ e < ldBytes c.desc.toNat / ldEsz c.desc.toNat, ∃ mt, Maps s (strings (putString s c p) (ldBytes c.desc.toNat / ldEsz c.desc.toNat))
    (s.ctxOf c.bk) (ldElem c.desc.toNat e) (ldEsz c.desc.toNat) .store (p e) mt

/-- The first `j` granules of an `lput` are at their places, and are empty under FEW. -/
structure Putting (s : State) (c : Cmd) (b : Block) (p : Nat → Nat) (j : Nat) (t : State) : Prop where
  storing : Storing s c b (putString s c p) (j * (16 / ldEsz c.desc.toNat)) t
  cmds : t.cmds = [c]
  granules : ∀ i < ldBytes c.desc.toNat / 16, t.granFull c.bk (winGrp (ldLaddr c.desc.toNat)) (winOff (ldLaddr c.desc.toNat) + 16 * i) =
    (s.granFull c.bk (winGrp (ldLaddr c.desc.toNat)) (winOff (ldLaddr c.desc.toNat) + 16 * i) && !(ldFew c.desc.toNat && decide (i < j)))

theorem granFull_congr {s t : State} (h : t.rs.fe = s.rs.fe) (bk g off : Nat) : t.granFull bk g off = s.granFull bk g off := by
  simp only [State.granFull, State.vfull, h]

theorem wpois_granule {s : State} {bk g off n : Nat} (ho : off % 16 = 0) (h : s.wpois bk g off n = false) {j : Nat} (hj : 16 * j + 16 ≤ n) :
    s.wpois bk g (off + 16 * j) 16 = false := by
  unfold State.wpois at h ⊢
  rw [List.any_eq_false] at h ⊢
  intro w hw
  refine h w (mem_span.2 ?_)
  have := mem_span.1 hw
  omega

section
variable {s t : State} {c : Cmd} {b : Block} {p : Nat → Nat}

theorem Put.same {c' : Cmd} (h : Put s c b p) (hc : SameCmd c c') : Put s c' b p := by
  have hw := h.works.same hc
  unfold SameCmd at hc
  rw [hc] at hw ⊢
  exact ⟨hw, h.kind, h.tureen, h.dkind, h.window, h.group, h.whole, h.aligned, h.holds, h.sound, h.full, h.maps⟩

theorem Putting.same {c' : Cmd} {j : Nat} (h : Putting s c b p j t) (hc : SameCmd c c') (hcmds : t.cmds = [c']) : Putting s c' b p j t := by
  have hs := h.storing.same hc
  unfold SameCmd at hc
  rw [hc] at hs hcmds ⊢
  exact ⟨hs, hcmds, h.granules⟩

/-- The bytes of granule `j` in the window are its elements' bytes. -/
theorem granule_wget (j : Nat) : (span (winOff (ldLaddr c.desc.toNat) + 16 * j) 16).map (s.wget c.bk (winGrp (ldLaddr c.desc.toNat))) =
    (span (j * (16 / ldEsz c.desc.toNat)) (16 / ldEsz c.desc.toNat)).flatMap fun e => (putString s c p e).2 := by
  have hsz := ldEsz_granule c.desc.toNat
  have hstart : ldEsz c.desc.toNat * (j * (16 / ldEsz c.desc.toNat)) = 16 * j := by rw [Nat.mul_left_comm, hsz, Nat.mul_comm]
  have helems := span_elements (ldEsz c.desc.toNat) (j * (16 / ldEsz c.desc.toNat)) (16 / ldEsz c.desc.toNat)
    fun i => s.wget c.bk (winGrp (ldLaddr c.desc.toNat)) (winOff (ldLaddr c.desc.toNat) + i)
  rw [hstart, hsz, span_map_range] at helems
  simp only [← Nat.add_assoc] at helems
  rw [span_map_range, helems]
  rfl

/-- Before the first granule nothing is put. -/
theorem putting_begin {c' : Cmd} (h : Carries s c.bk b s) (hc : SameCmd c c') : Putting s c' b p 0 { s with cmds := [c'] } := by
  have hs := (Storing.begin h hc (putString s c p)).same hc
  unfold SameCmd at hc
  rw [hc] at hs ⊢
  exact ⟨by rw [Nat.zero_mul]; exact hs, rfl, fun i _ => by simp only [Nat.not_lt_zero, decide_false, Bool.and_false, Bool.not_false, Bool.and_true]; rfl⟩

variable (hput : Put s c b p)
include hput

/-- Granule `j` is read, and emptied under FEW. -/
theorem ldLocal_put {j : Nat} (h : Putting s c b p j t) (hj : j < ldBytes c.desc.toNat / 16) :
    ∃ u, t.ldLocal c j = .ok ((span (j * (16 / ldEsz c.desc.toNat)) (16 / ldEsz c.desc.toNat)).flatMap fun e => (putString s c p e).2) u ∧
      Storing s c b (putString s c p) (j * (16 / ldEsz c.desc.toNat)) u ∧
      ∀ i < ldBytes c.desc.toNat / 16, u.granFull c.bk (winGrp (ldLaddr c.desc.toNat)) (winOff (ldLaddr c.desc.toNat) + 16 * i) =
        (s.granFull c.bk (winGrp (ldLaddr c.desc.toNat)) (winOff (ldLaddr c.desc.toNat) + 16 * i) && !(ldFew c.desc.toNat && decide (i < j + 1))) := by
  have hoff := hput.aligned
  have hgran := h.granules
  generalize hg : winGrp (ldLaddr c.desc.toNat) = g at hgran
  generalize ho : winOff (ldLaddr c.desc.toNat) = off at hgran hoff
  have hgroup : t.hasGroup c.bk g = true := by
    obtain ⟨e, he⟩ := h.storing.carries.block
    simp only [State.hasGroup, he, decide_eq_true_eq]
    exact hg ▸ hput.group
  have hholds : t.winHolds c.bk g (off + 16 * j) 16 = true := by
    rw [h.storing.carries.winHolds hput.works.block]
    have := hput.holds
    rw [hg, ho] at this
    simp only [State.winHolds, decide_eq_true_eq]
    omega
  have hsound : t.wpois c.bk g (off + 16 * j) 16 = false := by
    have hs : s.wpois c.bk g off (ldBytes c.desc.toNat) = false := hg ▸ ho ▸ hput.sound
    exact (h.storing.wpois ..).trans (wpois_granule hoff hs (by omega))
  have hread : (span (off + 16 * j) 16).map (t.wget c.bk g) =
      (span (j * (16 / ldEsz c.desc.toNat)) (16 / ldEsz c.desc.toNat)).flatMap fun e => (putString s c p e).2 := by
    rw [← granule_wget, hg, ho]
    exact List.map_congr_left fun a _ => h.storing.wget ..
  have hlocal : ldFew c.desc.toNat = false ∨ t.granFull c.bk g (off + 16 * j) = true → t.ldLocal c j =
      .ok ((span (j * (16 / ldEsz c.desc.toNat)) (16 / ldEsz c.desc.toNat)).flatMap fun e => (putString s c p e).2)
        (if ldFew c.desc.toNat then (t.setFulls c.bk g (off + 16 * j) 1 false).effect c.bk else t) := fun hw => by
    have hwait : (ldFew c.desc.toNat && !(t.granFull c.bk g (off + 16 * j))) = false := by rcases hw with hw | hw <;> simp [hw]
    unfold State.ldLocal
    dsimp only
    rw [if_pos hput.dkind, hg, ho, if_neg (by simp only [Nat.not_le.2 hput.window, hgroup]; decide), if_neg (by simp [hholds]), hwait, if_neg Bool.false_ne_true, hsound,
      if_neg Bool.false_ne_true, hread]
  cases hfew : ldFew c.desc.toNat
  · refine ⟨t, ?_, h.storing, by simpa [hfew] using hgran⟩
    rw [hlocal (.inl hfew), hfew]
    rfl
  · have hjfull : t.granFull c.bk g (off + 16 * j) = true := by
      rw [hgran j hj, ← hg, ← ho, hput.full hfew j hj]
      simp
    refine ⟨(t.setFulls c.bk g (off + 16 * j) 1 false).effect c.bk, ?_, ?_, fun i hi => ?_⟩
    · rw [hlocal (.inr hjfull), hfew]
      rfl
    · have hframe := setFulls_frame (off := off + 16 * j) (by omega) t c.bk g false
      refine h.storing.keeps (h.storing.carries.setFulls (by omega) _ _).effect ?_ ?_ ⟨c, ?_, .refl c⟩
      · rw [hframe]; exact .refl _
      · rw [hframe]; rfl
      · rw [hframe]; exact h.cmds
    · have hset : ((t.setFulls c.bk g (off + 16 * j) 1 false).effect c.bk).granFull c.bk g (off + 16 * i) =
          if off + 16 * i = off + 16 * j then false else t.granFull c.bk g (off + 16 * i) := granFull_setFulls (by omega) (by omega) t c.bk g false
      rw [hset, hgran i hi, hfew]
      by_cases hij : i = j
      · simp [hij]
      · have hlt : i < j + 1 ↔ i < j := by omega
        simp only [show ¬ off + 16 * i = off + 16 * j by omega, if_false, hlt]

/-- One round of an `lput` puts one granule. -/
theorem putChunk_put {j : Nat} (h : Putting s c b p j t) (hj : j < ldBytes c.desc.toNat / 16) :
    ∃ c' u, t.putChunk c j = .ok [] u ∧ SameCmd c c' ∧ Putting s c' b p (j + 1) (u.updCmd c.id (Cmd.setProgress 0 (j + 1) 0)) := by
  obtain ⟨u, hlocal, hu, hgran⟩ := ldLocal_put hput h hj
  have hn : j * (16 / ldEsz c.desc.toNat) + 16 / ldEsz c.desc.toNat ≤ ldBytes c.desc.toNat / ldEsz c.desc.toNat := by
    rcases ldEsz_cases c.desc.toNat with he | he | he | he <;> rw [he] <;> omega
  have hlen : ∀ e, (putString s c p e).2.length = ldEsz c.desc.toNat := fun e => by simp [putString]
  have hbytes : ∀ e, ∀ v ∈ (putString s c p e).2, v < 256 := fun e v hv => by
    obtain ⟨i, -, rfl⟩ := List.mem_map.1 hv
    exact wget_lt ..
  obtain ⟨v, hscatter, hv, hfe⟩ := hu.scatter hput.works (scope := ldScope c.desc.toNat) hput.tureen hn hput.maps hlen hbytes
  have hstored := hv.updCmd (Cmd.setProgress 0 (j + 1) 0) fun e => .setProgress e 0 (j + 1) 0
  obtain ⟨c', hc', hsame⟩ := hstored.cmds
  refine ⟨c', v, ?_, hsame, ?_⟩
  · simp only [State.putChunk, hput.kind, if_true, hlocal, hscatter]
  · have hgran' : ∀ i < ldBytes c.desc.toNat / 16, (v.updCmd c.id (Cmd.setProgress 0 (j + 1) 0)).granFull c.bk (winGrp (ldLaddr c.desc.toNat))
        (winOff (ldLaddr c.desc.toNat) + 16 * i) = (s.granFull c.bk (winGrp (ldLaddr c.desc.toNat)) (winOff (ldLaddr c.desc.toNat) + 16 * i) &&
          !(ldFew c.desc.toNat && decide (i < j + 1))) := fun i hi => (granFull_congr hfe _ _ _).trans (hgran i hi)
    have hs := (show Storing s c b (putString s c p) ((j + 1) * (16 / ldEsz c.desc.toNat)) _ by rwa [Nat.succ_mul]).same hsame
    unfold SameCmd at hsame
    rw [hsame] at hs hc' ⊢
    exact ⟨hs, hc', hgran'⟩

end

end Sys2Proof.Proofs
end

section
/-!
PROOFS. `lcopy` between places in memory (R101): 16 bytes are read in elements from where no write comes, and stored, chunk after chunk.
-/
namespace Sys2Proof.Proofs
open Sys2Proof Sys2Proof.Machine Sys2Proof.Laws

/-- Chunk `j` of an `lcopy`: the place it goes to and its bytes where they come from. -/
def copyString (s : State) (c : Cmd) (p q : Nat → Nat) (j : Nat) : Nat × List Nat :=
  (q j, (List.range 16).map fun i => s.mem.homeB (p ((16 * j + i) / ldEsz c.desc.toNat) + i % ldEsz c.desc.toNat))

/-- An `lcopy` that reads its elements at `p`, where it does not write, and writes its chunks at `q`. -/
structure Copying (s : State) (c : Cmd) (b : Block) (p q : Nat → Nat) : Prop where
  works : Works s c b
  kind : c.kind = .lcopy
  tureen : ldTureen c.desc.toNat = false
  dkind : ldDkind c.desc.toNat = 0
  clean : DirClean s.mem
  source : ∀ e < ldLen c.desc.toNat / ldEsz c.desc.toNat, (∃ mt, Maps s (strings (copyString s c p q) (ldLen c.desc.toNat / 16)) (s.ctxOf c.bk)
      (ldGaddr c.desc.toNat + ldEsz c.desc.toNat * e) (ldEsz c.desc.toNat) .load (p e) mt) ∧ s.mem.homePois (p e / 128) = false ∧
    ∀ i < ldEsz c.desc.toNat, ¬ covers (strings (copyString s c p q) (ldLen c.desc.toNat / 16)) (p e + i)
  target : ∀ j < ldLen c.desc.toNat / 16, ∃ mt, Maps s (strings (copyString s c p q) (ldLen c.desc.toNat / 16)) (s.ctxOf c.bk)
    (ldLaddr c.desc.toNat + 16 * j) 16 .store (q j) mt

/-- An element of a chunk, in the units of the chunk's granule. -/
theorem copy_address (d j x : Nat) : ldGaddr d + 16 * j + x * ldEsz d = ldGaddr d + ldEsz d * (j * (16 / ldEsz d) + x) := by
  have hsz := ldEsz_granule d
  calc ldGaddr d + 16 * j + x * ldEsz d = ldGaddr d + ldEsz d * (16 / ldEsz d) * j + x * ldEsz d := by rw [hsz]
    _ = _ := by ring

/-- Numbers from `a` on, as those from 0 on. -/
theorem span_shift (a n : Nat) : (span 0 n).map (a + ·) = span a n := by
  have h := span_map_range a n id
  rw [List.map_id] at h
  rw [h, span_map_range]
  simp

theorem mod_ldEsz (d j i : Nat) : (16 * j + i) % ldEsz d = i % ldEsz d := by
  rcases ldEsz_cases d with h | h | h | h <;> rw [h] <;> omega

section
variable {s t : State} {c : Cmd} {b : Block} {p q : Nat → Nat}

theorem Copying.same {c' : Cmd} (h : Copying s c b p q) (hc : SameCmd c c') : Copying s c' b p q := by
  have hw := h.works.same hc
  unfold SameCmd at hc
  rw [hc] at hw ⊢
  exact ⟨hw, h.kind, h.tureen, h.dkind, h.clean, h.source, h.target⟩

theorem Storing.sameCopy {c' : Cmd} {k : Nat} (h : Storing s c b (copyString s c p q) k t) (hc : SameCmd c c') : Storing s c' b (copyString s c' p q) k t := by
  have hs := h.same hc
  unfold SameCmd at hc
  rw [hc] at hs ⊢
  exact hs

variable (hcopy : Copying s c b p q)
include hcopy

/-- The bytes of chunk `j`, as they stood before the command. -/
theorem copySrc_copy {j : Nat} (h : Storing s c b (copyString s c p q) j t) (hj : j < ldLen c.desc.toNat / 16) :
    ∃ u, t.copySrc c c.desc.toNat j (span 0 (16 / ldEsz c.desc.toNat)) = .ok (copyString s c p q j).2 u ∧ Storing s c b (copyString s c p q) j u ∧
      u.cmds = t.cmds := by
  obtain ⟨d, hd⟩ : ∃ d, d = c.desc.toNat := ⟨_, rfl⟩
  have helem : ∀ x ∈ span 0 (16 / ldEsz d), j * (16 / ldEsz d) + x < ldLen d / ldEsz d := fun x hx =>
    element_lt (hd ▸ hj) (by have := mem_span.1 hx; omega)
  have hread : Readable s t c b (ldEsz d) ((span 0 (16 / ldEsz d)).map fun x => (ldGaddr d + 16 * j + x * ldEsz d, p (j * (16 / ldEsz d) + x))) := by
    intro y hy
    obtain ⟨x, hx, rfl⟩ := List.mem_map.1 hy
    obtain ⟨⟨mt, hmap⟩, hpois, -⟩ := hcopy.source (j * (16 / ldEsz d) + x) (hd ▸ helem x hx)
    refine ⟨mt, hmap.type, hmap.up, (h.cleaner hcopy.clean).2 _ hpois, fun u hu hru => ?_⟩
    rw [copy_address]
    subst hd
    exact check_strings hu (fun a => (hru.homeB a).trans (h.bytes a)) hj.le hmap
  obtain ⟨u, hall, hu, hru, hrs, hcmds⟩ := loadAll_mem h.carries hcopy.works.block hcopy.works.plain hcopy.works.first hread
  have hold : ∀ x ∈ span 0 (16 / ldEsz d), t.mem.homeBytes (p (j * (16 / ldEsz d) + x)) (ldEsz d) =
      s.mem.homeBytes (p (j * (16 / ldEsz d) + x)) (ldEsz d) := by
    intro x hx
    obtain ⟨-, -, hfree⟩ := hcopy.source (j * (16 / ldEsz d) + x) (hd ▸ helem x hx)
    simp only [MemSt.homeBytes, span_map_range]
    refine List.map_congr_left fun i hi => ?_
    rw [h.bytes, laid_outside _ _ fun hc => hfree i (hd ▸ List.mem_range.1 hi) (covers_strings hj.le hc)]
  have hbytes : ((span 0 (16 / ldEsz d)).flatMap fun x => t.mem.homeBytes (p (j * (16 / ldEsz d) + x)) (ldEsz d)) = (copyString s c p q j).2 := by
    have hgran := granule_bytes s.mem p d j
    rw [span_map_range, ← span_shift, List.flatMap_map] at hgran
    rw [List.flatMap_congr hold, hgran, copyString, ← hd]
    simp only [mod_ldEsz]
  refine ⟨u, ?_, h.keeps hu hru (by rw [hrs]) (hcmds ▸ h.cmds), hcmds⟩
  rw [copySrc_eq, hcopy.tureen, ← hd, ← hbytes]
  rw [List.map_map, List.flatMap_map] at hall
  exact hall

/-- One round of an `lcopy` copies one chunk. -/
theorem putChunk_copy {j : Nat} (h : Storing s c b (copyString s c p q) j t) (hj : j < ldLen c.desc.toNat / 16) :
    ∃ c' u, t.putChunk c j = .ok [] u ∧ (u.updCmd c.id (Cmd.setProgress 0 (j + 1) 0)).cmds = [c'] ∧ SameCmd c c' ∧
      Storing s c' b (copyString s c' p q) (j + 1) (u.updCmd c.id (Cmd.setProgress 0 (j + 1) 0)) := by
  obtain ⟨u, hsrc, hu, -⟩ := copySrc_copy hcopy h hj
  obtain ⟨mt, hmap⟩ := hcopy.target j hj
  have hlen : (copyString s c p q j).2.length = 16 := by simp [copyString]
  have hbytes : ∀ v ∈ (copyString s c p q j).2, v < 256 := fun v hv => by
    obtain ⟨i, -, rfl⟩ := List.mem_map.1 hv
    exact homeB_lt ..
  obtain ⟨v, hstore, hv, -⟩ := hu.store hcopy.works hj hmap hlen hbytes (by decide) (by decide) (ldScope c.desc.toNat)
  have hstored := hv.updCmd (Cmd.setProgress 0 (j + 1) 0) fun e => .setProgress e 0 (j + 1) 0
  obtain ⟨c', hc', hsame⟩ := hstored.cmds
  refine ⟨c', v, ?_, hc', hsame, hstored.sameCopy hsame⟩
  have hplace : (ldDkind c.desc.toNat == 2) = false := by rw [hcopy.dkind]; rfl
  simp only [State.putChunk, hcopy.kind, reduceCtorEq, if_false, hsrc, hplace, hstore]

end

/-! ### The delivery event -/

section
variable {s : State} {c : Cmd} {o : Op} {b : Block} (h : Alone s c o b)
include h

theorem works_alone (hp : Plain s c.bk) : Works s c b := ⟨h.block, h.frames, hp, first_alone h⟩

/-- An `lput` or `lcopy` whose rounds keep an invariant moves all its chunks, and its only part is done. -/
theorem exec_ladleDelivery_all (hk : c.kind = .lput ∨ c.kind = .lcopy) (hparts : c.parts = []) (hprog : c.prog = []) (hahead : s.ch.ahead = 0) (core : Nat)
    (I : Cmd → Nat → State → Prop) (hcmds : ∀ c' j t, I c' j t → t.cmds = [c']) (hidle : ∀ c' j t, SameCmd c c' → I c' j t → Idle t c.bk)
    (hstart : ∀ c', SameCmd c c' → I c' 0 { s with cmds := [c'] })
    (hstep : ∀ c' j t, SameCmd c c' → I c' j t → j < (if c.kind = .lput then ldBytes c.desc.toNat else ldLen c.desc.toNat) / 16 →
      ∃ d bs u, t.putChunk c' j = .ok bs u ∧ SameCmd c' d ∧ I d (j + 1) (u.updCmd c.id (Cmd.setProgress 0 (j + 1) 0))) :
    let n := (if c.kind = .lput then ldBytes c.desc.toNat else ldLen c.desc.toNat) / 16
    ∃ c' u, exec (.ladleDelivery c.id core) s = .next (u.updCmd c.id (Cmd.endPart 0)) ∧ ((u.updCmd c.id (Cmd.endPart 0)).cmd? c.id).map Cmd.parts = some [0] ∧
      SameCmd c c' ∧ I c' n u := by
  intro n
  let c1 : Cmd := { c with stat := .running }
  have h0 : I c1 0 (s.updCmd c.id fun c => { c with stat := .running }) := by
    have hrun : (s.updCmd c.id fun c => { c with stat := .running }) = { s with cmds := [c1] } :=
      congrArg (fun l => ({ s with cmds := l } : State)) (cmds_updCmd_one h.cmds _)
    exact hrun ▸ hstart c1 rfl
  obtain ⟨c', u, hloop, hsame, hu⟩ := putLoop_all (n := n) (cid := c.id) (fun c' j t => SameCmd c c' ∧ I c' j t) (m := n) (j := 0) (c := c1)
    (fun c' j t ⟨hsame, hi⟩ => by
      obtain ⟨hid, -, hkind, hdesc, -⟩ := hsame.fields
      exact ⟨hcmds c' j t hi, hid, by rw [hkind, hdesc]⟩)
    (fun c' j t ⟨hsame, hi⟩ hj => by
      obtain ⟨d, bs, u, hchunk, hd, hu⟩ := hstep c' j t hsame hi hj
      exact ⟨d, bs, u, hchunk, hsame.trans hd, hu⟩) (Nat.zero_add n) ⟨rfl, h0⟩
  obtain ⟨hid, -, -, -, hcparts⟩ := hsame.fields
  have hdone : (u.updCmd c'.id (Cmd.endPart 0)).cmd? c'.id = some (c'.endPart 0) := cmd?_one (cmds_updCmd_one (hcmds c' n u hu) (Cmd.endPart 0))
  have hrest : Idle (u.updCmd c.id (Cmd.endPart 0)) c.bk := hidle c' n u hsame hu
  refine ⟨c', u, ?_, ?_, hsame, hu⟩
  · rw [exec_ladleDelivery_put h hk hparts hprog]
    rw [show s.chunkOf n = n + 1 from if_pos hahead, hloop, settle_idle hrest]
  · rw [← hid, hdone, Option.map_some, Cmd.endPart, hcparts, hparts]

end

end Sys2Proof.Proofs
end

section
/-!
PROOFS. The obligation on what Ladle commands do (R92 to R96, R99 to R102), from what each command's delivery and completion leave.
-/
namespace Sys2Proof.Proofs
open Sys2Proof Sys2Proof.Machine Sys2Proof.Laws

section
variable {s : State} {c : Cmd} {o : Op} {b : Block} (h : Alone s c o b)
include h

/-- An `lput` leaves its elements at their places, its registers as they were, and its granules empty under FEW. -/
theorem ladleDelivery_puts {p : Nat → Nat} (hput : Put s c b p) (hprog : c.prog = []) (hparts : c.parts = []) (hahead : s.ch.ahead = 0) :
    let d := c.desc.toNat
    ∃ t, exec (.ladleDelivery c.id c.core) s = .next t ∧ (t.cmd? c.id).map Cmd.parts = some [0] ∧ t.rs.vregs = s.rs.vregs ∧ t.rs.uregs = s.rs.uregs ∧
      (∀ a, t.mem.homeB a = laid s.mem.homeB (strings (putString s c p) (ldBytes d / ldEsz d)) a) ∧
      ∀ j < ldBytes d / 16, t.granFull c.bk (winGrp (ldLaddr d)) (winOff (ldLaddr d) + 16 * j) =
        (s.granFull c.bk (winGrp (ldLaddr d)) (winOff (ldLaddr d) + 16 * j) && !(ldFew d)) := by
  intro d
  have hcount : (if c.kind = .lput then ldBytes c.desc.toNat else ldLen c.desc.toNat) / 16 = ldBytes d / 16 := by rw [if_pos hput.kind]
  have hsize : ldBytes d / 16 * (16 / ldEsz d) = ldBytes d / ldEsz d := by
    have hwhole : ldBytes d % 16 = 0 := hput.whole
    rcases ldEsz_cases d with he | he | he | he <;> rw [he] <;> omega
  obtain ⟨c', u, hexec, hdone, hsame, hu⟩ := exec_ladleDelivery_all h (.inl hput.kind) hparts hprog hahead c.core (fun c' j t => Putting s c' b p j t)
    (fun c' j t hi => hi.cmds) (fun c' j t hsame hi => hsame.fields.2.1 ▸ hi.storing.carries.idle)
    (fun c' hsame => putting_begin (carries_alone h hput.works.plain) hsame)
    (fun c' j t hsame hi hj => by
      obtain ⟨hid, -, -, hdesc, -⟩ := hsame.fields
      obtain ⟨d', v, hchunk, hd, hv⟩ := putChunk_put (hput.same hsame) hi (by rw [hdesc]; exact hcount ▸ hj)
      exact ⟨d', [], v, hchunk, hd, hid ▸ hv⟩)
  rw [hcount] at hu
  unfold SameCmd at hsame
  rw [hsame] at hu
  obtain ⟨hs, -, hgran⟩ := hu
  refine ⟨_, hexec, hdone, hs.vregs, hs.uregs, fun a => ?_, fun j hj => ?_⟩
  · have hbytes := hs.bytes a
    rw [show ldBytes d / 16 * (16 / ldEsz _) = ldBytes d / ldEsz d from hsize] at hbytes
    exact hbytes
  · have hj' := hgran j hj
    rw [decide_eq_true hj, Bool.and_true] at hj'
    exact hj'

/-- An `lcopy` leaves its chunks at their places, and the registers as they were. -/
theorem ladleDelivery_copies {p q : Nat → Nat} (hcopy : Copying s c b p q) (hprog : c.prog = []) (hparts : c.parts = []) (hahead : s.ch.ahead = 0) :
    ∃ t, exec (.ladleDelivery c.id c.core) s = .next t ∧ (t.cmd? c.id).map Cmd.parts = some [0] ∧ t.rs.vregs = s.rs.vregs ∧ t.rs.uregs = s.rs.uregs ∧
      ∀ a, t.mem.homeB a = laid s.mem.homeB (strings (copyString s c p q) (ldLen c.desc.toNat / 16)) a := by
  have hcount : (if c.kind = .lput then ldBytes c.desc.toNat else ldLen c.desc.toNat) / 16 = ldLen c.desc.toNat / 16 := by
    rw [if_neg (by rw [hcopy.kind]; decide)]
  obtain ⟨c', u, hexec, hdone, hsame, -, hu⟩ := exec_ladleDelivery_all h (.inr hcopy.kind) hparts hprog hahead c.core
    (fun c' j t => t.cmds = [c'] ∧ Storing s c' b (copyString s c' p q) j t)
    (fun c' j t hi => hi.1) (fun c' j t hsame hi => hsame.fields.2.1 ▸ hi.2.carries.idle)
    (fun c' hsame => ⟨rfl, (Storing.begin (carries_alone h hcopy.works.plain) hsame _).sameCopy hsame⟩)
    (fun c' j t hsame hi hj => by
      obtain ⟨hid, -, -, hdesc, -⟩ := hsame.fields
      obtain ⟨d', v, hchunk, hcmds, hd, hv⟩ := putChunk_copy (hcopy.same hsame) hi.2 (by rw [hdesc]; exact hcount ▸ hj)
      exact ⟨d', [], v, hchunk, hd, hid ▸ hcmds, hid ▸ hv⟩)
  rw [hcount] at hu
  unfold SameCmd at hsame
  rw [hsame] at hu
  exact ⟨_, hexec, hdone, hu.vregs, hu.uregs, hu.bytes⟩

end

/-- Settles O37, clause by clause: the granules of a part are delivered one after another, and the strings of bytes of a write are stored one after another,
each with an invariant over the granules that are done. -/
theorem ladleEffects : Obligations.LadleEffects := by
  unfold Obligations.LadleEffects
  intro s c o b h d la g ends cores
  refine ⟨?_, ladleComplete_parts h, ?_, ?_, ladleDelivery_waits h, ladleComplete_writes h, ladleComplete_permits h⟩
  · intro k hcore hk hstat hparts hprog hskip hahead hp hmis htur hdk hring hchk gk p hsrc
    have hpart := part_alone h hskip hp hmis htur hdk hchk hsrc
    obtain ⟨t, hexec, hreads, hdone, hbytes, hfull, hlast⟩ := ladleDelivery_delivers h hcore hk hstat hparts hprog hahead hring hchk hpart
    have hwhole : 16 * (ldBytes d / 16) = ldBytes d := by
      have := ldMisaligned_bytes (show c.kind ≠ .lcopy by rcases hk with hk | hk <;> rw [hk] <;> decide) hmis
      omega
    exact ⟨t, hexec, hreads.homeB, hreads.dram, hdone, fun i hi => hbytes i (by rwa [hwhole]), hfull, hlast⟩
  · intro hk hstat hprog hparts hahead hp hmis htur hdk hla hg hholds hsound hfull p l hmaps
    have hput : Put s c b p := ⟨works_alone h hp, hk, htur, hdk, hla, hg, ldMisaligned_bytes (by decide) hmis, winOff_aligned (ldMisaligned_laddr hmis), hholds,
      hsound, hfull, hmaps⟩
    exact ladleDelivery_puts h hput hprog hparts hahead
  · intro hk hstat hprog hparts hahead hp hmis htur hdk hclean p q l hsrc hdst
    exact ladleDelivery_copies h ⟨works_alone h hp, hk, htur, hdk, hclean, hsrc, hdst⟩ hprog hparts hahead

end Sys2Proof.Proofs
end

section
/-!
PROOFS. The obligation on `mov` (R123) and on the forms that read another lane of a group (R125).
-/
namespace Sys2Proof.Proofs
open Sys2Proof Sys2Proof.Machine Sys2Proof.Laws

/-! ### mov (R123) -/

/-- A fibre alone in its bundle executes once between the fibres of its group. -/
theorem onceEach_one {α : Type} (fk : Nat) (a : α) : onceEach [(only fk, Plan.go a)] = [(only fk, .go a)] := by
  simp [onceEach, Plan.isGo, only]

/-- A uniform D, written once per group (R123). -/
theorem execMov_uniform {s : State} {f : Un} {fk : Nat} {x : Fibre} (h : Issues s f.g fk x) {n : Nat} (hd : f.d = .s n) (hu : f.g.u = false)
    (hr : Un.ready s fk f f.ty.wide f.ty.wide = true) :
    execMov f s = .next (gives s fk f.d f.id f.ty.wide f.ty (value s fk f.a f.ia f.ty.wide) 0) := by
  simp only [Un.ready, readable, Bool.and_eq_true] at hr
  obtain ⟨hfree, hfreeA, hclean⟩ := hr
  have hplan := planOperands_ready (d := some (.reg f.d f.id f.ty.wide f.ty)) (srcs := [⟨f.a, f.ia, f.ty.wide⟩]) (need := [false]) rfl
    (by simp [srcsReady, hfreeA]) (resolve_of_free hfree) (by rw [firstBad_resOf]; rfl) (busyRes_of_free hfree)
  simp only [execMov, hd, hu]
  rw [← hd, runPrep_issues h _ _ _ (by simp [hplan, onceEach_one, poisonRes_of_clean hclean]) rfl, hplan]
  dsimp only
  rw [readSrcs_ready, advanceUnit_only, writeRes_eq_put _ _ _ _ _ _ _ .inl]
  simp [gives]

theorem execMov_ready {s : State} {f : Un} {fk : Nat} {x : Fibre} (h : Issues s f.g fk x) (hr : Un.ready s fk f f.ty.wide f.ty.wide = true) :
    execMov f s = .next (gives s fk f.d f.id f.ty.wide f.ty (value s fk f.a f.ia f.ty.wide) 0) := by
  by_cases hcase : (∃ n, f.d = .s n) ∧ f.g.u = false
  · obtain ⟨⟨n, hd⟩, hu⟩ := hcase
    exact execMov_uniform h hd hu hr
  · refine Eq.trans ?_ (congrArg Host.Outcome.next (runUn_ready h hr .inl (op := fun a => (a, 0))))
    unfold execMov
    split
    · next n hd hu => exact absurd ⟨⟨n, hd⟩, hu⟩ hcase
    · rfl

/-! ### perm, bcast and shfl (R125) -/

/-- The lane words that a cross-lane form reads, as one number: the named register, and above it the next one of a pair. -/
def laneWords (s : State) (fk a k : Nat) (wide : Bool) : Nat :=
  s.vraw (fkBk fk) (fkG fk) a k + if wide then s.vraw (fkBk fk) (fkG fk) (a + 1) k * 2 ^ 32 else 0

/-- A register whose words can be read lies in the allotment. -/
theorem checkReg_of_wordReady {s : State} {fk a k : Nat} {wide : Bool} (ha : s.wordReady fk a k = true)
    (hw : wide = true → s.wordReady fk (a + 1) k = true) : checkReg (s.allot (fkBk fk) (fkG fk)) a wide false = .v a := by
  simp only [State.wordReady, Bool.and_eq_true, decide_eq_true_eq] at ha hw
  obtain ⟨⟨⟨hlt, hin⟩, -⟩, -⟩ := ha
  cases wide with
  | false => exact if_neg (by simp; omega)
  | true =>
    obtain ⟨⟨⟨hlt', hin'⟩, -⟩, -⟩ := hw rfl
    exact if_neg (by simp; omega)

theorem runCross_ready {s : State} {g : Guard} {fk : Nat} {x : Fibre} {d : Opnd} {a k : Nat} {b : Opnd} {ty : Ty} {pick : Nat → Nat → Nat}
    (h : Issues s g fk x) (hd : free s fk d false ty.wide = true) (hb : readable s fk b false false = true)
    (hpick : pick (fkL fk) (value s fk b false false % 64) = k) (ha : s.wordReady fk a k = true)
    (hw : ty.wide = true → s.wordReady fk (a + 1) k = true) :
    runCross s g d a b ty pick = gives s fk d false ty.wide ty (laneWords s fk a k ty.wide) 0 := by
  simp only [readable, Bool.and_eq_true] at hb
  obtain ⟨hfree, hclean⟩ := hb
  have hcheck := checkReg_of_wordReady ha hw
  simp only [State.wordReady, Bool.and_eq_true, Bool.not_eq_true'] at ha hw
  obtain ⟨⟨-, hwait⟩, hpois⟩ := ha
  have hwait' : (ty.wide && s.waitV fk (a + 1) k) = false := by
    cases he : ty.wide with
    | false => rfl
    | true => exact (hw he).1.2
  have hpois' : (ty.wide && s.vpois (fkBk fk) (fkG fk) (a + 1) k) = false := by
    cases he : ty.wide with
    | false => rfl
    | true => exact (hw he).2
  have hbad : firstBad [resOf s fk d false, .v a, resOf s fk b false] = none := by
    rw [firstBad_resOf]
    exact firstBad_resOf
  rw [runCross, runUnits_go h (a := (resOf s fk d false, laneWords s fk a k ty.wide))]
  · simp only [advanceUnit_only, gives, orGsw_zero, writeRes_eq_put s fk d false ty.wide ty _ .inl]
  · simp [resolve_of_free hd, resolve_of_free hfree, hcheck, hbad, readRes_resOf, hpick, busyRes_of_free hd, busyRes_of_free hfree, hwait,
      hwait', hpois, hpois', poisonRes_of_clean hclean, laneWords]

/-- Settles O8: `mov` is a computing form, or writes its uniform D once; the others are one cross-lane form with three choices of the lane. -/
theorem moveAndCrossLaneResults : Obligations.MoveAndCrossLaneResults := by
  unfold Obligations.MoveAndCrossLaneResults
  intro s fk x
  refine ⟨fun f h _ hr => execMov_ready h hr, ?_, ?_⟩
  · intro g d a b h hd hb k copy
    have cross : ∀ (pick : Nat → Nat → Nat) (l : Nat), pick (fkL fk) k = l → s.wordReady fk a l = true →
        Host.Outcome.next (runCross s g (.v d) a b .b32 pick) = copy l := fun pick l hpick hl =>
      congrArg Host.Outcome.next (runCross_ready h hd hb hpick hl nofun)
    exact ⟨cross _ k rfl, cross (shflLane 0) _ rfl, cross (shflLane 1) _ rfl, cross (shflLane 2) _ rfl⟩
  · intro g d a b ty h _ hd hb k at_ ha hw
    exact congrArg Host.Outcome.next (runCross_ready h hd hb rfl ha hw)

end Sys2Proof.Proofs
end

section
/-!
PROOFS. Barrier timeouts (R274): the statement gives BT whenever the timeout of a generation has passed, and a generation that no fibre leaves open, which
only waits for a store-window write to be performed (R116), takes none.
-/
namespace Sys2Proof.Proofs
open Sys2Proof Sys2Proof.Machine Sys2Proof.Tests

/-- The block's only fibre has arrived at `bar`, its timeout is the present tick, and its window store is still under way. -/
def lingering : State :=
  State.withBlock (State.withFibs { under storedW with tick := 10 } [(0, st .bar)]) { placedBlock with clFirst := [(keyBar, some 10)] }

/-- The barrier waits for the store, and every live fibre has arrived. -/
theorem lingering_waits : lingering.barReady 0 keyBar = false ∧ lingering.arrived 0 keyBar = lingering.genFibs 0 keyBar := by decide

theorem lingering_runs : ((after (exec (.barrierTimeout 0) lingering)).block? 0).map Block.mode = some .run := by decide

/-- Refutes O33: where every fibre of the set has arrived, a passed timeout gives no BT. -/
theorem not_grantAndLimitEffects : ¬ Obligations.GrantAndLimitEffects := by
  unfold Obligations.GrantAndLimitEffects
  intro h
  obtain ⟨hbarrier, -⟩ := h.2 lingering 0 { placedBlock with clFirst := [(keyBar, some 10)] } rfl rfl
  obtain ⟨-, hpassed⟩ := hbarrier keyBar 10 0 (st .bar) [] rfl
  obtain ⟨t, c, ht, hc, hmode, -⟩ := hpassed (by decide) (by decide) (by decide) rfl (by decide) rfl (by decide)
  have hrun := lingering_runs
  rw [ht, show (after (.next t)).block? 0 = t.block? 0 from rfl, hc] at hrun
  exact absurd (hmode.symm.trans (Option.some.inj hrun)) (by decide)

end Sys2Proof.Proofs
end

section
/-!
PROOFS. Placement of tasks (R292): the statement finds a task by its number alone, and where two listed blocks have one number, the queue of a core may give
the other one.
-/
namespace Sys2Proof.Proofs
open Sys2Proof Sys2Proof.Machine Sys2Proof.Tests

/-- Two listed tasks with number 0: the first has been saved and stands in no queue, the second is the head of the queue of core 0. -/
def unqueuedTask : Block :=
  { placedBlock with st := .pending, saved := some ⟨true, [], [], [], [], [], []⟩, task := some { task0 with core := 1, ready := false } }
def queuedTask : Block := { placedBlock with st := .pending, task := some task0 }
def twinTasks : State := { placing next0 with blocks := [unqueuedTask, queuedTask] }

/-- Core 0 has room for the first, and no block outranks it. -/
theorem twinTasks_fits : twinTasks.placeOk unqueuedTask next0 0 = true ∧ twinTasks.outranked next0.rcb.prio = false := by decide +kernel

theorem twinTasks_head : twinTasks.queueHead 0 = some 0 := by decide

/-- The first does not come up, so nothing is placed. -/
theorem twinTasks_stays : ((after (exec (.blockPlace 0 0) twinTasks)).block? 0).map Block.st = some .pending := by decide +kernel

/-- Refutes O44: block numbers are not asked to be distinct, and the head of the queue is another block of the same number. -/
theorem not_placementEffects : ¬ Obligations.PlacementEffects := by
  unfold Obligations.PlacementEffects
  intro h
  obtain ⟨hfits, hprio⟩ := twinTasks_fits
  obtain ⟨-, hplaced⟩ := (h.1 twinTasks 0).2 0 unqueuedTask next0 (by decide) rfl rfl
  obtain ⟨t, c, ht, hc, hst, -⟩ := (hplaced hfits hprio).2 rfl (by decide) twinTasks_head
  have hstays := twinTasks_stays
  rw [ht, show (after (.next t)).block? 0 = t.block? 0 from rfl, hc] at hstays
  exact absurd (hst.symm.trans (Option.some.inj hstays)) (by decide)

end Sys2Proof.Proofs
end

section
/-!
PROOFS. The obligation on the register store's own instructions (R107, R108, R122): elements of a window, and an allotment that grows or shrinks outside frames.
-/
namespace Sys2Proof.Proofs
open Sys2Proof Sys2Proof.Machine Sys2Proof.Laws

/-! ### ldi and sti (R122) -/

/-- The last register that an element of `size` bytes at a window offset reaches, by the rule of `ldi` and `sti`. -/
def lastReg (size off : Nat) : Nat := if size = 8 ∧ off % 256 = 248 then off / 256 + 1 else off / 256

theorem elemAt_outside {allot a size i : Nat} (h : allot ≤ lastReg size (256 * a + size * i)) :
    elemAt allot a size i = .error ((256 * a + size * i) / 256) := by
  refine if_pos ?_
  unfold lastReg at h
  split at h <;> split <;> omega

theorem elemAt_inside {allot a size i : Nat} (h : lastReg size (256 * a + size * i) < allot) :
    elemAt allot a size i = .ok (256 * a + size * i) := by
  refine if_neg ?_
  unfold lastReg at h
  split at h <;> split <;> omega

/-- Byte offset of the element that a fibre names. -/
def elemOff (s : State) (fk a : Nat) (b : Opnd) (ty : Ty) : Nat := 256 * a + ty.size * value s fk b false false

theorem poisonRes_of_marked {s : State} {fk : Nat} {o : Opnd} {ind wide : Bool} (h : clean s fk o ind wide = false) :
    ∃ n, poisonRes s fk wide (resOf s fk o ind) = some n := by
  cases o with
  | sp y => exact absurd h (by simp [clean])
  | s n => exact ⟨1536 + n, if_pos (by simpa [clean] using h)⟩
  | v n =>
    simp only [clean, State.laneClean, Bool.and_eq_false_iff, Bool.or_eq_false_iff, Bool.not_eq_false'] at h
    simp only [resOf, poisonRes]
    by_cases hlo : s.vpois (fkBk fk) (fkG fk) (regOf s fk n ind) (fkL fk) = true
    · exact ⟨_, if_pos hlo⟩
    · obtain ⟨hwide, hhi⟩ := h.resolve_left hlo
      exact ⟨_, by rw [if_neg hlo, if_pos (by simp [hwide, hhi])]⟩

theorem clean_of_readable {s : State} {fk : Nat} {o : Opnd} {ind wide : Bool} (h : readable s fk o ind wide = true) : clean s fk o ind wide = true :=
  ((Bool.and_eq_true _ _).mp h).2

section
variable {s : State} {fk : Nat} {b : Opnd} (hb : readable s fk b false false = true)
include hb

theorem planLdi {d : Nat} {ty : Ty} (hd : free s fk (.v d) false ty.wide = true) :
    planOperands s (only fk) (some (.reg (.v d) false ty.wide ty)) [⟨b, false, false⟩] [true] =
      .go (.v d, [⟨b, false, false⟩].map fun (y : Src) => resOf s fk y.o y.ind) :=
  planOperands_ready rfl (srcsReady_all (by simp [hb])) (resolve_of_free hd) rfl (busyRes_of_free hd)

theorem planSti {d : Opnd} {wide : Bool} (hd : free s fk d false wide = true) :
    planOperands s (only fk) none [⟨d, false, wide⟩, ⟨b, false, false⟩] [false, false] =
      .go (.sp .lane, [⟨d, false, wide⟩, ⟨b, false, false⟩].map fun (y : Src) => resOf s fk y.o y.ind) := by
  simp only [readable, Bool.and_eq_true] at hb
  exact planOperands_ready rfl (by simp [srcsReady, hd, hb.1]) rfl rfl rfl

variable {x : Fibre} {g : Guard} {a : Nat} {ty : Ty} (h : Issues s g fk x)
include h

section
variable {d : Nat} (hd : free s fk (.v d) false ty.wide = true)
include hd

theorem execLdi_outside (hout : s.allot (fkBk fk) (fkG fk) ≤ lastReg ty.size (elemOff s fk a b ty)) :
    exec (.ldi g (.v d) a b ty) s = .next (s.faulted fk .al (elemOff s fk a b ty / 256)) := by
  refine congrArg Host.Outcome.next (runUnits_fault h ?_)
  rw [planLdi hb hd]
  dsimp only
  rw [readSrcs_ready]
  simp only [List.map_cons, List.map_nil, List.getD_cons_zero, only_bk, only_g, elemAt_outside hout, elemOff]

theorem execLdi_inside (hin : lastReg ty.size (elemOff s fk a b ty) < s.allot (fkBk fk) (fkG fk))
    (hwait : s.waitBytes fk (elemOff s fk a b ty) ty.size = false) (hacq : s.acqWait fk = false) :
    let v := loadExt ty (s.wnum (fkBk fk) (fkG fk) (elemOff s fk a b ty) ty.size)
    let pz := s.wpois (fkBk fk) (fkG fk) (elemOff s fk a b ty) ty.size
    let lo := s.setVP (s.who fk) (fkBk fk) (fkG fk) d (fkL fk) (v % 2 ^ 32) pz
    exec (.ldi g (.v d) a b ty) s =
      .next ((if ty.wide then lo.setVP (s.who fk) (fkBk fk) (fkG fk) (d + 1) (fkL fk) (v / 2 ^ 32) pz else lo).advance fk) := by
  refine congrArg Host.Outcome.next ((runUnits_go h (a := (.v d, elemOff s fk a b ty)) ?_).trans rfl)
  rw [planLdi hb hd]
  dsimp only
  rw [readSrcs_ready]
  unfold elemOff at hwait
  simp only [List.map_cons, List.map_nil, List.getD_cons_zero, only_bk, only_g, only_rep, elemAt_inside hin, hwait, hacq, Bool.or_self,
    Bool.false_eq_true, if_false, elemOff]

end

section
variable {d : Opnd} (hd : free s fk d false ty.wide = true)
include hd

theorem execSti_outside (hout : s.allot (fkBk fk) (fkG fk) ≤ lastReg ty.size (elemOff s fk a b ty)) :
    exec (.sti g d a b ty) s = .next (s.faulted fk .al (elemOff s fk a b ty / 256)) := by
  have hclean := clean_of_readable hb
  refine congrArg Host.Outcome.next (runUnits_fault h ?_)
  rw [planSti hb hd]
  dsimp only
  rw [readSrcs_ready]
  simp only [List.map_cons, List.map_nil, List.getD_cons_zero, List.getD_cons_succ, only_bk, only_g, only_rep, poisonRes_of_clean hclean,
    elemAt_outside hout, elemOff]

theorem execSti_marked (hin : lastReg ty.size (elemOff s fk a b ty) < s.allot (fkBk fk) (fkG fk)) (hmark : clean s fk d false ty.wide = false) :
    ∃ n, exec (.sti g d a b ty) s = .next (s.faulted fk .pz n) := by
  have hclean := clean_of_readable hb
  obtain ⟨n, hn⟩ := poisonRes_of_marked hmark
  refine ⟨n, congrArg Host.Outcome.next (runUnits_fault h ?_)⟩
  rw [planSti hb hd]
  dsimp only
  rw [readSrcs_ready]
  simp only [List.map_cons, List.map_nil, List.getD_cons_zero, List.getD_cons_succ, only_bk, only_g, only_rep, poisonRes_of_clean hclean,
    elemAt_inside hin, hn]

theorem execSti_inside (hin : lastReg ty.size (elemOff s fk a b ty) < s.allot (fkBk fk) (fkG fk)) (hd' : clean s fk d false ty.wide = true)
    (hwait : s.waitBytes fk (elemOff s fk a b ty) ty.size = false) (hacq : s.acqWait fk = false) :
    exec (.sti g d a b ty) s = .next ((s.wput (s.who fk) (fkBk fk) (fkG fk) (elemOff s fk a b ty)
      (natBytes ty.size (value s fk d false ty.wide))).advance fk) := by
  have hclean := clean_of_readable hb
  refine congrArg Host.Outcome.next ((runUnits_go h (a := (value s fk d false ty.wide, elemOff s fk a b ty)) ?_).trans rfl)
  rw [planSti hb hd]
  dsimp only
  rw [readSrcs_ready]
  unfold elemOff at hwait
  simp only [List.map_cons, List.map_nil, List.getD_cons_zero, List.getD_cons_succ, only_bk, only_g, only_rep, poisonRes_of_clean hclean,
    poisonRes_of_clean hd', elemAt_inside hin, hwait, hacq, Bool.or_self, Bool.false_eq_true, if_false, elemOff]

end
end

/-! ### Groups and registers that are cleared (R107, R108) -/

section
variable {s : State} {bk : Nat} {b : Block} (hb : s.block? bk = some b)
include hb

theorem block?_updGroup (g : Nat) (f : Group → Group) : (s.updGroup bk g f).block? bk = some { b with groups := b.groups.modify g f } :=
  block?_updBlock_self hb fun _ => rfl

theorem group_updGroup {g : Nat} (hg : g < b.groups.length) (f : Group → Group) : (s.updGroup bk g f).group bk g = f (s.group bk g) := by
  simp [State.group, block?_updGroup hb, hb, Block.group, List.getD_eq_getElem?_getD, hg]

end

/-- The state with the registers of a list cleared: bytes 0, empty, no mark. -/
def clearRegs (s : State) (bk g : Nat) (l : List Nat) : State :=
  { s with rs := l.foldl (fun rs r => rs.clearReg (rkOf bk g r)) s.rs }

theorem clearRegs_cons (s : State) (bk g r : Nat) (l : List Nat) :
    clearRegs s bk g (r :: l) = clearRegs { s with rs := s.rs.clearReg (rkOf bk g r) } bk g l := rfl

theorem clearRegs_frame (s : State) (bk g : Nat) (l : List Nat) : clearRegs s bk g l =
    { s with rs := { s.rs with vregs := (clearRegs s bk g l).rs.vregs, vpoison := (clearRegs s bk g l).rs.vpoison, fe := (clearRegs s bk g l).rs.fe } } := by
  induction l generalizing s with
  | nil => rfl
  | cons r l ih => rw [clearRegs_cons, ih]; rfl

theorem clearRegs_group (s : State) (bk g : Nat) (l : List Nat) (k h : Nat) : (clearRegs s bk g l).group k h = s.group k h := rfl

theorem clearRegs_fib (s : State) (bk g : Nat) (l : List Nat) (k : Nat) : (clearRegs s bk g l).fib k = s.fib k := by
  rw [clearRegs_frame]; rfl

/-- A word of a cleared register is zero, unmarked and empty; every other one of the group is as it was. -/
theorem clearRegs_words (s : State) (bk g : Nat) (l : List Nat) (r h : Nat) :
    (r ∈ l → (clearRegs s bk g l).vraw bk g r h = 0 ∧ (clearRegs s bk g l).vpois bk g r h = false ∧ (clearRegs s bk g l).vfull bk g r h = false) ∧
    (r ∉ l → (clearRegs s bk g l).vraw bk g r h = s.vraw bk g r h ∧ (clearRegs s bk g l).vpois bk g r h = s.vpois bk g r h ∧
      (clearRegs s bk g l).vfull bk g r h = s.vfull bk g r h) := by
  induction l generalizing s with
  | nil => exact ⟨fun hr => absurd hr List.not_mem_nil, fun _ => ⟨rfl, rfl, rfl⟩⟩
  | cons q l ih =>
    obtain ⟨hin, hout⟩ := ih { s with rs := s.rs.clearReg (rkOf bk g q) }
    rw [clearRegs_cons]
    by_cases hl : r ∈ l
    · exact ⟨fun _ => hin hl, fun hr => absurd (.tail _ hl) hr⟩
    · obtain ⟨hraw, hpois, hfull⟩ := hout hl
      rw [hraw, hpois, hfull]
      refine ⟨fun hr => ?_, fun hr => ?_⟩
      · obtain rfl : r = q := by simpa [hl] using hr
        simp [State.vraw, State.vpois, State.vfull, RegSt.clearReg, sget_serase, sget, bit]
      · have hq : ¬ r = q := fun e => hr (e ▸ .head _)
        simp [State.vraw, State.vpois, State.vfull, RegSt.clearReg, sget_serase, rkOf_same, hq]

/-! ### allot (R107) -/

theorem length_growMap (held : List (Nat × Nat)) (l free : List Nat) : (growMap held l free).length = l.length := by
  induction l generalizing free with
  | nil => rfl
  | cons c l ih =>
    unfold growMap
    split <;> exact congrArg (· + 1) (ih _)

/-- A grant outside frames: `m` chunks, the entering registers cleared, the others and the fibres as they were. -/
theorem grow_frameless {s : State} {bk g m : Nat} {b : Block} (hb : s.block? bk = some b) (hf : b.frames = []) (hg : g < b.groups.length)
    (hm : (s.group bk g).chunks.length ≤ m) : ∃ t, s.grow bk g m = some t ∧ t.allot bk g = 32 * m ∧ (∀ k, t.fib k = s.fib k) ∧ ∀ r < 32 * m, ∀ l,
      (32 * (s.group bk g).chunks.length ≤ r → t.vraw bk g r l = 0 ∧ t.vpois bk g r l = false ∧ t.vfull bk g r l = false) ∧
      (r < 32 * (s.group bk g).chunks.length → t.vraw bk g r l = s.vraw bk g r l) := by
  unfold State.grow
  simp only [record_frameless hb hf, recordRegs_frameless hb hf]
  refine ⟨_, rfl, ?_, fun k => clearRegs_fib (s.updGroup bk g _) bk g _ k, fun r hr l => ?_⟩
  · change 32 * ((s.updGroup bk g _).group bk g).chunks.length = 32 * m
    rw [group_updGroup hb hg, List.length_append, length_growMap, span_length]
    omega
  · obtain ⟨hin, hout⟩ := clearRegs_words (s.updGroup bk g fun gr => { gr with
      chunks := gr.chunks ++ growMap ((s.group bk g).heldAbove m) (span (s.group bk g).chunks.length (m - (s.group bk g).chunks.length))
        (s.pickChunks (s.group bk g).core ((s.group bk g).need m)),
      held := gr.held.filter fun h => decide (m ≤ h.2) }) bk g (span (32 * (s.group bk g).chunks.length) (32 * (m - (s.group bk g).chunks.length))) r l
    exact ⟨fun hcur => hin (mem_span.2 ⟨hcur, by omega⟩), fun hcur => (hout fun hmem => by have := (mem_span.1 hmem).1; omega).1⟩

section
variable {s : State} {fk m : Nat}

/-- The fault of an `allot` that cannot be granted: its detail is the last register that it asks for. -/
def allotFault (s : State) (fk m : Nat) : State := s.takeFault (fkBk fk) ⟨3, s.ipc, 32 * m - 1, fkG fk, fkL fk⟩

theorem allotOne_large (hm : m ≤ (s.group (fkBk fk) (fkG fk)).chunks.length) : allotOne m s fk = s.advance fk := if_pos hm

variable (hm : (s.group (fkBk fk) (fkG fk)).chunks.length < m)
include hm

/-- Above the region's budget, or more chunks than the core can ever free (R107). -/
theorem allotOne_refused (h : 4 * (s.rcbOf (fkBk fk)).rsbud < 32 * m ∨
    Config.chunksPerCore - s.dcChunks (s.group (fkBk fk) (fkG fk)).core - s.reserveChunks (s.group (fkBk fk) (fkG fk)).core <
      m - (s.group (fkBk fk) (fkG fk)).chunks.length) : allotOne m s fk = allotFault s fk m := by
  refine (if_neg (Nat.not_le.2 hm)).trans ?_
  by_cases hbud : 4 * (s.rcbOf (fkBk fk)).rsbud < 32 * m
  · exact if_pos hbud
  · exact (if_neg hbud).trans (if_pos (h.resolve_left hbud))

variable (hbud : 32 * m ≤ 4 * (s.rcbOf (fkBk fk)).rsbud) (hroom : m - (s.group (fkBk fk) (fkG fk)).chunks.length ≤
    Config.chunksPerCore - s.dcChunks (s.group (fkBk fk) (fkG fk)).core - s.reserveChunks (s.group (fkBk fk) (fkG fk)).core)
include hbud hroom

theorem allotOne_granted (hreq : s.requests (s.group (fkBk fk) (fkG fk)).core = [])
    (hfree : (s.group (fkBk fk) (fkG fk)).need m ≤ s.freeCount (s.group (fkBk fk) (fkG fk)).core)
    {t : State} (ht : s.grow (fkBk fk) (fkG fk) m = some t) : allotOne m s fk = t.advance fk := by
  refine (if_neg (Nat.not_le.2 hm)).trans ((if_neg (Nat.not_lt.2 hbud)).trans ((if_neg (Nat.not_lt.2 hroom)).trans ((if_pos ?_).trans ?_)))
  · simp [hreq, hfree]
  · rw [ht]

theorem allotOne_queued (h : ¬ (s.requests (s.group (fkBk fk) (fkG fk)).core = [] ∧
    (s.group (fkBk fk) (fkG fk)).need m ≤ s.freeCount (s.group (fkBk fk) (fkG fk)).core)) :
    allotOne m s fk = { s.setStat fk (.allot m s.seq) with seq := s.seq + 1 } := by
  refine (if_neg (Nat.not_le.2 hm)).trans ((if_neg (Nat.not_lt.2 hbud)).trans ((if_neg (Nat.not_lt.2 hroom)).trans (if_neg ?_)))
  simpa using h

end

section
variable {s : State} {fk : Nat} {x : Fibre} {g : Guard} (h : Issues s g fk x)
include h

theorem runEach_issues (f : State → Nat → State) : runEach s g f = f s fk := runUnits_issues h _ _

theorem exec_allot (m : Nat) : exec (.allot g m) s = .next (allotOne m s fk) := congrArg Host.Outcome.next (runEach_issues h _)

theorem exec_shrink (m : Nat) : exec (.shrink g m) s = .next (shrinkOne m s fk) := congrArg Host.Outcome.next (runEach_issues h _)

end

/-! ### shrink (R108) -/

/-- Whether a delivery's completion granule or a destination is owed does not depend on what the groups hold. -/
theorem ldGroup_updGroup {s : State} {bk : Nat} {b : Block} (hb : s.block? bk = some b) (g : Nat) (f : Group → Group) (kind : CmdKind) (rb core h : Nat) :
    (s.updGroup bk g f).ldGroup kind rb core h = s.ldGroup kind rb core h := by
  unfold State.ldGroup State.memberOf
  by_cases hk : rb = bk
  · subst hk
    rw [block?_updGroup hb, hb]
    rfl
  · rw [State.updGroup, block?_updBlock s bk rb (fun b => { b with groups := b.groups.modify g f }) fun _ => rfl, if_neg hk]

theorem owedAbove_updGroup {s : State} {bk : Nat} {b : Block} (hb : s.block? bk = some b) (g : Nat) (f : Group → Group) (k h m : Nat) :
    (s.updGroup bk g f).owedAbove k h m = s.owedAbove k h m := by
  simp only [State.owedAbove, State.cgranAbove, ldGroup_updGroup hb, State.updGroup_ops, State.updGroup_cmds]

/-- A group at `shrink`: the chunks above `m` are held. -/
def lowered (m : Nat) (gr : Group) : Group :=
  { gr with chunks := gr.chunks.take m, held := gr.held ++ (gr.chunks.drop m).mapIdx fun i c => (c, m + i) }

theorem lowered_of_le {m : Nat} {gr : Group} (h : gr.chunks.length ≤ m) : lowered m gr = gr := by
  simp [lowered, List.take_of_length_le h, List.drop_eq_nil_of_le h]

/-- What a `shrink` holds of the chunks from `m` to below `top`. -/
def holdsFor (m top : Nat) (h : Nat × Nat) : Bool := decide (m ≤ h.2) && decide (h.2 < top)

theorem lowered_released (m : Nat) (gr : Group) :
    ((lowered m gr).held.filter fun h => !(holdsFor m gr.chunks.length h)) = gr.held.filter fun h => !(holdsFor m gr.chunks.length h) := by
  have hnew : (((gr.chunks.drop m).mapIdx fun i c => (c, m + i)).filter fun h => !(holdsFor m gr.chunks.length h)) = [] := by
    refine List.filter_eq_nil_iff.2 fun p hp => ?_
    obtain ⟨i, hi, rfl⟩ := List.mem_mapIdx.1 hp
    rw [List.length_drop] at hi
    simp [holdsFor]
    omega
  rw [lowered, List.filter_append, hnew, List.append_nil]

/-- Releasing outside frames: the chunks leave the group, and their registers are cleared. -/
theorem release_frameless {s : State} {bk : Nat} {b : Block} (hb : s.block? bk = some b) (hf : b.frames = []) (g m top : Nat) :
    s.release bk g m top = clearRegs (s.updGroup bk g fun gr => { gr with held := gr.held.filter fun h => !(holdsFor m top h) }) bk g
      (((s.group bk g).held.filter (holdsFor m top)).flatMap fun h => span (32 * h.2) 32) := by
  have hdepth : s.depth bk = 0 := by simp [State.depth, hb, hf]
  unfold State.release clearRegs
  rw [if_neg (by simp [hdepth]), List.foldl_flatMap]
  rfl

/-- The group after `shrink` has lowered it. -/
theorem shrinkOne_eq {s : State} {fk : Nat} {b : Block} (h : Calm s fk b) (m : Nat) : ∃ u : State, u.group (fkBk fk) (fkG fk) = lowered m (s.group (fkBk fk) (fkG fk)) ∧
    (∃ gs, u.block? (fkBk fk) = some { b with groups := gs } ∧ fkG fk < gs.length) ∧ u.rs = s.rs ∧
    shrinkOne m s fk = if s.owedAbove (fkBk fk) (fkG fk) m then u.setStat fk (.shrink m (s.group (fkBk fk) (fkG fk)).chunks.length)
      else (u.release (fkBk fk) (fkG fk) m (s.group (fkBk fk) (fkG fk)).chunks.length).advance fk := by
  by_cases hle : (s.group (fkBk fk) (fkG fk)).chunks.length ≤ m
  · refine ⟨s, (lowered_of_le hle).symm, ⟨b.groups, h.block, h.group⟩, rfl, ?_⟩
    simp only [shrinkOne, hle, if_true]
  · refine ⟨s.updGroup (fkBk fk) (fkG fk) (lowered m), group_updGroup h.block h.group _,
      ⟨_, block?_updGroup h.block _ _, by rw [List.length_modify]; exact h.group⟩, rfl, ?_⟩
    simp only [shrinkOne, hle, if_false, record_frameless h.block h.frames, Option.map_some]
    rw [← owedAbove_updGroup h.block (fkG fk) (lowered m)]
    rfl

/-- Updating a fibre leaves the groups' registers and allotments alone. -/
theorem group_updFib (s : State) (k : Nat) (f : Fibre → Fibre) (bk g : Nat) : (s.updFib k f).group bk g = s.group bk g := by
  simp only [State.group, State.block?, State.updFib_blocks]

theorem shrink_results {s : State} {fk : Nat} {x : Fibre} {b : Block} {g : Guard} (h : Issues s g fk x) (hc : Calm s fk b) (m : Nat) :
    let gr := s.group (fkBk fk) (fkG fk)
    let cur := gr.chunks.length
    let t := s.owedAbove (fkBk fk) (fkG fk) m
    ∃ u, exec (.shrink g m) s = .next u ∧ (u.group (fkBk fk) (fkG fk)).chunks = gr.chunks.take m ∧
      u.fib fk = some (if t then { x with stat := .shrink m cur } else x.adv) ∧
      ((u.group (fkBk fk) (fkG fk)).held = if t then gr.held ++ (gr.chunks.drop m).mapIdx (fun i c => (c, m + i))
        else gr.held.filter fun h => !(decide (m ≤ h.2) && decide (h.2 < cur))) := by
  intro gr cur t
  obtain ⟨u, hgroup, ⟨gs, hblock, hg⟩, hrs, hone⟩ := shrinkOne_eq hc m
  have hfib : u.fib fk = some x := by rw [State.fib, hrs]; exact h.fib
  refine ⟨_, exec_shrink h m, ?_⟩
  rw [hone]
  by_cases ht : t = true
  · rw [if_pos ht, if_pos ht, if_pos ht, State.setStat, group_updFib, hgroup, fib_updFib, if_pos rfl, hfib]
    exact ⟨rfl, rfl, rfl⟩
  · rw [if_neg ht, if_neg ht, if_neg ht, State.advance, group_updFib, fib_updFib, if_pos rfl, release_frameless hblock hc.frames, clearRegs_group,
      group_updGroup hblock hg, hgroup, clearRegs_fib]
    exact ⟨rfl, congrArg (Option.map Fibre.adv) hfib, lowered_released m _⟩

/-- Settles O9: an element outside the allotment is checked before its words, a grant and a release change the allotment outside frames. -/
theorem registerStoreResults : Obligations.RegisterStoreResults := by
  unfold Obligations.RegisterStoreResults
  refine ⟨?_, ?_⟩
  · intro s fk x g a b ty h hb off n past al
    exact ⟨fun d hd => ⟨execLdi_outside hb h hd, execLdi_inside hb h hd⟩,
      fun d hd => ⟨execSti_outside hb h hd, execSti_marked hb h hd, execSti_inside hb h hd⟩⟩
  · intro s fk x b g m h hc _ _ gr cur need al
    refine ⟨fun hle => ?_, fun hlt hbud => ?_, fun hlt hroom => ?_, fun hlt hbud hroom => ⟨fun hfree => ?_, fun hfree => ?_⟩, shrink_results h hc m⟩
    · rw [exec_allot h, allotOne_large hle]
    · exact (exec_allot h m).trans (congrArg _ (allotOne_refused hlt (.inl hbud)))
    · exact (exec_allot h m).trans (congrArg _ (allotOne_refused hlt (.inr hroom)))
    · obtain ⟨t, ht, hallot, hfib, hregs⟩ := grow_frameless hc.block hc.frames hc.group (le_of_lt hlt)
      refine ⟨t.advance fk, (exec_allot h m).trans (congrArg _ (allotOne_granted hlt hbud hroom hfree.1 hfree.2 ht)), ?_, ?_, fun r hr l => ?_⟩
      · rw [State.allot, State.advance, group_updFib]
        exact hallot
      · rw [fib_advance, if_pos rfl, hfib, h.fib]
        rfl
      · simp only [State.vraw, State.vpois, State.vfull, State.advance, updFib_vregs, updFib_vpoison, updFib_fe]
        exact hregs r hr l
    · exact (exec_allot h m).trans (congrArg _ (allotOne_queued hlt hbud hroom hfree))

end Sys2Proof.Proofs
end

section
/-!
PROOFS. Arrival and completion (R126, R273): what an arrival changes, when a generation is complete, and which step of a settling block acts.
-/
namespace Sys2Proof.Proofs
open Sys2Proof Sys2Proof.Machine Sys2Proof.Laws

/-! ### Fibres changed one after another -/

theorem OnlyFibres.refl (s : State) : OnlyFibres s s := ⟨s.rs.fibres, rfl⟩

theorem OnlyFibres.trans {s t u : State} (h : OnlyFibres s t) (h' : OnlyFibres t u) : OnlyFibres s u := by
  obtain ⟨fs, rfl⟩ := h
  obtain ⟨fs', rfl⟩ := h'
  exact ⟨fs', rfl⟩

theorem onlyFibres_updFib (s : State) (k : Nat) (f : Fibre → Fibre) : OnlyFibres s (s.updFib k f) := by
  unfold State.updFib
  split
  · exact ⟨_, rfl⟩
  · exact .refl s

/-- A step of a pass that changes one fibre as `f` does. -/
def Changes (f : Fibre → Fibre) (k : Nat) (s t : State) : Prop :=
  OnlyFibres s t ∧ ∀ j, t.fib j = if j = k then (s.fib k).map f else s.fib j

theorem changes_updFib (s : State) (k : Nat) (f : Fibre → Fibre) : Changes f k s (s.updFib k f) :=
  ⟨onlyFibres_updFib s k f, fun j => fib_updFib s k j f⟩

/-- A pass over distinct fibres changes each of them once. -/
theorem foldl_changes {f : Fibre → Fibre} {step : State → Nat → State} {l : List Nat} (hn : l.Nodup) {s t : State} (ht : OnlyFibres s t)
    (hstep : ∀ t k, OnlyFibres s t → k ∈ l → Changes f k t (step t k)) :
    OnlyFibres s (l.foldl step t) ∧ ∀ j, (l.foldl step t).fib j = if j ∈ l then (t.fib j).map f else t.fib j := by
  induction l generalizing t with
  | nil => exact ⟨ht, fun j => (if_neg List.not_mem_nil).symm⟩
  | cons k l ih =>
    obtain ⟨hk, hn⟩ := List.nodup_cons.1 hn
    obtain ⟨honly, hfib⟩ := hstep t k ht List.mem_cons_self
    obtain ⟨hrest, hfibs⟩ := ih hn (ht.trans honly) fun t j ht hj => hstep t j ht (List.mem_cons_of_mem _ hj)
    refine ⟨hrest, fun j => ?_⟩
    rw [List.foldl_cons, hfibs, hfib]
    by_cases hj : j = k
    · subst hj
      simp [hk]
    · simp [hj]

theorem foldl_advance {l : List Nat} (hn : l.Nodup) (s : State) :
    OnlyFibres s (l.foldl State.advance s) ∧ ∀ j, (l.foldl State.advance s).fib j = if j ∈ l then (s.fib j).map Fibre.adv else s.fib j :=
  foldl_changes hn (.refl s) fun t k _ _ => changes_updFib t k Fibre.adv

/-! ### The live fibres of a block -/

theorem mem_blockFibs_iff {s : State} (h : swf none s.rs.fibres = true) {bk k : Nat} : k ∈ s.blockFibs bk ↔ fkBk k = bk ∧ ∃ y, s.fib k = some y := by
  refine ⟨fun hk => ?_, fun ⟨hb, y, hy⟩ => hb ▸ mem_blockFibs hy⟩
  obtain ⟨p, hp, rfl⟩ := List.mem_map.1 hk
  obtain ⟨hp, hpb⟩ := List.mem_filter.1 hp
  rw [Bool.and_eq_true, beq_iff_eq, Option.isSome_iff_exists] at hpb
  obtain ⟨hb, y, hy⟩ := hpb
  exact ⟨hb, y, (sget_of_mem h hp).trans hy⟩

theorem blockFibs_nodup {s : State} (h : swf none s.rs.fibres = true) (bk : Nat) : (s.blockFibs bk).Nodup :=
  (List.filter_sublist.map Prod.fst).nodup (nodup_keys h)

theorem genFibs_nodup {s : State} (h : swf none s.rs.fibres = true) (bk key : Nat) : (s.genFibs bk key).Nodup := by
  have hblock := blockFibs_nodup h bk
  unfold State.genFibs State.coreFibs State.groupFibs
  dsimp only
  split_ifs
  · exact hblock.filter _
  · exact hblock
  · exact hblock.filter _
  · exact hblock.filter _
  · exact hblock

/-! ### Arrival -/

/-- A block whose generations first arrived at other ticks. -/
def firsts (cf : FMap (Option Nat)) (b : Block) : Block := { b with clFirst := cf }

/-- A state that differs from another in fibres, and in when generations first arrived. -/
structure SameWork (s t : State) : Prop where
  rs : ∃ fs, t.rs = { s.rs with fibres := fs }
  ops : t.ops = s.ops
  cmds : t.cmds = s.cmds
  mem : t.mem = s.mem
  block : ∀ bk b, s.block? bk = some b → ∃ cf, t.block? bk = some (firsts cf b)
  group : ∀ bk g, t.group bk g = s.group bk g

theorem OnlyFibres.sameWork {s t : State} (h : OnlyFibres s t) : SameWork s t := by
  obtain ⟨fs, rfl⟩ := h
  exact ⟨⟨fs, rfl⟩, rfl, rfl, rfl, fun bk b hb => ⟨b.clFirst, hb⟩, fun _ _ => rfl⟩

namespace SameWork

theorem trans {s t u : State} (h : SameWork s t) (h' : SameWork t u) : SameWork s u := by
  obtain ⟨fs, hrs⟩ := h.rs
  obtain ⟨fs', hrs'⟩ := h'.rs
  refine ⟨⟨fs', by rw [hrs', hrs]⟩, h'.ops.trans h.ops, h'.cmds.trans h.cmds, h'.mem.trans h.mem, fun bk b hb => ?_, fun bk g =>
    (h'.group bk g).trans (h.group bk g)⟩
  obtain ⟨cf, hcf⟩ := h.block bk b hb
  obtain ⟨cf', hcf'⟩ := h'.block bk _ hcf
  exact ⟨cf', hcf'⟩

section
variable {s t : State} (h : SameWork s t)
include h

theorem vregs : t.rs.vregs = s.rs.vregs := by
  obtain ⟨fs, hrs⟩ := h.rs
  rw [hrs]

theorem vraw (bk g r l : Nat) : t.vraw bk g r l = s.vraw bk g r l := by rw [State.vraw, h.vregs, State.vraw]

theorem uraw (bk g n : Nat) : t.uraw bk g n = s.uraw bk g n := by
  obtain ⟨fs, hrs⟩ := h.rs
  simp only [State.uraw, hrs]

theorem upois (bk g n : Nat) : t.upois bk g n = s.upois bk g n := by
  obtain ⟨fs, hrs⟩ := h.rs
  simp only [State.upois, hrs]

theorem busyU (bk g n : Nat) : t.busyU bk g n = s.busyU bk g n := by simp only [State.busyU, h.ops, h.cmds]

theorem winDone (k : Nat) : t.winDone k = s.winDone k := by simp only [State.winDone, h.ops]

end

/-- New first arrivals are all that changes. -/
theorem updBlock (s : State) (bk : Nat) (f : Block → Block) (hf : ∀ b, ∃ cf, f b = firsts cf b) : SameWork s (s.updBlock bk f) := by
  have huid : ∀ b, (f b).uid = b.uid := fun b => by obtain ⟨cf, h⟩ := hf b; rw [h]; rfl
  refine ⟨⟨_, rfl⟩, rfl, rfl, rfl, fun k b hb => ?_, fun k g => ?_⟩
  · rw [block?_updBlock s bk k f huid]
    split
    · next e =>
      obtain ⟨cf, h⟩ := hf b
      exact ⟨cf, by rw [← e, hb, Option.map_some, h]⟩
    · exact ⟨b.clFirst, hb⟩
  · rw [State.group, State.group, block?_updBlock s bk k f huid]
    by_cases hk : k = bk
    · rw [if_pos hk, hk]
      cases s.block? bk with
      | none => rfl
      | some b =>
        obtain ⟨cf, h⟩ := hf b
        simp only [Option.map_some, h]
        rfl
    · rw [if_neg hk]

theorem closeGen (s : State) (bk key : Nat) : SameWork s (s.closeGen bk key) := updBlock s bk _ fun _ => ⟨_, rfl⟩

theorem arrive (s : State) (fk key : Nat) (st : FStat) : SameWork s (s.arrive fk key st) :=
  (onlyFibres_updFib s fk _).sameWork.trans (updBlock _ _ _ fun _ => ⟨_, rfl⟩)

end SameWork

theorem fib_arrive (s : State) (fk key : Nat) (st : FStat) (k : Nat) :
    (s.arrive fk key st).fib k = if k = fk then (s.fib fk).map fun y => { y with stat := st } else s.fib k := fib_updFib s fk k _

theorem updFib_wf {s : State} (h : swf none s.rs.fibres = true) (k : Nat) (f : Fibre → Fibre) : swf none (s.updFib k f).rs.fibres = true := by
  unfold State.updFib
  split
  · exact sset_wf (d := none) h k (some _)
  · exact h

theorem arrive_wf {s : State} (h : swf none s.rs.fibres = true) (fk key : Nat) (st : FStat) : swf none (s.arrive fk key st).rs.fibres = true :=
  updFib_wf h fk _

/-! ### Barriers -/

/-- The fibre has arrived at a generation. -/
def AtKey (s : State) (bk key k : Nat) : Prop := ∃ y, s.fib k = some y ∧ keyOfStat (s.group bk (fkG k)).core (fkG k) y.pc y.stat = some key

theorem barReady_iff {s : State} {bk key : Nat} : s.barReady bk key = true ↔
    s.genFibs bk key ≠ [] ∧ (∀ k ∈ s.genFibs bk key, AtKey s bk key k) ∧ ∀ k ∈ s.genFibs bk key, s.winDone k = true := by
  have hat : (s.arrived bk key).length = (s.genFibs bk key).length ↔ ∀ k ∈ s.genFibs bk key, AtKey s bk key k := by
    rw [State.arrived, List.length_filter_eq_length_iff]
    refine forall₂_congr fun k _ => ?_
    unfold AtKey
    cases s.fib k with
    | none => simp
    | some y => simp
  simp only [State.barReady, Bool.and_eq_true, Bool.not_eq_true', List.isEmpty_eq_false_iff, beq_iff_eq, List.all_eq_true, hat, and_assoc]

section
variable {s : State} {bk key : Nat}

/-- A barrier that a fibre of its set has not reached does nothing. -/
theorem settleBar_missing {k : Nat} (hk : k ∈ s.genFibs bk key) (h : ¬ AtKey s bk key k) : s.settleBar bk key = s :=
  if_neg fun hr => h ((barReady_iff.1 hr).2.1 k hk)

/-- A barrier that no fibre has reached does nothing. -/
theorem settleBar_unreached (h : ∀ k y, s.fib k = some y → fkBk k = bk → keyOfStat (s.group bk (fkG k)).core (fkG k) y.pc y.stat ≠ some key) :
    s.settleBar bk key = s := by
  refine if_neg fun hr => ?_
  obtain ⟨hne, hat, -⟩ := barReady_iff.1 hr
  obtain ⟨k, hk⟩ := List.exists_mem_of_ne_nil _ hne
  obtain ⟨y, hy, hkey⟩ := hat k hk
  exact h k y hy (blockFibs_bk (genFibs_subset key hk)) hkey

/-- A barrier that is complete sends on the fibres of its set. -/
theorem settleBar_complete (hwf : swf none s.rs.fibres = true) (hne : s.genFibs bk key ≠ []) (hat : ∀ k ∈ s.genFibs bk key, AtKey s bk key k)
    (hw : ∀ k ∈ s.genFibs bk key, s.winDone k = true) : SameWork s (s.settleBar bk key) ∧
      ∀ j, (s.settleBar bk key).fib j = if j ∈ s.genFibs bk key then (s.fib j).map Fibre.adv else s.fib j := by
  obtain ⟨honly, hfib⟩ := foldl_advance (genFibs_nodup hwf bk key) (s.closeGen bk key)
  rw [show s.settleBar bk key = (s.genFibs bk key).foldl State.advance (s.closeGen bk key) from if_pos (barReady_iff.2 ⟨hne, hat, hw⟩)]
  exact ⟨(SameWork.closeGen s bk key).trans honly.sameWork, hfib⟩

end

/-! ### Collectives -/

/-- The fibre stands at a collective with its guard true. -/
def heldAt (s : State) (i : Instr) (k : Nat) : Bool :=
  match s.fib k with
  | some y => y.stat == .coll i true
  | none => false

/-- The fibre stands at the collective `i` at PC `pc`. -/
def AtColl (s : State) (i : Instr) (pc k : Nat) : Prop := ∃ y, s.fib k = some y ∧ y.pc = pc ∧ (y.stat = .coll i true ∨ y.stat = .coll i false)

theorem AtColl.unique {s : State} {i i' : Instr} {pc pc' k : Nat} (h : AtColl s i pc k) (h' : AtColl s i' pc' k) : i = i' := by
  obtain ⟨y, hy, -, hst⟩ := h
  obtain ⟨z, hz, -, hst'⟩ := h'
  obtain ⟨held, he⟩ : ∃ held, y.stat = .coll i held := hst.elim (fun e => ⟨_, e⟩) fun e => ⟨_, e⟩
  obtain ⟨held', he'⟩ : ∃ held, z.stat = .coll i' held := hst'.elim (fun e => ⟨_, e⟩) fun e => ⟨_, e⟩
  rw [Option.some.inj (hz.symm.trans hy), he] at he'
  exact (FStat.coll.inj he').1

theorem collective_of {s : State} {fs : List Nat} {i : Instr} {pc : Nat} (hne : fs ≠ []) (h : ∀ k ∈ fs, AtColl s i pc k) :
    s.collective fs = some (i, pc, fs.filter (heldAt s i)) := by
  cases fs with
  | nil => exact absurd rfl hne
  | cons fk fs =>
    obtain ⟨x, hx, rfl, hst⟩ := h fk List.mem_cons_self
    have hall : ∀ k ∈ fk :: fs, (match s.fib k with
        | some y => y.pc == x.pc && (y.stat == .coll i true || y.stat == .coll i false)
        | none => false) = true := fun k hk => by
      obtain ⟨y, hy, hpc, hst⟩ := h k hk
      simp [hy, hpc, hst]
    unfold State.collective
    simp only [hx]
    rcases hst with hst | hst
    · simp only [hst]
      exact if_pos (List.all_eq_true.2 hall)
    · simp only [hst]
      exact if_pos (List.all_eq_true.2 hall)

theorem collective_some {s : State} {fs : List Nat} {i : Instr} {pc : Nat} {holds : List Nat} (h : s.collective fs = some (i, pc, holds)) :
    ∀ k ∈ fs, AtColl s i pc k := by
  unfold State.collective at h
  cases fs with
  | nil => cases h
  | cons fk fs =>
    cases hx : s.fib fk with
    | none => simp only [hx] at h; cases h
    | some x =>
      simp only [hx] at h
      split at h
      · split at h
        · next hall =>
          obtain ⟨rfl, rfl, rfl⟩ := by simpa using h
          intro k hk
          have hat := List.all_eq_true.1 hall k hk
          cases hy : s.fib k with
          | none => simp [hy] at hat
          | some y => exact ⟨y, hy, by simpa [hy] using hat⟩
        · cases h
      · cases h

/-- No collective is complete in a set with a fibre that stands elsewhere. -/
theorem collective_missing {s : State} {fs : List Nat} {k : Nat} (hk : k ∈ fs) (h : ∀ y, s.fib k = some y → ∀ i held, y.stat ≠ .coll i held) :
    s.collective fs = none := by
  cases hc : s.collective fs with
  | none => rfl
  | some c =>
    obtain ⟨y, hy, -, hst⟩ := collective_some hc k hk
    exact hst.elim (fun e => absurd e (h y hy _ _)) fun e => absurd e (h y hy _ _)

/-! ### Settling -/

/-- A pass that acts at one place, after which there is nothing to do. -/
theorem foldl_once {α β : Type} {f : α → β → α} {a v : α} {l : List β} {c : β} (hc : c ∈ l) (hone : f a c = v)
    (hrest : ∀ x ∈ l, x ≠ c → f a x = a) (hv : ∀ x, f v x = v) : l.foldl f a = v := by
  classical
  induction l with
  | nil => cases hc
  | cons x l ih =>
    rw [List.foldl_cons]
    by_cases hx : x = c
    · rw [hx, hone]
      exact foldl_id hv l
    · rw [hrest x List.mem_cons_self hx]
      exact ih ((List.mem_cons.1 hc).resolve_left (Ne.symm hx)) fun y hy => hrest y (List.mem_cons_of_mem _ hy)

theorem foldl_stays {α β : Type} {f : α → β → α} {a : α} {l : List β} (h : ∀ x ∈ l, f a x = a) : l.foldl f a = a := by
  induction l with
  | nil => rfl
  | cons x l ih =>
    rw [List.foldl_cons, h x List.mem_cons_self]
    exact ih fun y hy => h y (List.mem_cons_of_mem _ hy)

/-- The steps of a block that settles. -/
def settleBars (s : State) (bk : Nat) (cores : List Nat) : State := cores.foldl (fun s c => s.settleBar bk (keyBarCl c)) s
def settleGroups (s : State) (bk n : Nat) : State := (span 0 n).foldl (fun s g => s.settleGroup bk g) s
def settleSorts (s : State) (bk : Nat) (cores : List Nat) : State := cores.foldl (fun s c => s.settleSort bk c) s

theorem settle_running {s : State} {bk : Nat} {b : Block} (hb : s.block? bk = some b) (hr : b.running = true) :
    s.settle bk = (settleSorts (settleGroups (settleBars (s.settleBar bk keyBar) bk b.cores) bk b.ngrp) bk b.cores).settleBlock bk := by
  unfold State.settle
  rw [hb]
  exact if_neg (by simp [hr])

section
variable {s v : State} {bk : Nat} (hv : Idle v bk)
include hv

theorem settleBars_idle (cores : List Nat) : settleBars v bk cores = v := foldl_id (fun c => settleBar_idle hv (keyBarCl c)) cores
theorem settleGroups_idle (n : Nat) : settleGroups v bk n = v := foldl_id (settleGroup_idle hv) (span 0 n)
theorem settleSorts_idle (cores : List Nat) : settleSorts v bk cores = v := foldl_id (settleSort_idle hv) cores

variable {b : Block} (hb : s.block? bk = some b) (hr : b.running = true)
include hb hr

/-- A complete `bar` is all that happens. -/
theorem settle_bar (h : s.settleBar bk keyBar = v) : s.settle bk = v := by
  rw [settle_running hb hr, h, settleBars_idle hv, settleGroups_idle hv, settleSorts_idle hv, settleBlock_idle hv]

/-- A complete `bar.cl` of one core is all that happens. -/
theorem settle_barCl (hbar : s.settleBar bk keyBar = s) {c : Nat} (hc : c ∈ b.cores) (hone : s.settleBar bk (keyBarCl c) = v)
    (hrest : ∀ y ∈ b.cores, y ≠ c → s.settleBar bk (keyBarCl y) = s) : s.settle bk = v := by
  have hbars : settleBars s bk b.cores = v := foldl_once hc hone hrest fun c => settleBar_idle hv (keyBarCl c)
  rw [settle_running hb hr, hbar, hbars, settleGroups_idle hv, settleSorts_idle hv, settleBlock_idle hv]

end

section
variable {s : State} {bk : Nat} {b : Block} (hb : s.block? bk = some b) (hr : b.running = true) (hcores : ∀ c ∈ b.cores, c < Config.cores)
  (hbars : ∀ key < 2048, s.settleBar bk key = s)
include hb hr hcores hbars

/-- Without a complete barrier, settling goes on with the collectives. -/
theorem settle_barless : s.settle bk = (settleSorts (settleGroups s bk b.ngrp) bk b.cores).settleBlock bk := by
  have hcl : settleBars s bk b.cores = s := foldl_stays fun c hc => hbars _ (lt_of_lt_of_le (hcores c hc) (by decide))
  rw [settle_running hb hr, hbars keyBar (by decide), hcl]

/-- A complete collective of one group is all that happens. -/
theorem settle_group {v : State} (hv : Idle v bk) {g : Nat} (hg : g < b.ngrp) (hone : s.settleGroup bk g = v)
    (hrest : ∀ y, y ≠ g → s.settleGroup bk y = s) : s.settle bk = v := by
  have hgroups : settleGroups s bk b.ngrp = v := foldl_once (mem_span.2 ⟨Nat.zero_le _, by omega⟩) hone (fun y _ hy => hrest y hy) (settleGroup_idle hv)
  rw [settle_barless hb hr hcores hbars, hgroups, settleSorts_idle hv, settleBlock_idle hv]

/-- A complete `fsort` of one core is all that happens. -/
theorem settle_sort {v : State} (hv : Idle v bk) (hgroups : ∀ g, s.settleGroup bk g = s) {c : Nat} (hc : c ∈ b.cores) (hone : s.settleSort bk c = v)
    (hrest : ∀ y, y ≠ c → s.settleSort bk y = s) : s.settle bk = v := by
  have hstay : settleGroups s bk b.ngrp = s := foldl_id hgroups _
  have hsorts : settleSorts s bk b.cores = v := foldl_once hc hone (fun y _ hy => hrest y hy) (settleSort_idle hv)
  rw [settle_barless hb hr hcores hbars, hstay, hsorts, settleBlock_idle hv]

/-- Nothing is complete. -/
theorem settle_stays (hgroups : ∀ g, s.settleGroup bk g = s) (hsorts : ∀ c, s.settleSort bk c = s) (hblock : s.settleBlock bk = s) : s.settle bk = s := by
  have hstay : settleGroups s bk b.ngrp = s := foldl_id hgroups _
  have hsort : settleSorts s bk b.cores = s := foldl_id hsorts _
  rw [settle_barless hb hr hcores hbars, hstay, hsort, hblock]

end

/-! ### The arrival of the fibre that issues -/

theorem settleCur_one {s : State} {fk : Nat} (h : s.cur = [fk]) (t : State) : settleCur s t = t.settle (fkBk fk) := by
  unfold settleCur
  rw [h]
  simp [blocksOf]

/-- Every fibre of a bundle arrives at a collective, whatever its guard (R126). -/
theorem runColl_arrives {s : State} {g : Guard} {fk : Nat} {x : Fibre} {i : Instr} {key : State → Nat → Nat} {plan : State → WUnit → Plan Unit}
    (hcur : s.cur = [fk]) (hfib : s.fib fk = some x) (hplan : guardHolds s g fk = true → plan s (only fk) = .go ()) :
    runColl s g i key plan = (s.arrive fk (key s fk) (.coll i (guardHolds s g fk))).settle (fkBk fk) := by
  have halways : Issues s { u := false, gn := false, gp := 15 } fk x := ⟨hcur, hfib, rfl⟩
  rw [runColl, runUnits_go halways (a := ())]
  · exact settleCur_one hcur _
  · rw [only_rep]
    split
    · next h => exact hplan h
    · rfl

end Sys2Proof.Proofs
end

section
/-!
PROOFS. The obligation on `vote` and `redux` (R126 to R128): the last live fibre of a group arrives, and the collective completes.
-/
namespace Sys2Proof.Proofs
open Sys2Proof Sys2Proof.Machine Sys2Proof.Laws

/-! ### The last fibre arrives at a collective -/

/-- A collective's generation is none of a barrier. -/
theorem keyOfStat_coll {core g pc key : Nat} {i : Instr} {held : Bool} (h : keyOfStat core g pc (.coll i held) = some key) : 2048 ≤ key := by
  have hat : 2048 ≤ keyAt pc := Nat.le_add_right _ _
  unfold keyOfStat at h
  split at h <;> cases h <;> try contradiction
  all_goals exact hat.trans (by simp only [keyGroup, keySort, keyBlock]; omega)

/-- The state in which the fibre that issues has arrived at a collective. -/
def arrivedAt (s : State) (g : Guard) (fk key : Nat) (i : Instr) : State := s.arrive fk key (.coll i (guardHolds s g fk))

/-- The fibres of the group whose guard holds. -/
def holdsOf (s : State) (g : Guard) (fk key : Nat) (i : Instr) : List Nat :=
  ((arrivedAt s g fk key i).groupFibs (fkBk fk) (fkG fk)).filter (arrives s g fk i)

section
variable {s : State} {g : Guard} {fk : Nat} {x : Fibre} {b : Block} {i : Instr} (key : Nat)

theorem heldAt_arrivedAt (hfib : s.fib fk = some x) (k : Nat) : heldAt (arrivedAt s g fk key i) i k = arrives s g fk i k := by
  unfold heldAt arrives arrivedAt
  rw [fib_arrive]
  by_cases hk : k = fk
  · rw [if_pos hk, if_pos hk, hfib]
    cases guardHolds s g fk <;> simp
  · cases s.fib k with
    | none => simp [hk]
    | some y => simp [hk]

/-- A fibre of the block, before the last one arrived and after. -/
theorem fib_arrivedAt {k : Nat} {y : Fibre} (hy : s.fib k = some y) :
    (arrivedAt s g fk key i).fib k = some (if k = fk then { y with stat := .coll i (guardHolds s g fk) } else y) := by
  rw [arrivedAt, fib_arrive]
  by_cases hk : k = fk
  · rw [if_pos hk, if_pos hk, ← hk, hy]
    rfl
  · rw [if_neg hk, if_neg hk, hy]

theorem stat_arrivedAt {k : Nat} {y : Fibre} (hy : s.fib k = some y) : ∃ st, (arrivedAt s g fk key i).fib k = some { y with stat := st } := by
  rw [fib_arrivedAt key hy]
  by_cases hk : k = fk
  · exact ⟨_, congrArg some (if_pos hk)⟩
  · exact ⟨y.stat, congrArg some (if_neg hk)⟩

variable (h : LastToArrive s g fk x b i)
include h

theorem last_block : ∃ cf, (arrivedAt s g fk key i).block? (fkBk fk) = some (firsts cf b) := (SameWork.arrive s fk key _).block _ b h.block

theorem live_arrivedAt {k : Nat} : (∃ y, (arrivedAt s g fk key i).fib k = some y) ↔ ∃ y, s.fib k = some y := by
  refine ⟨fun ⟨y, hy⟩ => ?_, fun ⟨y, hy⟩ => ⟨_, fib_arrivedAt key hy⟩⟩
  rw [arrivedAt, fib_arrive] at hy
  split at hy
  · next e => exact ⟨x, e ▸ h.fib⟩
  · exact ⟨y, hy⟩

theorem last_atColl {k : Nat} {y : Fibre} (hy : s.fib k = some y) (hb : fkBk k = fkBk fk) : AtColl (arrivedAt s g fk key i) i s.ipc k := by
  refine ⟨_, fib_arrivedAt key hy, ?_⟩
  by_cases hk : k = fk
  · rw [if_pos hk]
    obtain rfl : y = x := Option.some.inj (hy.symm.trans (hk ▸ h.fib))
    cases guardHolds s g fk
    · exact ⟨h.pc, .inr rfl⟩
    · exact ⟨h.pc, .inl rfl⟩
  · rw [if_neg hk]
    exact h.others k y hy hb hk

theorem last_barless (n : Nat) (hn : n < 2048) : (arrivedAt s g fk key i).settleBar (fkBk fk) n = arrivedAt s g fk key i := by
  refine settleBar_unreached fun k y hy hb hkey => ?_
  obtain ⟨z, hz⟩ := (live_arrivedAt key h).1 ⟨y, hy⟩
  obtain ⟨y', hy', -, hst⟩ := last_atColl key h hz hb
  obtain rfl : y = y' := Option.some.inj (hy.symm.trans hy')
  have hge : 2048 ≤ n := hst.elim (fun e => keyOfStat_coll (e ▸ hkey)) fun e => keyOfStat_coll (e ▸ hkey)
  omega

theorem last_wf : swf none (arrivedAt s g fk key i).rs.fibres = true := arrive_wf h.store _ _ _

theorem lastGroup_nodup : ((arrivedAt s g fk key i).groupFibs (fkBk fk) (fkG fk)).Nodup := (blockFibs_nodup (last_wf key h) _).filter _

variable (h1 : OneGroup s fk b)
include h1

/-- The fibres of the group are those of the block. -/
theorem mem_lastGroup {k : Nat} : k ∈ (arrivedAt s g fk key i).groupFibs (fkBk fk) (fkG fk) ↔ fkBk k = fkBk fk ∧ ∃ y, s.fib k = some y := by
  rw [State.groupFibs, List.mem_filter, mem_blockFibs_iff (last_wf key h), live_arrivedAt key h]
  refine ⟨fun hk => hk.1, fun hk => ⟨hk, ?_⟩⟩
  obtain ⟨hb, y, hy⟩ := hk
  exact beq_iff_eq.2 (h1.mates k y hy hb)

theorem otherGroup_empty {n : Nat} (hn : n ≠ fkG fk) : (arrivedAt s g fk key i).groupFibs (fkBk fk) n = [] := by
  refine List.filter_eq_nil_iff.2 fun k hk => ?_
  obtain ⟨hb, hy⟩ := (mem_blockFibs_iff (last_wf key h)).1 hk
  obtain ⟨y, hy⟩ := (live_arrivedAt key h).1 hy
  rw [beq_iff_eq, h1.mates k y hy hb]
  exact Ne.symm hn

theorem settleGroup_other {n : Nat} (hn : n ≠ fkG fk) : (arrivedAt s g fk key i).settleGroup (fkBk fk) n = arrivedAt s g fk key i := by
  simp only [State.settleGroup, otherGroup_empty key h h1 hn, State.collective]

theorem collective_last : (arrivedAt s g fk key i).collective ((arrivedAt s g fk key i).groupFibs (fkBk fk) (fkG fk)) =
    some (i, s.ipc, holdsOf s g fk key i) := by
  rw [collective_of (i := i) (pc := s.ipc), show heldAt (arrivedAt s g fk key i) i = arrives s g fk i from funext (heldAt_arrivedAt key h.fib), holdsOf]
  · exact List.ne_nil_of_mem ((mem_lastGroup key h h1).2 ⟨rfl, x, h.fib⟩)
  · intro k hk
    obtain ⟨hb, y, hy⟩ := (mem_lastGroup key h h1).1 hk
    exact last_atColl key h hy hb

/-- A collective of the group that sends on every fibre is all that happens. -/
theorem settle_last {v : State} (hone : (arrivedAt s g fk key i).settleGroup (fkBk fk) (fkG fk) = v)
    (hv : ∀ k y, v.fib k = some y → fkBk k = fkBk fk → y.stat = .ready) : (arrivedAt s g fk key i).settle (fkBk fk) = v := by
  obtain ⟨cf, hb⟩ := last_block key h
  exact settle_group hb h.runs h.cores (last_barless key h) (idle_of_allReady hv) h.group hone fun n hn => settleGroup_other key h h1 hn

end

/-! ### Lane masks (R127) -/

theorem add_two_pow_testBit {m j : Nat} (h : m.testBit j = false) (i : Nat) : (m + 2 ^ j).testBit i = if i = j then true else m.testBit i := by
  have heven : m / 2 ^ j % 2 = 0 := by
    rw [Nat.testBit_eq_decide_div_mod_eq] at h
    have := of_decide_eq_false h
    omega
  have hset : m + 2 ^ j = setBit m j true := by
    have hlow := Nat.div_add_mod m (2 ^ j)
    have hhigh : m / 2 ^ (j + 1) = m / 2 ^ j / 2 := by rw [pow_succ, Nat.div_div_eq_div_mul]
    have hq : m / 2 ^ j = 2 * (m / 2 ^ j / 2) := by omega
    have hsum : m / 2 ^ j / 2 * 2 ^ (j + 1) = 2 ^ j * (m / 2 ^ j) := by
      conv_rhs => rw [hq]
      ring
    simp only [setBit, setBits, b2n, if_true, hhigh, hsum]
    omega
  rw [hset, ← bit_eq, bit_setBit, bit_eq]

/-- The mask of the home lanes of some fibres. -/
def laneMask (l : List Nat) : Nat := l.foldl (fun m fk => m + 2 ^ fkL fk) 0

theorem foldl_lanes {l : List Nat} (hn : (l.map fkL).Nodup) {m : Nat} (hm : ∀ k ∈ l, m.testBit (fkL k) = false) (i : Nat) :
    (l.foldl (fun m fk => m + 2 ^ fkL fk) m).testBit i = (m.testBit i || decide (i ∈ l.map fkL)) := by
  induction l generalizing m with
  | nil => simp
  | cons k l ih =>
    obtain ⟨hk, hn⟩ := List.nodup_cons.1 hn
    have hbit := add_two_pow_testBit (hm k List.mem_cons_self)
    rw [List.foldl_cons, ih hn, hbit]
    · by_cases hi : i = fkL k
      · simp [hi]
      · simp [hi]
    · intro j hj
      have hne : fkL j ≠ fkL k := fun e => hk (e ▸ List.mem_map_of_mem hj)
      rw [hbit, if_neg hne]
      exact hm j (List.mem_cons_of_mem _ hj)

theorem fkOf_fk (fk : Nat) : fkOf (fkBk fk) (fkG fk) (fkL fk) = fk := by simp only [fkOf, fkBk, fkG, fkL]; omega

/-- Fibres of one group have different home lanes. -/
theorem lanes_nodup {l : List Nat} {bk g : Nat} (hn : l.Nodup) (hl : ∀ k ∈ l, fkBk k = bk ∧ fkG k = g) : (l.map fkL).Nodup := by
  refine List.Nodup.map_on (fun j hj k hk e => ?_) hn
  obtain ⟨hjb, hjg⟩ := hl j hj
  obtain ⟨hkb, hkg⟩ := hl k hk
  rw [← fkOf_fk j, ← fkOf_fk k, hjb, hjg, hkb, hkg, e]

theorem testBit_laneMask {l : List Nat} {bk g : Nat} (hn : l.Nodup) (hl : ∀ k ∈ l, fkBk k = bk ∧ fkG k = g) {i : Nat} :
    (laneMask l).testBit i = true ↔ i ∈ l.map fkL := by
  rw [laneMask, foldl_lanes (lanes_nodup hn hl) fun k _ => Nat.zero_testBit _, Nat.zero_testBit, Bool.false_or, decide_eq_true_eq]

/-! ### vote (R127) -/

/-- The fibres whose guard and predicate hold. -/
def yesOf (s : State) (a : Nat) (holds : List Nat) : List Nat := holds.filter fun k => s.predOf k a

/-- What `vote` writes to predicates: of `.all`, or else of `.any`. -/
def verdict (s : State) (a mode : Nat) (holds : List Nat) : Bool :=
  if mode = 0 then laneMask (yesOf s a holds) == laneMask holds else laneMask (yesOf s a holds) != 0

/-- `vote` before its fibres go on. -/
def voted (s : State) (bk g pc d a mode : Nat) (fs holds : List Nat) : State :=
  if mode < 2 then holds.foldl (fun t k => t.setP { pc := pc, fk := k } k d (verdict s a mode holds)) s
  else s.setU { pc := pc, fk := fs.headD 0 } bk g d (laneMask (yesOf s a holds))

theorem finishVote_eq {s : State} {bk g pc d a mode : Nat} (hm : mode < 3) (fs holds : List Nat) : s.finishVote bk g pc d a mode fs holds =
    fs.foldl State.advance ((voted s bk g pc d a mode fs holds).closeGen bk (keyGroup g pc)) := by
  match mode, hm with
  | 0, _ => rfl
  | 1, _ => rfl
  | 2, _ => rfl

theorem setP_changes {s : State} {fk : Nat} {b : Block} (hb : s.block? (fkBk fk) = some b) (hf : b.frames = []) (w : Who) (d : Nat) (v : Bool) :
    Changes (fun y => y.setPred d v) fk s (s.setP w fk d v) := by
  by_cases hd : d = 15
  · rw [hd, setP_discarded]
    refine ⟨.refl s, fun j => ?_⟩
    have hid : (fun y : Fibre => y.setPred 15 v) = id := funext fun _ => if_pos rfl
    by_cases hj : j = fk
    · rw [if_pos hj, hid, Option.map_id_fun, hj]
      rfl
    · rw [if_neg hj]
  · rw [setP_frameless hb hf w d v hd]
    exact changes_updFib s fk _

/-- The fibres after the writes of a vote of the predicates. -/
theorem voted_preds {s : State} {bk g pc d a mode : Nat} {fs holds : List Nat} {b : Block} (hb : s.block? bk = some b) (hf : b.frames = [])
    (hn : holds.Nodup) (hbk : ∀ k ∈ holds, fkBk k = bk) (hm : mode < 2) :
    SameWork s (voted s bk g pc d a mode fs holds) ∧ ∀ k, (voted s bk g pc d a mode fs holds).fib k =
      if k ∈ holds then (s.fib k).map fun y => y.setPred d (verdict s a mode holds) else s.fib k := by
  rw [voted, if_pos hm]
  obtain ⟨honly, hfib⟩ := foldl_changes (f := fun y => y.setPred d (verdict s a mode holds)) hn (.refl s)
    (step := fun t k => t.setP { pc := pc, fk := k } k d (verdict s a mode holds)) fun t k ht hk => by
      obtain ⟨fs, rfl⟩ := ht
      exact setP_changes (by rw [hbk k hk]; exact hb) hf _ d _
  exact ⟨honly.sameWork, hfib⟩

/-- The state after a ballot's write of the mask. -/
theorem voted_ballot {s : State} {bk g pc d a : Nat} {fs holds : List Nat} {b : Block} (hb : s.block? bk = some b) (hf : b.frames = []) :
    voted s bk g pc d a 2 fs holds =
      ({ s with rs := s.rs.putU (ukOf bk g d) (laneMask (yesOf s a holds)) false } : State).updFib (fs.headD 0) (Fibre.liveU d) :=
  setUP_frameless hb hf _ _ _ _ _

section
variable {s : State} {g : Guard} {fk : Nat} {x : Fibre} {b : Block} {d a mode : Nat} (h : LastToArrive s g fk x b (.vote g d a mode)) (h1 : OneGroup s fk b)

theorem arrives_live {i : Instr} (hfib : s.fib fk = some x) {k : Nat} (hk : arrives s g fk i k = true) : ∃ y, s.fib k = some y := by
  unfold arrives at hk
  split at hk
  · next e => exact ⟨x, e ▸ hfib⟩
  · split at hk
    · next y hy => exact ⟨y, hy⟩
    · cases hk

theorem predOf_arrivedAt (key : Nat) (i : Instr) (k : Nat) : (arrivedAt s g fk key i).predOf k a = s.predOf k a := by
  unfold State.predOf arrivedAt
  rw [fib_arrive]
  by_cases hk : k = fk
  · rw [if_pos hk, hk]
    cases s.fib fk <;> rfl
  · rw [if_neg hk]

theorem mem_holdsOf {i : Instr} (key : Nat) (h : LastToArrive s g fk x b i) (h1 : OneGroup s fk b) {k : Nat} :
    k ∈ holdsOf s g fk key i ↔ fkBk k = fkBk fk ∧ arrives s g fk i k = true := by
  rw [holdsOf, List.mem_filter, mem_lastGroup key h h1]
  exact ⟨fun ⟨⟨hb, _⟩, hk⟩ => ⟨hb, hk⟩, fun ⟨hb, hk⟩ => ⟨⟨hb, arrives_live h.fib hk⟩, hk⟩⟩

theorem mem_yesOf {i : Instr} (key : Nat) (h : LastToArrive s g fk x b i) (h1 : OneGroup s fk b) {k : Nat} :
    k ∈ yesOf (arrivedAt s g fk key i) a (holdsOf s g fk key i) ↔ fkBk k = fkBk fk ∧ (arrives s g fk i k && s.predOf k a) = true := by
  rw [yesOf, List.mem_filter, mem_holdsOf key h h1, predOf_arrivedAt, Bool.and_eq_true, and_assoc]

theorem holdsOf_nodup {i : Instr} (key : Nat) (h : LastToArrive s g fk x b i) : (holdsOf s g fk key i).Nodup := (lastGroup_nodup key h).filter _

theorem holdsOf_group {i : Instr} (key : Nat) (h : LastToArrive s g fk x b i) (h1 : OneGroup s fk b) :
    ∀ k ∈ holdsOf s g fk key i, fkBk k = fkBk fk ∧ fkG k = fkG fk := fun k hk => by
  obtain ⟨hb, ha⟩ := (mem_holdsOf key h h1).1 hk
  obtain ⟨y, hy⟩ := arrives_live h.fib ha
  exact ⟨hb, h1.mates k y hy hb⟩

end

theorem mask_of_yes {s : State} {a bk g : Nat} {holds : List Nat} (hn : holds.Nodup) (hl : ∀ k ∈ holds, fkBk k = bk ∧ fkG k = g) {i : Nat} :
    (laneMask (yesOf s a holds)).testBit i = true ↔ i ∈ (yesOf s a holds).map fkL :=
  testBit_laneMask (hn.filter _) fun k hk => hl k (List.mem_of_mem_filter hk)

/-- `.all`: every fibre whose guard holds has its predicate true. -/
theorem verdict_all {s : State} {a bk g : Nat} {holds : List Nat} (hn : holds.Nodup) (hl : ∀ k ∈ holds, fkBk k = bk ∧ fkG k = g) :
    verdict s a 0 holds = true ↔ ∀ k ∈ holds, s.predOf k a = true := by
  rw [verdict, if_pos rfl, beq_iff_eq]
  refine ⟨fun he k hk => ?_, fun hall => congrArg laneMask (List.filter_eq_self.2 hall)⟩
  have hbit := (testBit_laneMask hn hl).2 (List.mem_map_of_mem hk)
  rw [← he, mask_of_yes hn hl] at hbit
  obtain ⟨j, hj, hlane⟩ := List.mem_map.1 hbit
  obtain ⟨hj, hp⟩ := List.mem_filter.1 hj
  rwa [← List.inj_on_of_nodup_map (lanes_nodup hn hl) hj hk hlane]

/-- `.any`: some fibre whose guard holds has its predicate true. -/
theorem verdict_any {s : State} {a bk g : Nat} {holds : List Nat} (hn : holds.Nodup) (hl : ∀ k ∈ holds, fkBk k = bk ∧ fkG k = g) :
    verdict s a 1 holds = true ↔ ∃ k, k ∈ yesOf s a holds := by
  rw [verdict, if_neg (by decide), bne_iff_ne]
  refine ⟨fun hne => ?_, fun ⟨k, hk⟩ he => ?_⟩
  · exact List.exists_mem_of_ne_nil _ fun he => hne (by rw [he]; rfl)
  · have hbit := (mask_of_yes hn hl).2 (List.mem_map_of_mem hk)
    rw [he, Nat.zero_testBit] at hbit
    cases hbit

/-- The home lane of a fibre of a group in the mask of a ballot. -/
theorem ballot_bit {s : State} {a bk g : Nat} {holds : List Nat} (hn : holds.Nodup) (hl : ∀ k ∈ holds, fkBk k = bk ∧ fkG k = g) {l : Nat} (h64 : l < 64) :
    (laneMask (yesOf s a holds) % 2 ^ 64).testBit l = true ↔ fkOf bk g l ∈ yesOf s a holds := by
  rw [Nat.testBit_mod_two_pow, decide_eq_true h64, Bool.true_and, mask_of_yes hn hl, List.mem_map]
  constructor
  · rintro ⟨k, hk, rfl⟩
    obtain ⟨hb, hg⟩ := hl k (List.mem_of_mem_filter hk)
    rwa [← hb, ← hg, fkOf_fk]
  · exact fun hk => ⟨_, hk, by simp only [fkOf, fkL]; omega⟩

/-- A fibre goes on whatever it stood at. -/
theorem adv_setPred (y : Fibre) (c : Prop) [Decidable c] (st : FStat) (d n : Nat) (v : Bool) :
    Fibre.adv { (if c then ({ y with stat := st } : Fibre).setPred d v else { y with stat := st }) with lives := n } =
      { (if c then y.setPred d v else y).adv with lives := n } := by
  unfold Fibre.setPred
  split_ifs <;> rfl

/-- The fibres after the writes of a vote: predicates, and how many uniform registers are live. -/
theorem voted_fib {s : State} {bk g pc d a mode : Nat} {fs holds : List Nat} {b : Block} (hb : s.block? bk = some b) (hf : b.frames = [])
    (hn : holds.Nodup) (hbk : ∀ k ∈ holds, fkBk k = bk) (hm : mode < 3) (k : Nat) : ∃ n : Fibre → Nat, (voted s bk g pc d a mode fs holds).fib k =
      (s.fib k).map fun y => { (if mode < 2 ∧ k ∈ holds then y.setPred d (verdict s a mode holds) else y) with lives := n y } := by
  by_cases h2 : mode < 2
  · refine ⟨fun y => (if k ∈ holds then y.setPred d (verdict s a mode holds) else y).lives, ?_⟩
    rw [(voted_preds hb hf hn hbk h2).2]
    by_cases hk : k ∈ holds
    · simp only [hk, h2, and_self, if_true]
    · simp only [hk, and_false, if_false, Option.map_id_fun', id]
  · obtain rfl : mode = 2 := by omega
    refine ⟨fun y => if k = fs.headD 0 then max y.lives (d + 1) else y.lives, ?_⟩
    rw [voted_ballot hb hf, fib_updFib]
    by_cases hk : k = fs.headD 0
    · rw [if_pos hk, ← hk]
      simp only [h2, false_and, if_false, if_true, hk]
      rfl
    · rw [if_neg hk]
      simp only [h2, false_and, if_false, hk, Option.map_id_fun', id]
      rfl

/-- Fibres that go on can issue. -/
theorem sent_ready {w : State} {fs : List Nat} {bk key : Nat} (hn : fs.Nodup) (hall : ∀ k y, w.fib k = some y → fkBk k = bk → k ∈ fs) :
    ∀ k y, (fs.foldl State.advance (w.closeGen bk key)).fib k = some y → fkBk k = bk → y.stat = .ready := by
  intro k y hy hb
  rw [(foldl_advance hn _).2] at hy
  change (if k ∈ fs then (w.fib k).map Fibre.adv else w.fib k) = some y at hy
  split at hy
  · obtain ⟨z, -, rfl⟩ := Option.map_eq_some_iff.1 hy
    rfl
  · next hk => exact absurd (hall k y hy hb) hk

/-- The group when its last fibre has arrived at `vote`, and what the vote writes to predicates. -/
def votersAt (s : State) (g : Guard) (fk d a mode : Nat) : State := arrivedAt s g fk (keyGroup (fkG fk) s.ipc) (.vote g d a mode)
def votersOf (s : State) (g : Guard) (fk d a mode : Nat) : List Nat := holdsOf s g fk (keyGroup (fkG fk) s.ipc) (.vote g d a mode)
def verdictOf (s : State) (g : Guard) (fk d a mode : Nat) : Bool := verdict (votersAt s g fk d a mode) a mode (votersOf s g fk d a mode)

/-- The group's writes, before its fibres go on. -/
def votedBy (s : State) (g : Guard) (fk d a mode : Nat) : State := voted (votersAt s g fk d a mode) (fkBk fk) (fkG fk) s.ipc d a mode
  ((votersAt s g fk d a mode).groupFibs (fkBk fk) (fkG fk)) (votersOf s g fk d a mode)

/-- What `vote` leaves. -/
def afterVote (s : State) (g : Guard) (fk d a mode : Nat) : State := ((votersAt s g fk d a mode).groupFibs (fkBk fk) (fkG fk)).foldl State.advance
  ((votedBy s g fk d a mode).closeGen (fkBk fk) (keyGroup (fkG fk) s.ipc))

section
variable {s : State} {g : Guard} {fk : Nat} {x : Fibre} {b : Block} {d a mode : Nat} (h : LastToArrive s g fk x b (.vote g d a mode)) (h1 : OneGroup s fk b)
include h h1

theorem mem_votersOf {k : Nat} : k ∈ votersOf s g fk d a mode ↔ fkBk k = fkBk fk ∧ arrives s g fk (.vote g d a mode) k = true := mem_holdsOf _ h h1

theorem votedBy_fib (hm : mode < 3) (k : Nat) : ∃ n : Fibre → Nat, (votedBy s g fk d a mode).fib k = ((votersAt s g fk d a mode).fib k).map fun y =>
    { (if mode < 2 ∧ k ∈ votersOf s g fk d a mode then y.setPred d (verdictOf s g fk d a mode) else y) with lives := n y } := by
  obtain ⟨cf, hb⟩ := last_block (keyGroup (fkG fk) s.ipc) h
  exact voted_fib hb h1.frames (holdsOf_nodup _ h) (fun k hk => ((mem_votersOf h h1).1 hk).1) hm k

theorem exec_vote (hm : mode < 3) (hbusy : mode = 2 → s.busyU (fkBk fk) (fkG fk) d = false) :
    exec (.vote g d a mode) s = .next (afterVote s g fk d a mode) := by
  have hfree : ∀ t : State, SameWork s t → ¬ (mode = 2 ∧ t.busyU (fkBk fk) (fkG fk) d = true) := fun t ht ⟨h2, hb⟩ => by
    rw [ht.busyU, hbusy h2] at hb
    cases hb
  refine congrArg Host.Outcome.next ((runColl_arrives h.cur h.fib fun _ => if_neg (hfree s (OnlyFibres.refl s).sameWork)).trans ?_)
  refine settle_last _ h h1 ?_ (sent_ready (lastGroup_nodup _ h) fun k y hy hk =>
    (mem_lastGroup _ h h1).2 ⟨hk, (live_arrivedAt (keyGroup (fkG fk) s.ipc) h).1 ?_⟩)
  · simp only [State.settleGroup, collective_last _ h h1]
    exact (if_neg (hfree _ (SameWork.arrive _ _ _ _))).trans (finishVote_eq hm _ _)
  · obtain ⟨n, hw⟩ := votedBy_fib h h1 hm k
    obtain ⟨z, hz, -⟩ := Option.map_eq_some_iff.1 (hw.symm.trans hy)
    exact ⟨z, hz⟩

theorem afterVote_fib (hm : mode < 3) {k : Nat} {y : Fibre} (hy : s.fib k = some y) (hk : fkBk k = fkBk fk) : ∃ n, (afterVote s g fk d a mode).fib k =
    some { (if mode < 2 ∧ arrives s g fk (.vote g d a mode) k = true then y.setPred d (verdictOf s g fk d a mode) else y).adv with lives := n } := by
  obtain ⟨n, hw⟩ := votedBy_fib h h1 hm k
  have hsent : (afterVote s g fk d a mode).fib k = ((votedBy s g fk d a mode).fib k).map Fibre.adv :=
    ((foldl_advance (lastGroup_nodup (keyGroup (fkG fk) s.ipc) h) _).2 k).trans (if_pos ((mem_lastGroup _ h h1).2 ⟨hk, y, hy⟩))
  have hheld : k ∈ votersOf s g fk d a mode ↔ arrives s g fk (.vote g d a mode) k = true := (mem_votersOf h h1).trans (and_iff_right hk)
  obtain ⟨st, hst⟩ := stat_arrivedAt (g := g) (fk := fk) (i := .vote g d a mode) (keyGroup (fkG fk) s.ipc) hy
  rw [hsent, hw, show (votersAt s g fk d a mode).fib k = _ from hst]
  simp only [hheld]
  exact ⟨_, congrArg some (adv_setPred y _ st d _ _)⟩

end

section
variable {s : State} {g : Guard} {fk : Nat} {x : Fibre} {b : Block} {d a mode : Nat}

/-- A ballot's register holds the mask. -/
theorem afterVote_mask (h : LastToArrive s g fk x b (.vote g d a 2)) (h1 : OneGroup s fk b) : (afterVote s g fk d a 2).uraw (fkBk fk) (fkG fk) d =
    laneMask (yesOf (votersAt s g fk d a 2) a (votersOf s g fk d a 2)) % 2 ^ 64 := by
  obtain ⟨cf, hb⟩ := last_block (keyGroup (fkG fk) s.ipc) h
  have hwork := (SameWork.closeGen (votedBy s g fk d a 2) (fkBk fk) (keyGroup (fkG fk) s.ipc)).trans 
    (foldl_advance (lastGroup_nodup (keyGroup (fkG fk) s.ipc) h) _).1.sameWork
  exact (hwork.uraw _ _ _).trans ((uraw_setUP hb h1.frames _ _ _ _ _ _ _ _).trans (if_pos rfl))

theorem vote_results (h : LastToArrive s g fk x b (.vote g d a mode)) (h1 : OneGroup s fk b) (hm : mode < 3)
    (hbusy : mode = 2 → s.busyU (fkBk fk) (fkG fk) d = false ∧ d < 96) :
    let holds := arrives s g fk (.vote g d a mode)
    let yes := fun k => holds k && s.predOf k a
    ∃ (t : State) (v : Bool), exec (.vote g d a mode) s = .next t ∧
      (mode = 0 → (v = true ↔ ∀ k, fkBk k = fkBk fk → holds k = true → yes k = true)) ∧
      (mode = 1 → (v = true ↔ ∃ k, fkBk k = fkBk fk ∧ yes k = true)) ∧
      (∀ k y, s.fib k = some y → fkBk k = fkBk fk →
        t.fib k = some { (if mode < 2 ∧ holds k = true then y.setPred d v else y).adv with
          lives := ((t.fib k).map Fibre.lives).getD 0 }) ∧
      (mode = 2 → ∀ l < 64, (t.uraw (fkBk fk) (fkG fk) d).testBit l = yes (fkOf (fkBk fk) (fkG fk) l)) := by
  intro holds yes
  have hnodup : (votersOf s g fk d a mode).Nodup := holdsOf_nodup _ h
  have hgroup : ∀ k ∈ votersOf s g fk d a mode, fkBk k = fkBk fk ∧ fkG k = fkG fk := holdsOf_group _ h h1
  have hyes : ∀ k, k ∈ yesOf (votersAt s g fk d a mode) a (votersOf s g fk d a mode) ↔ fkBk k = fkBk fk ∧ yes k = true := fun k => mem_yesOf _ h h1
  refine ⟨_, verdictOf s g fk d a mode, exec_vote h h1 hm fun h2 => (hbusy h2).1, ?_, ?_, fun k y hy hk => ?_, ?_⟩
  · rintro rfl
    refine (verdict_all hnodup hgroup).trans (forall_congr' fun k => ?_)
    rw [mem_votersOf h h1, show (votersAt s g fk d a 0).predOf k a = s.predOf k a from predOf_arrivedAt _ _ _]
    simp only [and_imp, yes, Bool.and_eq_true]
    exact forall₂_congr fun _ hheld => (and_iff_right hheld).symm
  · rintro rfl
    exact (verdict_any hnodup hgroup).trans (exists_congr hyes)
  · obtain ⟨n, hn⟩ := afterVote_fib h h1 hm hy hk
    rw [hn]
    rfl
  · rintro rfl l h64
    rw [afterVote_mask h h1, Bool.eq_iff_iff, ballot_bit hnodup hgroup h64, hyes]
    exact and_iff_right (by simp only [fkOf, fkBk, fkG]; omega)

end

/-! ### redux (R128) -/

/-- The write of a fold and its flags. -/
def reduxed (s : State) (w : Who) (bk g d v fl : Nat) : State := (s.setU w bk g d v).orGsw w bk g fl

theorem orGsw_results {s : State} {bk g : Nat} {b : Block} (hb : s.block? bk = some b) (hf : b.frames = []) (hg : g < b.groups.length) (w : Who) (fl : Nat) :
    (s.orGsw w bk g fl).rs = s.rs ∧ ((s.orGsw w bk g fl).group bk g).gsw = (s.group bk g).gsw ||| BitVec.ofNat 32 fl := by
  by_cases h0 : fl = 0
  · rw [h0, orGsw_zero]
    exact ⟨rfl, (BitVec.or_zero).symm⟩
  · rw [orGsw_frameless hb hf w g fl h0, group_updGroup hb hg]
    exact ⟨rfl, rfl⟩

section
variable {s : State} {bk g : Nat} {b : Block} (hb : s.block? bk = some b) (hf : b.frames = []) (hg : g < b.groups.length) (w : Who) (d v fl : Nat)
include hb hf hg

theorem reduxed_rs : (reduxed s w bk g d v fl).rs = (s.setU w bk g d v).rs ∧
    ((reduxed s w bk g d v fl).group bk g).gsw = (s.group bk g).gsw ||| BitVec.ofNat 32 fl := by
  have hset := setUP_frameless hb hf w g d v false
  have hblocks : (s.setU w bk g d v).blocks = s.blocks := by rw [State.setU, hset, State.updFib_blocks]
  have hblock : (s.setU w bk g d v).block? bk = some b := by rw [State.block?, hblocks]; exact hb
  have hgroup : (s.setU w bk g d v).group bk g = s.group bk g := by rw [State.group, State.group, hblock, hb]
  obtain ⟨hrs, hgsw⟩ := orGsw_results hblock hf hg w fl
  exact ⟨hrs, hgroup ▸ hgsw⟩

theorem reduxed_uraw : (reduxed s w bk g d v fl).uraw bk g d = v % 2 ^ 64 := by
  rw [State.uraw, (reduxed_rs hb hf hg w d v fl).1]
  exact (uraw_setUP hb hf w g d v false bk g d).trans (if_pos rfl)

theorem reduxed_fib (k : Nat) : (reduxed s w bk g d v fl).fib k = if k = w.fk then (s.fib w.fk).map (Fibre.liveU d) else s.fib k := by
  rw [State.fib, (reduxed_rs hb hf hg w d v fl).1, State.setU, setUP_frameless hb hf]
  exact fib_updFib _ w.fk k _

end

/-- The values that the fibres of a group hold for `redux`, by home lane. -/
def reduxWords (s : State) (bk g a : Nat) (wide : Bool) (held : Nat → Bool) : List (Option Nat) := (List.range 64).map fun l =>
  if held (fkOf bk g l) then some (s.vraw bk g a l + if wide then s.vraw bk g (a + 1) l * 2 ^ 32 else 0) else none

/-- The fold that `redux` writes, and its flags. -/
def reduxFold (s : State) (bk g a op : Nat) (ty : Ty) (rm : RM) (held : Nat → Bool) : Option Nat × Nat :=
  treeFold (combine op ty rm) (reduxWords s bk g a ty.wide held)

theorem finishRedux_eq {s : State} {bk g pc d a op : Nat} {ty : Ty} {rm : RM} {fs holds : List Nat} (hbusy : s.busyU bk g d = false) :
    let r := reduxFold s bk g a op ty rm holds.contains
    s.finishRedux bk g pc d a op ty rm fs holds = fs.foldl State.advance ((reduxed s { pc := pc, fk := fs.headD 0 } bk g d
      (if ty.wide then r.1.getD 0 else extendU ty (r.1.getD 0)) r.2).closeGen bk (keyGroup g pc)) := by
  have hspan : span 0 64 = List.range 64 := by decide
  unfold State.finishRedux
  rw [if_neg (by simp [hbusy]), hspan]
  rfl

section
variable {s : State} {g : Guard} {fk : Nat} {x : Fibre} {b : Block} {d a op : Nat} {ty : Ty} {rm : RM}

/-- The group when its last fibre has arrived at `redux`, and its write, before its fibres go on. -/
def reducersAt (s : State) (g : Guard) (fk d a op : Nat) (ty : Ty) (rm : RM) : State :=
  arrivedAt s g fk (keyGroup (fkG fk) s.ipc) (.redux g d a op ty rm)
def reducedBy (s : State) (g : Guard) (fk d a op : Nat) (ty : Ty) (rm : RM) : State :=
  let u := reducersAt s g fk d a op ty rm
  let r := reduxFold s (fkBk fk) (fkG fk) a op ty rm (arrives s g fk (.redux g d a op ty rm))
  reduxed u { pc := s.ipc, fk := (u.groupFibs (fkBk fk) (fkG fk)).headD 0 } (fkBk fk) (fkG fk) d
    (if ty.wide then r.1.getD 0 else extendU ty (r.1.getD 0)) r.2

/-- What `redux` leaves. -/
def afterRedux (s : State) (g : Guard) (fk d a op : Nat) (ty : Ty) (rm : RM) : State :=
  ((reducersAt s g fk d a op ty rm).groupFibs (fkBk fk) (fkG fk)).foldl State.advance
    ((reducedBy s g fk d a op ty rm).closeGen (fkBk fk) (keyGroup (fkG fk) s.ipc))

/-- The words of the lanes whose fibres have arrived with their guard true. -/
theorem reduxFold_arrived (h : LastToArrive s g fk x b (.redux g d a op ty rm)) (h1 : OneGroup s fk b) :
    reduxFold (reducersAt s g fk d a op ty rm) (fkBk fk) (fkG fk) a op ty rm
      (holdsOf s g fk (keyGroup (fkG fk) s.ipc) (.redux g d a op ty rm)).contains =
    reduxFold s (fkBk fk) (fkG fk) a op ty rm (arrives s g fk (.redux g d a op ty rm)) := by
  have hraw : ∀ r l, (reducersAt s g fk d a op ty rm).vraw (fkBk fk) (fkG fk) r l = s.vraw (fkBk fk) (fkG fk) r l := (SameWork.arrive s fk _ _).vraw _ _
  refine congrArg (treeFold (combine op ty rm)) (List.map_congr_left fun l hl => ?_)
  have hl := List.mem_range.1 hl
  have hbk : fkBk (fkOf (fkBk fk) (fkG fk) l) = fkBk fk := by simp only [fkOf, fkBk, fkG]; omega
  have hheld : (holdsOf s g fk (keyGroup (fkG fk) s.ipc) (.redux g d a op ty rm)).contains (fkOf (fkBk fk) (fkG fk) l) =
      arrives s g fk (.redux g d a op ty rm) (fkOf (fkBk fk) (fkG fk) l) := by
    rw [Bool.eq_iff_iff, List.contains_iff_mem, mem_holdsOf _ h h1]
    exact and_iff_right hbk
  simp only [hheld, hraw]

variable (h : LastToArrive s g fk x b (.redux g d a op ty rm)) (h1 : OneGroup s fk b)
include h h1

theorem reducedBy_fib (k : Nat) : ∃ f : Fibre → Fibre, (∀ y, f y = { y with lives := (f y).lives }) ∧
    (reducedBy s g fk d a op ty rm).fib k = ((reducersAt s g fk d a op ty rm).fib k).map f := by
  obtain ⟨cf, hb⟩ := last_block (keyGroup (fkG fk) s.ipc) h
  have hfib := reduxed_fib hb h1.frames h1.group
  by_cases hk : k = ((reducersAt s g fk d a op ty rm).groupFibs (fkBk fk) (fkG fk)).headD 0
  · exact ⟨Fibre.liveU d, fun _ => rfl, (hfib _ _ _ _ k).trans ((if_pos hk).trans (by rw [hk]; rfl))⟩
  · exact ⟨id, fun _ => rfl, (hfib _ _ _ _ k).trans ((if_neg hk).trans (congrFun Option.map_id _).symm)⟩

theorem exec_redux (hbusy : s.busyU (fkBk fk) (fkG fk) d = false) (ha : readable s fk (.v a) false ty.wide = true) :
    exec (.redux g d a op ty rm) s = .next (afterRedux s g fk d a op ty rm) := by
  have hbusy' : (reducersAt s g fk d a op ty rm).busyU (fkBk fk) (fkG fk) d = false := ((SameWork.arrive s fk _ _).busyU _ _ _).trans hbusy
  have hplan : planOperands s (only fk) (some (.reg (.s d) false ty.wide ty)) [⟨.v a, false, ty.wide⟩] [true] = .go (.s d, [.v a]) := by
    obtain ⟨hfree, hclean⟩ := Bool.and_eq_true_iff.1 ha
    exact planOperands_ready rfl (by simp [srcsReady, hfree, hclean]) rfl rfl hbusy
  refine congrArg Host.Outcome.next ((runColl_arrives h.cur h.fib fun _ => ?_).trans ?_)
  · rw [hplan]
  refine settle_last _ h h1 ?_ (sent_ready (lastGroup_nodup _ h) fun k y hy hk =>
    (mem_lastGroup _ h h1).2 ⟨hk, (live_arrivedAt (keyGroup (fkG fk) s.ipc) h).1 ?_⟩)
  · simp only [State.settleGroup, collective_last _ h h1]
    refine (finishRedux_eq hbusy').trans ?_
    rw [reduxFold_arrived h h1]
    rfl
  · obtain ⟨f, -, hw⟩ := reducedBy_fib h h1 k
    obtain ⟨z, hz, -⟩ := Option.map_eq_some_iff.1 (hw.symm.trans hy)
    exact ⟨z, hz⟩

theorem redux_results (hbusy : s.busyU (fkBk fk) (fkG fk) d = false) (ha : readable s fk (.v a) false ty.wide = true) :
    let r := reduxFold s (fkBk fk) (fkG fk) a op ty rm (arrives s g fk (.redux g d a op ty rm))
    ∃ t, exec (.redux g d a op ty rm) s = .next t ∧
      t.uraw (fkBk fk) (fkG fk) d = (if ty.wide then r.1.getD 0 else extendU ty (r.1.getD 0)) % 2 ^ 64 ∧
      (t.group (fkBk fk) (fkG fk)).gsw = (s.group (fkBk fk) (fkG fk)).gsw ||| BitVec.ofNat 32 r.2 ∧
      ∀ k y, s.fib k = some y → fkBk k = fkBk fk →
        ∃ z, t.fib k = some z ∧ z.pc = y.pc + 8 ∧ z.left = y.left - 1 ∧ z.stat = .ready ∧ z.preds = y.preds := by
  intro r
  obtain ⟨cf, hb⟩ := last_block (keyGroup (fkG fk) s.ipc) h
  obtain ⟨honly, hfib⟩ := foldl_advance (lastGroup_nodup (keyGroup (fkG fk) s.ipc) h)
    ((reducedBy s g fk d a op ty rm).closeGen (fkBk fk) (keyGroup (fkG fk) s.ipc))
  have hwork := (SameWork.closeGen (reducedBy s g fk d a op ty rm) (fkBk fk) (keyGroup (fkG fk) s.ipc)).trans honly.sameWork
  refine ⟨_, exec_redux h h1 hbusy ha, (hwork.uraw _ _ _).trans (reduxed_uraw hb h1.frames h1.group _ _ _ _), ?_, fun k y hy hk => ?_⟩
  · refine (congrArg Group.gsw (hwork.group _ _)).trans ((reduxed_rs hb h1.frames h1.group _ _ _ _).2.trans ?_)
    exact congrArg (fun gr : Group => gr.gsw ||| BitVec.ofNat 32 r.2) ((SameWork.arrive s fk _ _).group _ _)
  · obtain ⟨f, hlives, hw⟩ := reducedBy_fib h h1 k
    obtain ⟨st, hst⟩ := stat_arrivedAt (g := g) (fk := fk) (i := .redux g d a op ty rm) (keyGroup (fkG fk) s.ipc) hy
    have hsent : (afterRedux s g fk d a op ty rm).fib k = ((reducedBy s g fk d a op ty rm).fib k).map Fibre.adv :=
      (hfib k).trans (if_pos ((mem_lastGroup _ h h1).2 ⟨hk, y, hy⟩))
    refine ⟨_, hsent.trans (by rw [hw, show (reducersAt s g fk d a op ty rm).fib k = _ from hst]; rfl), ?_⟩
    rw [hlives]
    exact ⟨rfl, rfl, rfl, rfl⟩

end

/-- Settles O10: the last arrival completes the collective of its group, and after it no fibre of the block stands at one. -/
theorem voteAndReduxResults : Obligations.VoteAndReduxResults := by
  unfold Obligations.VoteAndReduxResults
  exact ⟨fun s g fk x b d a mode h h1 hm hbusy => vote_results h h1 hm hbusy, fun s g fk x b d a op ty rm h h1 _ hbusy ha => redux_results h h1 hbusy ha⟩

end Sys2Proof.Proofs
end

section
/-!
PROOFS. Arrivals at `bar`, `bar.cl` and `fsort` (R126, R273): what waits for a fibre that has not arrived stays, and a complete barrier sends its set on.
-/
namespace Sys2Proof.Proofs
open Sys2Proof Sys2Proof.Machine Sys2Proof.Laws

theorem exec_bar {s : State} {g : Guard} {fk : Nat} {x : Fibre} (h : Issues s g fk x) :
    exec (.bar g) s = .next ((s.arrive fk keyBar .bar).settle (fkBk fk)) :=
  congrArg Host.Outcome.next ((settleCur_one h.cur _).trans (by rw [runEach_issues h]))

theorem exec_barCl {s : State} {g : Guard} {fk : Nat} {x : Fibre} (h : Issues s g fk x) :
    exec (.barCl g) s = .next ((s.arrive fk (keyBarCl (s.group (fkBk fk) (fkG fk)).core) .barCl).settle (fkBk fk)) :=
  congrArg Host.Outcome.next ((settleCur_one h.cur _).trans (by rw [runEach_issues h]))

/-- A fibre with a free D and a readable A arrives at `fsort`. -/
theorem exec_fsort {s : State} {g : Guard} {fk : Nat} {x : Fibre} (hcur : s.cur = [fk]) (hfib : s.fib fk = some x) {d a m : Nat}
    (hd : free s fk (.v d) false false = true) (ha : readable s fk (.v a) false false = true) :
    exec (.fsort g d a m) s = .next ((arrivedAt s g fk (keySort (s.group (fkBk fk) (fkG fk)).core s.ipc) (.fsort g d a m)).settle (fkBk fk)) := by
  obtain ⟨hfree, hclean⟩ := Bool.and_eq_true_iff.1 ha
  have hplan := planOperands_ready (fk := fk) (d := some (.reg (.v d) false false .z32)) (srcs := [⟨.v a, false, false⟩]) (need := [true]) rfl
    (by simp [srcsReady, hfree, hclean]) (resolve_of_free hd) rfl (busyRes_of_free hd)
  refine congrArg Host.Outcome.next (runColl_arrives hcur hfib fun _ => ?_)
  rw [hplan]

/-! ### A fibre that waits -/

/-- The fibres of a block on a core, by their groups. -/
theorem mem_coreFibs {s : State} (hwf : swf none s.rs.fibres = true) {bk c k : Nat} :
    k ∈ s.coreFibs bk c ↔ (fkBk k = bk ∧ ∃ y, s.fib k = some y) ∧ (s.group bk (fkG k)).core = c := by
  rw [State.coreFibs, List.mem_filter, mem_blockFibs_iff hwf, beq_iff_eq]

/-- One fibre has arrived somewhere, and every other fibre of its block can issue. -/
structure FirstArrived (s : State) (fk : Nat) (x : Fibre) : Prop where
  store : swf none s.rs.fibres = true
  self : s.fib fk = some x
  others : ∀ k y, s.fib k = some y → fkBk k = fkBk fk → k ≠ fk → y.stat = .ready

/-- Another fibre of its block on its core. -/
structure Mate (s : State) (fk k : Nat) : Prop where
  live : ∃ y, s.fib k = some y
  block : fkBk k = fkBk fk
  ne : k ≠ fk
  core : (s.group (fkBk fk) (fkG k)).core = (s.group (fkBk fk) (fkG fk)).core

/-- An `fsort`. -/
def IsSort (i : Instr) : Prop := ∃ g d a n, i = .fsort g d a n

/-- The fibre stands at no collective but `fsort`. -/
def SortOnly (x : Fibre) : Prop := ∀ i held, x.stat = .coll i held → IsSort i

/-- A group's collective, and a block's, is no `fsort`. -/
theorem settleGroup_sort {s : State} {bk g : Nat} (h : ∀ i pc holds, s.collective (s.groupFibs bk g) = some (i, pc, holds) → IsSort i) :
    s.settleGroup bk g = s := by
  cases hc : s.collective (s.groupFibs bk g) with
  | none => simp only [State.settleGroup, hc]
  | some c =>
    obtain ⟨i, pc, holds⟩ := c
    obtain ⟨g, d, a, n, rfl⟩ := h i pc holds hc
    simp only [State.settleGroup, hc]

theorem settleBlock_sort {s : State} {bk : Nat} (h : ∀ i pc holds, s.collective (s.blockFibs bk) = some (i, pc, holds) → IsSort i) :
    s.settleBlock bk = s := by
  cases hc : s.collective (s.blockFibs bk) with
  | none => simp only [State.settleBlock, hc]
  | some c =>
    obtain ⟨i, pc, holds⟩ := c
    obtain ⟨g, d, a, n, rfl⟩ := h i pc holds hc
    simp only [State.settleBlock, hc]

section
variable {s : State} {fk m : Nat} {x : Fibre} (h : FirstArrived s fk x)
include h

/-- A complete collective is that of the fibre that has arrived. -/
theorem collective_first {fs : List Nat} (hfs : fs ⊆ s.blockFibs (fkBk fk)) {i : Instr} {pc : Nat} {holds : List Nat}
    (hc : s.collective fs = some (i, pc, holds)) : fk ∈ fs ∧ ∃ held, x.stat = .coll i held := by
  have hne : fs ≠ [] := fun e => by rw [e] at hc; cases hc
  obtain ⟨k, hk⟩ := List.exists_mem_of_ne_nil _ hne
  obtain ⟨y, hy, -, hcoll⟩ := collective_some hc k hk
  have hfk : k = fk := by
    by_contra hne
    rw [h.others k y hy (blockFibs_bk (hfs hk)) hne] at hcoll
    simp at hcoll
  subst hfk
  rw [Option.some.inj (hy.symm.trans h.self)] at hcoll
  exact ⟨hk, hcoll.elim (fun e => ⟨_, e⟩) fun e => ⟨_, e⟩⟩

theorem settleGroup_first (hs : SortOnly x) (g : Nat) : s.settleGroup (fkBk fk) g = s := settleGroup_sort fun _ _ _ hc => by
  obtain ⟨-, held, hst⟩ := collective_first h (fun _ => List.mem_of_mem_filter) hc
  exact hs _ held hst

theorem settleBlock_first (hs : SortOnly x) : s.settleBlock (fkBk fk) = s := settleBlock_sort fun _ _ _ hc => by
  obtain ⟨-, held, hst⟩ := collective_first h (List.Subset.refl _) hc
  exact hs _ held hst

theorem settleBar_first {key : Nat} (hm : Mate s fk m)
    (hset : keyOfStat (s.group (fkBk fk) (fkG fk)).core (fkG fk) x.pc x.stat = some key → m ∈ s.genFibs (fkBk fk) key) :
    s.settleBar (fkBk fk) key = s := by
  by_cases hkey : keyOfStat (s.group (fkBk fk) (fkG fk)).core (fkG fk) x.pc x.stat = some key
  · refine settleBar_missing (hset hkey) ?_
    rintro ⟨y, hy, hk⟩
    rw [h.others m y hy hm.block hm.ne] at hk
    cases hk
  · refine settleBar_unreached fun k y hy hk => ?_
    by_cases hfk : k = fk
    · subst hfk
      rw [Option.some.inj (hy.symm.trans h.self)]
      exact hkey
    · rw [h.others k y hy hk hfk]
      nofun

theorem settleSort_first (hm : Mate s fk m) (c : Nat) : s.settleSort (fkBk fk) c = s := by
  have hnone : s.collective (s.coreFibs (fkBk fk) c) = none := by
    cases hc : s.collective (s.coreFibs (fkBk fk) c) with
    | none => rfl
    | some r =>
      obtain ⟨hfk, -⟩ := collective_first h (fun _ => List.mem_of_mem_filter) hc
      have hmem : m ∈ s.coreFibs (fkBk fk) c := (mem_coreFibs h.store).2 ⟨⟨hm.block, hm.live⟩, hm.core.trans ((mem_coreFibs h.store).1 hfk).2⟩
      rw [collective_missing hmem fun y hy i held e => by rw [h.others m y hy hm.block hm.ne] at e; cases e] at hc
      cases hc
  simp only [State.settleSort, hnone]

/-- Nothing happens while a fibre of the core has not arrived. -/
theorem settle_first {b : Block} (hb : s.block? (fkBk fk) = some b) (hr : b.running = true) (hcores : ∀ c ∈ b.cores, c < Config.cores) (hm : Mate s fk m)
    (hs : SortOnly x) (hset : ∀ key < 2048, keyOfStat (s.group (fkBk fk) (fkG fk)).core (fkG fk) x.pc x.stat = some key → m ∈ s.genFibs (fkBk fk) key) :
    s.settle (fkBk fk) = s :=
  settle_stays hb hr hcores (fun key hk => settleBar_first h hm (hset key hk)) (settleGroup_first h hs) (settleSort_first h hm) (settleBlock_first h hs)

end

/-! ### The sets of the barriers -/

theorem genFibs_bar (s : State) (bk : Nat) : s.genFibs bk keyBar = s.blockFibs bk := rfl

theorem genFibs_barCl (s : State) (bk : Nat) {c : Nat} (hc : c < Config.cores) : s.genFibs bk (keyBarCl c) = s.coreFibs bk c :=
  if_pos (lt_of_lt_of_le hc (by decide))

section
variable {s : State} {fk : Nat} {x : Fibre} {b : Block} (hfib : s.fib fk = some x) (hc : Calm s fk b) (hwf : swf none s.rs.fibres = true)
  (hcore : (s.group (fkBk fk) (fkG fk)).core < Config.cores) (hcores : ∀ c ∈ b.cores, c < Config.cores)

section
include hfib

theorem arrive_self (key : Nat) (st : FStat) : (s.arrive fk key st).fib fk = some { x with stat := st } := by
  rw [fib_arrive, if_pos rfl, hfib]
  rfl

/-- A fibre after the arrival goes on as it would have before. -/
theorem arrive_adv (key : Nat) (st : FStat) (k : Nat) : ((s.arrive fk key st).fib k).map Fibre.adv = (s.fib k).map Fibre.adv := by
  rw [fib_arrive]
  by_cases hk : k = fk
  · rw [if_pos hk, hk, hfib]
    rfl
  · rw [if_neg hk]

include hwf in
theorem firstArrived (key : Nat) (st : FStat) (hready : ∀ k y, s.fib k = some y → fkBk k = fkBk fk → k ≠ fk → y.stat = .ready) :
    FirstArrived (s.arrive fk key st) fk { x with stat := st } :=
  ⟨arrive_wf hwf fk key st, arrive_self hfib key st, fun k y hy hk hne => hready k y (by rwa [fib_arrive, if_neg hne] at hy) hk hne⟩

end

theorem mate_arrive {m : Nat} (hm : Mate s fk m) (key : Nat) (st : FStat) : Mate (s.arrive fk key st) fk m := by
  have hgroup := (SameWork.arrive s fk key st).group (fkBk fk)
  obtain ⟨y, hy⟩ := hm.live
  exact ⟨⟨y, by rw [fib_arrive, if_neg hm.ne, hy]⟩, hm.block, hm.ne, by rw [hgroup, hgroup, hm.core]⟩

include hfib hc hwf hcores in
/-- A fibre that arrives where a fibre of its core has not waits there. -/
theorem settle_waits {m : Nat} (hm : Mate s fk m) (hready : ∀ k y, s.fib k = some y → fkBk k = fkBk fk → k ≠ fk → y.stat = .ready) (key : Nat)
    {st : FStat} (hs : SortOnly { x with stat := st })
    (hset : ∀ n < 2048, keyOfStat (s.group (fkBk fk) (fkG fk)).core (fkG fk) x.pc st = some n → m ∈ (s.arrive fk key st).genFibs (fkBk fk) n) :
    (s.arrive fk key st).settle (fkBk fk) = s.arrive fk key st := by
  obtain ⟨cf, hb⟩ := (SameWork.arrive s fk key st).block _ b hc.block
  refine settle_first (firstArrived hfib hwf key st hready) hb hc.runs hcores (mate_arrive hm key st) hs fun n hn => ?_
  rw [(SameWork.arrive s fk key st).group]
  exact hset n hn

/-! ### A barrier that is complete -/

include hfib hwf in
/-- The fibres after a complete barrier: those of its set have gone on. -/
theorem settleBar_sends {key n : Nat} {st : FStat} (hself : fk ∈ (s.arrive fk key st).genFibs (fkBk fk) n)
    (hat : ∀ k ∈ (s.arrive fk key st).genFibs (fkBk fk) n, AtKey (s.arrive fk key st) (fkBk fk) n k)
    (hw : ∀ k ∈ (s.arrive fk key st).genFibs (fkBk fk) n, s.winDone k = true) :
    let t := (s.arrive fk key st).settleBar (fkBk fk) n
    t.rs.vregs = s.rs.vregs ∧ t.mem = s.mem ∧
      ∀ k, t.fib k = if k ∈ (s.arrive fk key st).genFibs (fkBk fk) n then (s.fib k).map Fibre.adv else s.fib k := by
  intro t
  have hwork := SameWork.arrive s fk key st
  obtain ⟨hdone, hsent⟩ := settleBar_complete (arrive_wf hwf fk key st) (List.ne_nil_of_mem hself) hat fun k hk => (hwork.winDone k).trans (hw k hk)
  refine ⟨(hwork.trans hdone).vregs, (hwork.trans hdone).mem, fun k => (hsent k).trans ?_⟩
  split
  · exact arrive_adv hfib key st k
  · next hk => rw [fib_arrive, if_neg fun e : k = fk => hk (e ▸ hself)]

include hfib in
/-- A live fibre of the block, after the arrival and before. -/
theorem live_arrive {key : Nat} {st : FStat} {k : Nat} : (∃ y, (s.arrive fk key st).fib k = some y) ↔ ∃ y, s.fib k = some y := by
  rw [fib_arrive]
  by_cases hk : k = fk
  · subst hk
    simp [hfib]
  · rw [if_neg hk]

include hfib hwf in
theorem mem_blockFibs_arrive {key : Nat} {st : FStat} {k : Nat} :
    k ∈ (s.arrive fk key st).blockFibs (fkBk fk) ↔ fkBk k = fkBk fk ∧ ∃ y, s.fib k = some y := by
  rw [mem_blockFibs_iff (arrive_wf hwf fk key st), live_arrive hfib]

include hfib hwf in
theorem mem_coreFibs_arrive {key : Nat} {st : FStat} {k c : Nat} : k ∈ (s.arrive fk key st).coreFibs (fkBk fk) c ↔
    (fkBk k = fkBk fk ∧ ∃ y, s.fib k = some y) ∧ (s.group (fkBk fk) (fkG k)).core = c := by
  rw [mem_coreFibs (arrive_wf hwf fk key st), live_arrive hfib, (SameWork.arrive s fk key st).group]

include hfib in
/-- How a fibre stands after the arrival. -/
theorem stat_arrive {key : Nat} {st : FStat} {k : Nat} {y : Fibre} (hy : (s.arrive fk key st).fib k = some y) :
    (k = fk ∧ y.stat = st) ∨ (k ≠ fk ∧ s.fib k = some y) := by
  rw [fib_arrive] at hy
  by_cases hk : k = fk
  · rw [if_pos hk, hfib] at hy
    exact .inl ⟨hk, by rw [← Option.some.inj hy]⟩
  · rw [if_neg hk] at hy
    exact .inr ⟨hk, hy⟩

include hfib hc hwf in
/-- The last of its block at `bar` sends every fibre on. -/
theorem bar_completes (hat : ∀ k y, s.fib k = some y → fkBk k = fkBk fk → k ≠ fk → y.stat = .bar ∧ s.winDone k = true) (hw : s.winDone fk = true) :
    let t := (s.arrive fk keyBar .bar).settle (fkBk fk)
    t.rs.vregs = s.rs.vregs ∧ t.mem = s.mem ∧ ∀ k y, s.fib k = some y → t.fib k = some (if fkBk k = fkBk fk then y.adv else y) := by
  obtain ⟨cf, hb⟩ := (SameWork.arrive s fk keyBar .bar).block _ b hc.block
  have hmem := fun k => mem_blockFibs_arrive (key := keyBar) (st := .bar) (k := k) hfib hwf
  have hset := genFibs_bar (s.arrive fk keyBar .bar) (fkBk fk)
  have harrived : ∀ k ∈ (s.arrive fk keyBar .bar).genFibs (fkBk fk) keyBar, AtKey (s.arrive fk keyBar .bar) (fkBk fk) keyBar k := fun k hk => by
    obtain ⟨hbk, hlive⟩ := (hmem k).1 (hset ▸ hk)
    obtain ⟨y, hy⟩ := (live_arrive hfib).2 hlive
    have hst : y.stat = .bar := (stat_arrive hfib hy).elim And.right fun ⟨hne, hy⟩ => (hat k y hy hbk hne).1
    exact ⟨y, hy, by rw [hst]; rfl⟩
  have hwritten : ∀ k ∈ (s.arrive fk keyBar .bar).genFibs (fkBk fk) keyBar, s.winDone k = true := fun k hk => by
    obtain ⟨hbk, y, hy⟩ := (hmem k).1 (hset ▸ hk)
    by_cases hfk : k = fk
    · exact hfk ▸ hw
    · exact (hat k y hy hbk hfk).2
  obtain ⟨hvregs, hm, hsent⟩ := settleBar_sends hfib hwf (hset ▸ (hmem fk).2 ⟨rfl, x, hfib⟩) harrived hwritten
  rw [hset] at hsent
  rw [settle_bar (v := (s.arrive fk keyBar .bar).settleBar (fkBk fk) keyBar) (idle_of_allReady fun k y hy hk => ?_) hb hc.runs rfl]
  · refine ⟨hvregs, hm, fun k y hy => (hsent k).trans ?_⟩
    by_cases hk : fkBk k = fkBk fk
    · rw [if_pos ((hmem k).2 ⟨hk, y, hy⟩), if_pos hk, hy]
      rfl
    · rw [if_neg fun hin => hk ((hmem k).1 hin).1, if_neg hk, hy]
  · rw [hsent] at hy
    split at hy
    · obtain ⟨z, -, rfl⟩ := Option.map_eq_some_iff.1 hy
      rfl
    · next hin => exact absurd ((hmem k).2 ⟨hk, y, hy⟩) hin

/-- Every other fibre of the block has arrived at `bar.cl` if it is on the core, and else can issue. -/
def AtCl (s : State) (fk : Nat) : Prop := ∀ k y, s.fib k = some y → fkBk k = fkBk fk → k ≠ fk →
  y.stat = if (s.group (fkBk fk) (fkG k)).core = (s.group (fkBk fk) (fkG fk)).core then .barCl else .ready

section
variable (hcl : AtCl s fk)
include hfib hcl

/-- The generations of the fibres once the last of its core has arrived at `bar.cl`. -/
theorem barCl_key {key k : Nat} {y : Fibre} (hy : (s.arrive fk key .barCl).fib k = some y) (hk : fkBk k = fkBk fk) :
    keyOfStat ((s.arrive fk key .barCl).group (fkBk fk) (fkG k)).core (fkG k) y.pc y.stat =
      if (s.group (fkBk fk) (fkG k)).core = (s.group (fkBk fk) (fkG fk)).core then some (s.group (fkBk fk) (fkG fk)).core else none := by
  have hstat : y.stat = if (s.group (fkBk fk) (fkG k)).core = (s.group (fkBk fk) (fkG fk)).core then .barCl else .ready := by
    rcases stat_arrive hfib hy with ⟨rfl, hst⟩ | ⟨hne, hy⟩
    · exact hst.trans (if_pos rfl).symm
    · exact hcl k y hy hk hne
  rw [hstat, (SameWork.arrive s fk key .barCl).group]
  split
  · next h => rw [h]; rfl
  · rfl

/-- No barrier but the core's is complete. -/
theorem settleBar_otherCl {key n : Nat} (hn : n ≠ (s.group (fkBk fk) (fkG fk)).core) :
    (s.arrive fk key .barCl).settleBar (fkBk fk) n = s.arrive fk key .barCl :=
  settleBar_unreached fun k y hy hk e => by
    rw [barCl_key hfib hcl hy hk] at e
    split at e
    · exact hn (Option.some.inj e).symm
    · cases e

include hc hwf hcore in
/-- The last of its block's fibres on its core at `bar.cl` sends those on. -/
theorem barCl_completes (hin : (s.group (fkBk fk) (fkG fk)).core ∈ b.cores)
    (hw : ∀ k y, s.fib k = some y → fkBk k = fkBk fk → (s.group (fkBk fk) (fkG k)).core = (s.group (fkBk fk) (fkG fk)).core → s.winDone k = true) :
    let c := (s.group (fkBk fk) (fkG fk)).core
    let t := (s.arrive fk (keyBarCl c) .barCl).settle (fkBk fk)
    t.rs.vregs = s.rs.vregs ∧ t.mem = s.mem ∧ ∀ k y, s.fib k = some y →
      t.fib k = some (if fkBk k = fkBk fk ∧ (s.group (fkBk fk) (fkG k)).core = c then y.adv else y) := by
  intro c
  obtain ⟨cf, hb⟩ := (SameWork.arrive s fk (keyBarCl c) .barCl).block _ b hc.block
  have hmem := fun k => mem_coreFibs_arrive (key := keyBarCl c) (st := .barCl) (k := k) (c := c) hfib hwf
  have hset := genFibs_barCl (s.arrive fk (keyBarCl c) .barCl) (fkBk fk) hcore
  have harrived : ∀ k ∈ (s.arrive fk (keyBarCl c) .barCl).genFibs (fkBk fk) (keyBarCl c),
      AtKey (s.arrive fk (keyBarCl c) .barCl) (fkBk fk) (keyBarCl c) k := fun k hk => by
    obtain ⟨⟨hbk, hlive⟩, hkc⟩ := (hmem k).1 (hset ▸ hk)
    obtain ⟨y, hy⟩ := (live_arrive hfib).2 hlive
    exact ⟨y, hy, (barCl_key hfib hcl hy hbk).trans (if_pos hkc)⟩
  have hwritten : ∀ k ∈ (s.arrive fk (keyBarCl c) .barCl).genFibs (fkBk fk) (keyBarCl c), s.winDone k = true := fun k hk => by
    obtain ⟨⟨hbk, y, hy⟩, hkc⟩ := (hmem k).1 (hset ▸ hk)
    exact hw k y hy hbk hkc
  obtain ⟨hvregs, hm, hsent⟩ := settleBar_sends hfib hwf (hset ▸ (hmem fk).2 ⟨⟨rfl, x, hfib⟩, rfl⟩) harrived hwritten
  rw [hset] at hsent
  have hbar : keyBar ≠ c := ne_of_gt (lt_trans hcore (by decide))
  rw [settle_barCl (v := (s.arrive fk (keyBarCl c) .barCl).settleBar (fkBk fk) (keyBarCl c)) (idle_of_allReady fun k y hy hk => ?_) hb hc.runs
    (settleBar_otherCl hfib hcl hbar) hin rfl fun n _ hn => settleBar_otherCl hfib hcl hn]
  · refine ⟨hvregs, hm, fun k y hy => (hsent k).trans ?_⟩
    by_cases hk : fkBk k = fkBk fk ∧ (s.group (fkBk fk) (fkG k)).core = c
    · rw [if_pos ((hmem k).2 ⟨⟨hk.1, y, hy⟩, hk.2⟩), if_pos hk, hy]
      rfl
    · rw [if_neg fun hin => hk ⟨((hmem k).1 hin).1.1, ((hmem k).1 hin).2⟩, if_neg hk, hy]
  · rw [hsent] at hy
    split at hy
    · obtain ⟨z, -, rfl⟩ := Option.map_eq_some_iff.1 hy
      rfl
    · next hout =>
      have hkc : (s.group (fkBk fk) (fkG k)).core ≠ c := fun e => hout ((hmem k).2 ⟨⟨hk, y, hy⟩, e⟩)
      exact (hcl k y hy hk fun e => hkc (by rw [e])).trans (if_neg hkc)

end

end

/-- What waits for a fibre of its core that can issue: `bar`, `bar.cl` and `fsort`. -/
theorem first_waits {s : State} {g : Guard} {fk : Nat} {x : Fibre} {b : Block} (h : Issues s g fk x) (hc : Calm s fk b) (hwf : swf none s.rs.fibres = true)
    (hcore : (s.group (fkBk fk) (fkG fk)).core < Config.cores) (hcores : ∀ c ∈ b.cores, c < Config.cores)
    (hready : ∀ k y, s.fib k = some y → fkBk k = fkBk fk → k ≠ fk → y.stat = .ready) {m : Nat} (hm : Mate s fk m) :
    let c := (s.group (fkBk fk) (fkG fk)).core
    exec (.bar g) s = .next (s.arrive fk keyBar .bar) ∧ exec (.barCl g) s = .next (s.arrive fk (keyBarCl c) .barCl) ∧
      ∀ d a n, free s fk (.v d) false false = true → readable s fk (.v a) false false = true →
        exec (.fsort g d a n) s = .next (s.arrive fk (keySort c s.ipc) (.coll (.fsort g d a n) true)) := by
  intro c
  refine ⟨?_, ?_, fun d a n hd ha => ?_⟩
  · rw [exec_bar h, settle_waits h.fib hc hwf hcores hm hready keyBar (fun _ _ e => by cases e) fun n _ hn => ?_]
    obtain rfl : keyBar = n := Option.some.inj hn
    rw [genFibs_bar]
    exact (mem_blockFibs_arrive h.fib hwf).2 ⟨hm.block, hm.live⟩
  · rw [exec_barCl h, settle_waits h.fib hc hwf hcores hm hready (keyBarCl c) (fun _ _ e => by cases e) fun n _ hn => ?_]
    obtain rfl : keyBarCl c = n := Option.some.inj hn
    rw [genFibs_barCl _ _ hcore]
    exact (mem_coreFibs_arrive h.fib hwf).2 ⟨⟨hm.block, hm.live⟩, hm.core⟩
  · rw [exec_fsort h.cur h.fib hd ha, arrivedAt, h.guard, settle_waits h.fib hc hwf hcores hm hready (keySort c s.ipc) (fun i _ e => ?_) fun n hlt hn => ?_]
    · exact ⟨g, d, a, n, (FStat.coll.inj e).1.symm⟩
    · exact absurd (keyOfStat_coll hn) (by omega)

end Sys2Proof.Proofs
end

section
/-!
PROOFS. The order of `fsort` and what moves with the fibres (R272): a fibre's place is the number of fibres with a smaller key, and the lanes of a
register go from the old places to the new.
-/
namespace Sys2Proof.Proofs
open Sys2Proof Sys2Proof.Machine Sys2Proof.Laws

/-! ### Sorting -/

theorem insertFront_eq {α : Type} (key : α → Nat) (x : α) (l : List α) :
    sortBy.insertFront key x l = l.orderedInsert (fun a b => key a ≤ key b) x := by
  induction l with
  | nil => rfl
  | cons y l ih =>
    rw [sortBy.insertFront, List.orderedInsert_cons, ih]

theorem sortBy_eq {α : Type} (key : α → Nat) (l : List α) : sortBy key l = l.insertionSort fun a b => key a ≤ key b := by
  induction l with
  | nil => rfl
  | cons x l ih =>
    rw [List.insertionSort_cons, ← ih, ← insertFront_eq, sortBy]
    cases sortBy key l with
    | nil => rfl
    | cons y ys => by_cases hle : key x ≤ key y <;> simp [sortBy.insertFront, hle]

theorem sortBy_perm {α : Type} (key : α → Nat) (l : List α) : (sortBy key l).Perm l := sortBy_eq key l ▸ List.perm_insertionSort _ l

/-- Where no two keys are the same the order is strict. -/
theorem sortBy_pairwise {key : Nat → Nat} {l : List Nat} (hn : l.Nodup) (hkey : ∀ j ∈ l, ∀ k ∈ l, key j = key k → j = k) :
    (sortBy key l).Pairwise fun j k => key j < key k := by
  have htotal : Std.Total fun j k : Nat => key j ≤ key k := ⟨fun j k => Nat.le_total _ _⟩
  have htrans : IsTrans Nat fun j k => key j ≤ key k := ⟨fun _ _ _ => Nat.le_trans⟩
  have hle : (sortBy key l).Pairwise fun j k => key j ≤ key k := sortBy_eq key l ▸ List.pairwise_insertionSort _ l
  have hperm := sortBy_perm key l
  have hne : (sortBy key l).Pairwise fun j k => j ≠ k := hperm.nodup_iff.2 hn
  exact (hle.and hne).imp_of_mem fun {j k} hj hk ⟨hle, hne⟩ => lt_of_le_of_ne hle fun e => hne (hkey j (hperm.mem_iff.1 hj) k (hperm.mem_iff.1 hk) e)

/-- How many fibres of a list have a smaller key. -/
def rankIn (key : Nat → Nat) (l : List Nat) (k : Nat) : Nat := (l.filter fun j => decide (key j < key k)).length

theorem rankIn_perm {key : Nat → Nat} {l l' : List Nat} (h : l.Perm l') (k : Nat) : rankIn key l k = rankIn key l' k := (h.filter _).length_eq

theorem rankIn_getElem {key : Nat → Nat} {l : List Nat} (h : l.Pairwise fun j k => key j < key k) {i : Nat} (hi : i < l.length) :
    rankIn key l l[i] = i := by
  induction l generalizing i with
  | nil => cases hi
  | cons x l ih =>
    obtain ⟨hx, hl⟩ := List.pairwise_cons.1 h
    unfold rankIn at ih ⊢
    cases i with
    | zero =>
      have hnone : l.filter (fun j => decide (key j < key x)) = [] := List.filter_eq_nil_iff.2 fun j hj => by
        have := hx j hj
        simp
        omega
      simp [hnone]
    | succ i =>
      have hi : i < l.length := Nat.lt_of_succ_lt_succ hi
      have hlt : key x < key l[i] := hx _ (List.getElem_mem hi)
      simp [hlt, ih hl hi]

/-- Each fibre of the order with what depends on its place. -/
theorem mapIdx_rank {β : Type} {key : Nat → Nat} {l : List Nat} (h : l.Pairwise fun j k => key j < key k) (f : Nat → β) :
    l.mapIdx (fun i k => (k, f i)) = l.map fun k => (k, f (rankIn key l k)) := by
  refine List.ext_getElem (by simp) fun i h1 h2 => ?_
  simp only [List.getElem_mapIdx, List.getElem_map]
  rw [rankIn_getElem h]

theorem rankIn_lt {key : Nat → Nat} {l : List Nat} {k : Nat} (hk : k ∈ l) : rankIn key l k < l.length :=
  List.length_filter_lt_length_iff_exists.2 ⟨k, hk, by simp⟩

theorem rankIn_inj {key : Nat → Nat} {l : List Nat} (h : l.Pairwise fun j k => key j < key k) {j k : Nat} (hj : j ∈ l) (hk : k ∈ l)
    (he : rankIn key l j = rankIn key l k) : j = k := by
  obtain ⟨i, hi, rfl⟩ := List.getElem_of_mem hj
  obtain ⟨n, hn, rfl⟩ := List.getElem_of_mem hk
  rw [rankIn_getElem h, rankIn_getElem h] at he
  simp only [he]

/-! ### Lanes -/

/-- The word of a register at a fibre's place. -/
def laneAt (bk : Nat) (rs : RegSt) (r k : Nat) : Nat := (sget 0 (sget [] rs.vregs (rkOf bk (fkG k) r)) (fkL k)).toNat

/-- A write of a register at a fibre's place. -/
def putAt (bk r k v : Nat) (p : Bool) (rs : RegSt) : RegSt := (rs.putLane (rkOf bk (fkG k) r) (fkL k) v).putPoison (rkOf bk (fkG k) r) (fkL k) p

theorem laneAt_congr {bk : Nat} {rs rs' : RegSt} (h : rs.vregs = rs'.vregs) (r k : Nat) : laneAt bk rs r k = laneAt bk rs' r k := by
  rw [laneAt, h, laneAt]

theorem fkG_lt (k : Nat) : fkG k < 128 := Nat.mod_lt _ (by decide)

theorem place_inj {bk r r' k k' : Nat} (hr : r < 1536) (hr' : r' < 1536) (hk : fkBk k = bk) (hk' : fkBk k' = bk) :
    (rkOf bk (fkG k') r' = rkOf bk (fkG k) r ∧ fkL k' = fkL k) ↔ k' = k ∧ r' = r := by
  rw [rkOf_inj (fkG_lt k') (fkG_lt k) hr' hr]
  constructor
  · rintro ⟨⟨-, hg, hrr⟩, hl⟩
    exact ⟨by rw [← fkOf_fk k', ← fkOf_fk k, hk, hk', hg, hl], hrr⟩
  · rintro ⟨rfl, rfl⟩
    exact ⟨⟨rfl, rfl, rfl⟩, rfl⟩

section
variable {bk r : Nat} (hr : r < 1536)
include hr

theorem laneAt_putLane {k k' r' : Nat} (hr' : r' < 1536) (hk : fkBk k = bk) (hk' : fkBk k' = bk) (v : Nat) (rs : RegSt) :
    laneAt bk (rs.putLane (rkOf bk (fkG k) r) (fkL k) v) r' k' = if k' = k ∧ r' = r then v % 2 ^ 32 else laneAt bk rs r' k' := by
  rw [← if_congr (place_inj hr hr' hk hk') rfl rfl]
  simp only [laneAt, RegSt.putLane, sget_sset]
  by_cases hrk : rkOf bk (fkG k') r' = rkOf bk (fkG k) r <;> by_cases hl : fkL k' = fkL k <;> simp [hrk, hl]

theorem laneAt_putAt {k k' r' : Nat} (hr' : r' < 1536) (hk : fkBk k = bk) (hk' : fkBk k' = bk) (v : Nat) (p : Bool) (rs : RegSt) :
    laneAt bk (putAt bk r k v p rs) r' k' = if k' = k ∧ r' = r then v % 2 ^ 32 else laneAt bk rs r' k' :=
  (laneAt_congr (RegSt.putPoison_vregs _ _ _ _) _ _).trans (laneAt_putLane hr hr' hk hk' v rs)

/-- Writes of one register leave the other registers and the other places. -/
theorem laneAt_puts_other {l : List (Nat × Nat × Bool)} (hl : ∀ x ∈ l, fkBk x.1 = bk) {k r' : Nat} (hr' : r' < 1536) (hk : fkBk k = bk)
    (hne : r' ≠ r ∨ k ∉ l.map Prod.fst) (rs : RegSt) :
    laneAt bk (l.foldl (fun rs x => putAt bk r x.1 x.2.1 x.2.2 rs) rs) r' k = laneAt bk rs r' k := by
  induction l generalizing rs with
  | nil => rfl
  | cons x l ih =>
    rw [List.map_cons, List.mem_cons, not_or] at hne
    rw [List.foldl_cons, ih (fun y hy => hl y (List.mem_cons_of_mem _ hy)) (hne.imp_right And.right),
      laneAt_putAt hr hr' (hl x List.mem_cons_self) hk, if_neg]
    rintro ⟨hx, hrr⟩
    exact hne.elim (fun h => h hrr) fun h => h.1 hx

/-- Each place of distinct ones holds its word. -/
theorem laneAt_puts_same {l : List (Nat × Nat × Bool)} (hl : ∀ x ∈ l, fkBk x.1 = bk) (hn : (l.map Prod.fst).Nodup) {x : Nat × Nat × Bool}
    (hx : x ∈ l) (rs : RegSt) : laneAt bk (l.foldl (fun rs x => putAt bk r x.1 x.2.1 x.2.2 rs) rs) r x.1 = x.2.1 % 2 ^ 32 := by
  induction l generalizing rs with
  | nil => cases hx
  | cons y l ih =>
    obtain ⟨hy, hn⟩ := List.nodup_cons.1 hn
    have hl' : ∀ x ∈ l, fkBk x.1 = bk := fun z hz => hl z (List.mem_cons_of_mem _ hz)
    rw [List.foldl_cons]
    rcases List.mem_cons.1 hx with rfl | hx
    · rw [laneAt_puts_other hr hl' hr (hl x List.mem_cons_self) (.inr hy), laneAt_putAt hr hr (hl x List.mem_cons_self) (hl x List.mem_cons_self),
        if_pos ⟨rfl, rfl⟩]
    · exact ih hl' hn hx _

end

/-! ### Moves -/

/-- The moves of some fibres, each to its own place of the block. -/
def movesOf (l : List Nat) (dest : Nat → Nat) : List (Nat × Nat) := l.map fun k => (k, dest k)

structure Moves (bk : Nat) (l : List Nat) (dest : Nat → Nat) : Prop where
  nodup : l.Nodup
  inj : ∀ j ∈ l, ∀ k ∈ l, dest j = dest k → j = k
  old : ∀ k ∈ l, fkBk k = bk
  new : ∀ k ∈ l, fkBk (dest k) = bk

/-- The writes of a register that moves. -/
theorem moveLanes_eq (bk r : Nat) (l : List Nat) (dest : Nat → Nat) (rs : RegSt) : ∃ ws : List (Nat × Nat × Bool), moveLanes bk r (movesOf l dest) rs =
    ws.foldl (fun rs x => putAt bk r x.1 x.2.1 x.2.2 rs) rs ∧ ws.map Prod.fst = l.map dest ∧
    ∀ k ∈ l, ∃ x ∈ ws, x.1 = dest k ∧ x.2.1 = laneAt bk rs r k := by
  refine ⟨_, rfl, by simp [movesOf], fun k hk => ⟨_, List.mem_map_of_mem (List.mem_map_of_mem hk), rfl, rfl⟩⟩

theorem moveLanes_fibres (bk r : Nat) (l : List Nat) (dest : Nat → Nat) (rs : RegSt) : (moveLanes bk r (movesOf l dest) rs).fibres = rs.fibres := by
  refine List.foldlRecOn _ _ (motive := fun t : RegSt => t.fibres = rs.fibres) rfl fun t ht x _ => ht

section
variable {bk : Nat} {l : List Nat} {dest : Nat → Nat} (h : Moves bk l dest)
include h

theorem Moves.dests_nodup : (l.map dest).Nodup := h.nodup.map_on h.inj

variable {r : Nat} (hr : r < 1536)
include hr

theorem laneAt_moveLanes_other {k r' : Nat} (hr' : r' < 1536) (hk : fkBk k = bk) (hne : r' ≠ r) (rs : RegSt) :
    laneAt bk (moveLanes bk r (movesOf l dest) rs) r' k = laneAt bk rs r' k := by
  obtain ⟨ws, hws, hplaces, -⟩ := moveLanes_eq bk r l dest rs
  rw [hws]
  refine laneAt_puts_other hr (fun x hx => ?_) hr' hk (.inl hne) rs
  obtain ⟨j, hj, he⟩ := List.mem_map.1 (hplaces ▸ List.mem_map_of_mem hx)
  exact he ▸ h.new j hj

theorem laneAt_moveLanes {k : Nat} (hk : k ∈ l) (rs : RegSt) : laneAt bk (moveLanes bk r (movesOf l dest) rs) r (dest k) = laneAt bk rs r k := by
  obtain ⟨ws, hws, hplaces, hword⟩ := moveLanes_eq bk r l dest rs
  obtain ⟨x, hx, hplace, hval⟩ := hword k hk
  have hnew : ∀ x ∈ ws, fkBk x.1 = bk := fun x hx => by
    obtain ⟨j, hj, he⟩ := List.mem_map.1 (hplaces ▸ List.mem_map_of_mem hx)
    exact he ▸ h.new j hj
  rw [hws, ← hplace, laneAt_puts_same hr hnew (hplaces ▸ h.dests_nodup) hx, hval]
  exact Nat.mod_eq_of_lt (BitVec.isLt _)

end

/-- The moves of several registers. -/
theorem moveRegs {bk : Nat} {l : List Nat} {dest : Nat → Nat} (h : Moves bk l dest) {regs : List Nat} (hn : regs.Nodup) (hregs : ∀ r ∈ regs, r < 1536)
    (rs : RegSt) : let t := regs.foldl (fun rs r => moveLanes bk r (movesOf l dest) rs) rs
    t.fibres = rs.fibres ∧ (∀ r < 1536, r ∉ regs → ∀ k, fkBk k = bk → laneAt bk t r k = laneAt bk rs r k) ∧
      ∀ r ∈ regs, ∀ k ∈ l, laneAt bk t r (dest k) = laneAt bk rs r k := by
  induction regs generalizing rs with
  | nil => exact ⟨rfl, fun _ _ _ _ _ => rfl, nofun⟩
  | cons r regs ih =>
    obtain ⟨hr, hn⟩ := List.nodup_cons.1 hn
    have hlt := hregs r List.mem_cons_self
    obtain ⟨hfib, hother, hmoved⟩ := ih hn (fun q hq => hregs q (List.mem_cons_of_mem _ hq)) (moveLanes bk r (movesOf l dest) rs)
    refine ⟨hfib.trans (moveLanes_fibres bk r l dest rs), fun q hq hout k hk => ?_, fun q hq k hk => ?_⟩
    · obtain ⟨hne, hout⟩ := not_or.1 (mt List.mem_cons.2 hout)
      exact (hother q hq hout k hk).trans (laneAt_moveLanes_other h hlt hq hk hne rs)
    · rcases List.mem_cons.1 hq with rfl | hq
      · exact (hother q hlt hr _ (h.new k hk)).trans (laneAt_moveLanes h hlt hk rs)
      · have hne : q ≠ r := fun e => hr (e ▸ hq)
        exact (hmoved q hq k hk).trans (laneAt_moveLanes_other h hlt (hregs q (List.mem_cons_of_mem _ hq)) (h.old k hk) hne rs)

end Sys2Proof.Proofs
end

section
/-!
PROOFS. The obligation on `bar`, `bar.cl` and `fsort` (R126, R272, R273): what a completed sort leaves, and the arrivals that complete.
-/
namespace Sys2Proof.Proofs
open Sys2Proof Sys2Proof.Machine Sys2Proof.Laws

/-! ### Lane words that are not preserved (R32) -/

/-- Scrambling a register at some places leaves the other registers, and all fibres and blocks. -/
theorem scramble_places {bk r : Nat} (hr : r < 1536) {ks : List Nat} (hks : ∀ k ∈ ks, fkBk k = bk) (s : State) :
    let t := s.scramble (ks.map fun k => (rkOf bk (fkG k) r, fkL k))
    t.rs.fibres = s.rs.fibres ∧ t.blocks = s.blocks ∧ ∀ q < 1536, q ≠ r → ∀ k, fkBk k = bk → laneAt bk t.rs q k = laneAt bk s.rs q k := by
  induction ks generalizing s with
  | nil => exact ⟨rfl, rfl, fun _ _ _ _ _ => rfl⟩
  | cons j ks ih =>
    obtain ⟨hfib, hblocks, hlane⟩ := ih (fun k hk => hks k (List.mem_cons_of_mem _ hk))
      { s with rs := s.rs.putLane (rkOf bk (fkG j) r) (fkL j) (Config.openWord s.free).toNat, free := s.free + 1 }
    refine ⟨hfib, hblocks, fun q hq hne k hk => (hlane q hq hne k hk).trans ?_⟩
    exact (laneAt_putLane hr hq (hks j List.mem_cons_self) hk _ s.rs).trans (if_neg fun e => hne e.2)

theorem scramble_regs {bk : Nat} {ks : List Nat} (hks : ∀ k ∈ ks, fkBk k = bk) {regs : List Nat} (hregs : ∀ r ∈ regs, r < 1536) (s : State) :
    let t := regs.foldl (fun s r => s.scramble (ks.map fun k => (rkOf bk (fkG k) r, fkL k))) s
    t.rs.fibres = s.rs.fibres ∧ t.blocks = s.blocks ∧ ∀ q < 1536, q ∉ regs → ∀ k, fkBk k = bk → laneAt bk t.rs q k = laneAt bk s.rs q k := by
  induction regs generalizing s with
  | nil => exact ⟨rfl, rfl, fun _ _ _ _ _ => rfl⟩
  | cons r regs ih =>
    obtain ⟨hfib, hblocks, hlane⟩ := scramble_places (hregs r List.mem_cons_self) hks s
    obtain ⟨hfib', hblocks', hlane'⟩ := ih (fun q hq => hregs q (List.mem_cons_of_mem _ hq)) (s.scramble (ks.map fun k => (rkOf bk (fkG k) r, fkL k)))
    refine ⟨hfib'.trans hfib, hblocks'.trans hblocks, fun q hq hout k hk => ?_⟩
    obtain ⟨hne, hout⟩ := not_or.1 (mt List.mem_cons.2 hout)
    exact (hlane' q hq hout k hk).trans (hlane q hq hne k hk)

/-! ### Fibres that move (R272) -/

theorem foldl_dropFib (l : List Nat) (s : State) :
    OnlyFibres s (l.foldl State.dropFib s) ∧ ∀ j, (l.foldl State.dropFib s).fib j = if j ∈ l then none else s.fib j := by
  induction l generalizing s with
  | nil => exact ⟨.refl s, fun j => (if_neg List.not_mem_nil).symm⟩
  | cons k l ih =>
    obtain ⟨honly, hfib⟩ := ih (s.dropFib k)
    refine ⟨OnlyFibres.trans ⟨_, rfl⟩ honly, fun j => (hfib j).trans ?_⟩
    rw [fib_dropFib]
    by_cases hj : j ∈ l <;> by_cases hk : j = k <;> simp [hj, hk]

/-- Fibres that are put at distinct places. -/
theorem foldl_putFib {l : List (Nat × Fibre)} (hn : (l.map Prod.fst).Nodup) (s : State) :
    let t := l.foldl (fun s p => s.putFib p.1 p.2) s
    OnlyFibres s t ∧ (∀ p ∈ l, t.fib p.1 = some p.2) ∧ ∀ j, j ∉ l.map Prod.fst → t.fib j = s.fib j := by
  induction l generalizing s with
  | nil => exact ⟨.refl s, fun _ h => absurd h List.not_mem_nil, fun _ _ => rfl⟩
  | cons p l ih =>
    obtain ⟨hp, hn⟩ := List.nodup_cons.1 hn
    obtain ⟨honly, hsame, hother⟩ := ih hn (s.putFib p.1 p.2)
    refine ⟨OnlyFibres.trans ⟨_, rfl⟩ honly, fun q hq => ?_, fun j hj => ?_⟩
    · rcases List.mem_cons.1 hq with rfl | hq
      · exact (hother _ hp).trans ((fib_putFib _ _ _ _).trans (if_pos rfl))
      · exact hsame q hq
    · obtain ⟨hne, hj⟩ := not_or.1 (mt List.mem_cons.2 hj)
      exact (hother j hj).trans ((fib_putFib _ _ _ _).trans (if_neg hne))

/-- The fibres that move, with their new places. -/
def movers (s : State) (l : List Nat) (dest : Nat → Nat) : List (Nat × Fibre) :=
  (movesOf l dest).filterMap fun p => (s.fib p.1).map fun f => (p.2, f)

theorem mem_movers {s : State} {l : List Nat} {dest : Nat → Nat} {k : Nat} (hk : k ∈ l) {y : Fibre} (hy : s.fib k = some y) :
    (dest k, y) ∈ movers s l dest :=
  List.mem_filterMap.2 ⟨_, List.mem_map_of_mem hk, by rw [hy]; rfl⟩

theorem movers_places {s : State} {l : List Nat} {dest : Nat → Nat} (hlive : ∀ k ∈ l, ∃ y, s.fib k = some y) :
    (movers s l dest).map Prod.fst = l.map dest := by
  induction l with
  | nil => rfl
  | cons k l ih =>
    obtain ⟨y, hy⟩ := hlive k List.mem_cons_self
    have ih := ih fun j hj => hlive j (List.mem_cons_of_mem _ hj)
    unfold movers movesOf at ih ⊢
    rw [List.map_cons, List.filterMap_cons_some (b := (dest k, y)) (by rw [hy]; rfl), List.map_cons, ih, List.map_cons]

/-- The fibres and the block after a move outside every frame. -/
theorem relabel_results {s : State} {bk : Nat} {l : List Nat} {dest : Nat → Nat} (h : Moves bk l dest) (hlive : ∀ k ∈ l, ∃ y, s.fib k = some y)
    {b : Block} (hb : s.block? bk = some b) (hf : b.frames = []) :
    let t := s.relabel bk (movesOf l dest)
    t.rs.vregs = s.rs.vregs ∧ (∃ b', t.block? bk = some b' ∧ b'.frames = []) ∧ (∀ k ∈ l, t.fib (dest k) = s.fib k) ∧
      ∀ j, j ∉ l.map dest → t.fib j = if j ∈ l then none else s.fib j := by
  intro t
  have hplaces := movers_places hlive (dest := dest)
  obtain ⟨honly, hdropped⟩ := foldl_dropFib l s
  obtain ⟨honly', hput, hkept⟩ := foldl_putFib (l := movers s l dest) (hplaces ▸ h.dests_nodup) (l.foldl State.dropFib s)
  have hdrops : (movesOf l dest).foldl (fun s p => s.dropFib p.1) s = l.foldl State.dropFib s := List.foldl_map
  obtain ⟨fs, hfs⟩ := honly.trans honly'
  have hmoved : ((movers s l dest).foldl (fun s p => s.putFib p.1 p.2) ((movesOf l dest).foldl (fun s p => s.dropFib p.1) s)) =
      { s with rs := { s.rs with fibres := fs } } := by rw [hdrops]; exact hfs
  have hfib : ∀ j, t.fib j = ((movers s l dest).foldl (fun s p => s.putFib p.1 p.2) (l.foldl State.dropFib s)).fib j := fun j => by
    rw [← hdrops]
    rfl
  refine ⟨?_, ?_, fun k hk => ?_, fun j hj => ?_⟩
  · change ((movers s l dest).foldl (fun s p => s.putFib p.1 p.2) ((movesOf l dest).foldl (fun s p => s.dropFib p.1) s)).rs.vregs = _
    rw [hmoved]
  · refine ⟨_, block?_updBlock_self (b := b) ?_ fun _ => rfl, by rw [hf]; rfl⟩
    change ((movers s l dest).foldl (fun s p => s.putFib p.1 p.2) ((movesOf l dest).foldl (fun s p => s.dropFib p.1) s)).block? bk = _
    rw [hmoved]
    exact hb
  · obtain ⟨y, hy⟩ := hlive k hk
    exact (hfib _).trans ((hput _ (mem_movers hk hy)).trans hy.symm)
  · exact (hfib j).trans ((hkept j (hplaces ▸ hj)).trans (hdropped j))

/-! ### The old numbers (R272) -/

/-- A sorted fibre gets its old number in D, and goes on. -/
def noteOld (bk pc d : Nat) (s : State) (p : Nat × Nat) : State :=
  (s.setV { pc := pc, fk := p.2 } bk (fkG p.2) d (fkL p.2) (fkFibre p.1)).advance p.2

/-- A fibre that wrote D and went on. -/
def sent (d : Nat) (y : Fibre) : Fibre := (y.liveV d).adv

section
variable {bk d : Nat} (hd : d < 1536)
include hd

theorem noteOld_results (pc : Nat) {s : State} {b : Block} (hb : s.block? bk = some b) (hf : b.frames = []) {p : Nat × Nat} (hp : fkBk p.2 = bk) :
    let t := noteOld bk pc d s p
    t.block? bk = some b ∧ (∀ j, t.fib j = if j = p.2 then (s.fib p.2).map (sent d) else s.fib j) ∧
      ∀ r < 1536, ∀ k, fkBk k = bk → laneAt bk t.rs r k = if k = p.2 ∧ r = d then fkFibre p.1 % 2 ^ 32 else laneAt bk s.rs r k := by
  have hset := setVP_frameless hb hf { pc := pc, fk := p.2 } (fkG p.2) d (fkL p.2) (fkFibre p.1) false
  intro t
  have ht : t = (({ s with rs := putAt bk d p.2 (fkFibre p.1) false s.rs } : State).updFib p.2 (Fibre.liveV d)).advance p.2 :=
    congrArg (State.advance · p.2) hset
  rw [ht]
  refine ⟨?_, fun j => ?_, fun r hr k hk => ?_⟩
  · rw [State.block?, State.advance, State.updFib_blocks, State.updFib_blocks]
    exact hb
  · rw [fib_advance, fib_updFib, fib_updFib, if_pos rfl]
    by_cases hj : j = p.2
    · rw [if_pos hj, if_pos hj, Option.map_map]
      rfl
    · rw [if_neg hj, if_neg hj, if_neg hj]
      rfl
  · rw [laneAt_congr (rs' := putAt bk d p.2 (fkFibre p.1) false s.rs) (by rw [State.advance, updFib_vregs, updFib_vregs])]
    exact laneAt_putAt hd hr hp hk _ _ _

/-- All of them, at distinct places. -/
theorem noteOlds_results (pc : Nat) {l : List (Nat × Nat)} (hn : (l.map Prod.snd).Nodup) (hl : ∀ p ∈ l, fkBk p.2 = bk) {s : State} {b : Block}
    (hb : s.block? bk = some b) (hf : b.frames = []) :
    let t := l.foldl (noteOld bk pc d) s
    (∀ j, t.fib j = if j ∈ l.map Prod.snd then (s.fib j).map (sent d) else s.fib j) ∧
      (∀ r < 1536, ∀ k, fkBk k = bk → r ≠ d ∨ k ∉ l.map Prod.snd → laneAt bk t.rs r k = laneAt bk s.rs r k) ∧
      ∀ p ∈ l, laneAt bk t.rs d p.2 = fkFibre p.1 % 2 ^ 32 := by
  induction l generalizing s with
  | nil => exact ⟨fun j => (if_neg List.not_mem_nil).symm, fun _ _ _ _ _ => rfl, nofun⟩
  | cons p l ih =>
    obtain ⟨hp, hn⟩ := List.nodup_cons.1 hn
    have hpb := hl p List.mem_cons_self
    obtain ⟨hblock, hfib, hlane⟩ := noteOld_results hd pc hb hf hpb
    obtain ⟨hfibs, hother, hnoted⟩ := ih hn (fun q hq => hl q (List.mem_cons_of_mem _ hq)) hblock
    refine ⟨fun j => (hfibs j).trans ?_, fun r hr k hk hne => ?_, fun q hq => ?_⟩
    · rw [hfib, List.map_cons]
      by_cases hj : j = p.2
      · subst hj
        rw [if_neg hp, if_pos rfl, if_pos List.mem_cons_self]
      · simp only [List.mem_cons, hj, false_or, if_false]
    · rw [List.map_cons, List.mem_cons, not_or] at hne
      refine (hother r hr k hk (hne.imp_right And.right)).trans ((hlane r hr k hk).trans (if_neg ?_))
      rintro ⟨hkp, hrd⟩
      exact hne.elim (fun h => h hrd) fun h => h.1 hkp
    · rcases List.mem_cons.1 hq with rfl | hq
      · exact (hother d hd _ hpb (.inr hp)).trans ((hlane d hd _ hpb).trans (if_pos ⟨rfl, rfl⟩))
      · exact hnoted q hq

end

/-! ### A sort that completes (R272) -/

/-- What a sort moves: the registers of the chunks that a mask names. -/
def sortRegs (mask : Nat) : List Nat := ((span 0 48).filter fun j => bit mask j).flatMap fun j => span (32 * j) 32

theorem span_nodup (a n : Nat) : (span a n).Nodup := by
  rw [← List.map_id (span a n), span_map_range a n id]
  exact List.nodup_range.map fun _ _ e => Nat.add_left_cancel e

theorem mem_sortRegs {mask r : Nat} : r ∈ sortRegs mask ↔ r < 1536 ∧ mask.testBit (r / 32) = true := by
  simp only [sortRegs, List.mem_flatMap, List.mem_filter, mem_span, bit_eq]
  constructor
  · rintro ⟨j, ⟨⟨-, hj⟩, hbit⟩, hlo, hhi⟩
    obtain rfl : r / 32 = j := by omega
    exact ⟨by omega, hbit⟩
  · rintro ⟨hr, hbit⟩
    exact ⟨r / 32, ⟨⟨Nat.zero_le _, by omega⟩, hbit⟩, by omega, by omega⟩

theorem sortRegs_nodup (mask : Nat) : (sortRegs mask).Nodup := by
  refine List.nodup_flatMap.2 ⟨fun j _ => span_nodup _ _, ((span_nodup 0 48).filter _).imp_of_mem fun {i j} _ _ hne r hi hj => hne ?_⟩
  have hi := mem_span.1 hi
  have hj := mem_span.1 hj
  omega

/-- The registers that a sort leaves: those that move, and beyond the live ones no particular values. -/
def sortLanes (s : State) (bk : Nat) (regs fs : List Nat) (m : List (Nat × Nat)) : State :=
  let s : State := { s with rs := regs.foldl (fun rs r => moveLanes bk r m rs) s.rs }
  let live := (fs.filterMap s.fib).foldl (fun x (f : Fibre) => max x f.livev) 0
  (regs.filter fun r => decide (live ≤ r)).foldl (fun s r => s.scramble (m.map fun p => (rkOf bk (fkG p.2) r, fkL p.2))) s

/-- The state that a sort leaves. -/
def sortResult (s : State) (bk core pc d : Nat) (regs fs : List Nat) (m : List (Nat × Nat)) : State :=
  m.foldl (noteOld bk pc d) (((sortLanes s bk regs fs m).closeGen bk (keySort core pc)).relabel bk m)

theorem recordSort_frameless {s : State} {bk : Nat} {b : Block} (hb : s.block? bk = some b) (hf : b.frames = []) (gs regs : List Nat) (m : List (Nat × Nat)) :
    s.recordSort bk gs regs m = some s := by
  have hgroups : gs.foldl (fun (acc : Option State) g => acc.bind fun s => (s.recordRegs bk g regs).bind fun s => s.record bk g .preds) (some s) = some s :=
    foldl_id (fun g => by simp only [Option.bind_some, recordRegs_frameless hb hf, record_frameless hb hf]) gs
  unfold State.recordSort
  rw [hgroups]
  refine foldl_id (fun p => ?_) m
  simp only [Option.bind_some, State.recordPos, hb, hf]

theorem finishSort_eq {s : State} {bk core pc d a sb : Nat} {fs : List Nat} {b : Block} (hb : s.block? bk = some b) (hf : b.frames = [])
    (hquiet : ∀ o ∈ s.ops, o.bk = bk → o.g ∈ s.groupsOn bk core → (o.cls = .ld ∨ o.cls = .cp ∨ o.cls = .tl) → o.fin = true)
    (hbusy : s.busyU bk ((s.groupsOn bk core).headD 0) sb = false) (hpois : s.upois bk ((s.groupsOn bk core).headD 0) sb = false)
    (hw : ∀ k ∈ fs, s.winDone k = true)
    (hchunks : ∀ j < 48, (s.uraw bk ((s.groupsOn bk core).headD 0) sb).testBit j = true → ∀ g ∈ s.groupsOn bk core, 32 * j < s.allot bk g) :
    s.finishSort bk core pc d a sb fs = sortResult s bk core pc d (sortRegs (s.uraw bk ((s.groupsOn bk core).headD 0) sb)) fs
      (sortMoves bk (s.groupsOn bk core) (sortBy (fun k => s.vraw bk (fkG k) a (fkL k) * 8192 + fkFibre k) fs)) := by
  have hall : (s.ops.all fun o => !(o.bk == bk && (s.groupsOn bk core).contains o.g && (o.cls == .ld || o.cls == .cp || o.cls == .tl)) || o.fin) = true := by
    refine List.all_eq_true.2 fun o ho => ?_
    by_cases hown : (o.bk == bk && (s.groupsOn bk core).contains o.g && (o.cls == .ld || o.cls == .cp || o.cls == .tl)) = true
    · obtain ⟨hbk, hg, hcls⟩ : o.bk = bk ∧ o.g ∈ s.groupsOn bk core ∧ (o.cls = .ld ∨ o.cls = .cp ∨ o.cls = .tl) := by
        simpa [and_assoc, or_assoc] using hown
      rw [hquiet o ho hbk hg hcls, Bool.or_true]
    · rw [Bool.eq_false_of_not_eq_true hown]
      rfl
  have hnone : ((span 0 48).filter fun j => bit (s.uraw bk ((s.groupsOn bk core).headD 0) sb) j).find?
      (fun j => (s.groupsOn bk core).any fun g => decide (s.allot bk g ≤ 32 * j)) = none := by
    refine List.find?_eq_none.2 fun j hj => ?_
    obtain ⟨hj, hbit⟩ := List.mem_filter.1 hj
    rw [List.any_eq_true]
    rintro ⟨g, hg, hle⟩
    have := hchunks j (mem_span.1 hj).2 (bit_eq _ _ ▸ hbit) g hg
    exact absurd (of_decide_eq_true hle) (by omega)
  unfold State.finishSort
  simp only [hall, hbusy, List.all_eq_true.2 hw, hpois, hnone, recordSort_frameless hb hf]
  rfl

/-- A fibre's registers count in how many are live. -/
theorem le_foldl_livev {l : List Fibre} {y : Fibre} (hy : y ∈ l) (n : Nat) : y.livev ≤ l.foldl (fun x (f : Fibre) => max x f.livev) n := by
  have hstart : ∀ (l : List Fibre) (n : Nat), n ≤ l.foldl (fun x (f : Fibre) => max x f.livev) n := fun l => by
    induction l with
    | nil => exact fun n => le_refl n
    | cons z l ih => exact fun n => le_trans (le_max_left _ _) (ih _)
  induction l generalizing n with
  | nil => cases hy
  | cons z l ih =>
    rcases List.mem_cons.1 hy with rfl | hy
    · exact le_trans (le_max_right _ _) (hstart l _)
    · exact ih hy _

section
variable {s : State} {bk : Nat} {l : List Nat} {dest : Nat → Nat} (h : Moves bk l dest)
include h

theorem Moves.place_bk {k : Nat} (hk : k ∈ l.map dest) : fkBk k = bk := by
  obtain ⟨j, hj, rfl⟩ := List.mem_map.1 hk
  exact h.new j hj

theorem sortLanes_results (mask : Nat) (fs : List Nat) : let t := sortLanes s bk (sortRegs mask) fs (movesOf l dest)
    t.rs.fibres = s.rs.fibres ∧ t.blocks = s.blocks ∧
      ∀ r < 1536, mask.testBit (r / 32) = true → (∃ k ∈ fs, ∃ y, s.fib k = some y ∧ r < y.livev) → ∀ k ∈ l,
        laneAt bk t.rs r (dest k) = laneAt bk s.rs r k := by
  have hregs : ∀ r ∈ sortRegs mask, r < 1536 := fun r hr => (mem_sortRegs.1 hr).1
  obtain ⟨hfib1, -, hmoved⟩ := moveRegs h (sortRegs_nodup mask) hregs s.rs
  have hscrambled : ∀ r, ((movesOf l dest).map fun p => (rkOf bk (fkG p.2) r, fkL p.2)) = (l.map dest).map fun k => (rkOf bk (fkG k) r, fkL k) := fun r => by
    rw [movesOf, List.map_map, List.map_map]
    rfl
  unfold sortLanes
  simp only [hscrambled]
  generalize hlive : (fs.filterMap _).foldl _ 0 = live
  obtain ⟨hfib2, hblocks2, hkept⟩ := scramble_regs (fun k hk => h.place_bk hk) (regs := (sortRegs mask).filter fun r => decide (live ≤ r))
    (fun r hr => hregs r (List.mem_of_mem_filter hr)) { s with rs := (sortRegs mask).foldl (fun rs r => moveLanes bk r (movesOf l dest) rs) s.rs }
  refine ⟨hfib2.trans hfib1, hblocks2, fun r hr hbit ⟨j, hj, y, hy, hlt⟩ k hk => ?_⟩
  have hy1 : ({ s with rs := (sortRegs mask).foldl (fun rs r => moveLanes bk r (movesOf l dest) rs) s.rs } : State).fib j = some y :=
    (congrArg (sget none · j) hfib1).trans hy
  have hbelow : r < live := lt_of_lt_of_le hlt (hlive ▸ le_foldl_livev (List.mem_filterMap.2 ⟨j, hj, hy1⟩) 0)
  refine (hkept r hr (fun hin => ?_) _ (h.new k hk)).trans (hmoved r (mem_sortRegs.2 ⟨hr, hbit⟩) k hk)
  exact absurd (of_decide_eq_true (List.mem_filter.1 hin).2) (by omega)

/-- Each sorted fibre stands at its new place, with its old number in D and the live lanes that the mask names. -/
theorem sortResult_results (hlive : ∀ k ∈ l, ∃ y, s.fib k = some y) {b : Block} (hb : s.block? bk = some b) (hf : b.frames = []) {d mask : Nat}
    (hd : d < 1536) (hmask : mask.testBit (d / 32) = false) (core pc : Nat) (fs : List Nat) :
    let t := sortResult s bk core pc d (sortRegs mask) fs (movesOf l dest)
    (∀ k ∈ l, t.fib (dest k) = (s.fib k).map (sent d)) ∧ (∀ j, j ∉ l.map dest → t.fib j = if j ∈ l then none else s.fib j) ∧
      (∀ k ∈ l, laneAt bk t.rs d (dest k) = k % 8192) ∧
      ∀ r < 1536, mask.testBit (r / 32) = true → (∃ k ∈ fs, ∃ y, s.fib k = some y ∧ r < y.livev) → ∀ k ∈ l,
        laneAt bk t.rs r (dest k) = laneAt bk s.rs r k := by
  intro t
  obtain ⟨hfibres, hblocks, hlanes⟩ := sortLanes_results h (s := s) mask fs
  obtain ⟨cf, hblock⟩ := (SameWork.closeGen (sortLanes s bk (sortRegs mask) fs (movesOf l dest)) bk (keySort core pc)).block bk b (by
    rw [State.block?, hblocks]; exact hb)
  have hfib : ((sortLanes s bk (sortRegs mask) fs (movesOf l dest)).closeGen bk (keySort core pc)).fib = s.fib :=
    funext fun k => congrArg (sget none · k) hfibres
  obtain ⟨hvregs, ⟨b', hb', hf'⟩, hmoved, hleft⟩ := relabel_results h (by rw [hfib]; exact hlive) hblock hf
  have hdests : (movesOf l dest).map Prod.snd = l.map dest := by rw [movesOf, List.map_map]; rfl
  obtain ⟨hsent, hother, hnoted⟩ := noteOlds_results hd pc (l := movesOf l dest) (hdests ▸ h.dests_nodup)
    (fun p hp => h.place_bk (hdests ▸ List.mem_map_of_mem hp)) hb' hf'
  rw [hdests] at hsent hother
  rw [hfib] at hmoved hleft
  refine ⟨fun k hk => ?_, fun j hj => ?_, fun k hk => ?_, fun r hr hbit hlt k hk => ?_⟩
  · exact (hsent _).trans ((if_pos (List.mem_map_of_mem hk)).trans (by rw [hmoved k hk]))
  · exact (hsent j).trans ((if_neg hj).trans (hleft j hj))
  · refine (hnoted _ (List.mem_map_of_mem hk)).trans (Nat.mod_eq_of_lt ?_)
    exact lt_of_lt_of_le (Nat.mod_lt k (by decide)) (by decide)
  · have hne : r ≠ d := fun e => by rw [e, hmask] at hbit; cases hbit
    exact (hother r hr _ (h.new k hk) (.inl hne)).trans ((laneAt_congr hvregs r _).trans (hlanes r hr hbit hlt k hk))

end

/-! ### The last fibre arrives at `fsort` -/

/-- The groups of a block on a core, as the statement writes them. -/
def groupsAt (b : Block) (core : Nat) : List Nat := (List.range b.groups.length).filter fun y => (b.group y).core == core

/-- Where the fibre of a rank goes. -/
def placeOf (bk : Nat) (gs : List Nat) (rank : Nat) : Nat := fkOf bk (gs.getD (rank / 64) 0) (rank % 64)

theorem groupsOn_eq {s : State} {bk : Nat} {b : Block} {cf : FMap (Option Nat)} (hb : s.block? bk = some (firsts cf b)) (core : Nat) :
    s.groupsOn bk core = groupsAt b core := by
  have hspan : span 0 b.groups.length = List.range b.groups.length := by
    have := span_map_range 0 b.groups.length id
    simpa using this
  unfold State.groupsOn
  rw [hb]
  exact congrArg (List.filter _) hspan

/-- The lowest group of a core is not above its other groups. -/
theorem groupsAt_head {b : Block} {core n : Nat} (hn : n ∈ groupsAt b core) :
    (groupsAt b core).headD 0 ∈ groupsAt b core ∧ (groupsAt b core).headD 0 ≤ n := by
  have hsorted : (groupsAt b core).Pairwise (· < ·) := List.pairwise_lt_range.filter _
  cases hgs : groupsAt b core with
  | nil => rw [hgs] at hn; cases hn
  | cons y ys =>
    rw [hgs] at hn hsorted
    refine ⟨List.mem_cons_self, ?_⟩
    rcases List.mem_cons.1 hn with rfl | hn
    · exact le_refl _
    · exact le_of_lt ((List.pairwise_cons.1 hsorted).1 n hn)

theorem settleSort_eq {s : State} {bk core : Nat} {g : Guard} {d a m pc : Nat} {holds : List Nat}
    (h : s.collective (s.coreFibs bk core) = some (.fsort g d a m, pc, holds)) :
    s.settleSort bk core = s.finishSort bk core pc d a m (s.coreFibs bk core) := by
  simp only [State.settleSort, h]

theorem placeOf_lt {bk rank : Nat} {gs : List Nat} (hr : rank < 64) : placeOf bk gs rank = fkOf bk (gs.headD 0) rank := by
  have h0 : rank / 64 = 0 := by omega
  have hm : rank % 64 = rank := Nat.mod_eq_of_lt hr
  rw [placeOf, h0, hm]
  cases gs <;> rfl

theorem register_of_free {s : State} {fk d : Nat} (h : free s fk (.v d) false false = true) : d < 1536 := by
  have hlane : s.laneFree fk d = true := by simpa [free, regOf] using h
  simp only [State.laneFree, Bool.and_eq_true, decide_eq_true_eq] at hlane
  obtain ⟨⟨hlt, -⟩, -⟩ := hlane
  exact hlt

section
variable {s : State} {g : Guard} {fk : Nat} {x : Fibre} {b : Block} {d a m : Nat} (h : LastToArrive s g fk x b (.fsort g d a m)) (h1 : OneGroup s fk b)

/-- The core when its last fibre has arrived at `fsort`, and the fibres that it sorts. -/
def sortersAt (s : State) (g : Guard) (fk d a m : Nat) : State :=
  arrivedAt s g fk (keySort (s.group (fkBk fk) (fkG fk)).core s.ipc) (.fsort g d a m)
def sortersOf (s : State) (g : Guard) (fk d a m : Nat) : List Nat := (sortersAt s g fk d a m).coreFibs (fkBk fk) (s.group (fkBk fk) (fkG fk)).core

/-- The key of R272. -/
def sortKey (s : State) (bk a k : Nat) : Nat := s.vraw bk (fkG k) a (fkL k) * 8192 + fkFibre k

/-- The place of a fibre after the sort. -/
def sortDest (s : State) (b : Block) (fk a k : Nat) : Nat :=
  placeOf (fkBk fk) (groupsAt b (s.group (fkBk fk) (fkG fk)).core) (rankIn (sortKey s (fkBk fk) a) (s.blockFibs (fkBk fk)) k)

theorem sortKey_inj {bk j k : Nat} (hj : fkBk j = bk) (hk : fkBk k = bk) (he : sortKey s bk a j = sortKey s bk a k) : j = k := by
  simp only [sortKey, fkFibre, fkBk] at hj hk he
  omega

include h

theorem sortersOf_nodup : (sortersOf s g fk d a m).Nodup := (blockFibs_nodup (last_wf _ h) _).filter _

include h1

theorem mem_sortersOf {k : Nat} : k ∈ sortersOf s g fk d a m ↔ fkBk k = fkBk fk ∧ ∃ y, s.fib k = some y := by
  have hgroup : ∀ n, (sortersAt s g fk d a m).group (fkBk fk) n = s.group (fkBk fk) n := (SameWork.arrive s fk _ _).group _
  refine (mem_coreFibs (s := sortersAt s g fk d a m) (last_wf _ h)).trans ?_
  rw [sortersAt, live_arrivedAt _ h, ← sortersAt, hgroup]
  refine ⟨And.left, fun hk => ⟨hk, ?_⟩⟩
  obtain ⟨hb, y, hy⟩ := hk
  rw [h1.mates k y hy hb]

theorem sortersOf_perm : (sortersOf s g fk d a m).Perm (s.blockFibs (fkBk fk)) :=
  (List.perm_ext_iff_of_nodup (sortersOf_nodup h) (blockFibs_nodup h.store _)).2 fun _ => (mem_sortersOf h h1).trans (mem_blockFibs_iff h.store).symm

/-- A group has at most 64 fibres. -/
theorem blockFibs_length : (s.blockFibs (fkBk fk)).length ≤ 64 := by
  have hgroup : ∀ k ∈ s.blockFibs (fkBk fk), fkBk k = fkBk fk ∧ fkG k = fkG fk := fun k hk => by
    obtain ⟨hb, y, hy⟩ := (mem_blockFibs_iff h.store).1 hk
    exact ⟨hb, h1.mates k y hy hb⟩
  have hlanes := lanes_nodup (blockFibs_nodup h.store _) hgroup
  have hsub : (s.blockFibs (fkBk fk)).map fkL ⊆ List.range 64 := fun l hl => by
    obtain ⟨k, -, rfl⟩ := List.mem_map.1 hl
    exact List.mem_range.2 (Nat.mod_lt _ (by decide))
  have hle := (hlanes.subperm hsub).length_le
  rwa [List.length_map, List.length_range] at hle

theorem sorted_pairwise : (sortBy (sortKey s (fkBk fk) a) (sortersOf s g fk d a m)).Pairwise fun j k => sortKey s (fkBk fk) a j < sortKey s (fkBk fk) a k :=
  sortBy_pairwise (sortersOf_nodup h) fun _ hj _ hk => sortKey_inj ((mem_sortersOf h h1).1 hj).1 ((mem_sortersOf h h1).1 hk).1

theorem sorted_perm : (sortBy (sortKey s (fkBk fk) a) (sortersOf s g fk d a m)).Perm (s.blockFibs (fkBk fk)) :=
  (sortBy_perm _ _).trans (sortersOf_perm h h1)

/-- A sorted fibre's place is a home lane of the core's lowest group. -/
theorem sortDest_eq {k : Nat} (hk : k ∈ s.blockFibs (fkBk fk)) : sortDest s b fk a k =
    fkOf (fkBk fk) ((groupsAt b (s.group (fkBk fk) (fkG fk)).core).headD 0) (rankIn (sortKey s (fkBk fk) a) (s.blockFibs (fkBk fk)) k) :=
  placeOf_lt (lt_of_lt_of_le (rankIn_lt hk) (blockFibs_length h h1))

theorem mem_groupsAt : fkG fk ∈ groupsAt b (s.group (fkBk fk) (fkG fk)).core := by
  refine List.mem_filter.2 ⟨List.mem_range.2 h1.group, beq_iff_eq.2 ?_⟩
  rw [State.group, h.block]

theorem sortMoves_eq : sortMoves (fkBk fk) (groupsAt b (s.group (fkBk fk) (fkG fk)).core) (sortBy (sortKey s (fkBk fk) a) (sortersOf s g fk d a m)) =
    movesOf (sortBy (sortKey s (fkBk fk) a) (sortersOf s g fk d a m)) (sortDest s b fk a) := by
  refine (mapIdx_rank (sorted_pairwise h h1) (placeOf (fkBk fk) (groupsAt b (s.group (fkBk fk) (fkG fk)).core))).trans (List.map_congr_left fun k _ => ?_)
  rw [rankIn_perm (sorted_perm h h1)]
  rfl

theorem sort_moves : Moves (fkBk fk) (sortBy (sortKey s (fkBk fk) a) (sortersOf s g fk d a m)) (sortDest s b fk a) := by
  have hperm := sorted_perm h h1 (a := a)
  have hlen := blockFibs_length h h1
  have hhead : (groupsAt b (s.group (fkBk fk) (fkG fk)).core).headD 0 < 128 := lt_of_le_of_lt (groupsAt_head (mem_groupsAt h h1)).2 (fkG_lt fk)
  refine ⟨hperm.nodup_iff.2 (blockFibs_nodup h.store _), fun j hj k hk he => ?_, fun k hk => blockFibs_bk (hperm.mem_iff.1 hk), fun k hk => ?_⟩
  · rw [sortDest_eq h h1 (hperm.mem_iff.1 hj), sortDest_eq h h1 (hperm.mem_iff.1 hk)] at he
    refine rankIn_inj (sorted_pairwise h h1) hj hk ?_
    rw [rankIn_perm hperm, rankIn_perm hperm]
    exact Nat.add_left_cancel he
  · have hk := hperm.mem_iff.1 hk
    have hrank := lt_of_lt_of_le (rankIn_lt (key := sortKey s (fkBk fk) a) hk) hlen
    rw [sortDest_eq h h1 hk, fkOf, fkBk]
    omega

theorem settleSort_other {c : Nat} (hc : c ≠ (s.group (fkBk fk) (fkG fk)).core) :
    (sortersAt s g fk d a m).settleSort (fkBk fk) c = sortersAt s g fk d a m := by
  have hempty : (sortersAt s g fk d a m).coreFibs (fkBk fk) c = [] := List.filter_eq_nil_iff.2 fun k hk => by
    obtain ⟨hb, hy⟩ := (mem_blockFibs_iff (last_wf _ h)).1 hk
    obtain ⟨y, hy⟩ := (live_arrivedAt _ h).1 hy
    rw [h1.mates k y hy hb, beq_iff_eq, show (sortersAt s g fk d a m).group (fkBk fk) (fkG fk) = _ from (SameWork.arrive s fk _ _).group _ _]
    exact Ne.symm hc
  simp only [State.settleSort, hempty, State.collective]

/-- The sort of the core is all that happens. -/
theorem settle_sorters (hin : (s.group (fkBk fk) (fkG fk)).core ∈ b.cores) {v : State}
    (hone : (sortersAt s g fk d a m).finishSort (fkBk fk) (s.group (fkBk fk) (fkG fk)).core s.ipc d a m (sortersOf s g fk d a m) = v)
    (hv : ∀ k y, v.fib k = some y → fkBk k = fkBk fk → y.stat = .ready) : (sortersAt s g fk d a m).settle (fkBk fk) = v := by
  obtain ⟨cf, hb⟩ := last_block (keySort (s.group (fkBk fk) (fkG fk)).core s.ipc) h
  have hat : ∀ k, fkBk k = fkBk fk → (∃ y, s.fib k = some y) → AtColl (sortersAt s g fk d a m) (.fsort g d a m) s.ipc k :=
    fun k hk ⟨y, hy⟩ => last_atColl _ h hy hk
  refine settle_sort hb h.runs h.cores (last_barless _ h) (idle_of_allReady hv) (fun n => settleGroup_sort fun i pc holds hc => ?_) hin ?_
    fun c hc => settleSort_other h h1 hc
  · have hne : (sortersAt s g fk d a m).groupFibs (fkBk fk) n ≠ [] := fun e => by
      rw [show (arrivedAt s g fk _ _).groupFibs (fkBk fk) n = [] from e] at hc
      cases hc
    obtain ⟨k, hk⟩ := List.exists_mem_of_ne_nil _ hne
    obtain ⟨hkb, hlive⟩ := (mem_blockFibs_iff (last_wf _ h)).1 (List.mem_of_mem_filter hk)
    exact ⟨g, d, a, m, (collective_some hc k hk).unique (hat k hkb ((live_arrivedAt _ h).1 hlive))⟩
  · have hcoll : (sortersAt s g fk d a m).collective (sortersOf s g fk d a m) = some (_, _, _) :=
      collective_of (List.ne_nil_of_mem ((mem_sortersOf h h1).2 ⟨rfl, x, h.fib⟩)) fun k hk => by
        obtain ⟨hkb, hlive⟩ := (mem_sortersOf h h1).1 hk
        exact hat k hkb hlive
    exact (settleSort_eq hcoll).trans hone

/-- What the statement asks of the core when `fsort` is complete (R272). -/
structure SortReady (s : State) (b : Block) (fk d m : Nat) : Prop where
  core : (s.group (fkBk fk) (fkG fk)).core ∈ b.cores
  quiet : ∀ o ∈ s.ops, o.bk = fkBk fk → o.g ∈ groupsAt b (s.group (fkBk fk) (fkG fk)).core →
    (o.cls = .ld ∨ o.cls = .cp ∨ o.cls = .tl) → o.fin = true
  busy : s.busyU (fkBk fk) ((groupsAt b (s.group (fkBk fk) (fkG fk)).core).headD 0) m = false
  clean : s.upois (fkBk fk) ((groupsAt b (s.group (fkBk fk) (fkG fk)).core).headD 0) m = false
  written : ∀ k ∈ s.blockFibs (fkBk fk), s.winDone k = true
  chunks : ∀ j < 48, (s.uraw (fkBk fk) ((groupsAt b (s.group (fkBk fk) (fkG fk)).core).headD 0) m).testBit j = true →
    ∀ y ∈ groupsAt b (s.group (fkBk fk) (fkG fk)).core, 32 * j < s.allot (fkBk fk) y
  other : (s.uraw (fkBk fk) ((groupsAt b (s.group (fkBk fk) (fkG fk)).core).headD 0) m).testBit (d / 32) = false

/-- What `fsort` leaves. -/
def afterSort (s : State) (g : Guard) (b : Block) (fk d a m : Nat) : State :=
  sortResult (sortersAt s g fk d a m) (fkBk fk) (s.group (fkBk fk) (fkG fk)).core s.ipc d
    (sortRegs (s.uraw (fkBk fk) ((groupsAt b (s.group (fkBk fk) (fkG fk)).core).headD 0) m))
    (sortersOf s g fk d a m) (movesOf (sortBy (sortKey s (fkBk fk) a) (sortersOf s g fk d a m)) (sortDest s b fk a))

theorem finishSort_sorters (hr : SortReady s b fk d m) :
    (sortersAt s g fk d a m).finishSort (fkBk fk) (s.group (fkBk fk) (fkG fk)).core s.ipc d a m (sortersOf s g fk d a m) = afterSort s g b fk d a m := by
  obtain ⟨cf, hb⟩ := last_block (keySort (s.group (fkBk fk) (fkG fk)).core s.ipc) h
  have hwork : SameWork s (sortersAt s g fk d a m) := SameWork.arrive s fk _ _
  have hgs := groupsOn_eq hb (s.group (fkBk fk) (fkG fk)).core
  have hkey : (fun k => (sortersAt s g fk d a m).vraw (fkBk fk) (fkG k) a (fkL k) * 8192 + fkFibre k) = sortKey s (fkBk fk) a :=
    funext fun k => by rw [hwork.vraw, sortKey]
  have hfinish := finishSort_eq (core := (s.group (fkBk fk) (fkG fk)).core) (pc := s.ipc) (d := d) (a := a) (sb := m)
    (fs := sortersOf s g fk d a m) hb h1.frames
  rw [hgs, ← sortersAt, hwork.ops, hwork.busyU, hwork.upois, hwork.uraw, hkey, sortMoves_eq h h1] at hfinish
  refine hfinish hr.quiet hr.busy hr.clean (fun k hk => ?_) fun j hj hbit n hn => ?_
  · exact (hwork.winDone k).trans (hr.written k ((sortersOf_perm h h1).mem_iff.1 hk))
  · have := hr.chunks j hj hbit n hn
    rwa [State.allot, hwork.group]

/-- Each fibre after the sort, and the registers at its place. -/
theorem afterSort_results (hr : SortReady s b fk d m) (hd : d < 1536) : let t := afterSort s g b fk d a m
    (∀ k y, t.fib k = some y → fkBk k = fkBk fk → y.stat = .ready) ∧ ∀ k ∈ s.blockFibs (fkBk fk),
      (∀ y, s.fib k = some y → ∃ st, t.fib (sortDest s b fk a k) = some (sent d { y with stat := st })) ∧
      laneAt (fkBk fk) t.rs d (sortDest s b fk a k) = k % 8192 ∧
      ∀ r < 1536, (s.uraw (fkBk fk) ((groupsAt b (s.group (fkBk fk) (fkG fk)).core).headD 0) m).testBit (r / 32) = true →
        (∀ y, s.fib k = some y → r < y.livev) → laneAt (fkBk fk) t.rs r (sortDest s b fk a k) = s.vraw (fkBk fk) (fkG k) r (fkL k) := by
  obtain ⟨cf, hb⟩ := last_block (keySort (s.group (fkBk fk) (fkG fk)).core s.ipc) h
  have hmoves := sort_moves h h1 (a := a)
  have hmem : ∀ k, k ∈ sortBy (sortKey s (fkBk fk) a) (sortersOf s g fk d a m) ↔ k ∈ s.blockFibs (fkBk fk) := fun k => (sorted_perm h h1).mem_iff
  have hlive : ∀ k ∈ s.blockFibs (fkBk fk), ∃ y, (sortersAt s g fk d a m).fib k = some y := fun k hk =>
    (live_arrivedAt _ h).2 ((mem_blockFibs_iff h.store).1 hk).2
  obtain ⟨hplaced, hleft, hnoted, hlanes⟩ := sortResult_results hmoves (s := sortersAt s g fk d a m) (fun k hk => hlive k ((hmem k).1 hk)) hb h1.frames hd
    hr.other (s.group (fkBk fk) (fkG fk)).core s.ipc (sortersOf s g fk d a m)
  refine ⟨fun j z hz hj => ?_, fun k hk => ⟨fun y hy => ?_, hnoted k ((hmem k).2 hk), fun r hlt hbit hlv => ?_⟩⟩
  · by_cases hdest : j ∈ (sortBy (sortKey s (fkBk fk) a) (sortersOf s g fk d a m)).map (sortDest s b fk a)
    · obtain ⟨k, hk, rfl⟩ := List.mem_map.1 hdest
      obtain ⟨y, -, rfl⟩ := Option.map_eq_some_iff.1 ((hplaced k hk).symm.trans hz)
      rfl
    · have hzj := (hleft j hdest).symm.trans hz
      split at hzj
      · cases hzj
      · next hout => exact absurd ((hmem j).2 ((mem_blockFibs_iff h.store).2 ⟨hj, (live_arrivedAt _ h).1 ⟨z, hzj⟩⟩)) hout
  · obtain ⟨st, hst⟩ := stat_arrivedAt (g := g) (fk := fk) (i := .fsort g d a m) (keySort (s.group (fkBk fk) (fkG fk)).core s.ipc) hy
    exact ⟨st, (hplaced k ((hmem k).2 hk)).trans (by rw [sortersAt, hst]; rfl)⟩
  · obtain ⟨-, y, hy⟩ := (mem_blockFibs_iff h.store).1 hk
    obtain ⟨st, hst⟩ := stat_arrivedAt (g := g) (fk := fk) (i := .fsort g d a m) (keySort (s.group (fkBk fk) (fkG fk)).core s.ipc) hy
    refine (hlanes r hlt hbit ⟨k, (sortersOf_perm h h1).mem_iff.2 hk, _, hst, hlv y hy⟩ k ((hmem k).2 hk)).trans ?_
    exact (SameWork.arrive s fk _ _).vraw _ _ _ _

/-- The statement of R272 for the last fibre to arrive. -/
theorem sort_results (hd : free s fk (.v d) false false = true) (ha : readable s fk (.v a) false false = true) (hr : SortReady s b fk d m) :
    let key := sortKey s (fkBk fk) a
    ∃ t, exec (.fsort g d a m) s = .next t ∧ ∀ k ∈ s.blockFibs (fkBk fk), ∀ y, s.fib k = some y →
      let to_ := placeOf (fkBk fk) (groupsAt b (s.group (fkBk fk) (fkG fk)).core) (rankIn key (s.blockFibs (fkBk fk)) k)
      (∃ z, t.fib to_ = some z ∧ z.pc = y.pc + 8 ∧ z.left = y.left - 1 ∧ z.stat = .ready ∧ z.preds = y.preds ∧ z.stack = y.stack) ∧
      t.vraw (fkBk fk) (fkG to_) d (fkL to_) = k % 8192 ∧
      ∀ r < 1536, (s.uraw (fkBk fk) ((groupsAt b (s.group (fkBk fk) (fkG fk)).core).headD 0) m).testBit (r / 32) = true →
        (∀ j ∈ s.blockFibs (fkBk fk), ∀ z, s.fib j = some z → r < z.livev) →
        t.vraw (fkBk fk) (fkG to_) r (fkL to_) = s.vraw (fkBk fk) (fkG k) r (fkL k) := by
  intro key
  obtain ⟨hready, hsorted⟩ := afterSort_results h h1 (a := a) hr (register_of_free hd)
  refine ⟨afterSort s g b fk d a m, ?_, fun k hk y hy => ?_⟩
  · rw [exec_fsort h.cur h.fib hd ha]
    exact congrArg Host.Outcome.next (settle_sorters h h1 hr.core (finishSort_sorters h h1 hr) hready)
  · obtain ⟨hplaced, hnoted, hlanes⟩ := hsorted k hk
    obtain ⟨st, hst⟩ := hplaced y hy
    exact ⟨⟨_, hst, rfl, rfl, rfl, rfl, rfl⟩, hnoted, fun r hr hbit hlv => hlanes r hr hbit (hlv k hk)⟩

end

/-- Settles O19: an arrival leaves the state as it is while a fibre of the set is missing; the last one completes its barrier, or the sort of its core,
and after it no fibre of the set stands there. -/
theorem barrierAndSortResults : Obligations.BarrierAndSortResults := by
  unfold Obligations.BarrierAndSortResults
  refine ⟨?_, ?_⟩
  · intro s fk x b g h hc hwf bk coreOf hcore hin hcores mate waits
    refine ⟨fun hready ⟨m, y, ⟨hm, hmb, hne⟩, hmc⟩ => ?_, fun hat hw => ?_, fun hat hw => ?_⟩
    · exact first_waits h hc hwf hcore hcores (fun k y hy hk hne => hready k y ⟨hy, hk, hne⟩) ⟨⟨y, hm⟩, hmb, hne, hmc⟩
    · exact ⟨_, exec_bar h, bar_completes h.fib hc hwf (fun k y hy hk hne => hat k y ⟨hy, hk, hne⟩) hw⟩
    · refine ⟨_, exec_barCl h, barCl_completes h.fib hc hwf hcore (fun k y hy hk hne => ?_) hin fun k y hy hk hcl => ?_⟩
      · have hst := hat k y ⟨hy, hk, hne⟩
        split at hst
        · next hcl => exact hst.1.trans (if_pos hcl).symm
        · next hcl => exact hst.trans (if_neg hcl).symm
      · by_cases hfk : k = fk
        · exact hfk ▸ hw
        · exact ((if_pos hcl).mp (hat k y ⟨hy, hk, hfk⟩)).2
  · intro s g fk x b d a m h h1 _ bk gs mask fs hcore hd ha hquiet hbusy hclean hwritten hchunks _ hother key
    exact sort_results h h1 hd ha ⟨hcore, hquiet, hbusy, hclean, hwritten, hchunks, hother⟩

end Sys2Proof.Proofs
end

section
/-!
PROOFS. A Griddle command that is alone (R187, R195, R205): what its end leaves, its bank and its reports outside frames, and how it begins.
-/
namespace Sys2Proof.Proofs
open Sys2Proof Sys2Proof.Machine Sys2Proof.Laws

/-! ### The end of a command (R139, R205) -/

/-- In `t` the command that was `c` when it was alone is under way, and `e` is its block, whose fibres have arrived nowhere. -/
structure AtWork (s : State) (c : Cmd) (e : Block) (t : State) : Prop where
  cmds : ∃ c', t.cmds = [c'] ∧ c'.id = c.id ∧ c'.op = c.op ∧ c'.fill = none
  ops : t.ops = s.ops
  block : t.block? c.bk = some e
  frames : e.frames = []
  idle : Idle t c.bk

/-- Where commands, operations, blocks and fibres are as before, the command is at work. -/
theorem AtWork.step {s t u : State} {c : Cmd} {e : Block} (h : AtWork s c e t) (hc : u.cmds = t.cmds) (ho : u.ops = t.ops) (hb : u.blocks = t.blocks)
    (hi : Loosens t u) : AtWork s c e u :=
  ⟨hc ▸ h.cmds, ho.trans h.ops, by rw [State.block?, hb]; exact h.block, h.frames, hi.idle h.idle⟩

theorem loosens_of_rs {t u : State} (h : u.rs = t.rs) : Loosens t u := fun k y hk => .inr ⟨y, by rwa [State.fib, h] at hk, rfl⟩

/-- The flags of a command change its group's GSW. -/
theorem orGsw_block {t : State} {bk : Nat} {e : Block} (hb : t.block? bk = some e) (hf : e.frames = []) (w : Who) (g fl : Nat) :
    ∃ bl gs, t.orGsw w bk g fl = { t with blocks := bl } ∧ (t.orGsw w bk g fl).block? bk = some { e with groups := gs } := by
  by_cases h0 : fl = 0
  · rw [h0, orGsw_zero]
    exact ⟨t.blocks, e.groups, rfl, hb⟩
  · rw [orGsw_frameless hb hf w g fl h0, block?_updGroup hb g _]
    exact ⟨_, _, rfl, rfl⟩

section
variable {s : State} {c : Cmd} {o : Op} {b : Block} (h : Alone s c o b)
include h

theorem atWork_alone : AtWork s c b s := ⟨⟨c, h.cmds, rfl, rfl, h.own⟩, rfl, h.block, h.frames, idle_of_allReady h.ready⟩

/-- A command that is done leaves its queue and its counter with its flags in the GSW, and nothing else happens. -/
theorem engDone_alone {t : State} {e : Block} (ht : AtWork s c e t) (fl : Nat) :
    ∃ bl gs, t.engDone c fl = { t with blocks := bl, cmds := [], ops := [] } ∧ (t.engDone c fl).block? c.bk = some { e with groups := gs } := by
  obtain ⟨c', hc, hid, hop, hfill⟩ := ht.cmds
  obtain ⟨bl, gs, hor, hblock⟩ := orGsw_block ht.block ht.frames { pc := c.pc, fk := c.fk } c.g fl
  have hfin : (t.orGsw { pc := c.pc, fk := c.fk } c.bk c.g fl).finishCmd c.id = { t with blocks := bl, cmds := [], ops := [] } := by
    rw [← hid, finishCmd_one (by rw [hor]; exact hc) hfill (by rw [hor]; exact ht.ops.trans h.ops) (h.op.trans hop.symm) h.kind h.lanes, hor]
  have hidle : Idle ({ t with blocks := bl, cmds := [], ops := [] } : State) c.bk := ht.idle
  have hdone : t.engDone c fl = { t with blocks := bl, cmds := [], ops := [] } := by rw [State.engDone, hfin, settle_idle hidle]
  refine ⟨bl, gs, hdone, ?_⟩
  rw [hor] at hblock
  rw [hdone]
  exact hblock

omit h in
/-- A fault found after issue waits in the block's reports, with the detail that it names (R333). -/
theorem engReport_alone {t : State} {e : Block} (ht : AtWork s c e t) (hr : e.running = true) (f : FClass) (det : Nat) : ∃ det' n bl,
    (det < 2 ^ 64 → det' = det) ∧ t.engReport c f det = { t with free := n, blocks := bl } ∧
    AtWork s c { e with reports := e.reports ++ [(⟨f.code, c.pc, det', fkG c.fk, fkL c.fk⟩, c.frame)] } (t.engReport c f det) := by
  let r : FaultRec := { code := f.code, pc := c.pc, det := det, grp := fkG c.fk, lane := fkL c.fk }
  obtain ⟨det', n, hname, hdet⟩ : ∃ det' n, t.named r = (⟨f.code, c.pc, det', fkG c.fk, fkL c.fk⟩, { t with free := n }) ∧ (det < 2 ^ 64 → det' = det) := by
    by_cases hd : det = openDet
    · exact ⟨_, _, if_pos hd, fun hlt => absurd hd (Nat.ne_of_lt hlt)⟩
    · exact ⟨det, t.free, if_neg hd, fun _ => rfl⟩
  have hrep : t.engReport c f det = ({ t with free := n } : State).updBlock c.bk fun b =>
      { b with reports := b.reports ++ [(⟨f.code, c.pc, det', fkG c.fk, fkL c.fk⟩, c.frame)] } := by
    rw [State.engReport, State.reportFault, running_not_deaf ht.block hr ht.idle, if_neg Bool.false_ne_true, State.pend, hname]
  refine ⟨det', n, _, hdet, hrep, ?_⟩
  rw [hrep]
  exact ⟨ht.cmds, ht.ops, block?_updBlock_self (s := { t with free := n }) ht.block fun _ => rfl, ht.frames, ht.idle⟩

end

/-! ### Banks outside frames (R187, R314) -/

/-- A state with the bank of a command replaced. -/
def withBank (s : State) (c : Cmd) (y : Bank) : State :=
  { s with eng := { s.eng with banks := sset none s.eng.banks (c.core * 2 + c.sub) (some y) } }

/-- Outside frames nothing is saved before a bank is written (R314). -/
theorem putBank_eq {t : State} {c : Cmd} {e : Block} (hb : t.block? c.bk = some e) (hf : e.frames = []) (y : Bank) : t.putBank c y = withBank t c y := by
  have hsave : t.saveBank c = some t := by
    unfold State.saveBank State.recordExt
    rw [record_frameless hb hf]
    dsimp only
    split
    · rfl
    · exact if_pos rfl
  unfold State.putBank
  rw [hsave]
  rfl

theorem bankAt_withBank (s : State) (c : Cmd) (y : Bank) : (withBank s c y).bankAt c = y := by
  simp only [State.bankAt, withBank, sget_sset_self, Option.getD_some]

theorem bankAt_congr {s t : State} (h : t.eng.banks = s.eng.banks) (c : Cmd) : t.bankAt c = s.bankAt c := by rw [State.bankAt, h, State.bankAt]

theorem AtWork.withBank {s t : State} {c : Cmd} {e : Block} (h : AtWork s c e t) (y : Bank) : AtWork s c e (withBank t c y) :=
  h.step rfl rfl rfl (loosens_of_rs rfl)

end Sys2Proof.Proofs
end

section
/-!
PROOFS. How a Griddle command starts (R147, R187, R195): alone, with a format that Silivo does not define, and behind a command on its bank; and what is left of one that runs.
-/
namespace Sys2Proof.Proofs
open Sys2Proof Sys2Proof.Machine Sys2Proof.Laws

/-- A block that has had an effect is otherwise as it was. -/
theorem effect_block {t : State} {bk : Nat} {e : Block} (hb : t.block? bk = some e) : (t.effect bk).block? bk = some { e with effects := true } := by
  rw [State.effect, block?_updBlock_self hb fun b => by split <;> rfl]
  cases e with
  | mk _ _ _ _ _ _ _ _ _ _ _ _ _ _ _ _ _ _ effects => cases effects <;> rfl

/-- The ring signal of a `gmma` that has read nothing touches no bank, register or memory (R196). -/
theorem gSignal_unread {s t : State} {c : Cmd} {e : Block} (h : AtWork s c e t) (d : Nat) : ∃ x, AtWork s c { e with effects := x } (t.gSignal c d 0) ∧
    (t.gSignal c d 0).eng.banks = t.eng.banks ∧ (t.gSignal c d 0).rs = t.rs ∧ (t.gSignal c d 0).mem = t.mem := by
  unfold State.gSignal
  split
  · exact ⟨e.effects, h, rfl, rfl, rfl⟩
  · obtain ⟨c', hc, hid, hop, hfill⟩ := h.cmds
    simp only [List.take_zero, List.flatMap_nil, List.filter_nil, List.foldl_nil]
    generalize hu : (t.setPermit c.core (gRing d) (gStage d) (some (c.bk, c.g))) = u
    have hcmds : ((u.effect c.bk).updCmd c.id (Cmd.mark 1)).cmds = [c'.mark 1] := hid ▸ cmds_updCmd_one (s := u.effect c.bk) (by rw [← hu]; exact hc) (Cmd.mark 1)
    have hblock : (u.effect c.bk).block? c.bk = some { e with effects := true } := effect_block (by rw [← hu]; exact h.block)
    rw [← hu] at hcmds hblock ⊢
    exact ⟨true, ⟨⟨c'.mark 1, hcmds, hid, hop, hfill⟩, h.ops, hblock, h.frames, h.idle⟩, rfl, rfl, rfl⟩

/-- What follows once no line of a save area is to be written. -/
def saveEnd (cid : Nat) (t : State) : State :=
  match t.cmd? cid with
  | some c => if c.chunks = areaLines ∧ t.putsDone c then (t.saveOut c).engDone c 0 else t
  | none => t

/-- What is left of a running command, by its kind. -/
def griddleRest (c : Cmd) (s : State) : State :=
  match c.kind with
  | .gmma => (gmmaLoop c.id ((gLive c.desc.toNat).length + 1) s).gFinish c.id
  | .gdrain => s.gdrainRun c
  | .gload => s.gloadRun c
  | .gzero => s.gzeroRun c
  | .gstat => s.gstatRun c
  | .gresume => s.gresumeRun c
  | .gsave => saveEnd c.id (areaLoop c.id (s.chunkOf areaLines) s)
  | _ => s

section
variable {s : State} {c : Cmd} {o : Op} {b : Block} (h : Alone s c o b)
include h

/-- What is left of a running command that is alone is done. -/
theorem exec_griddleOpComplete_alone (hstat : c.stat = .running) : exec (.griddleOpComplete c.id) s = .next (griddleRest c s) := by
  rw [show exec (.griddleOpComplete c.id) s = execGriddleOpComplete c.id s from rfl, execGriddleOpComplete]
  simp only [cmd?_alone h, cmdLive_alone h, hstat, bne_self_eq_false, Bool.not_true, Bool.or_self, Bool.false_eq_true, if_false]
  rfl

/-- A queued command that is alone begins. -/
theorem exec_griddleOpStart_alone (hk : c.kind.griddle = true) (hstat : c.stat = .queued) : exec (.griddleOpStart c.id) s = .next (s.gBegin c) := by
  have hearlier : s.gEarlier c = [] := by simp [State.gEarlier, h.cmds]
  rw [show exec (.griddleOpStart c.id) s = execGriddleOpStart c.id s from rfl, execGriddleOpStart]
  simp [cmd?_alone h, cmdLive_alone h, hk, hstat, hearlier]

omit h in
/-- A command of no format that Silivo is asked for runs, a `gmma` from its start. -/
theorem gBegin_known (hemu : gEmuCodes c.kind c.desc.toNat = []) : s.gBegin c =
    if c.kind = .gmma then gmmaLoop c.id s.ch.ahead (s.gmmaStart c) else s.updCmd c.id fun c => { c with stat := .running } := by
  simp only [State.gBegin, hemu, List.find?_nil, List.isEmpty_nil, if_true, ne_eq, ite_not]

omit h in
theorem gEmuCodes_nil (h : (emuFmt (gAfmt c.desc.toNat) = false ∧ emuFmt (gBfmt c.desc.toNat) = false ∧ emuFmt (gOfmt c.desc.toNat) = false) ∨
    c.kind = .gload ∨ c.kind = .gsave ∨ c.kind = .gresume) : gEmuCodes c.kind c.desc.toNat = [] := by
  rcases h with ⟨ha, hb, ho⟩ | hk | hk | hk
  · simp [gEmuCodes, ha, hb, ho]
  all_goals simp [gEmuCodes, hk]

/-- A command other than `gmma` runs, and nothing else happens. -/
theorem start_runs (hk : c.kind.griddle = true) (hm : c.kind ≠ .gmma) (hstat : c.stat = .queued) (hemu : gEmuCodes c.kind c.desc.toNat = []) :
    exec (.griddleOpStart c.id) s = .next (s.updCmd c.id fun c => { c with stat := .running }) := by
  rw [exec_griddleOpStart_alone h hk hstat, gBegin_known hemu, if_neg hm]

/-- A `gmma` without ACC runs on a bank that is prepared (R195). -/
theorem start_gmma (hk : c.kind = .gmma) (hstat : c.stat = .queued) (hemu : gEmuCodes c.kind c.desc.toNat = []) (hres : gResume c.desc.toNat = false)
    (hacc : gAcc c.desc.toNat = false) (hahead : s.ch.ahead = 0) : exec (.griddleOpStart c.id) s =
      .next ((withBank s c ((s.bankAt c).start c.desc.toNat)).updCmd c.id fun c => { c.setChunks 0 with stat := .running }) := by
  rw [exec_griddleOpStart_alone h (by rw [hk]; rfl) hstat, gBegin_known hemu, if_pos hk, hahead]
  simp only [gmmaLoop, State.gmmaStart, hres, hacc, Bool.false_and, Bool.false_eq_true, if_false, putBank_eq h.block h.frames]

/-- A code that Silivo is asked for and does not define ends the command with FM (R147). -/
theorem start_undefined (hk : c.kind = .gmma ∨ c.kind = .gdrain ∨ c.kind = .gzero ∨ c.kind = .gstat) (hstat : c.stat = .queued) {k : Nat}
    (hfind : ([gAfmt c.desc.toNat, gBfmt c.desc.toNat, gOfmt c.desc.toNat].find? fun x => emuFmt x && !(s.host.silivo.contains x)) = some k) :
    ∃ t e, exec (.griddleOpStart c.id) s = .next t ∧ (t.cmds = [] ∧ t.ops = []) ∧ t.eng.banks = s.eng.banks ∧ t.rs.vregs = s.rs.vregs ∧ t.mem = s.mem ∧
      t.block? c.bk = some e ∧ e.reports = b.reports ++ [(⟨12, c.pc, k, fkG c.fk, fkL c.fk⟩, c.frame)] := by
  have hgriddle : c.kind.griddle = true := by rcases hk with hk | hk | hk | hk <;> rw [hk] <;> rfl
  have hcode : ((gEmuCodes c.kind c.desc.toNat).find? fun k => !(s.host.silivo.contains k)) = some k := by
    rw [gEmuCodes, if_pos hk, List.find?_filter]
    simpa using hfind
  have hsmall : k < 2 ^ 64 := by
    have hlt : ∀ lo, bits c.desc.toNat lo 4 < 2 ^ 64 := fun lo => lt_of_lt_of_le (Nat.mod_lt _ (by decide)) (by decide)
    have hmem := List.mem_of_find?_eq_some hfind
    simp only [List.mem_cons, List.not_mem_nil, or_false] at hmem
    rcases hmem with rfl | rfl | rfl
    exacts [hlt 4, hlt 8, hlt 12]
  -- What is reported and completed starts from `u`: the state itself, or, for a `gmma`, the state after the ring signal.
  obtain ⟨u, x, fl, hbegin, hu, hbanks, hrs, hmem⟩ : ∃ u x fl, s.gBegin c = (u.engReport c .fm k).engDone c fl ∧ AtWork s c { b with effects := x } u ∧
      u.eng.banks = s.eng.banks ∧ u.rs = s.rs ∧ u.mem = s.mem := by
    by_cases hm : c.kind = .gmma
    · obtain ⟨x, hx⟩ := gSignal_unread (atWork_alone h) c.desc.toNat
      exact ⟨_, x, c.b, by simp only [State.gBegin, hcode]; rw [if_pos hm]; rfl, hx⟩
    · exact ⟨s, b.effects, 0, by simp only [State.gBegin, hcode]; rw [if_neg hm], atWork_alone h, rfl, rfl, rfl⟩
  obtain ⟨det, n, bl, hdet, hrep, hv⟩ := engReport_alone hu h.runs .fm k
  obtain ⟨bl', gs, hdone, hblock⟩ := engDone_alone h hv fl
  refine ⟨_, _, (exec_griddleOpStart_alone h hgriddle hstat).trans (congrArg _ hbegin), ?_, ?_, ?_, ?_, hblock, ?_⟩
  · rw [hdone]; exact ⟨rfl, rfl⟩
  · rw [hdone, hrep]; exact hbanks
  · rw [hdone, hrep]; exact congrArg _ hrs
  · rw [hdone, hrep]; exact hmem
  · rw [hdet hsmall]; rfl

end

/-- A bank command waits for an earlier one on its bank (R187). -/
theorem start_waits {s : State} {e c : Cmd} (hc : s.cmds = [e, c]) (hid : e.id ≠ c.id) (hcore : e.core = c.core) (hek : e.kind.griddle = true)
    (hes : e.stat ≠ .done) (hstat : c.stat = .queued) (hel : e.kind ≠ .gload) (hcl : c.kind ≠ .gload) (hcs : c.kind ≠ .gsave)
    (hcr : c.kind ≠ .gresume) (hsub : e.sub = c.sub) : exec (.griddleOpStart c.id) s = .next s := by
  have hcmd : s.cmd? c.id = some c := by simp [State.cmd?, hc, hid]
  have hconf : gConflict e c = true := by simp [gConflict, Cmd.onBank, hel, hcl, hsub]
  have hearlier : s.gEarlier c = [e] := by simp [State.gEarlier, hc, hid, hcore, hek, hes, hconf]
  rw [show exec (.griddleOpStart c.id) s = execGriddleOpStart c.id s from rfl, execGriddleOpStart]
  simp [hcmd, hstat, hearlier, hcs, hcr]

end Sys2Proof.Proofs
end

section
/-!
PROOFS. The short bank commands and `gload` (R186, R207, R208, R210): what a bank prepared by `gzero` holds, the status that `gstat` gives, and the bytes that
`gload` copies to a Lid slot.
-/
namespace Sys2Proof.Proofs
open Sys2Proof Sys2Proof.Machine Sys2Proof.Laws

/-! ### gload: bytes put one chunk after another (R207) -/

theorem mputs_append (m : Memory) (a : Nat) (bs cs : List Nat) : mputs m a (bs ++ cs) = mputs (mputs m a bs) (a + bs.length) cs := by
  induction bs generalizing m a with
  | nil => rfl
  | cons b bs ih => rw [List.cons_append, mputs, ih, mputs, List.length_cons, show a + 1 + bs.length = a + (bs.length + 1) by omega]

/-- Chunks of `w` bytes put one behind the other are one run of bytes. -/
theorem foldl_mputs (m : Memory) (base w : Nat) (f : Nat → List Nat) (hf : ∀ i, (f i).length = w) (n : Nat) :
    (List.range n).foldl (fun m i => mputs m (base + w * i) (f i)) m = mputs m base ((List.range n).flatMap f) := by
  induction n with
  | zero => rfl
  | succ n ih =>
    have hlen : ((List.range n).flatMap f).length = w * n := by simp [List.length_flatMap, hf, Nat.mul_comm]
    rw [List.range_succ, List.foldl_append, ih, List.flatMap_append, mputs_append, hlen]
    simp

/-- The words of a `gload`: their number and their place in the source's window. -/
def loadWords (src len : Nat) : List (Nat × Nat) := (span 0 (len / 4)).map fun i => (i, src + 4 * i)

/-- The Lid of a core with the bytes of a source in it. -/
def lidLoaded (s : State) (bk g src len : Nat) (m : Memory) (base : Nat) : Memory := mputs m base ((List.range len).map fun i => s.wget bk g (src + i))

theorem foldl_loadWords (s : State) (bk g src n : Nat) (m : Memory) (base : Nat) :
    (loadWords src (4 * n)).foldl (fun m x => mputs m (base + 4 * x.1) ((span x.2 4).map (s.wget bk g))) m = lidLoaded s bk g src (4 * n) m base := by
  have hchunk : ∀ i, (span (src + 4 * i) 4).map (s.wget bk g) = (List.range 4).map fun j => s.wget bk g (src + (4 * i + j)) := fun i => by
    simp only [span_map_range, Nat.add_assoc]
  have hall : (List.range n).flatMap (fun i => (List.range 4).map fun j => s.wget bk g (src + (4 * i + j))) = (List.range (4 * n)).map fun i => s.wget bk g (src + i) := by
    have h := span_elements 4 0 n fun i => s.wget bk g (src + i)
    have h0 : ∀ k, span 0 k = List.range k := fun k => by simpa using span_map_range 0 k id
    rw [Nat.mul_zero, h0, h0] at h
    exact h.symm
  have hword : loadWords src (4 * n) = (List.range n).map fun i => (i, src + 4 * i) := by
    rw [loadWords, Nat.mul_div_cancel_left n (by decide), span_map_range]
    simp
  rw [hword, List.foldl_map]
  simp only [hchunk]
  rw [foldl_mputs m base 4 _ (fun i => by simp) n, hall, lidLoaded]

theorem mget_lidLoaded (s : State) (bk g src len : Nat) (m : Memory) (base : Nat) :
    (∀ i < len, (mget (lidLoaded s bk g src len m base) (base + i)).toNat = s.wget bk g (src + i)) ∧
    ∀ q, q < base ∨ base + len ≤ q → mget (lidLoaded s bk g src len m base) q = mget m q := by
  refine ⟨fun i hi => ?_, fun q hq => ?_⟩
  · rw [lidLoaded, mget_mputs, if_pos (by simp; omega), Nat.add_sub_cancel_left, List.getD_eq_getElem _ _ (by simpa using hi), BitVec.toNat_ofNat]
    simpa using wget_lt s bk g (src + i)
  · rw [lidLoaded, mget_mputs, if_neg (by simp; omega)]

/-- A word in a range without marks has none (R63). -/
theorem vpois_of_wpois {s : State} {bk g off n a : Nat} (h : s.wpois bk g off n = false) (hoff : off % 4 = 0) (ha : a % 4 = 0) (hlo : off ≤ a) (hhi : a < off + n) :
    s.vpois bk g (a / 256) (a % 256 / 4) = false := by
  unfold State.wpois at h
  rw [List.any_eq_false] at h
  have hw := h (a / 4) (mem_span.2 (by omega))
  rw [show a / 4 / 64 = a / 256 by omega, show a / 4 % 64 = a % 256 / 4 by omega] at hw
  simpa using hw

theorem b2n_mul (p : Bool) (n : Nat) : b2n p * n = if p then n else 0 := by cases p <;> simp [b2n]

/-- The fields of a status word (R210). -/
theorem status_eq (y : Bank) : y.status = (BitVec.ofInt 16 y.w).toNat + (if y.susp then y.kdone * 2 ^ 24 else 0) + (if y.wmode then 2 ^ 41 else 0) +
    (if y.wset then 2 ^ 42 else 0) + (if y.sat then 2 ^ 43 else 0) + (if y.susp then 2 ^ 44 else 0) + (if y.bad then 2 ^ 45 else 0) + y.lastchk * 2 ^ 46 := by
  simp only [Bank.status, unsgn_eq, b2n_mul]

section
variable {s : State} {c : Cmd} {o : Op} {b : Block} (h : Alone s c o b) (hstat : c.stat = .running)
include h hstat

/-- `gzero` prepares the bank (R208). -/
theorem complete_gzero (hk : c.kind = .gzero) : let d := c.desc.toNat; let y := s.bankAt c
    ∃ t, exec (.griddleOpComplete c.id) s = .next t ∧ (t.cmds = [] ∧ t.ops = []) ∧ t.bankAt c =
      { y with cells := [], sat := false, bad := false, susp := false, ent := false, kdone := 0, wmode := gWmode d,
               w := if gWmode d then gW d else y.w, wset := gWmode d } := by
  intro d y
  obtain ⟨bl, gs, hdone, -⟩ := engDone_alone h ((atWork_alone h).withBank { (s.bankAt c).prepare d with susp := false, ent := false, kdone := 0 }) 0
  have hexec : exec (.griddleOpComplete c.id) s = .next (s.gzeroRun c) := by rw [exec_griddleOpComplete_alone h hstat, griddleRest, hk]
  rw [hexec, State.gzeroRun, putBank_eq h.block h.frames, hdone]
  exact ⟨_, rfl, ⟨rfl, rfl⟩, bankAt_withBank s c _⟩

omit h hstat in
/-- A uniform register written for a command leaves it at work. -/
theorem AtWork.setU {t : State} {e : Block} (ht : AtWork s c e t) (w : Who) (g n v : Nat) : AtWork s c e (t.setU w c.bk g n v) := by
  have hset : t.setU w c.bk g n v = _ := setUP_frameless ht.block ht.frames w g n v false
  rw [hset]
  exact (ht.step (u := { t with rs := t.rs.putU (ukOf c.bk g n) v false }) rfl rfl rfl fun _ z hz => .inr ⟨z, hz, rfl⟩).step (State.updFib_cmds ..)
    (State.updFib_ops ..) (State.updFib_blocks ..) (loosens_updFib _ _ _ fun _ => rfl)

/-- `gstat` gives the status word of the bank (R210). -/
theorem complete_gstat {r : Nat} (hk : c.kind = .gstat) (hdu : c.du = some r) : let y := s.bankAt c
    ∃ t, exec (.griddleOpComplete c.id) s = .next t ∧ (t.cmds = [] ∧ t.ops = []) ∧
      t.uraw c.bk c.g r = ((BitVec.ofInt 16 y.w).toNat + (if y.susp then y.kdone * 2 ^ 24 else 0) + (if y.wmode then 2 ^ 41 else 0) +
        (if y.wset then 2 ^ 42 else 0) + (if y.sat then 2 ^ 43 else 0) + (if y.susp then 2 ^ 44 else 0) + (if y.bad then 2 ^ 45 else 0) +
        y.lastchk * 2 ^ 46) % 2 ^ 64 := by
  intro y
  have hexec : exec (.griddleOpComplete c.id) s = .next ((s.setU { pc := c.pc, fk := c.fk } c.bk c.g r y.status).engDone c 0) := by
    rw [exec_griddleOpComplete_alone h hstat, griddleRest, hk]
    simp only [State.gstatRun, hdu, Option.getD_some, y]
  rw [hexec, ← status_eq]
  generalize y.status = v
  obtain ⟨bl, gs, hdone, -⟩ := engDone_alone h ((atWork_alone h).setU { pc := c.pc, fk := c.fk } c.g r v) 0
  rw [hdone]
  exact ⟨_, rfl, ⟨rfl, rfl⟩, (uraw_setUP h.block h.frames _ c.g r v false c.bk c.g r).trans (if_pos rfl)⟩

/-- `gload` copies its source to the slot, which its block holds from then on (R186, R207). -/
theorem complete_gload (hk : c.kind = .gload) :
    let d := c.desc.toNat
    let slot := d / 2 ^ 32 % 16
    let ofs := d / 2 ^ 36 % 2 ^ 17
    let len := d / 2 ^ 64 % 2 ^ 18
    let grp := winGrp (d % 2 ^ 32)
    let src := winOff (d % 2 ^ 32)
    0 < len → len % 16 = 0 → src % 16 = 0 → s.slotTaken c.core slot c.bk = false → src + len ≤ 256 * s.allot c.bk grp → s.wpois c.bk grp src len = false →
    ∃ t, exec (.griddleOpComplete c.id) s = .next t ∧ (t.cmds = [] ∧ t.ops = []) ∧ t.slotHolder c.core slot = c.bk + 1 ∧
      (∀ i < len, (mget t.eng.lid (lidKey c.core (slot * 2 ^ 17 + ofs + i))).toNat = s.wget c.bk grp (src + i)) ∧
      ∀ q, q < lidKey c.core (slot * 2 ^ 17 + ofs) ∨ lidKey c.core (slot * 2 ^ 17 + ofs) + len ≤ q → mget t.eng.lid q = mget s.eng.lid q := by
  intro d slot ofs len grp src hpos hlen hsrc htaken hallot hclean
  have hslot : glSlot d = slot := rfl
  have hofs : glOfs d = ofs := by rw [glOfs, bits]
  have hlend : glLen d = len := by rw [glLen, bits]
  have hgrp : winGrp (glSrc d) = grp := by rw [glSrc, bits, pow_zero, Nat.div_one]
  have hsrcd : winOff (glSrc d) = src := by rw [glSrc, bits, pow_zero, Nat.div_one]
  clear_value slot ofs len grp src
  obtain ⟨n, rfl⟩ : ∃ n, len = 4 * n := ⟨len / 4, by omega⟩
  have hin : ∀ x ∈ loadWords src (4 * n), x.2 % 4 = 0 ∧ src ≤ x.2 ∧ x.2 < src + 4 * n := fun x hx => by
    obtain ⟨i, hi, rfl⟩ := List.mem_map.1 hx
    have := mem_span.1 hi
    dsimp only
    omega
  have hmarked : ∀ x ∈ loadWords src (4 * n), s.vpois c.bk grp (x.2 / 256) (x.2 % 256 / 4) = false := fun x hx =>
    vpois_of_wpois hclean (by omega) (hin x hx).1 (hin x hx).2.1 (hin x hx).2.2
  have hinside : ((loadWords src (4 * n)).find? fun x => decide (256 * s.allot c.bk grp ≤ x.2)) = none := by
    rw [List.find?_eq_none]
    intro x hx
    have := hin x hx
    simp only [decide_eq_true_eq]
    omega
  have hgood : ((loadWords src (4 * n)).filter fun x => !(s.vpois c.bk grp (x.2 / 256) (x.2 % 256 / 4))) = loadWords src (4 * n) :=
    List.filter_eq_self.2 fun x hx => by rw [hmarked x hx]; rfl
  have hany : ((loadWords src (4 * n)).any fun x => s.vpois c.bk grp (x.2 / 256) (x.2 % 256 / 4)) = false :=
    List.any_eq_false.2 fun x hx => by rw [hmarked x hx]; exact Bool.false_ne_true
  have hne : (loadWords src (4 * n)).isEmpty = false := by
    obtain ⟨m, rfl⟩ : ∃ m, n = m + 1 := ⟨n - 1, by omega⟩
    rw [loadWords, Nat.mul_div_cancel_left _ (by decide)]
    rfl
  let t : State := (({ s with eng := { s.eng with lid := lidLoaded s c.bk grp src (4 * n) s.eng.lid (lidKey c.core (slot * 2 ^ 17 + ofs)) } } : State).takeSlot
    c.core slot c.bk).effect c.bk
  have hrun : s.gloadRun c = t.engDone c 0 := by
    have hkey : ∀ i, lidKey c.core (slot * 2 ^ 17 + ofs + 4 * i) = lidKey c.core (slot * 2 ^ 17 + ofs) + 4 * i := fun i => by unfold lidKey; omega
    have hwords := foldl_loadWords s c.bk grp src n s.eng.lid (lidKey c.core (slot * 2 ^ 17 + ofs))
    unfold State.gloadRun
    simp only [show glSlot c.desc.toNat = slot from hslot, show glOfs c.desc.toNat = ofs from hofs, show glLen c.desc.toNat = 4 * n from hlend,
      show winGrp (glSrc c.desc.toNat) = grp from hgrp, show winOff (glSrc c.desc.toNat) = src from hsrcd, htaken, Bool.false_eq_true, if_false, hkey]
    rw [← loadWords]
    simp only [hinside, hgood, hany, hne, hwords, Bool.false_eq_true, if_false]
    rfl
  have hexec : exec (.griddleOpComplete c.id) s = .next (s.gloadRun c) := by rw [exec_griddleOpComplete_alone h hstat, griddleRest, hk]
  have hwork : AtWork s c { b with effects := true } t := ⟨⟨c, h.cmds, rfl, rfl, h.own⟩, rfl, effect_block (t := ({ s with eng := _ } : State).takeSlot c.core slot c.bk) h.block,
    h.frames, idle_of_allReady h.ready⟩
  obtain ⟨bl, gs, hdone, -⟩ := engDone_alone h hwork 0
  obtain ⟨hbytes, hrest⟩ := mget_lidLoaded s c.bk grp src (4 * n) s.eng.lid (lidKey c.core (slot * 2 ^ 17 + ofs))
  refine ⟨_, by rw [hexec, hrun, hdone], ⟨rfl, rfl⟩, ?_, fun i hi => ?_, hrest⟩
  · simp [State.slotHolder, t, State.effect, State.updBlock, State.takeSlot]
  · rw [show lidKey c.core (slot * 2 ^ 17 + ofs + i) = lidKey c.core (slot * 2 ^ 17 + ofs) + i by unfold lidKey; omega]
    exact hbytes i hi

end

end Sys2Proof.Proofs
end

section
/-!
PROOFS. The sums of a `gmma` of one dense chunk under a fixed window (R141 to R143, R190, R191): a term added to a cell, the terms of a step, the steps of the
chunk, and the cells that they leave.
-/
namespace Sys2Proof.Proofs
open Sys2Proof Sys2Proof.Machine Sys2Proof.Laws

/-! ### A term in a cell (R141, R142) -/

/-- A product of significand `v` and exponent `e` in units of the window, truncated toward minus infinity. -/
def termIn (w v e : Int) : Int := if 0 ≤ e - w then v * (2 ^ (e - w).toNat : Nat) else v / (2 ^ (-(e - w)).toNat : Nat)

theorem clampBits_inside {n : Nat} {x : Int} (h : x.natAbs < 2 ^ (n - 1)) : clampBits n x = (x, false) := by
  have hx : (x.natAbs : Int) < (2 ^ (n - 1) : Nat) := by exact_mod_cast h
  unfold clampBits
  dsimp only
  rw [if_neg (by omega), if_neg (by omega)]

theorem addTerm_fin {w v e : Int} {cell : Int × Nat} (h : (cell.1 + termIn w v e).natAbs < 2 ^ 79) :
    addTerm 80 w (.fin v e) cell = ((cell.1 + termIn w v e, cell.2), false) := by
  have hq : v * (2 ^ (e - w).toNat : Nat) / (2 ^ (w - e).toNat : Nat) = termIn w v e := by
    unfold termIn
    split
    · rw [show (w - e).toNat = 0 by omega]; simp
    · rw [show (e - w).toNat = 0 by omega, show -(e - w) = w - e by omega]; simp
  simp only [addTerm, hq, clampBits_inside (n := 80) h]

theorem mul_fin (op : Nat) (v e v' e' : Int) : GEl.mul op (.fin v e) (.fin v' e') = .fin (if op = 1 then -(v * v') else v * v') (e + e') := by
  simp only [GEl.mul, decide_eq_true_eq]

/-! ### The products of a step (R141, R191) -/

theorem cell_add (x : GEl) (k j : Nat) (y : Bank) : (y.add x k).cell j = if j = k then (addTerm 80 y.w x (y.cell k)).1 else y.cell j := by
  simp only [Bank.add, Bank.cell, sget_sset]

theorem add_w (x : GEl) (k : Nat) (y : Bank) : (y.add x k).w = y.w := rfl

/-- Products added in the cells of row `m`, one column after another. -/
theorem foldl_row (f : Nat → GEl) (m n : Nat) (hn : n ≤ 128) (y : Bank) :
    ((List.range n).foldl (fun y j => y.add (f j) (cellKey m j)) y).w = y.w ∧
    ∀ i j, j < 128 → ((List.range n).foldl (fun y j => y.add (f j) (cellKey m j)) y).cell (cellKey i j) =
      if i = m ∧ j < n then (addTerm 80 y.w (f j) (y.cell (cellKey i j))).1 else y.cell (cellKey i j) := by
  induction n with
  | zero => exact ⟨rfl, fun i j _ => (if_neg (by omega)).symm⟩
  | succ n ih =>
    obtain ⟨hw, hc⟩ := ih (by omega)
    rw [List.range_succ, List.foldl_append, List.foldl_cons, List.foldl_nil]
    refine ⟨hw, fun i j hj => ?_⟩
    have hkey : cellKey i j = cellKey m n ↔ i = m ∧ j = n := by unfold cellKey; omega
    rw [cell_add, hw]
    by_cases h : i = m ∧ j = n
    · obtain ⟨rfl, rfl⟩ := h
      rw [if_pos rfl, hc i j hj, if_neg (by omega), if_pos (by omega)]
    · rw [if_neg (mt hkey.1 h), hc i j hj]
      exact if_congr (by omega) rfl rfl

/-- Products added in the cells of `m` rows of `n` columns, row after row. -/
theorem foldl_rows (f : Nat → Nat → GEl) (m n : Nat) (hn : n ≤ 128) (y : Bank) :
    ((List.range m).foldl (fun y i => (List.range n).foldl (fun y j => y.add (f i j) (cellKey i j)) y) y).w = y.w ∧
    ∀ i j, j < n → ((List.range m).foldl (fun y i => (List.range n).foldl (fun y j => y.add (f i j) (cellKey i j)) y) y).cell (cellKey i j) =
      if i < m then (addTerm 80 y.w (f i j) (y.cell (cellKey i j))).1 else y.cell (cellKey i j) := by
  induction m with
  | zero => exact ⟨rfl, fun i j _ => (if_neg (by omega)).symm⟩
  | succ m ih =>
    obtain ⟨hw, hc⟩ := ih
    rw [List.range_succ, List.foldl_append, List.foldl_cons, List.foldl_nil]
    generalize (List.range m).foldl _ y = z at hw hc ⊢
    obtain ⟨hw', hc'⟩ := foldl_row (f m) m n hn z
    refine ⟨hw'.trans hw, fun i j hj => ?_⟩
    rw [hc' i j (by omega), hw, hc i j hj]
    by_cases him : i = m
    · subst him
      rw [if_pos ⟨rfl, hj⟩, if_neg (by omega), if_pos (by omega)]
    · rw [if_neg (by omega)]
      exact if_congr (by omega) rfl rfl

theorem span_zero (n : Nat) : span 0 n = List.range n := by simpa using span_map_range 0 n id

theorem gApply_cells {d : Nat} (hchk : gChk d = false) (as : List (List GEl)) (st : GStep) (y : Bank) : (gApply d as st y).w = y.w ∧
    ∀ m < gM d, ∀ n < gN d, (gApply d as st y).cell (cellKey m n) =
      (addTerm 80 y.w (GEl.mul (gOp d) (atA as m (st.ks.getD n 0)) (st.bs.getD n .nan)) (y.cell (cellKey m n))).1 := by
  have hn : gN d ≤ 128 := Nat.succ_le_of_lt (Nat.mod_lt _ (by decide))
  obtain ⟨hw, hc⟩ := foldl_rows (fun m n => GEl.mul (gOp d) (atA as m (st.ks.getD n 0)) (st.bs.getD n .nan)) (gM d) (gN d) hn y
  unfold gApply
  rw [hchk, span_zero, span_zero]
  exact ⟨hw, fun m hm n hlt => (hc m n hlt).trans (if_pos hm)⟩

/-! ### Steps one after another (R141) -/

/-- Steps without faults, each a group of its own, are all applied. -/
theorem gGroups_single {d : Nat} (hchk : gChk d = false) {as : List (List GEl)} {l : List GStep} (hl : ∀ st ∈ l, gFault d as st = none) {r : GRes}
    (hr : r.fault = none) : (gGroups d as (l.map fun st => [st]) r).fault = none ∧
      (gGroups d as (l.map fun st => [st]) r).bank = l.foldl (fun y st => gApply d as st y) r.bank := by
  induction l generalizing r with
  | nil => exact ⟨hr, rfl⟩
  | cons st l ih =>
    have hone : gGroup d as [st] [st] r = { r with bank := gApply d as st r.bank, dsr := r.dsr || st.dsr, n := r.n + 1 } := by
      simp only [gGroup, hl st (.head _), gColumn, hchk, Bool.not_false, if_true]
    have hnone : (gGroup d as [st] [st] r).fault = none := by rw [hone]; exact hr
    have hstep : gGroups d as ([st] :: l.map fun st => [st]) r = gGroups d as (l.map fun st => [st]) (gGroup d as [st] [st] r) := by rw [gGroups, hnone]
    obtain ⟨hf, hb⟩ := ih (fun x hx => hl x (.tail _ hx)) hnone
    rw [List.map_cons, hstep, List.foldl_cons]
    exact ⟨hf, by rw [hb, hone]⟩

/-- The groups of a list of steps, one step each. -/
theorem groups_of_one {α : Type} (l : List α) : (span 0 (l.length / 1)).map (fun j => (l.drop (1 * j)).take 1) = l.map fun x => [x] := by
  rw [Nat.div_one, span_zero]
  refine List.ext_getElem (by simp) fun i hi hi' => ?_
  have hlt : i < l.length := by simpa using hi'
  simp only [List.getElem_map, List.getElem_range, Nat.one_mul]
  rw [List.drop_eq_getElem_cons hlt]
  rfl

/-- Terms added to a cell that stays in range throughout. -/
theorem foldl_terms {w : Int} (v e : Nat → Int) (n : Nat) (cell : Int × Nat)
    (h : cell.1.natAbs + ((List.range n).map fun k => (termIn w (v k) (e k)).natAbs).sum < 2 ^ 79) :
    (List.range n).foldl (fun x k => (addTerm 80 w (.fin (v k) (e k)) x).1) cell =
      (cell.1 + ((List.range n).map fun k => termIn w (v k) (e k)).sum, cell.2) := by
  suffices hsum : (List.range n).foldl (fun x k => (addTerm 80 w (.fin (v k) (e k)) x).1) cell =
      (cell.1 + ((List.range n).map fun k => termIn w (v k) (e k)).sum, cell.2) ∧
      (cell.1 + ((List.range n).map fun k => termIn w (v k) (e k)).sum).natAbs ≤
        cell.1.natAbs + ((List.range n).map fun k => (termIn w (v k) (e k)).natAbs).sum from hsum.1
  induction n with
  | zero => simp
  | succ n ih =>
    simp only [List.range_succ, List.map_append, List.map_singleton, List.sum_append, List.sum_singleton] at h ⊢
    obtain ⟨hfold, hle⟩ := ih (by omega)
    rw [List.foldl_append, hfold, List.foldl_cons, List.foldl_nil, addTerm_fin (by dsimp only; omega)]
    refine ⟨by rw [add_assoc], by omega⟩

/-! ### A dense chunk of finite elements (R141, R190, R191) -/

/-- A block of one dense chunk without checksums, whose products are added as they come. -/
structure Dense (d : Nat) : Prop where
  op : gOp d ≤ 1
  k : gK d ≤ 32
  chk : gChk d = false
  live : gLken d = false
  s24 : gS24 d = false
  afe : gAfe d = false
  ring : gRgen d = false
  inject : gIen d = false

theorem gLive_dense {d : Nat} (h : Dense d) : gLive d = [0] := by
  have hk : (gK d + 31) / 32 = 1 := by
    have := h.k
    have hpos : 0 < gK d := Nat.succ_pos _
    omega
  rw [gLive, hk, h.live]
  rfl

section
variable {s : State} {c : Cmd} {d : Nat} {va ea vb eb : Nat → Nat → Int} (h : Dense d)
  (hA : ∀ m < gM d, ∀ k < gK d, s.gA c d m k = .fin (va m k) (ea m k)) (hB : ∀ k < gK d, ∀ n < gN d, (s.gB c d k n k).1 = .fin (vb k n) (eb k n))

/-- The elements of A that a chunk reads, row by row. -/
def chunkA (s : State) (c : Cmd) (d : Nat) : List (List GEl) := (List.range (gM d)).map fun m => (List.range (gK d)).map fun i => s.gA c d m i

theorem atA_chunkA {m k : Nat} (hm : m < gM d) (hk : k < gK d) : atA (chunkA s c d) m k = s.gA c d m k := by
  simp [atA, chunkA, hm, hk]

/-- Step `t` of the chunk reads column `n`'s stored element `t` for logical `t` (R191). -/
theorem gStep_dense (hs : gS24 d = false) (t : Nat) : (s.gStep c d 0 0 t).ks = (List.range (gN d)).map (fun _ => t) ∧
    (s.gStep c d 0 0 t).bs = (List.range (gN d)).map (fun n => (s.gB c d t n t).1) ∧
    (s.gStep c d 0 0 t).fault = ((List.range (gN d)).map fun n => s.gB c d t n t).findSome? fun x => x.1.failure := by
  have hpos : ∀ n, s.gPos c d 0 t n = .ok t := fun n => by rw [State.gPos, hs]; rfl
  have hpos' : (List.range (gN d)).map (s.gPos c d 0 t) = (List.range (gN d)).map fun _ => .ok t := List.map_congr_left fun n _ => hpos n
  have hbs : (List.range (gN d)).map (fun n => s.gB c d (gPer d * 0 + t) n (32 * 0 + ((List.range (gN d)).map fun _ => t).getD n 0)) =
      (List.range (gN d)).map fun n => s.gB c d t n t := List.map_congr_left fun n hn => by
    rw [List.getD_eq_getElem _ _ (by simpa using hn)]
    simp
  have hnone : ((List.range (gN d)).map fun _ => (Except.ok t : Except (FClass × Nat) Nat)).findSome? (fun x => match x with
      | .error e => some e
      | .ok _ => none) = none := by simp
  unfold State.gStep
  simp only [span_zero, hpos', List.map_map, Function.comp_def, hbs]
  refine ⟨trivial, trivial, ?_⟩
  have hmatch : ∀ (x y : Option (FClass × Nat)), x = none → (match x with | some e => some e | none => y) = y := fun x y hx => by rw [hx]
  exact hmatch _ _ hnone

include h hA hB

theorem gFault_dense {t : Nat} (ht : t < gK d) : gFault d (chunkA s c d) (s.gStep c d 0 0 t) = none := by
  obtain ⟨hks, -, hfault⟩ := gStep_dense (s := s) (c := c) h.s24 t
  have hb : (s.gStep c d 0 0 t).fault = none := by
    rw [hfault, List.findSome?_eq_none_iff]
    intro x hx
    obtain ⟨n, hn, rfl⟩ := List.mem_map.1 hx
    rw [hB t ht n (List.mem_range.1 hn)]
    rfl
  rw [gFault, hb]
  dsimp only
  rw [span_zero, List.findSome?_eq_none_iff]
  intro m hm
  rw [List.findSome?_eq_none_iff]
  intro k hk
  rw [hks] at hk
  obtain ⟨n, -, rfl⟩ := List.mem_map.1 hk
  rw [atA_chunkA (List.mem_range.1 hm) ht, hA m (List.mem_range.1 hm) t ht]
  rfl

/-- What product `k` of cell (m, n) adds to it. -/
def denseTerm (d : Nat) (w : Int) (va ea vb eb : Nat → Nat → Int) (m n k : Nat) : Int :=
  termIn w (if gOp d = 1 then -(va m k * vb k n) else va m k * vb k n) (ea m k + eb k n)

/-- The chunk adds to each cell its products, where none saturates. -/
theorem gChunk_dense {y : Bank} (hw : y.wmode = true)
    (hsmall : ∀ m < gM d, ∀ n < gN d, (y.cell (cellKey m n)).1.natAbs + ((List.range (gK d)).map fun k => (denseTerm d y.w va ea vb eb m n k).natAbs).sum < 2 ^ 79) :
    (s.gChunk c d 0 0 y).fault = none ∧ ∀ m < gM d, ∀ n < gN d, (s.gChunk c d 0 0 y).bank.cell (cellKey m n) =
      ((y.cell (cellKey m n)).1 + ((List.range (gK d)).map (denseTerm d y.w va ea vb eb m n)).sum, (y.cell (cellKey m n)).2) := by
  have hwidth : gWidth d 0 = gK d := by
    have := h.k
    simp only [gWidth]
    omega
  have hnote : ∀ ea eb, ((y.window ea eb).noteW).cells = y.cells ∧ ((y.window ea eb).noteW).w = y.w := fun ea eb => by
    simp only [Bank.window, hw, if_true, Bank.noteW]
    split <;> exact ⟨rfl, rfl⟩
  obtain ⟨x, hx, hchunk⟩ : ∃ x : Bank, (x.cells = y.cells ∧ x.w = y.w) ∧ s.gChunk c d 0 0 y =
      gGroups d (chunkA s c d) (((List.range (gK d)).map fun t => s.gStep c d 0 0 t).map fun st => [st]) { bank := x, dsr := false, n := 0, fault := none } := by
    unfold State.gChunk
    dsimp only
    generalize maxExpo (List.flatMap _ (span 0 (gM d))) = x
    generalize maxExpo _ = z
    refine ⟨_, hnote x z, ?_⟩
    rw [h.s24, if_neg Bool.false_ne_true, groups_of_one]
    simp only [gSteps, h.s24, Bool.false_eq_true, if_false, hwidth, span_zero, Nat.mul_zero, Nat.zero_add, chunkA]
  have hfault : ∀ st ∈ (List.range (gK d)).map fun t => s.gStep c d 0 0 t, gFault d (chunkA s c d) st = none := fun st hst => by
    obtain ⟨t, ht, rfl⟩ := List.mem_map.1 hst
    exact gFault_dense h hA hB (List.mem_range.1 ht)
  obtain ⟨hnone, hbank⟩ := gGroups_single h.chk hfault (r := { bank := x, dsr := false, n := 0, fault := none }) rfl
  rw [← hchunk] at hnone hbank
  refine ⟨hnone, fun m hm n hn => ?_⟩
  have hcell : x.cell (cellKey m n) = y.cell (cellKey m n) := by rw [Bank.cell, hx.1, Bank.cell]
  -- The cell's terms, step by step.
  have hsteps : ∀ k ≤ gK d, ((((List.range k).map fun t => s.gStep c d 0 0 t).foldl (fun y st => gApply d (chunkA s c d) st y) x).w = y.w) ∧
      (((List.range k).map fun t => s.gStep c d 0 0 t).foldl (fun y st => gApply d (chunkA s c d) st y) x).cell (cellKey m n) =
        (List.range k).foldl (fun z k => (addTerm 80 y.w (.fin (if gOp d = 1 then -(va m k * vb k n) else va m k * vb k n) (ea m k + eb k n)) z).1)
          (y.cell (cellKey m n)) := by
    intro k hk
    induction k with
    | zero => exact ⟨hx.2, hcell⟩
    | succ k ih =>
      obtain ⟨hw', hc'⟩ := ih (by omega)
      rw [List.range_succ, List.map_append, List.foldl_append, List.foldl_append]
      obtain ⟨hks, hbs, -⟩ := gStep_dense (s := s) (c := c) h.s24 k
      obtain ⟨haw, hac⟩ := gApply_cells h.chk (chunkA s c d) (s.gStep c d 0 0 k) (((List.range k).map fun t => s.gStep c d 0 0 t).foldl
        (fun y st => gApply d (chunkA s c d) st y) x)
      refine ⟨haw.trans hw', ?_⟩
      simp only [List.map_singleton, List.foldl_cons, List.foldl_nil]
      rw [hac m hm n hn, hw', hc', hks, hbs, List.getD_eq_getElem _ _ (by simpa using hn), List.getD_eq_getElem _ _ (by simpa using hn), List.getElem_map,
        List.getElem_map, List.getElem_range, atA_chunkA hm (by omega), hA m hm k (by omega), hB k (by omega) n hn, mul_fin]
  rw [hbank, (hsteps (gK d) le_rfl).2]
  exact foldl_terms _ _ _ _ (hsmall m hm n hn)

end

/-! ### A `gmma` of one chunk (R195, R205) -/

/-- The command after `n` chunks, the last of which came to `r`. -/
def chunkDone (n : Nat) (r : GRes) (c : Cmd) : Cmd := { c.setChunks n with b := c.b ||| (if r.dsr then fDSR else 0) ||| (if r.bank.satop then fSAT else 0) }

/-- The only chunk of a block is processed, and its bank put. -/
theorem gmmaLoop_dense {t : State} {c : Cmd} (hc : t.cmd? c.id = some c) (hzero : c.chunks = 0) (hd : Dense c.desc.toNat)
    (hfault : (t.gChunk c c.desc.toNat 0 0 (t.bankAt c)).fault = none) (fuel : Nat) : gmmaLoop c.id (fuel + 1) t =
      gmmaLoop c.id fuel ((t.putBank c (t.gChunk c c.desc.toNat 0 0 (t.bankAt c)).bank).updCmd c.id (chunkDone 1 (t.gChunk c c.desc.toNat 0 0 (t.bankAt c)))) := by
  have hsignal : ∀ (t : State) (n : Nat), t.gSignal c c.desc.toNat n = t := fun t n => by rw [State.gSignal, hd.ring]; rfl
  have hinject : ∀ y, t.gInject c c.desc.toNat y = y := fun y => by simp [State.gInject, hd.inject]
  rw [gmmaLoop]
  simp only [hc, hzero, gLive_dense hd, List.getElem?_cons_zero, hd.afe, Bool.false_and, Bool.false_eq_true, if_false, hfault, hinject, hsignal, ite_self]
  rfl

/-- No chunk is left. -/
theorem gmmaLoop_done {t : State} {cid : Nat} {c : Cmd} (hc : t.cmd? cid = some c) (hlive : (gLive c.desc.toNat)[c.chunks]? = none) (fuel : Nat) :
    gmmaLoop cid fuel t = t := by
  cases fuel with
  | zero => rfl
  | succ fuel =>
    rw [gmmaLoop]
    simp only [hc, hlive]

section
variable {s : State} {c : Cmd} {o : Op} {b : Block} (h : Alone s c o b)
include h

/-- A `gmma` whose only chunk has no fault leaves that chunk's bank, and completes. -/
theorem complete_gmma (hk : c.kind = .gmma) (hstat : c.stat = .running) (hprog : c.prog = []) (hd : Dense c.desc.toNat)
    (hfault : (s.gChunk c c.desc.toNat 0 0 (s.bankAt c)).fault = none) :
    ∃ t, exec (.griddleOpComplete c.id) s = .next t ∧ (t.cmds = [] ∧ t.ops = []) ∧
      ∀ k, (t.bankAt c).cell k = (s.gChunk c c.desc.toNat 0 0 (s.bankAt c)).bank.cell k := by
  have hzero : c.chunks = 0 := by rw [Cmd.chunks, hprog]; rfl
  have hloop := gmmaLoop_dense (cmd?_alone h) hzero hd hfault (gLive c.desc.toNat).length
  generalize s.gChunk c c.desc.toNat 0 0 (s.bankAt c) = r at hloop ⊢
  rw [putBank_eq h.block h.frames] at hloop
  let c1 := chunkDone 1 r c
  have hprog1 : c1.prog = [(0, 1)] := by simp only [c1, chunkDone, Cmd.setChunks, hprog]; rfl
  have hone : c1.chunks = 1 := by rw [Cmd.chunks, hprog1]; rfl
  let u : State := { withBank s c r.bank with cmds := [c1] }
  have hu : (withBank s c r.bank).updCmd c.id (chunkDone 1 r) = u :=
    congrArg (fun l => { withBank s c r.bank with cmds := l }) (cmds_updCmd_one (s := withBank s c r.bank) h.cmds (chunkDone 1 r))
  have hcmd : u.cmd? c.id = some c1 := cmd?_one (c := c1) rfl
  have hlive : gLive c1.desc.toNat = [0] := gLive_dense hd
  rw [hu, gmmaLoop_done hcmd (by rw [hlive, hone]; rfl)] at hloop
  -- The comparison is skipped, and leaves LASTCHK 0.
  let c2 := c1.mark 2
  let y : Bank := { u.bankAt c1 with lastchk := 0 }
  let v : State := { withBank u c1 y with cmds := [c2] }
  have hcompare : u.gCompare c1 c1.desc.toNat = v := by
    have hsignal : ∀ t : State, t.gSignal c1 c1.desc.toNat (gLive c1.desc.toNat).length = t := fun t => by
      rw [State.gSignal, show gRgen c1.desc.toNat = false from hd.ring]; rfl
    have hmark : (withBank u c1 y).updCmd c1.id (Cmd.mark 2) = v :=
      congrArg (fun l => { withBank u c1 y with cmds := l }) (cmds_updCmd_one (s := withBank u c1 y) (c := c1) rfl (Cmd.mark 2))
    rw [State.gCompare, show gChk c1.desc.toNat = false from hd.chk]
    simp only [Bool.not_false, if_true, hsignal, putBank_eq (t := u) (c := c1) h.block h.frames]
    exact hmark
  have hfinish : u.gFinish c.id = v.engDone c c2.b := by
    have hcmp : c1.compared = false := by rw [Cmd.compared, hprog1]; rfl
    have hcmd2 : v.cmd? c.id = some c2 := cmd?_one (c := c2) rfl
    rw [State.gFinish]
    simp only [hcmd, hone, hlive, List.length_singleton, ne_eq, not_true, if_false, hcmp, Bool.false_eq_true]
    rw [hcompare]
    simp only [hcmd2]
    rfl
  have hexec : exec (.griddleOpComplete c.id) s = .next (v.engDone c c2.b) := by
    rw [exec_griddleOpComplete_alone h hstat, griddleRest, hk, ← hfinish, ← hloop]
  have hwork : AtWork s c b v := ⟨⟨c2, rfl, rfl, rfl, h.own⟩, rfl, h.block, h.frames, idle_of_allReady h.ready⟩
  obtain ⟨bl, gs, hdone, -⟩ := engDone_alone h hwork c2.b
  refine ⟨_, hexec.trans (congrArg _ hdone), ⟨rfl, rfl⟩, fun k => ?_⟩
  have hbank : v.bankAt c = { r.bank with lastchk := 0 } := by
    rw [show v.bankAt c = (withBank u c y).bankAt c from rfl, bankAt_withBank]
    show { (withBank s c r.bank).bankAt c with lastchk := 0 } = _
    rw [bankAt_withBank]
  rw [show ({ v with blocks := bl, cmds := [], ops := [] } : State).bankAt c = v.bankAt c from rfl, hbank]
  rfl

end

end Sys2Proof.Proofs
end

section
/-!
PROOFS. What a `gmma` of one dense chunk leaves in the cells (R141, R190, R191): the products of finite elements, and, for INT8, of the bytes of A and B.
-/
namespace Sys2Proof.Proofs
open Sys2Proof Sys2Proof.Machine Sys2Proof.Laws

/-! ### INT8 elements (R190, R191) -/

theorem gScaled_one (n e : Int) : gScaled (.fin n e) 0x7F = .fin n e := by
  rw [gScaled, if_neg (by decide)]
  exact congrArg _ (by norm_num)

/-- An INT8 element of A in an unmarked word of the allotment. -/
theorem gA_int8 {s : State} {c : Cmd} {d m k : Nat} (hf : gAfmt d = 3) (hs : gSca d = false)
    (hr : winOff (gAbase d) / 256 + 2 * (k / 4) + m / 64 < s.allot c.bk (winGrp (gAbase d)))
    (hp : s.vpois c.bk (winGrp (gAbase d)) (winOff (gAbase d) / 256 + 2 * (k / 4) + m / 64) (m % 64) = false) :
    s.gA c d m k = .fin (sgn 8 (s.vraw c.bk (winGrp (gAbase d)) (winOff (gAbase d) / 256 + 2 * (k / 4) + m / 64) (m % 64) / 256 ^ (k % 4) % 256)) 0 := by
  have hwide : fmtWide (gAfmt d) = false := by rw [hf]; rfl
  have hreg : gAreg d m k = winOff (gAbase d) / 256 + 2 * (k / 4) + m / 64 := by simp only [gAreg, gAdiv, hwide, Bool.false_eq_true, if_false]
  have hword : s.gWord c.bk (winGrp (gAbase d)) (gAreg d m k) (m % 64) =
      .ok (s.vraw c.bk (winGrp (gAbase d)) (winOff (gAbase d) / 256 + 2 * (k / 4) + m / 64) (m % 64)) := by
    rw [hreg, State.gWord, if_neg (Nat.not_le.2 hr), hp, if_neg Bool.false_ne_true]
  have hscale : s.gScale c (gSca d) (gAsBase d) (gAbsel d) (k / 32) m = .ok 0x7F := by rw [hs]; rfl
  have hbits : ∀ w, bits w (8 * (k % 4)) 8 = w / 256 ^ (k % 4) % 256 := fun w => by rw [bits, pow_mul]; norm_num
  rw [State.gA, hword, hscale]
  simp only [hf, hbits, show fmtWide 3 = false from rfl, Bool.false_eq_true, if_false]
  exact gScaled_one _ 0

/-- An INT8 element of B in the Lid. -/
theorem gB_int8 {s : State} {c : Cmd} {d k n : Nat} (hf : gBfmt d = 3) (hs : gScb d = false) (hk : k < 1024) :
    (s.gB c d k n k).1 = .fin (sgn 8 (mget s.eng.lid (lidKey c.core (gBslot d * 2 ^ 17 + 1024 * n + k))).toNat) 0 := by
  have hsize : gBsize d = 1 := by rw [gBsize, hf]; rfl
  have hcode : s.gBcode c d k n = (mget s.eng.lid (lidKey c.core (gBslot d * 2 ^ 17 + 1024 * n + k))).toNat := by
    simp only [State.gBcode, gKs, hsize, Nat.div_one, Nat.div_eq_of_lt hk, Nat.mod_eq_of_lt hk, span, List.map_cons, List.map_nil, ofNats, ofBytes,
      Nat.add_zero, Nat.one_mul, Nat.mul_zero, BitVec.ofNat_toNat, BitVec.setWidth_eq]
  have hscale : s.gScale c (gScb d) (gBsBase d) (gBbsel d) (k / 32) n = .ok 0x7F := by rw [hs]; rfl
  rw [State.gB, hscale]
  simp only [hcode, hf]
  exact gScaled_one _ 0

theorem sgn8_bound (x : Nat) : (sgn 8 x).natAbs ≤ 128 := by
  have := Nat.mod_lt x (show 0 < 2 ^ 8 by decide)
  unfold sgn
  split <;> omega

section
variable {s : State} {c : Cmd} {o : Op} {b : Block} (h : Alone s c o b) (hstat : c.stat = .running)
include h hstat

/-- Finite elements of any formats: each cell takes its products, each truncated under the window. -/
theorem complete_gmma_finite (hk : c.kind = .gmma) (hprog : c.prog = []) (hd : Dense c.desc.toNat) (hw : (s.bankAt c).wmode = true)
    {va ea vb eb : Nat → Nat → Int} (hA : ∀ m < gM c.desc.toNat, ∀ k < gK c.desc.toNat, s.gA c c.desc.toNat m k = .fin (va m k) (ea m k))
    (hB : ∀ k < gK c.desc.toNat, ∀ n < gN c.desc.toNat, (s.gB c c.desc.toNat k n k).1 = .fin (vb k n) (eb k n)) :
    let d := c.desc.toNat
    let y := s.bankAt c
    (∀ m < gM d, ∀ n < gN d, (y.cell (cellKey m n)).1.natAbs + ((List.range (gK d)).map fun k => (denseTerm d y.w va ea vb eb m n k).natAbs).sum < 2 ^ 79) →
    ∃ t, exec (.griddleOpComplete c.id) s = .next t ∧ (t.cmds = [] ∧ t.ops = []) ∧ ∀ m < gM d, ∀ n < gN d, (t.bankAt c).cell (cellKey m n) =
      ((y.cell (cellKey m n)).1 + ((List.range (gK d)).map (denseTerm d y.w va ea vb eb m n)).sum, (y.cell (cellKey m n)).2) := by
  intro d y hsmall
  obtain ⟨hfault, hcells⟩ := gChunk_dense hd hA hB hw hsmall
  obtain ⟨t, hexec, hends, hbank⟩ := complete_gmma h hk hstat hprog hd hfault
  exact ⟨t, hexec, hends, fun m hm n hn => (hbank _).trans (hcells m hm n hn)⟩

/-- INT8 elements under W = 0: the cells hold the sums of the products of A and B. -/
theorem complete_gmma_int8 (hk : c.kind = .gmma) (hprog : c.prog = []) (hd : Dense c.desc.toNat) (hop : gOp c.desc.toNat = 0) (hfa : gAfmt c.desc.toNat = 3)
    (hfb : gBfmt c.desc.toNat = 3) (hsa : gSca c.desc.toNat = false) (hsb : gScb c.desc.toNat = false) (hcells : (s.bankAt c).cells = [])
    (hw : (s.bankAt c).w = 0) (hwm : (s.bankAt c).wmode = true) :
    let d := c.desc.toNat
    let grp := winGrp (gAbase d)
    let a := fun (m k : Nat) => s.vraw c.bk grp (winOff (gAbase d) / 256 + 2 * (k / 4) + m / 64) (m % 64) / 256 ^ (k % 4) % 256
    let col := fun (k n : Nat) => (mget s.eng.lid (lidKey c.core (gBslot d * 2 ^ 17 + 1024 * n + k))).toNat
    (∀ m < gM d, ∀ k < gK d, let r := winOff (gAbase d) / 256 + 2 * (k / 4) + m / 64
      r < s.allot c.bk grp ∧ s.vpois c.bk grp r (m % 64) = false) →
    ∃ t, exec (.griddleOpComplete c.id) s = .next t ∧ (t.cmds = [] ∧ t.ops = []) ∧
      ∀ m < gM d, ∀ n < gN d, (t.bankAt c).cell (128 * m + n) =
        (((List.range (gK d)).map fun k => (BitVec.ofNat 8 (a m k)).toInt * (BitVec.ofNat 8 (col k n)).toInt).sum, 0) := by
  intro d grp a col hread
  have hzero : ∀ k, (s.bankAt c).cell k = (0, 0) := fun k => by rw [Bank.cell, hcells]; rfl
  have hterm : ∀ m n k, denseTerm c.desc.toNat 0 (fun m k => sgn 8 (a m k)) (fun _ _ => 0) (fun k n => sgn 8 (col k n)) (fun _ _ => 0) m n k =
      sgn 8 (a m k) * sgn 8 (col k n) := fun m n k => by
    simp [denseTerm, termIn, hop]
  have hsum : ∀ m n k, ((List.range k).map fun k => (sgn 8 (a m k) * sgn 8 (col k n)).natAbs).sum ≤ k * 16384 := fun m n k => by
    induction k with
    | zero => simp
    | succ k ih =>
      have hmul : (sgn 8 (a m k) * sgn 8 (col k n)).natAbs ≤ 128 * 128 := by
        rw [Int.natAbs_mul]
        exact Nat.mul_le_mul (sgn8_bound _) (sgn8_bound _)
      rw [List.range_succ, List.map_append, List.sum_append, List.map_singleton, List.sum_singleton]
      omega
  obtain ⟨t, hexec, hends, hbank⟩ := complete_gmma_finite h hstat hk hprog hd hwm (va := fun m k => sgn 8 (a m k)) (ea := fun _ _ => 0)
    (vb := fun k n => sgn 8 (col k n)) (eb := fun _ _ => 0) (fun m hm k hk => gA_int8 hfa hsa (hread m hm k hk).1 (hread m hm k hk).2)
    (fun k hk n hn => gB_int8 hfb hsb (by have := hd.k; omega)) (fun m hm n hn => by
      have hle := hsum m n (gK c.desc.toNat)
      have hk := hd.k
      simp only [hzero, hw, hterm, Int.natAbs_zero, Nat.zero_add]
      omega)
  refine ⟨t, hexec, hends, fun m hm n hn => (hbank m hm n hn).trans ?_⟩
  simp only [hzero, hw]
  rw [show denseTerm c.desc.toNat 0 (fun m k => sgn 8 (a m k)) (fun _ _ => 0) (fun k n => sgn 8 (col k n)) (fun _ _ => 0) m n =
    fun k => sgn 8 (a m k) * sgn 8 (col k n) from funext (hterm m n), zero_add]
  simp only [sgn_eq]
  rfl

end

end Sys2Proof.Proofs
end

section
/-!
PROOFS. `gdrain` of a bank (R144, R206): its words in the registers, their granules full, and the report of a bank that is in error.
-/
namespace Sys2Proof.Proofs
open Sys2Proof Sys2Proof.Machine Sys2Proof.Laws

/-! ### Words put in a window (R115) -/

/-- The bytes of a value, one by one. -/
theorem getD_natBytes (n v i : Nat) : (natBytes n v).getD i 0 = if i < n then v / 256 ^ i % 256 else 0 := by
  induction n generalizing v i with
  | zero => rfl
  | succ n ih =>
    have hcons : natBytes (n + 1) v = v % 256 :: natBytes n (v / 256) := by simp [natBytes, byteNats, bytesOf]
    rw [hcons]
    cases i with
    | zero => simp
    | succ i => rw [List.getD_cons_succ, ih, Nat.div_div_eq_div_mul, pow_succ']; exact if_congr (by omega) rfl rfl

/-- A register's lane word in a register store. -/
def regWord (rs : RegSt) (bk g r l : Nat) : Nat := (sget 0 (sget [] rs.vregs (rkOf bk g r)) l).toNat

theorem vraw_eq (s : State) (bk g r l : Nat) : s.vraw bk g r l = regWord s.rs bk g r l := rfl

theorem regWord_bytes (rs : RegSt) (bk g r : Nat) {l : Nat} (hl : l < 64) : let x := 256 * r + 4 * l
    regWord rs bk g r l = regByte rs bk g x + 256 * regByte rs bk g (x + 1) + 65536 * regByte rs bk g (x + 2) + 16777216 * regByte rs bk g (x + 3) := by
  intro x
  have hbyte : ∀ i < 4, regByte rs bk g (x + i) = regWord rs bk g r l / 256 ^ i % 256 := fun i hi => by
    rw [regByte, show (x + i) / 256 = r by omega, show (x + i) % 256 / 4 = l by omega, show (x + i) % 4 = i by omega, regWord]
  have hlt : regWord rs bk g r l < 2 ^ 32 := BitVec.isLt _
  have h0 := hbyte 0 (by decide)
  have h1 := hbyte 1 (by decide)
  have h2 := hbyte 2 (by decide)
  have h3 := hbyte 3 (by decide)
  simp only [Nat.add_zero] at h0
  omega

/-- A word put into a window is read from its register and lane, and from no other. -/
theorem regWord_putBytes (rs : RegSt) (bk g r q v : Nat) {l k : Nat} (hl : l < 64) (hk : k < 64) :
    regWord (rs.putBytes bk g (256 * r + 4 * l) (natBytes 4 v)) bk g q k = if q = r ∧ k = l then v % 2 ^ 32 else regWord rs bk g q k := by
  have hbyte : ∀ i < 4, regByte (rs.putBytes bk g (256 * r + 4 * l) (natBytes 4 v)) bk g (256 * q + 4 * k + i) =
      if q = r ∧ k = l then v / 256 ^ i % 256 else regByte rs bk g (256 * q + 4 * k + i) := fun i hi => by
    rw [regByte_putBytes, length_natBytes, getD_natBytes]
    by_cases hqk : q = r ∧ k = l
    · rw [if_pos hqk, if_pos (by omega), if_pos (by omega), show 256 * q + 4 * k + i - (256 * r + 4 * l) = i by omega, Nat.mod_mod]
    · rw [if_neg hqk, if_neg (by omega)]
  have h0 := hbyte 0 (by decide)
  rw [Nat.add_zero] at h0
  rw [regWord_bytes _ _ _ _ hk, h0, hbyte 1 (by decide), hbyte 2 (by decide), hbyte 3 (by decide), regWord_bytes rs bk g q hk]
  split
  · omega
  · rfl

section
variable {s : State} {c : Cmd} {b : Block}

theorem allot_congr {s t : State} (hb : t.blocks = s.blocks) (bk g : Nat) : t.allot bk g = s.allot bk g := by
  simp only [State.allot, State.group, State.block?, hb]

/-- The state after a command's writes to registers: it is at work, and its bank, the blocks and the full bits are as they were. -/
structure Puts (s : State) (c : Cmd) (b : Block) (t : State) : Prop where
  work : AtWork s c b t
  banks : t.eng.banks = s.eng.banks
  blocks : t.blocks = s.blocks

/-- Bytes of a drain inside the allotment. -/
theorem winDeliver_puts {t : State} (ht : Puts s c b t) {g off : Nat} {bs : List Nat} (hin : off + bs.length ≤ 256 * s.allot c.bk g) :
    ∃ vp fs, t.winDeliver c c.bk g off bs = { t with rs := { t.rs with vregs := (t.rs.putBytes c.bk g off bs).vregs, vpoison := vp, fibres := fs } } ∧
      Puts s c b (t.winDeliver c c.bk g off bs) := by
  obtain ⟨vp, fs, hput, hloose⟩ := wput_frameless ht.work.block ht.work.frames { pc := c.pc, fk := c.fk } g off bs
  have hholds : t.winHolds c.bk g off bs.length = true := by
    rw [State.winHolds, allot_congr ht.blocks]
    exact decide_eq_true hin
  rw [State.winDeliver, hholds, if_pos rfl]
  exact ⟨vp, fs, hput, ht.work.step (by rw [hput]) (by rw [hput]) (by rw [hput]) hloose, by rw [hput]; exact ht.banks, by rw [hput]; exact ht.blocks⟩

/-- A word of a drain inside the allotment. -/
theorem winDeliver_word {t : State} (ht : Puts s c b t) {g r l : Nat} (hr : r < s.allot c.bk g) (hl : l < 64) (v : Nat) :
    Puts s c b (t.winDeliver c c.bk g (256 * r + 4 * l) (natBytes 4 v)) ∧
    ∀ q k, k < 64 → (t.winDeliver c c.bk g (256 * r + 4 * l) (natBytes 4 v)).vraw c.bk g q k = if q = r ∧ k = l then v % 2 ^ 32 else t.vraw c.bk g q k := by
  obtain ⟨vp, fs, hput, hputs⟩ := winDeliver_puts ht (g := g) (off := 256 * r + 4 * l) (bs := natBytes 4 v) (by rw [length_natBytes]; omega)
  refine ⟨hputs, fun q k hk => ?_⟩
  have hword : ∀ q k, (t.winDeliver c c.bk g (256 * r + 4 * l) (natBytes 4 v)).vraw c.bk g q k =
      regWord (t.rs.putBytes c.bk g (256 * r + 4 * l) (natBytes 4 v)) c.bk g q k := fun q k => by rw [hput, vraw_eq, regWord, regWord]
  rw [hword, regWord_putBytes t.rs c.bk g r q v hl hk, vraw_eq]

/-- The words of a drain, one after another. -/
def drainPuts (c : Cmd) (g : Nat) (ws : List (Nat × Nat × Nat × Nat)) (t : State) : State :=
  ws.foldl (fun s x => s.winDeliver c c.bk g (256 * x.1 + 4 * x.2.1) (natBytes 4 x.2.2.1)) t

theorem puts_drainPuts {g : Nat} {ws : List (Nat × Nat × Nat × Nat)} (hin : ∀ x ∈ ws, x.1 < s.allot c.bk g ∧ x.2.1 < 64) {t : State} (ht : Puts s c b t) :
    Puts s c b (drainPuts c g ws t) := by
  induction ws generalizing t with
  | nil => exact ht
  | cons x ws ih =>
    obtain ⟨hr, hl⟩ := hin x (.head _)
    exact ih (fun y hy => hin y (.tail _ hy)) (winDeliver_word ht hr hl _).1

/-- A lane word for which a drain has one value holds it afterwards. -/
theorem vraw_drainPuts {g r l v : Nat} (hl : l < 64) {ws : List (Nat × Nat × Nat × Nat)} (hin : ∀ x ∈ ws, x.1 < s.allot c.bk g ∧ x.2.1 < 64)
    (hval : ∀ x ∈ ws, r = x.1 → l = x.2.1 → x.2.2.1 % 2 ^ 32 = v) {t : State} (ht : Puts s c b t)
    (hv : (∃ x ∈ ws, r = x.1 ∧ l = x.2.1) ∨ t.vraw c.bk g r l = v) : (drainPuts c g ws t).vraw c.bk g r l = v := by
  induction ws generalizing t with
  | nil => exact hv.resolve_left (by simp)
  | cons x ws ih =>
    obtain ⟨hr, hxl⟩ := hin x (.head _)
    obtain ⟨hputs, hword⟩ := winDeliver_word ht hr hxl x.2.2.1
    refine ih (fun y hy => hin y (.tail _ hy)) (fun y hy => hval y (.tail _ hy)) hputs ?_
    rw [hword r l hl]
    by_cases hx : r = x.1 ∧ l = x.2.1
    · exact .inr ((if_pos hx).trans (hval x (.head _) hx.1 hx.2))
    · rw [if_neg hx]
      refine hv.imp_left fun ⟨y, hy, hkey⟩ => ?_
      rcases List.mem_cons.1 hy with rfl | hy
      · exact absurd hkey hx
      · exact ⟨y, hy, hkey⟩

/-! ### The granules of a drain (R113, R206) -/

/-- Granules that are filled while no lane waits: nothing but full bits changes, and each of them is full. -/
theorem fillAt_fold {g : Nat} {os : List Nat} (hos : ∀ a ∈ os, a % 16 = 0) {t : State} (hq : NoWaiters t) :
    ∃ fe, os.foldl (fun s a => s.fillAt (.win c.bk g a) 16) t = { t with rs := { t.rs with fe := fe } } ∧
      ∀ a, a ∈ os ∨ t.granFull c.bk g a = true → (os.foldl (fun s a => s.fillAt (.win c.bk g a) 16) t).granFull c.bk g a = true := by
  induction os generalizing t with
  | nil => exact ⟨t.rs.fe, rfl, fun a ha => ha.resolve_left (by simp)⟩
  | cons x os ih =>
    have hx := hos x (.head _)
    have hframe := setFulls_frame hx t c.bk g true
    have hset : NoWaiters (t.setFulls c.bk g x 1 true) := by rw [hframe]; exact hq
    obtain ⟨fe, hfold, hfull⟩ := ih (fun a ha => hos a (.tail _ ha)) hset
    rw [List.foldl_cons, fillAt_win hq c.bk g hx]
    refine ⟨fe, by rw [hfold, hframe], fun a ha => hfull a ?_⟩
    rcases ha with ha | ha
    · rcases List.mem_cons.1 ha with rfl | ha
      · exact .inr (by rw [granFull_setFulls hx hx, if_pos rfl])
      · exact .inl ha
    · exact .inr (granFull_fill hx t c.bk g c.bk g a ha)

theorem vfull_granFull (s : State) (bk g r : Nat) {j : Nat} (hj : j < 16) : s.vfull bk g r j = s.granFull bk g (256 * r + 16 * j) := by
  rw [State.granFull, show (256 * r + 16 * j) / 256 = r by omega, show (256 * r + 16 * j) % 256 / 16 = j by omega]

end

/-! ### The drain of a bank (R206) -/

/-- The words of a drain: word `j` of row `m` has value `v m j` and flags `f m j`. -/
def drainRows (d n : Nat) (v f : Nat → Nat → Nat) : List (Nat × Nat × Nat × Nat) :=
  (span 0 (gM d)).flatMap fun m => (span 0 n).map fun j => (winOff (gObase d) / 256 + 2 * j + m / 64, m % 64, v m j, f m j)

theorem mem_drainRows {d n : Nat} {v f : Nat → Nat → Nat} {x : Nat × Nat × Nat × Nat} : x ∈ drainRows d n v f ↔
    ∃ m < gM d, ∃ j < n, x = (winOff (gObase d) / 256 + 2 * j + m / 64, m % 64, v m j, f m j) := by
  simp only [drainRows, List.mem_flatMap, List.mem_map, mem_span, Nat.zero_le, Nat.zero_add, true_and, eq_comm]

theorem drainWords_word {d : Nat} {y : Bank} (h : gOfmt d = 2 ∨ gOfmt d = 5) : drainWords d y = drainRows d (gN d)
    (fun m n => (drainCell (gOfmt d) y.w (y.cell (cellKey m n))).1) (fun m n => (drainCell (gOfmt d) y.w (y.cell (cellKey m n))).2) := by
  have h0 : gOfmt d ≠ 0 := by omega
  have h1 : gOfmt d ≠ 1 := by omega
  simp [drainWords, drainRows, gOreg, h0, h1]

theorem drainWords_half {d : Nat} {y : Bank} (h : gOfmt d ≤ 1) : drainWords d y = drainRows d ((gN d + 1) / 2)
    (fun m j => (drainCell (gOfmt d) y.w (y.cell (cellKey m (2 * j)))).1 +
      (if 2 * j + 1 < gN d then drainCell (gOfmt d) y.w (y.cell (cellKey m (2 * j + 1))) else (0, 0)).1 * 2 ^ 16)
    (fun m j => (drainCell (gOfmt d) y.w (y.cell (cellKey m (2 * j)))).2 |||
      (if 2 * j + 1 < gN d then drainCell (gOfmt d) y.w (y.cell (cellKey m (2 * j + 1))) else (0, 0)).2) := by
  have h01 : gOfmt d = 0 ∨ gOfmt d = 1 := by omega
  have hhalf : (gOfmt d == 0 || gOfmt d == 1) = true := by simpa using h01
  unfold drainWords drainRows gOreg
  simp only [hhalf, h01, if_true, Nat.mul_div_cancel_left _ (show 0 < 2 by decide)]

theorem drained_zero (y : Bank) (k : Nat) : Bank.cell { y with cells := [], sat := false, bad := false, wset := y.wmode } k = (0, 0) := rfl

section
variable {s : State} {c : Cmd} {o : Op} {b : Block} (h : Alone s c o b) (hstat : c.stat = .running)
include h hstat

theorem exec_gdrain (hk : c.kind = .gdrain) : exec (.griddleOpComplete c.id) s = .next (s.gdrainRun c) := by
  rw [exec_griddleOpComplete_alone h hstat, griddleRest, hk]

/-- A bank in error is reported and drains nothing. -/
theorem complete_gdrain_bad (hk : c.kind = .gdrain) (hbad : (s.bankAt c).bad = true) :
    ∃ t e, exec (.griddleOpComplete c.id) s = .next t ∧ (t.cmds = [] ∧ t.ops = []) ∧ t.rs.vregs = s.rs.vregs ∧ t.block? c.bk = some e ∧
      ∃ det, e.reports = b.reports ++ [(⟨12, c.pc, det, fkG c.fk, fkL c.fk⟩, c.frame)] := by
  obtain ⟨det, n, bl, -, hrep, hwork⟩ := engReport_alone (atWork_alone h) h.runs .fm openDet
  obtain ⟨bl', gs, hdone, hblock⟩ := engDone_alone h hwork 0
  have hrun : s.gdrainRun c = (s.engReport c .fm openDet).engDone c 0 := by
    simp only [State.gdrainRun, hbad, Bool.true_or, if_true]
  refine ⟨_, _, (exec_gdrain h hstat hk).trans (congrArg _ hrun), ?_, ?_, hblock, det, rfl⟩
  · rw [hdone]; exact ⟨rfl, rfl⟩
  · rw [hdone, hrep]

omit hstat in
/-- The words of a drain are in their lanes and their granules are full before its bank is written. -/
theorem gdrainRun_rows (hbad : (s.bankAt c).bad = false) (hill : gdrainIll c.desc.toNat = false) {n : Nat} {v f : Nat → Nat → Nat}
    (hrows : drainWords c.desc.toNat (s.bankAt c) = drainRows c.desc.toNat n v f) :
    let d := c.desc.toNat
    let grp := winGrp (gObase d)
    let reg := fun (m j : Nat) => winOff (gObase d) / 256 + 2 * j + m / 64
    (∀ m < gM d, ∀ j < n, reg m j < s.allot c.bk grp) → ∃ w fl, AtWork s c { b with effects := true } w ∧ w.bankAt c = s.bankAt c ∧
      (∀ m < gM d, ∀ j < n, w.vraw c.bk grp (reg m j) (m % 64) = v m j % 2 ^ 32 ∧ w.vfull c.bk grp (reg m j) (m % 64 / 4) = true) ∧
      s.gdrainRun c = (if gZad d then w.putBank c { s.bankAt c with cells := [], sat := false, bad := false, wset := (s.bankAt c).wmode } else w).engDone c fl := by
  intro d grp reg hreg
  have hin : ∀ x ∈ drainRows d n v f, x.1 < s.allot c.bk grp ∧ x.2.1 < 64 := fun x hx => by
    obtain ⟨m, hm, j, hj, rfl⟩ := mem_drainRows.1 hx
    exact ⟨hreg m hm j hj, Nat.mod_lt _ (by decide)⟩
  have hm128 : gM d ≤ 128 := by
    have : bits d 16 7 < 2 ^ 7 := Nat.mod_lt _ (by decide)
    unfold gM
    omega
  -- The words are put, then their granules are filled, then the bank is written.
  have hputs := puts_drainPuts hin (t := s) ⟨atWork_alone h, rfl, rfl⟩
  have hword : ∀ m < gM d, ∀ j < n, (drainPuts c grp (drainRows d n v f) s).vraw c.bk grp (reg m j) (m % 64) = v m j % 2 ^ 32 := fun m hm j hj =>
    vraw_drainPuts (Nat.mod_lt _ (by decide)) hin (fun x hx hr hl => by
      obtain ⟨m', hm', j', hj', rfl⟩ := mem_drainRows.1 hx
      simp only [reg] at hr hl ⊢
      obtain ⟨rfl, rfl⟩ : m = m' ∧ j = j' := by omega
      rfl) ⟨atWork_alone h, rfl, rfl⟩ (.inl ⟨_, mem_drainRows.2 ⟨m, hm, j, hj, rfl⟩, rfl, rfl⟩)
  generalize hu : drainPuts c grp (drainRows d n v f) s = u at hputs hword
  let os := (((drainRows d n v f).filter fun x => decide (x.1 < u.allot c.bk grp)).map fun x => 256 * x.1 + 16 * (x.2.1 / 4)).dedup
  have hos : ∀ a ∈ os, a % 16 = 0 := fun a ha => by
    obtain ⟨x, -, rfl⟩ := List.mem_map.1 (List.mem_dedup.1 ha)
    omega
  have heff : AtWork s c { b with effects := true } (u.effect c.bk) :=
    ⟨hputs.work.cmds, hputs.work.ops, effect_block hputs.work.block, hputs.work.frames, hputs.work.idle⟩
  have hquiet : NoWaiters (u.effect c.bk) := by unfold NoWaiters; rw [heff.ops]; exact quiet_alone h
  obtain ⟨fe, hfold, hfull⟩ := fillAt_fold (c := c) (g := grp) hos hquiet
  generalize hw : os.foldl (fun s a => s.fillAt (.win c.bk grp a) 16) (u.effect c.bk) = w at hfold hfull
  have hwork : AtWork s c { b with effects := true } w := heff.step (by rw [hfold]) (by rw [hfold]) (by rw [hfold]) (by rw [hfold]; exact fun k y hy => .inr ⟨y, hy, rfl⟩)
  have hbank : w.bankAt c = s.bankAt c := bankAt_congr (by rw [hfold]; exact hputs.banks) c
  have hrun : s.gdrainRun c = (if gZad d then w.putBank c { s.bankAt c with cells := [], sat := false, bad := false, wset := (s.bankAt c).wmode } else w).engDone c
      ((drainRows d n v f).foldl (fun m x => m ||| x.2.2.2) 0) := by
    simp only [← hw, os, ← hu, State.gdrainRun, hbad, show gdrainIll c.desc.toNat = false from hill, Bool.or_self, Bool.false_eq_true, if_false, hrows]
    rfl
  refine ⟨w, _, hwork, hbank, fun m hm j hj => ⟨by rw [← hword m hm j hj, hfold]; rfl, ?_⟩, hrun⟩
  rw [vfull_granFull _ _ _ _ (by omega)]
  refine hfull _ (.inl (List.mem_dedup.2 (List.mem_map.2 ⟨_, List.mem_filter.2 ⟨mem_drainRows.2 ⟨m, hm, j, hj, rfl⟩, decide_eq_true ?_⟩, rfl⟩)))
  rw [allot_congr hputs.blocks]
  exact hreg m hm j hj

/-- Each word of a drain is in its lane, its granule is full, and the cells stay or, with ZAD, are zero. -/
theorem complete_gdrain_rows (hk : c.kind = .gdrain) (hbad : (s.bankAt c).bad = false) (hill : gdrainIll c.desc.toNat = false) {n : Nat} {v f : Nat → Nat → Nat}
    (hrows : drainWords c.desc.toNat (s.bankAt c) = drainRows c.desc.toNat n v f) :
    let d := c.desc.toNat
    let grp := winGrp (gObase d)
    let reg := fun (m j : Nat) => winOff (gObase d) / 256 + 2 * j + m / 64
    (∀ m < gM d, ∀ j < n, reg m j < s.allot c.bk grp) →
    ∃ t, exec (.griddleOpComplete c.id) s = .next t ∧ (t.cmds = [] ∧ t.ops = []) ∧ (∀ m < gM d, ∀ j < n,
      t.vraw c.bk grp (reg m j) (m % 64) = v m j % 2 ^ 32 ∧ t.vfull c.bk grp (reg m j) (m % 64 / 4) = true) ∧
      ∀ k, (t.bankAt c).cell k = if gZad d then (0, 0) else (s.bankAt c).cell k := by
  intro d grp reg hreg
  obtain ⟨w, fl, hwork, hbank, hfill, hrun⟩ := gdrainRun_rows h hbad hill hrows hreg
  have hexec := (exec_gdrain h hstat hk).trans (congrArg _ hrun)
  by_cases hz : gZad d = true
  · rw [if_pos hz, putBank_eq hwork.block hwork.frames] at hexec
    obtain ⟨bl, gs, hdone, -⟩ := engDone_alone h (hwork.withBank { s.bankAt c with cells := [], sat := false, bad := false, wset := (s.bankAt c).wmode }) fl
    refine ⟨_, hexec.trans (congrArg _ hdone), ⟨rfl, rfl⟩, hfill, fun k => ?_⟩
    rw [if_pos hz]
    exact (congrArg (fun y : Bank => y.cell k) (bankAt_withBank w c _)).trans (drained_zero (s.bankAt c) k)
  · rw [if_neg hz] at hexec
    obtain ⟨bl, gs, hdone, -⟩ := engDone_alone h hwork fl
    refine ⟨_, hexec.trans (congrArg _ hdone), ⟨rfl, rfl⟩, hfill, fun k => ?_⟩
    rw [if_neg hz, ← hbank]
    rfl

omit h hstat in
theorem gdrainIll_false {d : Nat} (hresv : gResv d = false) (hop : gOp d ≤ 1) (hfmt : gOfmt d = 0 ∨ gOfmt d = 1 ∨ gOfmt d = 2 ∨ gOfmt d = 5) : gdrainIll d = false := by
  have hop' : ¬ 1 < gOp d := Nat.not_lt.2 hop
  rcases hfmt with hf | hf | hf | hf <;> simp [gdrainIll, hresv, hop', hf]

/-- `gdrain` to FP32 or INT32: a word for each cell. -/
theorem complete_gdrain_word (hk : c.kind = .gdrain) (hfmt : gOfmt c.desc.toNat = 2 ∨ gOfmt c.desc.toNat = 5) :
    let d := c.desc.toNat
    let y := s.bankAt c
    let grp := winGrp (gObase d)
    let reg := fun (m n : Nat) => winOff (gObase d) / 256 + 2 * n + m / 64
    y.bad = false → gResv d = false → gOp d ≤ 1 → (∀ m < gM d, ∀ n < gN d, reg m n < s.allot c.bk grp) →
    ∃ t, exec (.griddleOpComplete c.id) s = .next t ∧ (t.cmds = [] ∧ t.ops = []) ∧ (∀ m < gM d, ∀ n < gN d,
      t.vraw c.bk grp (reg m n) (m % 64) = (drainCell (gOfmt d) y.w (y.cell (cellKey m n))).1 % 2 ^ 32 ∧
      t.vfull c.bk grp (reg m n) (m % 64 / 4) = true) ∧ ∀ k, (t.bankAt c).cell k = if gZad d then (0, 0) else y.cell k := by
  intro d y grp reg hbad hresv hop hreg
  exact complete_gdrain_rows h hstat hk hbad (gdrainIll_false hresv hop (.inr (.inr hfmt))) (drainWords_word hfmt) hreg

/-- `gdrain` to BF16 or FP16: two cells to a word. -/
theorem complete_gdrain_half (hk : c.kind = .gdrain) (hfmt : gOfmt c.desc.toNat ≤ 1) :
    let d := c.desc.toNat
    let y := s.bankAt c
    let grp := winGrp (gObase d)
    let reg := fun (m j : Nat) => winOff (gObase d) / 256 + 2 * j + m / 64
    let half := fun (m n : Nat) => (drainCell (gOfmt d) y.w (y.cell (cellKey m n))).1
    y.bad = false → gResv d = false → gOp d ≤ 1 → (∀ m < gM d, ∀ j, 2 * j < gN d → reg m j < s.allot c.bk grp) →
    ∃ t, exec (.griddleOpComplete c.id) s = .next t ∧ (t.cmds = [] ∧ t.ops = []) ∧ ∀ m < gM d, ∀ j, 2 * j < gN d →
      t.vraw c.bk grp (reg m j) (m % 64) = (half m (2 * j) + if 2 * j + 1 < gN d then half m (2 * j + 1) * 2 ^ 16 else 0) % 2 ^ 32 ∧
      t.vfull c.bk grp (reg m j) (m % 64 / 4) = true := by
  intro d y grp reg half hbad hresv hop hreg
  obtain ⟨t, hexec, hends, hwords, -⟩ := complete_gdrain_rows h hstat hk hbad (gdrainIll_false hresv hop (by omega)) (drainWords_half hfmt)
    fun m hm j hj => hreg m hm j (show 2 * j < gN c.desc.toNat by omega)
  refine ⟨t, hexec, hends, fun m hm j hj => ?_⟩
  obtain ⟨hraw, hfull⟩ := hwords m hm j (show j < (gN d + 1) / 2 by omega)
  refine ⟨hraw.trans ?_, hfull⟩
  by_cases hj1 : 2 * j + 1 < gN d
  · rw [if_pos hj1, if_pos hj1]
  · rw [if_neg hj1, if_neg hj1, Nat.zero_mul]

end

end Sys2Proof.Proofs
end

section
/-!
PROOFS. A store of a whole line by a command of a block outside frames (R78, R100, R237).
-/
namespace Sys2Proof.Proofs
open Sys2Proof Sys2Proof.Machine Sys2Proof.Laws

/-- The value of a line stands at `pa`, and every other byte is as before. -/
structure LineAt (m : MemSt) (pa v : Nat) (n : MemSt) : Prop where
  regions : n.regions = m.regions
  stages : n.stages = m.stages
  homeB : ∀ a, n.homeB a = if pa ≤ a ∧ a < pa + 128 then (natBytes 128 v).getD (a - pa) 0 else m.homeB a

/-- A line that is made zero. -/
theorem zeroTgt_line (s : State) (core : Nat) {pa mt : Nat} (hmt : mt ≤ 1) (hline : pa % 128 = 0) :
    ∃ m, s.zeroTgt core false (.mem pa mt) = { s with mem := m } ∧ LineAt s.mem pa 0 m := by
  have hmt2 : mt ≠ 2 := by omega
  have hbyte : ∀ i, (natBytes 128 0).getD i 0 = 0 := fun i => by rw [getD_natBytes]; simp
  have hin : ∀ a, (pa ≤ a ∧ a < pa + 128) ↔ a / 128 = pa / 128 := fun a => by omega
  refine ⟨_, rfl, ?_, ?_, fun a => ?_⟩
  · split <;> rfl
  · split <;> rfl
  · rw [hbyte, if_congr (hin a) rfl rfl]
    by_cases hcond : mt = 2 ∨ (false || s.noCache pa) = true ∧ (s.mem.tag (pa / 128)).isNone = true
    · rw [if_pos hcond]
      have htag : s.mem.tag (pa / 128) = none := Option.isNone_iff_eq_none.1 (hcond.resolve_left hmt2).2
      show (s.mem.dramZero (pa / 128)).homeB a = _
      by_cases ha : a / 128 = pa / 128
      · rw [if_pos ha, MemSt.homeB, (dramZero_above s.mem _).tag, ha, htag]
        exact (dramB_dramZero _ _ _).trans (if_pos ha)
      · rw [if_neg ha]
        exact (dramZero_above s.mem _).homeB fun _ => by rw [dramB_dramZero, if_neg ha]
    · rw [if_neg hcond]
      exact MemSt.homeB_homeZero s.mem _ a

/-- A store of a whole line; one of zeros is as `stz`. -/
theorem writeMasked_line (s : State) (w : Who) (core : Nat) {pa mt : Nat} (hmt : mt ≤ 1) (hline : pa % 128 = 0) (v : Nat) :
    ∃ m, s.writeMasked w core false (.mem pa mt) 128 v (fullMask 128) = { s with mem := m } ∧ LineAt s.mem pa v m := by
  have hmt2 : mt ≠ 2 := by omega
  have hlen := length_natBytes 128 v
  by_cases hv : v = 0
  · obtain ⟨m, hz, hm⟩ := zeroTgt_line s core hmt hline
    subst hv
    exact ⟨m, by rw [State.writeMasked, if_pos ⟨rfl, rfl, rfl⟩, hz], hm⟩
  · have hrun : runsOf (fullMask 128) 0 (natBytes 128 v) = [(0, natBytes 128 v)] := by
      refine runsOf_run (fun e => by rw [e] at hlen; cases hlen) fun k hk => ?_
      rw [hlen] at hk
      rw [bit_eq, fullMask, Nat.testBit_two_pow_sub_one]
      simpa using hk
    have hwrite : s.writeMasked w core false (.mem pa mt) 128 v (fullMask 128) = s.writeTgt core false (.mem pa mt) (natBytes 128 v) := by
      rw [State.writeMasked, if_neg (fun hc => hv hc.2.1), hrun]
      rfl
    obtain ⟨hr, hs⟩ := homeStore_frame s.mem (false || s.noCache pa) pa (natBytes 128 v)
    refine ⟨_, hwrite.trans (if_neg hmt2), hr, hs, fun a => ?_⟩
    have hb := homeB_homeStore s.mem (false || s.noCache pa) pa (natBytes 128 v) a (by rw [hlen]; omega)
    rw [hlen] at hb
    refine Eq.trans ?_ (hb.trans (if_congr Iff.rfl ?_ rfl))
    · rfl
    · refine Nat.mod_eq_of_lt ?_
      rw [getD_natBytes]
      split <;> omega

/-- A command under no other operation waits for no store of its fibre (R75). -/
theorem ownStore_first {s t : State} {c : Cmd} {bk : Nat} {b : Block} (h : Carries s bk b t) (hops : ∀ o ∈ s.ops, ¬ o.id < c.op) (p n : Nat) :
    t.ownStore c p n = false := by
  unfold State.ownStore
  rw [h.ops, List.any_eq_false]
  intro o ho
  simp [hops o ho]

section
variable {s t : State} {c : Cmd} {b : Block} (h : Carries s c.bk b t) (hb : s.block? c.bk = some b) (hf : b.frames = []) (hp : Plain s c.bk)
include h hb hf hp

/-- A line stored for a command of a block outside frames. -/
theorem storeAt_line {pa mt : Nat} (hmt : mt ≤ 1) (hline : pa % 128 = 0) (q v scope : Nat) :
    ∃ w u, t.storeAt c (.mem pa mt) q 128 v scope = some (w, u) ∧ Carries s c.bk b u ∧ (∀ a, u.mem.homeB a =
      if pa ≤ a ∧ a < pa + 128 then (natBytes 128 v).getD (a - pa) 0 else t.mem.homeB a) ∧ u.rs.vregs = t.rs.vregs ∧ u.eng = t.eng ∧ u.cmds = t.cmds := by
  obtain ⟨e, he⟩ := h.block
  have hlog : t.logConv c.bk q 128 (fullMask 128) (.mem pa mt) = some t := by simp only [State.logConv, he, hf, List.all_nil, if_true]
  have hren : t.renMask c.bk q 128 = 0 := by simp [State.renMask, h.renames hb hp]
  obtain ⟨m, hwrite, hm⟩ := writeMasked_line t { pc := c.pc, fk := c.fk } c.core hmt hline v
  have hg : t.gwrite { pc := c.pc, fk := c.fk } c.bk c.core false (.mem pa mt) q 128 v (fullMask 128) = { t with mem := m } := by
    rw [State.gwrite, show (Tgt.mem pa mt).isWin = false from rfl, if_neg Bool.false_ne_true, hren, Nat.zero_and, ← hwrite]
    rfl
  have hcx : Carries s c.bk b { t with mem := m } := h.step rfl rfl rfl rfl rfl hm.regions hm.stages fun _ y hy => .inr ⟨y, hy, rfl⟩
  have hce := hcx.effect
  generalize hx : ({ t with mem := m } : State).effect c.bk = x at hce
  obtain ⟨st, hown, hst⟩ := ownView_plain (o := { x.putFor c q 128 v scope (.mem pa mt) .done with id := c.op }) hce.stages (hce.snapOf hb hp)
    { engLane c.fk with ptr := q, tgt := .mem pa mt } q 128 v (fullMask 128)
  generalize hz : ({ x with mem := { x.mem with stages := st } } : State) = z at hown
  have hcz : Carries s c.bk b z := by
    rw [← hz]
    exact ⟨hce.ch, hce.ops, hce.launches, hce.block, hce.host, hce.regions, fun y hy => hce.stages y (hst y hy), hce.idle⟩
  obtain ⟨hw, -⟩ := wake_frame z
  unfold OnlyWaiters at hw
  refine ⟨(z.wcts c.core (z.scopeFor c.bk c.core scope) (scope == 0) (.mem pa mt)).1, z.wake, ?_, hcz.wake, fun a => ?_, ?_, ?_, ?_⟩
  · have htouch : t.touch (t.ctxOf c.bk) (.mem pa mt) = t := rfl
    simp only [State.storeAt, htouch, hlog, if_true, hg, hx, hown]
    rfl
  · rw [← hm.homeB a, hw, ← hz, ← hx]
    rfl
  all_goals rw [hw, ← hz, ← hx]; rfl

/-- A line stored at memory that its tables map takes effect at once. -/
theorem engStore_line {p pa mt : Nat} (hchk : t.check (t.ctxOf c.bk) p 128 128 .store false = .ok (.mem pa mt)) (hmt : mt ≤ 1) (hline : pa % 128 = 0)
    (hup : t.memUp pa mt = true) (hown : t.ownStore c p 128 = false) (v scope : Nat) :
    ∃ w u, t.engStore c false p 128 v scope = .ok [] (u.updCmd c.id fun c => { c with wct := max c.wct w }) ∧ Carries s c.bk b u ∧ (∀ a, u.mem.homeB a =
      if pa ≤ a ∧ a < pa + 128 then (natBytes 128 v).getD (a - pa) 0 else t.mem.homeB a) ∧ u.rs.vregs = t.rs.vregs ∧ u.eng = t.eng ∧ u.cmds = t.cmds := by
  obtain ⟨w, u, hs, hu⟩ := storeAt_line h hb hf hp hmt hline p v scope
  refine ⟨w, u, ?_, hu⟩
  have hst : t.stagesAt c.bk p = false := h.staging hb hf hp p
  unfold State.engStore
  simp only [Bool.false_eq_true, if_false, hst, hchk]
  simp only [State.redCheck, State.tgtUp, hup, hown, State.linkDown, hs, Bool.not_true, Bool.or_self, Bool.false_eq_true, if_false]

end

end Sys2Proof.Proofs
end

section
/-!
PROOFS. `gsave` of a bank (R203, R209): the lines of the bank's image one after another, and the end of the command once its writes are performed.
-/
namespace Sys2Proof.Proofs
open Sys2Proof Sys2Proof.Machine Sys2Proof.Laws

/-- Line `i` of the image of a command's bank: the place it goes to and its bytes. -/
def imageLine (s : State) (c : Cmd) (p : Nat → Nat) (i : Nat) : Nat × List Nat := (p i, natBytes 128 ((s.bankAt c).areaLine i))

/-- The first `k` lines of the bank's image are written, and the banks and the registers are as before. -/
structure Saving (s : State) (c : Cmd) (b : Block) (p : Nat → Nat) (k : Nat) (t : State) : Prop where
  carries : Carries s c.bk b t
  bytes : ∀ a, t.mem.homeB a = laid s.mem.homeB (strings (imageLine s c p) k) a
  vregs : t.rs.vregs = s.rs.vregs
  eng : t.eng = s.eng
  cmds : ∃ c', t.cmds = [c'] ∧ SameCmd c c' ∧ c'.chunks = k

theorem areaLoop_end {c : Cmd} {t : State} (hc : t.cmds = [c]) (hk : c.chunks = areaLines) (n : Nat) : areaLoop c.id n t = t := by
  cases n with
  | zero => rfl
  | succ n => rw [areaLoop, cmd?_one hc]; exact if_pos hk

theorem areaLoop_step {c : Cmd} {t u : State} {bs : List Nat} (hc : t.cmds = [c]) (hk : c.chunks ≠ areaLines) {n : Nat}
    (hline : t.engLine c (c.addr + 128 * c.chunks) ((t.bankAt c).areaLine c.chunks) = .ok bs u) :
    areaLoop c.id (n + 1) t = areaLoop c.id n (u.updCmd c.id (Cmd.setChunks (c.chunks + 1))) := by
  rw [areaLoop, cmd?_one hc]
  simp only [if_neg hk, hline]

section
variable {s t : State} {c : Cmd} {b : Block} {p : Nat → Nat} {k : Nat}

/-- The next line of the image. -/
theorem Saving.step (h : Saving s c b p k t) (hw : Works s c b) (hk : k < areaLines)
    (hmap : ∃ mt, Maps s (strings (imageLine s c p) areaLines) (s.ctxOf c.bk) (c.addr + 128 * k) 128 .store (p k) mt) :
    ∃ u, (∀ n, areaLoop c.id (n + 1) t = areaLoop c.id n u) ∧ Saving s c b p (k + 1) u := by
  obtain ⟨c', hc, hsame, hchunks⟩ := h.cmds
  obtain ⟨mt, hmap⟩ := hmap
  have hid : c'.id = c.id := hsame.fields.1
  have haddr : c'.addr = c.addr := by unfold SameCmd at hsame; rw [hsame]
  have hbank : t.bankAt c' = s.bankAt c := by unfold SameCmd at hsame; rw [hsame, State.bankAt, h.eng]; rfl
  have hw' := hw.same hsame
  have hbk : c'.bk = c.bk := hsame.fields.2.1
  have hcarries : Carries s c'.bk b t := hbk ▸ h.carries
  obtain ⟨e, he⟩ := hcarries.block
  have hconv : (t.convOf c'.bk).isNone = true := by simp [State.convOf, he, hw'.frames]
  have hchk : t.check (t.ctxOf c'.bk) (c'.addr + 128 * k) 128 128 .store false = .ok (.mem (p k) mt) := by
    rw [hcarries.ctxOf hw'.block, hbk, haddr]
    exact check_strings h.carries h.bytes hk.le hmap
  have hline := hmap.line
  obtain ⟨w, u, hs, hu, hb, hrs, heng, hcmds⟩ := engStore_line hcarries hw'.block hw'.frames hw'.plain hchk hmap.type (by omega)
    ((h.carries.memUp ..).trans hmap.up) (ownStore_first h.carries hw'.first ..) ((s.bankAt c).areaLine k) 3
  have hstored : (u.updCmd c'.id fun c => { c with wct := max c.wct w }).cmds = [{ c' with wct := max c'.wct w }] :=
    cmds_updCmd_one (hcmds.trans hc) fun c => { c with wct := max c.wct w }
  refine ⟨(u.updCmd c'.id fun c => { c with wct := max c.wct w }).updCmd c'.id (Cmd.setChunks (k + 1)), fun n => ?_, ?_, fun a => ?_, hrs.trans h.vregs,
    heng.trans h.eng, _, cmds_updCmd_one (c := { c' with wct := max c'.wct w }) hstored (Cmd.setChunks (k + 1)), hsame.trans rfl, ?_⟩
  · rw [← hid, areaLoop_step hc (by omega) (by rw [State.engLine, if_pos hconv, hchunks, hbank, hs]), hchunks]
  · exact ((hbk ▸ hu).updCmd _ _).updCmd _ _
  · rw [strings, List.range_succ, List.map_append, List.map_singleton, laid_append]
    refine (hb a).trans ?_
    rw [h.bytes a, imageLine, length_natBytes]
    rfl
  · rw [Cmd.chunks, Cmd.setChunks, sget_sset_self]

/-- The lines that are left, in order. -/
theorem Saving.all (hw : Works s c b)
    (hmap : ∀ i < areaLines, ∃ mt, Maps s (strings (imageLine s c p) areaLines) (s.ctxOf c.bk) (c.addr + 128 * i) 128 .store (p i) mt) {m : Nat}
    (h : Saving s c b p k t) (hm : k + m = areaLines) : Saving s c b p areaLines (areaLoop c.id (m + 1) t) := by
  induction m generalizing k t with
  | zero =>
    obtain ⟨c', hc, hsame, hchunks⟩ := h.cmds
    rw [← hsame.fields.1, areaLoop_end hc (hchunks.trans hm)]
    exact (show k = areaLines from hm) ▸ h
  | succ m ih =>
    obtain ⟨u, hloop, hu⟩ := h.step hw (by omega) (hmap k (by omega))
    rw [hloop]
    exact ih hu (by omega)

end

/-! ### The command (R209) -/

/-- A command that is alone is so while it proceeds. -/
theorem alone_same {s : State} {c c' : Cmd} {o : Op} {b : Block} (h : Alone s c o b) (hc : SameCmd c c') : Alone { s with cmds := [c'] } c' o b := by
  unfold SameCmd at hc
  rw [hc]
  exact ⟨rfl, h.ops, h.op, h.kind, h.owner, h.lanes, h.block, h.runs, h.frames, h.group, h.ready, h.own⟩

theorem saveEnd_one {c : Cmd} {t : State} (hc : t.cmds = [c]) (hk : c.chunks = areaLines) :
    saveEnd c.id t = if t.putsDone c then (t.saveOut c).engDone c 0 else t := by
  rw [saveEnd, cmd?_one hc]
  simp only [hk, true_and]

theorem saveOut_frame (t : State) (c : Cmd) : ∃ l, t.saveOut c = { t with eng := { t.eng with saves := l } } := by
  unfold State.saveOut
  dsimp only
  split
  · exact ⟨_, rfl⟩
  · exact ⟨t.eng.saves, rfl⟩

section
variable {s : State} {c : Cmd} {o : Op} {b : Block} (h : Alone s c o b)
include h

theorem exec_gsave (hstat : c.stat = .running) (hk : c.kind = .gsave) :
    exec (.griddleOpComplete c.id) s = .next (saveEnd c.id (areaLoop c.id (s.chunkOf areaLines) s)) := by
  rw [exec_griddleOpComplete_alone h hstat, griddleRest, hk]

/-- The end of a `gsave` whose command is as `c`. -/
theorem engDone_saved {t : State} {c' : Cmd} (ht : t.cmds = [c']) (hsame : SameCmd c c') (hcarries : Carries s c.bk b t) : ∃ l bl,
    (t.saveOut c').engDone c' 0 = { t with eng := { t.eng with saves := l }, blocks := bl, cmds := [], ops := [] } := by
  obtain ⟨e, he⟩ := hcarries.block
  obtain ⟨l, hl⟩ := saveOut_frame t c'
  have hbk : c'.bk = c.bk := hsame.fields.2.1
  obtain ⟨bl, gs, hdone, -⟩ := engDone_alone (alone_same h hsame) (t := t.saveOut c') (e := { b with effects := e })
    ⟨⟨c', by rw [hl]; exact ht, rfl, rfl, (alone_same h hsame).own⟩, by rw [hl]; exact hcarries.ops, by rw [hl, hbk]; exact he, h.frames, by rw [hl, hbk]; exact hcarries.idle⟩ 0
  exact ⟨l, bl, by rw [hdone, hl]⟩

/-- `gsave` leaves the lines of the bank's image in its area. -/
theorem complete_gsave (hstat : c.stat = .running) (hk : c.kind = .gsave) (hprog : c.prog = []) (hahead : s.ch.ahead = 0) (hp : Plain s c.bk) (p : Nat → Nat)
    (hmap : ∀ i < areaLines, ∃ mt, Maps s (strings (imageLine s c p) areaLines) (s.ctxOf c.bk) (c.addr + 128 * i) 128 .store (p i) mt) :
    ∃ t, exec (.griddleOpComplete c.id) s = .next t ∧ (∀ a, t.mem.homeB a = laid s.mem.homeB (strings (imageLine s c p) areaLines) a) ∧
      t.eng.banks = s.eng.banks ∧ t.rs.vregs = s.rs.vregs := by
  have hstart : Saving s c b p 0 s := ⟨carries_alone h hp, fun _ => rfl, rfl, rfl, c, h.cmds, .refl c, by rw [Cmd.chunks, hprog]; rfl⟩
  have hall := hstart.all (works_alone h hp) hmap (Nat.zero_add areaLines)
  have hchunk : s.chunkOf areaLines = areaLines + 1 := if_pos hahead
  rw [exec_gsave h hstat hk, hchunk]
  generalize areaLoop c.id (areaLines + 1) s = t at hall
  obtain ⟨c', hc, hsame, hchunks⟩ := hall.cmds
  have hbanks : t.eng.banks = s.eng.banks := congrArg EngSt.banks hall.eng
  refine ⟨_, rfl, ?_⟩
  rw [← hsame.fields.1, saveEnd_one hc hchunks]
  split
  · obtain ⟨l, bl, hdone⟩ := engDone_saved h hc hsame hall.carries
    rw [hdone]
    exact ⟨hall.bytes, hbanks, hall.vregs⟩
  · exact ⟨hall.bytes, hbanks, hall.vregs⟩

/-- Once all lines are written a `gsave` completes when its writes are performed, and not before. -/
theorem complete_gsave_written (hstat : c.stat = .running) (hk : c.kind = .gsave) (hchunks : c.chunks = areaLines) :
    (c.wct = 0 ∨ c.wct < s.tickOn (quadOf c.core) → ∃ t, exec (.griddleOpComplete c.id) s = .next t ∧ (t.cmds = [] ∧ t.ops = []) ∧ t.mem = s.mem) ∧
    (0 < c.wct → s.tickOn (quadOf c.core) ≤ c.wct → exec (.griddleOpComplete c.id) s = .next s) := by
  have hdone : s.putsDone c = true ↔ c.wct = 0 ∨ c.wct < s.tickOn (quadOf c.core) := by simp [State.putsDone, h.ops, h.kind]
  rw [exec_gsave h hstat hk, areaLoop_end h.cmds hchunks, saveEnd_one h.cmds hchunks]
  refine ⟨fun hw => ?_, fun hpos hle => ?_⟩
  · obtain ⟨l, hl⟩ := saveOut_frame s c
    obtain ⟨bl, gs, hend, -⟩ := engDone_alone h ((atWork_alone h).step (u := s.saveOut c) (by rw [hl]) (by rw [hl]) (by rw [hl]) (loosens_of_rs (by rw [hl]))) 0
    rw [if_pos (hdone.2 hw), hend, hl]
    exact ⟨_, rfl, ⟨rfl, rfl⟩, rfl⟩
  · rw [if_neg fun hd => ?_]
    have := hdone.1 hd
    omega

end

end Sys2Proof.Proofs
end

section
/-!
PROOFS. The lines of a save area (R203): the fields of each line of a bank's image, and the bank that reading them in order gives.
-/
namespace Sys2Proof.Proofs
open Sys2Proof Sys2Proof.Machine Sys2Proof.Laws

/-! ### Fields of numbers -/

theorem testBit_bits (x lo n i : Nat) : (bits x lo n).testBit i = (decide (i < n) && x.testBit (lo + i)) := by
  rw [bits, Nat.testBit_mod_two_pow, Nat.testBit_div_two_pow, Nat.add_comm i lo]

theorem bits_mod {lo n m : Nat} (h : lo + n ≤ m) (x : Nat) : bits (x % 2 ^ m) lo n = bits x lo n := by
  refine Nat.eq_of_testBit_eq fun i => ?_
  rw [testBit_bits, testBit_bits, Nat.testBit_mod_two_pow]
  by_cases hi : i < n
  · rw [decide_eq_true (show lo + i < m by omega), Bool.true_and]
  · simp [hi]

theorem bits_add_low {m lo n : Nat} (h : lo + n ≤ m) (a b : Nat) : bits (a + b * 2 ^ m) lo n = bits a lo n := by
  rw [← bits_mod h, Nat.add_mul_mod_self_right, bits_mod h]

theorem bits_add_high {a m : Nat} (ha : a < 2 ^ m) (b lo n : Nat) : bits (a + b * 2 ^ m) (m + lo) n = bits b lo n := by
  rw [bits, pow_add, ← Nat.div_div_eq_div_mul, Nat.add_mul_div_right _ _ (Nat.two_pow_pos m), Nat.div_eq_of_lt ha, Nat.zero_add, bits]

theorem bits_of_lt {a n : Nat} (ha : a < 2 ^ n) : bits a 0 n = a := by rw [bits, pow_zero, Nat.div_one, Nat.mod_eq_of_lt ha]

/-- The digits `f` of `w` bits each, the first one lowest. -/
def packed (w : Nat) (f : Nat → Nat) : Nat → Nat
  | 0 => 0
  | n + 1 => packed w f n + f n * 2 ^ (w * n)

theorem packed_lt {w : Nat} {f : Nat → Nat} (n : Nat) (hf : ∀ j < n, f j < 2 ^ w) : packed w f n < 2 ^ (w * n) := by
  induction n with
  | zero => exact Nat.one_pos
  | succ n ih =>
    have hn := hf n (Nat.lt_succ_self n)
    have hlow := ih fun j hj => hf j (by omega)
    calc packed w f n + f n * 2 ^ (w * n) < (f n + 1) * 2 ^ (w * n) := by rw [Nat.add_mul, Nat.one_mul]; omega
      _ ≤ 2 ^ w * 2 ^ (w * n) := Nat.mul_le_mul_right _ hn
      _ = 2 ^ (w * (n + 1)) := by rw [← pow_add]; ring_nf

/-- A field within digit `j`. -/
theorem bits_packed {w : Nat} {f : Nat → Nat} {n j lo k : Nat} (hf : ∀ j < n, f j < 2 ^ w) (hj : j < n) (hk : lo + k ≤ w) :
    bits (packed w f n) (w * j + lo) k = bits (f j) lo k := by
  induction n with
  | zero => omega
  | succ n ih =>
    rcases Nat.lt_succ_iff_lt_or_eq.1 hj with hlt | rfl
    · have hle : w * j + lo + k ≤ w * n := by
        have := Nat.mul_le_mul_left w hlt
        rw [Nat.mul_succ] at this
        omega
      rw [packed, bits_add_low hle, ih (fun j hj => hf j (by omega)) hlt]
    · rw [packed, bits_add_high (packed_lt j fun i hi => hf i (by omega))]

theorem foldl_packed (w : Nat) (f : Nat → Nat) (n : Nat) : (span 0 n).foldl (fun acc j => acc + f j * 2 ^ (w * j)) 0 = packed w f n := by
  induction n with
  | zero => rfl
  | succ n ih => rw [span_append, List.foldl_append, ih, Nat.zero_add]; rfl

theorem unsgn_lt (n : Nat) (x : Int) : unsgn n x < 2 ^ n := by rw [unsgn_eq]; exact BitVec.isLt _

/-- A number in the range of `n` bits is read back from them. -/
theorem sgn_unsgn {n : Nat} {x : Int} (hn : 0 < n) (hlo : -2 ^ (n - 1) ≤ x) (hhi : x < 2 ^ (n - 1)) : sgn n (unsgn n x) = x := by
  rw [sgn_eq, unsgn_eq, BitVec.ofNat_toNat, BitVec.setWidth_eq, BitVec.toInt_ofInt_eq_self hn hlo hhi]

/-- The number that the bytes of a number form. -/
theorem ofNats_natBytes (n v : Nat) : ofNats (natBytes n v) = v % 256 ^ n := by
  have hbytes : (natBytes n v).map (fun b => BitVec.ofNat 8 b) = bytesOf n v := by
    simp [natBytes, byteNats, Function.comp_def]
  rw [ofNats, hbytes]
  induction n generalizing v with
  | zero => rw [pow_zero, Nat.mod_one]; rfl
  | succ n ih =>
    rw [bytesOf, ofBytes, ih (v / 256) (by simp [natBytes, byteNats, Function.comp_def]), pow_succ', Nat.mod_mul, BitVec.toNat_ofNat]

/-- Entries put one behind another. -/
theorem sget_foldl_sset {β : Type} [DecidableEq β] (d : β) (m : FMap β) (base : Nat) (g : Nat → β) (n k : Nat) :
    sget d ((span 0 n).foldl (fun m j => sset d m (base + j) (g j)) m) k = if base ≤ k ∧ k < base + n then g (k - base) else sget d m k := by
  induction n with
  | zero => rw [if_neg (by omega)]; rfl
  | succ n ih =>
    rw [span_append, List.foldl_append, Nat.zero_add, span, span, List.foldl_cons, List.foldl_nil, sget_sset, ih]
    by_cases hk : k = base + n
    · rw [if_pos hk, if_pos (by omega), show k - base = n by omega]
    · rw [if_neg hk]
      exact if_congr (by omega) rfl rfl

/-! ### The lines of a bank's image (R203) -/

/-- A bank whose values the fields of its image hold. -/
structure FitsArea (z : Bank) : Prop where
  w : -2 ^ 15 ≤ z.w ∧ z.w < 2 ^ 15
  kdone : z.kdone < 2 ^ 14
  cell : ∀ k < 16384, -2 ^ 79 ≤ (z.cell k).1 ∧ (z.cell k).1 < 2 ^ 79 ∧ (z.cell k).2 < 4
  entry : ∀ k < 16384, -2 ^ 79 ≤ z.entry k ∧ z.entry k < 2 ^ 79
  crow : ∀ n < 128, -2 ^ 87 ≤ (sget (0, 0) z.crow n).1 ∧ (sget (0, 0) z.crow n).1 < 2 ^ 87 ∧ (sget (0, 0) z.crow n).2 < 4
  ccol : ∀ n < 128, -2 ^ 87 ≤ (sget (0, 0) z.ccol n).1 ∧ (sget (0, 0) z.ccol n).1 < 2 ^ 87 ∧ (sget (0, 0) z.ccol n).2 < 4

/-- A checksum cell in its 16 bytes. -/
def checkWord (x : Int × Nat) : Nat := unsgn 88 x.1 + x.2 * 2 ^ 88

/-- A cell and its entry in their 32 bytes. -/
def cellWord (x : Int × Nat) (e : Int) : Nat := unsgn 80 x.1 + x.2 * 2 ^ 80 + unsgn 80 e * 2 ^ 128

/-- The fields of the header line. -/
def headWord (z : Bank) : Nat :=
  unsgn 16 z.w + b2n z.wmode * 2 ^ 32 + b2n z.wset * 2 ^ 33 + b2n z.sat * 2 ^ 34 + b2n z.susp * 2 ^ 35 + b2n z.bad * 2 ^ 36 + b2n z.ent * 2 ^ 37 +
    (if z.susp then z.kdone * 2 ^ 42 else 0) + 2 ^ 56

theorem areaLine_head (z : Bank) : z.areaLine 0 = headWord z := rfl
theorem areaLine_block (z : Bank) : z.areaLine 1 = if z.susp then z.blk.toNat else 0 := rfl

theorem areaLine_crow (z : Bank) {i : Nat} (h : 2 ≤ i) (h' : i < 18) : z.areaLine i = packed 128 (fun j => checkWord (sget (0, 0) z.crow (8 * (i - 2) + j))) 8 := by
  rw [Bank.areaLine]
  simp only [show i ≠ 0 by omega, show i ≠ 1 by omega, h', if_true, if_false]
  exact foldl_packed 128 (fun j => checkWord (sget (0, 0) z.crow (8 * (i - 2) + j))) 8

theorem areaLine_ccol (z : Bank) {i : Nat} (h : 18 ≤ i) (h' : i < 34) : z.areaLine i = packed 128 (fun j => checkWord (sget (0, 0) z.ccol (8 * (i - 18) + j))) 8 := by
  rw [Bank.areaLine]
  simp only [show i ≠ 0 by omega, show i ≠ 1 by omega, show ¬ i < 18 by omega, h', if_true, if_false]
  exact foldl_packed 128 (fun j => checkWord (sget (0, 0) z.ccol (8 * (i - 18) + j))) 8

theorem areaLine_zero (z : Bank) {i : Nat} (h : 34 ≤ i) (h' : i < 64) : z.areaLine i = 0 := by
  rw [Bank.areaLine]
  simp only [show i ≠ 0 by omega, show i ≠ 1 by omega, show ¬ i < 18 by omega, show ¬ i < 34 by omega, h', if_true, if_false]

theorem areaLine_cells (z : Bank) {i : Nat} (h : 64 ≤ i) :
    z.areaLine i = packed 256 (fun j => cellWord (z.cell (4 * (i - 64) + j)) (z.entry (4 * (i - 64) + j))) 4 := by
  rw [Bank.areaLine]
  simp only [show i ≠ 0 by omega, show i ≠ 1 by omega, show ¬ i < 18 by omega, show ¬ i < 34 by omega, show ¬ i < 64 by omega, if_false]
  exact foldl_packed 256 (fun j => cellWord (z.cell (4 * (i - 64) + j)) (z.entry (4 * (i - 64) + j))) 4

/-! ### Reading a line -/

theorem bit_of_b2n {w n : Nat} {p : Bool} (h : w / 2 ^ n % 2 = b2n p) : bit w n = p := by
  rw [bit, h]
  cases p <;> rfl

/-- The header gives the bank's flags and window, and with SUSP the steps that are done. -/
theorem readLine_head {z : Bank} (hz : FitsArea z) (x : Bank) : ∃ k, (z.susp = true → k = z.kdone) ∧ x.readLine 0 (headWord z) =
    some { x with w := z.w, wmode := z.wmode, wset := z.wset, sat := z.sat, susp := z.susp, bad := z.bad, ent := z.ent, kdone := k, satop := z.sat,
                  wset0 := false, first := [], ws := [] } := by
  have hu := unsgn_lt 16 z.w
  have hw : sgn 16 (unsgn 16 z.w) = z.w := sgn_unsgn (by decide) hz.w.1 hz.w.2
  have hk := hz.kdone
  have hb : ∀ p, b2n p < 2 := fun p => by cases p <;> decide
  have h32 := hb z.wmode
  have h33 := hb z.wset
  have h34 := hb z.sat
  have h35 := hb z.susp
  have h36 := hb z.bad
  have h37 := hb z.ent
  have hsteps : (if z.susp then z.kdone * 2 ^ 42 else 0) = (if z.susp then z.kdone else 0) * 2 ^ 42 := by split <;> omega
  have hlt : (if z.susp then z.kdone else 0) < 2 ^ 14 := by split <;> omega
  refine ⟨if z.susp then z.kdone else 0, fun hs => if_pos hs, ?_⟩
  have hlow : bits (headWord z) 0 16 = unsgn 16 z.w := by unfold bits headWord; omega
  have hwmode : bit (headWord z) 32 = z.wmode := bit_of_b2n (by unfold headWord; omega)
  have hwset : bit (headWord z) 33 = z.wset := bit_of_b2n (by unfold headWord; omega)
  have hsat : bit (headWord z) 34 = z.sat := bit_of_b2n (by unfold headWord; omega)
  have hsusp : bit (headWord z) 35 = z.susp := bit_of_b2n (by unfold headWord; omega)
  have hbad : bit (headWord z) 36 = z.bad := bit_of_b2n (by unfold headWord; omega)
  have hent : bit (headWord z) 37 = z.ent := bit_of_b2n (by unfold headWord; omega)
  have hkdone : bits (headWord z) 42 14 = if z.susp then z.kdone else 0 := by unfold bits headWord; omega
  have hsound : ¬ (bits (headWord z) 56 8 ≠ 1 ∨ bits (headWord z) 16 16 ≠ 0 ∨ bits (headWord z) 38 4 ≠ 0 ∨ headWord z / 2 ^ 64 ≠ 0) := by
    unfold bits headWord
    omega
  rw [Bank.readLine]
  simp only [if_true, if_neg hsound, hlow, hw, hwmode, hwset, hsat, hsusp, hbad, hent, hkdone]

/-- A checksum cell is read back from its bytes. -/
theorem checkWord_fields {x : Int × Nat} (hx : -2 ^ 87 ≤ x.1 ∧ x.1 < 2 ^ 87 ∧ x.2 < 4) : checkWord x < 2 ^ 128 ∧ bits (checkWord x) 90 38 = 0 ∧
    (sgn 88 (bits (checkWord x) 0 88), bits (checkWord x) 88 2) = x := by
  obtain ⟨hlo, hhi, hcls⟩ := hx
  have hu := unsgn_lt 88 x.1
  have hval : bits (checkWord x) 0 88 = unsgn 88 x.1 := (bits_add_low le_rfl _ _).trans (bits_of_lt hu)
  have hclass : bits (checkWord x) 88 2 = x.2 := (bits_add_high hu x.2 0 2).trans (bits_of_lt hcls)
  refine ⟨by unfold checkWord; omega, by unfold bits checkWord; omega, ?_⟩
  rw [hval, hclass, sgn_unsgn (by decide) hlo hhi]

/-- A cell and its entry are read back from their bytes. -/
theorem cellWord_fields {x : Int × Nat} {e : Int} (hx : -2 ^ 79 ≤ x.1 ∧ x.1 < 2 ^ 79 ∧ x.2 < 4) (he : -2 ^ 79 ≤ e ∧ e < 2 ^ 79) :
    cellWord x e < 2 ^ 256 ∧ bits (cellWord x e) 82 46 = 0 ∧ bits (cellWord x e) 208 48 = 0 ∧
    (sgn 80 (bits (cellWord x e) 0 80), bits (cellWord x e) 80 2) = x ∧ sgn 80 (bits (cellWord x e) 128 80) = e := by
  obtain ⟨hlo, hhi, hcls⟩ := hx
  have hu := unsgn_lt 80 x.1
  have hv := unsgn_lt 80 e
  have hlow : unsgn 80 x.1 + x.2 * 2 ^ 80 < 2 ^ 128 := by omega
  have hval : bits (cellWord x e) 0 80 = unsgn 80 x.1 := (bits_add_low (by decide) _ _).trans ((bits_add_low le_rfl _ _).trans (bits_of_lt hu))
  have hclass : bits (cellWord x e) 80 2 = x.2 := (bits_add_low (by decide) _ _).trans ((bits_add_high hu x.2 0 2).trans (bits_of_lt hcls))
  have hentry : bits (cellWord x e) 128 80 = unsgn 80 e := (bits_add_high hlow _ 0 80).trans (bits_of_lt hv)
  refine ⟨by unfold cellWord; omega, by unfold bits cellWord; omega, by unfold bits cellWord; omega, ?_, ?_⟩
  · rw [hval, hclass, sgn_unsgn (by decide) hlo hhi]
  · rw [hentry, sgn_unsgn (by decide) he.1 he.2]

end Sys2Proof.Proofs
end

section
/-!
PROOFS. The bank that reading the lines of its image in order gives (R203).
-/
namespace Sys2Proof.Proofs
open Sys2Proof Sys2Proof.Machine Sys2Proof.Laws

/-! ### What each line gives -/

/-- Eight checksum cells of a line put from `base` on. -/
def rowFrom (m : FMap (Int × Nat)) (base w : Nat) : FMap (Int × Nat) :=
  (span 0 8).foldl (fun m j => sset (0, 0) m (base + j) (sgn 88 (bits w (128 * j) 88), bits w (128 * j + 88) 2)) m

/-- The bytes of a line of checksum cells that no field takes are zero. -/
def rowSound (w : Nat) : Bool := !((span 0 8).any fun j => bits w (128 * j + 90) 38 ≠ 0)

theorem readLine_crow {i w : Nat} (h : 2 ≤ i) (h' : i < 18) (hw : rowSound w = true) (x : Bank) :
    x.readLine i w = some { x with crow := rowFrom x.crow (8 * (i - 2)) w } := by
  rw [rowSound, Bool.not_eq_true'] at hw
  rw [Bank.readLine]
  simp only [show i ≠ 0 by omega, show i ≠ 1 by omega, show i < 34 by omega, h', hw, if_true, if_false, Bool.false_eq_true, rowFrom]

theorem readLine_ccol {i w : Nat} (h : 18 ≤ i) (h' : i < 34) (hw : rowSound w = true) (x : Bank) :
    x.readLine i w = some { x with ccol := rowFrom x.ccol (8 * (i - 18)) w } := by
  rw [rowSound, Bool.not_eq_true'] at hw
  rw [Bank.readLine]
  simp only [show i ≠ 0 by omega, show i ≠ 1 by omega, show ¬ i < 18 by omega, h', hw, if_true, if_false, Bool.false_eq_true, rowFrom]

theorem readLine_zero {i : Nat} (h : 34 ≤ i) (h' : i < 64) (x : Bank) : x.readLine i 0 = some x := by
  rw [Bank.readLine]
  simp only [show i ≠ 0 by omega, show i ≠ 1 by omega, show ¬ i < 34 by omega, h', if_true, if_false]

/-- Cells and their entries put one behind another. -/
theorem foldl_cells (base : Nat) (g : Nat → Int × Nat) (e : Nat → Int) (l : List Nat) (x : Bank) :
    l.foldl (fun (b : Bank) j => { b with cells := sset (0, 0) b.cells (base + j) (g j), latch := sset 0 b.latch (base + j) (e j) }) x =
      { x with cells := l.foldl (fun m j => sset (0, 0) m (base + j) (g j)) x.cells, latch := l.foldl (fun m j => sset 0 m (base + j) (e j)) x.latch } := by
  induction l generalizing x with
  | nil => rfl
  | cons j l ih => rw [List.foldl_cons, ih]; rfl

theorem readLine_cells {i w : Nat} (h : 64 ≤ i) (hw : ((span 0 4).any fun j => bits w (256 * j + 82) 46 ≠ 0 || bits w (256 * j + 208) 48 ≠ 0) = false) (x : Bank) :
    x.readLine i w = some { x with
      cells := (span 0 4).foldl (fun m j => sset (0, 0) m (4 * (i - 64) + j) (sgn 80 (bits w (256 * j) 80), bits w (256 * j + 80) 2)) x.cells
      latch := (span 0 4).foldl (fun m j => sset 0 m (4 * (i - 64) + j) (sgn 80 (bits w (256 * j + 128) 80))) x.latch } := by
  rw [Bank.readLine]
  simp only [show i ≠ 0 by omega, show i ≠ 1 by omega, show ¬ i < 34 by omega, show ¬ i < 64 by omega, hw, if_false, Bool.false_eq_true]
  exact congrArg some (foldl_cells (4 * (i - 64)) (fun j => (sgn 80 (bits w (256 * j) 80), bits w (256 * j + 80) 2)) (fun j => sgn 80 (bits w (256 * j + 128) 80)) (span 0 4) x)

/-- Eight checksum cells are read back from their line. -/
theorem rowFrom_packed {row : FMap (Int × Nat)} {base : Nat} (hrow : ∀ n < 128, -2 ^ 87 ≤ (sget (0, 0) row n).1 ∧ (sget (0, 0) row n).1 < 2 ^ 87 ∧ (sget (0, 0) row n).2 < 4)
    (hbase : base + 8 ≤ 128) : let w := packed 128 (fun j => checkWord (sget (0, 0) row (base + j))) 8 % 2 ^ 1024
    rowSound w = true ∧ ∀ m n, sget (0, 0) (rowFrom m base w) n = if base ≤ n ∧ n < base + 8 then sget (0, 0) row n else sget (0, 0) m n := by
  intro w
  have hcell : ∀ j < 8, _ := fun j hj => checkWord_fields (hrow (base + j) (by omega))
  have hfield : ∀ j < 8, ∀ lo n, lo + n ≤ 128 → bits w (128 * j + lo) n = bits (checkWord (sget (0, 0) row (base + j))) lo n := fun j hj lo n hn =>
    (bits_mod (by omega) _).trans (bits_packed (fun j hj => (hcell j hj).1) hj hn)
  refine ⟨?_, fun m n => ?_⟩
  · rw [rowSound, Bool.not_eq_true', List.any_eq_false]
    intro j hj
    have hj8 : j < 8 := by have := mem_span.1 hj; omega
    rw [hfield j hj8 90 38 (by decide), (hcell j hj8).2.1]
    decide
  · rw [rowFrom, sget_foldl_sset]
    by_cases hn : base ≤ n ∧ n < base + 8
    · have hj : n - base < 8 := by omega
      have hzero := hfield (n - base) hj 0 88 (by decide)
      rw [Nat.add_zero] at hzero
      rw [if_pos hn, if_pos hn, hzero, hfield (n - base) hj 88 2 (by decide), (hcell (n - base) hj).2.2, show base + (n - base) = n by omega]
    · rw [if_neg hn, if_neg hn]

/-- Four cells and their entries are read back from their line. -/
theorem cells_packed {z : Bank} (hz : FitsArea z) {base : Nat} (hbase : base + 4 ≤ 16384) :
    let w := packed 256 (fun j => cellWord (z.cell (base + j)) (z.entry (base + j))) 4 % 2 ^ 1024
    ((span 0 4).any fun j => bits w (256 * j + 82) 46 ≠ 0 || bits w (256 * j + 208) 48 ≠ 0) = false ∧
    ∀ j < 4, (sgn 80 (bits w (256 * j) 80), bits w (256 * j + 80) 2) = z.cell (base + j) ∧ sgn 80 (bits w (256 * j + 128) 80) = z.entry (base + j) := by
  intro w
  have hcell : ∀ j < 4, _ := fun j hj => cellWord_fields (hz.cell (base + j) (by omega)) (hz.entry (base + j) (by omega))
  have hfield : ∀ j < 4, ∀ lo n, lo + n ≤ 256 → bits w (256 * j + lo) n = bits (cellWord (z.cell (base + j)) (z.entry (base + j))) lo n := fun j hj lo n hn =>
    (bits_mod (by omega) _).trans (bits_packed (fun j hj => (hcell j hj).1) hj hn)
  refine ⟨List.any_eq_false.2 fun j hj => ?_, fun j hj => ?_⟩
  · have hj4 : j < 4 := by have := mem_span.1 hj; omega
    obtain ⟨-, h82, h208, -, -⟩ := hcell j hj4
    rw [hfield j hj4 82 46 (by decide), hfield j hj4 208 48 (by decide), h82, h208]
    decide
  · obtain ⟨-, -, -, hx, he⟩ := hcell j hj
    have hzero := hfield j hj 0 80 (by decide)
    rw [Nat.add_zero] at hzero
    rw [hzero, hfield j hj 80 2 (by decide), hfield j hj 128 80 (by decide)]
    exact ⟨hx, he⟩

/-! ### Lines in order -/

/-- What the lines of an area before line `i` have given: the fields of `z` that they hold. -/
structure Took (z : Bank) (i : Nat) (x : Bank) : Prop where
  flags : 0 < i → x.w = z.w ∧ x.wmode = z.wmode ∧ x.wset = z.wset ∧ x.sat = z.sat ∧ x.susp = z.susp ∧ x.bad = z.bad ∧ x.ent = z.ent
  kdone : 0 < i → z.susp = true → x.kdone = z.kdone
  blk : 1 < i → z.susp = true → x.blk = z.blk
  crow : ∀ n < 128, n < 8 * (i - 2) → sget (0, 0) x.crow n = sget (0, 0) z.crow n
  ccol : ∀ n < 128, n < 8 * (i - 18) → sget (0, 0) x.ccol n = sget (0, 0) z.ccol n
  cells : ∀ k < 4 * (i - 64), x.cell k = z.cell k ∧ x.entry k = z.entry k

theorem took_zero (z x : Bank) : Took z 0 x :=
  ⟨fun h => absurd h (by decide), fun h => absurd h (by decide), fun h => absurd h (by decide), fun n _ h => absurd h (by omega), fun n _ h => absurd h (by omega),
    fun k h => absurd h (by omega)⟩

theorem headWord_lt {z : Bank} (hz : FitsArea z) : headWord z < 2 ^ 1024 := by
  have hu := unsgn_lt 16 z.w
  have hk := hz.kdone
  have hb : ∀ p, b2n p < 2 := fun p => by cases p <;> decide
  have h32 := hb z.wmode
  have h33 := hb z.wset
  have h34 := hb z.sat
  have h35 := hb z.susp
  have h36 := hb z.bad
  have h37 := hb z.ent
  have hlt : headWord z < 2 ^ 57 := by
    unfold headWord
    split <;> omega
  exact hlt.trans (pow_lt_pow_right₀ Nat.one_lt_two (by decide))

section
variable {z x : Bank}

/-- Line 0 gives the flags. -/
theorem took_head (hz : FitsArea z) (x : Bank) : ∃ y, x.readLine 0 (z.areaLine 0 % 2 ^ 1024) = some y ∧ Took z 1 y := by
  obtain ⟨k, hk, hread⟩ := readLine_head hz x
  rw [areaLine_head, Nat.mod_eq_of_lt (headWord_lt hz), hread]
  exact ⟨_, rfl, fun _ => ⟨rfl, rfl, rfl, rfl, rfl, rfl, rfl⟩, fun _ => hk, fun h => absurd h (by decide),
    fun n _ h => absurd h (by omega), fun n _ h => absurd h (by omega), fun k h => absurd h (by omega)⟩

/-- Line 1 gives the record of a suspended operation, and is zero else. -/
theorem took_block (h : Took z 1 x) : ∃ y, x.readLine 1 (z.areaLine 1 % 2 ^ 1024) = some y ∧ Took z 2 y := by
  have hflags := h.flags Nat.one_pos
  obtain ⟨-, -, -, -, hsusp, -, -⟩ := hflags
  have hstep : ∀ (y : Bank), y = (if z.susp then { x with blk := z.blk } else x) → Took z 2 y := by
    rintro y rfl
    cases hs : z.susp with
    | true => exact ⟨fun _ => h.flags Nat.one_pos, fun _ => h.kdone Nat.one_pos, fun _ _ => rfl, fun n _ h => absurd h (by omega), fun n _ h => absurd h (by omega),
        fun k h => absurd h (by omega)⟩
    | false => exact ⟨fun _ => h.flags Nat.one_pos, fun _ => h.kdone Nat.one_pos, fun _ hs' => absurd hs' (by rw [hs]; decide), fun n _ h => absurd h (by omega),
        fun n _ h => absurd h (by omega), fun k h => absurd h (by omega)⟩
  refine ⟨_, ?_, hstep _ rfl⟩
  rw [areaLine_block, Bank.readLine, hsusp]
  cases hs : z.susp with
  | true => rw [if_neg Nat.one_ne_zero, if_pos rfl, if_pos rfl, if_pos rfl, if_pos rfl, Nat.mod_eq_of_lt z.blk.isLt, BitVec.ofNat_toNat, BitVec.setWidth_eq]
  | false => simp only [if_true, Nat.one_ne_zero, if_false, Bool.false_eq_true, Nat.zero_mod]

theorem took_crow (hz : FitsArea z) {i : Nat} (hi : 2 ≤ i) (hi' : i < 18) (h : Took z i x) :
    ∃ y, x.readLine i (z.areaLine i % 2 ^ 1024) = some y ∧ Took z (i + 1) y := by
  obtain ⟨hsound, hrow⟩ := rowFrom_packed hz.crow (base := 8 * (i - 2)) (by omega)
  rw [areaLine_crow z hi hi', readLine_crow hi hi' hsound]
  refine ⟨_, rfl, fun _ => h.flags (by omega), fun _ => h.kdone (by omega), fun _ => h.blk (by omega), fun n hn hlt => ?_,
    fun n hn hlt => absurd hlt (by omega), fun k hk => absurd hk (by omega)⟩
  rw [hrow]
  split
  · rfl
  · exact h.crow n hn (by omega)

theorem took_ccol (hz : FitsArea z) {i : Nat} (hi : 18 ≤ i) (hi' : i < 34) (h : Took z i x) :
    ∃ y, x.readLine i (z.areaLine i % 2 ^ 1024) = some y ∧ Took z (i + 1) y := by
  obtain ⟨hsound, hrow⟩ := rowFrom_packed hz.ccol (base := 8 * (i - 18)) (by omega)
  rw [areaLine_ccol z hi hi', readLine_ccol hi hi' hsound]
  refine ⟨_, rfl, fun _ => h.flags (by omega), fun _ => h.kdone (by omega), fun _ => h.blk (by omega), fun n hn hlt => h.crow n hn (by omega),
    fun n hn hlt => ?_, fun k hk => absurd hk (by omega)⟩
  rw [hrow]
  split
  · rfl
  · exact h.ccol n hn (by omega)

theorem took_cells (hz : FitsArea z) {i : Nat} (hi : 64 ≤ i) (hi' : i < areaLines) (h : Took z i x) :
    ∃ y, x.readLine i (z.areaLine i % 2 ^ 1024) = some y ∧ Took z (i + 1) y := by
  unfold areaLines at hi'
  obtain ⟨hsound, hcell⟩ := cells_packed hz (base := 4 * (i - 64)) (by omega)
  rw [areaLine_cells z hi, readLine_cells hi hsound]
  refine ⟨_, rfl, fun _ => h.flags (by omega), fun _ => h.kdone (by omega), fun _ => h.blk (by omega), fun n hn hlt => h.crow n hn (by omega),
    fun n hn hlt => h.ccol n hn (by omega), fun k hk => ?_⟩
  simp only [Bank.cell, Bank.entry, sget_foldl_sset]
  by_cases hin : 4 * (i - 64) ≤ k ∧ k < 4 * (i - 64) + 4
  · obtain ⟨hc, he⟩ := hcell (k - 4 * (i - 64)) (by omega)
    rw [show 4 * (i - 64) + (k - 4 * (i - 64)) = k by omega] at hc he
    rw [if_pos hin, if_pos hin]
    exact ⟨hc, he⟩
  · rw [if_neg hin, if_neg hin]
    exact h.cells k (by omega)

/-- Line after line, an area gives the bank whose image it holds. -/
theorem took_step (hz : FitsArea z) {i : Nat} (hi : i < areaLines) (h : Took z i x) :
    ∃ y, x.readLine i (z.areaLine i % 2 ^ 1024) = some y ∧ Took z (i + 1) y := by
  by_cases h0 : i = 0
  · subst h0; exact took_head hz x
  by_cases h1 : i = 1
  · subst h1; exact took_block h
  by_cases h18 : i < 18
  · exact took_crow hz (by omega) h18 h
  by_cases h34 : i < 34
  · exact took_ccol hz (by omega) h34 h
  by_cases h64 : i < 64
  · rw [areaLine_zero z (by omega) h64, Nat.zero_mod, readLine_zero (by omega) h64]
    exact ⟨x, rfl, fun _ => h.flags (by omega), fun _ => h.kdone (by omega), fun _ => h.blk (by omega), fun n hn _ => h.crow n hn (by omega),
      fun n hn _ => h.ccol n hn (by omega), fun k hk => absurd hk (by omega)⟩
  · exact took_cells hz (by omega) hi h

end

end Sys2Proof.Proofs
end

section
/-!
PROOFS. `gresume` of a bank (R203, R209): the lines of an area read one after another, and the bank that takes what they hold.
-/
namespace Sys2Proof.Proofs
open Sys2Proof Sys2Proof.Machine Sys2Proof.Laws

theorem ofNats_line (v : Nat) : ofNats (natBytes 128 v) = v % 2 ^ 1024 := by
  rw [ofNats_natBytes, show 256 = 2 ^ 8 from rfl, ← pow_mul]

/-- An area at `p` that a command may read, and that holds the image of a bank. -/
def AreaHolds (s : State) (c : Cmd) (z : Bank) (p : Nat → Nat) : Prop :=
  ∀ i < areaLines, (∃ mt, Maps s [] (s.ctxOf c.bk) (c.addr + 128 * i) 128 .load (p i) mt) ∧ s.mem.homePois (p i / 128) = false ∧
    (List.range 128).map (fun k => s.mem.homeB (p i + k)) = natBytes 128 (z.areaLine i)

/-- The lines before line `i` are read, and the engines and the queue are as before. -/
structure Reading (s : State) (c : Cmd) (b : Block) (z : Bank) (i : Nat) (x : Bank) (t : State) : Prop where
  carries : Carries s c.bk b t
  reads : ReadsAs s.mem t.mem
  eng : t.eng = s.eng
  cmds : t.cmds = s.cmds
  took : Took z i x

section
variable {s t : State} {c : Cmd} {b : Block} {z x : Bank} {p : Nat → Nat}

/-- The next line. -/
theorem Reading.step {i : Nat} (h : Reading s c b z i x t) (hw : Works s c b) (hz : FitsArea z) (harea : AreaHolds s c z p) (hi : i < areaLines) :
    ∃ y u, (∀ n, areaRead c (n + 1) i x t = areaRead c n (i + 1) y u) ∧ Reading s c b z (i + 1) y u := by
  obtain ⟨⟨mt, hmap⟩, hpois, hbytes⟩ := harea i hi
  have hchk : t.check (t.ctxOf c.bk) (c.addr + 128 * i) 128 128 .load false = .ok (.mem (p i) mt) := by
    rw [h.carries.ctxOf hw.block, (h.carries.tables h.reads).check]
    exact hmap.check s.mem rfl fun _ _ => rfl
  have hload := engLoad_mem hchk hmap.type ((h.carries.memUp ..).trans hmap.up) ((h.reads.homePois _).trans hpois) (h.carries.snapOf hw.block hw.plain)
    (ownStore_first h.carries hw.first ..) (h.carries.renames hw.block hw.plain) h.carries.stages
  have hline : t.mem.homeBytes (p i) 128 = natBytes 128 (z.areaLine i) := by
    rw [homeBytes_congr h.reads.homeB, MemSt.homeBytes, span_map_range, hbytes]
  obtain ⟨y, hread, htook⟩ := took_step hz hi h.took
  obtain ⟨m, k, he, hm, -⟩ := engRead_frame t c (p i) mt
  refine ⟨y, engRead t c (p i) mt, fun n => ?_, h.carries.engRead c (p i) mt, ?_, ?_, ?_, htook⟩
  · rw [areaRead, hload]
    simp only [hline, ofNats_line, hread]
  · rw [he]; exact h.reads.trans hm
  · rw [he]; exact h.eng
  · rw [he]; exact h.cmds

/-- The lines that are left, in order. -/
theorem Reading.all (hw : Works s c b) (hz : FitsArea z) (harea : AreaHolds s c z p) {m i : Nat} (h : Reading s c b z i x t) (hm : i + m = areaLines) :
    ∃ y u, areaRead c m i x t = .ok y u ∧ Reading s c b z areaLines y u := by
  induction m generalizing i x t with
  | zero => exact ⟨x, t, rfl, (show i = areaLines from hm) ▸ h⟩
  | succ m ih =>
    obtain ⟨y, u, hread, hu⟩ := h.step hw hz harea (by omega)
    rw [hread]
    exact ih hu (by omega)

end

/-- A bank read from an area differs by nothing that its image shows (R202). -/
theorem recallBank_frame (t : State) (x : Bank) : ∃ so w0 f ws, t.recallBank x = { x with satop := so, wset0 := w0, first := f, ws := ws } := by
  unfold State.recallBank
  split
  · exact ⟨_, _, _, _, rfl⟩
  · split
    · exact ⟨_, _, _, _, rfl⟩
    · exact ⟨x.satop, x.wset0, x.first, x.ws, rfl⟩

/-- `gresume` takes the bank from the lines of its area. -/
theorem complete_gresume {s : State} {c : Cmd} {o : Op} {b : Block} (h : Alone s c o b) (hstat : c.stat = .running) (hk : c.kind = .gresume)
    (hp : Plain s c.bk) {z : Bank} {p : Nat → Nat} (hz : FitsArea z) (harea : AreaHolds s c z p) :
    ∃ t, exec (.griddleOpComplete c.id) s = .next t ∧ (t.cmds = [] ∧ t.ops = []) ∧ (∀ a, t.mem.homeB a = s.mem.homeB a) ∧
      let x := t.bankAt c
      x.w = z.w ∧ x.wmode = z.wmode ∧ x.wset = z.wset ∧ x.sat = z.sat ∧ x.susp = z.susp ∧ x.bad = z.bad ∧ x.ent = z.ent ∧
      (z.susp = true → x.kdone = z.kdone ∧ x.blk = z.blk) ∧ (∀ k < 16384, x.cell k = z.cell k ∧ x.entry k = z.entry k) ∧
      ∀ n < 128, sget (0, 0) x.crow n = sget (0, 0) z.crow n ∧ sget (0, 0) x.ccol n = sget (0, 0) z.ccol n := by
  have hstart : Reading s c b z 0 { s.bankAt c with cells := [], latch := [], crow := [], ccol := [] } s :=
    ⟨carries_alone h hp, .refl _, rfl, rfl, took_zero z _⟩
  obtain ⟨y, u, hread, hu⟩ := hstart.all (works_alone h hp) hz harea (Nat.zero_add areaLines)
  obtain ⟨e, he⟩ := hu.carries.block
  have hwork : AtWork s c { b with effects := e } u :=
    ⟨⟨c, hu.cmds.trans h.cmds, rfl, rfl, h.own⟩, hu.carries.ops, he, h.frames, hu.carries.idle⟩
  obtain ⟨bl, gs, hdone, -⟩ := engDone_alone h (hwork.withBank (u.recallBank y)) 0
  have hrun : s.gresumeRun c = (withBank u c (u.recallBank y)).engDone c 0 := by
    rw [State.gresumeRun]
    simp only [hread, putBank_eq he h.frames]
  have hexec : exec (.griddleOpComplete c.id) s = .next (s.gresumeRun c) := by rw [exec_griddleOpComplete_alone h hstat, griddleRest, hk]
  refine ⟨_, hexec.trans (congrArg _ (hrun.trans hdone)), ⟨rfl, rfl⟩, hu.reads.homeB, ?_⟩
  intro x
  obtain ⟨so, w0, f, ws, hrecall⟩ := recallBank_frame u y
  have hx : x = { y with satop := so, wset0 := w0, first := f, ws := ws } := (bankAt_withBank u c _).trans hrecall
  have hpos : 1 < areaLines := by decide
  obtain ⟨hw, hwmode, hwset, hsat, hsusp, hbad, hent⟩ := hu.took.flags (by omega)
  rw [hx]
  exact ⟨hw, hwmode, hwset, hsat, hsusp, hbad, hent, fun hs => ⟨hu.took.kdone (by omega) hs, hu.took.blk hpos hs⟩, fun k hk => hu.took.cells k hk,
    fun n hn => ⟨hu.took.crow n hn (by unfold areaLines; omega), hu.took.ccol n hn (by unfold areaLines; omega)⟩⟩

end Sys2Proof.Proofs
end

section
/-!
PROOFS. What the commands of a Griddle do (R141 to R147, R187 to R210): the bank that a `gmma` starts on, and the statement, command by command.
-/
namespace Sys2Proof.Proofs
open Sys2Proof Sys2Proof.Machine Sys2Proof.Laws

/-- Without ACC an operation starts on a prepared bank, its checksums apart (R195, R197). -/
theorem start_prepared {d : Nat} (hacc : gAcc d = false) (y : Bank) :
    (y.start d).cells = [] ∧ (y.start d).bad = false ∧ (y.start d).sat = false ∧ (y.start d).w = (if gWmode d then gW d else y.w) ∧ (y.start d).wset = gWmode d := by
  cases hchk : gChk d <;> simp [Bank.start, hacc, hchk, Bank.prepare]

section
variable {s : State} {c : Cmd} {o : Op} {b : Block} (h : Alone s c o b)
include h

/-- A `gmma` without ACC that has started finds its bank zero, under the window of its block. -/
theorem started_gmma (hk : c.kind = .gmma) (hstat : c.stat = .queued) (hemu : gEmuCodes c.kind c.desc.toNat = []) (hres : gResume c.desc.toNat = false)
    (hacc : gAcc c.desc.toNat = false) (hahead : s.ch.ahead = 0) :
    let d := c.desc.toNat
    ∃ t, exec (.griddleOpStart c.id) s = .next t ∧ (t.cmd? c.id).map Cmd.stat = some .running ∧ ∀ k, (t.bankAt c).cell k = (0, 0) ∧ (t.bankAt c).bad = false ∧
      (t.bankAt c).sat = false ∧ (t.bankAt c).w = (if gWmode d then gW d else (s.bankAt c).w) ∧ (t.bankAt c).wset = gWmode d := by
  intro d
  refine ⟨_, start_gmma h hk hstat hemu hres hacc hahead, ?_, fun k => ?_⟩
  · have hcmds := cmds_updCmd_one (s := withBank s c ((s.bankAt c).start d)) h.cmds fun c => { c.setChunks 0 with stat := .running }
    exact congrArg (Option.map Cmd.stat) (cmd?_one hcmds)
  · have hbank : ((withBank s c ((s.bankAt c).start d)).updCmd c.id fun c => { c.setChunks 0 with stat := .running }).bankAt c = (s.bankAt c).start d :=
      bankAt_withBank s c _
    obtain ⟨hcells, hrest⟩ := start_prepared hacc (s.bankAt c)
    rw [hbank]
    exact ⟨by rw [Bank.cell, hcells]; rfl, hrest⟩

end

/-- Settles O38, command by command: the start of a command in its branches, then what each kind of running command leaves, and the wait for an earlier command
on the bank. -/
theorem griddleEffects : Obligations.GriddleEffects := by
  unfold Obligations.GriddleEffects
  refine ⟨fun s c o b h => ⟨?_, ?_, ?_, fun hstat => ⟨?_, ?_, ?_, ?_, ?_, ?_, ?_, ?_, ?_⟩⟩, ?_⟩
  · intro hk hstat ha hb ho hres hacc hahead
    exact started_gmma h hk hstat (gEmuCodes_nil (.inl ⟨ha, hb, ho⟩)) hres hacc hahead
  · intro known hkind hstat
    have hgriddle : c.kind.griddle = true ∧ c.kind ≠ .gmma := by
      rcases hkind with ⟨-, hk | hk | hk⟩ | hk | hk | hk <;> rw [hk] <;> exact ⟨rfl, by decide⟩
    exact start_runs h hgriddle.1 hgriddle.2 hstat (gEmuCodes_nil (hkind.imp_left And.left))
  · exact fun k hk hstat hfind => start_undefined h hk hstat hfind
  · intro hk hprog _ hop hfa hfb hgk hchk hsa hsb hlive hs24 hafe hring hinject hcells hw hwm
    exact complete_gmma_int8 h hstat hk hprog ⟨by omega, hgk, hchk, hlive, hs24, hafe, hring, hinject⟩ hop hfa hfb hsa hsb hcells hw hwm
  · intro hk hprog _ hop hgk hchk hlive hs24 hafe hring hinject hwm va ea vb eb hA hB
    exact complete_gmma_finite h hstat hk hprog ⟨hop, hgk, hchk, hlive, hs24, hafe, hring, hinject⟩ hwm hA hB
  · exact fun hk hfmt => ⟨complete_gdrain_word h hstat hk hfmt, complete_gdrain_bad h hstat hk⟩
  · exact fun hk hfmt => complete_gdrain_half h hstat hk hfmt
  · exact complete_gload h hstat
  · exact complete_gzero h hstat
  · exact fun r hk hdu => complete_gstat h hstat hk hdu
  · exact fun hk => ⟨fun hprog hahead hp p hmap => complete_gsave h hstat hk hprog hahead hp p hmap, complete_gsave_written h hstat hk⟩
  · intro hk hp z p hw hkdone hcell hentry hcheck harea
    exact complete_gresume h hstat hk hp ⟨hw, hkdone, hcell, hentry, fun n hn => hcheck n hn _ (.inl rfl), fun n hn => hcheck n hn _ (.inr rfl)⟩ harea
  · exact fun s e c hc hid hcore hek _ hes hstat hel hcl hcs hcr hsub => start_waits hc hid hcore hek hes hstat hel hcl hcs hcr hsub

end Sys2Proof.Proofs
end

section
/-!
PROOFS. Operand values as integers (R15, R149, R151, R155): what the model's integer functions compute, in the terms of the obligations, and the obligation on
the integer arithmetic forms (R155, R156).
-/
namespace Sys2Proof.Proofs
open Sys2Proof Sys2Proof.Machine Sys2Proof.Laws

/-! ### Operand values (R13, R15) -/

theorem vraw_lt (s : State) (bk g r l : Nat) : s.vraw bk g r l < 2 ^ 32 := BitVec.isLt _

theorem uraw_lt (s : State) (bk g n : Nat) : s.uraw bk g n < 2 ^ 64 := BitVec.isLt _

theorem value_wide_lt (s : State) (fk : Nat) (o : Opnd) (ind : Bool) : value s fk o ind true < 2 ^ 64 := by
  cases o with
  | v n =>
    have hlo := vraw_lt s (fkBk fk) (fkG fk) (regOf s fk n ind) (fkL fk)
    have hhi := vraw_lt s (fkBk fk) (fkG fk) (regOf s fk n ind + 1) (fkL fk)
    simp only [value, if_true]
    omega
  | s n => exact uraw_lt s _ _ n
  | sp x => exact Nat.mod_lt _ (by decide)

theorem value_narrow_lt (s : State) (fk : Nat) (o : Opnd) (ind : Bool) : value s fk o ind false < 2 ^ 32 := by
  cases o with
  | v n => exact vraw_lt s _ _ _ _
  | s n => exact Nat.mod_lt _ (by decide)
  | sp x => exact Nat.mod_lt _ (by decide)

/-- The types of the bitwise forms fill the registers that hold them. -/
theorem size_of_isBits : ∀ {t : Ty}, t.isBits = true → 8 * t.size = if t.wide then 64 else 32 := by
  intro t
  cases t <;> decide

theorem isBits_of_isInt {t : Ty} (h : t.isInt = true) : t.isBits = true := by simp [Ty.isBits, h]

theorem isBits_of_isW64 : ∀ {t : Ty}, t.isW64 = true → t.isBits = true := by
  intro t
  cases t <;> decide

theorem value_lt_bits {t : Ty} (ht : t.isBits = true) (s : State) (fk : Nat) (o : Opnd) (ind : Bool) :
    value s fk o ind t.wide < 2 ^ (8 * t.size) := by
  rw [size_of_isBits ht]
  cases t.wide
  · exact value_narrow_lt s fk o ind
  · exact value_wide_lt s fk o ind

theorem size_pos (t : Ty) : 0 < t.size := by cases t <;> decide

/-! ### Integers of a type (R151, R155) -/

theorem valOf_eq {t : Ty} {x : Nat} (h : x < 2 ^ (8 * t.size)) : valOf t x = intOf t x := by
  unfold valOf intOf
  rw [sgn_eq, Nat.mod_eq_of_lt h]

theorem wrapTo_eq (t : Ty) (v : Int) : wrapTo t v = patOf t v := unsgn_eq _ v

/-- The integer that the immediate stands for (R151). -/
def immInt (t : Ty) (imm : Nat) : Int := if t.signed then (BitVec.ofNat 8 imm).toInt else imm

theorem immVal_signed {t : Ty} (h : t.signed = true) (imm : Nat) : immVal t imm = patOf t (BitVec.ofNat 8 imm).toInt := by
  rw [immVal, if_pos h, sgn_eq, unsgn_eq]
  rfl

theorem immVal_unsigned {t : Ty} (h : t.signed = false) (imm : Nat) : immVal t imm = imm := by simp [immVal, h]

theorem patOf_natCast (t : Ty) (n : Nat) : patOf t n = n % 2 ^ (8 * t.size) := by
  simp [patOf]

theorem immVal_eq_patOf {t : Ty} {imm : Nat} (h : imm < 256) : immVal t imm = patOf t (immInt t imm) := by
  cases hs : t.signed with
  | true => rw [immVal_signed hs, immInt, if_pos hs]
  | false =>
    have hw : 2 ^ 8 ≤ 2 ^ (8 * t.size) := Nat.pow_le_pow_right (by decide) (by have := size_pos t; omega)
    rw [immVal_unsigned hs, immInt, hs, if_neg (by decide), patOf_natCast, Nat.mod_eq_of_lt (by omega)]

/-- The immediate at the operation width is the integer that it stands for, or differs from it by a multiple of 2^w (R151). -/
theorem valOf_immVal (t : Ty) (imm : Nat) : valOf t (immVal t imm) = if t.signed then (BitVec.ofNat 8 imm).toInt else ((imm % 2 ^ (8 * t.size) : Nat) : Int) := by
  cases hs : t.signed with
  | true =>
    have hb := (BitVec.ofNat 8 imm).isLt
    have hlo : -2 ^ 7 ≤ (BitVec.ofNat 8 imm).toInt := BitVec.le_toInt _
    have hhi : (BitVec.ofNat 8 imm).toInt < 2 ^ 7 := BitVec.toInt_lt
    have hw : (2 : Int) ^ 7 ≤ 2 ^ (8 * t.size - 1) := pow_le_pow_right₀ (by decide) (by have := size_pos t; omega)
    have h := sgn_unsgn (n := 8 * t.size) (x := (BitVec.ofNat 8 imm).toInt) (by have := size_pos t; omega) (by omega) (by omega)
    rw [immVal_signed hs, valOf, if_pos hs, if_pos rfl]
    rwa [unsgn_eq] at h
  | false => simp [valOf, hs, immVal_unsigned hs]

theorem patOf_neg_one (t : Ty) : patOf t (-1) = 2 ^ (8 * t.size) - 1 := by
  rw [patOf, BitVec.ofInt_neg, ← BitVec.toNat_allOnes, ← BitVec.neg_one_eq_allOnes]
  rfl

/-- Integers that agree modulo 2^w have the same pattern. -/
theorem patOf_congr {t : Ty} {x y : Int} (h : x % 2 ^ (8 * t.size) = y % 2 ^ (8 * t.size)) : patOf t x = patOf t y := by
  have := congrArg Int.toNat h
  simpa [patOf, BitVec.toNat_ofInt, Ty.bits] using this

/-- A sum with the immediate at the operation width is, modulo 2^w, that with the integer that it stands for (R151). -/
theorem patOf_add_immVal (t : Ty) (n : Int) (imm : Nat) : patOf t (n + valOf t (immVal t imm)) = patOf t (n + immInt t imm) := by
  rw [valOf_immVal, immInt]
  cases t.signed with
  | true => rfl
  | false => exact patOf_congr (by simp)

/-- Digit `m` of a number in base `m`, from its remainder modulo `m` squared. -/
theorem toNat_emod_sq_div (p : Int) {m : Nat} (hm : 0 < m) : (p % ((m * m : Nat) : Int)).toNat / m = (p / m % m).toNat := by
  have hdiv : p % ((m * m : Nat) : Int) / m = p / m % m := by
    rw [Int.emod_def, Int.emod_def, Int.natCast_mul, ← Int.ediv_ediv_of_nonneg (by omega), mul_assoc, Int.sub_mul_ediv_left _ _ (by omega)]
  obtain ⟨n, hn⟩ := Int.eq_ofNat_of_zero_le (Int.emod_nonneg p (b := ((m * m : Nat) : Int)) (by positivity))
  rw [← hdiv, hn]
  norm_cast

/-! ### The integer functions (R155, R156) -/

section
variable {t : Ty} {a b : Nat} (ha : a < 2 ^ (8 * t.size)) (hb : b < 2 ^ (8 * t.size))
include ha

theorem intAbs_eq : intAbs t a = (patOf t |intOf t a|, 0) := by
  rw [intAbs, valOf_eq ha, wrapTo_eq, Int.abs_eq_natAbs]

include hb

theorem intAdd_eq : intAdd t a b = (patOf t (intOf t a + intOf t b), 0) := by rw [intAdd, valOf_eq ha, valOf_eq hb, wrapTo_eq]

theorem intSub_eq : intSub t a b = (patOf t (intOf t a - intOf t b), 0) := by rw [intSub, valOf_eq ha, valOf_eq hb, wrapTo_eq]

theorem intMul_eq : intMul t a b = (patOf t (intOf t a * intOf t b), 0) := by rw [intMul, valOf_eq ha, valOf_eq hb, wrapTo_eq]

/-- Bits [2w−1:w] of the product are its quotient by 2^w, wrapped to w bits. -/
theorem intMulHi_eq : intMulHi t a b = (patOf t (intOf t a * intOf t b / 2 ^ (8 * t.size)), 0) := by
  rw [intMulHi, valOf_eq ha, valOf_eq hb]
  have h := toNat_emod_sq_div (intOf t a * intOf t b) (Nat.two_pow_pos (8 * t.size))
  rw [← pow_add, ← Nat.two_mul] at h
  rw [unsgn, Ty.bits, h, patOf, BitVec.toNat_ofInt]
  push_cast
  rfl

theorem intMin_eq : intMin t a b = (patOf t (min (intOf t a) (intOf t b)), 0) := by rw [intMin, valOf_eq ha, valOf_eq hb, wrapTo_eq]

theorem intMax_eq : intMax t a b = (patOf t (max (intOf t a) (intOf t b)), 0) := by rw [intMax, valOf_eq ha, valOf_eq hb, wrapTo_eq]

theorem intDiv_eq : intDiv t a b = (patOf t (if intOf t b = 0 then -1 else (intOf t a).tdiv (intOf t b)), 0) := by
  rw [intDiv, valOf_eq ha, valOf_eq hb]
  split
  · rw [patOf_neg_one]
    rfl
  · rw [wrapTo_eq]

/-- The remainder takes the dividend's sign: it is what the truncated quotient leaves (R155). -/
theorem intRem_eq : intRem t a b =
    (patOf t (if intOf t b = 0 then intOf t a else intOf t a - intOf t b * (intOf t a).tdiv (intOf t b)), 0) := by
  rw [intRem, valOf_eq ha, valOf_eq hb, ← Int.tmod_def]
  split <;> rw [wrapTo_eq]


end

/-! ### Ranges of the types (R133, R155) -/

theorem tyMin_eq (t : Ty) : tyMin t = if t.signed then -2 ^ (8 * t.size - 1) else 0 := by
  simp [tyMin]

theorem tyMax_eq (t : Ty) : tyMax t = if t.signed then 2 ^ (8 * t.size - 1) - 1 else 2 ^ (8 * t.size) - 1 := by
  simp [tyMax]

theorem tyMin_le_tyMax (t : Ty) : tyMin t ≤ tyMax t := by cases t <;> decide

theorem clampTo_eq_max_min (t : Ty) (v : Int) : clampTo t v = max (tyMin t) (min (tyMax t) v) := by
  have := tyMin_le_tyMax t
  unfold clampTo
  split
  · omega
  · split <;> omega

theorem clampTo_eq_self {t : Ty} {v : Int} : clampTo t v = v ↔ tyMin t ≤ v ∧ v ≤ tyMax t := by
  have := tyMin_le_tyMax t
  rw [clampTo_eq_max_min]
  omega

/-- A saturating sum or difference is the end of the range that it passes, with SAT, or itself (R155). -/
theorem intAddSat_eq {t : Ty} {a b : Nat} (ha : a < 2 ^ (8 * t.size)) (hb : b < 2 ^ (8 * t.size)) (dif : Bool) : intAddSat t dif a b =
    let v := if dif then intOf t a - intOf t b else intOf t a + intOf t b
    (patOf t (if v < tyMin t then tyMin t else if tyMax t < v then tyMax t else v), if v < tyMin t then 64 else if tyMax t < v then 64 else 0) := by
  rw [intAddSat, valOf_eq ha, valOf_eq hb]
  generalize (if dif then intOf t a - intOf t b else intOf t a + intOf t b) = v
  simp only [wrapTo_eq, clampTo_eq_self]
  by_cases hlo : v < tyMin t
  · rw [clampTo, if_pos hlo, if_pos hlo, if_neg (by omega)]
    rfl
  · by_cases hhi : tyMax t < v
    · rw [clampTo, if_neg hlo, if_neg hlo, if_pos hhi, if_pos hhi, if_neg (by omega)]
      rfl
    · rw [clampTo, if_neg hlo, if_neg hlo, if_neg hhi, if_neg hhi, if_pos (by omega)]

/-! ### Forms whose operands all take the width of TY -/

/-- The outcome of a form is known from the state that its run gives. -/
theorem next_congr {t u : State} (h : t = u) : (Host.Outcome.next t : Host.Outcome State Fault Refusal) = .next u := congrArg _ h

/-- A two-source form whose operands are ready goes on with what its function gives on their values. -/
theorem next_binTy {s : State} {f : Bin} {fk : Nat} {x : Fibre} (h : Issues s f.g fk x) (hr : Bin.ready s fk f f.ty.wide f.ty.wide f.ty.wide = true)
    (op : Ty → Nat → Nat → Nat × Nat) {r fl : Nat} (hop : op f.ty (value s fk f.a f.ia f.ty.wide) (value s fk f.b f.ib f.ty.wide) = (r, fl)) :
    (Host.Outcome.next (binTy s f op) : Host.Outcome State Fault Refusal) = .next (gives s fk f.d f.id f.ty.wide f.ty r fl) := by
  rw [binTy, runBin_ready h hr .inl, hop]

/-- Settles O1: each form's integer function is the exact one of the obligation, on operands that fill the width of TY. -/
theorem integerResults : Obligations.IntegerResults := by
  unfold Obligations.IntegerResults
  intro s fk x
  refine ⟨?_, ?_, ?_, ?_, ?_⟩
  · intro f h hint hr
    have ha := value_lt_bits (isBits_of_isInt hint) s fk f.a f.ia
    have hb := value_lt_bits (isBits_of_isInt hint) s fk f.b f.ib
    refine ⟨next_binTy h hr intAdd (intAdd_eq ha hb), next_binTy h hr intSub (intSub_eq ha hb), next_binTy h hr intMul (intMul_eq ha hb),
      next_binTy h hr intMulHi (intMulHi_eq ha hb), next_binTy h hr intMin (intMin_eq ha hb), next_binTy h hr intMax (intMax_eq ha hb), ?_, ?_, fun dif => ?_⟩
    · refine (next_binTy h hr intDiv (intDiv_eq ha hb)).trans ?_
      split <;> rfl
    · refine (next_binTy h hr intRem (intRem_eq ha hb)).trans ?_
      split <;> rfl
    · refine (next_binTy h hr (fun t => intAddSat t dif) (intAddSat_eq ha hb dif)).trans ?_
      simp only [← tyMin_eq, ← tyMax_eq]
      generalize (if dif = true then _ else _ : Int) = v
      by_cases hlo : v < tyMin f.ty
      · simp only [if_pos hlo]
      · by_cases hhi : tyMax f.ty < v
        · simp only [if_neg hlo, if_pos hhi]
        · simp only [if_neg hlo, if_neg hhi]
  · intro f h hty hr
    have hsize : ∀ o ind, value s fk o ind false < 2 ^ (8 * f.ty.size) := fun o ind => by
      rcases hty with e | e <;> rw [e] <;> exact value_narrow_lt s fk o ind
    refine next_congr ?_
    rw [runBin_ready h hr nofun, intMulWide, valOf_eq (hsize _ _), valOf_eq (hsize _ _), unsgn_eq]
  · intro f h hint hr
    have ha := value_lt_bits (isBits_of_isInt hint) s fk f.a f.ia
    refine next_congr ?_
    rw [runImm_ready h hr, intAdd, valOf_eq ha, wrapTo_eq, patOf_add_immVal]
    rfl
  · intro f h hint hr
    have lt := value_lt_bits (isBits_of_isInt hint) s fk
    refine next_congr ?_
    rw [runTri_ready h hr .inl, intMad, valOf_eq (lt _ _), valOf_eq (lt _ _), valOf_eq (lt _ _), wrapTo_eq]
  · intro f h hty hr
    have hint : f.ty.isInt = true := by rcases hty with e | e <;> rw [e] <;> rfl
    refine next_congr ?_
    rw [runUn_ready h hr .inl, intAbs_eq (value_lt_bits (isBits_of_isInt hint) s fk f.a f.ia)]

end Sys2Proof.Proofs
end

section
/-!
PROOFS. The bitwise, shift, rotate and count forms (R158): the model's arithmetic on numbers is that of bit vectors of the form's width.
-/
namespace Sys2Proof.Proofs
open Sys2Proof Sys2Proof.Machine Sys2Proof.Laws

/-! ### Bits of a number -/

theorem testBit_bitReverse (n a i : Nat) : (bitReverse n a).testBit i = (decide (i < n) && a.testBit (n - 1 - i)) := by
  induction n generalizing a i with
  | zero => simp [bitReverse]
  | succ n ih =>
    have hlow : bitReverse n (a / 2) < 2 ^ n := Nat.lt_pow_two_of_testBit _ fun j hj => by simp [ih, Nat.not_lt.2 hj]
    rw [bitReverse, Nat.mul_comm, Nat.testBit_two_pow_mul_add _ hlow, ih]
    split
    · next hi =>
      rw [Nat.testBit_div_two, show n - 1 - i + 1 = n + 1 - 1 - i by omega]
      simp [hi, Nat.lt_succ_of_lt hi]
    · next hi =>
      rw [show a % 2 = a % 2 ^ 1 from rfl, Nat.testBit_mod_two_pow]
      by_cases hin : i = n
      · simp [hin]
      · simp [show ¬ i - n < 1 by omega, show ¬ i < n + 1 by omega]

theorem bitReverse_eq (w a : Nat) : bitReverse w a = (BitVec.ofNat w a).reverse.toNat := by
  refine Nat.eq_of_testBit_eq fun i => ?_
  rw [testBit_bitReverse, BitVec.testBit_toNat, BitVec.getLsbD_reverse, BitVec.getMsbD_eq_getLsbD, BitVec.getLsbD_ofNat]
  by_cases hi : i < w
  · simp [hi, show w - 1 - i < w by omega]
  · simp [hi]

theorem countOnes_eq (n a : Nat) : countOnes n a = ((List.range n).filter fun i => a.testBit i).length := by
  induction n generalizing a with
  | zero => rfl
  | succ n ih =>
    rw [countOnes, ih, List.range_succ_eq_map, List.filter_cons, List.filter_map, Nat.testBit_zero]
    simp only [Nat.testBit_div_two, Function.comp_def]
    rcases Nat.mod_two_eq_zero_or_one a with h | h <;> simp [h, Nat.add_comm]

theorem bitNot_eq {t : Ty} {a : Nat} (ha : a < 2 ^ (8 * t.size)) : bitNot t a = ((~~~ BitVec.ofNat (8 * t.size) a).toNat, 0) := by
  rw [bitNot, Ty.bits, BitVec.toNat_not, BitVec.toNat_ofNat, Nat.mod_eq_of_lt ha]

/-! ### Shifts and rotations -/

theorem shiftL_eq (t : Ty) (a b : Nat) : shiftL t a b = (if b % 256 < 8 * t.size then a * 2 ^ (b % 256) % 2 ^ (8 * t.size) else 0, 0) := rfl

/-- A signed number shifted right by its width, or further, is its sign in every bit. -/
theorem ediv_two_pow_min {w : Nat} (c : Nat) {x : Int} (hlo : -2 ^ w ≤ x) (hhi : x < 2 ^ w) : x / (2 ^ min c w : Nat) = x / 2 ^ c := by
  rcases Nat.le_total c w with h | h
  · rw [min_eq_left h]
    norm_cast
  · have hpow : (2 : Int) ^ w ≤ 2 ^ c := pow_le_pow_right₀ (by decide) h
    rw [min_eq_right h]
    push_cast
    rcases Int.lt_or_le x 0 with hx | hx
    · rw [Int.ediv_eq_neg_one_of_neg_of_le hx (by omega), Int.ediv_eq_neg_one_of_neg_of_le hx (by omega)]
    · rw [Int.ediv_eq_zero_of_lt hx hhi, Int.ediv_eq_zero_of_lt hx (by omega)]

theorem shiftR_eq (t : Ty) (a b : Nat) : shiftR t a b =
    (if t.signed then ((BitVec.ofNat (8 * t.size) a).sshiftRight (b % 256)).toNat else if b % 256 < 8 * t.size then a / 2 ^ (b % 256) else 0, 0) := by
  cases hs : t.signed with
  | false =>
    simp only [shiftR, hs, Ty.bits, Bool.false_eq_true, if_false]
    rfl
  | true =>
    have hpow : (2 : Int) ^ (8 * t.size - 1) ≤ 2 ^ (8 * t.size) := pow_le_pow_right₀ (by decide) (by omega)
    have hlo := BitVec.le_toInt (BitVec.ofNat (8 * t.size) a)
    have hhi := BitVec.toInt_lt (x := BitVec.ofNat (8 * t.size) a)
    rw [shiftR, hs, if_pos rfl, if_pos rfl, sgn_eq, unsgn_eq, Ty.bits, ediv_two_pow_min _ (by omega) (by omega), BitVec.sshiftRight_eq,
      Int.shiftRight_eq_div_pow]
    norm_cast

/-- The two parts of a rotation have no bit in common. -/
theorem shifted_parts {w k a : Nat} (hk : k ≤ w) (ha : a < 2 ^ w) : a * 2 ^ k % 2 ^ w + a / 2 ^ (w - k) = a <<< k % 2 ^ w ||| a >>> (w - k) := by
  have hw : 2 ^ w = 2 ^ (w - k) * 2 ^ k := by rw [← pow_add, Nat.sub_add_cancel hk]
  have hhigh : a * 2 ^ k % 2 ^ w = 2 ^ k * (a % 2 ^ (w - k)) := by rw [hw, Nat.mul_mod_mul_right, Nat.mul_comm]
  have hlow : a / 2 ^ (w - k) < 2 ^ k := Nat.div_lt_of_lt_mul (hw ▸ ha)
  rw [Nat.shiftLeft_eq, Nat.shiftRight_eq_div_pow, hhigh, Nat.two_pow_add_eq_or_of_lt hlow]

theorem rotate_left_eq {t : Ty} {a : Nat} (ha : a < 2 ^ (8 * t.size)) (b : Nat) :
    rotate t false a b = (((BitVec.ofNat (8 * t.size) a).rotateLeft (b % 256 % (8 * t.size))).toNat, 0) := by
  have hc : b % 256 % (8 * t.size) < 8 * t.size := Nat.mod_lt _ (by have := size_pos t; omega)
  rw [BitVec.toNat_rotateLeft, BitVec.toNat_ofNat, Nat.mod_eq_of_lt ha, Nat.mod_eq_of_lt hc, ← shifted_parts (Nat.le_of_lt hc) ha]
  rfl

theorem rotate_right_eq {t : Ty} {a : Nat} (ha : a < 2 ^ (8 * t.size)) (b : Nat) :
    rotate t true a b = (((BitVec.ofNat (8 * t.size) a).rotateRight (b % 256 % (8 * t.size))).toNat, 0) := by
  have hc : b % 256 % (8 * t.size) < 8 * t.size := Nat.mod_lt _ (by have := size_pos t; omega)
  rw [BitVec.toNat_rotateRight, BitVec.toNat_ofNat, Nat.mod_eq_of_lt ha, Nat.mod_eq_of_lt hc, Nat.or_comm]
  simp only [rotate, Ty.bits, if_true]
  generalize b % 256 % (8 * t.size) = c at hc ⊢
  rcases Nat.eq_zero_or_pos c with rfl | hpos
  · simp [Nat.shiftLeft_eq, Nat.mod_eq_of_lt ha, Nat.div_eq_of_lt ha]
  · have h := shifted_parts (Nat.sub_le (8 * t.size) c) ha
    rw [Nat.sub_sub_self (Nat.le_of_lt hc)] at h
    rw [Nat.mod_eq_of_lt (Nat.sub_lt (by omega) hpos), Nat.sub_sub_self (Nat.le_of_lt hc), h]

/-- Settles O2: each form's function is that of the obligation, on operands that fill the width of TY. -/
theorem logicResults : Obligations.LogicResults := by
  unfold Obligations.LogicResults
  intro s fk x
  refine ⟨?_, ?_, ?_, ?_⟩
  · intro f h _ hr
    exact ⟨next_binTy h hr (fun _ => bitAnd) rfl, next_binTy h hr (fun _ => bitOr) rfl, next_binTy h hr (fun _ => bitXor) rfl⟩
  · intro f h _ hr
    have run (op : Nat → Nat → Nat × Nat) (b : Nat) : runImm s f op b = gives s fk f.d f.id f.ty.wide f.ty (op (value s fk f.a f.ia f.ty.wide) b).1
        (op (value s fk f.a f.ia f.ty.wide) b).2 := runImm_ready h hr
    intro w a b out himm
    refine ⟨?_, fun hlt => ?_⟩
    · have hb := immVal_eq_patOf (t := f.ty) himm
      refine ⟨next_congr ?_, next_congr ?_, next_congr ?_⟩ <;> rw [run, hb] <;> rfl
    · have hc : f.imm % 256 = f.imm := Nat.mod_eq_of_lt himm
      refine ⟨next_congr ?_, next_congr ?_⟩
      · rw [run, shiftL_eq, hc, if_pos hlt]
      · rw [run, shiftR_eq, hc, if_pos hlt]
  · intro f h hr
    have run (op : Nat → Nat → Nat × Nat) : runBin s f f.ty.wide f.ty.wide false op = gives s fk f.d f.id f.ty.wide f.ty
        (op (value s fk f.a f.ia f.ty.wide) (value s fk f.b f.ib false)).1 (op (value s fk f.a f.ia f.ty.wide) (value s fk f.b f.ib false)).2 :=
      runBin_ready h hr .inl
    refine ⟨fun hbits => ⟨next_congr ?_, next_congr ?_⟩, fun hw64 => ?_⟩
    · rw [run, shiftL_eq]
    · rw [run, shiftR_eq]
    · have ha := value_lt_bits (isBits_of_isW64 hw64) s fk f.a f.ia
      refine ⟨next_congr ?_, next_congr ?_⟩
      · rw [run, rotate_left_eq ha]
      · rw [run, rotate_right_eq ha]
  · intro f h
    refine ⟨fun hbits hr => next_congr ?_, fun hw64 hr => next_congr ?_, fun hw64 hr => ?_⟩
    · rw [runUn_ready h hr .inl, bitNot_eq (value_lt_bits hbits s fk f.a f.ia)]
    · rw [runUn_ready h hr .inl, ← bitReverse_eq]
      rfl
    · have hunsigned : f.ty.signed = false := by
        revert hw64
        cases f.ty <;> decide
      refine ⟨next_congr ?_, next_congr ?_⟩
      · rw [runUn_ready h hr fun _ => .inr hunsigned, ← countOnes_eq]
        rfl
      · rw [runUn_ready h hr fun _ => .inr hunsigned]
        rfl

end Sys2Proof.Proofs
end

section
/-!
PROOFS. Fields and pointers (R159 to R164): `bfx`, `bfi`, `bsel`, `ext`, `movi` and `lea`.
-/
namespace Sys2Proof.Proofs
open Sys2Proof Sys2Proof.Machine Sys2Proof.Laws

/-! ### bfx and bfi (R159, R160) -/

theorem bitExtract_eq {t : Ty} {a : Nat} (ha : a < 2 ^ (8 * t.size)) (b c : Nat) : bitExtract t a b c =
    let fld := BitVec.ofInt (min (c % 256) (8 * t.size)) (intOf t a / 2 ^ (b % 256))
    (if t.signed then patOf t fld.toInt else fld.toNat, 0) := by
  rw [bitExtract, valOf_eq ha]
  simp only [Ty.bits, sgn_eq, unsgn_eq]
  generalize min (c % 256) (8 * t.size) = len
  split
  · next hlen =>
    subst hlen
    simp [patOf, BitVec.of_length_zero]
  · change (if t.signed then patOf t (BitVec.ofNat len (unsgn len _)).toInt else unsgn len _, 0) = _
    rw [unsgn_eq, BitVec.ofNat_toNat, BitVec.setWidth_eq]
    push_cast
    rfl

/-- The bits of a number with a field replaced. -/
theorem testBit_setBits (x lo n v i : Nat) : (setBits x lo n v).testBit i = if lo ≤ i ∧ i < lo + n then v.testBit (i - lo) else x.testBit i := by
  have hlow : x % 2 ^ lo < 2 ^ lo := Nat.mod_lt _ (Nat.two_pow_pos lo)
  have hfield : v % 2 ^ n < 2 ^ n := Nat.mod_lt _ (Nat.two_pow_pos n)
  have hnum : setBits x lo n v = 2 ^ lo * (2 ^ n * (x / 2 ^ (lo + n)) + v % 2 ^ n) + x % 2 ^ lo := by
    rw [setBits, pow_add]
    ring
  rw [hnum, Nat.testBit_two_pow_mul_add _ hlow]
  split
  · next hi => rw [Nat.testBit_mod_two_pow, if_neg (by omega)]; simp [hi]
  · next hi =>
    rw [Nat.testBit_two_pow_mul_add _ hfield]
    split
    · next hn => rw [Nat.testBit_mod_two_pow, if_pos (by omega)]; simp [hn]
    · next hn => rw [Nat.testBit_div_two_pow, if_neg (by omega), show i - lo - n + (lo + n) = i by omega]

theorem setBits_lt {x lo n w : Nat} (hx : x < 2 ^ w) (hn : lo + n ≤ w) (v : Nat) : setBits x lo n v < 2 ^ w :=
  Nat.lt_pow_two_of_testBit _ fun i hi => by
    rw [testBit_setBits, if_neg (by omega)]
    exact Nat.testBit_lt_two_pow (lt_of_lt_of_le hx (Nat.pow_le_pow_right (by decide) hi))

/-- `bfi` (R160): bits at or above w are not written. -/
theorem bitInsert_spec {t : Ty} (a c : Nat) {b : Nat} (hb : b < 2 ^ (8 * t.size)) :
    ∃ r < 2 ^ (8 * t.size), bitInsert t a b c = (r, 0) ∧ ∀ i < 8 * t.size,
      r.testBit i = if c % 256 ≤ i ∧ i < c % 256 + c / 256 % 256 then a.testBit (i - c % 256) else b.testBit i := by
  generalize hpos : c % 256 = pos
  generalize hlen : c / 256 % 256 = len
  simp only [bitInsert, Ty.bits, hpos, hlen]
  split
  · next hnone => exact ⟨b, hb, rfl, fun i hi => by rw [if_neg (by omega)]⟩
  · next hsome =>
    refine ⟨_, setBits_lt hb (by omega) a, rfl, fun i hi => ?_⟩
    rw [testBit_setBits]
    exact if_congr (by omega) rfl rfl

/-! ### bsel and ext (R161, R162) -/

theorem selByte_eq (a b : Nat) (j : Nat) : selByte a (b / 2 ^ (8 * j) % 256) =
    let sel := b / 2 ^ (8 * j) % 256
    let src := a / 2 ^ (8 * (sel % 4)) % 256
    if sel.testBit 7 then 0 else if sel.testBit 6 then (if src.testBit 7 then 255 else 0) else src := by
  generalize b / 2 ^ (8 * j) % 256 = sel
  have hsrc : a / 256 ^ (sel % 4) = a / 2 ^ (8 * (sel % 4)) := by rw [pow_mul]; norm_num
  have hsign (x : Nat) (hx : x < 256) : (128 ≤ x) ↔ x.testBit 7 = true := by
    rw [Nat.testBit_eq_decide_div_mod_eq, decide_eq_true_iff]
    omega
  simp only [selByte, bit_eq, hsrc, ge_iff_le, hsign _ (Nat.mod_lt _ (by decide : 0 < 256))]

/-- The word that `bsel` gathers: the byte that each of the four selectors names (R161). -/
def gathered (a b : Nat) : Nat :=
  let sel := fun (j : Nat) => b / 2 ^ (8 * j) % 256
  let src := fun (j : Nat) => a / 2 ^ (8 * (sel j % 4)) % 256
  let byte := fun (j : Nat) => if (sel j).testBit 7 then 0 else if (sel j).testBit 6 then (if (src j).testBit 7 then 255 else 0) else src j
  byte 0 + byte 1 * 2 ^ 8 + byte 2 * 2 ^ 16 + byte 3 * 2 ^ 24

theorem byteSelect_eq (a b : Nat) : byteSelect a b = (gathered a b, 0) := by
  have h0 : b % 256 = b / 2 ^ (8 * 0) % 256 := by simp
  rw [byteSelect, h0, selByte_eq a b 0, selByte_eq a b 1, selByte_eq a b 2, selByte_eq a b 3]
  rfl

/-- The types of `ext` are one register wide, and only a word is extended to two (R162). -/
theorem size_of_extOk : ∀ {t : Ty} {e : Nat}, extOk t e = true → t.wide = false ∧ (t.size == 4) = (t == .i32 || t == .z32) := by
  intro t e
  cases t <;> simp [extOk, Ty.wide, Ty.size]

theorem extElem_eq {t : Ty} {n : Nat} (hn : n = if 8 * t.size = 32 then 64 else 32) (e a : Nat) : extElem t e a =
    let el := BitVec.ofNat (8 * t.size) (a / 2 ^ (8 * t.size * e))
    (if t.signed then (BitVec.ofInt n el.toInt).toNat else el.toNat, 0) := by
  have hmod (w y : Nat) : BitVec.ofNat w (y % 2 ^ w) = BitVec.ofNat w y := BitVec.eq_of_toNat_eq (by simp)
  subst hn
  simp only [extElem, Ty.bits, unsgn_eq, sgn_eq, BitVec.toNat_ofNat, hmod]
  rfl

/-! ### lea (R164) -/

theorem leaPtr_eq {a : Nat} (k b : Nat) (ha : a < 2 ^ 64) : leaPtr k a b =
    (a / 2 ^ 56 * 2 ^ 56 + ((((a % 2 ^ 56 : Nat) : Int) + (BitVec.ofNat 32 b).toInt * 2 ^ k) % 2 ^ 56).toNat, 0) := by
  rw [leaPtr, sgn_eq, Nat.mod_eq_of_lt (a := a / 2 ^ 56) (by omega)]
  simp only [unsgn]
  push_cast
  rfl

/-- Settles O3: each form's function is that of the obligation, on operands that fill the registers they are read from. -/
theorem fieldResults : Obligations.FieldResults := by
  unfold Obligations.FieldResults
  intro s fk x
  refine ⟨?_, ?_, ?_, ?_, ?_, ?_⟩
  · intro f h hint hr
    refine next_congr ?_
    rw [runTri_ready h hr .inl, bitExtract_eq (value_lt_bits (isBits_of_isInt hint) s fk f.a false)]
  · intro f h hw64 hr
    obtain ⟨r, hlt, hr', hbit⟩ := bitInsert_spec (value s fk f.a false f.ty.wide) (value s fk f.c false false)
      (value_lt_bits (isBits_of_isW64 hw64) s fk f.b false)
    refine ⟨r, hlt, next_congr ?_, hbit⟩
    rw [runTri_ready h hr .inl, hr']
  · intro f h hty hr
    refine next_congr ?_
    rw [runBin_ready h hr fun _ => .inl (by rw [hty]; rfl), byteSelect_eq]
    rfl
  · intro f e h hok wide hr
    obtain ⟨hnarrow, hsize⟩ := size_of_extOk hok
    have hword : (if wide then 64 else 32) = if 8 * f.ty.size = 32 then 64 else 32 := by
      change (if (f.ty == .i32 || f.ty == .z32) = true then 64 else 32) = _
      rw [← hsize]
      exact if_congr (by simp; omega) rfl rfl
    refine next_congr ?_
    rw [hsize, runUn_ready h hr fun _ => .inl hnarrow, extElem_eq hword]
  · intro f h himm hd
    refine next_congr ?_
    rw [runAlu_reg h hd rfl (srcsReady_all (srcs := []) nofun) rfl .inl]
    cases hs : f.ty.signed with
    | true => rw [immVal_signed hs]; rfl
    | false => rw [immVal_unsigned hs]; rfl
  · intro f k h hty hk hr
    refine next_congr ?_
    rw [runBin_ready h hr nofun, leaPtr_eq _ _ (value_wide_lt s fk f.a f.ia)]

end Sys2Proof.Proofs
end

section
/-!
PROOFS. Compares and selection (R166 to R168): `cmp`, `cmpi`, `plog` and `sel`.
-/
namespace Sys2Proof.Proofs
open Sys2Proof Sys2Proof.Machine Sys2Proof.Laws

/-! ### Forms that set a predicate -/

theorem b2n_ne_zero (p : Bool) : (b2n p != 0) = p := by cases p <;> rfl

/-- A form that sets a predicate and no flag, its sources being ready. -/
theorem runAlu_givesP {s : State} {g : Guard} {fk : Nat} {x : Fibre} (h : Issues s g fk x) {p : Nat} {srcs : List Src} {need : State → Nat → List Bool}
    {op : State → Nat → List Nat → Except (FClass × Nat) (Nat × Nat)} {v : Bool} (hneed : need s fk = List.replicate srcs.length true)
    (hsrcs : ∀ y ∈ srcs, readable s fk y.o y.ind y.wide = true) (hop : op s fk (srcs.map fun y => value s fk y.o y.ind y.wide) = .ok (b2n v, 0)) :
    runAlu s g (.pred p) srcs need op = givesP s fk p v := by
  rw [runAlu_pred h (by rw [hneed, List.length_replicate]) (hneed ▸ srcsReady_all hsrcs) hop, b2n_ne_zero, orGsw_zero, givesP]

/-- The condition that a code names, of two integers (R165, R166). -/
def condition (cc : Nat) (a b : Int) : Bool :=
  match cc with
  | 0 => decide (a = b) | 1 => decide (a ≠ b) | 2 => decide (a < b) | 3 => decide (a ≤ b) | 4 => decide (b < a) | _ => decide (b ≤ a)

theorem condHolds_eq (t : Ty) (cc a b : Nat) : condHolds t cc a b = condition cc (valOf t a) (valOf t b) := rfl

theorem predOf_issues {s : State} {g : Guard} {fk : Nat} {x : Fibre} (h : Issues s g fk x) (p : Nat) : s.predOf fk p = x.pred p := by
  simp [State.predOf, h.fib]

theorem b2n_eq_toNat (p : Bool) : b2n p = p.toNat := by cases p <;> rfl

/-- Settles O4: the condition is that of the operands' integers, and `sel` needs only the selected source free of poison. -/
theorem compareAndSelectResults : Obligations.CompareAndSelectResults := by
  unfold Obligations.CompareAndSelectResults
  intro s fk x
  refine ⟨?_, ?_, ?_, ?_⟩
  · intro f h hbits _ ha hb
    refine next_congr (runAlu_givesP h rfl (by simp [ha, hb]) (congrArg (fun v => Except.ok (b2n v, 0)) ?_))
    change condHolds f.ty f.cc (value s fk f.a f.ia f.ty.wide) (value s fk f.b f.ib f.ty.wide) = _
    rw [condHolds_eq, valOf_eq (value_lt_bits hbits s fk _ _), valOf_eq (value_lt_bits hbits s fk _ _)]
    rfl
  · intro f h hbits _ himm ha
    have hlt : f.imm < 2 ^ (8 * f.ty.size) := lt_of_lt_of_le himm (Nat.pow_le_pow_right (by decide : 0 < 2) (by have := size_pos f.ty; omega : 8 ≤ 8 * f.ty.size))
    refine next_congr (runAlu_givesP h rfl (by simp [ha]) (congrArg (fun v => Except.ok (b2n v, 0)) ?_))
    change condHolds f.ty f.cc (value s fk f.a f.ia f.ty.wide) (immVal f.ty f.imm) = _
    rw [condHolds_eq, valOf_eq (value_lt_bits hbits s fk _ _), valOf_immVal, Nat.mod_eq_of_lt hlt]
    rfl
  · intro f h
    refine next_congr (runAlu_givesP h rfl nofun ?_)
    rw [predOf_issues h, predOf_issues h, bit_eq, b2n_eq_toNat (x.pred f.pa), b2n_eq_toNat (x.pred f.pb)]
  · intro f h hd ha hb c hc
    have hsrcs : srcsReady s fk [⟨f.a, false, f.ty.wide⟩, ⟨f.b, false, f.ty.wide⟩] [x.pred f.p, !(x.pred f.p)] := by
      intro y hy
      simp only [List.zip_cons_cons, List.zip_nil_right, List.mem_cons, List.not_mem_nil, or_false] at hy
      rcases hy with rfl | rfl
      · exact ⟨ha, fun hp => by simpa [c, show x.pred f.p = true from hp] using hc⟩
      · exact ⟨hb, fun hp => by simpa [c, show x.pred f.p = false by simpa using hp] using hc⟩
    refine next_congr ?_
    rw [runAlu_reg (r := (value s fk c false f.ty.wide, 0)) h hd rfl (by simpa only [predOf_issues h] using hsrcs) ?_ .inl]
    rw [predOf_issues h]
    cases hp : x.pred f.p <;> simp [c, hp]

end Sys2Proof.Proofs
end

section
/-!
PROOFS. Floating-point forms (R149, R170 to R172, R174): each writes what its number function gives on the elements of its operands.
-/
namespace Sys2Proof.Proofs
open Sys2Proof Sys2Proof.Machine Sys2Proof.Laws

/-! ### Forms on floating-point elements (R149) -/

theorem narrow_of_isFph : ∀ {t : Ty}, t.isFph = true → t.wide = false := by
  intro t
  cases t <;> decide

theorem binF_ready {s : State} {f : Bin} {fk : Nat} {x : Fibre} (h : Issues s f.g fk x) (hty : f.ty.isFph = true)
    (hr : Bin.ready s fk f false false false = true) (op : Fmt → Nat → Nat → Nat × Nat) :
    binF s f op = gives s fk f.d f.id false f.ty
      (op (fmtOf f.ty) (elemOf f.ty (value s fk f.a f.ia false)) (elemOf f.ty (value s fk f.b f.ib false))).1
      (op (fmtOf f.ty) (elemOf f.ty (value s fk f.a f.ia false)) (elemOf f.ty (value s fk f.b f.ib false))).2 :=
  runBin_ready h hr fun _ => .inl (narrow_of_isFph hty)

theorem unF_ready {s : State} {f : Un} {fk : Nat} {x : Fibre} (h : Issues s f.g fk x) (hty : f.ty.isFph = true)
    (hr : Un.ready s fk f false false = true) (op : Fmt → Nat → Nat × Nat) :
    unF s f op = gives s fk f.d f.id false f.ty (op (fmtOf f.ty) (elemOf f.ty (value s fk f.a f.ia false))).1
      (op (fmtOf f.ty) (elemOf f.ty (value s fk f.a f.ia false))).2 :=
  runUn_ready h hr fun _ => .inl (narrow_of_isFph hty)

/-- Settles O5: the forms on FP32 take the format of FP32 and the whole word, the others those of their type. -/
theorem floatResults : Obligations.FloatResults := by
  unfold Obligations.FloatResults
  intro s fk x
  refine ⟨?_, ?_, ?_⟩
  · intro f rm h hty hr
    have run (op : Fmt → Nat → Nat → Nat × Nat) := next_congr (binF_ready h hty hr op)
    refine ⟨fun h32 => ?_, run fun k => fMinMax k false, run fun k => fMinMax k true⟩
    rw [show fmtOf f.ty = fmt32 from h32 ▸ rfl] at run
    exact ⟨run fun k => fAdd k rm, run fun k => fSubt k rm, run fun k => fMul k rm, run fun k => fDivide k rm⟩
  · intro f rm h h32 hr
    have run (op : Fmt → Nat → Nat × Nat) := next_congr (unF_ready h (h32 ▸ rfl) hr op)
    rw [show fmtOf f.ty = fmt32 from h32 ▸ rfl, show ∀ y, elemOf f.ty y = y from h32 ▸ fun _ => rfl] at run
    exact ⟨run fun k => fSquareRoot k rm, run fun k => fRound k rm, run fun _ => fRecip, run fun _ => fRecipSqrt, run fun _ => fExp2, run fun _ => fLog2⟩
  · intro f h hr
    have run (op : Nat → Nat → Nat → Nat × Nat) (hty : f.ty.isFph = true) :=
      next_congr (runTri_ready h hr (fun _ => .inl (narrow_of_isFph hty)) (op := op))
    exact ⟨fun h32 => run (fFma fmt32 f.rm) (h32 ▸ rfl), fun h16 => run (fDot2 (fmtOf f.ty) f.rm) (by rcases h16 with e | e <;> rw [e] <;> rfl)⟩

end Sys2Proof.Proofs
end

section
/-!
PROOFS. Signs, classes, comparison and the status word (R173, R175 to R177): `fabs`, `fneg`, `fclass`, `fcmp` and `fstat`.
-/
namespace Sys2Proof.Proofs
open Sys2Proof Sys2Proof.Machine Sys2Proof.Laws

/-! ### The fields of a floating-point pattern (R129) -/

/-- The exponent bits of a floating-point type: those between its fraction and its sign. -/
def expBits (t : Ty) : Nat := 8 * t.size - 1 - (fmtOf t).f

/-- The layout of a floating-point type: fraction, exponent, sign. -/
theorem layout_of_isFph : ∀ {t : Ty}, t.isFph = true →
    8 * t.size - 1 = (fmtOf t).f + expBits t ∧ (fmtOf t).emax + 1 = 2 ^ expBits t ∧ (fmtOf t).f + ((fmtOf t).emax + 1).log2 = 8 * t.size - 1 := by
  intro t
  cases t <;> decide

theorem elemOf_eq_mod {t : Ty} (ht : t.isFph = true) {v : Nat} (hv : v < 2 ^ 32) : elemOf t v = v % 2 ^ (8 * t.size) := by
  revert ht
  cases t <;> simp [Ty.isFph, elemOf, Ty.size]
  omega

theorem elemOf_lt {t : Ty} (ht : t.isFph = true) {v : Nat} (hv : v < 2 ^ 32) : elemOf t v < 2 ^ (8 * t.size) := by
  rw [elemOf_eq_mod ht hv]
  exact Nat.mod_lt _ (Nat.two_pow_pos _)

/-! ### fabs and fneg (R173) -/

theorem xor_two_pow_of_lt {a i : Nat} (ha : a < 2 ^ i) : a ^^^ 2 ^ i = a + 2 ^ i := by
  refine Nat.eq_of_testBit_eq fun j => ?_
  rw [Nat.testBit_xor, Nat.testBit_two_pow, show a + 2 ^ i = 2 ^ i * 1 + a by ring, Nat.testBit_two_pow_mul_add _ ha]
  rcases Nat.lt_trichotomy j i with hj | rfl | hj
  · simp [hj, Nat.ne_of_gt hj]
  · simp [Nat.testBit_lt_two_pow ha]
  · have hlt : a < 2 ^ j := lt_trans ha (Nat.pow_lt_pow_right (by decide) hj)
    have hone : (1 : Nat).testBit (j - i) = false := Nat.testBit_lt_two_pow (Nat.one_lt_two_pow (by omega))
    simp [Nat.testBit_lt_two_pow hlt, Nat.ne_of_lt hj, Nat.not_lt_of_gt hj, hone]

/-- A number of `i + 1` bits with bit `i` inverted. -/
theorem xor_two_pow {a i : Nat} (ha : a < 2 ^ (i + 1)) : a ^^^ 2 ^ i = if a.testBit i then a - 2 ^ i else a + 2 ^ i := by
  rw [pow_succ] at ha
  split
  · next h =>
    have hge : 2 ^ i ≤ a := Nat.ge_two_pow_of_testBit h
    have hx := xor_two_pow_of_lt (a := a - 2 ^ i) (i := i) (by omega)
    rw [Nat.sub_add_cancel hge] at hx
    conv_lhs => rw [← hx]
    rw [Nat.xor_assoc, Nat.xor_self, Nat.xor_zero]
  · next h =>
    refine xor_two_pow_of_lt (Nat.lt_of_not_le fun hge => h ?_)
    rw [Nat.testBit_eq_decide_div_mod_eq, decide_eq_true_iff, show a / 2 ^ i = 1 from Nat.div_eq_of_lt_le (by omega) (by omega)]

theorem flipSign_eq {t : Ty} (ht : t.isFph = true) {a : Nat} (ha : a < 2 ^ (8 * t.size)) : flipSign (fmtOf t) a = a ^^^ 2 ^ (8 * t.size - 1) := by
  obtain ⟨-, -, hsign⟩ := layout_of_isFph ht
  have hpos := size_pos t
  rw [xor_two_pow (by rwa [Nat.sub_add_cancel (by omega)]), flipSign, signBit, if_pos rfl, hsign, bit_eq]

/-! ### fclass (R176) -/

/-- The class of a pattern of `w` bits with `fr` fraction bits, by its fields. -/
def classOf (w fr a : Nat) : Nat :=
  let ex := a % 2 ^ (w - 1) / 2 ^ fr
  let top := 2 ^ (w - 1 - fr) - 1
  let neg := a.testBit (w - 1)
  if ex = top then (if a % 2 ^ fr ≠ 0 then 0 else if neg then 1 else 7)
  else if ex = 0 then (if a % 2 ^ fr = 0 then 4 else if neg then 3 else 5) else if neg then 2 else 6

theorem fClassOf_eq {t : Ty} (ht : t.isFph = true) (a : Nat) : fClassOf (fmtOf t) a = classOf (8 * t.size) (fmtOf t).f a := by
  obtain ⟨hwidth, htop, hsign⟩ := layout_of_isFph ht
  have hemax : 2 ^ (8 * t.size - 1 - (fmtOf t).f) - 1 = (fmtOf t).emax := by
    rw [show 8 * t.size - 1 - (fmtOf t).f = expBits t from rfl]
    omega
  have hex : a % 2 ^ (8 * t.size - 1) / 2 ^ (fmtOf t).f = a / 2 ^ (fmtOf t).f % 2 ^ expBits t := by rw [hwidth, pow_add, Nat.mod_mul_right_div_self]
  have hfrac : a % 2 ^ (fmtOf t).f < 2 ^ (fmtOf t).f := Nat.mod_lt _ (Nat.two_pow_pos _)
  rw [htop] at hsign
  simp only [fClassOf, unpack, hsign, htop, bit_eq, classOf, hemax, hex]
  by_cases hinf : a / 2 ^ (fmtOf t).f % 2 ^ expBits t = (fmtOf t).emax
  · by_cases hzero : a % 2 ^ (fmtOf t).f = 0 <;> simp [hinf, hzero]
  · by_cases hsub : a / 2 ^ (fmtOf t).f % 2 ^ expBits t = 0
    · rw [hsub] at hinf
      by_cases hzero : a % 2 ^ (fmtOf t).f = 0 <;> simp [hinf, hsub, hzero, hfrac]
    · simp [hinf, hsub]

/-! ### fcmp (R175) -/

theorem isNan_of_isSig {v : FVal} (h : v.isSig = true) : v.isNan = true := by cases v <;> simp_all [FVal.isSig, FVal.isNan]

/-- The outcome of a comparison without NaNs, from the order of the values as −1, 0 or 1. -/
def ordered (cc : Nat) (c : Int) : Bool :=
  match cc with
  | 0 => decide (c = 0) | 1 => decide (c ≠ 0) | 2 => decide (c < 0) | 3 => decide (c ≤ 0)
  | 4 => decide (0 < c) | 5 => decide (0 ≤ c) | 6 => false | _ => true

theorem fCompare_eq (k : Fmt) {cc : Nat} (hcc : cc < 8) (a b : Nat) : fCompare k cc a b =
    let x := unpack k a
    let y := unpack k b
    let nan := x.isNan || y.isNan
    (if nan then cc == 1 || cc == 6 else ordered cc (x.cmp y),
      if x.isSig || y.isSig || (nan && decide (2 ≤ cc) && decide (cc ≤ 5)) then 1 else 0) := by
  have hx := isNan_of_isSig (v := unpack k a)
  have hy := isNan_of_isSig (v := unpack k b)
  simp only [fCompare, sigFlag, List.any_cons, List.any_nil, Bool.or_false]
  generalize (unpack k a).isNan = nx, (unpack k b).isNan = ny, (unpack k a).isSig = sx, (unpack k b).isSig = sy at hx hy ⊢
  generalize (unpack k a).cmp (unpack k b) = c
  have hloud : (if (nx || ny) then fNV else 0) = if sx || sy || (nx || ny) then 1 else 0 := by
    cases sx <;> cases sy <;> simp_all [fNV]
  generalize (nx || ny) = un at hloud ⊢
  cases un with
  | false => interval_cases cc <;> simp_all [ordered]
  | true => interval_cases cc <;> simp [fNV]

/-! ### fstat (R139, R177) -/

section
variable {s : State} {fk : Nat} {b : Block} (hb : s.block? (fkBk fk) = some b) (hf : b.frames = [])
include hb hf

theorem blocks_setV (w : Who) (g r l v : Nat) : (s.setV w (fkBk fk) g r l v).blocks = s.blocks := by
  rw [State.setV, setVP_frameless hb hf, State.updFib_blocks]

theorem blocks_setU (w : Who) (g n v : Nat) : (s.setU w (fkBk fk) g n v).blocks = s.blocks := by
  rw [State.setU, setUP_frameless hb hf, State.updFib_blocks]

/-- Outside every frame a result that is written leaves the blocks as they were. -/
theorem blocks_put (o : Opnd) (ind wide : Bool) (ty : Ty) (r : Nat) : (put s fk o ind wide ty r).blocks = s.blocks := by
  cases o with
  | sp x => rfl
  | s n => exact blocks_setU hb hf ..
  | v n =>
    have hlo := blocks_setV hb hf (s.who fk) (fkG fk) (regOf s fk n ind) (fkL fk) (r % 2 ^ 32)
    cases wide with
    | false => exact hlo
    | true => exact (blocks_setV (by rw [State.block?, hlo]; exact hb) hf ..).trans hlo

theorem block?_put (o : Opnd) (ind wide : Bool) (ty : Ty) (r : Nat) : (put s fk o ind wide ty r).block? (fkBk fk) = some b := by
  rw [State.block?, blocks_put hb hf]
  exact hb

theorem group_put (o : Opnd) (ind wide : Bool) (ty : Ty) (r : Nat) : (put s fk o ind wide ty r).group (fkBk fk) (fkG fk) = s.group (fkBk fk) (fkG fk) := by
  rw [State.group, block?_put hb hf, State.group, hb]

end

theorem updFirst_congr {α : Type} {p : α → Bool} {f f' : α → α} {l : List α} {x : α} (hx : l.find? p = some x) (hff : f x = f' x) :
    updFirst p f l = updFirst p f' l := by
  induction l with
  | nil => rfl
  | cons y l ih =>
    by_cases hp : p y = true
    · rw [List.find?_cons_of_pos hp, Option.some.injEq] at hx
      rw [updFirst, updFirst, if_pos hp, if_pos hp, hx, hff]
    · rw [List.find?_cons_of_neg hp] at hx
      rw [updFirst, updFirst, if_neg hp, if_neg hp, ih hx]

theorem updFirst_id {α : Type} (p : α → Bool) (l : List α) : updFirst p (fun x => x) l = l := by
  induction l with
  | nil => rfl
  | cons y l ih => rw [updFirst, ih, ite_self]

/-- An update of a group is known by what it makes of the group. -/
theorem updGroup_congr {s : State} {bk g : Nat} {b : Block} (hb : s.block? bk = some b) {f f' : Group → Group} (hff : f (s.group bk g) = f' (s.group bk g)) :
    s.updGroup bk g f = s.updGroup bk g f' := by
  have hgroups : b.groups.modify g f = b.groups.modify g f' := by
    rw [State.group, hb] at hff
    refine List.ext_getElem (by simp) fun i hi hi' => ?_
    rw [List.getElem_modify, List.getElem_modify]
    split
    · next hg =>
      subst hg
      have hget := List.getD_eq_getElem b.groups Group.none (by simpa using hi)
      rwa [← hget]
    · rfl
  rw [State.updGroup, State.updBlock, updFirst_congr (f' := fun b => { b with groups := b.groups.modify g f' }) hb (by rw [hgroups])]
  rfl

theorem updGroup_self {s : State} {bk g : Nat} {b : Block} (hb : s.block? bk = some b) {f : Group → Group} (hf : f (s.group bk g) = s.group bk g) :
    s.updGroup bk g f = s := by
  rw [updGroup_congr (f' := id) hb hf, State.updGroup, State.updBlock]
  simp only [List.modify_id, updFirst_id]

/-- The flags of a group that are cleared outside every frame: nothing is saved, and where none of them is set nothing changes (R315). -/
theorem cleared_frameless {s : State} {bk : Nat} {b : Block} (hb : s.block? bk = some b) (hf : b.frames = []) (g m : Nat) (w : Who) :
    (if clearFlags (s.group bk g).gsw m = (s.group bk g).gsw then s
      else match s.record bk g .gsw with
        | none => s.noRoom bk w
        | some s => s.updGroup bk g fun gr => { gr with gsw := clearFlags gr.gsw m }) =
    s.updGroup bk g fun gr => { gr with gsw := clearFlags (s.group bk g).gsw m } := by
  split
  · next hsame => exact (updGroup_self hb (by rw [hsame])).symm
  · rw [record_frameless hb hf]
    exact updGroup_congr hb rfl

/-- `fstat.clr` writes the GSW and clears the named flags; where none of them is set, there is nothing to clear (R177). -/
theorem execFstatClr_ready {s : State} {f : Un} {fk : Nat} {x : Fibre} {b : Block} (h : Issues s f.g fk x) (hb : s.block? (fkBk fk) = some b)
    (hf : b.frames = []) (hr : Un.ready s fk f false false = true) :
    execFstatClr f s = .next (((put s fk f.d f.id false .b32 (s.group (fkBk fk) (fkG fk)).gsw.toNat).updGroup (fkBk fk) (fkG fk)
      fun gr => { gr with gsw := clearFlags (s.group (fkBk fk) (fkG fk)).gsw (value s fk f.a f.ia false) }).advance fk) := by
  simp only [Un.ready, readable, Bool.and_eq_true] at hr
  obtain ⟨hfree, hfreeA, hclean⟩ := hr
  have hplan := planOperands_ready (d := some (.reg f.d f.id false .b32)) (srcs := [⟨f.a, f.ia, false⟩]) (need := [true]) rfl
    (by simp [srcsReady, hfreeA, hclean]) (resolve_of_free hfree) (by rw [firstBad_resOf]; rfl) (busyRes_of_free hfree)
  refine next_congr ?_
  rw [runUnits_go h (a := (resOf s fk f.d f.id, value s fk f.a f.ia false)) (by rw [hplan]; dsimp only; rw [readSrcs_ready]; rfl)]
  have hput := block?_put hb hf f.d f.id false .b32 (s.group (fkBk fk) (fkG fk)).gsw.toNat
  have hgroup := group_put hb hf f.d f.id false .b32 (s.group (fkBk fk) (fkG fk)).gsw.toNat
  rw [← writeRes_eq_put s fk f.d f.id false .b32 _ fun _ => .inl rfl] at hput hgroup ⊢
  refine congrArg (State.advance · fk) ((cleared_frameless hput hf (fkG fk) (value s fk f.a f.ia false) (s.who fk)).trans ?_)
  rw [hgroup]

/-- Settles O6, form by form: the fields of the pattern, the order of the values, and the status word of the group. -/
theorem floatClassAndStatusResults : Obligations.FloatClassAndStatusResults := by
  unfold Obligations.FloatClassAndStatusResults
  refine ⟨fun s fk x => ⟨?_, ?_, ?_⟩, fun s fk x b hcalm => ⟨?_, ?_⟩⟩
  · intro f h hty hr
    obtain hv := value_narrow_lt s fk f.a f.ia
    refine ⟨next_congr ?_, next_congr ?_⟩
    · rw [unF_ready h hty hr, elemOf_eq_mod hty hv, signBit, if_pos rfl, (layout_of_isFph hty).2.2]
    · rw [unF_ready h hty hr, elemOf_eq_mod hty hv, flipSign_eq hty (Nat.mod_lt _ (Nat.two_pow_pos _))]
  · intro f h hty hr
    refine next_congr (runAlu_givesP h rfl (by simp [hr]) (congrArg (fun v => Except.ok (b2n v, 0)) ?_))
    change bit f.mask (fClassOf (fmtOf f.ty) (elemOf f.ty (value s fk f.a f.ia false))) = _
    rw [fClassOf_eq hty, elemOf_eq_mod hty (value_narrow_lt s fk f.a f.ia), bit_eq]
    exact congrArg (fun fr => f.mask.testBit (classOf (8 * f.ty.size) fr (value s fk f.a f.ia false % 2 ^ (8 * f.ty.size)))) (by cases f.ty <;> rfl)
  · intro f h hty hcc ha hb
    refine next_congr ?_
    rw [runAlu_pred h rfl (srcsReady_all (by simp [ha, hb])) rfl, b2n_ne_zero]
    dsimp only
    rw [fCompare_eq _ hcc]
    rfl
  · intro f h hd
    refine next_congr ?_
    rw [runAlu_reg h hd rfl (srcsReady_all (srcs := []) nofun) rfl .inl]
  · intro f h hr
    exact execFstatClr_ready h hcalm.block hcalm.frames hr

end Sys2Proof.Proofs
end

section
/-!
PROOFS. Conversions and `rand` (R179 to R184): what the forms write, and the conversions whose results follow from the formats alone.
-/
namespace Sys2Proof.Proofs
open Sys2Proof Sys2Proof.Machine Sys2Proof.Laws

/-! ### The forms (R179 to R183) -/

section
variable {s : State} {fk : Nat} {x : Fibre}

theorem execCvt_ready {f : CvtF} (h : Issues s f.g fk x) (hd : free s fk f.d f.id f.dty.wide = true) (ha : readable s fk f.a f.ia f.sty.wide = true) :
    execCvt f s = .next (gives s fk f.d f.id f.dty.wide f.dty (cvtAny f.dty f.sty f.sat f.hi f.rm (value s fk f.a f.ia f.sty.wide)).1
      (cvtAny f.dty f.sty f.sat f.hi f.rm (value s fk f.a f.ia f.sty.wide)).2) :=
  next_congr (runAlu_reg h hd rfl (srcsReady_all (srcs := [⟨f.a, f.ia, f.sty.wide⟩]) (by simp [ha])) rfl .inl)

/-- `cvt2` packs two FP16 or BF16 elements (R180). -/
theorem execCvt2_ready {f : Bin} (h : Issues s f.g fk x) (rm : RM) (hty : f.ty = .f16 ∨ f.ty = .bf16) (hr : Bin.ready s fk f false false false = true) :
    let p := cvtFF fmt32 (fmtOf f.ty) rm (value s fk f.a f.ia false)
    let q := cvtFF fmt32 (fmtOf f.ty) rm (value s fk f.b f.ib false)
    execCvt2 f rm s = .next (gives s fk f.d f.id false f.ty (p.1 + q.1 * 2 ^ 16) (p.2 ||| q.2)) :=
  next_congr (runBin_ready h hr fun _ => .inl (by rcases hty with e | e <;> rw [e] <;> rfl))

theorem execDqds8_ready {f : Bin} (h : Issues s f.g fk x) (k : Nat) (rm : RM) (hty : f.ty = .ds8) (hr : Bin.ready s fk f false false false = true) :
    let r := decodeDs8 (value s fk f.a f.ia false / 2 ^ (8 * k) % 256) (value s fk f.b f.ib false % 256) rm
    execDqds8 f k rm s = .next (gives s fk f.d f.id false f.ty r.1 r.2) :=
  next_congr (runBin_ready h hr fun _ => .inl (by rw [hty]; rfl))

/-- A number with byte `k` replaced. -/
def withByte (d k q : Nat) : Nat := d % 2 ^ (8 * k) + q % 256 * 2 ^ (8 * k) + d / 2 ^ (8 * k + 8) * 2 ^ (8 * k + 8)

/-- `qds8` reads D for the bytes that stay (R181). -/
theorem execQds8_ready {f : Bin} (h : Issues s f.g fk x) (k : Nat) (hty : f.ty = .ds8) (hr : Bin.ready s fk f false false false = true)
    (hd : clean s fk f.d f.id false = true) :
    let q := quantDs8 (value s fk f.a f.ia false) (value s fk f.b f.ib false % 256)
    execQds8 f k s = .next (gives s fk f.d f.id false f.ty (withByte (value s fk f.d f.id false) k q.1) q.2) := by
  simp only [Bin.ready, Bool.and_eq_true] at hr
  obtain ⟨⟨hfree, ha⟩, hb⟩ := hr
  have hD : readable s fk f.d f.id false = true := by simp [readable, hfree, hd]
  intro q
  exact next_congr (runAlu_reg (r := (withByte _ k q.1, q.2)) h hfree rfl (srcsReady_all (srcs := [⟨f.d, f.id, false⟩, ⟨f.a, f.ia, false⟩, ⟨f.b, f.ib, false⟩]) (by simp [hD, ha, hb])) rfl
    fun _ => .inl (by rw [hty]; rfl))

/-- `escale` reads D for the bytes that stay (R183). -/
theorem execEscale_ready {f : Un} (h : Issues s f.g fk x) (k : Nat) (hty : f.ty = .e8) (hr : Un.ready s fk f false false = true)
    (hd : clean s fk f.d f.id false = true) :
    let q := scaleOf (value s fk f.a f.ia false)
    execEscale f k s = .next (gives s fk f.d f.id false f.ty (withByte (value s fk f.d f.id false) k q.1) q.2) := by
  simp only [Un.ready, Bool.and_eq_true] at hr
  obtain ⟨hfree, ha⟩ := hr
  have hD : readable s fk f.d f.id false = true := by simp [readable, hfree, hd]
  intro q
  exact next_congr (runAlu_reg (r := (withByte _ k q.1, q.2)) h hfree rfl (srcsReady_all (srcs := [⟨f.d, f.id, false⟩, ⟨f.a, f.ia, false⟩]) (by simp [hD, ha])) rfl
    fun _ => .inl (by rw [hty]; rfl))

/-! ### rand (R184) -/

/-- A form whose function finds a class fault in its values takes it (R152). -/
theorem runAlu_error {g : Guard} (h : Issues s g fk x) {o : Opnd} {ind wide : Bool} {ty : Ty} {srcs : List Src} {need : State → Nat → List Bool}
    {op : State → Nat → List Nat → Except (FClass × Nat) (Nat × Nat)} {e : FClass × Nat} (hd : free s fk o ind wide = true)
    (hn : (need s fk).length = srcs.length) (hs : srcsReady s fk srcs (need s fk)) (he : op s fk (srcs.map fun y => value s fk y.o y.ind y.wide) = .error e) :
    runAlu s g (.reg o ind wide ty) srcs need op = s.faulted fk e.1 e.2 := by
  have hplan := planOperands_ready (d := some (.reg o ind wide ty)) hn hs (resolve_of_free hd) (by rw [firstBad_resOf]; rfl) (busyRes_of_free hd)
  rw [runAlu, runUnits_fault h]
  simp only [only_rep, hplan, readSrcs_ready, he]

/-- The stream is taken after the operands' checks; stream 0xFFFF is an illegal instruction. -/
theorem execRand_ready {f : Bin} (h : Issues s f.g fk x) (hr : Bin.ready s fk f f.ty.wide true false = true) :
    let sid := value s fk f.b f.ib false % 65536
    execRand f s = if sid = 65535 then .next (s.openFault (fkBk fk) fk .il s.ipc)
      else .next (gives s fk f.d f.id f.ty.wide f.ty
        (randVal f.ty (hashH (s.rcbOf (fkBk fk)).seed (s.rcbOf (fkBk fk)).cbase (value s fk f.a f.ia true) sid)) 0) := by
  simp only [Bin.ready, Bool.and_eq_true] at hr
  obtain ⟨⟨hd, ha⟩, hb⟩ := hr
  have hsrcs : srcsReady s fk [⟨f.a, f.ia, true⟩, ⟨f.b, f.ib, false⟩] [true, true] :=
    srcsReady_all (srcs := [⟨f.a, f.ia, true⟩, ⟨f.b, f.ib, false⟩]) (by simp [ha, hb])
  intro sid
  split
  · next hsid => exact next_congr (runAlu_error (e := (.il, openDet)) h hd rfl hsrcs (if_pos hsid))
  · next hsid => exact next_congr (runAlu_reg (r := (_, 0)) h hd rfl hsrcs (if_neg hsid) .inl)

end

/-- Settles O7: each form's operands are ready, so it writes what its function gives. -/
theorem conversionResults : Obligations.ConversionResults := by
  unfold Obligations.ConversionResults
  intro s fk x
  refine ⟨fun f h => execCvt_ready h, fun f rm h hty => execCvt2_ready h rm hty, ?_, ?_, fun f h _ hr => execRand_ready h hr⟩
  · exact fun f k rm h hty _ hr => ⟨execDqds8_ready h k rm hty hr, execQds8_ready h k hty hr⟩
  · exact fun f k h hty _ hr hd => execEscale_ready h k hty hr hd

end Sys2Proof.Proofs
end


section
/-!
PROOFS. A send's payload (R367): the statement asks for OK where the payload's line in memory is not poisoned, and a task reads the bytes that it has
renamed from its rename buffer (R295), whose line may be.
-/
namespace Sys2Proof.Proofs
open Sys2Proof Sys2Proof.Machine Sys2Proof.Tests

/-- A task whose 16 bytes at 0x20000 are renamed to the buffer at 0x30000, the first of them written. -/
def renamingTask : TaskRec := { task0 with ren := [(0x20000, 16, 0x30000)], bufset := [(0x20000, true)] }
def renamingBlock : Block := { placedBlock with task := some renamingTask }

/-- A send of those 16 bytes to the last mailbox. -/
def renamedLane : Lane := laneOf 0 0x20000 .none .pending (0xFFFF * 2 ^ 80 + 16 * 2 ^ 65) 0
def renamedSend : Op := opOf (mbxI .msend .st (.s 95)) renamedLane

/-- The send under way at an idle mailbox, the buffer's line poisoned in memory. -/
def poisonedBuffer : State :=
  let s := State.withBlock (box idle (under renamedSend)) renamingBlock
  { s with mem := { s.mem with dpoison := [(0x30000 / 128, true)] } }

/-- The payload's own line is plain memory without poison. -/
theorem poisonedBuffer_payload : poisonedBuffer.check 0 0x20000 16 1 .load false = .ok (.mem 0x20000 0) ∧ poisonedBuffer.memUp 0x20000 0 = true ∧
    poisonedBuffer.mem.stages = [] ∧ poisonedBuffer.mem.dramPois (0x20000 / 128) = false ∧ poisonedBuffer.mem.homePois (0x20000 / 128) = false := by
  decide +kernel

theorem poisonedBuffer_ready : poisonedBuffer.allReady 0 := ready_one _ rfl 0

/-- The read of the payload meets the buffer's poison: the send fails with 0xFF, and the mailbox has taken no action. -/
theorem poisonedBuffer_sends : ((after (exec (.msendApply 1) poisonedBuffer)).mbx 0xFFFF).st = .idle ∧
    (after (exec (.msendApply 1) poisonedBuffer)).uraw 0 0 95 = rcFault := by decide +kernel

/-- Refutes O54: the first byte of the payload comes from the task's rename buffer, whose line is poisoned (R63, R295), so the send fails and its mailbox
stays idle. -/
theorem not_formsComplete : ¬ Obligations.FormsComplete := by
  unfold Obligations.FormsComplete
  intro h
  obtain ⟨-, -, -, hsend, -⟩ := h
  obtain ⟨t, ht, hact, -⟩ := hsend poisonedBuffer renamedSend renamedLane renamingBlock placedLaunch 95 rfl rfl rfl rfl rfl
    poisonedBuffer_ready rfl (by decide) rfl rfl rfl (by decide) (.inl (by decide)) (.inl (by decide)) (by decide) (by decide)
    (.inr ⟨0x20000, 0, by decide, by decide, by decide, poisonedBuffer_payload⟩)
  have hbox : renamedLane.src / 2 ^ 80 % 2 ^ 16 = 0xFFFF := by decide
  have hid : renamedSend.id = 1 := rfl
  obtain ⟨hidle, -⟩ := poisonedBuffer_sends
  rw [← hid, ht] at hidle
  rw [hbox] at hact
  exact absurd (hact.symm.trans hidle) (by decide)

end Sys2Proof.Proofs
end
